-- ==== Sys2Proof/Word.lean ====
section
/-!
DEFINITION. The word types of the N4 (R3: bits numbered from 0, little-endian storage) and their plainest arithmetic.
-/

namespace Sys2Proof

/-- One byte of storage. -/
abbrev Byte := BitVec 8

/-- A 32-bit register value (R7). -/
abbrev Word := BitVec 32

/-- A 64-bit value: a register pair, an address, a wall time (R3). -/
abbrev DWord := BitVec 64

/-- A 25-bit program counter: HANDLE 24:13, LINE 12:3, SLOT 2:0 (R100). -/
abbrev PC := BitVec 25

/-- A 96-bit instruction word (R105). -/
abbrev IWord := BitVec 96

/-- Bits `lo + n - 1 : lo` of a natural number, as a natural number. -/
def bitsOf (x lo n : Nat) : Nat := x / 2 ^ lo % 2 ^ n

/-- A 64-bit value from its low and high halves: the low half lies in the even register (R3, R109). -/
def pairOf (lo hi : Word) : DWord := hi ++ lo

/-- The low half of a pair. -/
def loWord (x : DWord) : Word := x.extractLsb' 0 32

/-- The high half of a pair. -/
def hiWord (x : DWord) : Word := x.extractLsb' 32 32

end Sys2Proof
end

