-- ==== Sys2Proof/Machine/Ecc.lean ====
section
/-!
DEFINITION. The two tiers that protect GDDR7 (R328, R329), over errors: both codes are linear, so what a flipped bit of a stored sector,
of a CRC sector or of a parity sector does follows from the flipped bits alone.
-/

namespace Sys2Proof

/-! ## CRC tier -/

/-- Byte `k` of a 64-byte sector, byte 0 the lowest. -/
def sectorByte (x k : Nat) : Nat := bitsOf x (8 * k) 8

/-- One bit of CRC-16 with polynomial 0x1021, unreflected. -/
def crc16Bit (c : Nat) : Nat := if c / 2 ^ 15 % 2 = 1 then (c * 2 % 2 ^ 16) ^^^ 0x1021 else c * 2 % 2 ^ 16

/-- R328: CRC-16 of bytes in ascending order from an initial value. -/
def crc16 (init : Nat) (bs : List Nat) : Nat :=
  bs.foldl (fun c b => (List.range 8).foldl (fun c _ => crc16Bit c) (c ^^^ (b * 256))) init

/-- What flipped bits change in the CRC of `n` bytes: the initial value drops out. -/
def crcChange (x n : Nat) : Nat := crc16 0 ((List.range n).map (sectorByte x))

/-- R328: the stored CRC of sector `j` in a CRC sector; its own is that of sector 31. -/
def storedCrc (x j : Nat) : Nat := sectorByte x (2 * j) + 256 * sectorByte x (2 * j + 1)

/-- R329: sector `j` of a group fails its CRC; `flips j` are the flipped bits of sector `j`. -/
def crcFails (flips : Nat → Nat) (j : Nat) : Bool := crcChange (flips j) (if j = 31 then 62 else 64) != storedCrc (flips 31) j

/-! ## Parity tier -/

/-- Twice an element of GF(2^8); `poly` is the field's polynomial without its highest term. -/
def byteTwice (poly a : Nat) : Nat := if a / 128 % 2 = 1 then (a * 2 % 256) ^^^ poly else a * 2 % 256

/-- The product of two elements: bit by bit of the second, from its lowest. -/
def byteMul (poly a b : Nat) : Nat :=
  ((List.range 8).foldl (fun (r : Nat × Nat) k => (if b.testBit k then r.1 ^^^ r.2 else r.1, byteTwice poly r.2)) (0, a)).1

/-- The inverse a^254; 0 for 0. -/
def byteInv (poly a : Nat) : Nat := (List.range 253).foldl (fun r _ => byteMul poly r a) a

/-- The product of two elements under the primitive polynomial x^8 + x^4 + x^3 + x^2 + 1. -/
def gfMul (a b : Nat) : Nat := byteMul 0x1D a b

/-- The power α^n. -/
def gfPow (n : Nat) : Nat := (List.range n).foldl (fun a _ => byteTwice 0x1D a) 1

/-- R328: the flipped bits of codeword `c` of a group by symbol: bytes 2c and 2c + 1 of the 32 sectors, then of the parity sector, which is
sector 32 here. -/
def codeSymbols (flips : Nat → Nat) (c : Nat) : List Nat := (List.range 66).map fun i => sectorByte (flips (i / 2)) (2 * c + i % 2)

/-- The power of α that belongs to symbol `i` of 66: the first symbol is the highest coefficient (PRESUMED; log 86). -/
def symbolPower (i : Nat) : Nat := gfPow (65 - i)

/-- R329: with both symbols of sector `j` erased, what the decoded ones still differ by from the true ones. -/
def decodedPair (flips : Nat → Nat) (j c : Nat) : Nat × Nat :=
  let others := (codeSymbols flips c).zipIdx.filter fun s => s.2 / 2 != j
  let e0 := others.foldl (fun a s => a ^^^ s.1) 0
  let e1 := others.foldl (fun a s => a ^^^ gfMul s.1 (symbolPower s.2)) 0
  let p := symbolPower (2 * j)
  let q := symbolPower (2 * j + 1)
  let a := gfMul (e1 ^^^ gfMul e0 q) (byteInv 0x1D (p ^^^ q))
  (a, e0 ^^^ a)

/-- R329: the bits in which the decoded sector `j` differs from the true one. -/
def decodedFlips (flips : Nat → Nat) (j : Nat) : Nat :=
  ((List.range 32).map fun c => (decodedPair flips j c).1 * 2 ^ (16 * c) + (decodedPair flips j c).2 * 2 ^ (16 * c + 8)).sum

/-- R329: how the check of a data sector ends. -/
inductive SectorCheck
  /-- The CRC holds. -/
  | holds
  /-- It was the only sector of its group that failed; the bits in which the decoded one still differs. -/
  | corrected (flips : Nat)
  /-- The data sectors of the group that failed. -/
  | lost (sectors : List Nat)
  deriving DecidableEq, Repr

/-- R329: a read of data sector `j` of a group. -/
def checkGroup (flips : Nat → Nat) (j : Nat) : SectorCheck :=
  if !crcFails flips j then .holds
  else
    let failing := (List.range 32).filter (crcFails flips)
    let decoded := decodedFlips flips j
    if failing = [j] ∧ crcChange decoded 64 = storedCrc (flips 31) j then .corrected decoded else .lost (failing.filter (· != 31))

/-- R329: the CRC sector after a write of sector `j`: that sector's CRC is right, and so is its own. -/
def refreshedCrc (x j : Nat) : Nat :=
  let y := (x - bitsOf x (16 * j) 16 * 2 ^ (16 * j)) % 2 ^ 496
  y + crcChange y 62 * 2 ^ 496

end Sys2Proof
end

