-- ==== Sys2Proof/Machine/Aes.lean ====
section
/-!
DEFINITION. AES-256 (FIPS 197), its XTS mode over one 64-byte data unit (IEEE 1619; R336), and AES key wrap (NIST SP 800-38F, KW; R349).
Bytes are numbers below 256, in the order in which the standards write them.
-/

namespace Sys2Proof

/-! ## The field and the S-box -/

/-- The product of two elements of GF(2^8) under x^8 + x^4 + x^3 + x + 1. -/
def aesMul (a b : Nat) : Nat := byteMul 0x1B a b

/-- The inverse; 0 for 0. -/
def aesInv (a : Nat) : Nat := byteInv 0x1B a

/-- A byte rotated left. -/
def rotByte (a k : Nat) : Nat := a * 2 ^ k % 256 + a / 2 ^ (8 - k)

/-- The S-box. -/
def aesSub (a : Nat) : Nat := let b := aesInv a; b ^^^ rotByte b 1 ^^^ rotByte b 2 ^^^ rotByte b 3 ^^^ rotByte b 4 ^^^ 0x63

/-- Its inverse. -/
def aesUnsub (a : Nat) : Nat := aesInv (rotByte a 1 ^^^ rotByte a 3 ^^^ rotByte a 6 ^^^ 0x05)

/-! ## Key expansion -/

/-- Bytes of two lists added. -/
def xorBytes (a b : List Nat) : List Nat := (a.zip b).map fun p => p.1 ^^^ p.2

/-- The round constant of step `n`, from 1. -/
def aesRcon (n : Nat) : Nat := (List.range (n - 1)).foldl (fun a _ => byteTwice 0x1B a) 1

/-- The words of the key schedule so far with the next one. -/
def aesNextWord (ws : List (List Nat)) : List (List Nat) :=
  let i := ws.length
  let last := (ws[i - 1]?).getD []
  let mixed :=
    if i % 8 = 0 then xorBytes ((last.drop 1 ++ last.take 1).map aesSub) [aesRcon (i / 8), 0, 0, 0]
    else if i % 8 = 4 then last.map aesSub
    else last
  ws ++ [xorBytes ((ws[i - 8]?).getD []) mixed]

/-- The 15 round keys of a 32-byte key, 16 bytes each. -/
def aesKeys (key : List Nat) : List (List Nat) :=
  let ws := (List.range 52).foldl (fun ws _ => aesNextWord ws) ((List.range 8).map fun k => (key.drop (4 * k)).take 4)
  (List.range 15).map fun r => ((ws.drop (4 * r)).take 4).flatten

/-! ## The cipher and its inverse -/

/-- Byte `i` of a block moved by the rows' shifts; `back` moves the other way. -/
def aesShift (back : Bool) (b : List Nat) : List Nat :=
  (List.range 16).map fun i => (b[4 * ((i / 4 + (if back then 4 - i % 4 else i % 4)) % 4) + i % 4]?).getD 0

/-- The columns of a block multiplied by the circulant matrix of a row. -/
def aesMix (row : List Nat) (b : List Nat) : List Nat :=
  (List.range 16).map fun i =>
    ((List.range 4).map fun k => aesMul ((row[(k + 4 - i % 4) % 4]?).getD 0) ((b[i / 4 * 4 + k]?).getD 0)).foldl (· ^^^ ·) 0

/-- The cipher on one block of 16 bytes, the round keys given. -/
def aesBlock (keys : List (List Nat)) (b : List Nat) : List Nat :=
  let key (r : Nat) : List Nat := (keys[r]?).getD []
  let c := (List.range 13).foldl (fun c r => xorBytes (aesMix [2, 3, 1, 1] (aesShift false (c.map aesSub))) (key (r + 1)))
    (xorBytes b (key 0))
  xorBytes (aesShift false (c.map aesSub)) (key 14)

/-- The inverse cipher. -/
def aesUnblock (keys : List (List Nat)) (b : List Nat) : List Nat :=
  let key (r : Nat) : List Nat := (keys[r]?).getD []
  let c := (List.range 13).foldl (fun c r => aesMix [14, 11, 13, 9] (xorBytes ((aesShift true c).map aesUnsub) (key (13 - r))))
    (xorBytes b (key 14))
  xorBytes ((aesShift true c).map aesUnsub) (key 0)

/-! ## XTS (R336) -/

/-- A number as bytes, the least significant first. -/
def natBytes (n x : Nat) : List Nat := (List.range n).map fun i => bitsOf x (8 * i) 8

/-- The number that bytes give, the least significant first. -/
def bytesNat (bs : List Nat) : Nat := bs.foldr (fun b n => b + 256 * n) 0

/-- A tweak times the primitive element of GF(2^128). -/
def xtsTwice (t : Nat) : Nat := if t / 2 ^ 127 % 2 = 1 then (t * 2 % 2 ^ 128) ^^^ 0x87 else t * 2 % 2 ^ 128

/-- The masks of the four blocks of a data unit. -/
def xtsMasks (key2 : List (List Nat)) (tweak : Nat) : List (List Nat) :=
  let t := bytesNat (aesBlock key2 (natBytes 16 tweak))
  (List.range 4).map fun j => natBytes 16 ((List.range j).foldl (fun t _ => xtsTwice t) t)

/-- A data unit of 64 bytes passed block by block through a cipher under its masks. -/
def xtsUnit (cipher : List Nat → List Nat) (masks : List (List Nat)) (x : Nat) : Nat :=
  bytesNat ((List.range 4).flatMap fun j =>
    let m := (masks[j]?).getD []
    xorBytes (cipher (xorBytes (natBytes 16 (bitsOf x (128 * j) 128)) m)) m)

/-- R336: the ciphertext of a 64-byte data unit under a key pair of 64 bytes and a tweak. -/
def xtsEncrypt (key tweak x : Nat) : Nat :=
  let k := natBytes 64 key
  xtsUnit (aesBlock (aesKeys (k.take 32))) (xtsMasks (aesKeys (k.drop 32)) tweak) x

/-- R336: the data unit that a ciphertext gives. -/
def xtsDecrypt (key tweak x : Nat) : Nat :=
  let k := natBytes 64 key
  xtsUnit (aesUnblock (aesKeys (k.take 32))) (xtsMasks (aesKeys (k.drop 32)) tweak) x

/-! ## Key wrap (R349) -/

/-- The step counter as eight bytes, the most significant first. -/
def wrapCount (t : Nat) : List Nat := (natBytes 8 t).reverse

/-- One step of wrapping: the register and the semiblocks, of which number `i` is replaced. -/
def wrapStep (keys : List (List Nat)) (r : List Nat × List (List Nat)) (t : Nat) : List Nat × List (List Nat) :=
  let i := (t - 1) % 8
  let b := aesBlock keys (r.1 ++ (r.2[i]?).getD [])
  (xorBytes (b.take 8) (wrapCount t), r.2.set i (b.drop 8))

/-- One step of unwrapping. -/
def unwrapStep (keys : List (List Nat)) (r : List Nat × List (List Nat)) (t : Nat) : List Nat × List (List Nat) :=
  let i := (t - 1) % 8
  let b := aesUnblock keys (xorBytes r.1 (wrapCount t) ++ (r.2[i]?).getD [])
  (b.take 8, r.2.set i (b.drop 8))

/-- R349 step 2: 64 bytes wrapped under a 32-byte key: 72 bytes. -/
def wrapKey (kek plain : List Nat) : List Nat :=
  let r := (List.range 48).foldl (fun r j => wrapStep (aesKeys kek) r (j + 1))
    (List.replicate 8 0xA6, (List.range 8).map fun i => (plain.drop (8 * i)).take 8)
  r.1 ++ r.2.flatten

/-- R349 step 6: what 72 bytes unwrap to, where they do. -/
def unwrapKey (kek wrapped : List Nat) : Option (List Nat) :=
  let r := (List.range 48).foldl (fun r j => unwrapStep (aesKeys kek) r (48 - j))
    (wrapped.take 8, (List.range 8).map fun i => (wrapped.drop (8 + 8 * i)).take 8)
  if r.1 = List.replicate 8 0xA6 then some r.2.flatten else none

end Sys2Proof
end

