-- ==== Sys2Proof/Syntax/Fields.lean ====
section
/-!
DEFINITION. The typed fields of an instruction word: operand kinds (R109, R110), format codes (R32), hints (R108), and the
five formats' field groups (R112 to R116); and the arguments of the device steps that are no instruction words.
-/

namespace Sys2Proof

/-- The specials of R110. -/
inductive Special
  | lane | cvid | colid | route | task | recIx | tx | ty | ex | ey | bmode | clklo | clkhi | fault | part
  deriving DecidableEq, Repr

/-- An operand field under R109. Reserved codes name no operand. -/
inductive Operand
  /-- v0 to v127. -/
  | v (n : BitVec 7)
  /-- s0 to s63. -/
  | s (n : BitVec 6)
  /-- p0 to p7. -/
  | p (n : BitVec 3)
  /-- q0 to q3. -/
  | q (n : BitVec 2)
  /-- A special of R110. -/
  | sp (x : Special)
  /-- 0xFF: reads as zero, discards a result. -/
  | none
  deriving DecidableEq, Repr

/-- The number formats of R32; `none` is code 0. -/
inductive Fmt
  | none | i8 | i16 | i32 | i64 | n8 | n16 | n32 | n64 | i4 | i2 | b1
  | f32 | f16 | bf16 | f8e4 | f8e5 | f6e3 | f6e2 | f4 | cb4 | e8
  deriving DecidableEq, Repr

/-- A guard: a predicate number and a negate bit (R105, R106). -/
structure Guard where
  neg : Bool
  p : BitVec 3
  deriving DecidableEq, Repr

/-- The cache hints of R108; codes 6 and 7 name none. -/
inductive Hint
  | default | stream | keep | long | evict | home
  deriving DecidableEq, Repr

/-- The RND codes of R112; `rule` is code 0, the rule of R46. -/
inductive Rnd
  | rule | rne | rz | ru | rd
  deriving DecidableEq, Repr

/-- The SIZE codes 0 to 4 of R114: 1, 2, 4, 8 and 16 bytes. -/
inductive Size
  | b1 | b2 | b4 | b8 | b16
  deriving DecidableEq, Repr

/-- The SPACE codes 0 and 1 of R114. -/
inductive Space
  | global | scratch
  deriving DecidableEq, Repr

/-- The SCOPE codes 0 to 4 of R114. -/
inductive Scope
  | none | cv | col | dev | sys
  deriving DecidableEq, Repr

/-- The common fields of every instruction word (R105). -/
structure Hdr where
  g1 : Guard
  g2 : Guard
  hint : Hint
  ce : Bool
  live : BitVec 7
  deriving DecidableEq, Repr

/-- R format (R112). -/
structure RForm where
  h : Hdr
  a : Operand
  b : Operand
  c : Operand
  d : Operand
  e : Operand
  ty : Fmt
  subop : BitVec 6
  rnd : Rnd
  sat : Bool
  ent : BitVec 12
  deriving DecidableEq, Repr

/-- I format (R113): IMM is one 32-bit value. -/
structure IForm where
  h : Hdr
  a : Operand
  b : Operand
  imm : Word
  ty : Fmt
  subop : BitVec 6
  ent : BitVec 8
  deriving DecidableEq, Repr

/-- M format (R114): `scale` is the SCALE code, 0 to 4. -/
structure MForm where
  h : Hdr
  a : Operand
  b : Operand
  c : Operand
  off : BitVec 16
  size : Size
  space : Space
  scope : Scope
  scale : Fin 5
  ty : Fmt
  ent : BitVec 11
  deriving DecidableEq, Repr

/-- X format (R115, R200). -/
structure XForm where
  h : Hdr
  clr : Bool
  isat : Bool
  urg : BitVec 2
  tile : BitVec 4
  b : Operand
  c : Operand
  d : Operand
  e : Operand
  slotA : BitVec 3
  slotB : BitVec 3
  km1 : BitVec 5
  cven : Bool
  cvn : BitVec 4
  variant : BitVec 11
  deriving DecidableEq, Repr

/-- B format (R116, R219). -/
structure BForm where
  h : Hdr
  a : Operand
  b : Operand
  c : Operand
  d : Operand
  e : Operand
  tline : BitVec 10
  tslot : BitVec 3
  ent : BitVec 14
  deriving DecidableEq, Repr

/-- How a host AtomicOp request was completed (R173). -/
inductive HostReply
  | success | unsupported | error
  deriving DecidableEq, Repr

/-- The AtomicOps of PCI Express that a host sends to the module (R359). -/
inductive HostAtomicKind
  | fetchAdd | swap | cas
  deriving DecidableEq, Repr

/-- An access that another module sends over a causeway (R83). `physical` addresses are those of this module. -/
inductive PeerAccess
  | load (pa n : Nat)
  | store (pa : Nat) (data : List Byte)
  /-- One of the atomics of R170: opcode offset from ATADD, type, operand and compare value, size 4 or 8. -/
  | atomic (kind : Nat) (ty : Fmt) (pa size : Nat) (a b : DWord)
  deriving DecidableEq, Repr

end Sys2Proof
end

