-- ==== Sys2Proof/Syntax.lean ====
section
/-!
DEFINITION. The one inductive of instructions: a constructor for every row of the opcode table, the instruction words of
R118 first (their fields are those of the word's format) and then the indivisible device steps.
-/

namespace Sys2Proof

/-- Every row of the opcode table. -/
inductive Instr
  /-- IADD (R124). -/
  | iadd (f : RForm)
  /-- ISUB (R124). -/
  | isub (f : RForm)
  /-- IMUL (R124). -/
  | imul (f : RForm)
  /-- IMULH (R124). -/
  | imulh (f : RForm)
  /-- IMAD (R124). -/
  | imad (f : RForm)
  /-- IADDX (R126). -/
  | iaddx (f : RForm)
  /-- ISUBX (R126). -/
  | isubx (f : RForm)
  /-- IMADX (R126). -/
  | imadx (f : RForm)
  /-- LEA (R127). -/
  | lea (f : MForm)
  /-- IMIN (R124). -/
  | imin (f : RForm)
  /-- IMAX (R124). -/
  | imax (f : RForm)
  /-- IABS (R124). -/
  | iabs (f : RForm)
  /-- INEG (R124). -/
  | ineg (f : RForm)
  /-- IDIV (R125). -/
  | idiv (f : RForm)
  /-- IREM (R125). -/
  | irem (f : RForm)
  /-- SADD (R124). -/
  | sadd (f : RForm)
  /-- SSUB (R124). -/
  | ssub (f : RForm)
  /-- IDP4 (R128). -/
  | idp4 (f : RForm)
  /-- IDP8 (R128). -/
  | idp8 (f : RForm)
  /-- IDP2 (R128). -/
  | idp2 (f : RForm)
  /-- MOV (R129). -/
  | mov (f : RForm)
  /-- MOVI (R129). -/
  | movi (f : IForm)
  /-- MOVH (R129). -/
  | movh (f : IForm)
  /-- SEL (R130). -/
  | sel (f : RForm)
  /-- AND (R131). -/
  | band (f : RForm)
  /-- OR (R131). -/
  | bor (f : RForm)
  /-- XOR (R131). -/
  | bxor (f : RForm)
  /-- NOT (R131). -/
  | bnot (f : RForm)
  /-- ANDN (R131). -/
  | bandn (f : RForm)
  /-- SHL (R132). -/
  | shl (f : RForm)
  /-- SHR (R132). -/
  | shr (f : RForm)
  /-- SAR (R132). -/
  | sar (f : RForm)
  /-- ROT (R132). -/
  | rot (f : RForm)
  /-- BFX (R133). -/
  | bfx (f : RForm)
  /-- BFI (R133). -/
  | bfi (f : RForm)
  /-- POPC (R134). -/
  | popc (f : RForm)
  /-- CLZ (R134). -/
  | clz (f : RForm)
  /-- BREV (R134). -/
  | brev (f : RForm)
  /-- ICMP (R135). -/
  | icmp (f : RForm)
  /-- PAND (R136). -/
  | pand (f : RForm)
  /-- POR (R136). -/
  | por (f : RForm)
  /-- PXOR (R136). -/
  | pxor (f : RForm)
  /-- PNOT (R136). -/
  | pnot (f : RForm)
  /-- PSET (R136). -/
  | pset (f : RForm)
  /-- FADD (R148). -/
  | fadd (f : RForm)
  /-- FSUB (R148). -/
  | fsub (f : RForm)
  /-- FMUL (R148). -/
  | fmul (f : RForm)
  /-- FFMA (R148). -/
  | ffma (f : RForm)
  /-- FMIN (R148). -/
  | fmin (f : RForm)
  /-- FMAX (R148). -/
  | fmax (f : RForm)
  /-- FABS (R148). -/
  | fabs (f : RForm)
  /-- FNEG (R148). -/
  | fneg (f : RForm)
  /-- FCMP (R150). -/
  | fcmp (f : RForm)
  /-- FRCP (R148). -/
  | frcp (f : RForm)
  /-- FSQRT (R148). -/
  | fsqrt (f : RForm)
  /-- FRSQ (R149). -/
  | frsq (f : RForm)
  /-- FCLASS (R151). -/
  | fclass (f : RForm)
  /-- HADD2 (R153). -/
  | hadd2 (f : RForm)
  /-- HMUL2 (R153). -/
  | hmul2 (f : RForm)
  /-- HFMA2 (R153). -/
  | hfma2 (f : RForm)
  /-- FSCALE (R148). -/
  | fscale (f : RForm)
  /-- FEXPN (R152). -/
  | fexpn (f : RForm)
  /-- CVT (R154). -/
  | cvt (f : RForm)
  /-- CVTI (R154). -/
  | cvti (f : RForm)
  /-- ICVT (R154). -/
  | icvt (f : RForm)
  /-- QNT (R155). -/
  | qnt (f : RForm)
  /-- DQNT (R155). -/
  | dqnt (f : RForm)
  /-- EXP2 (R158). -/
  | exp2 (f : RForm)
  /-- LOG2 (R158). -/
  | log2 (f : RForm)
  /-- SIN (R158). -/
  | sin (f : RForm)
  /-- COS (R158). -/
  | cos (f : RForm)
  /-- TANH (R158). -/
  | tanh (f : RForm)
  /-- SMXI (R160). -/
  | smxi (f : RForm)
  /-- SMXACC (R160). -/
  | smxacc (f : RForm)
  /-- SMXNRM (R160). -/
  | smxnrm (f : RForm)
  /-- VOTE (R139). -/
  | vote (f : RForm)
  /-- SHFL (R140). -/
  | shfl (f : RForm)
  /-- REDADD (R141). -/
  | redadd (f : RForm)
  /-- REDMAX (R141). -/
  | redmax (f : RForm)
  /-- REDMIN (R141). -/
  | redmin (f : RForm)
  /-- SCAN (R142). -/
  | scan (f : RForm)
  /-- MATCH (R143). -/
  | matchv (f : RForm)
  /-- LD (R165). -/
  | ld (f : MForm)
  /-- ST (R165). -/
  | st (f : MForm)
  /-- LDS (R165). -/
  | lds (f : MForm)
  /-- STS (R165). -/
  | sts (f : MForm)
  /-- LDX (R166). -/
  | ldx (f : MForm)
  /-- STX (R166). -/
  | stx (f : MForm)
  /-- LDB (R167). -/
  | ldb (f : MForm)
  /-- PF (R168). -/
  | pf (f : MForm)
  /-- LDQ (R169). -/
  | ldq (f : MForm)
  /-- STQ (R169). -/
  | stq (f : MForm)
  /-- ATADD (R170). -/
  | atadd (f : MForm)
  /-- ATADDF (R170). -/
  | ataddf (f : MForm)
  /-- ATMIN (R170). -/
  | atmin (f : MForm)
  /-- ATMAX (R170). -/
  | atmax (f : MForm)
  /-- ATAND (R170). -/
  | atand (f : MForm)
  /-- ATOR (R170). -/
  | ator (f : MForm)
  /-- ATXOR (R170). -/
  | atxor (f : MForm)
  /-- ATXCH (R170). -/
  | atxch (f : MForm)
  /-- ATCAS (R170). -/
  | atcas (f : MForm)
  /-- ATINC (R170). -/
  | atinc (f : MForm)
  /-- FENCE (R87). -/
  | fence (f : RForm)
  /-- BARI (R187). -/
  | bari (f : MForm)
  /-- BARA (R187). -/
  | bara (f : MForm)
  /-- BARW (R187). -/
  | barw (f : MForm)
  /-- BARAW (R187). -/
  | baraw (f : MForm)
  /-- WAITA (R188). -/
  | waita (f : MForm)
  /-- WAITC (R182). -/
  | waitc (f : IForm)
  /-- SIGN (R184). -/
  | sign (f : RForm)
  /-- NAP (R183). -/
  | nap (f : IForm)
  /-- MMA (R201). -/
  | mma (f : XForm)
  /-- MMAT (R202). -/
  | mmat (f : XForm)
  /-- PLST (R203). -/
  | plst (f : XForm)
  /-- ACZ (R204). -/
  | acz (f : XForm)
  /-- ACLD (R204). -/
  | acld (f : XForm)
  /-- ACST (R204). -/
  | acst (f : XForm)
  /-- ACRD (R205). -/
  | acrd (f : XForm)
  /-- ACWR (R205). -/
  | acwr (f : XForm)
  /-- CBLD (R206). -/
  | cbld (f : XForm)
  /-- CKRD (R207). -/
  | ckrd (f : RForm)
  /-- CPY (R175). -/
  | cpy (f : MForm)
  /-- CPY2 (R175). -/
  | cpy2 (f : MForm)
  /-- CPYP (R177). -/
  | cpyp (f : MForm)
  /-- CPYQ (R175). -/
  | cpyq (f : MForm)
  /-- QRD (R178). -/
  | qrd (f : MForm)
  /-- QACK (R179). -/
  | qack (f : MForm)
  /-- QWR (R180). -/
  | qwr (f : MForm)
  /-- EMIT (R180). -/
  | emit (f : MForm)
  /-- BRA (R221). -/
  | bra (f : BForm)
  /-- BRX (R222). -/
  | brx (f : BForm)
  /-- CALL (R221). -/
  | call (f : BForm)
  /-- RET (R221). -/
  | ret (f : BForm)
  /-- LOOP (R221). -/
  | loop (f : BForm)
  /-- EXIT (R223). -/
  | exit (f : BForm)
  /-- YIELD (R223). -/
  | yield (f : BForm)
  /-- TRAP (R232). -/
  | trap (f : BForm)
  /-- NOP (R223). -/
  | nop (f : BForm)
  /-- BKPT (R232). -/
  | bkpt (f : BForm)
  /-- OVL (R224). -/
  | ovl (f : BForm)
  /-- OVLQ (R225). -/
  | ovlq (f : BForm)
  /-- OVLPIN (R226). -/
  | ovlpin (f : BForm)
  /-- OVLREL (R226). -/
  | ovlrel (f : BForm)
  /-- OVLEV (R227). -/
  | ovlev (f : BForm)
  /-- CALLO (R228). -/
  | callo (f : BForm)
  /-- RETO (R229). -/
  | reto (f : BForm)
  /-- BSUM (R254). -/
  | bsum (f : MForm)
  /-- FILL (R255). -/
  | fill (f : MForm)
  /-- DEFER (R257). -/
  | defer (f : BForm)
  /-- SPLIT (R257). -/
  | split (f : BForm)
  /-- WIDEN (R258). -/
  | widen (f : RForm)
  /-- BDONE (R257). -/
  | bdone (f : BForm)
  /-- MOVS (R235). -/
  | movs (f : RForm)
  /-- MOVC (R235). -/
  | movc (f : RForm)
  /-- CLK (R236). -/
  | clk (f : RForm)
  /-- PERF (R236). -/
  | perf (f : RForm)
  /-- FWCALL (R237). -/
  | fwcall (f : IForm)
  /-- TRAPRET (R233). -/
  | trapret (f : BForm)
  /-- UNASSIGNED_OPCODE (R119). -/
  | unassignedOpcode (w : IWord)
  /-- FETCH_PARITY_RETRY (R103). -/
  | fetchParityRetry
  /-- CONVOY_WAKE (R26). -/
  | convoyWake (col cv : Nat)
  /-- WAIT_BOUND_EXPIRY (R187). -/
  | waitBoundExpiry (col cv : Nat)
  /-- NAP_EXPIRY (R183). -/
  | napExpiry (col cv : Nat)
  /-- FWCALL_ANSWER (R237). -/
  | fwcallAnswer (col cv : Nat)
  /-- LOAD_RETURN (R93); with `evicted` the L1 copy is gone, and a scratchpad load is performed before the convoy's arrival (R97). -/
  | loadReturn (op grp : Nat) (evicted : Bool)
  /-- STORE_ARRIVAL (R77). -/
  | storeArrival (op grp : Nat)
  /-- STORE_ACK (R80). -/
  | storeAck (op : Nat)
  /-- HOST_ATOMIC_COMPLETION (R173). -/
  | hostAtomicCompletion (op : Nat) (reply : HostReply)
  /-- READ_AHEAD_FETCH (R94). -/
  | readAheadFetch (col cv port : Nat)
  /-- PUSH_PERFORM (R75). -/
  | pushPerform (op grp : Nat)
  /-- OWNERSHIP_GRANT (R90). -/
  | ownershipGrant (job line : Nat)
  /-- COPY_COMPLETION (R176). -/
  | copyCompletion (job : Nat)
  /-- COPY_FAILURE (R176). -/
  | copyFailure (job : Nat)
  /-- MATRIX_PASS_GRANT (R197). -/
  | matrixPassGrant (quad : Nat)
  /-- MATRIX_DRAIN (R199), with what errors in the engine added, as a multiple of a power of two: to the contribution of element (i, j) at
  64 i + j, and to Rsum(i) at i or Csum(j) at 64 + j. -/
  | matrixDrain (quad entry : Nat) (elems sums : List (Nat × Int × Int))
  /-- CHECKSUM_FAULT_DELIVERY (R199). -/
  | checksumFaultDelivery (col cv : Nat)
  /-- PLST_MERGE_COMPLETE (R203). -/
  | plstMergeComplete (op : Nat)
  /-- CODEBOOK_READY (R206). -/
  | codebookReady (op : Nat)
  /-- OVERLAY_LOAD_END (R213). -/
  | overlayLoadEnd (core part prog handle : Nat)
  /-- OVERLAY_LOAD_FAIL (R213). -/
  | overlayLoadFail (core part prog handle : Nat)
  /-- BATCH_LAUNCH (R304). -/
  | batchLaunch (part prog core : Nat) (quads : List Nat)
  /-- COALESCING_TIMEOUT (R304). -/
  | coalescingTimeout (part prog : Nat)
  /-- TASK_LAUNCH (R306). -/
  | taskLaunch (part task core : Nat) (quads : List Nat)
  /-- BOUNDS_ROUND_LAUNCH (R240). -/
  | boundsRoundLaunch (launch core : Nat) (quads : List Nat)
  /-- ELEMENT_PASS_LAUNCH (R253). -/
  | elementPassLaunch (launch core : Nat) (quads : List Nat)
  /-- COLUMN_END (R13). -/
  | columnEnd (col : Nat)
  /-- ACCOUNT_REFILL (R308). -/
  | accountRefill
  /-- SLICE_END (R310). -/
  | sliceEnd (core : Nat)
  /-- PREEMPT_FOR_ROOM (R28). -/
  | preemptForRoom (part prog core : Nat)
  /-- PREEMPTION_SAVE (R312). -/
  | preemptionSave (col : Nat)
  /-- TILE_BANK_SAVE (R71). -/
  | tileBankSave (col : Nat)
  /-- RESUMPTION (R315). -/
  | resumption (col core : Nat) (quads : List Nat)
  /-- DRAIN_DEADLINE (R298). -/
  | drainDeadline (part prog : Nat)
  /-- SURVEYOR_SCAN (R290). -/
  | surveyorScan (fn slot : Nat)
  /-- RECONCILE_STEP_START (R294). -/
  | reconcileStepStart (fn : Nat)
  /-- APPLYING_END (R295). -/
  | applyingEnd (fn slot : Nat)
  /-- DRAINING_END (R295). -/
  | drainingEnd (fn slot : Nat)
  /-- PAGE_WALK (R321). -/
  | pageWalk (core part ctx va : Nat)
  /-- PAGING_ANSWER (R324). -/
  | pagingAnswer (part ctx page : Nat)
  /-- REPLAY (R324). -/
  | replay (col cv : Nat)
  /-- TASK_ARM (R307). -/
  | taskArm (part : Nat)
  /-- TASK_SIGNAL (R307). -/
  | taskSignal (part : Nat)
  /-- ACCT_READ (R307). -/
  | acctRead (part : Nat)
  /-- MAILBOX_TASK_ARM (R358). -/
  | mailboxTaskArm (part : Nat)
  /-- MAILBOX_TASK_SIGNAL (R358). -/
  | mailboxTaskSignal (part : Nat)
  /-- ALLOW_SET (R345). -/
  | allowSet (part : Nat)
  /-- REPORT (R347). -/
  | report (fn : Nat)
  /-- MIG_OFFER (R349). -/
  | migOffer (part : Nat)
  /-- MIG_WRAP (R349). -/
  | migWrap (part : Nat)
  /-- MIG_RESULT (R349). -/
  | migResult (part : Nat)
  /-- FW_WRITE (R358). -/
  | fwWrite
  /-- FW_START (R341). -/
  | fwStart
  /-- SLICE_SET (R310). -/
  | sliceSet
  /-- PUBKEY_SET (R350). -/
  | pubkeySet
  /-- BBOX_READ (R358). -/
  | bboxRead
  /-- MAILBOX_UNKNOWN_CODE (R358). -/
  | mailboxUnknownCode (fn : Nat)
  /-- DBELL (R357). -/
  | dbell (fn : Nat)
  /-- CARVE_OUT_WRITE (R340). -/
  | carveOutWrite (value : DWord)
  /-- REGISTER_WRITE (R4). -/
  | registerWrite (fn off : Nat) (data : List Byte)
  /-- COUNTER_SLOT_READ (R345). -/
  | counterSlotRead (off len : Nat)
  /-- BAR2_ACCESS (R357). -/
  | bar2Access (part off len : Nat) (write : Option (List Byte))
  /-- HOST_ATOMICOP_COMPLETER (R359). -/
  | hostAtomicopCompleter (fn bar off size : Nat) (kind : HostAtomicKind) (x y : Nat)
  /-- COPY_RING_TAKE (R311). -/
  | copyRingTake (part : Nat) (peer : Bool)
  /-- SHARD_ARRIVAL (R362). -/
  | shardArrival (job shard : Nat) (data : List Byte) (crc : Word)
  /-- SHARD_TIMEOUT (R362). -/
  | shardTimeout (job : Nat)
  /-- LINK_DOWN (R360). -/
  | linkDown (link : Nat)
  /-- LINK_RETRAIN (R361). -/
  | linkRetrain (link : Nat)
  /-- LINK_UP (R361). -/
  | linkUp (link : Nat)
  /-- GET_VERSION (R343). -/
  | getVersion (req : List Byte)
  /-- GET_CAPABILITIES (R343). -/
  | getCapabilities (req : List Byte)
  /-- NEGOTIATE_ALGORITHMS (R343). -/
  | negotiateAlgorithms (req : List Byte)
  /-- GET_CERTIFICATE (R342). -/
  | getCertificate (req : List Byte)
  /-- CHALLENGE (R342). -/
  | challenge (req : List Byte)
  /-- GET_MEASUREMENTS (R342). -/
  | getMeasurements (req : List Byte)
  /-- SPDM_UNSUPPORTED_REQUEST (R342). -/
  | spdmUnsupportedRequest (req : List Byte)
  /-- ATTEST_SEQUENCE (R343). -/
  | attestSequence (req : List Byte)
  /-- COLD_RESET (R363). -/
  | coldReset
  /-- WARM_RESET (R365). -/
  | warmReset (cause : Nat)
  /-- CHANNEL_TRAINING (R365). -/
  | channelTraining (channel : Nat) (ok : Bool)
  /-- FULL_SERVICE_SWITCH (R365). -/
  | fullServiceSwitch
  /-- PEER_ACCESS_REQUEST (R83). -/
  | peerAccessRequest (link : Nat) (access : PeerAccess)
  /-- COMPLETION_TIMEOUT (R359). -/
  | completionTimeout (op : Nat)
  /-- CYCLE_CHARGE (R308). -/
  | cycleCharge (quad : Nat)
  deriving DecidableEq, Repr

end Sys2Proof
end

