-- ==== Sys2Proof/WellFormed.lean ====
section
/-!
DEFINITION. Well-formedness of instruction words as the word alone decides it: the operand codes and the modifier fields that
an entry accepts (row 2 of R120: R33, R108, R111 to R117, R122, R145 to R147, R154, R162 to R171, R174 to R190, R200, R209,
R219, R235 to R239, R254 to R258) and the fixed branch target slot (row 3: R116).
-/

namespace Sys2Proof

/-- What an operand field of a form may name (R109, R111). A code 0xFF is also accepted in every role but the last three. -/
inductive Role
  /-- The form does not use the field: 0xFF only. -/
  | unused
  /-- A value read: lane register, uniform register, special, q0, q1. -/
  | src
  /-- A lane register read. -/
  | srcLane
  /-- A result: lane register, uniform register under R111, q2, q3. -/
  | dst
  /-- Read and written: lane register, or uniform register under R111. -/
  | rmw
  /-- A lane register written (R138, R178). -/
  | dstLane
  /-- A uniform register written (R237). -/
  | dstUni
  | predSrc
  /-- p0 to p6. -/
  | predDst
  /-- A uniform register read. -/
  | uni
  /-- A predicate, never 0xFF (R130). -/
  | predReq
  /-- A uniform register, never 0xFF (R115). -/
  | uniReq
  /-- A lane or uniform register, never 0xFF (R255). -/
  | regReq
  /-- v0 to v63 or p0 to p6 (R258). -/
  | widen
  /-- q0, q1 (R169). -/
  | readPort
  /-- q2, q3 (R169). -/
  | writePort
  deriving DecidableEq, Repr

/-- An operand field with its role and the number of registers it names. -/
structure Slot where
  o : Operand
  role : Role
  n : Nat
  deriving DecidableEq, Repr

/-- Convoy specials (R110), which a uniform destination accepts as sources (R111). -/
def Special.convoy : Special → Bool
  | .cvid | .colid | .route | .task | .bmode | .clklo | .clkhi | .part => true
  | _ => false

/-- Whether one operand field is legal in its role (R109, R111); the limit of R24 depends on the route and is checked at issue. 0xFF
as the predicate that an instruction writes is accepted and discards the result, as R186 says of its own entries (DEDUCED, unsafe: the
entries of R135, R136 and R139 name P0 to P6 only; log 64). -/
def Slot.ok (x : Slot) : Bool :=
  match x.o, x.role with
  | .none, r => r ∉ [Role.predReq, .uniReq, .regReq, .widen, .readPort, .writePort]
  | .v k, .widen => k.toNat < 64
  | .v k, r => r ∈ [Role.src, .srcLane, .dst, .rmw, .dstLane, .regReq] && k.toNat % x.n == 0
  | .s k, r => r ∈ [Role.src, .dst, .rmw, .dstUni, .uni, .uniReq, .regReq] && k.toNat % x.n == 0
  | .p k, r => r ∈ [Role.predSrc, .predReq] || (r ∈ [Role.predDst, .widen] && k != 7)
  | .q k, r => if k.toNat < 2 then r == .readPort || (r == .src && x.n == 1)
               else r == .writePort || (r == .dst && x.n == 1)
  | .sp _, r => r == .src && x.n == 1

/-- The field is a source of the instruction. -/
def Slot.isSrc (x : Slot) : Bool :=
  x.role ∈ [Role.src, .srcLane, .rmw, .predSrc, .predReq, .uni, .uniReq, .regReq]

/-- The field is a destination of the instruction. -/
def Slot.isDst (x : Slot) : Bool := x.role ∈ [Role.dst, .rmw, .dstLane, .dstUni]

/-- R111: a uniform register is written only from uniform registers, convoy specials, immediates and 0xFF. -/
def uniformDstOk (xs : List Slot) : Bool :=
  !(xs.any fun x => x.isDst && match x.o with | .s _ => true | _ => false) ||
  xs.all fun x => !x.isSrc || match x.o with | .s _ | .none => true | .sp c => c.convoy | _ => false

/-- Operand widths in registers. -/
def Fmt.regs : Fmt → Nat
  | .i64 | .n64 => 2
  | _ => 1

/-- Element width in bits (R32). -/
def Fmt.width : Fmt → Nat
  | .none => 0
  | .i8 | .n8 | .f8e4 | .f8e5 | .e8 => 8
  | .i16 | .n16 | .f16 | .bf16 => 16
  | .i32 | .n32 | .f32 => 32
  | .i64 | .n64 => 64
  | .i4 | .f4 | .cb4 => 4
  | .i2 => 2
  | .b1 => 1
  | .f6e3 | .f6e2 => 6

/-- Positions of an element in a 32-bit register (R147); one for 64-bit formats. -/
def Fmt.positions (t : Fmt) : Nat := if t.width ≤ 32 ∧ t.width ≠ 0 then 32 / t.width else 1

/-- Bytes of SIZE. -/
def Size.bytes : Size → Nat
  | .b1 => 1
  | .b2 => 2
  | .b4 => 4
  | .b8 => 8
  | .b16 => 16

/-- Registers that hold SIZE bytes. -/
def Size.regs : Size → Nat
  | .b8 => 2
  | .b16 => 4
  | _ => 1

/-- FROM of CVT, CVTI and ICVT (R154). -/
def RForm.fromCode (f : RForm) : Nat := bitsOf f.ent.toNat 0 5

/-- SPOS of CVT, CVTI and ICVT (R154): ENT 7:5 and, above them, ENT 11. -/
def RForm.spos (f : RForm) : Nat := bitsOf f.ent.toNat 5 3 + 8 * bitsOf f.ent.toNat 11 1

/-- DPOS of CVT and ICVT (R154). -/
def RForm.dpos (f : RForm) : Nat := bitsOf f.ent.toNat 8 3

/-- The format of a code (R32); an unassigned code names none. -/
def Fmt.ofCode : Nat → Option Fmt
  | 0 => some .none | 1 => some .i8 | 2 => some .i16 | 3 => some .i32 | 4 => some .i64 | 5 => some .n8 | 6 => some .n16
  | 7 => some .n32 | 8 => some .n64 | 9 => some .i4 | 10 => some .i2 | 11 => some .b1 | 16 => some .f32 | 17 => some .f16
  | 18 => some .bf16 | 19 => some .f8e4 | 20 => some .f8e5 | 21 => some .f6e3 | 22 => some .f6e2 | 23 => some .f4
  | 24 => some .cb4 | 25 => some .e8 | _ => Option.none

/-- The eight floating formats of R35. -/
def Fmt.floating : List Fmt := [.f32, .f16, .bf16, .f8e4, .f8e5, .f6e3, .f6e2, .f4]

/-- The integer formats CVTI produces. -/
def Fmt.integers : List Fmt := [.i8, .i16, .i32, .n8, .n16, .n32, .i64, .n64]

/-- The types of ordinary stream elements (R169). -/
def Fmt.stream : List Fmt := [.i8, .n8, .i16, .n16, .i32, .n32, .f32, .f16, .bf16, .f8e4, .f8e5]

/-- Formats with a plane layout (R42). -/
def Fmt.plane : List Fmt :=
  [.i8, .i16, .n8, .n16, .i4, .i2, .b1, .f16, .bf16, .f8e4, .f8e5, .f6e3, .f6e2, .f4, .cb4]

/-- The SIZE of a memory element (R166, R254). -/
def Fmt.size (t : Fmt) : Size := if t.width = 8 then .b1 else if t.width = 16 then .b2 else .b4

/-- FROM as a format. -/
def RForm.from? (f : RForm) : Option Fmt := Fmt.ofCode f.fromCode

/-- What an R-format entry accepts: TYPE codes, number of SUBOP values, ENT bits, RND and SAT. -/
structure RSpec where
  types : List Fmt
  subops : Nat
  ent : Nat
  rnd : Bool
  sat : Bool

/-- The fields of an R-format word are those its entry accepts (R112, R117, R122, R146). -/
def RForm.fits (f : RForm) (x : RSpec) : Bool :=
  f.h.hint == .default && f.ty ∈ x.types && f.subop.toNat < x.subops && (f.ent.toNat &&& x.ent) == f.ent.toNat &&
  (x.rnd || f.rnd == .rule) && (x.sat || !f.sat)

/-- An immediate amount needs C absent, a register amount leaves the immediate 0 (R132, R140). -/
def RForm.amountOk (f : RForm) (bits : Nat) : Bool :=
  if f.ent.getLsbD 11 then f.c == .none else bitsOf f.ent.toNat 0 bits == 0

/-- CVT, CVTI and ICVT: source formats, positions (R147, R154). -/
def RForm.convOk (f : RForm) (froms : List Fmt) (dposs : Nat) : Bool :=
  match f.from? with
  | none => false
  | some t => t ∈ froms && (t == .i2 || !f.ent.getLsbD 11) && f.spos < t.positions && f.dpos < dposs

/-- The M-format fields that most entries fix (R163, R164): SIZE, SPACE, no SCOPE, TYPE, ENT bits. -/
def MForm.fits (f : MForm) (sizes : List Size) (spaces : List Space) (types : List Fmt) (ent : Nat) : Bool :=
  f.size ∈ sizes && f.space ∈ spaces && f.scope == .none && f.ty ∈ types && (f.ent.toNat &&& ent) == f.ent.toNat

/-- R163: no hint on a scratchpad access. -/
def MForm.hintOk (f : MForm) : Bool := f.space == .global || f.h.hint == .default

/-- No hint, no offset, no scale. -/
def MForm.bare (f : MForm) : Bool := f.h.hint == .default && f.off == 0 && f.scale == 0

/-- TYPE of LD and LDS (R165). -/
def MForm.loadTypeOk (f : MForm) : Bool :=
  f.ty == .none || (f.ty == .i8 && f.size == .b1) || (f.ty == .i16 && f.size == .b2)

/-- TYPE and SIZE of LDX and STX (R166). -/
def MForm.narrowOk (f : MForm) : Bool :=
  f.ty ∈ [Fmt.i8, .n8, .i16, .n16, .f16, .bf16, .f8e4, .f8e5] && f.size == f.ty.size

/-- SCOPE of an atomic (R171). -/
def MForm.atomicScopeOk (f : MForm) : Bool :=
  match f.space with
  | .global => f.scope ∈ [Scope.none, .dev, .sys]
  | .scratch => f.scope ∈ [Scope.none, .col]

/-- An atomic's fields (R170): accepted TYPE and SIZE pairs; only NR in ENT. -/
def MForm.atomicOk (f : MForm) (ts : List (Fmt × Size)) : Bool :=
  (f.ty, f.size) ∈ ts && f.ent.toNat < 2 && f.h.hint == .default && f.atomicScopeOk

/-- TYPE and SIZE of ATADD, ATMIN and ATMAX. -/
def intAtomic : List (Fmt × Size) := [(.i32, .b4), (.n32, .b4), (.i64, .b8), (.n64, .b8)]

/-- TYPE and SIZE of the untyped atomics. -/
def bitAtomic : List (Fmt × Size) := [(.none, .b4), (.none, .b8)]

/-- W of BARW, BARAW and WAITA is an even register number (R186). -/
def MForm.wreg (f : MForm) : Nat := bitsOf f.ent.toNat 5 6

/-- X format: HINT 0, unused fields 0 (R200). `flags` CLR ISAT, `urg`, `tile`, `ab` SLOTA SLOTB KM1 CVEN CVN, `var` VARIANT
bits. -/
def XForm.fits (f : XForm) (mma urg tile slotA : Bool) (var : Nat) : Bool :=
  f.h.hint == .default && (mma || (!f.clr && !f.isat && f.slotB == 0 && f.km1 == 0 && !f.cven)) && (f.cven || f.cvn == 0) &&
  (urg || f.urg == 0) && (tile || f.tile == 0) && (slotA || f.slotA == 0) && (f.variant.toNat &&& var) == f.variant.toNat

/-- REG of PLST, ACRD and ACWR (R200). -/
def XForm.reg (f : XForm) : BitVec 7 := f.variant.extractLsb' 4 7

/-- B format: HINT 0, ENT bits, and TLINE and TSLOT 0 in a form without a fixed target (R219). -/
def BForm.fits (f : BForm) (target : Bool) (ent : Nat) : Bool :=
  f.h.hint == .default && (target || (f.tline == 0 && f.tslot == 0)) && (f.ent.toNat &&& ent) == f.ent.toNat

/-- R-format operand roles. -/
def RForm.slots (f : RForm) (a b c d e : Role × Nat) : List Slot :=
  [⟨f.a, a.1, a.2⟩, ⟨f.b, b.1, b.2⟩, ⟨f.c, c.1, c.2⟩, ⟨f.d, d.1, d.2⟩, ⟨f.e, e.1, e.2⟩]

/-- M-format operand roles. -/
def MForm.slots (f : MForm) (a b c : Role × Nat) : List Slot := [⟨f.a, a.1, a.2⟩, ⟨f.b, b.1, b.2⟩, ⟨f.c, c.1, c.2⟩]

/-- X-format operand roles. -/
def XForm.slots (f : XForm) (b c d e : Role) : List Slot := [⟨f.b, b, 1⟩, ⟨f.c, c, 1⟩, ⟨f.d, d, 1⟩, ⟨f.e, e, 1⟩]

/-- B-format operand roles. -/
def BForm.slots (f : BForm) (a b c d : Role) : List Slot :=
  [⟨f.a, a, 1⟩, ⟨f.b, b, 1⟩, ⟨f.c, c, 1⟩, ⟨f.d, d, 1⟩, ⟨f.e, .unused, 1⟩]

/-- One register in a role. -/
def Role.one (r : Role) : Role × Nat := (r, 1)

/-- A field the form does not use. -/
def noField : Role × Nat := (.unused, 1)

/-- Registers of the base of a memory operand: a pair in global memory (R114). -/
def MForm.baseRegs (f : MForm) : Nat := if f.space == .global then 2 else 1

/-- Data, base, index of a load or store (R163). -/
def MForm.access (f : MForm) (a : Role) (n : Nat) : List Slot := f.slots (a, n) (.src, f.baseRegs) (.src, 1)

/-- Operand and result of an atomic (R170): with NR set A is only read. -/
def MForm.atomicSlots (f : MForm) (n : Nat) : List Slot := f.access (if f.ent.getLsbD 0 then .src else .rmw) n

/-- `n` sources from B on, one result in A, each of `w` registers. -/
def RForm.alu (f : RForm) (n w : Nat) : List Slot :=
  let r (k : Nat) : Role × Nat := if k < n then (.src, w) else noField
  f.slots (.dst, w) (r 0) (r 1) (r 2) (r 3)

/-- The operand fields of an instruction word with their roles; a device step has none. SMXACC and SMXNRM take lane registers for the
states A and B; their input C is any 32-bit source, as C is elsewhere (DEDUCED, unsafe: R160 writes `vC`; log 64). -/
def Instr.slots : Instr → List Slot
  | .iadd f | .isub f | .imul f | .imulh f | .imin f | .imax f | .idiv f | .irem f | .sadd f | .ssub f => f.alu 2 1
  | .iaddx f | .isubx f => f.alu 2 2
  | .imad f | .idp4 f | .idp8 f | .idp2 f | .ffma f | .hfma2 f | .bfx f => f.alu 3 1
  | .imadx f => f.slots (.dst, 2) Role.src.one Role.src.one (.src, 2) noField
  | .lea f => f.slots (.dst, f.baseRegs) (.src, f.baseRegs) Role.src.one
  | .iabs f | .ineg f | .popc f | .clz f | .brev f | .fabs f | .fneg f | .frcp f | .fsqrt f | .frsq f | .fclass f
  | .fexpn f | .exp2 f | .log2 f | .sin f | .cos f | .tanh f => f.alu 1 1
  | .mov f | .bnot f => f.alu 1 f.ty.regs
  | .movi f => [⟨f.a, .dst, 1⟩, ⟨f.b, .unused, 1⟩]
  | .movh f => [⟨f.a, .dst, 2⟩, ⟨f.b, .src, 1⟩]
  | .sel f => f.slots (.dst, f.ty.regs) (.src, f.ty.regs) (.src, f.ty.regs) Role.predReq.one noField
  | .band f | .bor f | .bxor f | .bandn f => f.alu 2 f.ty.regs
  | .shl f | .shr f | .sar f | .rot f => f.alu 2 1
  | .bfi f => f.alu 4 1
  | .icmp f => f.slots Role.predDst.one (.src, f.ty.regs) (.src, f.ty.regs) noField noField
  | .fcmp f => f.slots Role.predDst.one Role.src.one Role.src.one noField noField
  | .pand f | .por f | .pxor f => f.slots Role.predDst.one Role.predSrc.one Role.predSrc.one noField noField
  | .pnot f => f.slots Role.predDst.one Role.predSrc.one noField noField noField
  | .pset f => f.slots Role.predDst.one Role.src.one noField noField noField
  | .fadd f | .fsub f | .fmul f | .fmin f | .fmax f | .hadd2 f | .hmul2 f | .fscale f => f.alu 2 1
  | .cvt f | .icvt f =>
    f.slots (if f.ty.width = 32 then .dst else .rmw, 1) (.src, (f.from?.map Fmt.regs).getD 1) noField noField noField
  | .cvti f => f.slots (.dst, f.ty.regs) Role.src.one noField noField noField
  | .qnt f => if f.subop = 0 then f.slots Role.rmw.one Role.src.one Role.src.one noField noField else f.alu 1 1
  | .dqnt f => f.alu 2 1
  | .smxi f => f.slots (.dstLane, 2) noField noField noField noField
  | .smxacc f => f.slots (.dstLane, 2) (.srcLane, 2) Role.src.one noField noField
  | .smxnrm f => f.slots (.dstLane, 1) (.srcLane, 2) Role.src.one noField noField
  | .vote f =>
    f.slots (if f.subop.toNat < 2 then (.predDst, 1) else if f.subop = 2 then (.dstLane, 2) else (.dstLane, 1))
      Role.predSrc.one noField noField noField
  | .shfl f => f.slots (.dstLane, f.ty.regs) (.src, f.ty.regs) Role.src.one noField noField
  | .redadd f | .redmax f | .redmin f | .scan f => f.slots Role.dstLane.one Role.src.one noField noField noField
  | .matchv f => f.slots (.dstLane, 2) (.src, f.ty.regs) noField noField noField
  | .ld f | .lds f => f.access .dst f.size.regs
  | .st f | .sts f => f.access .src f.size.regs
  | .ldx f => f.access .dst 1
  | .stx f => f.access .src 1
  | .ldb f => f.access .dstLane 1
  | .pf f => f.access .unused 1
  | .ldq f => f.slots Role.readPort.one (.uni, 2) Role.uni.one
  | .stq f => f.slots Role.writePort.one (.uni, 2) Role.uni.one
  | .atadd f | .ataddf f | .atmin f | .atmax f | .atand f | .ator f | .atxor f | .atxch f | .atinc f => f.atomicSlots f.size.regs
  | .atcas f => f.atomicSlots (2 * f.size.regs)
  | .fence f | .sign f => f.slots noField noField noField noField noField
  | .bari f | .bara f => f.slots Role.uni.one Role.uni.one Role.uni.one
  | .barw f | .baraw f | .waita f => f.slots Role.predDst.one Role.uni.one Role.uni.one
  | .waitc f | .nap f => [⟨f.a, .unused, 1⟩, ⟨f.b, .unused, 1⟩]
  | .mma f | .mmat f => f.slots .uniReq .uniReq .uni .uni
  | .plst f => f.slots .uniReq .uniReq .unused .unused
  | .acz f | .cbld f => f.slots .unused .unused .unused .unused
  | .acld f | .acst f => f.slots .uniReq .uni .unused .unused
  | .acrd f | .acwr f => f.slots .uniReq .unused .unused .unused
  | .ckrd f => f.slots Role.dst.one noField noField noField noField
  | .cpy f => f.slots (.uniReq, 8) noField noField
  | .cpy2 f => f.slots (.uniReq, 8) Role.uni.one (.uni, 2)
  | .cpyp f => f.slots (.uniReq, 8) Role.uni.one noField
  | .cpyq f => f.slots noField Role.uni.one noField
  | .qrd f => f.slots (.dstLane, 2) Role.uni.one noField
  | .qack f => f.slots (.srcLane, 2) Role.uni.one noField
  | .qwr f | .emit f => f.slots Role.uni.one (.src, f.baseRegs) Role.src.one
  | .bra f | .call f | .ret f | .exit f | .yield f | .trap f | .nop f | .bkpt f | .reto f | .defer f | .split f | .bdone f
  | .trapret f => f.slots .unused .unused .unused .unused
  | .brx f => f.slots .unused .uni .unused .src
  | .loop f | .ovlpin f | .ovlrel f | .ovlev f | .callo f => f.slots .unused .uni .unused .unused
  | .ovl f => f.slots .unused .uni .uni .unused
  | .ovlq f => f.slots .dst .uni .unused .unused
  | .bsum f => f.slots (.uni, 2) (.uni, 2) Role.uni.one
  | .fill f => f.slots (.regReq, f.size.regs) (.uniReq, 2) Role.uniReq.one
  | .widen f => f.slots Role.widen.one noField noField noField noField
  | .movs f => f.slots (.dst, if f.subop.toNat ∈ [3, 6, 7] then 2 else 1) noField noField noField noField
  | .movc f => f.slots noField Role.srcLane.one noField noField noField
  | .clk f => f.slots (.dst, 2) noField noField noField noField
  | .perf f => f.slots Role.dst.one noField noField noField noField
  | .fwcall f => [⟨f.a, .dstUni, 1⟩, ⟨f.b, .uni, 2⟩]
  | _ => []

/-- The modifier fields of an instruction word are those its entry accepts; true for a device step. -/
def Instr.fieldsOk : Instr → Bool
  | .iadd f | .isub f | .imul f | .imad f | .idiv f => f.fits ⟨[.i32, .n32], 1, 0, false, true⟩
  | .imulh f | .imin f | .imax f | .irem f | .bfx f => f.fits ⟨[.i32, .n32], 1, 0, false, false⟩
  | .iabs f | .ineg f => f.fits ⟨[.i32], 1, 0, false, true⟩
  | .sadd f | .ssub f => f.fits ⟨[.i32, .n32], 1, 0x1F, false, true⟩
  | .iaddx f | .isubx f | .imadx f => f.fits ⟨[.i64, .n64], 1, 0, false, true⟩
  | .lea f => f.fits [.b1] [.global, .scratch] [.none] 0 && f.h.hint == .default
  | .idp4 f => f.fits ⟨[.i8], 1, 3, false, true⟩
  | .idp8 f => f.fits ⟨[.i4], 1, 0, false, true⟩
  | .idp2 f => f.fits ⟨[.i16], 1, 3, false, true⟩
  | .mov f | .sel f | .band f | .bor f | .bxor f | .bnot f | .bandn f | .matchv f => f.fits ⟨[.none, .i64], 1, 0, false, false⟩
  | .movi f | .movh f | .nap f => f.h.hint == .default && f.ty == .none && f.subop == 0 && f.ent == 0
  | .shl f | .shr f | .sar f | .rot f => f.fits ⟨[.none], 1, 0x81F, false, false⟩ && f.amountOk 5
  | .bfi f | .popc f | .clz f | .brev f | .pand f | .por f | .pxor f | .pnot f | .pset f | .widen f | .clk f =>
    f.fits ⟨[.none], 1, 0, false, false⟩
  | .icmp f => f.fits ⟨[.i32, .n32, .i64, .n64], 6, 0, false, false⟩
  | .fadd f | .fsub f | .fmul f | .ffma f | .frcp f | .fsqrt f | .fscale f => f.fits ⟨[.f32], 1, 0, true, false⟩
  | .fmin f | .fmax f | .fabs f | .fneg f | .frsq f | .exp2 f | .log2 f | .sin f | .cos f | .tanh f | .smxi f | .smxacc f =>
    f.fits ⟨[.f32], 1, 0, false, false⟩
  | .fcmp f => f.fits ⟨[.f32], 8, 0, false, false⟩
  | .fclass f => f.fits ⟨[.f32, .f16, .bf16], 1, 0, false, false⟩
  | .hadd2 f | .hmul2 f | .hfma2 f => f.fits ⟨[.f16, .bf16], 1, 0, true, false⟩
  | .fexpn f => f.fits ⟨[.f32], 2, 0, false, false⟩
  | .cvt f => f.fits ⟨Fmt.floating, 1, 0xFFF, true, true⟩ && f.convOk Fmt.floating f.ty.positions
  | .cvti f => f.fits ⟨Fmt.integers, 1, 0xFFF, true, false⟩ && f.convOk Fmt.floating 1
  | .icvt f =>
    f.fits ⟨[.f32, .f16, .bf16], 1, 0xFFF, true, false⟩ &&
    f.convOk [.i2, .i4, .i8, .i16, .i32, .i64, .n8, .n16, .n32, .n64] f.ty.positions
  | .qnt f => f.fits ⟨[.none], 2, 0xFF, false, false⟩
  | .dqnt f => f.fits ⟨[.none], 1, 0xFF, false, false⟩
  | .smxnrm f => f.fits ⟨[.f32], 1, 1, false, false⟩
  | .vote f => f.fits ⟨[.none], 4, 0, false, false⟩
  | .shfl f => f.fits ⟨[.none, .i64], 4, 0x9FF, false, false⟩ && bitsOf f.ent.toNat 6 3 ≤ 5 && f.amountOk 6
  | .redadd f => f.fits ⟨[.i32, .n32, .f32], 1, 0, false, true⟩ && (!f.sat || f.ty != .f32)
  | .redmax f | .redmin f => f.fits ⟨[.i32, .n32, .f32], 1, 0, false, false⟩
  | .scan f => f.fits ⟨[.i32, .n32, .f32], 4, 0, false, true⟩ && (!f.sat || (f.ty != .f32 && f.subop.toNat < 2))
  | .ld f => f.fits [.b1, .b2, .b4, .b8, .b16] [.global] [.none, .i8, .i16] 0 && f.loadTypeOk
  | .lds f =>
    f.fits [.b1, .b2, .b4, .b8, .b16] [.scratch] [.none, .i8, .i16] 0 && f.loadTypeOk && f.h.hint == .default
  | .st f => f.fits [.b1, .b2, .b4, .b8, .b16] [.global] [.none] 0
  | .sts f => f.fits [.b1, .b2, .b4, .b8, .b16] [.scratch] [.none] 0 && f.h.hint == .default
  | .ldx f => f.fits [.b1, .b2] [.global, .scratch] Fmt.stream 0 && f.narrowOk && f.hintOk
  | .stx f => f.fits [.b1, .b2] [.global, .scratch] Fmt.stream 0xF && f.narrowOk && f.hintOk && bitsOf f.ent.toNat 0 3 ≤ 4
  | .ldb f => f.fits [.b1] [.global] [.none] 0x1FF && f.scale == 0
  | .pf f => f.fits [.b1] [.global] [.none] 0
  | .ldq f | .stq f => f.fits [.b1] [.global] Fmt.stream 0 && f.scale == 0
  | .atadd f | .atmin f | .atmax f => f.atomicOk intAtomic
  | .ataddf f => f.atomicOk [(.f32, .b4)]
  | .atand f | .ator f | .atxor f | .atxch f | .atcas f => f.atomicOk bitAtomic
  | .atinc f => f.atomicOk [(.n32, .b4)]
  | .fence f => f.fits ⟨[.none], 5, 0, false, false⟩ && f.subop != 0
  | .bari f | .bara f => f.fits [.b16] [.scratch] [.none] 0 && f.h.hint == .default
  | .barw f | .baraw f => f.fits [.b16] [.scratch] [.none] 0x7E0 && f.h.hint == .default && f.wreg % 2 == 0
  | .waita f =>
    f.fits [.b4] [.scratch] [.none] 0x7E7 && f.h.hint == .default && f.wreg % 2 == 0 && bitsOf f.ent.toNat 0 3 ≤ 3
  | .waitc f => f.h.hint == .default && f.ty == .none && f.subop == 0 && f.ent == 0 && (f.imm &&& 0xC0C0C0C0) == 0
  | .sign f => f.fits ⟨[.none], 1, 0xF, false, false⟩
  | .mma f => f.fits true true true true 0
  | .mmat f => f.fits true true true true 0x1FF
  | .plst f => f.fits false false false true 0x7F0
  | .acz f => f.fits false true true false 0
  | .acld f => f.fits false true true false 0
  | .acst f => f.fits false true true false 3 && bitsOf f.variant.toNat 0 2 != 3
  | .acrd f => f.fits false false true false 0x7F0
  | .acwr f => f.fits false true true false 0x7F0
  | .cbld f => ({ f with h := { f.h with hint := .default } } : XForm).fits false false false true 0
  | .ckrd f => f.fits ⟨[.none], 3, 0, false, false⟩
  | .cpy f | .cpy2 f => f.fits [.b1] [.global] [.none] 0xF && f.off == 0 && f.scale == 0
  | .cpyp f => f.fits [.b1] [.global] Fmt.plane 0x1F && f.off == 0 && f.scale == 0 && f.ent.getLsbD 1
  | .cpyq f => f.fits [.b1] [.scratch] [.none] 0 && f.bare
  | .qrd f => f.fits [.b8] [.global] [.none] 1 && f.bare
  | .qack f => f.fits [.b8] [.global] [.none] 0 && f.bare
  | .qwr f | .emit f => f.fits [.b1] [.global, .scratch] [.none] 7 && f.h.hint == .default
  | .bra f | .call f | .loop f | .callo f => f.fits true 0
  | .ret f | .exit f | .yield f | .nop f | .ovl f | .ovlq f | .ovlpin f | .ovlrel f | .ovlev f | .reto f | .defer f | .split f
  | .bdone f => f.fits false 0
  | .brx f => f.fits false 0x3FF
  | .trap f | .bkpt f => f.fits false 0xFF
  | .trapret f => f.fits false 1
  | .bsum f => f.fits [.b1, .b2, .b4] [.global] Fmt.stream 0 && f.bare && f.size == f.ty.size
  | .fill f => f.fits [.b1, .b2, .b4, .b8] [.global] [.none] 0 && f.scale == 0
  | .movs f =>
    f.fits ⟨[.none], 11, 7, false, false⟩ && (f.subop == 5 || f.ent == 0) &&
    (2 < f.subop.toNat || match f.a with | .s _ => false | _ => true)
  | .movc f => f.fits ⟨[.none], 2, 0, false, false⟩
  | .perf f => f.fits ⟨[.none], 6, 0, false, false⟩
  | .fwcall f =>
    f.h.hint == .default && f.ty == .none && f.subop == 0 && f.ent == 0 && bitsOf f.imm.toNat 16 16 == 0
  | _ => true

/-- Row 2 of R120 as far as the word decides it. -/
def Instr.operandsOk (i : Instr) : Bool := i.fieldsOk && i.slots.all Slot.ok && uniformDstOk i.slots

/-- Row 3 of R120: a fixed target has a slot of 0 to 4 (R116). -/
def Instr.targetOk : Instr → Bool
  | .bra f | .call f | .loop f | .callo f => f.tslot.toNat < 5
  | _ => true

/-- The checks of R120 rows 2 and 3 that depend only on the word. -/
def Instr.wellFormed (i : Instr) : Bool := i.operandsOk && i.targetOk

end Sys2Proof
end

