-- ==== Sys2Proof/Decode.lean ====
section
/-!
DEFINITION. Decoding of 96-bit instruction words (R101, R105 to R119), total on every word and rejecting by name, and the
encoder written from the same tables.
-/

namespace Sys2Proof

/-- Why a word is rejected: rows 2 and 3 of R120. An unassigned opcode (row 1) decodes to its own row of the table. -/
inductive DecodeError
  | operandReserved
  | branchTarget
  deriving DecidableEq, Repr

/-- The fields of a word in its format. -/
inductive Form
  | r (f : RForm)
  | i (f : IForm)
  | m (f : MForm)
  | x (f : XForm)
  | b (f : BForm)
  deriving DecidableEq, Repr

/-! ## Field codes -/

/-- R110: specials from code 0xD0 on. -/
def specialCodes : List Special :=
  [.lane, .cvid, .colid, .route, .task, .recIx, .tx, .ty, .ex, .ey, .bmode, .clklo, .clkhi, .fault, .part]

/-- R109: the operand of a code. -/
def Operand.ofCode (c : BitVec 8) : Option Operand :=
  if c.toNat < 0x80 then some (.v (c.extractLsb' 0 7))
  else if c.toNat < 0xC0 then some (.s (c.extractLsb' 0 6))
  else if c.toNat < 0xC8 then some (.p (c.extractLsb' 0 3))
  else if c.toNat < 0xCC then some (.q (c.extractLsb' 0 2))
  else if c.toNat < 0xD0 then Option.none
  else if c.toNat < 0xF0 then (specialCodes[c.toNat - 0xD0]?).map .sp
  else if c = 0xFF then some .none else Option.none

/-- R109: the code of an operand. -/
def Operand.code : Operand → BitVec 8
  | .v n => 0#1 ++ n
  | .s n => 0b10#2 ++ n
  | .p n => 0b11000#5 ++ n
  | .q n => 0b110010#6 ++ n
  | .sp x => BitVec.ofNat 8 (0xD0 + specialCodes.idxOf x)
  | .none => 0xFF

/-- R32: the code of a format. -/
def Fmt.code : Fmt → BitVec 5
  | .none => 0 | .i8 => 1 | .i16 => 2 | .i32 => 3 | .i64 => 4 | .n8 => 5 | .n16 => 6 | .n32 => 7 | .n64 => 8 | .i4 => 9
  | .i2 => 10 | .b1 => 11 | .f32 => 16 | .f16 => 17 | .bf16 => 18 | .f8e4 => 19 | .f8e5 => 20 | .f6e3 => 21 | .f6e2 => 22
  | .f4 => 23 | .cb4 => 24 | .e8 => 25

/-- R108. -/
def hintCodes : List Hint := [.default, .stream, .keep, .long, .evict, .home]

/-- R112. -/
def rndCodes : List Rnd := [.rule, .rne, .rz, .ru, .rd]

/-- R114. -/
def sizeCodes : List Size := [.b1, .b2, .b4, .b8, .b16]

/-- R114. -/
def spaceCodes : List Space := [.global, .scratch]

/-- R114. -/
def scopeCodes : List Scope := [.none, .cv, .col, .dev, .sys]

/-- R114: SCALE. -/
def scaleCodes : List (Fin 5) := [0, 1, 2, 3, 4]

/-- The meaning of a code in a list of codes. -/
def codeOf {α : Type} (xs : List α) {n : Nat} (c : BitVec n) : Option α := xs[c.toNat]?

/-- The code of a meaning. -/
def codeFor {α : Type} [BEq α] (xs : List α) (n : Nat) (x : α) : BitVec n := BitVec.ofNat n (xs.idxOf x)

/-- R105, R106: a guard field. -/
def Guard.ofCode (c : BitVec 4) : Guard := { neg := c.getLsbD 3, p := c.extractLsb' 0 3 }

/-- R106. -/
def Guard.code (g : Guard) : BitVec 4 := BitVec.ofBool g.neg ++ g.p

/-! ## Decoding by format -/

/-- R105: the common fields. -/
def decodeHdr (w : IWord) : Option Hdr := do
  let hint ← codeOf hintCodes (w.extractLsb' 35 3)
  pure { g1 := .ofCode (w.extractLsb' 42 4), g2 := .ofCode (w.extractLsb' 38 4), hint, ce := w.getLsbD 34,
         live := w.extractLsb' 27 7 }

/-- R105: an operand field by its low bit. -/
def operandAt (w : IWord) (lo : Nat) : Option Operand := Operand.ofCode (w.extractLsb' lo 8)

/-- A type field by its low bit. -/
def fmtAt (w : IWord) (lo : Nat) : Option Fmt := Fmt.ofCode (w.extractLsb' lo 5).toNat

/-- R112. -/
def decodeR (w : IWord) : Option RForm := do
  let h ← decodeHdr w
  let a ← operandAt w 78
  let b ← operandAt w 70
  let c ← operandAt w 62
  let d ← operandAt w 54
  let e ← operandAt w 46
  let ty ← fmtAt w 22
  let rnd ← codeOf rndCodes (w.extractLsb' 13 3)
  pure { h, a, b, c, d, e, ty, subop := w.extractLsb' 16 6, rnd, sat := w.getLsbD 12, ent := w.extractLsb' 0 12 }

/-- R113. -/
def decodeI (w : IWord) : Option IForm := do
  let h ← decodeHdr w
  let a ← operandAt w 78
  let b ← operandAt w 70
  let ty ← fmtAt w 14
  pure { h, a, b, imm := w.extractLsb' 46 24 ++ w.extractLsb' 19 8, ty, subop := w.extractLsb' 8 6, ent := w.extractLsb' 0 8 }

/-- R114. -/
def decodeM (w : IWord) : Option MForm := do
  let h ← decodeHdr w
  let a ← operandAt w 78
  let b ← operandAt w 70
  let c ← operandAt w 62
  let size ← codeOf sizeCodes (w.extractLsb' 24 3)
  let space ← codeOf spaceCodes (w.extractLsb' 22 2)
  let scope ← codeOf scopeCodes (w.extractLsb' 19 3)
  let scale ← codeOf scaleCodes (w.extractLsb' 16 3)
  let ty ← fmtAt w 11
  pure { h, a, b, c, off := w.extractLsb' 46 16, size, space, scope, scale, ty, ent := w.extractLsb' 0 11 }

/-- R115, R200. -/
def decodeX (w : IWord) : Option XForm := do
  let h ← decodeHdr w
  let b ← operandAt w 70
  let c ← operandAt w 62
  let d ← operandAt w 54
  let e ← operandAt w 46
  pure { h, clr := w.getLsbD 85, isat := w.getLsbD 84, urg := w.extractLsb' 82 2, tile := w.extractLsb' 78 4, b, c, d, e,
         slotA := w.extractLsb' 24 3, slotB := w.extractLsb' 21 3, km1 := w.extractLsb' 16 5, cven := w.getLsbD 15,
         cvn := w.extractLsb' 11 4, variant := w.extractLsb' 0 11 }

/-- R116. -/
def decodeB (w : IWord) : Option BForm := do
  let h ← decodeHdr w
  let a ← operandAt w 78
  let b ← operandAt w 70
  let c ← operandAt w 62
  let d ← operandAt w 54
  let e ← operandAt w 46
  pure { h, a, b, c, d, e, tline := w.extractLsb' 17 10, tslot := w.extractLsb' 14 3, ent := w.extractLsb' 0 14 }

/-! ## The opcode map -/

/-- R118: R-format opcodes from 0x000 on. -/
def tableR000 : List (Nat × (RForm → Instr)) :=
  [(0x000, .iadd), (0x001, .isub), (0x002, .imul), (0x003, .imulh), (0x004, .imad), (0x005, .iaddx), (0x006, .isubx),
   (0x007, .imadx), (0x009, .imin), (0x00A, .imax), (0x00B, .iabs), (0x00C, .ineg), (0x00D, .idiv), (0x00E, .irem),
   (0x00F, .sadd), (0x010, .ssub), (0x011, .idp4), (0x012, .idp8), (0x013, .idp2), (0x014, .mov), (0x017, .sel)]

/-- R118: R-format opcodes from 0x040 on. -/
def tableR040 : List (Nat × (RForm → Instr)) :=
  [(0x040, .band), (0x041, .bor), (0x042, .bxor), (0x043, .bnot), (0x044, .bandn), (0x045, .shl), (0x046, .shr),
   (0x047, .sar), (0x048, .rot), (0x049, .bfx), (0x04A, .bfi), (0x04B, .popc), (0x04C, .clz), (0x04D, .brev),
   (0x04E, .icmp), (0x04F, .pand), (0x050, .por), (0x051, .pxor), (0x052, .pnot), (0x053, .pset)]

/-- R118: R-format opcodes from 0x080 on. -/
def tableR080 : List (Nat × (RForm → Instr)) :=
  [(0x080, .fadd), (0x081, .fsub), (0x082, .fmul), (0x083, .ffma), (0x084, .fmin), (0x085, .fmax), (0x086, .fabs),
   (0x087, .fneg), (0x088, .fcmp), (0x089, .frcp), (0x08A, .fsqrt), (0x08B, .frsq), (0x08C, .fclass), (0x08D, .hadd2),
   (0x08E, .hmul2), (0x08F, .hfma2), (0x090, .fscale), (0x091, .fexpn)]

/-- R118: R-format opcodes from 0x0C0 on. -/
def tableR0C0 : List (Nat × (RForm → Instr)) :=
  [(0x0C0, .cvt), (0x0C1, .cvti), (0x0C2, .icvt), (0x0C3, .qnt), (0x0C4, .dqnt), (0x0C5, .exp2), (0x0C6, .log2),
   (0x0C7, .sin), (0x0C8, .cos), (0x0C9, .tanh), (0x0CA, .smxi), (0x0CB, .smxacc), (0x0CC, .smxnrm)]

/-- R118: R-format opcodes from 0x100 on. -/
def tableR100 : List (Nat × (RForm → Instr)) :=
  [(0x100, .vote), (0x101, .shfl), (0x102, .redadd), (0x103, .redmax), (0x104, .redmin), (0x105, .scan), (0x106, .matchv)]

/-- R118: R-format opcodes from 0x1C0 on. -/
def tableR1C0 : List (Nat × (RForm → Instr)) :=
  [(0x1C0, .fence), (0x1C7, .sign)]

/-- R118: R-format opcodes from 0x209 on. -/
def tableR209 : List (Nat × (RForm → Instr)) :=
  [(0x209, .ckrd)]

/-- R118: R-format opcodes from 0x304 on. -/
def tableR304 : List (Nat × (RForm → Instr)) :=
  [(0x304, .widen)]

/-- R118: R-format opcodes from 0x340 on. -/
def tableR340 : List (Nat × (RForm → Instr)) :=
  [(0x340, .movs), (0x341, .movc), (0x342, .clk), (0x343, .perf)]

/-- R118: the R-format opcodes. -/
def tableR : List (Nat × (RForm → Instr)) :=
  tableR000 ++ tableR040 ++ tableR080 ++ tableR0C0 ++ tableR100 ++ tableR1C0 ++ tableR209 ++ tableR304 ++ tableR340

/-- R118: I-format opcodes from 0x015 on. -/
def tableI015 : List (Nat × (IForm → Instr)) :=
  [(0x015, .movi), (0x016, .movh)]

/-- R118: I-format opcodes from 0x1C6 on. -/
def tableI1C6 : List (Nat × (IForm → Instr)) :=
  [(0x1C6, .waitc), (0x1C8, .nap)]

/-- R118: I-format opcodes from 0x344 on. -/
def tableI344 : List (Nat × (IForm → Instr)) :=
  [(0x344, .fwcall)]

/-- R118: the I-format opcodes. -/
def tableI : List (Nat × (IForm → Instr)) :=
  tableI015 ++ tableI1C6 ++ tableI344

/-- R118: M-format opcodes from 0x008 on. -/
def tableM008 : List (Nat × (MForm → Instr)) :=
  [(0x008, .lea)]

/-- R118: M-format opcodes from 0x140 on. -/
def tableM140 : List (Nat × (MForm → Instr)) :=
  [(0x140, .ld), (0x141, .st), (0x142, .lds), (0x143, .sts), (0x144, .ldx), (0x145, .stx), (0x146, .ldb), (0x147, .pf),
   (0x148, .ldq), (0x149, .stq)]

/-- R118: M-format opcodes from 0x180 on. -/
def tableM180 : List (Nat × (MForm → Instr)) :=
  [(0x180, .atadd), (0x181, .ataddf), (0x182, .atmin), (0x183, .atmax), (0x184, .atand), (0x185, .ator), (0x186, .atxor),
   (0x187, .atxch), (0x188, .atcas), (0x189, .atinc)]

/-- R118: M-format opcodes from 0x1C1 on. -/
def tableM1C1 : List (Nat × (MForm → Instr)) :=
  [(0x1C1, .bari), (0x1C2, .bara), (0x1C3, .barw), (0x1C4, .baraw), (0x1C5, .waita)]

/-- R118: M-format opcodes from 0x240 on. -/
def tableM240 : List (Nat × (MForm → Instr)) :=
  [(0x240, .cpy), (0x241, .cpy2), (0x242, .cpyp), (0x243, .cpyq), (0x244, .qrd), (0x245, .qack), (0x246, .qwr),
   (0x247, .emit)]

/-- R118: M-format opcodes from 0x300 on. -/
def tableM300 : List (Nat × (MForm → Instr)) :=
  [(0x300, .bsum), (0x301, .fill)]

/-- R118: the M-format opcodes. -/
def tableM : List (Nat × (MForm → Instr)) :=
  tableM008 ++ tableM140 ++ tableM180 ++ tableM1C1 ++ tableM240 ++ tableM300

/-- R118: X-format opcodes from 0x200 on. -/
def tableX200 : List (Nat × (XForm → Instr)) :=
  [(0x200, .mma), (0x201, .mmat), (0x202, .plst), (0x203, .acz), (0x204, .acld), (0x205, .acst), (0x206, .acrd),
   (0x207, .acwr), (0x208, .cbld)]

/-- R118: the X-format opcodes. -/
def tableX : List (Nat × (XForm → Instr)) :=
  tableX200

/-- R118: B-format opcodes from 0x280 on. -/
def tableB280 : List (Nat × (BForm → Instr)) :=
  [(0x280, .bra), (0x281, .brx), (0x282, .call), (0x283, .ret), (0x284, .loop), (0x285, .exit), (0x286, .yield),
   (0x287, .trap), (0x288, .nop), (0x289, .bkpt)]

/-- R118: B-format opcodes from 0x2C0 on. -/
def tableB2C0 : List (Nat × (BForm → Instr)) :=
  [(0x2C0, .ovl), (0x2C1, .ovlq), (0x2C2, .ovlpin), (0x2C3, .ovlrel), (0x2C4, .ovlev), (0x2C5, .callo), (0x2C6, .reto)]

/-- R118: B-format opcodes from 0x302 on. -/
def tableB302 : List (Nat × (BForm → Instr)) :=
  [(0x302, .defer), (0x303, .split), (0x305, .bdone)]

/-- R118: B-format opcodes from 0x345 on. -/
def tableB345 : List (Nat × (BForm → Instr)) :=
  [(0x345, .trapret)]

/-- R118: the B-format opcodes. -/
def tableB : List (Nat × (BForm → Instr)) :=
  tableB280 ++ tableB2C0 ++ tableB302 ++ tableB345

/-- The opcode and the fields of an instruction word; a device step has none. -/
def Instr.form : Instr → Option (Nat × Form)
  | .iadd f => some (0x000, .r f)
  | .isub f => some (0x001, .r f)
  | .imul f => some (0x002, .r f)
  | .imulh f => some (0x003, .r f)
  | .imad f => some (0x004, .r f)
  | .iaddx f => some (0x005, .r f)
  | .isubx f => some (0x006, .r f)
  | .imadx f => some (0x007, .r f)
  | .imin f => some (0x009, .r f)
  | .imax f => some (0x00A, .r f)
  | .iabs f => some (0x00B, .r f)
  | .ineg f => some (0x00C, .r f)
  | .idiv f => some (0x00D, .r f)
  | .irem f => some (0x00E, .r f)
  | .sadd f => some (0x00F, .r f)
  | .ssub f => some (0x010, .r f)
  | .idp4 f => some (0x011, .r f)
  | .idp8 f => some (0x012, .r f)
  | .idp2 f => some (0x013, .r f)
  | .mov f => some (0x014, .r f)
  | .sel f => some (0x017, .r f)
  | .band f => some (0x040, .r f)
  | .bor f => some (0x041, .r f)
  | .bxor f => some (0x042, .r f)
  | .bnot f => some (0x043, .r f)
  | .bandn f => some (0x044, .r f)
  | .shl f => some (0x045, .r f)
  | .shr f => some (0x046, .r f)
  | .sar f => some (0x047, .r f)
  | .rot f => some (0x048, .r f)
  | .bfx f => some (0x049, .r f)
  | .bfi f => some (0x04A, .r f)
  | .popc f => some (0x04B, .r f)
  | .clz f => some (0x04C, .r f)
  | .brev f => some (0x04D, .r f)
  | .icmp f => some (0x04E, .r f)
  | .pand f => some (0x04F, .r f)
  | .por f => some (0x050, .r f)
  | .pxor f => some (0x051, .r f)
  | .pnot f => some (0x052, .r f)
  | .pset f => some (0x053, .r f)
  | .fadd f => some (0x080, .r f)
  | .fsub f => some (0x081, .r f)
  | .fmul f => some (0x082, .r f)
  | .ffma f => some (0x083, .r f)
  | .fmin f => some (0x084, .r f)
  | .fmax f => some (0x085, .r f)
  | .fabs f => some (0x086, .r f)
  | .fneg f => some (0x087, .r f)
  | .fcmp f => some (0x088, .r f)
  | .frcp f => some (0x089, .r f)
  | .fsqrt f => some (0x08A, .r f)
  | .frsq f => some (0x08B, .r f)
  | .fclass f => some (0x08C, .r f)
  | .hadd2 f => some (0x08D, .r f)
  | .hmul2 f => some (0x08E, .r f)
  | .hfma2 f => some (0x08F, .r f)
  | .fscale f => some (0x090, .r f)
  | .fexpn f => some (0x091, .r f)
  | .cvt f => some (0x0C0, .r f)
  | .cvti f => some (0x0C1, .r f)
  | .icvt f => some (0x0C2, .r f)
  | .qnt f => some (0x0C3, .r f)
  | .dqnt f => some (0x0C4, .r f)
  | .exp2 f => some (0x0C5, .r f)
  | .log2 f => some (0x0C6, .r f)
  | .sin f => some (0x0C7, .r f)
  | .cos f => some (0x0C8, .r f)
  | .tanh f => some (0x0C9, .r f)
  | .smxi f => some (0x0CA, .r f)
  | .smxacc f => some (0x0CB, .r f)
  | .smxnrm f => some (0x0CC, .r f)
  | .vote f => some (0x100, .r f)
  | .shfl f => some (0x101, .r f)
  | .redadd f => some (0x102, .r f)
  | .redmax f => some (0x103, .r f)
  | .redmin f => some (0x104, .r f)
  | .scan f => some (0x105, .r f)
  | .matchv f => some (0x106, .r f)
  | .fence f => some (0x1C0, .r f)
  | .sign f => some (0x1C7, .r f)
  | .ckrd f => some (0x209, .r f)
  | .widen f => some (0x304, .r f)
  | .movs f => some (0x340, .r f)
  | .movc f => some (0x341, .r f)
  | .clk f => some (0x342, .r f)
  | .perf f => some (0x343, .r f)
  | .movi f => some (0x015, .i f)
  | .movh f => some (0x016, .i f)
  | .waitc f => some (0x1C6, .i f)
  | .nap f => some (0x1C8, .i f)
  | .fwcall f => some (0x344, .i f)
  | .lea f => some (0x008, .m f)
  | .ld f => some (0x140, .m f)
  | .st f => some (0x141, .m f)
  | .lds f => some (0x142, .m f)
  | .sts f => some (0x143, .m f)
  | .ldx f => some (0x144, .m f)
  | .stx f => some (0x145, .m f)
  | .ldb f => some (0x146, .m f)
  | .pf f => some (0x147, .m f)
  | .ldq f => some (0x148, .m f)
  | .stq f => some (0x149, .m f)
  | .atadd f => some (0x180, .m f)
  | .ataddf f => some (0x181, .m f)
  | .atmin f => some (0x182, .m f)
  | .atmax f => some (0x183, .m f)
  | .atand f => some (0x184, .m f)
  | .ator f => some (0x185, .m f)
  | .atxor f => some (0x186, .m f)
  | .atxch f => some (0x187, .m f)
  | .atcas f => some (0x188, .m f)
  | .atinc f => some (0x189, .m f)
  | .bari f => some (0x1C1, .m f)
  | .bara f => some (0x1C2, .m f)
  | .barw f => some (0x1C3, .m f)
  | .baraw f => some (0x1C4, .m f)
  | .waita f => some (0x1C5, .m f)
  | .cpy f => some (0x240, .m f)
  | .cpy2 f => some (0x241, .m f)
  | .cpyp f => some (0x242, .m f)
  | .cpyq f => some (0x243, .m f)
  | .qrd f => some (0x244, .m f)
  | .qack f => some (0x245, .m f)
  | .qwr f => some (0x246, .m f)
  | .emit f => some (0x247, .m f)
  | .bsum f => some (0x300, .m f)
  | .fill f => some (0x301, .m f)
  | .mma f => some (0x200, .x f)
  | .mmat f => some (0x201, .x f)
  | .plst f => some (0x202, .x f)
  | .acz f => some (0x203, .x f)
  | .acld f => some (0x204, .x f)
  | .acst f => some (0x205, .x f)
  | .acrd f => some (0x206, .x f)
  | .acwr f => some (0x207, .x f)
  | .cbld f => some (0x208, .x f)
  | .bra f => some (0x280, .b f)
  | .brx f => some (0x281, .b f)
  | .call f => some (0x282, .b f)
  | .ret f => some (0x283, .b f)
  | .loop f => some (0x284, .b f)
  | .exit f => some (0x285, .b f)
  | .yield f => some (0x286, .b f)
  | .trap f => some (0x287, .b f)
  | .nop f => some (0x288, .b f)
  | .bkpt f => some (0x289, .b f)
  | .ovl f => some (0x2C0, .b f)
  | .ovlq f => some (0x2C1, .b f)
  | .ovlpin f => some (0x2C2, .b f)
  | .ovlrel f => some (0x2C3, .b f)
  | .ovlev f => some (0x2C4, .b f)
  | .callo f => some (0x2C5, .b f)
  | .reto f => some (0x2C6, .b f)
  | .defer f => some (0x302, .b f)
  | .split f => some (0x303, .b f)
  | .bdone f => some (0x305, .b f)
  | .trapret f => some (0x345, .b f)
  | _ => none

/-- An instruction from its opcode's row in a table. -/
def build {φ : Type} (t : List (Nat × (φ → Instr))) (opc : Nat) (f : Option φ) : Option (Except DecodeError Instr) :=
  (t.lookup opc).map fun mk => match f with
    | none => .error .operandReserved
    | some x =>
      if !(mk x).operandsOk then .error .operandReserved
      else if !(mk x).targetOk then .error .branchTarget
      else .ok (mk x)

/-- The opcode field (R105). -/
def opcOf (w : IWord) : BitVec 10 := w.extractLsb' 86 10

/-- Decoding of any word: rows 1 to 3 of R120 as far as the word decides them. -/
def decode (w : IWord) : Except DecodeError Instr :=
  let opc := (opcOf w).toNat
  ((build tableR opc (decodeR w) <|> build tableI opc (decodeI w) <|> build tableM opc (decodeM w) <|>
    build tableX opc (decodeX w) <|> build tableB opc (decodeB w))).getD (.ok (.unassignedOpcode w))

/-! ## Encoding -/

/-- R105: bits 45:27. -/
def Hdr.word (h : Hdr) : BitVec 19 :=
  h.g1.code ++ h.g2.code ++ codeFor hintCodes 3 h.hint ++ BitVec.ofBool h.ce ++ h.live

/-- R105 to R116: the word of an opcode and its fields. -/
def Form.word (opc : BitVec 10) : Form → IWord
  | .r f => (opc ++ f.a.code ++ f.b.code ++ f.c.code ++ f.d.code ++ f.e.code ++ f.h.word) ++
      (f.ty.code ++ f.subop ++ codeFor rndCodes 3 f.rnd ++ BitVec.ofBool f.sat ++ f.ent)
  | .i f => (opc ++ f.a.code ++ f.b.code ++ f.imm.extractLsb' 8 24 ++ f.h.word) ++
      (f.imm.extractLsb' 0 8 ++ f.ty.code ++ f.subop ++ f.ent)
  | .m f => (opc ++ f.a.code ++ f.b.code ++ f.c.code ++ f.off ++ f.h.word) ++
      (codeFor sizeCodes 3 f.size ++ codeFor spaceCodes 2 f.space ++ codeFor scopeCodes 3 f.scope ++
       codeFor scaleCodes 3 f.scale ++ f.ty.code ++ f.ent)
  | .x f => (opc ++ (BitVec.ofBool f.clr ++ BitVec.ofBool f.isat ++ f.urg ++ f.tile) ++ f.b.code ++ f.c.code ++ f.d.code ++
      f.e.code ++ f.h.word) ++ (f.slotA ++ f.slotB ++ f.km1 ++ BitVec.ofBool f.cven ++ f.cvn ++ f.variant)
  | .b f => (opc ++ f.a.code ++ f.b.code ++ f.c.code ++ f.d.code ++ f.e.code ++ f.h.word) ++ (f.tline ++ f.tslot ++ f.ent)


/-- The word of an instruction; a device step has none. -/
def encode (i : Instr) : Option IWord :=
  match i.form with
  | some (opc, f) => some (f.word (BitVec.ofNat 10 opc))
  | none => match i with
    | .unassignedOpcode w => some w
    | _ => none

/-! ## Words in memory -/

/-- A number of `n` bytes as its bytes, lowest first (R3). -/
def bytesOf (n x : Nat) : List Byte := (List.range n).map fun k => BitVec.ofNat 8 (x / 2 ^ (8 * k))

/-- The number that bytes give, lowest first (R3). -/
def numberOf (bs : List Byte) : Nat := bs.foldr (fun b a => b.toNat + 256 * a) 0

/-- The instruction in 12 stored bytes (R101). -/
def decodeBytes (bs : List Byte) : Except DecodeError Instr := decode (BitVec.ofNat 96 (numberOf (bs.take 12)))

/-- The instruction of a word numbered as the opcode table numbers it: the word lies little-endian in 12 bytes. -/
def decodeTableWord (nbits w : Nat) : Option Instr :=
  match decodeBytes (bytesOf 12 (w % 2 ^ nbits)) with
  | .ok i => some i
  | .error _ => none

end Sys2Proof
end

