-- ==== Sys2Proof/Machine/Hash.lean ====
section
/-!
DEFINITION. Checksums and digests over bytes: CRC-32C (R362) and SHA-512 (R211, R342, R346, R350).
-/

namespace Sys2Proof

/-! ## CRC-32C -/

/-- One bit of the reflected CRC-32C (polynomial 0x1EDC6F41). -/
def crcBit (c : Nat) : Nat := if c % 2 = 1 then (c / 2) ^^^ 0x82F63B78 else c / 2

/-- One byte. -/
def crcByte (c : Nat) (b : Byte) : Nat := (List.range 8).foldl (fun c _ => crcBit c) (c ^^^ b.toNat)

/-- CRC-32C: initial value and final complement 0xFFFFFFFF. -/
def crc32c (bs : List Byte) : Nat := bs.foldl crcByte 0xFFFFFFFF ^^^ 0xFFFFFFFF

/-! ## SHA-512 (FIPS 180-4) -/

/-- Round constants 0 to 9. -/
def shaK0 : List (BitVec 64) :=
  [0x428A2F98D728AE22, 0x7137449123EF65CD, 0xB5C0FBCFEC4D3B2F, 0xE9B5DBA58189DBBC, 0x3956C25BF348B538,
   0x59F111F1B605D019, 0x923F82A4AF194F9B, 0xAB1C5ED5DA6D8118, 0xD807AA98A3030242, 0x12835B0145706FBE]

/-- Round constants 10 to 19. -/
def shaK1 : List (BitVec 64) :=
  [0x243185BE4EE4B28C, 0x550C7DC3D5FFB4E2, 0x72BE5D74F27B896F, 0x80DEB1FE3B1696B1, 0x9BDC06A725C71235,
   0xC19BF174CF692694, 0xE49B69C19EF14AD2, 0xEFBE4786384F25E3, 0x0FC19DC68B8CD5B5, 0x240CA1CC77AC9C65]

/-- Round constants 20 to 29. -/
def shaK2 : List (BitVec 64) :=
  [0x2DE92C6F592B0275, 0x4A7484AA6EA6E483, 0x5CB0A9DCBD41FBD4, 0x76F988DA831153B5, 0x983E5152EE66DFAB,
   0xA831C66D2DB43210, 0xB00327C898FB213F, 0xBF597FC7BEEF0EE4, 0xC6E00BF33DA88FC2, 0xD5A79147930AA725]

/-- Round constants 30 to 39. -/
def shaK3 : List (BitVec 64) :=
  [0x06CA6351E003826F, 0x142929670A0E6E70, 0x27B70A8546D22FFC, 0x2E1B21385C26C926, 0x4D2C6DFC5AC42AED,
   0x53380D139D95B3DF, 0x650A73548BAF63DE, 0x766A0ABB3C77B2A8, 0x81C2C92E47EDAEE6, 0x92722C851482353B]

/-- Round constants 40 to 49. -/
def shaK4 : List (BitVec 64) :=
  [0xA2BFE8A14CF10364, 0xA81A664BBC423001, 0xC24B8B70D0F89791, 0xC76C51A30654BE30, 0xD192E819D6EF5218,
   0xD69906245565A910, 0xF40E35855771202A, 0x106AA07032BBD1B8, 0x19A4C116B8D2D0C8, 0x1E376C085141AB53]

/-- Round constants 50 to 59. -/
def shaK5 : List (BitVec 64) :=
  [0x2748774CDF8EEB99, 0x34B0BCB5E19B48A8, 0x391C0CB3C5C95A63, 0x4ED8AA4AE3418ACB, 0x5B9CCA4F7763E373,
   0x682E6FF3D6B2B8A3, 0x748F82EE5DEFB2FC, 0x78A5636F43172F60, 0x84C87814A1F0AB72, 0x8CC702081A6439EC]

/-- Round constants 60 to 69. -/
def shaK6 : List (BitVec 64) :=
  [0x90BEFFFA23631E28, 0xA4506CEBDE82BDE9, 0xBEF9A3F7B2C67915, 0xC67178F2E372532B, 0xCA273ECEEA26619C,
   0xD186B8C721C0C207, 0xEADA7DD6CDE0EB1E, 0xF57D4F7FEE6ED178, 0x06F067AA72176FBA, 0x0A637DC5A2C898A6]

/-- Round constants 70 to 79. -/
def shaK7 : List (BitVec 64) :=
  [0x113F9804BEF90DAE, 0x1B710B35131C471B, 0x28DB77F523047D84, 0x32CAAB7B40C72493, 0x3C9EBE0A15C9BEBC,
   0x431D67C49C100D4C, 0x4CC5D4BECB3E42B6, 0x597F299CFC657E2A, 0x5FCB6FAB3AD6FAEC, 0x6C44198C4A475817]

/-- The round constants. -/
def shaK : List (BitVec 64) := shaK0 ++ shaK1 ++ shaK2 ++ shaK3 ++ shaK4 ++ shaK5 ++ shaK6 ++ shaK7

/-- The initial hash value. -/
def shaInit : List (BitVec 64) :=
  [0x6A09E667F3BCC908, 0xBB67AE8584CAA73B, 0x3C6EF372FE94F82B, 0xA54FF53A5F1D36F1,
   0x510E527FADE682D1, 0x9B05688C2B3E6C1F, 0x1F83D9ABFB41BD6B, 0x5BE0CD19137E2179]

/-- Element of a list of words; 0 beyond it. -/
def shaAt (w : List (BitVec 64)) (k : Nat) : BitVec 64 := (w[k]?).getD 0

/-- The next schedule word from the 16 before it, oldest first. -/
def shaNext (w : List (BitVec 64)) : BitVec 64 :=
  let s0 := (shaAt w 1).rotateRight 1 ^^^ (shaAt w 1).rotateRight 8 ^^^ (shaAt w 1 >>> 7)
  let s1 := (shaAt w 14).rotateRight 19 ^^^ (shaAt w 14).rotateRight 61 ^^^ (shaAt w 14 >>> 6)
  s1 + shaAt w 9 + s0 + shaAt w 0

/-- One round: the eight working variables a to h with a round constant and a schedule word. -/
def shaRound (v : List (BitVec 64)) (k w : BitVec 64) : List (BitVec 64) :=
  let a := shaAt v 0
  let b := shaAt v 1
  let c := shaAt v 2
  let e := shaAt v 4
  let f := shaAt v 5
  let g := shaAt v 6
  let s1 := e.rotateRight 14 ^^^ e.rotateRight 18 ^^^ e.rotateRight 41
  let t1 := shaAt v 7 + s1 + ((e &&& f) ^^^ (~~~e &&& g)) + k + w
  let s0 := a.rotateRight 28 ^^^ a.rotateRight 34 ^^^ a.rotateRight 39
  let t2 := s0 + ((a &&& b) ^^^ (a &&& c) ^^^ (b &&& c))
  [t1 + t2, a, b, c, shaAt v 3 + t1, e, f, g]

/-- One block of 16 words: the rounds with the sliding schedule window. -/
def shaBlock (h : List (BitVec 64)) (w : List (BitVec 64)) : List (BitVec 64) :=
  let r := shaK.foldl (fun (st : List (BitVec 64) × List (BitVec 64)) k =>
    (shaRound st.1 k (shaAt st.2 0), st.2.drop 1 ++ [shaNext st.2])) (h, w)
  (h.zip r.1).map fun p => p.1 + p.2

/-- What follows a message of a length to fill its last blocks. -/
def shaTail (len : Nat) : List Byte := [0x80] ++ List.replicate ((239 - len % 128) % 128) 0 ++ (bytesOf 16 (8 * len)).reverse

/-- Big-endian words of a byte list. -/
def shaWords (bs : List Byte) (n : Nat) : List (BitVec 64) :=
  (List.range n).map fun k => BitVec.ofNat 64 (numberOf ((bs.drop (8 * k)).take 8).reverse)

/-- The hash after all blocks of a padded message. -/
def shaBlocks : Nat → List (BitVec 64) → List Byte → List (BitVec 64)
  | 0, h, _ => h
  | n + 1, h, bs => shaBlocks n (shaBlock h (shaWords (bs.take 128) 16)) (bs.drop 128)

/-- A hash over bytes that still come: the hash of the whole blocks so far, the bytes after them, and the length of all. -/
structure ShaRun where
  h : List (BitVec 64)
  rest : List Byte
  len : Nat
  deriving DecidableEq, Repr

/-- A hash over no byte yet. -/
def ShaRun.start : ShaRun := { h := shaInit, rest := [], len := 0 }

/-- More bytes. -/
def ShaRun.add (r : ShaRun) (bs : List Byte) : ShaRun :=
  let all := r.rest ++ bs
  let n := all.length / 128
  { h := shaBlocks n r.h all, rest := all.drop (128 * n), len := r.len + bs.length }

/-- The 64 digest bytes of the bytes so far. -/
def ShaRun.digest (r : ShaRun) : List Byte := (r.add (shaTail r.len)).h.flatMap fun w => (bytesOf 8 w.toNat).reverse

/-- SHA-512: the 64 digest bytes. -/
def sha512 (bs : List Byte) : List Byte := (ShaRun.start.add bs).digest

/-- A digest as a number: byte 0 is the least significant. -/
def digestNum (bs : List Byte) : Nat := numberOf (sha512 bs)

end Sys2Proof
end

