-- ==== Sys2Proof/Machine/Num.lean ====
section
/-!
DEFINITION. Exact values of the number formats (R34 to R40), rounding once into a format (R46 to R49), and the arithmetic on
exact values that the floating instructions share. Nothing here depends on the machine state.
-/

namespace Sys2Proof

/-- Sign-extended reading of the low `n` bits. -/
def signedOf (n x : Nat) : Int := if x % 2 ^ n < 2 ^ (n - 1) then (x % 2 ^ n : Nat) else ((x % 2 ^ n : Nat) : Int) - 2 ^ n

/-- An integer modulo 2^n. -/
def wrapTo (n : Nat) (x : Int) : Nat := (x % (2 ^ n : Int)).toNat

/-- Clamping to a range. -/
def clampTo (lo hi x : Int) : Int := max lo (min hi x)

/-- Integer formats (R34): width and signedness; `none` for the others. -/
def Fmt.int? : Fmt → Option (Nat × Bool)
  | .i8 => some (8, true) | .i16 => some (16, true) | .i32 => some (32, true) | .i64 => some (64, true)
  | .n8 => some (8, false) | .n16 => some (16, false) | .n32 => some (32, false) | .n64 => some (64, false)
  | .i4 => some (4, true) | .i2 => some (2, true) | _ => Option.none

/-- Least value of an integer format. -/
def intMin (n : Nat) (signed : Bool) : Int := if signed then -(2 ^ (n - 1)) else 0

/-- Greatest value of an integer format. -/
def intMax (n : Nat) (signed : Bool) : Int := if signed then 2 ^ (n - 1) - 1 else 2 ^ n - 1

/-- The value of an integer encoding. -/
def readInt (n : Nat) (signed : Bool) (x : Nat) : Int := if signed then signedOf n x else (x % 2 ^ n : Nat)

/-! ## Exact values -/

/-- An exact value: NaN, a signed infinity, or (-1)^neg * m * 2^e; zero keeps its sign. With `more` set the magnitude lies
strictly between m * 2^e and (m + 1) * 2^e, which suffices for one rounding. -/
inductive Exact
  | nan
  | inf (neg : Bool)
  | fin (neg : Bool) (m : Nat) (e : Int) (more : Bool)
  deriving DecidableEq, Repr

/-- Parameters of a floating format (R35): exponent bits, mantissa bits, bias; infinities; NaNs. -/
structure FParam where
  eb : Nat
  mb : Nat
  bias : Nat
  hasInf : Bool
  hasNan : Bool

/-- R35. -/
def Fmt.fparam? : Fmt → Option FParam
  | .f32 => some ⟨8, 23, 127, true, true⟩
  | .f16 => some ⟨5, 10, 15, true, true⟩
  | .bf16 => some ⟨8, 7, 127, true, true⟩
  | .f8e4 => some ⟨4, 3, 7, false, true⟩
  | .f8e5 => some ⟨5, 2, 15, true, true⟩
  | .f6e3 => some ⟨3, 2, 3, false, false⟩
  | .f6e2 => some ⟨2, 3, 1, false, false⟩
  | .f4 => some ⟨2, 1, 1, false, false⟩
  | _ => Option.none

/-- The value of a floating encoding (R35, R36). -/
def FParam.read (p : FParam) (x : Nat) : Exact :=
  let neg := bitsOf x (p.eb + p.mb) 1 == 1
  let ex := bitsOf x p.mb p.eb
  let mant := bitsOf x 0 p.mb
  if p.hasInf && ex == 2 ^ p.eb - 1 then if mant = 0 then .inf neg else .nan
  else if p.hasNan && !p.hasInf && ex == 2 ^ p.eb - 1 && mant == 2 ^ p.mb - 1 then .nan
  else if ex = 0 then .fin neg mant (1 - (p.bias : Int) - p.mb) false
  else .fin neg (2 ^ p.mb + mant) ((ex : Int) - p.bias - p.mb) false

/-- The value of an integer. -/
def Exact.ofInt (x : Int) : Exact := .fin (x < 0) x.natAbs 0 false

/-- An e8 byte (R38). -/
def readE8 (x : Nat) : Exact := if x % 256 = 255 then .nan else .fin false 1 ((x % 256 : Nat) - 127) false

/-- The value of an encoding of any format but cb4 (R34, R35, R38). -/
def readValue (t : Fmt) (x : Nat) : Exact :=
  match t.fparam?, t.int? with
  | some p, _ => p.read x
  | none, some (n, sg) => .ofInt (readInt n sg x)
  | none, none => if t = .b1 then .ofInt (if x % 2 = 1 then 1 else -1) else if t = .e8 then readE8 x else .nan

/-- An f32 register. -/
def f32 (x : Word) : Exact := readValue .f32 x.toNat

/-- The canonical NaN of a format (R36, R47); +0 where the format has none. -/
def nanCode : Fmt → Nat
  | .f32 => 0x7FC00000 | .f16 => 0x7E00 | .bf16 => 0x7FC0 | .f8e4 => 0x7F | .f8e5 => 0x7E | .e8 => 0xFF | _ => 0

/-- Bits of the sign of a format. -/
def signBit (t : Fmt) (neg : Bool) : Nat := if neg then 2 ^ (t.width - 1) else 0

/-- The largest finite encoding of a format (R35). -/
def maxFinite (p : FParam) : Nat :=
  if p.hasInf then (2 ^ p.eb - 1) * 2 ^ p.mb - 1 else if p.hasNan then 2 ^ (p.eb + p.mb) - 2 else 2 ^ (p.eb + p.mb) - 1

/-- What an infinity becomes in a format (R47); `sat` is NANMODE 1. -/
def infCode (t : Fmt) (p : FParam) (sat neg : Bool) : Nat :=
  if p.hasInf && !sat then signBit t neg + (2 ^ p.eb - 1) * 2 ^ p.mb
  else if p.hasNan && !p.hasInf && !sat then nanCode t
  else signBit t neg + maxFinite p

/-- Number of bits of a natural number. -/
def bitLen (m : Nat) : Nat := if m = 0 then 0 else m.log2 + 1

/-- The integer square root, bit by bit. -/
def isqrt (n : Nat) : Nat :=
  let top := bitLen n / 2 + 1
  (List.range top).foldl (fun r i => let c := r + 2 ^ (top - 1 - i); if c * c ≤ n then c else r) 0

/-- m * 2^e as a multiple of 2^q: the quotient, and how the rest compares: 0 none, 1 below half, 2 half, 3 above half. -/
def quantize (m : Nat) (e q : Int) (more : Bool) : Nat × Nat :=
  if q ≤ e then (m * 2 ^ (e - q).toNat, if more then 1 else 0)
  else
    let d := (q - e).toNat
    if d > bitLen m + 1 then (0, if m = 0 && !more then 0 else 1)
    else
      let r := m % 2 ^ d
      let half := 2 ^ (d - 1)
      (m / 2 ^ d, if r > half || (r == half && more) then 3 else if r = half then 2 else if r = 0 && !more then 0 else 1)

/-- Whether rounding moves the magnitude up (R46). -/
def roundsUp (rm : Rnd) (neg : Bool) (n rest : Nat) : Bool :=
  match rm with
  | .rule | .rne => rest == 3 || (rest == 2 && n % 2 == 1)
  | .rz => false
  | .ru => !neg && rest != 0
  | .rd => neg && rest != 0

/-- R47 step 1: on overflow an infinity (true) or the largest finite value. -/
def overflowInf (rm : Rnd) (neg : Bool) : Bool :=
  match rm with
  | .rule | .rne => true
  | .rz => false
  | .ru => !neg
  | .rd => neg

/-- Formats that keep subnormal results (R48). -/
def Fmt.gradual : Fmt → Bool
  | .f32 | .f16 | .bf16 => true
  | _ => false

/-- Rounding an exact value once into a floating format (R46 to R48); `sat` is NANMODE 1. -/
def roundTo (t : Fmt) (rm : Rnd) (sat : Bool) (x : Exact) : Nat :=
  match t.fparam? with
  | none => 0
  | some p =>
    match x with
    | .nan => nanCode t
    | .inf neg => infCode t p sat neg
    | .fin neg m e more =>
      if m = 0 && !more then signBit t neg
      else
        let top : Int := (bitLen m : Int) - 1 + e
        let emin : Int := 1 - p.bias
        let q : Int := if t.gradual then max (top - p.mb) (emin - p.mb) else top - p.mb
        let (n0, rest) := quantize m e q more
        let n := if roundsUp rm neg n0 rest then n0 + 1 else n0
        if n = 0 then signBit t neg
        else
          let top' : Int := (bitLen n : Int) - 1 + q
          if top' < emin then if t.gradual then signBit t neg + n else signBit t neg
          else
            let mant := if bitLen n = p.mb + 2 then n / 2 else n
            let code := ((top' + p.bias).toNat) * 2 ^ p.mb + (mant - 2 ^ p.mb)
            if code ≤ maxFinite p then signBit t neg + code
            else if overflowInf rm neg then infCode t p sat neg
            else signBit t neg + maxFinite p

/-- Rounding to f32 under a mode, NANMODE 0. -/
def toF32 (rm : Rnd) (x : Exact) : Word := BitVec.ofNat 32 (roundTo .f32 rm false x)

/-- RoundRNE(x, f32) (R6). -/
def rneF32 (x : Exact) : Word := toF32 .rne x

/-- Conversion to an integer format (R49): rounded, saturated; NaN gives 0. -/
def roundToInt (n : Nat) (signed : Bool) (rm : Rnd) (x : Exact) : Int :=
  match x with
  | .nan => 0
  | .inf neg => if neg then intMin n signed else intMax n signed
  | .fin neg m e more =>
    if e > 128 ∧ m ≠ 0 then if neg then intMin n signed else intMax n signed
    else
      let (k0, rest) := quantize m e 0 more
      let k : Int := if roundsUp rm neg k0 rest then k0 + 1 else k0
      clampTo (intMin n signed) (intMax n signed) (if neg then -k else k)

/-- R38: conversion to e8: a finite positive value goes to one of the powers of two around it by its logarithm, clamped to the bytes
0x00 to 0xFE; everything else gives 0xFF. -/
def roundToE8 (rm : Rnd) (x : Exact) : Nat :=
  match x with
  | .fin false m e more =>
    if m = 0 then 255
    else
      let n := bitLen m - 1
      let up : Bool := match rm with
        | .rule | .rne => 2 ^ (2 * n + 1) < m * m
        | .rz | .rd => false
        | .ru => m != 2 ^ n || more
      (clampTo 0 254 ((n : Int) + e + 127 + (if up then 1 else 0))).toNat
  | _ => 255

/-- The code of a value in a format (R34, R38, R46 to R49): floating, integer, e8 or b1. -/
def encodeValue (t : Fmt) (rm : Rnd) (sat : Bool) (x : Exact) : Nat :=
  match t.int? with
  | some (n, sg) => wrapTo n (roundToInt n sg rm x)
  | none =>
    if t = .b1 then
      match x with
      | .nan => 1
      | .inf neg => if neg then 0 else 1
      | .fin neg m _ more => if neg && (m != 0 || more) then 0 else 1
    else if t = .e8 then roundToE8 rm x
    else roundTo t rm sat x

/-! ## Arithmetic on exact values -/

/-- The sign of a value; NaN counts as positive. -/
def Exact.neg? : Exact → Bool
  | .nan => false
  | .inf n => n
  | .fin n _ _ _ => n

/-- Sign inverted. -/
def Exact.negate : Exact → Exact
  | .nan => .nan
  | .inf n => .inf !n
  | .fin n m e more => .fin (!n) m e more

/-- Sign cleared. -/
def Exact.abs : Exact → Exact
  | .nan => .nan
  | .inf _ => .inf false
  | .fin _ m e more => .fin false m e more

/-- Is the value a zero? -/
def Exact.isZero : Exact → Bool
  | .fin _ m _ more => m == 0 && !more
  | _ => false

/-- A finite value without `more` as an integer multiple of 2^q, for q at most its exponent. -/
def scaledInt (neg : Bool) (m : Nat) (e q : Int) : Int :=
  let k : Int := ((m * 2 ^ (e - q).toNat : Nat) : Int)
  if neg then -k else k

/-- The product with IEEE 754 special cases. -/
def Exact.mul : Exact → Exact → Exact
  | .nan, _ | _, .nan => .nan
  | .inf a, .inf b => .inf (a != b)
  | .inf a, .fin b m _ _ | .fin b m _ _, .inf a => if m = 0 then .nan else .inf (a != b)
  | .fin a m e _, .fin b n f _ => .fin (a != b) (m * n) (e + f) false

/-- The sum with IEEE 754 special cases; an exact zero from non-zero parts or from zeros of unlike sign is -0 only under RD. -/
def Exact.add (rm : Rnd) : Exact → Exact → Exact
  | .nan, _ | _, .nan => .nan
  | .inf a, .inf b => if a = b then .inf a else .nan
  | .inf a, .fin _ _ _ _ | .fin _ _ _ _, .inf a => .inf a
  | .fin a m e _, .fin b n f _ =>
    if m = 0 ∧ n = 0 then .fin (if a = b then a else rm == .rd) 0 0 false
    else
      let q := min e f
      let k := scaledInt a m e q + scaledInt b n f q
      if k = 0 then .fin (rm == .rd) 0 0 false else .fin (k < 0) k.natAbs q false

/-- The quotient with IEEE 754 special cases, to 80 bits and a remainder flag. -/
def Exact.div : Exact → Exact → Exact
  | .nan, _ | _, .nan => .nan
  | .inf _, .inf _ => .nan
  | .inf a, .fin b _ _ _ => .inf (a != b)
  | .fin a _ _ _, .inf b => .fin (a != b) 0 0 false
  | .fin a m e _, .fin b n f _ =>
    if n = 0 then if m = 0 then .nan else .inf (a != b)
    else if m = 0 then .fin (a != b) 0 0 false
    else
      let k := 80 + bitLen n
      .fin (a != b) (m * 2 ^ k / n) (e - f - k) (m * 2 ^ k % n != 0)

/-- The square root with IEEE 754 special cases, to 80 bits and a remainder flag. -/
def Exact.sqrt : Exact → Exact
  | .nan => .nan
  | .inf a => if a then .nan else .inf false
  | .fin a m e _ =>
    if m = 0 then .fin a 0 0 false
    else if a then .nan
    else
      let k : Nat := 160 + (if (e % 2 = 0) then 0 else 1)
      let n := m * 2 ^ k
      let r := isqrt n
      .fin false r ((e - k) / 2) (r * r != n)

/-- Multiplication by a power of two. -/
def Exact.scale (k : Int) : Exact → Exact
  | .fin a m e more => .fin a m (e + k) more
  | x => x

/-- Order of two values that are not NaN; -0 is below +0. -/
def Exact.le : Exact → Exact → Bool
  | .nan, _ | _, .nan => false
  | .inf a, .inf b => a || !b
  | .inf a, _ => a
  | _, .inf b => !b
  | .fin a m e _, .fin b n f _ =>
    if m = 0 ∧ n = 0 then a || !b
    else
      let q := min e f
      scaledInt a m e q ≤ scaledInt b n f q

/-- IEEE equality of two values: the zeros are equal, NaN equals nothing. -/
def Exact.eqv (x y : Exact) : Bool :=
  match x, y with
  | .nan, _ | _, .nan => false
  | .inf a, .inf b => a == b
  | .fin a m e _, .fin b n f _ => scaledInt a m e (min e f) == scaledInt b n f (min e f)
  | _, _ => false

/-- floor(log2 |x|) of a finite non-zero value. -/
def Exact.exponent : Exact → Int
  | .fin _ m e _ => (bitLen m : Int) - 1 + e
  | _ => 0

/-- Total order key of an f32 encoding that is no NaN: -0 below +0 (R148, R244). -/
def f32Key (x : Nat) : Int := if x < 2 ^ 31 then x else -((x - 2 ^ 31 : Nat) : Int) - 1

/-- Is the encoding an f32 NaN? -/
def isNan32 (x : Word) : Bool := f32 x == .nan

/-- Canonical f32 NaN. -/
def nan32 : Word := 0x7FC00000

end Sys2Proof
end

