-- ==== Sys2Proof/Machine/Interval.lean ====
section
/-!
DEFINITION. Intervals of the bounds pass (R244 to R246): ends as bit patterns, the orders that read them, hulls (R248, R378), and
the value of an operation that is given by its effect on points and its interval rule.
-/

namespace Sys2Proof

/-- A register value: in element mode a point; in a bounds-pass lane an interval with its two flags (R244). -/
structure IVal where
  lo : Nat
  hi : Nat
  wide : Bool
  mn : Bool
  deriving DecidableEq, Repr

/-- A point. -/
def IVal.pt (x : Nat) : IVal := { lo := x, hi := x, wide := false, mn := false }

/-- Ends bit-identical and WIDE clear (R244). -/
def IVal.isPoint (x : IVal) : Bool := x.lo == x.hi && !x.wide

/-- How ends are ordered when read under a type (R244). -/
inductive Order
  | int (bits : Nat) (signed : Bool)
  /-- f32, -0 below +0. -/
  | flt
  deriving DecidableEq, Repr

/-- The order of a 32- or 64-bit type; a bit pattern is read as a natural number. -/
def Fmt.order : Fmt → Order
  | .f32 => .flt
  | .i64 => .int 64 true
  | .n64 => .int 64 false
  | .i32 | .i16 | .i8 => .int 32 true
  | _ => .int 32 false

/-- Position of an end in the order. -/
def Order.key : Order → Nat → Int
  | .int n sg, x => readInt n sg x
  | .flt, x => f32Key x

/-- The end at a position. -/
def Order.pat : Order → Int → Nat
  | .int n _, k => wrapTo n k
  | .flt, k => if k < 0 then (-k - 1).toNat + 2 ^ 31 else k.toNat

/-- +infinity and -infinity of f32. -/
def f32Inf (neg : Bool) : Nat := if neg then 0xFF800000 else 0x7F800000

/-- The whole range of a type. -/
def Order.whole : Order → Int × Int
  | .int n sg => (intMin n sg, intMax n sg)
  | .flt => (f32Key (f32Inf true), f32Key (f32Inf false))

/-- An interval read under an order. -/
structure Rng where
  lo : Int
  hi : Int
  mn : Bool
  wide : Bool
  deriving DecidableEq, Repr

/-- The whole range; for f32 with MN set. -/
def Order.widest (o : Order) (mn : Bool) : Rng := { lo := o.whole.1, hi := o.whole.2, mn := mn || o == .flt, wide := true }

/-- The ends of an f32 interval hold no NaN. -/
def endsOk (o : Order) (x : IVal) : Bool :=
  o != .flt || (readValue .f32 x.lo != .nan && readValue .f32 x.hi != .nan)

/-- R244: the interval read under a type. -/
def IVal.rng (o : Order) (x : IVal) : Rng :=
  if x.wide || o.key x.lo > o.key x.hi || !endsOk o x then o.widest x.mn
  else { lo := o.key x.lo, hi := o.key x.hi, mn := x.mn, wide := false }

/-- The interval that holds a range; integer results carry MN 0 (R244). -/
def Rng.ival (o : Order) (r : Rng) : IVal :=
  { lo := o.pat r.lo, hi := o.pat r.hi, wide := r.wide, mn := r.mn && o == .flt }

/-- An exact integer range as a result of an integer type: out of range it widens, or with `.sat` is clamped (R137). -/
def intResult (n : Nat) (sg sat : Bool) (lo hi : Int) : IVal :=
  let o := Order.int n sg
  if sat then Rng.ival o ⟨clampTo (intMin n sg) (intMax n sg) lo, clampTo (intMin n sg) (intMax n sg) hi, false, false⟩
  else if lo < intMin n sg ∨ hi > intMax n sg then (o.widest false).ival o
  else Rng.ival o ⟨lo, hi, false, false⟩

/-- Every choice of one end from each range. -/
def corners : List Rng → List (List Int)
  | [] => [[]]
  | r :: rs => (corners rs).flatMap fun t => if r.lo = r.hi then [r.lo :: t] else [r.lo :: t, r.hi :: t]

/-- Least of a list, 0 of none. -/
def minOf : List Int → Int
  | [] => 0
  | x :: xs => xs.foldl min x

/-- Greatest of a list, 0 of none. -/
def maxOf : List Int → Int
  | [] => 0
  | x :: xs => xs.foldl max x

/-- The range contains 0. -/
def Rng.has0 (r : Rng) : Bool := r.lo ≤ 0 && 0 ≤ r.hi

/-- Bit-pattern hull of R378, of a register or a pair. -/
def bitHull (pair : Bool) (xs : List IVal) : IVal :=
  let mn := xs.any (·.mn)
  match xs with
  | [] => .pt 0
  | x :: rest =>
    if rest.all (· == x) then x
    else
      let n := if pair then 64 else 32
      let orders : List Order := if pair then [.int 64 true, .int 64 false] else [.int 32 true, .int 32 false, .flt]
      let hull (o : Order) : Nat × Nat :=
        let rs := xs.map (·.rng o)
        (o.pat (minOf (rs.map (·.lo))), o.pat (maxOf (rs.map (·.hi))))
      let hs := orders.map hull
      match hs with
      | h :: t => if t.all (· == h) then { lo := h.1, hi := h.2, wide := false, mn } else
          { lo := 0, hi := 2 ^ n - 1, wide := true, mn }
      | [] => .pt 0

/-- What kind of value a result is: it decides MN and the hull of R248. -/
inductive ResKind
  /-- A typed value. -/
  | typed (o : Order)
  /-- A bit pattern of TYPE 0 or 0x04; `keep` when MN moves with it (MOV, SEL, SHFL). -/
  | bits (pair keep : Bool)
  /-- A softmax state: m under i32, s under f32 (R159). -/
  | state
  deriving DecidableEq, Repr

/-- The halves of a pair. -/
def IVal.halves (x : IVal) : IVal × IVal :=
  ({ x with lo := x.lo % 2 ^ 32, hi := x.hi % 2 ^ 32 }, { x with lo := x.lo / 2 ^ 32, hi := x.hi / 2 ^ 32 })

/-- Hull of two readings. -/
def Rng.hull (x y : Rng) : Rng := { lo := min x.lo y.lo, hi := max x.hi y.hi, mn := x.mn || y.mn, wide := x.wide || y.wide }

/-- R248: what a register holds after a write under undecided guards. -/
def ResKind.merge (k : ResKind) (old new : IVal) : IVal :=
  let mn := old.mn || new.mn
  match k with
  | .typed o =>
    let r := (old.rng o).hull (new.rng o)
    let r := if r.wide then o.widest mn else r
    { r.ival o with mn := mn || (r.ival o).mn }
  | .bits pair _ => { bitHull pair [old, new] with mn }
  | .state =>
    let m := (old.halves.1.rng (.int 32 true)).hull (new.halves.1.rng (.int 32 true))
    let s := (old.halves.2.rng .flt).hull (new.halves.2.rng .flt)
    if m.wide || s.wide then { lo := 0, hi := 2 ^ 64 - 1, wide := true, mn := true }
    else { lo := Order.pat (.int 32 true) m.lo + 2 ^ 32 * Order.flt.pat s.lo,
           hi := Order.pat (.int 32 true) m.hi + 2 ^ 32 * Order.flt.pat s.hi, wide := false, mn }

/-- An operation: its effect on points, its rule on intervals (R246), and what its result is. -/
structure Alu where
  point : List Nat → Nat
  ival : List IVal → IVal
  kind : ResKind
  /-- A result of bits holds a NaN of its format, which sets MN (R161). -/
  nanOut : Nat → Bool := fun _ => false
  /-- An integer result includes 0 when a source may be NaN, a point too (R161: CVTI). -/
  nanZero : Bool := false

/-- The value of an operation: on points what element mode computes (R245), otherwise the interval rule. A float result that is
NaN, or comes from a source with MN set, has MN set (R161). -/
def Alu.eval (op : Alu) (xs : List IVal) : IVal :=
  if xs.all IVal.isPoint && !(op.nanZero && xs.any (·.mn)) then
    let r := op.point (xs.map (·.lo))
    let mn := match op.kind with
      | .typed .flt => xs.any (·.mn) || readValue .f32 r == .nan
      | .typed _ => false
      | .bits _ keep => (keep && xs.any (·.mn)) || op.nanOut r
      | .state => xs.any (·.mn) || readValue .f32 (r / 2 ^ 32) == .nan
    { IVal.pt r with mn }
  else op.ival xs

/-- An integer operation with exact result `e` on sources read under `ords`, wrapped or clamped into an integer type; on intervals
the extremes over the corners and `extra` (R137). -/
def intAlu (n : Nat) (sg sat : Bool) (ords : List Order) (e : List Int → Int)
    (extra : List Rng → List Int := fun _ => []) (kind : ResKind := .typed (.int n sg)) : Alu :=
  { point := fun xs =>
      let v := e (List.zipWith Order.key ords xs)
      wrapTo n (if sat then clampTo (intMin n sg) (intMax n sg) v else v)
    ival := fun xs =>
      let rs := List.zipWith IVal.rng ords xs
      let vs := (corners rs).map e ++ extra rs
      intResult n sg sat (minOf vs) (maxOf vs)
    kind }

/-- A bitwise-class operation: exact for points, otherwise the whole range of the result type (R246). -/
def bitAlu (f : List Nat → Nat) (pair : Bool := false) : Alu :=
  { point := f
    ival := fun _ => { lo := 0, hi := if pair then 2 ^ 64 - 1 else 2 ^ 32 - 1, wide := true, mn := false }
    kind := .bits pair false }

end Sys2Proof
end

