-- ==== Sys2Proof/Machine/Arith.lean ====
section
/-!
DEFINITION. The values of the integer, address, move, logic, shift and bit-field instructions (R124 to R134) with their interval
rules (R137), as operations on register values.
-/

namespace Sys2Proof

/-- Bits and signedness of TYPE i32, n32, i64 or n64. -/
def Fmt.ibits (t : Fmt) : Nat := if t == .i64 || t == .n64 then 64 else 32

/-- TYPE is signed. -/
def Fmt.isSigned (t : Fmt) : Bool := t == .i32 || t == .i64

/-- The k-th of a list of integers, 0 beyond it. -/
def arg (xs : List Int) (k : Nat) : Int := (xs[k]?).getD 0

/-- The k-th of a list of patterns, 0 beyond it. -/
def argN (xs : List Nat) (k : Nat) : Nat := (xs[k]?).getD 0

/-- The k-th of a list of intervals. -/
def argI (xs : List IVal) (k : Nat) : IVal := (xs[k]?).getD (.pt 0)

/-- An arithmetic form whose operands and result all have TYPE (R124, R126). -/
def typedAlu (t : Fmt) (sat : Bool) (n : Nat) (e : List Int → Int) (extra : List Rng → List Int := fun _ => []) : Alu :=
  intAlu t.ibits t.isSigned sat (List.replicate n t.order) e extra

/-- R124: x + y. -/
def addAlu (f : RForm) : Alu := typedAlu f.ty f.sat 2 fun a => arg a 0 + arg a 1

/-- R124: x - y. -/
def subAlu (f : RForm) : Alu := typedAlu f.ty f.sat 2 fun a => arg a 0 - arg a 1

/-- R124: x * y. -/
def mulAlu (f : RForm) : Alu := typedAlu f.ty f.sat 2 fun a => arg a 0 * arg a 1

/-- R124: bits 63:32 of the product read in TYPE. -/
def mulhAlu (f : RForm) : Alu := typedAlu f.ty false 2 fun a => arg a 0 * arg a 1 / 2 ^ 32

/-- R124: x * y + z. -/
def madAlu (f : RForm) : Alu := typedAlu f.ty f.sat 3 fun a => arg a 0 * arg a 1 + arg a 2

/-- R126: 32-bit B and C, extended under TYPE, and the pair D. -/
def madxAlu (f : RForm) : Alu :=
  let o : Order := .int 32 f.ty.isSigned
  intAlu 64 f.ty.isSigned f.sat [o, o, f.ty.order] fun a => arg a 0 * arg a 1 + arg a 2

/-- R124: min. -/
def minAlu (f : RForm) : Alu := typedAlu f.ty false 2 fun a => min (arg a 0) (arg a 1)

/-- R124: max. -/
def maxAlu (f : RForm) : Alu := typedAlu f.ty false 2 fun a => max (arg a 0) (arg a 1)

/-- R124: |x|; on an interval that contains 0 the low end is 0 (R137). -/
def absAlu (f : RForm) : Alu :=
  typedAlu f.ty f.sat 1 (fun a => ((arg a 0).natAbs : Int)) fun rs => if rs.any Rng.has0 then [0] else []

/-- R124: -x. -/
def negAlu (f : RForm) : Alu := typedAlu f.ty f.sat 1 fun a => -arg a 0

/-- R124: x + y * 2^k, the shifted value never wrapped. -/
def saddAlu (f : RForm) : Alu := typedAlu f.ty f.sat 2 fun a => arg a 0 + arg a 1 * 2 ^ bitsOf f.ent.toNat 0 5

/-- R124: x - y * 2^k. -/
def ssubAlu (f : RForm) : Alu := typedAlu f.ty f.sat 2 fun a => arg a 0 - arg a 1 * 2 ^ bitsOf f.ent.toNat 0 5

/-- R125: the quotient; a zero divisor gives 2^32 - 1 read as TYPE. -/
def quotient (signed : Bool) (x y : Int) : Int := if y = 0 then if signed then -1 else 2 ^ 32 - 1 else x.tdiv y

/-- R125, R137: corners when C excludes 0, otherwise the whole range. -/
def divAlu (f : RForm) : Alu :=
  let a := typedAlu f.ty f.sat 2 fun a => quotient f.ty.isSigned (arg a 0) (arg a 1)
  { a with
    ival := fun xs => if ((argI xs 1).rng f.ty.order).has0 then (f.ty.order.widest false).ival f.ty.order else a.ival xs }

/-- R125: the remainder; a zero divisor gives x. -/
def remainder (x y : Int) : Int := if y = 0 then x else x.tmod y

/-- R137: the bound of IREM. -/
def remRange (b c : Rng) : Rng :=
  let m : Int := max (c.lo.natAbs : Int) c.hi.natAbs
  if m = 0 then { b with mn := false, wide := false }
  else
    let r : Int × Int :=
      if 0 ≤ b.lo ∧ b.hi ≤ m - 1 then (b.lo, b.hi)
      else if 0 ≤ b.lo then (0, m - 1) else if b.hi ≤ 0 then (-(m - 1), 0) else (-(m - 1), m - 1)
    let r := if c.has0 then (min r.1 b.lo, max r.2 b.hi) else r
    { lo := r.1, hi := r.2, mn := false, wide := false }

/-- R125. -/
def remAlu (f : RForm) : Alu :=
  let a := typedAlu f.ty false 2 fun a => remainder (arg a 0) (arg a 1)
  { a with ival := fun xs => (remRange ((argI xs 0).rng f.ty.order) ((argI xs 1).rng f.ty.order)).ival f.ty.order }

/-- R127: the address of LEA; SPACE 0 is 64 bits over a signed index, SPACE 1 is 32 bits. On intervals the base and the result, of
TYPE 0, are read as natural numbers (DESIGN CHOICE; log 63). -/
def leaAlu (f : MForm) : Alu :=
  let scale : Int := 2 ^ f.scale.val
  let e (a : List Int) : Int := arg a 0 + arg a 1 * scale + f.off.toInt
  match f.space with
  | .global => intAlu 64 false false [.int 64 false, .int 32 true] e (kind := .bits true false)
  | .scratch => intAlu 32 false false [.int 32 false, .int 32 false] e (kind := .bits false false)

/-- The sum of the products of packed elements of `w` bits (R128). -/
def dotSum (w : Nat) (bu cu : Bool) (b c : Nat) : Int :=
  (List.range (32 / w)).foldl (fun s k => s + readInt w (!bu) (bitsOf b (w * k) w) * readInt w (!cu) (bitsOf c (w * k) w)) 0

/-- R50, R128: packed dot products with elements of `w` bits. -/
def dotAlu (f : RForm) (w : Nat) : Alu :=
  let bu := f.ent.getLsbD 0
  let cu := f.ent.getLsbD 1
  let sg := !(bu && cu)
  { bitAlu fun a =>
      let v := readInt 32 sg (argN a 2) + dotSum w bu cu (argN a 0) (argN a 1)
      wrapTo 32 (if f.sat then clampTo (intMin 32 sg) (intMax 32 sg) v else v) with
    ival := fun _ => ((Order.int 32 sg).widest false).ival (.int 32 sg)
    kind := .typed (.int 32 sg) }

/-- R129: a copy; ends, WIDE and MN move unchanged (R137). -/
def movAlu (pair : Bool) : Alu := { point := fun a => argN a 0, ival := fun xs => argI xs 0, kind := .bits pair true }

/-- R129: an immediate. -/
def immAlu (imm : Word) : Alu := { point := fun _ => imm.toNat, ival := fun _ => .pt imm.toNat, kind := .bits false false }

/-- R129: MOVH: the immediate above B. A WIDE B gives a WIDE pair with its ends mapped (DESIGN CHOICE; log 63). -/
def movhAlu (imm : Word) : Alu :=
  { point := fun a => argN a 0 + 2 ^ 32 * imm.toNat
    ival := fun xs => let b := argI xs 0
      { b with lo := b.lo + 2 ^ 32 * imm.toNat, hi := b.hi + 2 ^ 32 * imm.toNat, mn := false }
    kind := .bits true false }

/-- R130, R137: the chosen value; undecided, the bit-pattern hull. -/
def selValue (pair : Bool) (p : Option Bool) (b c : IVal) : IVal :=
  match p with
  | some true => b
  | some false => c
  | none => bitHull pair [b, c]

/-- R131: a bitwise function of one or two operands, on 32 bits or pairs. -/
def logicAlu (t : Fmt) (g : Nat → Nat → Nat) : Alu :=
  let n := 32 * t.regs
  bitAlu (fun a => g (argN a 0) (argN a 1) % 2 ^ n) (n == 64)

/-- Complement within TYPE's width. -/
def notBits (t : Fmt) (x : Nat) : Nat := 2 ^ (32 * t.regs) - 1 - x

/-- R132: the shifts; `k` is unbounded. -/
def shlBits (b k : Nat) : Nat := if k ≥ 32 then 0 else b * 2 ^ k % 2 ^ 32

/-- R132. -/
def shrBits (b k : Nat) : Nat := if k ≥ 32 then 0 else b / 2 ^ k

/-- R132. -/
def sarBits (b k : Nat) : Nat := wrapTo 32 (signedOf 32 b / 2 ^ min k 31)

/-- R132: rotation left by k mod 32. -/
def rotBits (b k : Nat) : Nat := (b * 2 ^ (k % 32) + b / 2 ^ (32 - k % 32)) % 2 ^ 32

/-- R132: the amount operand: the immediate or C. -/
def RForm.amount (f : RForm) (xs : List IVal) : IVal :=
  if f.ent.getLsbD 11 then .pt (bitsOf f.ent.toNat 0 5) else argI xs 1

/-- R132: a shift on points. -/
def shiftPoint (f : RForm) (g : Nat → Nat → Nat) (a : List Nat) : Nat :=
  g (argN a 0) (if f.ent.getLsbD 11 then bitsOf f.ent.toNat 0 5 else argN a 1)

/-- SHL (R132, R137): a point amount shifts the ends and widens on overflow; an interval amount is bitwise. The intervals, of TYPE 0,
are read as natural numbers (DESIGN CHOICE; log 63). -/
def shlAlu (f : RForm) : Alu :=
  { bitAlu (shiftPoint f shlBits) with
    ival := fun xs =>
      let k := f.amount xs
      let b := (argI xs 0).rng (.int 32 false)
      if !k.isPoint then ((Order.int 32 false).widest false).ival (.int 32 false)
      else if k.lo ≥ 32 then .pt 0
      else intResult 32 false false (b.lo * 2 ^ k.lo) (b.hi * 2 ^ k.lo) }

/-- SHR and SAR (R132, R137): the extremes over the ends of B and of the amount. -/
def shrAlu (f : RForm) (signed : Bool) : Alu :=
  let g := if signed then sarBits else shrBits
  let o : Order := .int 32 signed
  { bitAlu (shiftPoint f g) with
    ival := fun xs =>
      let b := (argI xs 0).rng o
      let k := (f.amount xs).rng (.int 32 false)
      let vs := (corners [b, k]).map fun a => o.key (g (o.pat (arg a 0)) (arg a 1).toNat)
      Rng.ival o ⟨minOf vs, maxOf vs, false, false⟩ }

/-- ROT (R132): bitwise. -/
def rotAlu (f : RForm) : Alu := bitAlu (shiftPoint f rotBits)

/-- R133: the clipped width. -/
def clipWidth (pos wd : Nat) : Nat := if pos ≥ 32 ∨ wd = 0 then 0 else min wd (32 - pos)

/-- R133: BFX. -/
def bfxAlu (f : RForm) : Alu :=
  { bitAlu fun a =>
      let w := clipWidth (argN a 1) (argN a 2)
      let v := if w = 0 then 0 else bitsOf (argN a 0) (argN a 1) w
      if f.ty == .i32 && w != 0 then wrapTo 32 (signedOf w v) else v with
    ival := fun _ => (f.ty.order.widest false).ival f.ty.order
    kind := .typed f.ty.order }

/-- R133: BFI. -/
def bfiAlu : Alu := bitAlu fun a =>
  let pos := argN a 2
  let w := clipWidth pos (argN a 3)
  if w = 0 then argN a 0
  else argN a 0 - bitsOf (argN a 0) pos w * 2 ^ pos + argN a 1 % 2 ^ w * 2 ^ pos

/-- Number of ones among the low `n` bits. -/
def popCount (n x : Nat) : Nat := ((List.range n).filter fun k => x.testBit k).length

/-- R134, R137: POPC and CLZ lie in [0, 32]. -/
def countAlu (g : Nat → Nat) : Alu :=
  { bitAlu fun a => g (argN a 0) with ival := fun _ => { lo := 0, hi := 32, wide := false, mn := false } }

/-- R134: zeros above the highest one. -/
def leadingZeros (x : Nat) : Nat := 32 - bitLen x

/-- R134: bit i moved to bit 31 - i. -/
def reverseBits (x : Nat) : Nat :=
  (List.range 32).foldl (fun r i => if x.testBit i then r + 2 ^ (31 - i) else r) 0

/-- R134: BREV. -/
def brevAlu : Alu := bitAlu fun a => reverseBits (argN a 0)

end Sys2Proof
end

