-- ==== Sys2Proof/Config.lean ====
section
/-!
DEFINITION. What an implementation of the N4 fixes and the manual leaves open: free values, without a body, so that nothing can be
proved about them beyond the bound a rule sets where they are used.
-/

namespace Sys2Proof

/-- A free value for each reading of the counter `State.fresh` (log 4). -/
opaque Config.freeNat : Nat → Nat

/-- The position of the least operand at which the unit's EXP2 reaches a result, by the result's position (R158; log 5). -/
opaque Config.exp2Step : Int → Int

/-- The least fixed-point fraction at which the EXP2 inside ExpSplit reaches a result (R377; log 5). -/
opaque Config.exp2SplitStep : Int → Int

/-- The position of the least operand at which the unit's LOG2 reaches a result (R158; log 5). -/
opaque Config.log2Step : Int → Int

/-- The unit's own SIN of a non-negative operand (R158; log 5). -/
opaque Config.sin : Word → Word

/-- The unit's own COS of a non-negative operand (R158; log 5). -/
opaque Config.cos : Word → Word

/-- The position of the least positive operand at which the unit's TANH reaches a result (R158; log 5). -/
opaque Config.tanhStep : Int → Int

/-- The position of the greatest operand at which FRSQ still reaches a result (R149; log 5). -/
opaque Config.frsqStep : Int → Int

/-- DETAIL bits 63:1 of a matrix-correction event, by tile, row and column (R334; log 8). -/
opaque Config.correctionDetail : Nat → Nat → Nat → Nat

/-- R328: the groups of GDDR7: 32 channels of 3,047,424. -/
def gddrGroups : Nat := 32 * 3047424

/-- R328, R363: the data sectors that hold device memory, 180 GiB. They are those of the lowest numbers; the rest, 192 MiB, hold the private
memory of the firmware complex's cores. -/
def deviceSectors : Nat := 180 * 2 ^ 30 / 64

/-- Where a data sector lies in GDDR7: place `j` of the 31 data sectors of group `g` is number 31 g + j, and channel `c` has the groups from
3,047,424 c on (R328; log 8). -/
opaque Config.gddrPlace : Equiv.Perm (Fin (31 * gddrGroups))

/-- The elements that wait in a write port's buffer before it is full (R75; log 27). -/
opaque Config.pushBuffer : Nat

/-- The level of an account where its value falls outside an i64 (R308; log 78). -/
opaque Config.levelOver : Int → Nat

/-- The seed of the module's Ed25519 identity key, 32 bytes (R334, R342, R346, R349; log 12). -/
opaque Config.identitySeed : List Byte

/-- The private key with which a migration source agrees on a secret, 32 bytes as a number (R349 step 2; log 12). -/
opaque Config.migrationSecret : Nat

/-- The X25519 public key of the migration source that an identity digest names (R349 step 6; log 12). -/
opaque Config.migrationPublic : List Byte → Nat

/-- The Ed25519 public key of the module that an identity digest names, where its chain to Helantoft's root holds (R349 step 2; log 12). -/
opaque Config.certifiedKey : List Byte → Option (List Byte)

/-- What a destination says of an envelope, a confirmation or a failure, before its signature (R349 step 7; log 61). -/
opaque Config.migrationMessage : Bool → List Byte → List Byte

/-- The fused minimum of the firmware's security version (R339; log 15). -/
opaque Config.svnMin : Nat

/-- The fused firmware signing keys 0 to 3 (R339; log 15). -/
opaque Config.fusedKey : Nat → List Byte

/-- The SHA-512 digest of the boot ROM, as a number of 64 bytes (R341; log 15). -/
opaque Config.romDigest : Nat

/-- The key of the firmware carve-out, 64 bytes as a number (R336; log 88). -/
opaque Config.firmwareKey : Nat

/-- The certificates of slot 0, from Helantoft's root to the module's identity key, after the root's hash (R342; log 16). -/
opaque Config.certificates : List Byte

/-- The SHA-512 digest of Helantoft's root certificate, 64 bytes (R342; log 16). -/
opaque Config.rootHash : List Byte

/-- CTExponent, DataTransferSize and MaxSPDMmsgSize of the responder (R342; log 16). -/
opaque Config.spdmSizes : Nat × Nat × Nat

end Sys2Proof
end

