-- ==== Sys2Proof/Machine/Special.lean ====
section
/-!
DEFINITION. FRSQ (R149), EXP2, LOG2, SIN, COS, TANH (R158) and ExpSplit (R159, R377). The manual bounds these results and leaves
the value inside the bound to the unit (Config; log 5). The enclosures are fixed-point numbers scaled by 2^fxp.
-/

namespace Sys2Proof

/-- Fraction bits of the fixed-point enclosures. -/
def fxp : Nat := 320

/-- The fixed-point one. -/
def fxOne : Nat := 2 ^ fxp

/-- What the rounding of a fixed-point evaluation may lose, in units of 2^-fxp. -/
def fxSlack : Nat := 2 ^ 60

/-- Terms of a series. -/
def fxTerms : Nat := 240

/-- 2 * atanh(z) of a fixed-point 0 ≤ z ≤ 1/3, by its odd series. -/
def fxAtanh2 (z : Nat) : Nat :=
  let zz := z * z / fxOne
  2 * ((List.range fxTerms).foldl (fun (s : Nat × Nat) k => (s.1 + s.2 / (2 * k + 1), s.2 * zz / fxOne)) (0, z)).1

/-- ln 2. -/
def fxLn2 : Nat := fxAtanh2 (fxOne / 3)

/-- e^y - 1 of a fixed-point y ≥ 0, by its series. -/
def fxExpm1 (y : Nat) : Nat :=
  ((List.range fxTerms).foldl (fun (s : Nat × Nat) k => (s.1 + s.2, s.2 * y / fxOne / (k + 2))) (0, y)).1

/-- 2^f of a fixed-point 0 ≤ f < 1. -/
def fxExp2 (f : Nat) : Nat := fxOne + fxExpm1 (f * fxLn2 / fxOne)

/-- arctan(1/n), by its alternating series. -/
def fxAtanInv (n : Nat) : Int :=
  ((List.range fxTerms).foldl
    (fun (s : Int × Int) (k : Nat) => (s.1 + (if k % 2 = 0 then s.2 / (2 * k + 1) else -(s.2 / (2 * k + 1))), s.2 / (n * n)))
    ((0 : Int), ((fxOne / n : Nat) : Int))).1

/-- Pi, by Machin's formula. -/
def fxPi : Int := 16 * fxAtanInv 5 - 4 * fxAtanInv 239

/-- A finite exact value as a fixed-point integer, rounded toward zero below 2^-fxp; the exponent is at most 128. -/
def toFx : Exact → Int
  | .fin neg m e _ =>
    let k : Int := e + fxp
    let v : Int := if 0 ≤ k then ((m * 2 ^ k.toNat : Nat) : Int) else if k < -400 then 0 else ((m / 2 ^ (-k).toNat : Nat) : Int)
    if neg then -v else v
  | _ => 0

/-- A fixed-point number as an exact value; `more` marks it as not exact. -/
def ofFx (x : Int) : Exact := .fin (x < 0) x.natAbs (-(fxp : Int)) true

/-- sin (or cos when `c`) of a fixed-point angle, reduced modulo 2 pi, by its series. -/
def fxTrig (c : Bool) (x : Int) : Int :=
  let r := x % (2 * fxPi)
  let rr := r * r / fxOne
  let start : Int := if c then fxOne else r
  ((List.range 80).foldl
    (fun (s : Int × Int) (k : Nat) =>
      let d : Int := if c then (2 * k + 1) * (2 * k + 2) else (2 * k + 2) * (2 * k + 3)
      (s.1 + s.2, -(s.2 * rr / fxOne / d)))
    ((0 : Int), start)).1

/-- One unit in the last place of an f32 near a fixed-point value: its binade's spacing, at least 2^-149. -/
def fxUlp (x : Int) : Int := 2 ^ (max (bitLen x.natAbs - 1 - 23) (fxp - 149))

/-- The fixed-point value of an f32; NaN and infinities give 0. -/
def fxOf (y : Word) : Int := toFx (f32 y)

/-- Is the f32 finite? -/
def finite32 (y : Word) : Bool := match f32 y with
  | .fin .. => true
  | _ => false

/-- The unit's value `y` lies within `bound` of the enclosed value, as far as the enclosure can tell. -/
def fxNear (y : Word) (v bound : Int) : Bool := finite32 y && (fxOf y - v).natAbs ≤ bound + fxSlack

/-- The unit's own value where it is allowed, otherwise the enclosed value rounded. -/
def pick (own : Word) (ok : Word → Bool) (v : Exact) : Word := if ok own then own else rneF32 v

/-! ## Monotone functions

A result is named by its position among the f32 values (`f32Key`). The bound of a rule leaves a window of positions to each operand,
and the unit's choice within it is the greatest position it has reached: a free threshold says, for each position, the first operand at
which it is reached. Over operands whose windows rise, the results rise, and every such function within its windows has this form. -/

/-- A window of positions. -/
structure Window where
  lo : Int
  hi : Int
  deriving DecidableEq, Repr

/-- The window of one position. -/
def Window.at (k : Int) : Window := { lo := k, hi := k }

/-- The positions that both windows hold. -/
def Window.cut (a b : Window) : Window := { lo := max a.lo b.lo, hi := min a.hi b.hi }

/-- The greatest reached position of a window; its lowest counts as reached. -/
def Window.climb (w : Window) (reached : Int → Bool) : Int :=
  (List.range (w.hi - w.lo).toNat).foldl (fun a i => if reached (w.lo + 1 + i) then w.lo + 1 + i else a) w.lo

/-- The f32 at a position. -/
def wordAt (k : Int) : Word := BitVec.ofNat 32 (Order.flt.pat k)

/-- The position of an exact value rounded to f32. -/
def keyTo (rm : Rnd) (x : Exact) : Int := f32Key (toF32 rm x).toNat

/-- The positions within `bound` of an enclosed value; no f32 lies so near an end of the bound that the enclosure misplaces it. -/
def nearWindow (v bound : Int) : Window := { lo := keyTo .ru (ofFx (v - bound)), hi := keyTo .rd (ofFx (v + bound)) }

/-- The window at an operand once those of its neighbours, three on either side, have been met too: an ulp shrinks or grows from one
binade to the next, so the windows of R158 alone do not rise there. -/
def smooth (win : Int → Window) (k : Int) : Window :=
  (List.range 4).foldl (fun w i => { lo := max w.lo (win (k - i)).lo, hi := min w.hi (win (k + i)).hi }) (win k)

/-! ## FRSQ -/

/-- 1/√(m * 2^e) truncated to f32 for m > 0, and whether it is exact. -/
def frsqBelow (m : Nat) (e : Int) : Word × Bool :=
  -- 1/√(m 2^e) = √(2^(600 - e) / m) / 2^300
  let r := isqrt (2 ^ (600 - e).toNat / m)
  let exact := r * r * m == 2 ^ (600 - e).toNat
  (toF32 .rz (.fin false r (-300) (!exact)), exact)

/-- R149: the two neighbours of the exact value, or the value itself; the greater is reached up to its threshold. -/
def frsq (b : Word) : Word :=
  match f32 b with
  | .nan => nan32
  | .inf neg => if neg then nan32 else 0
  | .fin neg m e _ =>
    if m = 0 then BitVec.ofNat 32 (f32Inf neg)
    else if neg then nan32
    else
      let y := frsqBelow m e
      let k := f32Key y.1.toNat
      wordAt (Window.climb { lo := k, hi := if y.2 then k else k + 1 } fun j => f32Key b.toNat ≤ Config.frsqStep j)

/-! ## EXP2 -/

/-- 2^x enclosed, for a fixed-point x with -200 < x < 128. -/
def fxExp2Full (x : Int) : Int :=
  let ip := x / fxOne
  let f := (x % fxOne).toNat
  let v : Int := fxExp2 f
  if 0 ≤ ip then v * 2 ^ ip.toNat else v / 2 ^ (-ip).toNat

/-- R158: the results allowed to EXP2 at a fixed-point operand that is no integer: 2 ulp of a normal value, 2^-148 below; between the
powers of two around the operand, since these are exact; and for an operand in [0, 1) at most 2 - 2^-23. -/
def exp2Window (x : Int) : Window :=
  let v := fxExp2Full x
  let ip := x / fxOne
  let w := nearWindow v (if v ≥ 2 ^ (fxp - 126) then 2 * fxUlp v else 2 ^ (fxp - 148))
  let w := w.cut { lo := keyTo .rne (.fin false 1 ip false), hi := keyTo .rne (.fin false 1 (ip + 1) false) }
  if ip = 0 then w.cut { lo := w.lo, hi := 0x3FFFFFFF } else w

/-- R158: EXP2. Below -150 the exact power of two at -150, which rounds to +0, leaves nothing else. -/
def exp2 (b : Word) : Word :=
  match f32 b with
  | .nan => nan32
  | .inf neg => if neg then 0 else BitVec.ofNat 32 (f32Inf false)
  | x =>
    if (f32 0x43000000).le x then BitVec.ofNat 32 (f32Inf false)
    else if x.le (f32 0xC3160000) then 0
    else
      let v := toFx x
      if v % fxOne = 0 then rneF32 (.fin false 1 (v / fxOne) false)
      else wordAt ((exp2Window v).climb fun k => Config.exp2Step k ≤ f32Key b.toNat)

/-! ## LOG2 -/

/-- log2 of a positive finite value, enclosed. -/
def fxLog2 (m : Nat) (e : Int) : Int :=
  let n := bitLen m - 1
  -- the significand m / 2^n lies in [1, 2)
  let z := (m - 2 ^ n) * fxOne / (m + 2 ^ n)
  ((n : Int) + e) * fxOne + ((fxAtanh2 z * fxOne / fxLn2 : Nat) : Int)

/-- R158: the results allowed to LOG2 at the positive f32 of a position: the exponent of a power of two; otherwise within 2 ulp and
between the exponents of the powers of two around the operand. -/
def log2Window (k : Int) : Window :=
  match f32 (wordAt k) with
  | .fin false m e _ =>
    let j : Int := (bitLen m : Int) - 1 + e
    if m = 0 then .at (f32Key (f32Inf true))
    else if m = 2 ^ (bitLen m - 1) then .at (keyTo .rne (.ofInt j))
    else
      let v := fxLog2 m e
      (nearWindow v (2 * fxUlp v)).cut { lo := keyTo .rne (.ofInt j), hi := keyTo .rne (.ofInt (j + 1)) }
  | .fin true _ _ _ => .at (f32Key (f32Inf true))
  | _ => .at (f32Key (f32Inf false))

/-- R158: LOG2. -/
def log2 (b : Word) : Word :=
  match f32 b with
  | .nan => nan32
  | .inf neg => if neg then nan32 else BitVec.ofNat 32 (f32Inf false)
  | .fin neg m _ _ =>
    if m = 0 then BitVec.ofNat 32 (f32Inf true)
    else if neg then nan32
    else
      let k := f32Key b.toNat
      wordAt ((smooth log2Window k).climb fun j => Config.log2Step j ≤ k)

/-! ## SIN, COS, TANH -/

/-- Within [-1, 1]. -/
def unitRange (y : Word) : Bool := finite32 y && y.toNat % 2 ^ 31 ≤ 0x3F800000

/-- R158: SIN and COS of a non-negative finite operand: error at most 2^-21 up to 2^20, any value in [-1, 1] beyond. -/
def trig (c : Bool) (own : Word → Word) (a : Word) : Word :=
  let big := a.toNat > 0x49800000
  let v := if big then 0 else fxTrig c (fxOf a)
  let own := own a
  if unitRange own && (big || fxNear own v (2 ^ (fxp - 21))) then own
  else
    let y := rneF32 (ofFx v)
    if unitRange y then y else if v < 0 then 0xBF800000 else 0x3F800000

/-- The f32 with its sign bit cleared. -/
def abs32 (x : Word) : Word := x &&& 0x7FFFFFFF

/-- The sign bit of `x` given to `y` by exclusive OR. -/
def signLike (x y : Word) : Word := y ^^^ (x &&& 0x80000000)

/-- R158: SIN: odd, SIN(±0) = ±0. -/
def sin (b : Word) : Word :=
  match f32 b with
  | .fin _ m _ _ => if m = 0 then b else signLike b (trig false Config.sin (abs32 b))
  | _ => nan32

/-- R158: COS: even, COS(±0) = 1. -/
def cos (b : Word) : Word :=
  match f32 b with
  | .fin _ m _ _ => if m = 0 then 0x3F800000 else trig true Config.cos (abs32 b)
  | _ => nan32

/-- tanh of a fixed-point 0 < x ≤ 40, enclosed; it lies below x. -/
def fxTanh (x : Nat) : Int :=
  let t := fxExpm1 (2 * x)
  min ((x : Int) - 1) ((t * fxOne / (t + 2 * fxOne) : Nat) : Int)

/-- R158: the results allowed to TANH at the non-negative f32 of a position: within 2 ulp, and in [0, 1]. -/
def tanhWindow (k : Int) : Window :=
  if k ≤ 0 then .at 0
  else
    let v : Int := if k ≥ 0x41A00000 then fxOne - 1 else fxTanh (fxOf (wordAt k)).toNat
    (nearWindow v (2 * fxUlp v)).cut { lo := 0, hi := 0x3F800000 }

/-- R158: TANH of a positive finite operand. -/
def tanhPos (a : Word) : Word :=
  let k := f32Key a.toNat
  wordAt ((smooth tanhWindow k).climb fun j => Config.tanhStep j ≤ k)

/-- R158: TANH: odd, TANH(±0) = ±0, TANH(±∞) = ±1. -/
def tanh (b : Word) : Word :=
  match f32 b with
  | .nan => nan32
  | .inf _ => signLike b 0x3F800000
  | .fin _ m _ _ => if m = 0 then b else signLike b (tanhPos (abs32 b))

/-! ## ExpSplit -/

/-- The result of ExpSplit (R159). -/
inductive Split
  | nan
  | none
  | some (ip : Int) (y : Word)
  deriving DecidableEq, Repr

/-- log2(e) = 1 / ln 2, as a fixed-point number. -/
def fxLog2e : Nat := fxOne * fxOne / fxLn2

/-- RoundRNE(x * log2(e), f32) (R159). -/
def timesLog2e (x : Exact) : Word :=
  match x with
  | .fin neg m e _ => rneF32 (if m = 0 then .fin neg 0 0 false else .fin neg (m * fxLog2e) (e - fxp) true)
  | x => rneF32 x

/-- R377: EXP2 on the exact fraction f of t: 1.0 exactly when f = 0. -/
def exp2Frac (f : Int) : Word :=
  if f = 0 then 0x3F800000
  else wordAt (((exp2Window f).cut { lo := 0x3F800001, hi := 0x3FFFFFFF }).climb fun k => Config.exp2SplitStep k ≤ f)

/-- R159, R377. -/
def expSplit (x : Word) : Split :=
  match f32 x with
  | .nan => .nan
  | .inf neg => if neg then .none else .nan
  | v =>
    let t := timesLog2e v
    match f32 t with
    | .nan => .nan
    | .inf neg => if neg then .none else .some (2 ^ 31 - 1) 0x3F800000
    | tv =>
      let fx := toFx tv
      let ip := fx / fxOne
      if ip < -(2 ^ 31 - 1) then .none
      else if ip > 2 ^ 31 - 1 then .some (2 ^ 31 - 1) 0x3F800000
      else .some ip (exp2Frac (fx % fxOne))

end Sys2Proof
end

