-- ==== Sys2Proof/Machine/Float.lean ====
section
/-!
DEFINITION. The values of the f32, packed half, conversion, quantisation, special-function and softmax instructions (R146 to
R160) with their interval rules (R161, R379), and format slots (R44, R45).
-/

namespace Sys2Proof

/-! ## Interval rules for f32 -/

/-- A point of f32 by its key. -/
def keyF (k : Int) : Exact := readValue .f32 (Order.flt.pat k)

/-- The range contains a zero of either sign. -/
def Rng.hasZeroF (r : Rng) : Bool := r.lo ≤ 0 && -1 ≤ r.hi

/-- The range ends at +infinity. -/
def Rng.hasPosInf (r : Rng) : Bool := r.hi == Order.flt.whole.2

/-- The range ends at -infinity. -/
def Rng.hasNegInf (r : Rng) : Bool := r.lo == Order.flt.whole.1

/-- The widest f32 interval. -/
def wideF : IVal := (Order.flt.widest true).ival .flt

/-- An f32 interval from two computed ends; a NaN end or ends out of order widen. -/
def endsF (lo hi : Nat) (mn : Bool) : IVal :=
  if readValue .f32 lo == .nan || readValue .f32 hi == .nan || f32Key lo > f32Key hi then wideF
  else { lo, hi, wide := false, mn }

/-- An f32 operation on points. -/
def pointF (g : List Exact → Exact) (rm : Rnd) (xs : List Nat) : Nat := roundTo .f32 rm false (g (xs.map (readValue .f32)))

/-- Exact-monotone in f32 (R161): `dec` tells which sources act in the opposite direction; `mayNan` when some choice of values gives
NaN. -/
def monoF (f : List Nat → Nat) (dec : List Bool) (mayNan : List Rng → Bool) : Alu :=
  { point := f
    ival := fun xs =>
      let rs := xs.map (·.rng .flt)
      let lo := List.zipWith (fun (r : Rng) d => Order.flt.pat (if d then r.hi else r.lo)) rs dec
      let hi := List.zipWith (fun (r : Rng) d => Order.flt.pat (if d then r.lo else r.hi)) rs dec
      endsF (f lo) (f hi) (rs.any (·.mn) || mayNan rs)
    kind := .typed .flt }

/-- A corner, and with each of its infinite ends also the greatest finite value of that sign. -/
def finiteCorners : List Order → List Int → List (List Int)
  | o :: os, k :: ks =>
    (finiteCorners os ks).flatMap fun t =>
      let j := max (f32Key 0xFF7FFFFF) (min (f32Key 0x7F7FFFFF) k)
      if o == .flt && j != k then [k :: t, j :: t] else [k :: t]
  | _, _ => [[]]

/-- Corner class in f32 (R161): the extremes over the corners. Where a corner is NaN, the values beside it stand for it: the same corner
with the greatest finite value for an infinite end (DESIGN CHOICE, safe: R161 names no extremes there; log 63). -/
def cornerF (f : List Nat → Nat) (orders : List Order) (mayNan : List Rng → Bool) (widen : List Rng → Bool) : Alu :=
  { point := f
    ival := fun xs =>
      let rs := List.zipWith IVal.rng orders xs
      let at_ (c : List Int) : Nat := f (List.zipWith Order.pat orders c)
      let nan (v : Nat) : Bool := readValue .f32 v == .nan
      let cs := corners rs
      let vs := cs.flatMap fun c => if nan (at_ c) then (finiteCorners orders c).map at_ else [at_ c]
      let good := (vs.filter fun v => !nan v).map f32Key
      if widen rs || good.isEmpty then wideF
      else { lo := Order.flt.pat (minOf good), hi := Order.flt.pat (maxOf good), wide := false,
             mn := xs.any (·.mn) || (List.zipWith (fun (r : Rng) o => r.mn && o == .flt) rs orders).any id ||
               cs.any (fun c => nan (at_ c)) || mayNan rs }
    kind := .typed .flt }

/-- The k-th range. -/
def argR (rs : List Rng) (k : Nat) : Rng := (rs[k]?).getD ⟨0, 0, false, false⟩

/-- A sum of infinities of opposite signs is possible. -/
def infClash (a b : Rng) : Bool := (a.hasPosInf && b.hasNegInf) || (a.hasNegInf && b.hasPosInf)

/-- A product of a zero and an infinity is possible. -/
def zeroInf (a b : Rng) : Bool :=
  (a.hasZeroF && (b.hasPosInf || b.hasNegInf)) || (b.hasZeroF && (a.hasPosInf || a.hasNegInf))

/-- The k-th exact value. -/
def argX (xs : List Exact) (k : Nat) : Exact := (xs[k]?).getD .nan

/-! ## f32 arithmetic (R148 to R152) -/

/-- FADD. -/
def faddAlu (f : RForm) : Alu :=
  monoF (pointF (fun a => (argX a 0).add f.rnd (argX a 1)) f.rnd) [false, false] fun rs => infClash (argR rs 0) (argR rs 1)

/-- FSUB. -/
def fsubAlu (f : RForm) : Alu :=
  monoF (pointF (fun a => (argX a 0).add f.rnd (argX a 1).negate) f.rnd) [false, true] fun rs =>
    let a := argR rs 0
    let b := argR rs 1
    (a.hasPosInf && b.hasPosInf) || (a.hasNegInf && b.hasNegInf)

/-- FMUL. -/
def fmulAlu (f : RForm) : Alu :=
  cornerF (pointF (fun a => (argX a 0).mul (argX a 1)) f.rnd) [.flt, .flt] (fun rs => zeroInf (argR rs 0) (argR rs 1))
    fun _ => false

/-- FFMA: exact product and sum, one rounding. -/
def ffmaAlu (f : RForm) : Alu :=
  cornerF (pointF (fun a => ((argX a 0).mul (argX a 1)).add f.rnd (argX a 2)) f.rnd) [.flt, .flt, .flt]
    (fun rs =>
      let b := argR rs 0
      let c := argR rs 1
      let d := argR rs 2
      let ps := (corners [b, c]).map fun k => (keyF (arg k 0)).mul (keyF (arg k 1))
      zeroInf b c || (ps.contains (.inf false) && d.hasNegInf) || (ps.contains (.inf true) && d.hasPosInf))
    fun _ => false

/-- FMIN and FMAX: a NaN operand yields the other; -0 is below +0. -/
def fminmax (mx : Bool) (a : List Nat) : Nat :=
  let x := argN a 0
  let y := argN a 1
  let nx := readValue .f32 x == .nan
  let ny := readValue .f32 y == .nan
  if nx && ny then nanCode .f32 else if nx then y else if ny then x
  else if (f32Key x ≤ f32Key y) != mx then x else y

/-- FMIN. -/
def fminAlu : Alu := monoF (fminmax false) [false, false] fun _ => false

/-- FMAX. -/
def fmaxAlu : Alu := monoF (fminmax true) [false, false] fun _ => false

/-- FABS: NaN gives the canonical NaN. -/
def fabsBits (x : Nat) : Nat := if readValue .f32 x == .nan then nanCode .f32 else x % 2 ^ 31

/-- FABS (R148, R161 as IABS). -/
def fabsAlu : Alu :=
  { point := fun a => fabsBits (argN a 0)
    ival := fun xs =>
      let r := (argI xs 0).rng .flt
      let a := fabsBits (Order.flt.pat r.lo)
      let b := fabsBits (Order.flt.pat r.hi)
      { lo := if r.hasZeroF then 0 else min a b, hi := max a b, wide := false, mn := r.mn }
    kind := .typed .flt }

/-- FNEG: NaN gives the canonical NaN. -/
def fnegBits (x : Nat) : Nat :=
  if readValue .f32 x == .nan then nanCode .f32 else if x < 2 ^ 31 then x + 2 ^ 31 else x - 2 ^ 31

/-- FNEG. -/
def fnegAlu : Alu := monoF (fun a => fnegBits (argN a 0)) [true] fun _ => false

/-- FRCP: IEEE division of 1. -/
def frcpAlu (f : RForm) : Alu :=
  cornerF (pointF (fun a => (Exact.ofInt 1).div (argX a 0)) f.rnd) [.flt] (fun _ => false) fun rs => (argR rs 0).hasZeroF

/-- FSQRT. -/
def fsqrtAlu (f : RForm) : Alu :=
  monoF (pointF (fun a => (argX a 0).sqrt) f.rnd) [false] fun rs => (argR rs 0).lo < -1

/-- A function of one f32 word. -/
def wordFn (g : Word → Word) (a : List Nat) : Nat := (g (BitVec.ofNat 32 (argN a 0))).toNat

/-- FRSQ (R149): decreasing; widen when the interval reaches below -0. -/
def frsqAlu : Alu :=
  let a := monoF (wordFn frsq) [true] fun _ => false
  { a with ival := fun xs => if ((argI xs 0).rng .flt).lo < -1 then wideF else a.ival xs }

/-- FSCALE: IEEE scaleB by C read as i32. -/
def fscaleAlu (f : RForm) : Alu :=
  cornerF (fun a => roundTo .f32 f.rnd false ((readValue .f32 (argN a 0)).scale (signedOf 32 (argN a 1))))
    [.flt, .int 32 true] (fun _ => false) fun _ => false

/-- R151: the class mask of a stored encoding. -/
def fclassBits (t : Fmt) (x : Nat) : Nat :=
  match t.fparam? with
  | none => 0
  | some p =>
    let x := x % 2 ^ t.width
    let neg := x / 2 ^ (t.width - 1) == 1
    let ex := bitsOf x p.mb p.eb
    let m := bitsOf x 0 p.mb
    if ex = 2 ^ p.eb - 1 then
      if m = 0 then if neg then 1 else 2 ^ 7 else if m < 2 ^ (p.mb - 1) then 2 ^ 8 else 2 ^ 9
    else if ex = 0 then
      if m = 0 then if neg then 2 ^ 3 else 2 ^ 4 else if neg then 2 ^ 2 else 2 ^ 5
    else if neg then 2 ^ 1 else 2 ^ 6

/-- FCLASS: bitwise. -/
def fclassAlu (f : RForm) : Alu := { bitAlu (fun a => fclassBits f.ty (argN a 0)) with kind := .typed (.int 32 false) }

/-- R152: FEXPN.exp. -/
def fexpnExp (x : Nat) : Int :=
  match readValue .f32 x with
  | .nan | .inf _ => 2 ^ 31 - 1
  | v => if v.isZero then -(2 ^ 31) else v.exponent

/-- R152: FEXPN.man. -/
def fexpnMan (x : Nat) : Nat :=
  match readValue .f32 x with
  | .nan => nanCode .f32
  | .inf _ => x
  | v => if v.isZero then x else roundTo .f32 .rne false (v.scale (-v.exponent))

/-- FEXPN (R152, R161). -/
def fexpnAlu (f : RForm) : Alu :=
  if f.subop = 0 then
    { bitAlu (fun a => wrapTo 32 (fexpnExp (argN a 0))) with
      ival := fun xs =>
        let r := (argI xs 0).rng .flt
        let a := fexpnExp (fabsBits (Order.flt.pat r.lo))
        let b := fexpnExp (fabsBits (Order.flt.pat r.hi))
        intResult 32 true false (if r.hasZeroF then -(2 ^ 31) else min a b) (max a b)
      kind := .typed (.int 32 true) }
  else
    { point := fun a => fexpnMan (argN a 0)
      ival := fun xs => { lo := 0xBFFFFFFF, hi := 0x3FFFFFFF, wide := false, mn := ((argI xs 0).rng .flt).mn }
      kind := .typed .flt }

/-! ## Packed halves (R153) -/

/-- Encodings of a 16-bit format at which a class begins: ±0, finite, ±∞ and NaN of each sign. -/
def halfClasses (t : Fmt) : List Nat :=
  let i := infCode t (t.fparam?.getD ⟨5, 10, 15, true, true⟩) false false
  [0, 1, i, i + 1, 2 ^ 15, 2 ^ 15 + 1, 2 ^ 15 + i, 2 ^ 15 + i + 1]

/-- One encoding of each class that half `h` takes over an interval of words, whose ends are read as natural numbers (DESIGN CHOICE;
log 63). -/
def halfValues (t : Fmt) (h : Nat) (x : IVal) : List Nat :=
  let r := x.rng (.int 32 false)
  let lo := r.lo.toNat / 2 ^ (16 * h)
  let n := min (2 ^ 16 - 1) (r.hi.toNat / 2 ^ (16 * h) - lo)
  lo % 2 ^ 16 :: (halfClasses t).filter fun c => (c + 2 ^ 16 - lo % 2 ^ 16) % 2 ^ 16 ≤ n

/-- Every choice of one member from each list. -/
def choices : List (List Nat) → List (List Nat)
  | [] => [[]]
  | x :: xs => (choices xs).flatMap fun t => x.map (· :: t)

/-- Both halves of a packed result. On intervals a bitwise class, with MN when a source has it or some choice of values gives NaN
(R161). -/
def halfAlu (f : RForm) (g : List Exact → Exact) : Alu :=
  let half (xs : List Nat) : Nat := roundTo f.ty f.rnd false (g (xs.map (readValue f.ty)))
  let nan (r : Nat) : Bool := readValue f.ty r == .nan
  { bitAlu fun a => half (a.map fun x => bitsOf x 0 16) + 2 ^ 16 * half (a.map fun x => bitsOf x 16 16) with
    ival := fun xs => { lo := 0, hi := 2 ^ 32 - 1, wide := true,
                        mn := xs.any (·.mn) || [0, 1].any fun h => (choices (xs.map (halfValues f.ty h))).any fun c => nan (half c) }
    kind := .bits false true
    nanOut := fun r => nan (bitsOf r 0 16) || nan (bitsOf r 16 16) }

/-- HADD2. -/
def hadd2Alu (f : RForm) : Alu := halfAlu f fun a => (argX a 0).add f.rnd (argX a 1)

/-- HMUL2. -/
def hmul2Alu (f : RForm) : Alu := halfAlu f fun a => (argX a 0).mul (argX a 1)

/-- HFMA2. -/
def hfma2Alu (f : RForm) : Alu := halfAlu f fun a => ((argX a 0).mul (argX a 1)).add f.rnd (argX a 2)

/-! ## Conversions (R147, R154, R379) -/

/-- The element of width `w` at position `k`. -/
def elemAt (w k x : Nat) : Nat := bitsOf x (w * k) w

/-- `x` with its element of width `w` at position `k` set. -/
def setElem (w k x v : Nat) : Nat := x - elemAt w k x * 2 ^ (w * k) + v % 2 ^ w * 2 ^ (w * k)

/-- The source format. -/
def RForm.from (f : RForm) : Fmt := f.from?.getD .f32

/-- The converted element of a source register: CVT and ICVT round into a float format, CVTI into an integer. -/
def convert (f : RForm) (v : Exact) : Nat := encodeValue f.ty f.rnd f.sat v

/-- A result shorter than 32 bits goes to DPOS of the old register; an integer result is extended to 32 bits. -/
def placeResult (f : RForm) (old v : Nat) : Nat :=
  match f.ty.int? with
  | some (n, sg) => if n < 32 then wrapTo 32 (readInt n sg v) else v
  | none => if f.ty.width < 32 then setElem f.ty.width f.dpos old v else v

/-- The result kind of a conversion. -/
def convKind (f : RForm) : ResKind :=
  match f.ty.int? with
  | some (n, sg) => .typed (.int (if n = 64 then 64 else 32) sg)
  | none => if f.ty.width = 32 then .typed .flt else .bits false true

/-- The whole range of a source format (R379). -/
def wholeOf (t : Fmt) : Exact × Exact :=
  match t.fparam?, t.int? with
  | some p, _ => if p.hasInf then (.inf true, .inf false) else (p.read (signBit t true + maxFinite p), p.read (maxFinite p))
  | _, some (n, sg) => (.ofInt (intMin n sg), .ofInt (intMax n sg))
  | _, _ => (.ofInt (-1), .ofInt 1)

/-- CVT, CVTI and ICVT on register values: sources B and the old A. A point B gives what element mode gives (R245), a NaN too, where
R379 would read the whole range of FROM (DEDUCED; log 91). -/
def convAlu (f : RForm) : Alu :=
  let src := f.from
  let isF := src.fparam?.isSome
  let elem (x : Nat) : Exact := readValue src (elemAt src.width f.spos x)
  { point := fun a => placeResult f (argN a 1) (convert f (elem (argN a 0)))
    ival := fun xs =>
      let b := argI xs 0
      let old := argI xs 1
      let lo := elem b.lo
      let hi := elem b.hi
      let bad := b.wide || (!b.isPoint && (lo == .nan || hi == .nan || !lo.le hi))
      let (lo, hi) := if bad then wholeOf src else (lo, hi)
      let mn := b.mn || (isF && bad)
      match f.ty.int? with
      | some (n, sg) =>
        let a := roundToInt n sg f.rnd lo
        let z := roundToInt n sg f.rnd hi
        intResult (if n = 64 then 64 else 32) sg false (if mn then min a 0 else a) (if mn then max z 0 else z)
      | none =>
        let a := convert f lo
        let z := convert f hi
        let mn := mn || readValue f.ty a == .nan || readValue f.ty z == .nan
        if f.ty.width = 32 then if b.isPoint then { IVal.pt a with mn } else endsF a z mn
        else { lo := setElem f.ty.width f.dpos old.lo a, hi := setElem f.ty.width f.dpos old.hi z, wide := old.wide,
               mn := old.mn || mn }
    kind := convKind f
    nanOut := fun r => f.ty.int?.isNone && readValue f.ty (elemAt f.ty.width f.dpos r) == .nan
    nanZero := f.ty.int?.isSome }

/-! ## Format slots (R44, R45) -/

/-- A format slot's fields. -/
structure FSlot where
  efmt : Fmt
  e8 : Bool
  block : Nat
  planes : Nat
  round : Rnd
  sat : Bool
  cbaddr : Nat
  deriving DecidableEq, Repr

/-- R45: the slot's fields, or none when it is malformed or its element format is not among `accepted`. -/
def readSlot (w0 w1 : DWord) (accepted : List Fmt) : Option FSlot :=
  let a := w0.toNat
  let b := w1.toNat
  let sf := bitsOf a 5 5
  let blk := bitsOf a 10 2
  let pm1 := bitsOf a 12 4
  let rd := bitsOf a 16 3
  let nm := bitsOf a 19 2
  match Fmt.ofCode (bitsOf a 0 5) with
  | none => none
  | some t =>
    let w := t.width
    let isInt := t.int?.isSome || t == .b1
    let planesOk : Bool :=
      if t == .cb4 then pm1 == 3 && b != 0
      else if t == .b1 then pm1 == 0
      else if t == .e8 then true
      else if w ≥ 32 then pm1 == 15
      else if isInt then pm1 + 1 ≤ w
      else match t.fparam? with
        | some p => 1 + p.eb ≤ pm1 + 1 && pm1 + 1 ≤ w
        | none => false
    let ok := bitsOf a 21 43 == 0 && nm ≤ 1 && rd ≤ 3 && bitsOf b 0 5 == 0 && bitsOf b 56 8 == 0 && t != .none && t ∈ accepted &&
      (sf == 0 || sf == 0x19) && !(sf == 0x19 && isInt) && (if sf == 0 then blk == 0 else blk != 3) && planesOk &&
      (t == .cb4 || b == 0)
    if ok then
      some { efmt := t, e8 := sf == 0x19, block := 16 * 2 ^ blk, planes := pm1 + 1,
             round := match rd with | 0 => .rne | 1 => .rz | 2 => .ru | _ => .rd, sat := nm == 1, cbaddr := b }
    else none

/-- The value of an element of a slot's format; cb4 through the codebook (R40). -/
def slotValue (t : Fmt) (table : List (BitVec 16)) (x : Nat) : Exact :=
  if t == .cb4 then readValue .bf16 ((table[x % 16]?).getD 0).toNat else readValue t x

/-! ## Quantisation (R155, R156) -/

/-- Formats of width 16 or less (R155): those with a plane layout, and e8, of width 8 (R38). -/
def Fmt.narrow : List Fmt := .e8 :: Fmt.plane

/-- Formats of QNT.sc. -/
def Fmt.micro : List Fmt := [.f8e4, .f8e5, .f6e3, .f6e2, .f4]

/-- The distance of R156; none is the infinite distance, also from an infinity to itself. -/
def distance (x y : Exact) : Option Exact :=
  match x, y with
  | .fin .., .fin .. => some (x.add .rne y.negate).abs
  | _, _ => none

/-- `x` is a strictly smaller distance than `y`. -/
def closer (x y : Option Exact) : Bool :=
  match x, y with
  | some a, some b => a.le b && !a.eqv b
  | some _, none => true
  | none, _ => false

/-- The first candidate that beats the others. -/
def bestCode (better : Exact → Exact → Bool) : List (Nat × Exact) → Option (Nat × Exact)
  | [] => none
  | x :: xs => some (xs.foldl (fun a y => if better y.2 a.2 then y else a) x)

/-- Numerical order without regard to the signs of zeros. -/
def Exact.lt (x y : Exact) : Bool := x.le y && !x.eqv y

/-- R156: the code of a value under a codebook; equal distances and entries go to the lowest code. -/
def quantCb4 (table : List (BitVec 16)) (rm : Rnd) (v : Exact) : Nat :=
  let cands := ((List.range 16).map fun j => (j, slotValue .cb4 table j)).filter fun c => c.2 != .nan
  let near (cs : List (Nat × Exact)) : Option (Nat × Exact) := bestCode (fun y a => closer (distance y v) (distance a v)) cs
  let least := bestCode (fun y a => y.lt a)
  let greatest := bestCode (fun y a => a.lt y)
  let rne : Option (Nat × Exact) :=
    match v with
    | .inf neg => match cands.find? (fun c => c.2 == v) with
      | some c => some c
      | none => if neg then least cands else greatest cands
    | _ => near cands
  let chosen : Option (Nat × Exact) :=
    if v == .nan then none
    else match rm with
      | .ru => match least (cands.filter fun c => !c.2.lt v) with
        | some c => some c
        | none => greatest cands
      | .rd => match greatest (cands.filter fun c => !v.lt c.2) with
        | some c => some c
        | none => least cands
      | .rz =>
        match near (cands.filter fun c => !v.abs.lt c.2.abs && (c.2.isZero || c.2.neg? == v.neg?)) with
        | some c => some c
        | none => rne
      | _ => rne
  (chosen.map (·.1)).getD 0

/-- Exponent of the largest finite value of a micro format (R155). -/
def emax : Fmt → Int
  | .f8e4 => 8
  | .f8e5 => 15
  | .f6e3 => 4
  | _ => 2

/-- R155: QNT.sc. -/
def quantScale (t : Fmt) (x : Nat) : Nat :=
  match (readValue .f32 x).abs with
  | .nan | .inf _ => 0xFF
  | a => if a.isZero then 0x7F else (min 254 (max 0 (a.exponent - emax t + 127))).toNat

/-- R155: the code of B / X. -/
def quantCode (s : FSlot) (table : List (BitVec 16)) (b x : Nat) : Nat :=
  let v := if s.e8 then match readE8 x with
    | .fin _ _ e _ => (readValue .f32 b).scale (-e)
    | _ => .nan
    else readValue .f32 b
  if s.efmt == .cb4 then quantCb4 table s.round v else encodeValue s.efmt s.round s.sat v

/-- The low bytes of an interval of words, whose ends are read as natural numbers (DESIGN CHOICE; log 63). -/
def lowBytes (x : IVal) : List Nat :=
  let r := x.rng (.int 32 false)
  (List.range (min 256 (r.hi - r.lo + 1).toNat)).map fun k => (r.lo.toNat + k) % 256

/-- The code is a NaN of the slot's format (R36, R38); a codebook's code is none. -/
def FSlot.nan (s : FSlot) (code : Nat) : Bool := s.efmt != .cb4 && s.efmt.int?.isNone && readValue s.efmt code == .nan

/-- QNT.q: sources B, C and the old A; on intervals a bitwise class, with MN when a source has it or some choice of values gives NaN
(R161): an end of B under a byte of C does where any value does. -/
def qntAlu (s : FSlot) (table : List (BitVec 16)) (pos : Nat) : Alu :=
  { bitAlu fun a => setElem s.efmt.width pos (argN a 2) (quantCode s table (argN a 0) (argN a 1)) with
    ival := fun xs =>
      let b := (argI xs 0).rng .flt
      let nan (k : Int) (x : Nat) : Bool := s.nan (quantCode s table (Order.flt.pat k) x)
      { lo := 0, hi := 2 ^ 32 - 1, wide := true,
        mn := b.mn || xs.any (·.mn) || (lowBytes (argI xs 1)).any fun x => nan b.lo x || nan b.hi x }
    kind := .bits false true
    nanOut := fun r => s.nan (elemAt s.efmt.width pos r) }

/-- QNT.sc: an e8 byte, with MN as for QNT.q. -/
def qntScAlu (s : FSlot) : Alu :=
  { bitAlu fun a => quantScale s.efmt (argN a 0) with
    ival := fun xs =>
      let b := (argI xs 0).rng .flt
      { lo := 0, hi := 2 ^ 32 - 1, wide := true, mn := b.mn || b.hasPosInf || b.hasNegInf }
    kind := .bits false true
    nanOut := fun r => r == 0xFF }

/-- DQNT: sources B and C. -/
def dqntAlu (s : FSlot) (table : List (BitVec 16)) (pos : Nat) : Alu :=
  { bitAlu fun a =>
      let e := slotValue s.efmt table (elemAt s.efmt.width pos (argN a 0))
      roundTo .f32 .rne false (if s.e8 then e.mul (readE8 (argN a 1)) else e) with
    ival := fun _ => wideF
    kind := .typed .flt }

/-! ## Special functions and softmax (R158 to R161) -/

/-- EXP2. -/
def exp2Alu : Alu := monoF (wordFn exp2) [false] fun _ => false

/-- LOG2. -/
def log2Alu : Alu := monoF (wordFn log2) [false] fun rs => (argR rs 0).lo < -1

/-- TANH. -/
def tanhAlu : Alu := monoF (wordFn tanh) [false] fun _ => false

/-- The monotone piece of SIN (or COS when `c`) that begins at or below a fixed-point angle. -/
def trigPiece (c : Bool) (x : Int) : Int := if c then x / fxPi else (2 * x + fxPi) / (2 * fxPi)

/-- The angles `a` ≤ `b` lie in one monotone piece; the ends of a piece belong to it. -/
def onePiece (c : Bool) (a b : Int) : Bool := trigPiece c (b - 1) ≤ trigPiece c a

/-- SIN and COS (R158, R161). The ends moved 2^-21 outward are rounded outward, the lower by RD and the upper by RU (DESIGN CHOICE,
safe: R161 names no rounding for the move; log 63). -/
def trigAlu (c : Bool) : Alu :=
  let g := if c then cos else sin
  { point := wordFn g
    ival := fun xs =>
      let r := (argI xs 0).rng .flt
      let mn := r.mn || r.hasPosInf || r.hasNegInf
      let a := toFx (keyF r.lo)
      let b := toFx (keyF r.hi)
      if r.hasPosInf || r.hasNegInf || !onePiece c a b then
        { lo := 0xBF800000, hi := 0x3F800000, wide := false, mn }
      else
        let y := wordFn g [Order.flt.pat r.lo]
        let z := wordFn g [Order.flt.pat r.hi]
        let (y, z) := if f32Key y ≤ f32Key z then (y, z) else (z, y)
        let step : Exact := .fin false 1 (-21) false
        let lo := roundTo .f32 .rd false ((readValue .f32 y).add .rd step.negate)
        let hi := roundTo .f32 .ru false ((readValue .f32 z).add .ru step)
        { lo := Order.flt.pat (max (f32Key lo) (f32Key 0xBF800000)), hi := Order.flt.pat (min (f32Key hi) 0x3F800000),
          wide := false, mn }
    kind := .typed .flt }

/-- SMXI: the empty state. -/
def smxiAlu : Alu := { point := fun _ => 0x80000000, ival := fun _ => .pt 0x80000000, kind := .state }

/-- R160: SMXACC on a state pair and an input. -/
def smxacc (st x : Nat) : Nat :=
  let m := signedOf 32 st
  let s := readValue .f32 (st / 2 ^ 32)
  let mk (m : Int) (s : Nat) : Nat := wrapTo 32 m + 2 ^ 32 * s
  match expSplit (BitVec.ofNat 32 x) with
  | .nan => mk m (nanCode .f32)
  | .none => mk m (if s == .nan then nanCode .f32 else st / 2 ^ 32)
  | .some ip y =>
    let s1 := if ip > m then readValue .f32 (roundTo .f32 .rne false (s.scale (m - ip))) else s
    let m1 := max m ip
    let term := readValue .f32 (roundTo .f32 .rne false ((f32 y).scale (ip - m1)))
    mk m1 (roundTo .f32 .rne false (s1.add .rne term))

/-- R160: SMXNRM on a state pair and an input. -/
def smxnrm (un : Bool) (st x : Nat) : Nat :=
  let m := signedOf 32 st
  let s := readValue .f32 (st / 2 ^ 32)
  match expSplit (BitVec.ofNat 32 x) with
  | .nan => nanCode .f32
  | .none => if s == .nan then nanCode .f32 else 0
  | .some ip y =>
    if s == .nan then nanCode .f32
    else if un then roundTo .f32 .rne false ((f32 y).scale (ip - m))
    else if s.isZero then nanCode .f32
    else roundTo .f32 .rne false (((f32 y).div s).scale (ip - m))

/-- The ip of an end, when ExpSplit gives one; +infinity counts as the largest finite value (R161). -/
def endIp (k : Int) : Option Int :=
  match expSplit (BitVec.ofNat 32 (Order.flt.pat (min k (f32Key 0x7F7FFFFF)))) with
  | .some ip _ => some ip
  | _ => none

/-- SMXACC (R160, R161). -/
def smxaccAlu : Alu :=
  { point := fun a => smxacc (argN a 0) (argN a 1)
    ival := fun xs =>
      let m := (argI xs 0).halves.1.rng (.int 32 true)
      let s := (argI xs 0).halves.2.rng .flt
      let x := (argI xs 1).rng .flt
      let up (m : Int) (k : Int) : Int := match endIp k with
        | some ip => max m ip
        | none => m
      { lo := wrapTo 32 (up m.lo x.lo), hi := wrapTo 32 (up m.hi x.hi) + 2 ^ 32 * f32Inf false, wide := false,
        mn := xs.any (·.mn) || s.mn || x.mn || x.hasPosInf }
    kind := .state }

/-- SMXNRM (R160, R161). -/
def smxnrmAlu (f : RForm) : Alu :=
  let un := f.ent.getLsbD 0
  { point := fun a => smxnrm un (argN a 0) (argN a 1)
    ival := fun xs =>
      let s := (argI xs 0).halves.2.rng .flt
      let x := (argI xs 1).rng .flt
      { lo := 0, hi := f32Inf false, wide := false,
        mn := xs.any (·.mn) || s.mn || x.mn || x.hasPosInf || (!un && s.hasZeroF) }
    kind := .typed .flt }

end Sys2Proof
end

