-- ==== Sys2Proof/Machine/State.lean ====
section
/-!
DEFINITION. The state of one N4 module as plain data: everything the manual names, and three fields of the model's own (the
agenda, the issuing group and the counter of free values). `State.reset` is the module right after a cold reset.
-/

namespace Sys2Proof.Machine

/-- Why the machine stops. No step of the N4 that the manual describes ends here. -/
inductive Fault
  /-- Raised by an instruction meaning that is called while no group issues (`State.cur` names no resident group). Never reached
  from `step`. Safe: the model stops where no behaviour exists. -/
  | noIssuingGroup
  deriving DecidableEq, Repr

/-- Why a meaning is refused. -/
inductive Refusal
  /-- Raised only by an arm of `exec` whose instruction has no meaning yet. Safe. -/
  | notModelled (mnemonic : String)
  deriving DecidableEq, Repr

/-- A predicate value: false, true, or undecided in a bounds-pass lane (R245). -/
inductive Tri
  | no | yes | und
  deriving DecidableEq, Repr

/-- A bounds tile (R241, R314): depth, index in its round, origin and sides. -/
structure Tile where
  depth : Nat
  index : Nat
  x : Nat
  y : Nat
  sx : Nat
  sy : Nat
  deriving DecidableEq, Repr

/-- A back-edge entry of a bounds lane (R251). -/
structure BackEdge where
  pc : PC
  count : Nat
  regs : List Nat
  preds : List Nat
  deriving DecidableEq, Repr

/-- A pending fill of a bounds lane (R255). -/
structure Fill where
  base : DWord
  off : BitVec 16
  rs : Nat
  value : DWord
  size : Nat
  hint : Hint
  deriving DecidableEq, Repr

/-- One lane of a convoy. `regs` holds vn at key n and, in a bounds-pass column, the upper end of vn at key n + 64 (R244);
a key that is not listed reads 0. `preds` holds p0 to p6, an unlisted one being false. -/
structure Lane where
  pc : PC
  live : Bool
  split : Bool
  lnk : PC
  trpc : PC
  trap : Bool
  fault : BitVec 16
  regs : List (Nat × Word)
  preds : List (Nat × Tri)
  wide : BitVec 64
  mn : BitVec 64
  tile : Option Tile
  tx : Word
  ty : Word
  exLo : Word
  exHi : Word
  eyLo : Word
  eyHi : Word
  edges : List BackEdge
  fills : List Fill
  deriving DecidableEq, Repr

/-- An element of a read port's read-ahead (R74): its value, or the failure met when it was fetched. -/
inductive Fetched
  | value (w : Word)
  | bad (code : BitVec 16) (addr : DWord)
  deriving DecidableEq, Repr

/-- The binding of a queue port (R73 to R76, R314). `pos` is the stream index of the next element. -/
structure Port where
  base : DWord
  count : Word
  stride : BitVec 16
  ty : Fmt
  hint : Hint
  pos : Nat
  buf : List (Nat × Fetched)
  deriving DecidableEq, Repr

/-- A convoy's codebook for one slot (R206). `ready` is false while its CBLD has not completed. -/
structure Codebook where
  table : List (BitVec 16)
  ready : Bool
  deriving DecidableEq, Repr

/-- A summary attachment (R254, R314); the list of a convoy is in order of age, oldest first. -/
structure Attach where
  base : DWord
  n : Word
  ty : Fmt
  table : DWord
  deriving DecidableEq, Repr

/-- Work of the matrix engine as captured at issue (R196, R201, R204, R205). -/
inductive MxWork
  /-- MMA, or MMAT when `tri`: the word's fields, s(B) to s(E), and the codebook bound at posting. -/
  | mma (tri : Bool) (f : XForm) (b c d e : Word) (table : List (BitVec 16))
  | acz
  | acld (base stride : Nat)
  | acst (fmt base stride : Nat)
  /-- ACWR: element numbers 64 i + j with their captured values. -/
  | acwr (vals : List (Nat × Word))
  deriving DecidableEq, Repr

/-- What a descheduled convoy waits for (R26, R314). -/
inductive WaitKind
  /-- BARW, BARAW: offset of the object, the phase, the predicate written. -/
  | barrier (off ph : Nat) (dst : Option (BitVec 3))
  /-- WAITA: offset of the word, CMP, the value, the predicate written. -/
  | waita (off cmp : Nat) (value : Word) (dst : Option (BitVec 3))
  /-- QRD: the queue and the destination pair. -/
  | qrd (q : Nat) (a : Operand)
  /-- CALLO: the handle and the target. -/
  | callo (h : Nat) (target : PC)
  /-- Resumption on another core of the pair: the overlays awaited (R216). -/
  | resume (handles : List Nat)
  /-- Trap entry that waits for the handler's overlay (R231): each faulting lane's code, TRADDR, and the context and page of the image
  that the paging service is asked for. -/
  | trapEntry (codes : List (Nat × BitVec 16)) (addr : DWord) (page : Option (Nat × Nat))
  | waitc (l s c t : Nat)
  | nap
  /-- QWR, or EMIT when `emit`: the queue or route number and each lane's source address. -/
  | append (emit : Bool) (target : Word) (srcs : List (Nat × Nat)) (space : Space)
  /-- SIGN, or a convergence MMA with its work: the register. -/
  | sign (n : Nat) (work : Option MxWork)
  /-- FWCALL: service, block, destination, and the answer once the function core has run the service. -/
  | fwcall (svc : Nat) (block : Option DWord) (a : Operand) (answer : Option Word)
  /-- Stopped by a TRANSLATION fault: the context and the page number (R324). -/
  | replay (ctx page : Nat)
  deriving DecidableEq, Repr

/-- A wait record (R314): what is awaited, the waiting instruction's address, its group and active lanes, the absolute deadline,
and the code with which an awaited overlay load ended. -/
structure WaitRec where
  kind : WaitKind
  pc : PC
  group : List Nat
  active : List Nat
  deadline : Option Nat
  err : Option (BitVec 16)
  /-- The condition held after some write (R188), or the phase changed (R187). -/
  met : Bool
  /-- Since when the convoy could have become ready, as seen at the ends of cycles (R26). -/
  since : Option Nat
  deriving DecidableEq, Repr

/-- One convoy (R7, R93, R229, R314). -/
structure Convoy where
  lanes : List Lane
  sregs : List (Nat × Word)
  loads : Nat
  stores : Nat
  copies : Nat
  tileOps : Nat
  ctdev : Nat
  ctsys : Nat
  stack : List PC
  traddr : DWord
  ports : List (Nat × Port)
  books : List (Nat × Codebook)
  atts : List Attach
  wait : Option WaitRec
  /-- The wait taken up again once the overlays awaited at a resumption are resident (R216, R315). -/
  after : Option WaitRec
  liveCount : Nat
  perf : List (Nat × Word)
  quad : Nat
  /-- Wall time of the first issue on this quadrant (R79), once there was one. -/
  firstIssue : Option Nat
  ended : Bool
  /-- A HOSTORD 1 write was sent since the last FENCE.sys (R87). -/
  relaxedSent : Bool
  /-- Order stamp of the latest clause issued, for the longest-waiting rule (R25). -/
  lastClause : Nat
  /-- After a YIELD: the time it lapses (R223). -/
  yieldUntil : Option Nat
  /-- Faults delivered at the next clause boundary (R104, R199). -/
  boundary : List (BitVec 16 × DWord)
  /-- The program counter of a group whose FENCE waits (R88). -/
  fencing : Option PC
  /-- Scratchpad bytes of the object of the convoy's latest arrival, each before and after it, while a later access need not see the
  arrival (R97). -/
  arrived : List (Nat × Byte × Byte)
  deriving DecidableEq, Repr

/-- A convergence register (R198). -/
structure CvReg where
  signers : List Nat
  work : Option MxWork
  poster : Nat
  /-- Address of the poster's instruction and the program counters of the MMA signers. -/
  pcs : List (Nat × PC)
  deriving DecidableEq, Repr

/-- A message reserved by a column (R178, R179): queue object, message number, address, lane's convoy. -/
structure Held where
  q : Nat
  qid : Nat
  k : Nat
  addr : DWord
  deriving DecidableEq, Repr

/-- Residency tokens of a column (R214, R226). -/
structure Token where
  core : Nat
  handle : Nat
  n : Nat
  deriving DecidableEq, Repr

/-- Where a column stands (R234, R312, R314). -/
inductive ColPhase
  | running
  /-- Pre-emption was asked for; the convoys stop at their next clause boundary. -/
  | stopping
  /-- Its frame is written, and the writes complete at the time given. -/
  | saving (frame done : Nat)
  /-- Saved in this frame. -/
  | saved (frame : Nat)
  /-- Placed again, its data being read back from the frame; the quadrants on which its convoys ran before. -/
  | resuming (frame : Nat) (was : List Nat)
  deriving DecidableEq, Repr

/-- The batch of a column (R304, R353): queue object, first record number, number of records, the weight epoch captured at the
launch decision, and the address and size of a record (R11). -/
structure Batch where
  qid : Nat
  k0 : Nat
  n : Nat
  epoch : Nat
  addr : Nat
  msize : Nat
  deriving DecidableEq, Repr

/-- A checkpoint (R331): the convoys' states and convergence registers, and the scratchpad bytes of the column by offset. -/
structure Checkpoint where
  cvs : List Convoy
  cvregs : List (Nat × CvReg)
  spad : List Host.Cell
  deriving DecidableEq, Repr

/-- One column (R7, R9, R13). -/
structure Column where
  id : Nat
  part : Nat
  prog : Nat
  colid : Word
  task : Word
  bmode : Bool
  launch : Option Nat
  core : Nat
  /-- Physical banks (32 core + bank) in logical order (R69, R303). -/
  banks : List Nat
  cvs : List Convoy
  cvregs : List (Nat × CvReg)
  tokens : List Token
  held : List Held
  batch : Option Batch
  epoch : Nat
  phase : ColPhase
  killed : Bool
  /-- It is to be killed once its save has ended (R316). -/
  doomed : Bool
  /-- Banks or tiles of the saved column were written to its frame and given away. -/
  banksOut : Bool
  tilesOut : Bool
  /-- Wall time since which the column waits or runs (R310). -/
  since : Nat
  check : Checkpoint
  /-- An effect of R332 that forbids a rollback has happened since the checkpoint. -/
  noRollback : Bool
  /-- Undo-log entries since the checkpoint, as (quadrant, kind and number, bytes) (R331). -/
  undo : List (Nat × Nat × Nat)
  deriving DecidableEq, Repr

/-- Where a piece of an access lies (R55, R57). -/
inductive Loc
  | dev
  | spad
  | host (relaxed : Bool)
  | peer (link : Nat)
  deriving DecidableEq, Repr

/-- One piece of one lane's access (R66): `grp` is the event that performs it, `addr` the physical address or scratchpad byte,
`n` its bytes, `off` its place in the lane's value, `va` the address as the program sees it. -/
structure Piece where
  grp : Nat
  lane : Nat
  loc : Loc
  addr : Nat
  n : Nat
  off : Nat
  va : Nat
  deriving DecidableEq, Repr

/-- How loaded bytes become register values (R165 to R167, R250). -/
inductive LoadConv
  /-- Zero- or sign-extended bytes into 1, 2 or 4 registers. -/
  | plain (bytes : Nat) (signed : Bool)
  | widen (ty : Fmt)
  /-- LDB: element bytes, and whether a scale byte follows. -/
  | block (bytes : Nat) (scale : Bool)
  /-- Bounds load through summary tables, with the type of each lane's; `ldx` when the load is an LDX. -/
  | summary (tys : List (Nat × Fmt)) (ldx : Bool)
  deriving DecidableEq, Repr

/-- What a pending operation is (R93). -/
inductive OpKind
  | load (conv : LoadConv) (dst : Operand)
  | store
  /-- One element pushed to a write port, with its type; until the load that feeds it returns, it has no value. -/
  | push (port : Nat) (ty : Fmt) (feed : Option Nat)
  /-- An atomic of R170: its offset from opcode ATADD, its type, its bytes, the register written unless NR. -/
  | atomic (k : Nat) (ty : Fmt) (bytes : Nat) (dst : Option Operand)
  | plst
  | codebook (slot : Nat)
  /-- The zero-length read of FENCE.sys (R87). -/
  | zeroRead
  /-- A host write acknowledged and not yet performed at the host (R82). -/
  | posted
  /-- Messages appended and not yet published (R180). -/
  | append
  deriving DecidableEq, Repr

/-- A pending memory operation. `vals` holds, by lane, the bytes to store or the bytes loaded so far as a little-endian number;
`aux` by lane the operands of an atomic, by event the bit and value of a PLST merge, and by lane what a bounds load marks (0 plain, 1
undecided guards, 2 a uniform destination) with its number of summary entries. A lease of 0 marks an atomic that its clause waits
for (R173). -/
structure Op where
  id : Nat
  col : Nat
  cv : Nat
  quad : Nat
  pc : PC
  kind : OpKind
  hint : Hint
  lease : Nat
  lanes : List Nat
  pieces : List Piece
  vals : List (Nat × Nat)
  aux : List (Nat × Nat × Nat)
  /-- Latest completion time returned by the pieces performed so far (R80, R81). -/
  comp : Nat
  issued : Nat
  /-- Its place in the issue order: its own number, or for a host write on its way that of the operation that sent it (R82). -/
  seq : Nat
  /-- Latest acknowledgement of its host accesses so far (R80, R82). -/
  csys : Nat
  /-- It has been counted as recalled (R90, R236). -/
  recalled : Bool
  deriving DecidableEq, Repr

/-- An L1 copy of a 64-byte line (R61, R81). -/
structure L1Line where
  quad : Nat
  line : Nat
  /-- The partition and context that own the copy (R335). -/
  part : Nat
  ctx : Nat
  data : List Byte
  leaseEnd : Nat
  kept : Nat
  filled : Nat
  /-- It was fetched under the hint `.keep` (R108). -/
  keep : Bool
  /-- The sector was poisoned when it was copied (R330). -/
  poisoned : Bool
  deriving DecidableEq, Repr

/-- A holder of leases: a quadrant's L1, a core's copy engine or load engine, or its translation buffer (R78, R322). -/
inductive Holder
  | l1 (quad : Nat)
  | engine (core : Nat)
  | loads (core : Nat)
  | tlb (core : Nat)
  deriving DecidableEq, Repr

/-- A lease record of a 64-byte line (R78). -/
structure Lease where
  line : Nat
  holder : Holder
  ends : Nat
  deriving DecidableEq, Repr

/-- A kept translation (R321, R322): one page of a context. -/
structure TlbEntry where
  core : Nat
  /-- The quadrant whose buffer holds it; none for the core's own. -/
  quad : Option Nat
  part : Nat
  ctx : Nat
  /-- First virtual address of the page and its size code. -/
  va : Nat
  s : Nat
  leaf : DWord
  ends : Nat
  deriving DecidableEq, Repr

/-- Memory contents (R55). Every list is canonical: keys strictly rising, no entry equal to the default 0. -/
structure Store where
  dev : List Host.Cell
  host : List Host.Cell
  /-- Peer memory behind link l at key l * 2^52 + physical address. -/
  peer : List Host.Cell
  /-- Scratchpad byte o of bank b of core c at (32 c + b) * 32768 + o. -/
  spad : List Host.Cell
  /-- Instruction-store byte o of bay b of core c at (128 c + b) * 4096 + o. -/
  istore : List Host.Cell
  /-- The physical function's structures of R286 at their BAR0 offsets. -/
  pf : List Host.Cell
  /-- The private memory of the firmware complex's 49 cores, 192 MiB (R2, R328): no agent that the manual describes reaches it. Byte `o` lies
  in data sector `deviceSectors` + o / 64. -/
  fwmem : List Host.Cell
  /-- Element (i, j) of tile t of quadrant q at (16 q + t) * 4096 + 64 i + j. -/
  tiles : List (Nat × Word)
  /-- Checksum COUNT and last-correction word of quadrant q at 2 q and 2 q + 1 (R207). -/
  cksum : List (Nat × Word)
  deriving DecidableEq, Repr

/-- 64 bits under a SEC-DED code (R327), by number in their array. -/
inductive EccWord
  /-- Of device memory as L2 holds it: the physical address divided by 8. -/
  | l2 (n : Nat)
  /-- Of a scratchpad bank: two 4-byte words. -/
  | spad (n : Nat)
  /-- Of an accumulator store: two elements of a row of a tile. -/
  | acc (n : Nat)
  /-- Of a register file: one lane register of two lanes of a convoy. -/
  | reg (col cv pair n : Nat)
  deriving DecidableEq, Repr

/-- A stored error: a place that holds poison (R330), or 64 bits with a flipped bit, or two, that nothing has read yet (R327). -/
inductive PoisonAt
  /-- A 64-byte device sector by line number. -/
  | sector (line : Nat)
  /-- A 4-byte scratchpad word by word number. -/
  | word (n : Nat)
  /-- A lane register: column, convoy, lane, register. -/
  | reg (col cv lane n : Nat)
  /-- An accumulator word by its number in `Store.tiles`. -/
  | acc (n : Nat)
  | weak (w : EccWord)
  | broken (w : EccWord)
  deriving DecidableEq, Repr

/-- An error that strikes stored bits (R102, R327, R328). -/
inductive Upset
  /-- A bit of 64 under SEC-DED. -/
  | word (w : EccWord)
  /-- Bits of a sector stored in GDDR7: place `j` of a group below `gddrGroups`, 31 its CRC sector and 32 its parity sector. -/
  | sector (group j : Nat) (bits : BitVec 512)
  /-- A bit of a byte of an instruction store. -/
  | istore (addr bit : Nat)
  deriving DecidableEq, Repr

/-- Caches, leases, translations, ownership and stored errors. -/
structure Coherence where
  l1 : List L1Line
  leases : List Lease
  /-- Latest completion time by line (R81); an unlisted line has 0. -/
  kept : List (Nat × Nat)
  tlb : List TlbEntry
  poison : List PoisonAt
  /-- R328: the flipped bits of sectors stored in GDDR7: place j of group g at 33 g + j; an unlisted sector has none. -/
  flips : List (Nat × Nat)
  deriving DecidableEq, Repr

/-- A line of a copy: of its destination, to be owned before it is written (R90), or of its source, to be read (R91). `va` is the
virtual address or scratchpad offset at which it begins, `line` its physical number. -/
structure CopyLine where
  va : Nat
  loc : Loc
  line : Nat
  deriving DecidableEq, Repr

/-- Who appended a copy packet (R175, R311). -/
inductive CopyFrom
  /-- A convoy, through the queue of this core. -/
  | cv (core col cv : Nat)
  /-- The host or peer copy ring of a partition. -/
  | ring (peer : Bool)
  deriving DecidableEq, Repr

/-- A copy in the engine (R175, R176, R362). -/
structure CopyJob where
  id : Nat
  src : CopyFrom
  part : Nat
  prog : Nat
  ctx : Nat
  /-- The weight epoch that the issuing column captured (R353). -/
  epoch : Option Nat
  quad : Nat
  colid : Word
  route : Nat
  lease : Nat
  op : Nat
  flags : Nat
  fmt : Nat
  hint : Nat
  len : Nat
  rows : Nat
  srcAddr : DWord
  dstAddr : DWord
  sstride : Word
  dstride : Word
  cwoff : Nat
  cwval : Word
  task : Nat
  tmo : Nat
  issued : Nat
  /-- Scratchpad banks of the issuing column, in logical order. -/
  banks : List Nat
  /-- Destination lines not yet written, in recorded order. -/
  pend : List CopyLine
  /-- Source lines, and those of them not yet read. -/
  srcLines : List CopyLine
  toRead : List CopyLine
  /-- Source bytes read so far, by virtual address or scratchpad offset. -/
  got : List Host.Cell
  /-- The copy has begun (R176). -/
  begun : Bool
  /-- Shards accepted (R362); `shards` is their number, 0 for a copy without a peer side; `fromPeer` when its source is a peer's. -/
  shards : Nat
  fromPeer : Bool
  accepted : List Nat
  deriving DecidableEq, Repr

/-- One chunk of operands read in one pass (R191, R193): element codes, row-major, and scale bytes. -/
structure MxChunk where
  a : List Nat
  b : List Nat
  xa : List Nat
  xb : List Nat
  deriving DecidableEq, Repr

/-- An entry of a reservation table (R196). -/
structure MxEntry where
  id : Nat
  quad : Nat
  col : Nat
  cv : Nat
  signers : List (Nat × PC)
  tile : Nat
  urg : Nat
  work : MxWork
  /-- Passes or steps still to grant, and the chunks read so far, first chunk first. -/
  left : Nat
  chunks : List MxChunk
  /-- The end of the latest pass or step; before the first, the time of posting. -/
  busy : Nat
  /-- Its next read has been counted as recalled (R90, R236). -/
  recalled : Bool
  deriving DecidableEq, Repr

/-- A requester that an overlay load must answer (R224). -/
structure OvlWaiter where
  col : Nat
  cv : Nat
  /-- Scratchpad offset of the completion word. -/
  word : Option Nat
  deriving DecidableEq, Repr

/-- Residency states (R212). -/
inductive ResSt
  | absent | loading | resident | draining
  deriving DecidableEq, Repr

/-- A residency record of one overlay of one partition on one core (R212). -/
structure Residency where
  core : Nat
  part : Nat
  prog : Nat
  handle : Nat
  st : ResSt
  gen : BitVec 4
  bays : List Nat
  evpend : Bool
  lastUse : Nat
  waiters : List OvlWaiter
  /-- The dispatcher waits for the load, to place a column whose ENTRY lies in the overlay (R216, R217). -/
  entry : Bool
  /-- The partition joined a copy that another partition loads (R218). -/
  joined : Bool
  deriving DecidableEq, Repr

/-- Engines of the module. -/
structure Engines where
  jobs : List CopyJob
  mx : List MxEntry
  res : List Residency
  deriving DecidableEq, Repr

/-- A bounds launch (R240 to R253). -/
structure Launch where
  id : Nat
  part : Nat
  prog : Nat
  task : Word
  arg : DWord
  batch : Option Batch
  msize : Nat
  epoch : Nat
  /-- Tiles of the current round and how many of its columns were launched. -/
  tiles : List Tile
  launched : Nat
  /-- Quarters made for the next round, by parent index. -/
  quarters : List (Nat × Tile)
  /-- Deferred regions by round and index. -/
  deferred : List (Nat × Nat × Tile)
  round : Nat
  /-- The element pass has begun, and how many of its columns were launched. -/
  element : Bool
  killed : Bool
  /-- When the launch began. -/
  since : Nat
  deriving DecidableEq, Repr

/-- A PARTITION object (R291). -/
structure Partition where
  pnum : Nat
  world : Nat
  prot : Bool
  membase : Nat
  memsize : Nat
  dsrpa : Nat
  msrpa : Nat
  mslen : Nat
  qmap : BitVec 1280
  deriving DecidableEq, Repr

/-- A CONTEXT object (R291, R336, R353). -/
structure Context where
  part : Nat
  slot : Nat
  ptroot : Nat
  prot : Bool
  keyref : Nat
  /-- The context key in the controller's key slots, its 64 bytes as a number (R336). -/
  key : Option Nat
  epoch : Nat
  deriving DecidableEq, Repr

/-- A MAPPING object (R291). -/
structure Mapping where
  part : Nat
  slot : Nat
  ctx : Nat
  va : Nat
  size : Nat
  back : Nat
  psize : Nat
  attr : Nat
  deriving DecidableEq, Repr

/-- One generation of a WEIGHTSET (R350 to R353): the epoch at which it converged and its backing, page by page. -/
structure WsGen where
  epoch : Nat
  /-- Where it appears, and how many bytes it covers there (R350, R353). -/
  va : Nat
  span : Nat
  pages : List (Nat × Nat)
  evicted : Bool
  deriving DecidableEq, Repr

/-- A page whose leaves the Surveyor or a function core wrote (R324), a page table it made, or a page of a weight set's backing:
the partition, the context, the virtual base, the physical base and the size code; `own` marks a page taken from the partition's
memory, `slot` is the record it belongs to. A page whose leaf was made invalid is `gone` until that store completes; one that is not
the partition's own to give away stays, with its CONTEXT's record as `slot`, as the tag of its granule (R336). -/
structure Page where
  part : Nat
  ctx : Nat
  slot : Nat
  va : Nat
  pa : Nat
  s : Nat
  own : Bool
  /-- The page lies in device memory. -/
  dev : Bool
  gone : Bool
  deriving DecidableEq, Repr

/-- A 2 MiB granule of device memory tagged with the key of a protected context (R336); any other has its world's key. -/
structure Granule where
  n : Nat
  part : Nat
  ctx : Nat
  deriving DecidableEq, Repr

/-- A WEIGHTSET object (R291, R350 to R353). -/
structure WeightSet where
  part : Nat
  slot : Nat
  ctx : Nat
  sub : Nat
  evictable : Bool
  pubkey : Nat
  baserec : Nat
  src : Nat
  wsize : Nat
  va : Nat
  /-- Bytes that the set covers from VA on: for a DELTA those of its base (R351). -/
  span : Nat
  digest : Nat
  sig : List Byte
  gens : List WsGen
  lastUse : Nat
  deriving DecidableEq, Repr

/-- An entry of a route's overlay directory (R211) with the registered digest. -/
structure DirEntry where
  handle : Nat
  image : Nat
  auto : Bool
  share : Bool
  nbm1 : Nat
  digest : Nat
  deriving DecidableEq, Repr

/-- A converged PROGRAM: a route (R10, R30, R44, R291, R292). -/
structure Route where
  part : Nat
  slot : Nat
  num : Nat
  ctx : Nat
  acct : Nat
  /-- Launch record words W0 to W5. -/
  words : List DWord
  /-- Format slots, words 0 and 1 of each. -/
  slots : List (DWord × DWord)
  dir : List DirEntry
  holdsAcc : Bool
  nextCol : Nat
  /-- The ENTRY overlay's image is unusable (R217). -/
  unusable : Bool
  /-- Some launch stays pending for want of a bay and NO_BAY was written (R217). -/
  noBay : Bool
  /-- The batch of a launch that was decided and not yet placed: its records stay reserved (R217, R304). -/
  waiting : Option Batch
  /-- A coalescing timeout has passed (R304). -/
  due : Bool
  /-- No new column: a version was accepted (R298). -/
  stopped : Bool
  deadline : Option Nat
  killedCols : Nat
  deriving DecidableEq, Repr

/-- A message of a queue (R178, R180): number, the time at which it is published, reservation. Until that time it fills its slot. -/
structure Msg where
  k : Nat
  /-- `Msg.never` while it waits for room (R297). -/
  at_ : Nat
  reserved : Bool
  /-- The first message of its append. -/
  app : Nat
  /-- When no copy of the slots' old bytes is left, nor of those of the appends before it (R99). -/
  ready : Nat
  deriving DecidableEq, Repr

/-- A QUEUE object (R291, R297). -/
structure Queue where
  id : Nat
  part : Nat
  slot : Nat
  ctx : Nat
  qnum : Nat
  msize : Nat
  cap : Nat
  leneff : Nat
  ring : Nat
  isOpen : Bool
  next : Nat
  msgs : List Msg
  deriving DecidableEq, Repr

/-- An ACCOUNT bucket (R308). -/
structure Account where
  part : Nat
  acct : Nat
  slot : Nat
  rate : Nat
  depth : Nat
  level : Int
  deriving DecidableEq, Repr

/-- An ARMED task entry (R305); a task without an entry is FREE. -/
structure Task where
  part : Nat
  task : Nat
  prog : Nat
  counter : Nat
  arg : DWord
  /-- Since when the task is ready. -/
  since : Nat
  deriving DecidableEq, Repr

/-- Objects made by converged records. -/
structure Objects where
  parts : List Partition
  ctxs : List Context
  maps : List Mapping
  pages : List Page
  granules : List Granule
  wsets : List WeightSet
  routes : List Route
  queues : List Queue
  accts : List Account
  tasks : List Task
  deriving DecidableEq, Repr

/-- Record states of R295. -/
inductive RecSt
  | idle | applying | draining | converged | failed
  deriving DecidableEq, Repr

/-- A version of a record as a snapshot took it (R287, R290). -/
structure Version where
  ver : Nat
  kind : Nat
  pres : Nat
  flags : Nat
  writer : Nat
  base : Nat
  body : List Byte
  deriving DecidableEq, Repr

/-- The Surveyor's state of one record (R295, R299). `fn` is 0 for the physical function and n + 1 for partition n. -/
structure Rec where
  fn : Nat
  slot : Nat
  /-- Of the accepted version (R299). -/
  kind : Nat
  st : RecSt
  present : Bool
  frozen : Bool
  closed : Bool
  blocked : Bool
  writer : Nat
  accepted : Nat
  converged : Nat
  tchg : Nat
  outcome : Nat
  discard : Nat
  /-- The version whose step is in flight or came last, and the version in effect. -/
  acc : Option Version
  eff : Option Version
  /-- Accepted versions whose step has not started, oldest first, each with whether it was malformed when accepted (R288). -/
  waiting : List (Version × Bool)
  /-- Versions judged so far. -/
  judged : List Nat
  /-- Per-kind bytes of the AST entry (R299). -/
  kindBytes : List Byte
  /-- The failure was NO_RESOURCE, to be tried again (R294). -/
  retry : Bool
  /-- The entry stores of the step in flight have been made and complete at this time (R322). -/
  due : Option Nat
  deriving DecidableEq, Repr

/-- An unanswered paging request (R324): its fault-queue entry number and the page; once the leaf is written, the time at which its
stores complete. -/
structure PageReq where
  part : Nat
  ctx : Nat
  page : Nat
  entry : Nat
  ready : Option Nat
  deriving DecidableEq, Repr

/-- A mailbox (R358). Requests and responses are bytes; `area` is the request area the host writes. -/
structure Mailbox where
  fn : Nat
  ovr : Bool
  done : Bool
  busy : Bool
  area : List Host.Cell
  req : List Byte
  resp : List Byte
  /-- The place of the request in the order of arrival (R347, R358). -/
  stamp : Nat
  deriving DecidableEq, Repr

/-- Service levels (R363). -/
inductive Svc
  | rom | reduced | full
  deriving DecidableEq, Repr

/-- SPDM responder states (R343). -/
inductive SpdmSt
  | initial | versioned | capable | negotiated
  deriving DecidableEq, Repr

/-- A GDDR7 channel (R365): attempts made, trained. -/
structure Channel where
  n : Nat
  tries : Nat
  trained : Bool
  deriving DecidableEq, Repr

/-- A causeway (R360, R361): up, and the wall time of its last acknowledgement. -/
structure Link where
  n : Nat
  up : Bool
  lastAck : Nat
  retryAt : Nat
  deriving DecidableEq, Repr

/-- A black-box event (R334). -/
structure BbEvent where
  wall : Nat
  seq : Nat
  event : Nat
  part : Nat
  unit_ : Nat
  addr : Nat
  detail : Nat
  deriving DecidableEq, Repr

/-- Usage counters of one account (R344), indices 0 to 7. -/
structure Usage where
  part : Nat
  acct : Nat
  vals : List (Nat × Nat)
  deriving DecidableEq, Repr

/-- A partition's report chain (R344, R346). -/
structure Chain where
  part : Nat
  seq : Nat
  tfrom : Nat
  prev : List Byte
  wresets : Nat
  deriving DecidableEq, Repr

/-- A denied counter read that may still merge (R345): slot, entry number, time. -/
structure Denied where
  part : Nat
  slotOff : Nat
  entry : Nat
  at_ : Nat
  deriving DecidableEq, Repr

/-- Migration state of a partition (R349). -/
structure Migration where
  part : Nat
  /-- At a destination, the ephemeral private keys, newest first. -/
  ephemeral : List Nat
  /-- At a source, the context whose key was erased and its envelope, until a result arrives. -/
  wrapped : Option (Nat × List Byte)
  /-- At a destination, the signed confirmation or failure that it sends (step 7). -/
  message : List Byte
  deriving DecidableEq, Repr

/-- The transcripts that SPDM 1.2 defines (R342): the exchange of version, capabilities and algorithms, which the other two begin with;
the certificates and challenges; the measurements. -/
structure Transcripts where
  vca : ShaRun
  m1 : ShaRun
  l1 : ShaRun
  deriving DecidableEq, Repr

/-- What the dispatcher makes room for (R28, R310): the next launch of a route, or a pre-empted column. -/
inductive Who
  | launch (prog : Nat)
  | column (id : Nat)
  deriving DecidableEq, Repr

/-- Room made on a core by pre-emption and not yet taken; `slice` is false where R28 made it. -/
structure Room where
  part : Nat
  core : Nat
  who : Who
  slice : Bool
  deriving DecidableEq, Repr

/-- An entry written to a ring whose PROD still waits for the entry's completion time (R300): the partition, or 0xFF, whether the ring
lies in the root core's SRAM, its header, and the time. -/
structure Post where
  part : Nat
  pf : Bool
  base : Nat
  at_ : Nat
  deriving DecidableEq, Repr

/-- Firmware, boot and host-interface state (Book Two). -/
structure Firmware where
  svc : Svc
  carve : DWord
  booterr : Nat
  channels : List Channel
  chfail : BitVec 32
  links : List Link
  slice : Nat
  lastSlice : List (Nat × Nat)
  /-- The latest time at which the accounts were refilled, and the quadrants charged in this cycle (R308). -/
  refilled : Nat
  charged : List Nat
  rooms : List Room
  pubkeys : List (Nat × List Byte)
  meas : List (Nat × List Byte)
  spdm : SpdmSt
  transcripts : Transcripts
  bbox : List BbEvent
  bbSeq : Nat
  boxes : List Mailbox
  usage : List Usage
  chains : List Chain
  allow : List (Nat × BitVec 512)
  denied : List Denied
  migs : List Migration
  /-- Virtual functions whose AtomicOp Requester Enable is 1, by partition (R359). -/
  atomicEn : List Nat
  /-- MSI-X messages sent since the reset, oldest first: function and vector (R355, R358, R361). -/
  msix : List (Nat × Nat)
  /-- Ring entries written whose PROD is not yet written, oldest first (R300). -/
  posts : List Post
  /-- The keys of the worlds, 64 bytes each as a number (R336). -/
  worldKeys : List (Nat × Nat)
  /-- Where the root core was started in device memory, while it runs (R339, R341). -/
  rootEntry : Option Nat
  deriving DecidableEq, Repr

/-- A running clause and the port it holds (R21, R22): the convoy, the program counter its group stands at, the wall time at which
it began and the instructions it has issued. -/
structure PortHold where
  quad : Nat
  col : Nat
  cv : Nat
  pc : PC
  start : Nat
  len : Nat
  deriving DecidableEq, Repr

/-- The second candidate of a cycle: its convoy, whether it is that convoy's second group, its program counter and lanes, and its running
clause. -/
structure Mate where
  col : Nat
  cv : Nat
  second : Bool
  pc : PC
  lanes : List Nat
  hold : Option PortHold
  deriving DecidableEq, Repr

/-- A candidate that issued, or stalled, in the current cycle (R19, R20). -/
structure Issued where
  quad : Nat
  col : Nat
  cv : Nat
  /-- The route that is charged for the cycle (R308). -/
  part : Nat
  prog : Nat
  stalled : Bool
  pairOk : Bool
  /-- Resources of R20 it needs, by number; uniform registers it reads and writes. -/
  needs : List Nat
  uses : List Nat
  sets : List Nat
  /-- The cycle's second candidate. -/
  mate : Option Mate
  deriving DecidableEq, Repr

/-- Which group issues: the column, the convoy, and whether it is the convoy's second group (R17). Both candidates of a cycle are chosen
before either issues: `mate` is the second one where this is the first, `plan` the group itself where it is the second. -/
structure Cur where
  col : Nat
  cv : Nat
  second : Bool
  mate : Option Mate
  plan : Option Mate
  deriving DecidableEq, Repr

/-- A fault raised in a cycle in which another group of the column issues too; it is delivered when the cycle ends (R121, R231). -/
structure Raised where
  col : Nat
  cv : Nat
  pc : PC
  lanes : List Nat
  code : BitVec 16
  addr : DWord
  access : Nat
  deriving DecidableEq, Repr

/-- One entry of the agenda: what happens next. -/
inductive Act
  /-- Quadrant `quad` issues on port `port`. -/
  | issue (quad port : Nat)
  /-- The cycle ends: the wall clock advances by one. -/
  | tick
  /-- A device step of the opcode table. -/
  | event (i : Instr)
  /-- The host reads `len` bytes of a function's BAR0 (R356). -/
  | read (fn off len : Nat)
  /-- Stored bits flip (R327, R328). -/
  | upset (u : Upset)
  deriving DecidableEq, Repr

/-- The state of the module. -/
structure State where
  wall : DWord
  /-- The model's own: what happens next; when empty, `step` takes a fixed allowed schedule. -/
  agenda : List Act
  /-- The model's own: the group whose instruction is being issued. -/
  cur : Option Cur
  /-- The model's own: the number of free values taken so far. -/
  fresh : Nat
  /-- The model's own: the next identifier. -/
  nextId : Nat
  store : Store
  coh : Coherence
  ops : List Op
  eng : Engines
  cols : List Column
  launches : List Launch
  obj : Objects
  recs : List Rec
  paging : List PageReq
  /-- FWCALLs in order of arrival: partition, column, convoy (R237). -/
  calls : List (Nat × Nat × Nat)
  fw : Firmware
  holds : List PortHold
  issued : List Issued
  raised : List Raised
  /-- Answer of the latest host read, AtomicOp, SPDM request or peer request: the bytes sent. -/
  reply : List Byte
  deriving DecidableEq, Repr

/-- Empty memories: every byte and word reads 0 (log 3). -/
def Store.reset : Store :=
  { dev := [], host := [], peer := [], spad := [], istore := [], pf := [], fwmem := [], tiles := [], cksum := [] }

/-- Transcripts of no message. -/
def Transcripts.empty : Transcripts := ⟨ShaRun.start, ShaRun.start, ShaRun.start⟩

/-- Firmware after cold reset: the ROM, an unlocked carve-out register, SLICE 100,000, no event (R310, R334, R340, R363). -/
def Firmware.reset : Firmware :=
  { svc := .rom, carve := 0, booterr := 0, channels := [], chfail := 0, links := [], slice := 100000, lastSlice := [], refilled := 0, charged := [], rooms := [],
    pubkeys := [], meas := [], spdm := .initial, transcripts := Transcripts.empty, bbox := [], bbSeq := 0, boxes := [],
    usage := [], chains := [], allow := [], denied := [], migs := [], atomicEn := [], msix := [], posts := [], worldKeys := [], rootEntry := none }

/-- The module right after a cold reset (R363): the ROM runs, no partition exists, nothing is resident. -/
def State.reset : State :=
  { wall := 0, agenda := [], cur := none, fresh := 0, nextId := 0, store := Store.reset,
    coh := { l1 := [], leases := [], kept := [], tlb := [], poison := [], flips := [] }, ops := [],
    eng := { jobs := [], mx := [], res := [] }, cols := [], launches := [],
    obj := { parts := [], ctxs := [], maps := [], pages := [], granules := [], wsets := [], routes := [], queues := [], accts := [], tasks := [] },
    recs := [], paging := [], calls := [], fw := Firmware.reset, holds := [], issued := [], raised := [], reply := [] }

end Sys2Proof.Machine
end

