-- ==== Sys2Proof/Machine/Flags.lean ====
section
/-!
DEFINITION. Predicate values: the conditions of ICMP and FCMP (R135, R150), their three-valued forms in a bounds pass (R137,
R161, R246), and three-valued logic (R137, R144). The N4 has no other flags (R37).
-/

namespace Sys2Proof.Machine

/-- A decided value. -/
def Tri.of (b : Bool) : Tri := if b then .yes else .no

/-- R137: false when either is false, true when both are true. -/
def Tri.and : Tri → Tri → Tri
  | .no, _ | _, .no => .no
  | .yes, .yes => .yes
  | _, _ => .und

/-- R137: PNOT. -/
def Tri.not : Tri → Tri
  | .no => .yes
  | .yes => .no
  | .und => .und

/-- R137: the dual of `and`. -/
def Tri.or (x y : Tri) : Tri := (x.not.and y.not).not

/-- R137: undecided if either source is. -/
def Tri.xor : Tri → Tri → Tri
  | .und, _ | _, .und => .und
  | x, y => .of (x != y)

/-- R248: a predicate written under undecided guards. -/
def Tri.merge (old new : Tri) : Tri := if old = new then old else .und

/-- R135: the conditions of ICMP on exact values. -/
def icond (sub : Nat) (x y : Int) : Bool :=
  match sub with
  | 0 => x == y
  | 1 => x != y
  | 2 => x < y
  | 3 => x ≤ y
  | 4 => x > y
  | _ => x ≥ y

/-- R137: a condition on two ranges: decided true, decided false or undecided. -/
def rcond (sub : Nat) (x y : Rng) : Tri :=
  let lt (a b : Rng) : Tri := if a.hi < b.lo then .yes else if a.lo ≥ b.hi then .no else .und
  let eq : Tri :=
    if x.lo = x.hi ∧ y.lo = y.hi ∧ x.lo = y.lo then .yes else if x.hi < y.lo ∨ y.hi < x.lo then .no else .und
  match sub with
  | 0 => eq
  | 1 => eq.not
  | 2 => lt x y
  | 3 => (lt y x).not
  | 4 => lt y x
  | _ => (lt x y).not

/-- ICMP on intervals read under a type; a source with MN set gives undecided (R246). -/
def icmp (sub : Nat) (o : Order) (x y : IVal) : Tri :=
  if x.mn || y.mn then .und
  else if x.isPoint && y.isPoint then .of (icond sub (o.key x.lo) (o.key y.lo))
  else rcond sub (x.rng o) (y.rng o)

/-- R150: the conditions of FCMP on f32 encodings. -/
def fcond (sub : Nat) (x y : Nat) : Bool :=
  let a := readValue .f32 x
  let b := readValue .f32 y
  let un := a == .nan || b == .nan
  let le := !un && (a.le b || a.eqv b)
  let ge := !un && (b.le a || a.eqv b)
  match sub with
  | 0 => a.eqv b
  | 1 => !a.eqv b
  | 2 => le && !ge
  | 3 => le
  | 4 => ge && !le
  | 5 => ge
  | 6 => un
  | _ => !un

/-- A range of f32 keys with -0 taken as +0, as FCMP compares (R150). -/
def Rng.zeros (r : Rng) : Rng :=
  { r with lo := if r.lo = -1 then 0 else r.lo, hi := if r.hi = -1 then 0 else r.hi }

/-- FCMP on intervals: a source with MN set gives undecided (R161, R246). -/
def fcmp (sub : Nat) (x y : IVal) : Tri :=
  let a := x.rng .flt
  let b := y.rng .flt
  let pts := x.isPoint && y.isPoint
  if x.mn || y.mn || (!pts && (a.mn || b.mn)) then .und
  else if pts then .of (fcond sub x.lo y.lo)
  else if sub = 6 then .no
  else if sub ≥ 7 then .yes
  else rcond sub (Rng.zeros a) (Rng.zeros b)

/-- PSET (R136, R137): true when the value excludes 0, false when it is the point 0, undecided with MN set (R246). The interval of a
register of TYPE 0 is read as natural numbers (DESIGN CHOICE; log 63). -/
def pset (x : IVal) : Tri :=
  if x.mn then .und
  else if x.isPoint then .of (x.lo != 0) else if (x.rng (.int 32 false)).lo > 0 then .yes else .und

end Sys2Proof.Machine
end

