-- ==== Sys2Proof/Machine/Mem.lean ====
section
/-!
DEFINITION. Memories as canonical lists, byte and number access, scratchpad addressing (R69), leases and store completion (R78 to
R81), page tables and translation (R317 to R322), the carve-out (R340), and the rings that hardware writes (R300, R323, R334).
-/

namespace Sys2Proof.Machine

/-! ## Canonical maps -/

/-- The value at a key; an unlisted key has the default `d`. -/
def lookupD {α : Type} (d : α) : List (Nat × α) → Nat → α
  | [], _ => d
  | (k, v) :: m, a => if a = k then v else lookupD d m a

/-- The map with one key set; setting the default removes the entry. -/
def insertD {α : Type} [DecidableEq α] (d : α) : List (Nat × α) → Nat → α → List (Nat × α)
  | [], a, x => if x = d then [] else [(a, x)]
  | (k, v) :: m, a, x =>
    if a < k then if x = d then (k, v) :: m else (a, x) :: (k, v) :: m
    else if a = k then if x = d then m else (a, x) :: m
    else (k, v) :: insertD d m a x

/-- Every key is above `b`, keys rise strictly, and no entry equals the default. -/
def above {α : Type} [DecidableEq α] (d : α) : Option Nat → List (Nat × α) → Bool
  | _, [] => true
  | b, (k, v) :: m => (match b with | none => true | some n => decide (n < k)) && v != d && above d (some k) m

/-- The canonical form: keys strictly rising, no entry equal to the default. -/
def canonical {α : Type} [DecidableEq α] (d : α) (m : List (Nat × α)) : Bool := above d none m

/-- A byte memory; unlisted bytes read 0 (log 3). -/
abbrev Memory := List Host.Cell

/-- The canonical form of a memory. -/
def Memory.wf (m : Memory) : Bool := canonical (0 : Byte) m

/-- Reading one byte. -/
def Memory.read (m : Memory) (a : Nat) : Byte := lookupD 0 m a

/-- Writing one byte. -/
def Memory.write (m : Memory) (a : Nat) (b : Byte) : Memory := insertD 0 m a b

/-- `n` bytes from `a` on. -/
def Memory.bytes (m : Memory) (a : Nat) : Nat → List Byte
  | 0 => []
  | n + 1 => m.read a :: Memory.bytes m (a + 1) n

/-- Writing bytes from `a` on. -/
def Memory.writeBytes (m : Memory) (a : Nat) : List Byte → Memory
  | [] => m
  | b :: bs => Memory.writeBytes (m.write a b) (a + 1) bs

/-- The little-endian number in `n` bytes (R3). -/
def Memory.num (m : Memory) (a n : Nat) : Nat := numberOf (m.bytes a n)

/-- Writing a number little-endian in `n` bytes (R3). -/
def Memory.writeNum (m : Memory) (a n x : Nat) : Memory := m.writeBytes a (bytesOf n x)

/-! ## Lists of records -/

/-- The records with one changed where `p` holds. -/
def updateWhere {α : Type} (p : α → Bool) (f : α → α) (xs : List α) : List α := xs.map fun x => if p x then f x else x

/-- The list with element `k` changed. -/
def updateAt {α : Type} (k : Nat) (f : α → α) (xs : List α) : List α := xs.mapIdx fun i x => if i = k then f x else x

/-- The first record where `p` holds is replaced by `x`; without one, `x` is appended. -/
def upsert {α : Type} (p : α → Bool) (x : α) (xs : List α) : List α := if xs.any p then updateWhere p (fun _ => x) xs else xs ++ [x]

/-! ## Objects -/

/-- A column by its identifier. -/
def State.column? (s : State) (id : Nat) : Option Column := s.cols.find? (·.id == id)

/-- One column changed. -/
def State.onColumn (s : State) (id : Nat) (f : Column → Column) : State := { s with cols := updateWhere (·.id == id) f s.cols }

/-- A convoy by column and number. -/
def State.convoy? (s : State) (col cv : Nat) : Option Convoy := (s.column? col).bind fun c => c.cvs[cv]?

/-- One convoy changed. -/
def State.onConvoy (s : State) (col cv : Nat) (f : Convoy → Convoy) : State :=
  s.onColumn col fun c => { c with cvs := updateAt cv f c.cvs }

/-- A partition by number. -/
def State.part? (s : State) (p : Nat) : Option Partition := s.obj.parts.find? (·.pnum == p)

/-- A route by partition and PROGRAM record. -/
def State.route? (s : State) (part prog : Nat) : Option Route := s.obj.routes.find? fun r => r.part == part && r.slot == prog

/-- A context by partition and record. -/
def State.ctx? (s : State) (part ctx : Nat) : Option Context := s.obj.ctxs.find? fun c => c.part == part && c.slot == ctx

/-- Wall time as a number. -/
def State.now (s : State) : Nat := s.wall.toNat

/-- A free value (log 4). -/
def State.free (s : State) : Nat × State := (Config.freeNat s.fresh, { s with fresh := s.fresh + 1 })

/-! ## Scratchpad (R69, R303) -/

/-- The physical scratchpad byte of a column's offset; none outside the allocation. -/
def spadByte (banks : List Nat) (off : Nat) : Option Nat := (banks[off / 32768]?).map fun b => b * 32768 + off % 32768

/-- Bytes of a column's allocation. -/
def spadSize (banks : List Nat) : Nat := 32768 * banks.length

/-- Reading scratchpad bytes by offset; bytes outside the allocation read 0 (callers probe first). -/
def State.spadBytes (s : State) (banks : List Nat) (off n : Nat) : List Byte :=
  (List.range n).map fun i => match spadByte banks (off + i) with
    | some a => Memory.read s.store.spad a
    | none => 0

/-- A number in scratchpad. -/
def State.spadNum (s : State) (banks : List Nat) (off n : Nat) : Nat := numberOf (s.spadBytes banks off n)

/-- Scratchpad bytes written; bytes outside the allocation are dropped (callers probe first). -/
def spadStore (banks : List Nat) (m : Memory) (off : Nat) : List Byte → Memory
  | [] => m
  | b :: bs =>
    let m' := match spadByte banks off with
      | some a => Memory.write m a b
      | none => m
    spadStore banks m' (off + 1) bs

/-- R330: a stored error of a scratchpad word, or of 64 bits of scratchpad, all of whose words are written. -/
def PoisonAt.inWords (words : List Nat) : PoisonAt → Bool
  | .word w => words.contains w
  | .weak (.spad k) | .broken (.spad k) => words.contains (2 * k) && words.contains (2 * k + 1)
  | _ => false

/-- Scratchpad bytes written; stored errors of wholly written words clear (R330). -/
def State.spadWrite (s : State) (banks : List Nat) (off : Nat) (bs : List Byte) : State :=
  let words := ((List.range bs.length).filter fun i => i + 3 < bs.length && (off + i) % 4 == 0).filterMap fun i =>
    (spadByte banks (off + i)).map (· / 4)
  { s with store := { s.store with spad := spadStore banks s.store.spad off bs },
           coh := { s.coh with poison := s.coh.poison.filter (!·.inWords words) } }

/-- A number written to scratchpad. -/
def State.spadWriteNum (s : State) (banks : List Nat) (off n x : Nat) : State := s.spadWrite banks off (bytesOf n x)

/-! ## Home slices (R59) -/

/-- R59: the home slice of a device byte, 0 to 767: the XOR of the six bytes of its 256-byte line's number, in the third that bits 43:8 of
that number name. -/
def homeOf (pa : Nat) : Nat :=
  let x := bitsOf pa 8 44
  256 * (bitsOf x 8 36 % 3) + (bitsOf x 0 8 ^^^ bitsOf x 8 8 ^^^ bitsOf x 16 8 ^^^ bitsOf x 24 8 ^^^ bitsOf x 32 8 ^^^ bitsOf x 40 4)

/-! ## Leases and completion (R78 to R81) -/

/-- The 64-byte line of a physical address (R78). -/
def lineOf (pa : Nat) : Nat := pa / 64

/-- R6: the lease end of a holder on a line, or 0. -/
def State.leaseEnd (s : State) (line : Nat) (h : Holder) : Nat :=
  ((s.coh.leases.find? fun l => l.line == line && l.holder == h).map (·.ends)).getD 0

/-- R81: the latest completion time kept for a line. -/
def State.keptTime (s : State) (line : Nat) : Nat := lookupD 0 s.coh.kept line

/-- R78: a lease record for a holder, unless the directory of the 256-byte line holds 16 live records of others. -/
def State.grant (s : State) (line : Nat) (h : Holder) (ends : Nat) : Option State :=
  let live := s.coh.leases.filter fun l => s.now < l.ends
  let others := live.filter fun l => l.line / 4 == line / 4 && !(l.line == line && l.holder == h)
  if others.length ≥ 16 then none
  else
    some { s with coh := { s.coh with
      leases := (live.filter fun l => !(l.line == line && l.holder == h)) ++ [{ line, holder := h, ends }] } }

/-- The lines that `n` bytes at `pa` touch. -/
def linesOf (pa n : Nat) : List Nat := (List.range ((pa + n + 63) / 64 - pa / 64)).map (· + pa / 64)

/-- R80: the completion time of a store that arrives now, by a quadrant's L1 (or another agent). -/
def State.completion (s : State) (own : Option Nat) (pa n : Nat) : Nat :=
  (s.coh.leases.filter fun l => (linesOf pa n).contains l.line && some l.holder != own.map Holder.l1).foldl
    (fun t l => max t l.ends) s.now

/-- R330: a stored error of a device sector, or of 64 bits of one, all of whose bytes are written. -/
def PoisonAt.inBytes (pa n : Nat) : PoisonAt → Bool
  | .sector l => decide (pa ≤ 64 * l) && decide (64 * l + 64 ≤ pa + n)
  | .weak (.l2 k) | .broken (.l2 k) => decide (pa ≤ 8 * k) && decide (8 * k + 8 ≤ pa + n)
  | _ => false

/-- R328: the group and the place in it of a data sector, by its number. -/
def gddrPlace (line : Nat) : Option (Nat × Nat) :=
  if h : line < 31 * gddrGroups then some ((Config.gddrPlace ⟨line, h⟩).val / 31, (Config.gddrPlace ⟨line, h⟩).val % 31) else none

/-- R328: the number of the data sector at a place of a group. -/
def sectorLine (group j : Nat) : Option Nat :=
  if h : 31 * group + j < 31 * gddrGroups then some (Config.gddrPlace.symm ⟨31 * group + j, h⟩).val else none

/-- R328, R329: flipped bits of GDDR7 after sectors are written: the sectors and their CRCs are right again. -/
def freshFlips (whole : Nat → Bool) (fs : List (Nat × Nat)) : List (Nat × Nat) :=
  (fs.map fun f =>
    let group := f.1 / 33
    if f.1 % 33 < 31 then (f.1, if (sectorLine group (f.1 % 33)).any whole then 0 else f.2)
    else if f.1 % 33 = 31 then (f.1, (List.range 31).foldl (fun x j => if (sectorLine group j).any whole then refreshedCrc x j else x) f.2)
    else f).filter (·.2 != 0)

/-- The copies of one L1 with bytes overwritten (R61); a load that hits them returns the store's completion time too (R81). -/
def patchCopy (pa : Nat) (bs : List Byte) (t : Nat) (c : L1Line) : L1Line :=
  { c with kept := max c.kept t, poisoned := c.poisoned && !(PoisonAt.sector c.line).inBytes pa bs.length, data := c.data.mapIdx fun i b =>
      let a := 64 * c.line + i
      if pa ≤ a ∧ a < pa + bs.length then (bs[a - pa]?).getD b else b }

/-- Bytes of device memory written at the home slice: merged (R62), the issuing quadrant's copy patched (R61), the completion time
kept (R81), stored errors cleared where all their bytes are written (R329, R330). -/
def State.devWrite (s : State) (own : Option Nat) (pa : Nat) (bs : List Byte) : State × Nat :=
  let t := s.completion own pa bs.length
  let lines := linesOf pa bs.length
  ({ s with
      store := { s.store with dev := Memory.writeBytes s.store.dev pa bs }
      coh := { s.coh with
        l1 := s.coh.l1.map fun c => if some c.quad == own && lines.contains c.line then patchCopy pa bs t c else c
        kept := lines.foldl (fun k l => insertD 0 k l (max t (lookupD 0 k l))) s.coh.kept
        poison := s.coh.poison.filter (!·.inBytes pa bs.length)
        flips := freshFlips (fun l => (PoisonAt.sector l).inBytes pa bs.length) s.coh.flips } }, t)

/-- A number written to device memory by an agent other than a quadrant. -/
def State.devWriteNum (s : State) (pa n x : Nat) : State := (s.devWrite none pa (bytesOf n x)).1

/-- A number read from device memory at its home slice. -/
def State.devNum (s : State) (pa n : Nat) : Nat := Memory.num s.store.dev pa n

/-- R325, R333: bytes of device memory zeroed; no stored error of their lines remains. Copies of the lines serve until their
leases end (R79), and each line keeps the time at which the last of them does (R80, R81). -/
def State.zeroDev (s : State) (pa n : Nat) : State :=
  { s with
    store := { s.store with dev := s.store.dev.filter fun c => !(pa ≤ c.1 && c.1 < pa + n) }
    coh := { s.coh with
      kept := s.coh.leases.foldl (fun k l =>
        if pa < 64 * l.line + 64 ∧ 64 * l.line < pa + n then insertD 0 k l.line (max (s.completion none (64 * l.line) 64) (lookupD 0 k l.line))
        else k) s.coh.kept
      poison := s.coh.poison.filter (!·.inBytes pa n)
      flips := freshFlips (fun l => (PoisonAt.sector l).inBytes pa n) s.coh.flips } }

/-! ## Usage counters (R344) -/

/-- The account charged for a route. -/
def State.acctOf (s : State) (part prog : Nat) : Nat := ((s.route? part prog).map (·.acct)).getD 0

/-- R344: usage counter k of an account. -/
def State.usage (s : State) (part acct k : Nat) : Nat :=
  match s.fw.usage.find? fun u => u.part == part && u.acct == acct with
  | some u => lookupD 0 u.vals k
  | none => 0

/-- R344: usage counter k of an account raised by `n`, modulo 2^64. -/
def usageRaised (us : List Usage) (part acct k n : Nat) : List Usage :=
  let old := ((us.find? fun u => u.part == part && u.acct == acct).map (·.vals)).getD []
  upsert (fun u => u.part == part && u.acct == acct) { part, acct, vals := insertD 0 old k ((lookupD 0 old k + n) % 2 ^ 64) } us

/-- R344: a usage counter of an account raised; a partition has counters while it has a report chain. -/
def State.meter (s : State) (part acct k n : Nat) : State :=
  { s with fw := { s.fw with usage := if s.fw.chains.any (·.part == part) then usageRaised s.fw.usage part acct k n else s.fw.usage } }

/-- R344: a usage counter of a column's account raised. -/
def State.meterCol (s : State) (col k n : Nat) : State :=
  match s.column? col with
  | some c => s.meter c.part (s.acctOf c.part c.prog) k n
  | none => s

/-- R344: bytes that cross the host link or a causeway for a column. -/
def State.meterLoc (s : State) (col : Nat) (loc : Loc) (n : Nat) : State :=
  match loc with
  | .host _ => s.meterCol col 3 n
  | .peer _ => s.meterCol col 4 n
  | _ => s

/-! ## The black box (R334) -/

/-- One event appended; the ring keeps the newest 8,192. -/
def State.blackBox (s : State) (event part unit_ addr detail : Nat) : State :=
  let e : BbEvent := { wall := s.now, seq := s.fw.bbSeq, event, part, unit_, addr, detail }
  let es := s.fw.bbox ++ [e]
  { s with fw := { s.fw with bbSeq := (s.fw.bbSeq + 1) % 2 ^ 32, bbox := es.drop (es.length - 8192) } }

/-- R355: an MSI-X message sent by a function. -/
def State.sendMsix (s : State) (fn vector : Nat) : State := { s with fw := { s.fw with msix := s.fw.msix ++ [(fn, vector)] } }

/-! ## Errors under SEC-DED (R327) -/

/-- R330: the places that become uncorrectable with 64 bits. -/
def EccWord.places : EccWord → List PoisonAt
  | .l2 n => [.sector (n / 8)]
  | .spad n => [.word (2 * n), .word (2 * n + 1)]
  | .acc n => [.acc (2 * n), .acc (2 * n + 1)]
  | .reg col cv pair n => [.reg col cv (2 * pair) n, .reg col cv (2 * pair + 1) n]

/-- R334: the unit and the address of an event about 64 bits. -/
def EccWord.unit : EccWord → Nat × Nat
  | .l2 n => (1, 8 * n)
  | .spad _ => (2, 0)
  | .acc _ => (3, 0)
  | .reg .. => (4, 0)

/-- R327: 64 bits are read: a flipped bit is corrected, two make the bits uncorrectable; the event's syndrome is a free value, as the
code is not given (log 8). -/
def State.readEcc (s : State) (part : Nat) (w : EccWord) : State :=
  let event (t : State) (code : Nat) : State := t.free.2.blackBox code part w.unit.1 w.unit.2 (t.free.1 % 2 ^ 64)
  let others := s.coh.poison.filter fun p => p != .weak w && p != .broken w
  if s.coh.poison.contains (.broken w) then
    event { s with coh := { s.coh with poison := others ++ w.places.filter (!others.contains ·) } } 4
  else if s.coh.poison.contains (.weak w) then event { s with coh := { s.coh with poison := others } } 1
  else s

/-- The 64 bits with a flipped bit that are not read yet. -/
def PoisonAt.unread : PoisonAt → Option EccWord
  | .weak w | .broken w => some w
  | _ => none

/-- R327: every 64 bits that a read covers. -/
def State.readEccs (s : State) (part : Nat) (covers : EccWord → Bool) : State :=
  ((s.coh.poison.filterMap PoisonAt.unread).filter covers).foldl (fun t w => t.readEcc part w) s

/-- An error strikes stored bits (R102, R327, R328); a second one in the same 64 bits makes a double-bit error. -/
def State.strike (s : State) : Upset → State
  | .word w =>
    let others := s.coh.poison.filter fun p => p != .weak w && p != .broken w
    { s with coh := { s.coh with poison := others ++ [if others.length = s.coh.poison.length then .weak w else .broken w] } }
  | .sector group j bits =>
    let k := 33 * group + j
    if 33 ≤ j ∨ gddrGroups ≤ group then s
    else { s with coh := { s.coh with flips := insertD 0 s.coh.flips k (lookupD 0 s.coh.flips k ^^^ bits.toNat) } }
  | .istore addr bit =>
    { s with store := { s.store with
        istore := Memory.write s.store.istore addr (Memory.read s.store.istore addr ^^^ BitVec.ofNat 8 (2 ^ (bit % 8))) } }

/-! ## GDDR7 sectors (R328, R329) -/

/-- R329: a sector read: its CRC is checked, and where it fails the group decides whether it is corrected or the failing sectors are
poisoned. In reduced service device memory lies in L2 (R363). -/
def State.checkSector (s : State) (part line : Nat) : State :=
  match if s.coh.flips.isEmpty || s.fw.svc == .reduced then none else gddrPlace line with
  | none => s
  | some (g, j) => match checkGroup (fun j => lookupD 0 s.coh.flips (33 * g + j)) j with
    | .holds => s
    | .corrected x => { s with coh := { s.coh with flips := insertD 0 s.coh.flips (33 * g + j) x } }.blackBox 3 part 0 (64 * line) g
    | .lost js =>
      { s with coh := { s.coh with
          flips := s.coh.flips.filter fun f => !(f.1 / 33 == g && js.contains (f.1 % 33))
          poison := s.coh.poison ++ (js.filterMap fun j => (sectorLine g j).map PoisonAt.sector).filter (!s.coh.poison.contains ·) }
        }.blackBox 4 part 0 (64 * line) g

/-- The 64 bits meet `n` bytes of device memory or of scratchpad. -/
def EccWord.meets (loc : Loc) (a n : Nat) (w : EccWord) : Bool :=
  match loc, w with
  | .dev, .l2 k | .spad, .spad k => decide (a < 8 * k + 8) && decide (8 * k < a + n)
  | _, _ => false

/-- R327, R329: what an access of `n` bytes reads is checked. -/
def State.checkBytes (s : State) (part : Nat) (loc : Loc) (a n : Nat) : State :=
  let t := match loc with
    | .dev => (linesOf a n).foldl (fun (t : State) l => t.checkSector part l) s
    | _ => s
  t.readEccs part (EccWord.meets loc a n)

/-! ## Rings of a function (R300, R323) -/

/-- A number in device memory, or for the physical function in the root core's SRAM (R286). -/
def State.ramNum (s : State) (pf : Bool) (a n : Nat) : Nat := if pf then Memory.num s.store.pf a n else s.devNum a n

/-- Bytes written there, and their completion time. -/
def State.ramWrite (s : State) (pf : Bool) (a : Nat) (bs : List Byte) : State × Nat :=
  if pf then ({ s with store := { s.store with pf := Memory.writeBytes s.store.pf a bs } }, s.now) else s.devWrite none a bs

/-- A number written there. -/
def State.ramWriteNum (s : State) (pf : Bool) (a n x : Nat) : State := (s.ramWrite pf a (bytesOf n x)).1

/-- An entry of the ring at an address whose PROD is not yet written. -/
def Post.of (pf : Bool) (base : Nat) (p : Post) : Bool := p.pf == pf && p.base == base

/-- The number of a ring's next entry: PROD, and the entries whose PROD is not yet written. -/
def State.ringProd (s : State) (pf : Bool) (base : Nat) : Nat := s.ramNum pf base 8 + (s.fw.posts.filter (Post.of pf base)).length

/-- R300: PROD written for every entry whose completion time wall has reached, oldest first. -/
def State.flushPosts (s : State) : State :=
  let due (p : Post) : Bool := decide (p.at_ ≤ s.now)
  let t := (s.fw.posts.filter due).foldl (fun t p => t.ramWriteNum p.pf p.base 8 (t.ramNum p.pf p.base 8 + 1)) s
  { t with fw := { t.fw with posts := t.fw.posts.filter (!due ·) } }

/-- R300: an entry written to a ring with its header at `base` (PROD, CONS, LOST) and `n` entries of 32 bytes; PROD follows once wall has
reached the entry's completion time, and never before that of an earlier entry; a full ring loses the entry. -/
def State.ringWrite (s : State) (pf : Bool) (part base n : Nat) (entry : List Byte) : State :=
  let prod := s.ringProd pf base
  let cons := min (s.ramNum pf (base + 8) 8) (s.ramNum pf base 8)
  if prod - cons ≥ n then (s.ramWriteNum pf (base + 16) 8 (s.ramNum pf (base + 16) 8 + 1)).blackBox 7 part 7 0 prod
  else
    let w := s.ramWrite pf (base + 64 + 32 * (prod % n)) entry
    let at_ := ((s.fw.posts.filter (Post.of pf base)).map (·.at_)).foldl max w.2
    let post : Post := { part, pf, base, at_ }
    { w.1 with fw := { w.1.fw with posts := w.1.fw.posts ++ [post] } }.flushPosts

/-- R286, R323: where a partition's fault queue lies. -/
def Partition.faultQueue (p : Partition) : Nat := p.dsrpa + 0x440000

/-- A fault-queue entry (R323). -/
structure FaultEntry where
  code : BitVec 16
  access : Nat
  service : Nat
  addr : DWord
  route : Nat
  quad : Nat
  colid : Nat

/-- The bytes of a fault-queue entry. -/
def FaultEntry.bytes (e : FaultEntry) (wall : Nat) : List Byte :=
  bytesOf 2 e.code.toNat ++ bytesOf 1 e.access ++ bytesOf 1 e.service ++ bytesOf 4 1 ++ bytesOf 8 e.addr.toNat ++ bytesOf 8 wall ++
  bytesOf 2 e.route ++ bytesOf 2 e.quad ++ bytesOf 4 e.colid

/-- An entry written to a partition's fault queue; an absent partition has none. -/
def State.faultEntry (s : State) (part : Nat) (e : FaultEntry) : State :=
  match s.part? part with
  | some p => s.ringWrite false part p.faultQueue 4096 (e.bytes s.now)
  | none => s

/-- A byte or more of a fault-queue entry written anew, while the entry still stands in the ring (R324). -/
def State.amendEntry (s : State) (part entry off n x : Nat) : State :=
  match s.part? part with
  | none => s
  | some p =>
    if s.ringProd false p.faultQueue ≤ entry ∨ entry + 4096 < s.ringProd false p.faultQueue then s
    else s.devWriteNum (p.faultQueue + 64 + 32 * (entry % 4096) + off) n x

/-- COUNT of a fault-queue entry. -/
def State.entryCount (s : State) (part entry : Nat) : Nat :=
  match s.part? part with
  | none => 0
  | some p => s.devNum (p.faultQueue + 64 + 32 * (entry % 4096) + 4) 4

/-- The number of the next fault-queue entry of a partition. -/
def State.faultProd (s : State) (part : Nat) : Nat :=
  match s.part? part with
  | some p => s.ringProd false p.faultQueue
  | none => 0

/-! ## Fault codes (R326) -/

/-- ILLEGAL_OPCODE. -/
def cIllegal : BitVec 16 := 0x0101
/-- BRANCH_TARGET. -/
def cBranch : BitVec 16 := 0x0102
/-- PARTIAL_MASK. -/
def cPartial : BitVec 16 := 0x0103
/-- RETURN_UNDERFLOW. -/
def cReturn : BitVec 16 := 0x0104
/-- OPERAND_RESERVED. -/
def cOperand : BitVec 16 := 0x0105
/-- TRANSLATION. -/
def cTranslation : BitVec 16 := 0x0201
/-- PROTECTION. -/
def cProtection : BitVec 16 := 0x0202
/-- MISALIGNED_ATOMIC. -/
def cMisaligned : BitVec 16 := 0x0203
/-- HOST_ATOMIC_UNSUPPORTED. -/
def cHostAtomic : BitVec 16 := 0x0204
/-- MEMORY_EXHAUSTED. -/
def cExhausted : BitVec 16 := 0x0205
/-- OVERLAY_ABSENT. -/
def cAbsent : BitVec 16 := 0x0301
/-- NO_BAY. -/
def cNoBay : BitVec 16 := 0x0302
/-- OVERLAY_FOREIGN. -/
def cForeign : BitVec 16 := 0x0303
/-- BARRIER_OVERRUN. -/
def cBarrier : BitVec 16 := 0x0401
/-- FORMAT_SLOT. -/
def cSlot : BitVec 16 := 0x0501
/-- CHECKSUM_UNCORRECTABLE. -/
def cChecksum : BitVec 16 := 0x0502
/-- BOUNDS_ILLEGAL. -/
def cBounds : BitVec 16 := 0x0601
/-- QUEUE_CLOSED. -/
def cQueue : BitVec 16 := 0x0701
/-- RECORD_CONFLICT. -/
def cConflict : BitVec 16 := 0x0702
/-- RECORD_MALFORMED. -/
def cMalformed : BitVec 16 := 0x0703
/-- UNCORRECTABLE_DATA. -/
def cUncorrectable : BitVec 16 := 0x0801
/-- ROLLED_BACK. -/
def cRolledBack : BitVec 16 := 0x0802
/-- SHARD_CORRUPT. -/
def cShardCorrupt : BitVec 16 := 0x0901
/-- SHARD_MISSING. -/
def cShardMissing : BitVec 16 := 0x0902
/-- ATTEST_SEQUENCE. -/
def cAttest : BitVec 16 := 0x0A01
/-- COUNTER_DENIED. -/
def cDenied : BitVec 16 := 0x0A02

/-! ## Translation (R317 to R322) -/

/-- What an access needs (R320). -/
inductive Perm
  | read | write | atomic
  deriving DecidableEq, Repr

/-- The ACCESS bits of a fault entry (R323). -/
def Perm.bits : Perm → Nat
  | .read => 1
  | .write => 2
  | .atomic => 4

/-- The fields of a leaf entry (R318). -/
structure Leaf where
  pa : Nat
  size : Nat
  peer : Nat
  hostord : Bool
  w : Bool
  rd : Bool
  kind : Nat
  deriving DecidableEq, Repr

/-- R318: a leaf's fields. -/
def Leaf.of (e : Nat) : Leaf :=
  { pa := bitsOf e 12 40 * 4096, size := bitsOf e 8 4, peer := bitsOf e 52 5, hostord := bitsOf e 6 1 == 1,
    w := bitsOf e 5 1 == 1, rd := bitsOf e 4 1 == 1, kind := bitsOf e 2 2 }

/-- R319: a leaf entry at a level is well formed. -/
def leafOk (e level : Nat) : Bool :=
  let l := Leaf.of e
  bitsOf e 57 7 == 0 && bitsOf e 7 1 == 0 && l.kind != 3 && l.peer ≤ 17 && l.pa % 2 ^ (12 + l.size) == 0 &&
  (if level = 1 then 9 ≤ l.size else level == 0 && l.size ≤ 9)

/-- R319: a table entry is well formed: its unused fields are 0. -/
def tableOk (e : Nat) : Bool := bitsOf e 52 12 == 0 && bitsOf e 2 10 == 0

/-- The index of a level (R317). -/
def walkIndex (va level : Nat) : Nat := if level = 4 then bitsOf va 48 8 else bitsOf va (12 + 9 * level) 9

/-- R2, R363: the end of device memory: 180 GiB, and 3 GiB in reduced service. -/
def State.deviceEnd (s : State) : Nat := if s.fw.svc = .reduced then 3 * 2 ^ 30 else 180 * 2 ^ 30

/-- R340: the address lies in the locked carve-out. -/
def State.inCarveOut (s : State) (pa : Nat) : Bool :=
  let c := s.fw.carve.toNat
  let base := bitsOf c 26 26 * 2 ^ 26
  bitsOf c 0 1 == 1 && base ≤ pa && pa < base + 2 ^ 26 * (bitsOf c 1 3 + 1)

/-- R340: device memory that an access does not reach: the locked carve-out, and what lies beyond its end (log 35). -/
def State.refusesDev (s : State) (pa : Nat) : Bool := s.inCarveOut pa || decide (s.deviceEnd ≤ pa)

/-- R322: an entry as a walker reads it, as a load of device memory; where it cannot, the fault (log 85). -/
def State.walkEntry (s : State) (a : Nat) : Except (BitVec 16) Nat :=
  if s.refusesDev a then .error cProtection
  else if s.coh.poison.contains (.sector (lineOf a)) then .error cUncorrectable
  else .ok (s.devNum a 8)

/-- A walk from a table at a level down: the leaf entry and the addresses of the entries read, or the fault. -/
def State.walk (s : State) (va : Nat) : Nat → Nat → Except (BitVec 16) (Nat × List Nat)
  | table, 0 =>
    let a := table + 8 * walkIndex va 0
    match s.walkEntry a with
    | .error c => .error c
    | .ok e => if e % 2 = 1 ∧ bitsOf e 1 1 = 1 ∧ leafOk e 0 then .ok (e, [a]) else .error cTranslation
  | table, level + 1 =>
    let a := table + 8 * walkIndex va (level + 1)
    match s.walkEntry a with
    | .error c => .error c
    | .ok e =>
      if e % 2 = 0 then .error cTranslation
      else if bitsOf e 1 1 = 1 then if leafOk e (level + 1) then .ok (e, [a]) else .error cTranslation
      else if tableOk e then (s.walk va (bitsOf e 12 40 * 4096) level).map fun r => (r.1, a :: r.2)
      else .error cTranslation

/-- R317, R319: the table that an entry of a level above 0 points to, where the walk goes on there. -/
def State.nextTable (s : State) (a : Nat) : Option Nat :=
  match s.walkEntry a with
  | .ok e => if e % 2 = 1 ∧ bitsOf e 1 1 = 0 ∧ tableOk e = true then some (bitsOf e 12 40 * 4096) else none
  | .error _ => none

/-- R322: the addresses of the entries that a walk reads, up to a leaf or an entry that ends it. -/
def State.walkPath (s : State) (va : Nat) : Nat → Nat → List Nat
  | table, 0 => [table + 8 * walkIndex va 0].filter (!s.refusesDev ·)
  | table, level + 1 =>
    let a := table + 8 * walkIndex va (level + 1)
    if s.refusesDev a then []
    else a :: match s.nextTable a with
      | some next => s.walkPath va next level
      | none => []

/-- R327, R329: what a walk reads is checked. -/
def State.checkWalk (s : State) (part va ptroot : Nat) : State :=
  (s.walkPath va ptroot 4).foldl (fun t a => t.checkBytes part .dev a 8) s

/-- R321: the translation buffers that an access looks in: its core's, and for a convoy's access its quadrant's before it. -/
structure Via where
  core : Nat
  quad : Option Nat
  deriving DecidableEq, Repr

/-- The first virtual address of the page of a size that holds an address. -/
def pageBase (va size : Nat) : Nat := va / 2 ^ (12 + size) * 2 ^ (12 + size)

/-- A kept translation of an address that is still usable (R321, R322). -/
def TlbEntry.serves (t : TlbEntry) (now core part ctx va : Nat) : Bool :=
  t.core == core && t.part == part && t.ctx == ctx && t.va == pageBase va t.s && now < t.ends

/-- R321: the translation of an address: in the quadrant's buffer, then in the core's. -/
def State.tlbHit (s : State) (b : Via) (part ctx va : Nat) : Option TlbEntry :=
  let mine := s.coh.tlb.filter (·.serves s.now b.core part ctx va)
  mine.find? (·.quad == b.quad) <|> mine.find? (·.quad == none)

/-- R321: a translation put into a buffer, of 128 entries in a quadrant and of 2,048 in a core, which holds one entry per page; a full
buffer lets its oldest entry go (log 85). -/
def State.keepEntry (s : State) (e : TlbEntry) : State :=
  let others := s.coh.tlb.filter fun t => s.now < t.ends && !(t.serves s.now e.core e.part e.ctx e.va && t.s == e.s && t.quad == e.quad)
  let mine := others.filter fun t => t.core == e.core && t.quad == e.quad
  let old := mine.take (mine.length - (if e.quad.isSome then 127 else 2047))
  { s with coh := { s.coh with tlb := others.filter (!old.contains ·) ++ [e] } }

/-- R321: an entry of the core's buffer put into the quadrant's as well, for a convoy's access. -/
def State.keepNear (s : State) (b : Via) (e : TlbEntry) : State := if e.quad = b.quad then s else s.keepEntry { e with quad := b.quad }

/-- R322: when the leases of a walk end that is read now. -/
def State.walkEnds (s : State) : Nat := s.now + 16384

/-- R322: the leases of the entries that a walk reads, and whether each of them was granted. -/
def State.leaseWalk (s : State) (core ends : Nat) : List Nat → State × Bool
  | [] => (s, true)
  | a :: entries => match s.grant (lineOf a) (.tlb core) ends with
    | some t => t.leaseWalk core ends entries
    | none => ((s.leaseWalk core ends entries).1, false)

/-- R321, R322: a walk's leases; the translation is kept when every entry's lease was granted. -/
def State.keepWalk (s : State) (b : Via) (part ctx va leaf : Nat) (entries : List Nat) : State :=
  match s.leaseWalk b.core s.walkEnds entries with
  | (t, false) => t
  | (t, true) =>
    let n := (Leaf.of leaf).size
    let e : TlbEntry := { core := b.core, quad := none, part, ctx, va := pageBase va n, s := n, leaf := BitVec.ofNat 64 leaf, ends := s.walkEnds }
    (t.keepEntry e).keepNear b e

/-- A translated byte: where it lies and its address there. -/
structure Trans where
  loc : Loc
  pa : Nat
  deriving DecidableEq, Repr

/-- The weight set of a context that appears at a virtual address (R350, R353). -/
def State.weightAt (s : State) (part ctx va : Nat) : Option WeightSet :=
  s.obj.wsets.find? fun w => w.part == part && w.ctx == ctx && w.va ≤ va && va < w.va + w.span && !w.gens.isEmpty

/-- R353: the newest generation of a weight set that converged no later than a captured epoch; the list is newest first. -/
def WeightSet.genAt (w : WeightSet) (epoch : Nat) : Option WsGen := w.gens.find? (·.epoch ≤ epoch)

/-- R353: the generation that a capture resolves an address to, with its set: each generation appears where its own version put it. -/
def State.boundGen (s : State) (part ctx epoch va : Nat) : Option (WeightSet × WsGen) :=
  s.obj.wsets.findSome? fun w =>
    if w.part = part ∧ w.ctx = ctx then
      ((w.genAt epoch).filter fun g => decide (g.va ≤ va) && decide (va < g.va + g.span)).map fun g => (w, g)
    else none

/-- R353: where a column with an older capture finds a byte of a weight set: no answer where the page tables give it, an answer of
none where the generation has no such page, or where only a newer one appears (log 51). -/
def State.oldWeights (s : State) (part ctx : Nat) (epoch : Option Nat) (va : Nat) : Option (Option Leaf) :=
  match epoch with
  | none => none
  | some e => match s.boundGen part ctx e va with
    | some (w, g) =>
      if w.gens.head? == some g then none
      else some ((g.pages.lookup ((va - g.va) / 4096)).map fun pa =>
        { pa, size := 0, peer := 0, hostord := false, w := false, rd := true, kind := 0 })
    | none => (s.weightAt part ctx va).map fun _ => none

/-- The leaf of a virtual address and the state with what a walk keeps; otherwise the fault. `epoch` is the weight epoch that the
column at work captured. -/
def State.leafFor (s : State) (b : Via) (part ctx : Nat) (epoch : Option Nat) (va : Nat) : Except (BitVec 16) (Leaf × State) :=
  match s.oldWeights part ctx epoch va with
  | some (some l) => .ok (l, s)
  | some none => .error cTranslation
  | none => match s.tlbHit b part ctx va with
    | some t => .ok (Leaf.of t.leaf.toNat, s.keepNear b t)
    | none =>
      match s.ctx? part ctx with
      | none => .error cTranslation
      | some c =>
        let t := s.checkWalk part va c.ptroot
        match t.walk va c.ptroot 4 with
        | .error code => .error code
        | .ok (e, as_) => .ok (Leaf.of e, t.keepWalk b part ctx va e as_)

/-- R321, R322, R329: what looking an address up leaves: the translation kept or, where the walk ends in a fault, the entries that it
read checked and leased. -/
def State.touched (s : State) (b : Via) (part ctx : Nat) (epoch : Option Nat) (va : Nat) : State :=
  if va ≥ 2 ^ 56 then s
  else match s.leafFor b part ctx epoch va with
    | .ok (_, t) => t
    | .error _ => match s.oldWeights part ctx epoch va, s.ctx? part ctx with
      | none, some c =>
        let t := s.checkWalk part va c.ptroot
        (t.leaseWalk b.core t.walkEnds (t.walkPath va c.ptroot 4)).1
      | _, _ => s

/-- R360: a causeway is up. -/
def State.linkUp (s : State) (link : Nat) : Bool := s.fw.links.any fun l => l.n == link && l.up

/-- The translation of one byte for an access (R2, R56, R320, R340, R360). -/
def State.translate (s : State) (b : Via) (part ctx : Nat) (epoch : Option Nat) (va : Nat) (perm : Perm) : Except (BitVec 16) (Trans × State) :=
  if va ≥ 2 ^ 56 then .error cProtection
  else match s.leafFor b part ctx epoch va with
    | .error c => .error c
    | .ok (l, t) =>
      let ok := match perm with
        | .read => l.rd
        | .write => l.w
        | .atomic => l.rd && l.w
      let pa := l.pa + va % 2 ^ (12 + l.size)
      if !ok then .error cProtection
      else if l.kind = 0 then if s.refusesDev pa then .error cProtection else .ok (⟨.dev, pa⟩, t)
      else if l.kind = 1 then .ok (⟨.host l.hostord, pa⟩, t)
      else if s.linkUp l.peer then .ok (⟨.peer l.peer, pa⟩, t)
      else .error cProtection

/-- Bytes from `va` on that share its page. -/
def State.pageRest (s : State) (b : Via) (part ctx : Nat) (epoch : Option Nat) (va : Nat) : Nat :=
  match s.leafFor b part ctx epoch va with
  | .ok (l, _) => 2 ^ (12 + l.size) - va % 2 ^ (12 + l.size)
  | .error _ => 1

/-- R67: every byte of a range is probed in ascending order; the first failure, or the state with the translations kept. -/
def State.probe (s : State) (b : Via) (part ctx : Nat) (epoch : Option Nat) (perm : Perm) : Nat → Nat → Nat → Except (BitVec 16 × Nat) State
  | 0, _, _ => .ok s
  | fuel + 1, va, n =>
    if n = 0 then .ok s
    else match s.translate b part ctx epoch va perm with
      | .error c => .error (c, va)
      | .ok (_, t) =>
        -- the carve-out may begin inside a page: step at most to its next 64 MiB boundary
        let k := min (t.pageRest b part ctx epoch va) (2 ^ 26 - va % 2 ^ 26)
        t.probe b part ctx epoch perm fuel (va + k) (n - k)

/-- A range probed whole. -/
def State.probeRange (s : State) (b : Via) (part ctx : Nat) (epoch : Option Nat) (perm : Perm) (va n : Nat) : Except (BitVec 16 × Nat) State :=
  s.probe b part ctx epoch perm n va n

/-- R69: a scratchpad range probed; the first byte outside the allocation fails. -/
def probeSpad (banks : List Nat) (off n : Nat) : Option Nat :=
  let size := spadSize banks
  if n = 0 then none
  else if off ≥ size then some off
  else if off + n > size then some size
  else none

/-! ## Access of any space -/

/-- A byte at a translated address, as the agent that performs the access sees it. -/
def State.peek (s : State) : Loc → Nat → Byte
  | .dev, pa => Memory.read s.store.dev pa
  | .spad, a => Memory.read s.store.spad a
  | .host _, a => Memory.read s.store.host a
  | .peer l, pa => Memory.read s.store.peer (l * 2 ^ 52 + pa)

/-- Bytes at a translated address. -/
def State.peekBytes (s : State) (loc : Loc) (a n : Nat) : List Byte := (List.range n).map fun i => s.peek loc (a + i)

/-- R286: the actual-state table of some partition. -/
def State.inAst (s : State) (pa : Nat) : Bool := s.obj.parts.any fun p => p.dsrpa + 0x400000 ≤ pa && pa < p.dsrpa + 0x440000

/-- Bytes written at a translated address, and the completion time (device memory, scratchpad) or the present. Writes to an
actual-state table are discarded (R286). -/
def State.poke (s : State) (own : Option Nat) (loc : Loc) (a : Nat) (bs : List Byte) : State × Nat :=
  match loc with
  | .dev => s.devWrite own a (bs.mapIdx fun i b => if s.inAst (a + i) then Memory.read s.store.dev (a + i) else b)
  | .spad =>
    ({ s with store := { s.store with spad := Memory.writeBytes s.store.spad a bs }
              coh := { s.coh with poison := s.coh.poison.filter fun p => match p with
                | .word w => !(decide (a ≤ 4 * w) && decide (4 * w + 4 ≤ a + bs.length))
                | .weak (.spad k) | .broken (.spad k) => !(decide (a ≤ 8 * k) && decide (8 * k + 8 ≤ a + bs.length))
                | _ => true } }, s.now)
  | .host _ => ({ s with store := { s.store with host := Memory.writeBytes s.store.host a bs } }, s.now)
  | .peer l => ({ s with store := { s.store with peer := Memory.writeBytes s.store.peer (l * 2 ^ 52 + a) bs } }, s.now)

/-! ## Ranges read through a context -/

/-- How reading a virtual range ends: its bytes, or a code and the first failing address. -/
inductive VaRead
  | bytes (bs : List Byte)
  | bad (code : BitVec 16) (addr : Nat)
  deriving DecidableEq, Repr

/-- R329, R330: a byte that is read lies in a poisoned sector, once its check has been made. -/
def State.readsBad (s : State) (part : Nat) (t : Trans) : Bool :=
  t.loc == .dev && (s.checkBytes part .dev t.pa 1).coh.poison.contains (.sector (lineOf t.pa))

/-- Bytes of a virtual range read at one instant through a context, as an engine or firmware reads them. -/
def State.readVa (s : State) (b : Via) (part ctx va : Nat) : Nat → VaRead
  | 0 => .bytes []
  | n + 1 => match s.translate b part ctx none va .read with
    | .error c => .bad c va
    | .ok (t, _) =>
      if s.readsBad part t then .bad cUncorrectable va
      else match s.readVa b part ctx (va + 1) n with
        | .bytes bs => .bytes (s.peek t.loc t.pa :: bs)
        | e => e

/-- Those bytes; none where a byte fails. -/
def State.vaBytes (s : State) (b : Via) (part ctx va n : Nat) : Option (List Byte) :=
  match s.readVa b part ctx va n with
  | .bytes bs => some bs
  | .bad .. => none

/-- R78, R322, R329: what such a read leaves, up to the byte at which it fails: translations kept, sectors checked, and the leases of the
reading engine on the lines of device memory. -/
def State.rangeRead (s : State) (b : Via) (part ctx : Nat) (own : Option (Holder × Nat)) (va : Nat) : Nat → State
  | 0 => s
  | n + 1 =>
    let t := s.touched b part ctx none va
    match s.translate b part ctx none va .read with
    | .error _ => t
    | .ok (z, _) =>
      let u := t.checkBytes part z.loc z.pa 1
      let w := match own, z.loc with
        | some (h, ends), .dev => (u.grant (lineOf z.pa) h ends).getD u
        | _, _ => u
      if s.readsBad part z then w else w.rangeRead b part ctx own (va + 1) n

/-- Bytes written through a context to a ring or a frame; the latest completion time. A byte that no longer translates is dropped (DESIGN
CHOICE; log 90). -/
def State.ringBytes (s : State) (core part ctx va : Nat) : List Byte → State × Nat
  | [] => (s, s.now)
  | b :: bs =>
    let w := match s.translate ⟨core, none⟩ part ctx none va .write with
      | .ok (t, u) => u.poke none t.loc t.pa [b]
      | .error _ => (s, s.now)
    let r := w.1.ringBytes core part ctx (va + 1) bs
    (r.1, max w.2 r.2)

end Sys2Proof.Machine
end

