-- ==== Sys2Proof/Machine/Operands.lean ====
section
/-!
DEFINITION. Registers, predicates and specials of a convoy (R7, R9, R14, R106, R109 to R111, R244), every operand form read and
written, and the context in which a group issues (R14, R15).
-/

namespace Sys2Proof.Machine

/-! ## Lanes and registers -/

/-- A lane at column start (R11), exited and at counter 0; the launch sets its counter. -/
def Lane.zero : Lane :=
  { pc := 0, live := false, split := false, lnk := 0, trpc := 0, trap := false, fault := 0, regs := [], preds := [], wide := 0,
    mn := 0, tile := none, tx := 0, ty := 0, exLo := 0, exHi := 0, eyLo := 0, eyHi := 0, edges := [], fills := [] }

/-- A lane register; an unlisted one reads 0. -/
def Lane.reg (l : Lane) (n : Nat) : Word := lookupD 0 l.regs n

/-- A lane register written. -/
def Lane.setReg (l : Lane) (n : Nat) (x : Word) : Lane := { l with regs := insertD 0 l.regs n x }

/-- A predicate; p7 is true (R3). -/
def Lane.pred (l : Lane) (p : Nat) : Tri := if p = 7 then .yes else lookupD .no l.preds p

/-- A back-edge entry's masks take up a written register or predicate (R251). -/
def Lane.mark (l : Lane) (regs preds : List Nat) : Lane :=
  { l with edges := l.edges.map fun e =>
      { e with regs := e.regs ++ regs.filter (!e.regs.contains ·), preds := e.preds ++ preds.filter (!e.preds.contains ·) } }

/-- p0 to p6 written. -/
def Lane.setPred (l : Lane) (p : Nat) (x : Tri) : Lane :=
  if p < 7 then { l with preds := insertD .no l.preds p x }.mark [] [p] else l

/-- A flag bit set or cleared. -/
def setFlag (x : BitVec 64) (n : Nat) (b : Bool) : BitVec 64 :=
  if b then x ||| (1 <<< n) else x &&& ~~~((1 : BitVec 64) <<< n)

/-- `k` consecutive registers from `n` on as one number, low register first. -/
def Lane.wideReg (l : Lane) (n : Nat) : Nat → Nat
  | 0 => 0
  | k + 1 => (l.reg n).toNat + 2 ^ 32 * l.wideReg (n + 1) k

/-- `k` consecutive registers written with a number. -/
def Lane.setWideReg (l : Lane) (n : Nat) : Nat → Nat → Lane
  | 0, _ => l
  | k + 1, x => (l.setReg n (BitVec.ofNat 32 x)).setWideReg (n + 1) k (x / 2 ^ 32)

/-- R244: `k` registers from vn as a value: a point in element mode; in a bounds pass with its upper end and flags. -/
def Lane.value (l : Lane) (bounds : Bool) (n k : Nat) : IVal :=
  if bounds then
    { lo := l.wideReg n k, hi := l.wideReg (n + 64) k, wide := l.wide.getLsbD n, mn := l.mn.getLsbD n }
  else .pt (l.wideReg n k)

/-- R244: `k` registers from vn written; a bounds pass writes both ends, both flags and the back-edge masks. -/
def Lane.setValue (l : Lane) (bounds : Bool) (n k : Nat) (x : IVal) : Lane :=
  if bounds then
    ({ (l.setWideReg n k x.lo).setWideReg (n + 64) k x.hi with
        wide := setFlag l.wide n x.wide, mn := setFlag l.mn n x.mn }).mark ((List.range k).map (· + n)) []
  else l.setWideReg n k x.lo

/-! ## Convoys -/

/-- A lane of a convoy; a number beyond its width gives an exited lane. -/
def Convoy.lane (v : Convoy) (l : Nat) : Lane := (v.lanes[l]?).getD Lane.zero

/-- One lane changed. -/
def Convoy.onLane (v : Convoy) (l : Nat) (f : Lane → Lane) : Convoy := { v with lanes := updateAt l f v.lanes }

/-- Lanes changed, each by its number. -/
def Convoy.onLanes (v : Convoy) (ls : List Nat) (f : Nat → Lane → Lane) : Convoy :=
  { v with lanes := v.lanes.mapIdx fun i x => if ls.contains i then f i x else x }

/-- A uniform register. -/
def Convoy.sreg (v : Convoy) (n : Nat) : Word := lookupD 0 v.sregs n

/-- A uniform register written. -/
def Convoy.setSreg (v : Convoy) (n : Nat) (x : Word) : Convoy := { v with sregs := insertD 0 v.sregs n x }

/-- `k` consecutive uniform registers as one number. -/
def Convoy.wideSreg (v : Convoy) (n : Nat) : Nat → Nat
  | 0 => 0
  | k + 1 => (v.sreg n).toNat + 2 ^ 32 * v.wideSreg (n + 1) k

/-- `k` consecutive uniform registers written with a number. -/
def Convoy.setWideSreg (v : Convoy) (n : Nat) : Nat → Nat → Convoy
  | 0, _ => v
  | k + 1, x => (v.setSreg n (BitVec.ofNat 32 x)).setWideSreg (n + 1) k (x / 2 ^ 32)

/-- The numbers of the lanes that satisfy a test. -/
def Convoy.lanesWhere (v : Convoy) (p : Lane → Bool) : List Nat := (List.range v.lanes.length).filter fun i => p (v.lane i)

/-- Live lanes (R14). -/
def Convoy.live (v : Convoy) : List Nat := v.lanesWhere (·.live)

/-- A number inserted into a strictly rising list. -/
def insertSorted (x : Nat) : List Nat → List Nat
  | [] => [x]
  | y :: ys => if x < y then x :: y :: ys else if x = y then y :: ys else y :: insertSorted x ys

/-- Program counters of live lanes, lowest first, without repeats. -/
def Convoy.pcs (v : Convoy) : List Nat := (v.live.map fun i => (v.lane i).pc.toNat).foldl (fun a x => insertSorted x a) []

/-- R6: the frontier; none when no lane lives. -/
def Convoy.frontier (v : Convoy) : Option PC := v.pcs.head?.map (BitVec.ofNat 25)

/-- Live lanes at a program counter. -/
def Convoy.lanesAt (v : Convoy) (pc : PC) : List Nat := v.lanesWhere fun l => l.live && l.pc == pc

/-- R14, R17: the frontier group, or the group with the next-lowest program counter. -/
def Convoy.group (v : Convoy) (second : Bool) : List Nat :=
  match v.pcs[if second then 1 else 0]? with
  | some p => v.lanesAt (BitVec.ofNat 25 p)
  | none => []

/-! ## The issue context -/

/-- A group about to issue an instruction: its column and convoy as they stand, the route, the common fields of the word, the lanes
of the group, those whose guards are true (`act`) and, in a bounds pass, undecided (`und`), the program counter, the wall time, and
the values popped from read ports by port and lane (R74). -/
structure Ctx where
  cur : Cur
  c : Column
  v : Convoy
  r : Route
  h : Hdr
  group : List Nat
  act : List Nat
  und : List Nat
  pc : PC
  now : DWord
  pops : List (Nat × List (Nat × Word))

/-- R106: the value of one guard in a lane. -/
def Guard.eval (g : Guard) (l : Lane) : Tri := let p := l.pred g.p.toNat; if g.neg then p.not else p

/-- R106, R248: both guards of a word in a lane. -/
def guards (h : Hdr) (l : Lane) : Tri := (Guard.eval h.g1 l).and (Guard.eval h.g2 l)

/-- The context of the group named by `State.cur`; none when it names no resident convoy with a live lane. The lanes of a second candidate
are those it had when the cycle began. -/
def State.ctx (s : State) (h : Hdr) : Option Ctx := do
  let cur ← s.cur
  let c ← s.column? cur.col
  let v ← c.cvs[cur.cv]?
  let r ← s.route? c.part c.prog
  let group := match cur.plan with
    | some m => (v.lanesAt m.pc).filter m.lanes.contains
    | none => v.group cur.second
  let first ← group.head?
  pure { cur, c, v, r, h, group, act := group.filter fun i => guards h (v.lane i) == .yes,
         und := group.filter fun i => guards h (v.lane i) == .und, pc := (v.lane first).pc, now := s.wall, pops := [] }

/-- Lane registers of a route: 8 * (LREGS + 1) (R10). -/
def Route.nregs (r : Route) : Nat := 8 * (bitsOf ((r.words[0]?).getD 0).toNat 16 5 + 1)

/-- A word of the launch record (R10). -/
def Route.word (r : Route) (k : Nat) : Nat := ((r.words[k]?).getD 0).toNat

/-- Lanes per convoy (R10). -/
def Route.width (r : Route) : Nat := 16 * 2 ^ bitsOf (r.word 0) 0 2

/-- Convoys per column (R10). -/
def Route.nconv (r : Route) : Nat := bitsOf (r.word 0) 5 4 + 1

/-- The lease length L (R10). -/
def Route.lease (r : Route) : Nat := let l := bitsOf (r.word 0) 32 16; if l = 0 then 512 else l

/-- BOUNDS of the launch record. -/
def Route.bounds (r : Route) : Bool := bitsOf (r.word 0) 11 1 == 1

/-- MODE: task mode. -/
def Route.taskMode (r : Route) : Bool := bitsOf (r.word 0) 10 1 == 1

/-- PAIR. -/
def Route.pair (r : Route) : Bool := bitsOf (r.word 0) 9 1 == 1

/-- TRAPEN. -/
def Route.trapen (r : Route) : Bool := bitsOf (r.word 0) 12 1 == 1

/-- PRIO. -/
def Route.prio (r : Route) : Nat := bitsOf (r.word 0) 13 3

/-- SPBANKS. -/
def Route.spbanks (r : Route) : Nat := bitsOf (r.word 0) 21 5

/-- ENTRY. -/
def Route.entry (r : Route) : PC := BitVec.ofNat 25 (bitsOf (r.word 1) 0 25)

/-- TRAPPC. -/
def Route.trappc (r : Route) : PC := BitVec.ofNat 25 (bitsOf (r.word 1) 32 25)

/-- W4 QNUM. -/
def Route.qnum (r : Route) : Nat := bitsOf (r.word 4) 0 12

/-- The column runs a bounds pass. -/
def Ctx.bounds (x : Ctx) : Bool := x.c.bmode

/-- The core a quadrant lies on (R2). -/
def coreOf (quad : Nat) : Nat := quad / 4

/-- The core the convoy runs on. -/
def Ctx.core (x : Ctx) : Nat := coreOf x.v.quad

/-- R9, R243: the value of a special in a lane. -/
def Ctx.special (x : Ctx) (lane : Nat) (sp : Special) : IVal :=
  let l := x.v.lane lane
  let pt (w : Word) : IVal := .pt w.toNat
  match sp with
  | .lane => pt (BitVec.ofNat 32 lane)
  | .cvid => pt (BitVec.ofNat 32 x.cur.cv)
  | .colid => pt x.c.colid
  | .route => pt (BitVec.ofNat 32 x.r.num)
  | .task => pt x.c.task
  | .recIx => pt (BitVec.ofNat 32 (if x.r.taskMode || x.r.bounds then 0 else x.cur.cv * x.r.width + lane))
  | .tx => pt l.tx
  | .ty => pt l.ty
  | .ex => { lo := l.exLo.toNat, hi := if x.bounds then l.exHi.toNat else l.exLo.toNat, wide := false, mn := false }
  | .ey => { lo := l.eyLo.toNat, hi := if x.bounds then l.eyHi.toNat else l.eyLo.toNat, wide := false, mn := false }
  | .bmode => .pt (if x.bounds then 1 else 0)
  | .clklo => pt (loWord x.now)
  | .clkhi => pt (hiWord x.now)
  | .fault => .pt (if l.trap then l.fault.toNat else 0)
  | .part => pt (BitVec.ofNat 32 x.c.part)

/-- R109: an operand of `k` registers read in a lane. -/
def Ctx.read (x : Ctx) (lane : Nat) (o : Operand) (k : Nat := 1) : IVal :=
  match o with
  | .v n => (x.v.lane lane).value x.bounds n.toNat k
  | .s n => .pt (x.v.wideSreg n.toNat k)
  | .p _ => .pt 0
  | .q n => .pt ((((x.pops.lookup n.toNat).getD []).lookup lane).getD 0).toNat
  | .sp c => x.special lane c
  | .none => .pt 0

/-- R136: a predicate source; 0xFF reads as false. -/
def Ctx.readPred (x : Ctx) (lane : Nat) (o : Operand) : Tri :=
  match o with
  | .p n => (x.v.lane lane).pred n.toNat
  | _ => .no

/-- A uniform operand of `k` registers. -/
def Ctx.uni (x : Ctx) (o : Operand) (k : Nat := 1) : Nat :=
  match o with
  | .s n => x.v.wideSreg n.toNat k
  | _ => 0

/-! ## Results -/

/-- A result of `k` registers written to a lane or uniform register: in each active lane its own value, in a lane with undecided
guards the merge of R248; a uniform register once, with the value of the lowest active lane (R111). -/
def Ctx.writeReg (x : Ctx) (o : Operand) (k : Nat) (kind : ResKind) (val : Nat → IVal) : Convoy :=
  match o with
  | .v n => x.v.onLanes (x.act ++ x.und) fun i l =>
      let new := val i
      l.setValue x.bounds n.toNat k (if x.act.contains i then new else kind.merge (l.value x.bounds n.toNat k) new)
  | .s n => match x.act.head? with
    | some i => x.v.setWideSreg n.toNat k (val i).lo
    | none => x.v
  | _ => x.v

/-- A predicate result in each active lane, merged where the guards are undecided (R248). -/
def Ctx.writePred (x : Ctx) (o : Operand) (val : Nat → Tri) : Convoy :=
  match o with
  | .p n => x.v.onLanes (x.act ++ x.und) fun i l =>
      l.setPred n.toNat (if x.act.contains i then val i else (l.pred n.toNat).merge (val i))
  | _ => x.v

/-! ## Program counters -/

/-- R100: the overlay handle of a program counter. -/
def pcHandle (pc : PC) : Nat := bitsOf pc.toNat 13 12

/-- R100: the line. -/
def pcLine (pc : PC) : Nat := bitsOf pc.toNat 3 10

/-- R100: the slot. -/
def pcSlot (pc : PC) : Nat := bitsOf pc.toNat 0 3

/-- A program counter from its parts. -/
def mkPc (handle line slot : Nat) : PC := BitVec.ofNat 25 (handle * 8192 + line * 8 + slot)

/-- R100: the sequential successor. -/
def nextPc (pc : PC) : PC :=
  if pcSlot pc < 4 then pc + 1
  else if pcSlot pc = 4 ∧ pcLine pc < 1023 then mkPc (pcHandle pc) (pcLine pc + 1) 0
  else mkPc (pcHandle pc) (pcLine pc) 5

/-! ## The layout of a frame (R313) -/

/-- A number rounded up to a multiple. -/
def roundUp (n k : Nat) : Nat := (n + k - 1) / k * k

/-- R313: RB, bytes of a convoy's lane area. -/
def Route.laneArea (r : Route) : Nat := r.width * (4 * r.nregs * (if r.bounds then 2 else 1) + if r.bounds then 512 else 0)

/-- R313: where the lane area of a convoy begins. -/
def Route.laneAt (r : Route) (cv : Nat) : Nat := 0x10400 + cv * r.laneArea

/-- R313: SA, where the banks begin. -/
def Route.banksAt (r : Route) : Nat := roundUp (r.laneAt r.nconv) 4096

/-- R313: where the quadrant slots begin. -/
def Route.tilesAt (r : Route) : Nat := r.banksAt + 32768 * r.spbanks

/-- R313: F, the size of a frame. -/
def Route.frameSize (r : Route) : Nat := roundUp (r.tilesAt + if r.holdsAcc then (if r.pair then 8 else 4) * 0x41000 else 0) 0x10000

/-- R313: the virtual address of a frame. -/
def Route.frameVa (r : Route) (f : Nat) : Nat := r.word 5 + f * r.frameSize

end Sys2Proof.Machine
end

