-- ==== Sys2Proof/Machine/Resident.lean ====
section
/-!
DEFINITION. The instruction store: residency records, references, tokens, room and eviction (R210 to R218), overlay loads (R101,
R102, R213, R224), line words and the fetch check (R102 to R104).
-/

namespace Sys2Proof.Machine

/-! ## Records, references and tokens -/

/-- The residency record of an overlay, if it is not absent with generation 0. -/
def State.res? (s : State) (core part prog handle : Nat) : Option Residency :=
  s.eng.res.find? fun r => r.core == core && r.part == part && r.prog == prog && r.handle == handle

/-- R212: all records start absent, with GEN 0. -/
def State.res (s : State) (core part prog handle : Nat) : Residency :=
  (s.res? core part prog handle).getD
    { core, part, prog, handle, st := .absent, gen := 0, bays := [], evpend := false, lastUse := 0, waiters := [],
      entry := false, joined := false }

/-- A residency record replaced. -/
def State.setRes (s : State) (r : Residency) : State :=
  { s with eng := { s.eng with
      res := upsert (fun x => x.core == r.core && x.part == r.part && x.prog == r.prog && x.handle == r.handle) r s.eng.res } }

/-- The directory entry of a handle (R211); 0xFFF names none. -/
def Route.dirEntry (r : Route) (handle : Nat) : Option DirEntry :=
  if handle = 0xFFF then none else r.dir.find? (·.handle == handle)

/-- R214: the overlays a convoy holds references to. -/
def Convoy.handles (v : Convoy) : List Nat :=
  if v.ended then [] else ((v.live.map fun i => pcHandle (v.lane i).pc) ++ v.stack.map pcHandle).dedup

/-- A convoy that waits for resumption on another core of its pair keeps its references on the old core until the overlays it references
are resident on the new one (R216). -/
def Convoy.onCore (v : Convoy) (core : Nat) : Bool :=
  match v.wait with
  | some { kind := .resume _, .. } => coreOf v.quad / 2 == core / 2 && coreOf v.quad != core
  | _ => coreOf v.quad == core

/-- R212: REFS. -/
def State.refs (s : State) (core part prog handle : Nat) : Nat :=
  s.cols.foldl (fun n c =>
    if c.part = part ∧ c.prog = prog then n + (c.cvs.filter fun v => v.onCore core && v.handles.contains handle).length else n) 0

/-- R212: TOKENS. -/
def State.tokens (s : State) (core part prog handle : Nat) : Nat :=
  s.cols.foldl (fun n c =>
    if c.part = part ∧ c.prog = prog then
      n + (c.tokens.filter fun t => t.core == core && t.handle == handle).foldl (fun k t => k + t.n) 0
    else n) 0

/-- Another partition holds a share of a copy (R218). -/
def State.sharedWith (s : State) (r : Residency) : Bool :=
  s.eng.res.any fun x => x.core == r.core && x.part != r.part && x.st != .absent && x.bays == r.bays && r.bays != []

/-- Quadrants of a core that a partition owns (R215, R291). -/
def Partition.quadsOf (p : Partition) (core : Nat) : List Nat := (List.range 4).filterMap fun k =>
  if p.qmap.getLsbD (4 * core + k) then some (4 * core + k) else none

/-! ## Bays -/

/-- Instruction-store address of a byte of a bay. -/
def bayByte (core bay off : Nat) : Nat := (128 * core + bay) * 4096 + off

/-- Bays in use by a partition on a core (R215). -/
def State.baysUsed (s : State) (core part : Nat) : Nat :=
  s.eng.res.foldl (fun n r => if r.core = core ∧ r.part = part ∧ r.st ≠ .absent then n + r.bays.length else n) 0

/-- Bays of a core that no record holds. -/
def State.freeBays (s : State) (core : Nat) : List Nat :=
  (List.range 128).filter fun b => !(s.eng.res.any fun r => r.core == core && r.st != .absent && r.bays.contains b)

/-- R218: a share that joined a copy still loading takes the load over where the partition that loads it leaves. -/
def State.handOver (s : State) (r : Residency) : State :=
  if r.st = .loading ∧ !r.joined then
    match s.eng.res.find? fun x => x.core == r.core && x.bays == r.bays && x.st == .loading && x.joined with
    | some x => s.setRes { x with joined := false }
    | none => s
  else s

/-- R213, R333: a record becomes absent; bays that no share holds are freed and their lines zeroed. -/
def State.dropOverlay (s : State) (r : Residency) : State :=
  let t := (s.setRes { r with st := .absent, bays := [], evpend := false, waiters := [], entry := false, joined := false }).handOver r
  let gone := r.bays.filter fun b => !(t.eng.res.any fun x => x.core == r.core && x.st != .absent && x.bays.contains b)
  { t with store := { t.store with
      istore := t.store.istore.filter fun c => !(gone.any fun b =>
        decide (bayByte r.core b 0 ≤ c.1) && decide (c.1 < bayByte r.core (b + 1) 0)) } }

/-- R213: records in draining whose REFS and TOKENS are 0 become absent (OVERLAY_FREE). -/
def State.settle (s : State) : State :=
  s.eng.res.foldl (fun t r =>
    if r.st = .draining ∧ t.refs r.core r.part r.prog r.handle = 0 ∧ t.tokens r.core r.part r.prog r.handle = 0 then t.dropOverlay r
    else t) s

/-- R215: the quota of a partition on a core. -/
def State.bayQuota (s : State) (core part : Nat) : Nat :=
  match s.part? part with
  | some p => 32 * (p.quadsOf core).length
  | none => 0

/-- R215: candidates for eviction, oldest last use first, then ascending handle. -/
def State.candidates (s : State) (core part : Nat) : List Residency :=
  let cs := s.eng.res.filter fun r =>
    r.core == core && r.part == part && r.st == .resident && s.refs core part r.prog r.handle == 0 &&
    s.tokens core part r.prog r.handle == 0
  cs.foldl (fun (xs : List Residency) r =>
    xs.takeWhile (fun x => x.lastUse < r.lastUse || (x.lastUse == r.lastUse && x.handle ≤ r.handle)) ++ [r] ++
    xs.dropWhile (fun x => x.lastUse < r.lastUse || (x.lastUse == r.lastUse && x.handle ≤ r.handle))) []

/-- R215: room sought for `b` bays, of which a share that joins a copy takes none anew; the state after the evictions it needs
(OVERLAY_EVICT), or none. -/
def State.seekRoom (s : State) (core part b : Nat) (share : Bool := false) : Option State :=
  let quota := s.bayQuota core part
  let fits (t : State) : Bool := t.baysUsed core part + b ≤ quota && (share || b ≤ (t.freeBays core).length)
  if fits s then some s
  else
    let t := (s.candidates core part).foldl (fun t r => if fits t then t else t.dropOverlay r) s
    if fits t then some t else none

/-- R218: a copy that a partition may join: same world, SHARE set on both sides, equal digests, resident or loading. -/
def State.shareable (s : State) (core part : Nat) (d : DirEntry) : Option Residency :=
  match s.part? part with
  | none => none
  | some p =>
    s.eng.res.find? fun x => x.core == core && x.part != part && (x.st == .resident || x.st == .loading) && d.share &&
      match s.part? x.part, (s.route? x.part x.prog).bind fun r => r.dirEntry x.handle with
      | some q, some e => q.world == p.world && e.share && e.digest == d.digest
      | _, _ => false

/-- What an "OVL or autoload" event gives its requester (R213). -/
inductive LoadAnswer
  | resident | loading | noBay
  deriving DecidableEq, Repr

/-- R213: the "OVL or autoload" event on an overlay. A record that joins a shared copy counts as used now (DESIGN CHOICE; log 92). -/
def State.load (s : State) (core part prog handle : Nat) (d : DirEntry) : State × LoadAnswer :=
  let r := s.res core part prog handle
  match r.st with
  | .resident => (s, .resident)
  | .draining => (s.setRes { r with st := .resident }, .resident)
  | .loading => (s, .loading)
  | .absent =>
    match s.shareable core part d with
    | some x =>
      match s.seekRoom core part x.bays.length true with
      | some t =>
        (t.setRes { r with st := x.st, gen := x.gen, bays := x.bays, evpend := false, lastUse := t.now, joined := x.st == .loading },
         if x.st = .resident then .resident else .loading)
      | none => (s, .noBay)
    | none =>
      match s.seekRoom core part (d.nbm1 + 1) with
      | none => (s, .noBay)
      | some t =>
        (t.setRes { r with st := .loading, gen := r.gen + 1, bays := (t.freeBays core).take (d.nbm1 + 1), evpend := false,
                           waiters := [], joined := false }, .loading)

/-- R213, R227: the OVLEV event. -/
def State.evict (s : State) (core part prog handle : Nat) : State :=
  let r := s.res core part prog handle
  match r.st with
  | .resident => (s.setRes { r with st := .draining }).settle
  | .loading => s.setRes { r with evpend := true }
  | _ => s

/-- A requester added to an overlay's waiters. -/
def State.addWaiter (s : State) (core part prog handle : Nat) (w : OvlWaiter) : State :=
  let r := s.res core part prog handle
  s.setRes { r with waiters := r.waiters ++ [w] }

/-! ## Line words and fetch -/

/-- A bit set to the parity that makes it and the covered bits even (R102). -/
def parityOf (x : Nat) : Nat := popCount 96 x % 2

/-- R102: PLW holds. -/
def lineParityOk (w : Nat) : Bool := popCount 32 w % 2 == 0

/-- R101, R102: the line word with a generation written and PLW recomputed. -/
def withGen (w gen : Nat) : Nat :=
  let x := w % 2 ^ 28 + gen % 16 * 2 ^ 28
  let y := x - bitsOf x 14 1 * 2 ^ 14
  y + parityOf y * 2 ^ 14

/-- The line address of a program counter in the bays of a record; none beyond the bay map (R210). -/
def Residency.lineAddr (r : Residency) (pc : PC) : Option Nat :=
  (r.bays[pcLine pc / 64]?).map fun bay => bayByte r.core bay (pcLine pc % 64 * 64)

/-- R103 row 1: the record and line of a program counter. -/
def State.lineFor (s : State) (core part prog : Nat) (pc : PC) : Option (Residency × Nat) :=
  let r := s.res core part prog (pcHandle pc)
  if (r.st = .resident ∨ r.st = .draining) ∧ pcSlot pc < 5 then (r.lineAddr pc).map fun a => (r, a) else none

/-- The line word at an instruction-store address. -/
def State.lineWord (s : State) (a : Nat) : Nat := Memory.num s.store.istore a 4

/-- The 96-bit word of a slot at an instruction-store address. -/
def State.slotWord (s : State) (a slot : Nat) : IWord := BitVec.ofNat 96 (Memory.num s.store.istore (a + 4 + 12 * slot) 12)

/-- What a fetch gives (R103). -/
inductive Fetch
  | word (w : IWord)
  | fault (code : BitVec 16)
  /-- A parity error: the line is to be read again. -/
  | parity
  deriving DecidableEq, Repr

/-- R103: the fetch check of a slot (FETCH_CHECK). -/
def State.fetch (s : State) (core part prog : Nat) (pc : PC) : Fetch :=
  match s.lineFor core part prog pc with
  | none => .fault cBranch
  | some (r, a) =>
    let lw := s.lineWord a
    let w := s.slotWord a (pcSlot pc)
    if !lineParityOk lw || popCount 96 w.toNat % 2 != bitsOf lw (9 + pcSlot pc) 1 then .parity
    else if bitsOf lw 15 1 = 0 then .fault cBranch
    else if bitsOf lw 16 12 ≠ pcHandle pc ∨ bitsOf lw 28 4 ≠ r.gen.toNat then .fault cForeign
    else .word w

/-- R104: a legal branch target: resident or draining, a slot of 0 to 4, its BTM bit set. -/
def State.targetOk (s : State) (core part prog : Nat) (pc : PC) : Bool :=
  match s.lineFor core part prog pc with
  | some (_, a) => bitsOf (s.lineWord a) (pcSlot pc) 1 == 1
  | none => false

/-- R21: the slot's branch-target bit is set, as a clause that runs into it sees it. -/
def State.isTargetSlot (s : State) (core part prog : Nat) (pc : PC) : Bool := s.targetOk core part prog pc

/-- R19: the slot is pair-enabled: PAIR bit k, or bit k - 1. -/
def State.pairEnabled (s : State) (core part prog : Nat) (pc : PC) : Bool :=
  match s.lineFor core part prog pc with
  | some (_, a) =>
    let k := pcSlot pc
    let pair := bitsOf (s.lineWord a) 5 4
    (k < 4 && pair.testBit k) || (1 ≤ k && pair.testBit (k - 1))
  | none => false

/-- One line copied from an image into its bay: only GEN and PLW of the line word change (R101). -/
def copyLine (m : Memory) (a : Nat) (line : List Byte) (gen : Nat) : Memory :=
  Memory.writeBytes (m.writeNum a 4 (withGen (numberOf (line.take 4)) gen)) (a + 4) (line.drop 4)

/-- The lines of an image copied into the bays of a record. -/
def State.copyImage (s : State) (r : Residency) (image : List Byte) : State :=
  { s with store := { s.store with
      istore := (List.range (64 * r.bays.length)).foldl (fun m n =>
        match r.bays[n / 64]? with
        | some bay => copyLine m (bayByte r.core bay (n % 64 * 64)) ((image.drop (64 * n)).take 64) r.gen.toNat
        | none => m) s.store.istore } }

/-- R225: the OVLQ word of a handle for a partition on a core; an invalid handle gives 0. -/
def State.ovlWord (s : State) (core part prog handle : Nat) : Nat :=
  match (s.route? part prog).bind fun r => r.dirEntry handle with
  | none => 0
  | some d =>
    let r := s.res core part prog handle
    let st := match r.st with | .absent => 0 | .loading => 1 | .resident => 2 | .draining => 3
    r.gen.toNat * 2 ^ 24 + d.nbm1 % 16 * 2 ^ 20 + min 255 (s.tokens core part prog handle) * 2 ^ 12 +
    min 255 (s.refs core part prog handle) * 2 ^ 4 + (if s.sharedWith r then 8 else 0) + (if d.auto then 4 else 0) + st

/-- A physical scratchpad word written by an engine; stored errors of the word clear (R330). -/
def State.engineWord (s : State) (byte : Option Nat) (x : Nat) : State :=
  match byte with
  | some a => (s.poke none .spad a (bytesOf 4 x)).1
  | none => s

/-- R224: an overlay request answered: the completion word, in the column's banks as they lie now, and the copies counter. -/
def State.answerOvl (s : State) (w : OvlWaiter) (word : Nat) : State :=
  let byte := w.word.bind fun off => (s.column? w.col).bind fun c => spadByte c.banks off
  (s.engineWord byte word).onConvoy w.col w.cv fun v => { v with copies := v.copies - 1 }

end Sys2Proof.Machine
end

