-- ==== Sys2Proof/Machine/Access.lean ====
section
/-!
DEFINITION. Memory accesses of a group: addresses (R56, R114), pieces (R66), probing in order (R67), indivisible events (R64, R65),
pending operations, and the elements of queue ports (R74, R75, R169).
-/

namespace Sys2Proof.Machine

/-! ## Addresses -/

/-- The address of a lane's access: exact over the integers in global memory (R56), a 32-bit offset in scratchpad (R114). -/
def Ctx.ea (x : Ctx) (f : MForm) (lane : Nat) : Int :=
  let idx := (x.read lane f.c).lo
  let scale : Int := 2 ^ f.scale.val
  match f.space with
  | .global => ((x.read lane f.b 2).lo : Int) + signedOf 32 idx * scale + f.off.toInt
  | .scratch => wrapTo 32 (((x.read lane f.b).lo : Int) + (idx : Int) * scale + f.off.toInt)

/-- The address of a form whose base and index are uniform. -/
def Ctx.uniEa (x : Ctx) (f : MForm) : Int := x.ea f 0

/-! ## Pieces (R66) -/

/-- The largest naturally aligned piece of at most 8 bytes at an address. -/
def pieceSize (a rem : Nat) : Nat :=
  if a % 8 = 0 ∧ 8 ≤ rem then 8 else if a % 4 = 0 ∧ 4 ≤ rem then 4 else if a % 2 = 0 ∧ 2 ≤ rem then 2 else 1

/-- A run cut into naturally aligned pieces, from the lowest address up. -/
def cutRun : Nat → Nat → Nat → List (Nat × Nat)
  | 0, _, _ => []
  | fuel + 1, a, rem => if rem = 0 then [] else let k := pieceSize a rem; (a, k) :: cutRun fuel (a + k) (rem - k)

/-- R66: an access of `n` bytes as its pieces; an aligned one is whole. R63 promises atomicity up to 8 bytes; an aligned access of 16 bytes is
one piece too (DESIGN CHOICE; log 71). -/
def cut (a n : Nat) : List (Nat × Nat) :=
  if n = 0 then []
  else if a % n = 0 then [(a, n)]
  else
    let e := (a / n + 1) * n
    cutRun n a (e - a) ++ cutRun n e (a + n - e)

/-- R68: a run of element bytes, cut at every 64-byte boundary (and so at every page) and read as misaligned pieces. -/
def cutLines : Nat → Nat → Nat → List (Nat × Nat)
  | 0, _, _ => []
  | fuel + 1, a, rem =>
    if rem = 0 then [] else let k := min rem (64 - a % 64); cutRun k a k ++ cutLines fuel (a + k) (rem - k)

/-- One piece before translation: the lane, the program's address, bytes, and place in the lane's value. -/
structure Want where
  lane : Nat
  va : Int
  n : Nat
  off : Nat
  deriving DecidableEq, Repr

/-- The pieces of one access of a lane; an address below 0 stays whole and fails. -/
def wants (lane : Nat) (ea : Int) (n : Nat) (off : Nat := 0) : List Want :=
  if ea < 0 then [⟨lane, ea, n, off⟩]
  else (cut ea.toNat n).map fun p => ⟨lane, p.1, p.2, off + (p.1 - ea.toNat)⟩

/-! ## Probing and translation (R67) -/

/-- A fault met while an instruction is checked: code, address, ACCESS bits. -/
structure Bad where
  code : BitVec 16
  addr : DWord
  access : Nat
  deriving DecidableEq, Repr

/-- The translation buffers of a convoy's accesses. -/
def Ctx.via (x : Ctx) : Via := ⟨x.core, some x.v.quad⟩

/-- One piece translated: a piece lies within one page (R66). `deny` is an entry's own check on the backing (R171, R173). -/
def State.resolve1 (s : State) (x : Ctx) (space : Space) (perm : Perm) (deny : Loc → Option (BitVec 16)) (w : Want) :
    Except Bad (Piece × State) :=
  let bad (c : BitVec 16) (a : Int) : Except Bad (Piece × State) := .error ⟨c, BitVec.ofInt 64 a, perm.bits⟩
  match space with
  | .global =>
    if w.va < 0 ∨ w.va ≥ 2 ^ 56 then bad cProtection w.va
    else match s.translate x.via x.c.part x.r.ctx (some x.c.epoch) w.va.toNat perm with
      | .error c => bad c w.va
      | .ok (t, s') => match deny t.loc with
        | some c => bad c w.va
        | none => .ok ({ grp := 0, lane := w.lane, loc := t.loc, addr := t.pa, n := w.n, off := w.off, va := w.va.toNat }, s')
  | .scratch =>
    let a := w.va.toNat
    let size := spadSize x.c.banks
    if a + w.n > size then bad cProtection (max a size : Nat)
    else match spadByte x.c.banks a with
      | some p => .ok ({ grp := 0, lane := w.lane, loc := .spad, addr := p, n := w.n, off := w.off, va := a }, s)
      | none => bad cProtection w.va

/-- R67: the pieces in the order of the entry; the first failure, or all of them translated and the translations kept. -/
def State.resolve (s : State) (x : Ctx) (space : Space) (perm : Perm) (deny : Loc → Option (BitVec 16)) :
    List Want → Except Bad (List Piece × State)
  | [] => .ok ([], s)
  | w :: ws =>
    match s.resolve1 x space perm deny w with
    | .error b => .error b
    | .ok (p, t) => match t.resolve x space perm deny ws with
      | .error b => .error b
      | .ok (ps, u) => .ok (p :: ps, u)

/-- No entry check on the backing. -/
def anyLoc (_ : Loc) : Option (BitVec 16) := none

/-- R67: the first failure of parts that are accessed differently, in their order. -/
def State.firstBad (s : State) (x : Ctx) : List (Space × Perm × Want) → Option Bad
  | [] => none
  | (space, perm, w) :: ps => match s.resolve1 x space perm anyLoc w with
    | .error b => some b
    | .ok (_, t) => t.firstBad x ps

/-! ## Events (R64, R65) -/

/-- Host memory. -/
def Loc.isHost : Loc → Bool
  | .host _ => true
  | _ => false

/-- Two places of one memory: pages of host memory may differ in HOSTORD. -/
def Loc.same (a b : Loc) : Bool := a == b || (a.isHost && b.isHost)

/-- Two pieces touch a common byte. -/
def Piece.meets (p q : Piece) : Bool := p.loc.same q.loc && p.addr < q.addr + q.n && q.addr < p.addr + p.n

/-- Two pieces lie in one aligned 128-byte block of device memory or scratchpad. -/
def Piece.sameBlock (p q : Piece) : Bool :=
  p.loc == q.loc && p.addr / 128 == q.addr / 128 && (p.loc == .dev || p.loc == .spad)

/-- R65: the part of an instruction in a piece's block is performed as one event: every access there is whole, and no two lanes
write one byte. -/
def wholeBlock (ps : List Piece) (p : Piece) (isStore : Bool) : Bool :=
  (p.loc == .dev || p.loc == .spad) &&
  (ps.filter (·.sameBlock p)).all fun q =>
    ((ps.filter (·.lane == q.lane)).length == 1) && (!isStore || !(ps.any fun r => r.lane != q.lane && r.meets q))

/-- Two pieces belong to one event: they lie in one block that is performed whole (R65), or lanes of one load read a common byte (R64). -/
def oneEvent (isStore : Bool) (ps : List Piece) (p q : Piece) : Bool :=
  (wholeBlock ps p isStore && q.sameBlock p) || (!isStore && q.lane != p.lane && q.meets p)

/-- A piece put before the first one that begins at a higher address. -/
def insertPiece (p : Piece) : List Piece → List Piece
  | [] => [p]
  | q :: qs => if p.va < q.va then p :: q :: qs else q :: insertPiece p qs

/-- The pieces by ascending address, those of one address in their order. -/
def sortPieces (ps : List Piece) : List Piece := ps.foldl (fun qs p => insertPiece p qs) []

/-- R66: piece `q` is an earlier piece of the same misaligned access, performed by another event. -/
def Piece.precedes (q p : Piece) : Bool := q.lane == p.lane && decide (q.off < p.off) && q.grp != p.grp && q.va + p.off == p.va + q.off

/-- The pieces that no order of the events performs: those of events that wait for each other's (R66), and the ones behind them. -/
def tangled : Nat → List Piece → List Piece
  | 0, ps => ps
  | fuel + 1, ps =>
    let stuck := ps.filter fun p => ps.any fun r => r.grp == p.grp && ps.any (·.precedes r)
    if stuck.length = ps.length then ps else tangled fuel stuck

/-- Every piece gets the number of the event that performs it. Where two addresses of one page would make the events of two misaligned loads
wait for each other, only one event gives every byte one value (R64) and keeps the order of the pieces (R66). -/
def groupPieces (isStore : Bool) (ps : List Piece) : List Piece :=
  let qs := ((sortPieces ps).mapIdx fun i p => { p with grp := i }).foldl (fun qs p =>
    let hits := (qs.filter (oneEvent isStore ps p)).map (·.grp)
    let g := hits.foldl min p.grp
    (qs.map fun q => if hits.contains q.grp then { q with grp := g } else q) ++ [{ p with grp := g }]) []
  let knot := (tangled qs.length qs).map (·.grp)
  qs.map fun q => if knot.contains q.grp then { q with grp := knot.foldl min q.grp } else q

/-- Consecutive numbers as runs (first, length). -/
def runs : List Nat → List (Nat × Nat)
  | [] => []
  | a :: as_ => match runs as_ with
    | (b, n) :: rs => if b = a + 1 then (a, n + 1) :: rs else (a, 1) :: (b, n) :: rs
    | [] => [(a, 1)]

/-- R64: bytes that a higher-numbered lane also writes are dropped from a store's pieces. -/
def dropOverwritten (ps : List Piece) : List Piece :=
  ps.flatMap fun p =>
    if ps.any fun q => p.lane < q.lane && q.meets p then
      let mine := (List.range p.n).filter fun i =>
        !(ps.any fun q => p.lane < q.lane && q.loc.same p.loc && q.addr ≤ p.addr + i && p.addr + i < q.addr + q.n)
      (runs mine).map fun r => { p with addr := p.addr + r.1, n := r.2, off := p.off + r.1, va := p.va + r.1 }
    else [p]

/-- R78: the lease a load asks for. -/
def Ctx.lease (x : Ctx) (hint : Hint) : Nat := if hint = .long then 2 * x.r.lease else x.r.lease

/-- Host or peer memory. -/
def Loc.isSys : Loc → Bool
  | .host _ | .peer _ => true
  | _ => false

/-- A pending operation appended (R93). -/
def State.addOp (s : State) (x : Ctx) (kind : OpKind) (hint : Hint) (lanes : List Nat) (pieces : List Piece)
    (vals : List (Nat × Nat)) (aux : List (Nat × Nat × Nat)) : State :=
  { s with
    nextId := s.nextId + 1
    ops := s.ops ++ [{ id := s.nextId, col := x.cur.col, cv := x.cur.cv, quad := x.v.quad, pc := x.pc, kind, hint,
                       lease := x.lease hint, lanes, pieces, vals, aux, comp := 0, issued := s.now, seq := s.nextId, csys := 0,
                       recalled := false }] }

/-- The convoy of a context put back into the state. -/
def State.put (s : State) (x : Ctx) (v : Convoy) : State := s.onConvoy x.cur.col x.cur.cv fun _ => v

/-- An ordinary access of R85: a load, a store, an atomic, PLST's merges, or CBLD's read. -/
def OpKind.ordinary : OpKind → Bool
  | .load .. | .store | .atomic .. | .plst | .codebook _ => true
  | _ => false

/-- An element pushed to a write port. -/
def OpKind.isPush : OpKind → Bool
  | .push .. => true
  | _ => false

/-- R85: an earlier ordinary access of the convoy that overlaps a piece has not been performed; `before` limits the operations
looked at to those issued before a given one. -/
def State.earlierPending (s : State) (col cv : Nat) (before : Nat) (p : Piece) : Bool :=
  s.ops.any fun o => o.col == col && o.cv == cv && o.kind.ordinary && decide (o.seq < before) && o.pieces.any fun q => q.meets p

/-- R97: an element that the convoy pushed before has not been performed and overlaps a piece. -/
def State.earlierPush (s : State) (col cv : Nat) (before : Nat) (p : Piece) : Bool :=
  s.ops.any fun o => o.col == col && o.cv == cv && o.kind.isPush && decide (o.seq < before) && o.pieces.any fun q => q.meets p

/-- Bytes of an element that ACST writes (R204). -/
def acstBytes (fmt : Nat) : Nat := if fmt = 0 then 4 else 2

/-- The rows of scratchpad that ACLD reads or ACST writes, as (offset, bytes), and whether it writes them. -/
def MxWork.rows : MxWork → Option (List (Nat × Nat) × Bool)
  | .acld base stride => some ((List.range 64).map fun i => (base + i * stride, 256), false)
  | .acst fmt base stride => some ((List.range 64).map fun i => (base + i * stride, 64 * acstBytes fmt), true)
  | _ => none

/-- R85: an earlier ACLD or ACST of the convoy has still to read or write rows of scratchpad that a piece overlaps. -/
def State.tileTransfers (s : State) (col cv before : Nat) (p : Piece) (write : Bool) : Bool :=
  p.loc == .spad && s.eng.mx.any fun e => e.col == col && e.cv == cv && decide (0 < e.left) && decide (e.id < before) && match e.work.rows with
    | some (rs, w) => (write || w) && rs.any fun r => decide (p.va < r.1 + r.2) && decide (r.1 < p.va + p.n)
    | none => false

/-- The bytes of a line of a copy: 64 in memory (R61), 128 in scratchpad (R65). -/
def CopyLine.bytes (l : CopyLine) : Nat := if l.loc == .spad then 128 else 64

/-- A piece touches a line of a copy. -/
def CopyLine.meets (l : CopyLine) (p : Piece) : Bool :=
  l.loc.same p.loc && decide (l.line * l.bytes < p.addr + p.n) && decide (p.addr < l.line * l.bytes + l.bytes)

/-- R90, K4 of R97: a copy has claimed a line that a piece touches, and has not released it. -/
def State.owned (s : State) (p : Piece) : Bool := s.eng.jobs.any fun j => j.pend.any (·.meets p)

/-- R327: a piece lies in 64 bits with a flipped bit that nothing has read yet. -/
def State.unread (s : State) (p : Piece) : Bool := (s.coh.poison.filterMap PoisonAt.unread).any (EccWord.meets p.loc p.addr p.n)

/-- R330: a byte of a piece is poisoned, or may prove to be when it is read. -/
def State.poisoned (s : State) (p : Piece) : Bool :=
  s.coh.poison.any fun q => match q, p.loc with
    | .sector l, .dev => decide (p.addr < 64 * l + 64) && decide (64 * l < p.addr + p.n)
    | .word w, .spad => decide (p.addr < 4 * w + 4) && decide (4 * w < p.addr + p.n)
    | _, _ => (q.unread).any (EccWord.meets p.loc p.addr p.n)

/-! ## Queue ports (R74, R75, R169) -/

/-- The address of an element, exact. -/
def Port.addr (p : Port) (e : Nat) : Int := (p.base.toNat : Int) + (e : Int) * p.stride.toInt

/-- Bytes of an element. -/
def Port.bytes (p : Port) : Nat := p.ty.width / 8

/-- R169: the register value of an element. -/
def popValue (t : Fmt) (x : Nat) : Word :=
  match t.int? with
  | some (n, sg) => BitVec.ofInt 32 (readInt n sg x)
  | none => rneF32 (readValue t x)

/-- R169: the element of a register value. -/
def pushCode (t : Fmt) (x : Nat) : Nat :=
  match t.int? with
  | some (n, _) => x % 2 ^ n
  | none => encodeValue t .rne false (readValue .f32 x)

/-- The binding of a port. -/
def Convoy.port? (v : Convoy) (q : Nat) : Option Port := v.ports.lookup q

/-- A binding replaced. -/
def Convoy.setPort (v : Convoy) (q : Nat) (p : Port) : Convoy := { v with ports := (v.ports.filter (·.1 != q)) ++ [(q, p)] }

/-- R74: an element as it stands in the buffer, if it is there; beyond the count 0. -/
def Port.element (p : Port) (e : Nat) : Option Fetched := if e ≥ p.count.toNat then some (.value 0) else p.buf.lookup e

/-- R74: one element for each active lane, lowest lane first; none where one is not buffered. -/
def Port.elements (p : Port) (lanes : List Nat) : Option (List (Nat × Fetched)) :=
  lanes.zipIdx.mapM fun lk => (p.element (p.pos + lk.2)).map fun x => (lk.1, x)

/-- The values among elements. -/
def fetchedValues (xs : List (Nat × Fetched)) : List (Nat × Word) := xs.filterMap fun x => match x.2 with
  | .value w => some (x.1, w)
  | .bad .. => none

/-- R93: `n` stores counted, and R87: whether one of their pieces is a HOSTORD 1 write. -/
def Convoy.stored (v : Convoy) (n : Nat) (ps : List Piece) : Convoy :=
  { v with stores := v.stores + n, relaxedSent := v.relaxedSent || ps.any fun p => p.loc == .host true }

/-- R75: the lanes that push an element of the stream, each with its place behind the position, and what they store to. -/
def Port.pushes (p : Port) (lanes : List Nat) : List (Nat × Nat) := lanes.zipIdx.filter fun le => p.pos + le.2 < p.count.toNat

/-- The element that a lane pushes. -/
def Port.pushWants (p : Port) (le : Nat × Nat) : List Want := wants le.1 (p.addr (p.pos + le.2)) p.bytes

/-- R75: elements pushed, one for each active lane, in ascending lane order, each a store of its own; `vals` by lane are register values,
none for a load, `feed`, that supplies them later. The port is bound (R76). -/
def State.push (s : State) (x : Ctx) (q : Nat) (vals : Option (Nat → Nat)) (feed : Option Nat) : Except Bad (State × Convoy) :=
  match x.v.port? q with
  | none => .ok (s, x.v)
  | some p =>
    let lanes := p.pushes x.act
    match s.resolve x .global .write anyLoc (lanes.flatMap p.pushWants) with
    | .error b => .error b
    | .ok (ps, t) =>
      .ok (lanes.foldl (fun (u : State) le =>
          u.addOp x (.push q p.ty feed) p.hint [le.1] ((ps.filter (·.lane == le.1)).mapIdx fun i y => { y with grp := i })
            (match vals with
             | some f => [(le.1, pushCode p.ty (f le.1))]
             | none => []) []) t,
        (x.v.setPort q { p with pos := p.pos + x.act.length }).stored lanes.length ps)

end Sys2Proof.Machine
end

