-- ==== Sys2Proof/Machine/Tiles.lean ====
section
/-!
DEFINITION. Bounds tiles: quartering (R241), element ranges, the coordinates of lanes (R243, R253), the address of a FILL element
(R255), and the list of elements of the element pass (R253).
-/

namespace Sys2Proof.Machine

/-- W2 TWOD. -/
def Route.twod (r : Route) : Bool := bitsOf (r.word 2) 15 1 == 1

/-- W2 MAXDEPTH. -/
def Route.maxDepth (r : Route) : Nat := bitsOf (r.word 2) 12 3

/-- R241: the minimum side. -/
def Route.minSide (r : Route) : Nat := let m := bitsOf (r.word 2) 8 4; if m = 0 then 8 else 2 ^ m

/-- The sides of a tile of depth 0. -/
def Route.sides (r : Route) : Nat × Nat := (2 ^ bitsOf (r.word 2) 0 4, if r.twod then 2 ^ bitsOf (r.word 2) 4 4 else 1)

/-- W3: the domain. -/
def Route.domain (r : Route) : Nat × Nat := (bitsOf (r.word 3) 0 32, bitsOf (r.word 3) 32 32)

/-- A tile with sides and origin one depth down. -/
def Tile.part (t : Tile) (x y sx sy : Nat) : Tile := { depth := t.depth + 1, index := 0, x, y, sx, sy }

/-- R241: the quarters of a tile, with no regard to the limits. -/
def Tile.quarters (t : Tile) (twod : Bool) : List Tile :=
  let qx := t.sx / 4
  let qy := t.sy / 4
  let hx := t.sx / 2
  let hy := t.sy / 2
  let alongX := (List.range 4).map fun k => t.part (t.x + k * qx) t.y qx t.sy
  if !twod then alongX
  else if t.sx > 1 ∧ t.sy > 1 then
    [t.part t.x t.y hx hy, t.part (t.x + hx) t.y hx hy, t.part t.x (t.y + hy) hx hy, t.part (t.x + hx) (t.y + hy) hx hy]
  else if t.sx > 1 then alongX
  else if t.sy > 1 then (List.range 4).map fun k => t.part t.x (t.y + k * qy) t.sx qy
  else []

/-- R241: whether a tile may be quartered. -/
def Route.mayQuarter (r : Route) (t : Tile) : Bool :=
  let side (n : Nat) : Bool := n == 1 || r.minSide ≤ n
  t.depth < r.maxDepth &&
  (if !r.twod then t.sx % 4 == 0 && side (t.sx / 4)
   else if t.sx > 1 && t.sy > 1 then t.sx % 2 == 0 && t.sy % 2 == 0 && side (t.sx / 2) && side (t.sy / 2)
   else if t.sx > 1 then t.sx % 4 == 0 && side (t.sx / 4)
   else if t.sy > 1 then t.sy % 4 == 0 && side (t.sy / 4)
   else false)

/-- R241: the quarters that touch the domain. -/
def Route.quartersOf (r : Route) (t : Tile) : List Tile :=
  (t.quarters r.twod).filter fun q => q.x < r.domain.1 && q.y < r.domain.2

/-- R241: the element range of a tile, clipped: (x0, x1, y0, y1) with both ends included. -/
def Route.range (r : Route) (t : Tile) : Nat × Nat × Nat × Nat :=
  (t.x, min (t.x + t.sx) r.domain.1 - 1, t.y, min (t.y + t.sy) r.domain.2 - 1)

/-- Elements of a range in row-major order. -/
def rangeElems (g : Nat × Nat × Nat × Nat) : List (Nat × Nat) :=
  (List.range (g.2.2.2 + 1 - g.2.2.1)).flatMap fun j => (List.range (g.2.1 + 1 - g.1)).map fun i => (g.1 + i, g.2.2.1 + j)

/-- R242: the tiles of round 0 in row-major order. -/
def Route.roundZero (r : Route) : List Tile :=
  let sx := r.sides.1
  let sy := r.sides.2
  let nx := (r.domain.1 + sx - 1) / sx
  let ny := (r.domain.2 + sy - 1) / sy
  (List.range ny).flatMap fun j => (List.range nx).map fun i =>
    { depth := 0, index := j * nx + i, x := i * sx, y := j * sy, sx, sy }

/-- R242: lanes of a launch per column. -/
def Route.laneCount (r : Route) : Nat := r.width * r.nconv

/-- R243: a bounds-pass lane with its tile. -/
def Lane.withTile (l : Lane) (r : Route) (t : Tile) : Lane :=
  let g := r.range t
  { l with live := true, tile := some t, tx := BitVec.ofNat 32 (t.x / t.sx), ty := BitVec.ofNat 32 (t.y / t.sy),
           exLo := BitVec.ofNat 32 g.1, exHi := BitVec.ofNat 32 g.2.1, eyLo := BitVec.ofNat 32 g.2.2.1,
           eyHi := BitVec.ofNat 32 g.2.2.2 }

/-- R253: an element lane: the coordinates of its deferred region and its own. -/
def Lane.withElement (l : Lane) (t : Tile) (e : Nat × Nat) : Lane :=
  { l with live := true, tx := BitVec.ofNat 32 (t.x / t.sx), ty := BitVec.ofNat 32 (t.y / t.sy),
           exLo := BitVec.ofNat 32 e.1, exHi := BitVec.ofNat 32 e.1, eyLo := BitVec.ofNat 32 e.2, eyHi := BitVec.ofNat 32 e.2 }

/-- R253: deferred regions in the order of their rounds and, within a round, of their tiles. -/
def sortDeferred (xs : List (Nat × Nat × Tile)) : List (Nat × Nat × Tile) :=
  xs.foldl (fun (ys : List (Nat × Nat × Tile)) d =>
    let before (e : Nat × Nat × Tile) : Bool := e.1 < d.1 || (e.1 == d.1 && e.2.1 ≤ d.2.1)
    ys.takeWhile before ++ [d] ++ ys.dropWhile before) []

/-- R253: the list of elements of the element pass, each with its region. -/
def Launch.elements (l : Launch) (r : Route) : List (Tile × Nat × Nat) :=
  (sortDeferred l.deferred).flatMap fun d => (rangeElems (r.range d.2.2)).map fun e => (d.2.2, e)

/-- R242: the tiles of the next round: the quarters in the order of their parents, and in the quarter order. -/
def Launch.nextTiles (l : Launch) : List Tile :=
  let sorted := l.quarters.foldl (fun (ys : List (Nat × Tile)) d =>
    ys.takeWhile (fun e => e.1 ≤ d.1) ++ [d] ++ ys.dropWhile (fun e => e.1 ≤ d.1)) []
  sorted.mapIdx fun i q => { q.2 with index := i }

/-- R255: the address of element (x, y), exact. -/
def fillAddr (base : DWord) (off : BitVec 16) (rs size x y : Nat) : Int :=
  (base.toNat : Int) + ((y * rs + x) * size : Nat) + off.toInt

/-- The pieces of a fill of an element range, in row-major order; `off` is the byte within the element. -/
def fillWants (lane : Nat) (f : Fill) (g : Nat × Nat × Nat × Nat) : List Want :=
  (rangeElems g).flatMap fun e => wants lane (fillAddr f.base f.off f.rs f.size e.1 e.2) f.size

end Sys2Proof.Machine
end

