-- ==== Sys2Proof/Machine/Ops.lean ====
section
/-!
DEFINITION. The shared operations: fault delivery, taking a trap and returning from it (R230 to R234), the paging request (R324),
rollback (R331, R332), tile outcomes (R252, R256), convergence rounds (R198), and the issue of one instruction (R15 to R24, R120).
-/

namespace Sys2Proof.Machine

/-! ## Fault-queue entries (R323) -/

/-- R323: the ACCESS byte of a column's fault is set only for classes 0x02, 0x08 and 0x09; the entries of an OVL (R224) are written
elsewhere. -/
def accessOf (code : BitVec 16) (access : Nat) : Nat := if code.toNat / 256 ∈ [0x02, 0x08, 0x09] then access else 0

/-- A fault of a column's convoy written to the partition's fault queue. -/
def State.report (s : State) (c : Column) (quad : Nat) (code : BitVec 16) (addr : DWord) (access service : Nat) : State :=
  s.faultEntry c.part
    { code, access := accessOf code access, service, addr, quad, colid := c.colid.toNat
      route := ((s.route? c.part c.prog).map (·.num)).getD 0xFFFF }

/-! ## Ends of convoys and convergence rounds (R198) -/

/-- d of MMAT (R202). -/
def diagOf (f : XForm) : Int := signedOf 7 (bitsOf f.variant.toNat 0 7)

/-- R196: passes or steps of an entry. MMAT with d = -64 has no pass. -/
def MxWork.passes : MxWork → Nat
  | .mma tri f .. => if tri ∧ diagOf f = -64 then 0 else f.km1.toNat + 1
  | _ => 1

/-- R196: an entry posted to a quadrant's reservation table. -/
def State.post (s : State) (quad col cv : Nat) (signers : List (Nat × PC)) (tile urg : Nat) (work : MxWork) : State :=
  { s.meterCol col 1 work.passes with
    nextId := s.nextId + 1
    eng := { s.eng with
      mx := s.eng.mx ++ [{ id := s.nextId, quad, col, cv, signers, tile, urg, work, left := work.passes, chunks := [],
                             busy := s.now, recalled := false }] } }

/-- R196: the reservation table of a quadrant is full. -/
def State.tableFull (s : State) (quad : Nat) : Bool := (s.eng.mx.filter (·.quad == quad)).length ≥ 16

/-- A convergence register of a column; an unlisted one is clear. -/
def Column.cvreg (c : Column) (n : Nat) : CvReg :=
  (c.cvregs.lookup n).getD { signers := [], work := none, poster := 0, pcs := [] }

/-- A convergence register replaced. -/
def Column.setCvreg (c : Column) (n : Nat) (r : CvReg) : Column := { c with cvregs := (c.cvregs.filter (·.1 != n)) ++ [(n, r)] }

/-- A convergence register cleared. -/
def Column.clearCvreg (c : Column) (n : Nat) : Column := { c with cvregs := c.cvregs.filter (·.1 != n) }

/-- The convoys of a column that have not ended. -/
def Column.declared (c : Column) : List Nat := (List.range c.cvs.length).filter fun k => !((c.cvs[k]?).map (·.ended)).getD true

/-- R332: the column has done what forbids a rollback. -/
def State.forbidRollback (s : State) (col : Nat) : State := s.onColumn col fun c => { c with noRollback := true }

/-- Complete(N) of R198: when every convoy of the declared set has signed, the work is posted and the register cleared. A round that an
exit completes while the reservation table is full waits for an entry to free (R196). The tile operation is posted here, and a rollback no
longer possible (R332). -/
def State.complete (s : State) (col n : Nat) : State :=
  match s.column? col with
  | none => s
  | some c =>
    let r := c.cvreg n
    if r.signers.isEmpty ∨ !(c.declared.all fun k => r.signers.contains k) then s
    else
      let t := s.onColumn col fun c => c.clearCvreg n
      match r.work, c.cvs[r.poster]? with
      | some (.mma tri f b c' d e tb), some v =>
        if s.tableFull v.quad then s
        else (t.post v.quad col r.poster r.pcs f.tile.toNat f.urg.toNat (.mma tri f b c' d e tb)).forbidRollback col
      | _, _ => t

/-- R196: the rounds that waited for a reservation entry. -/
def State.completeRounds (s : State) : State :=
  s.cols.foldl (fun t c => c.cvregs.foldl (fun t r => t.complete c.id r.1) t) s

/-- R13, R198, R214: a convoy whose lanes have all exited ends; every round is evaluated again. -/
def State.checkEnd (s : State) (col cv : Nat) : State :=
  match s.convoy? col cv with
  | none => s
  | some v =>
    if v.live.isEmpty ∧ !v.ended then
      (List.range 16).foldl (fun t n => t.complete col n)
        (s.onConvoy col cv fun v => { v with ended := true, stack := [], wait := none, boundary := [] }).settle
    else s

/-! ## Kill (R234) -/

/-- A convoy of a killed column. -/
def Convoy.kill (v : Convoy) : Convoy :=
  { v with lanes := v.lanes.map fun l => { l with live := false, fills := [], tile := none }
           ended := true, stack := [], wait := none, boundary := [] }

/-- One route changed. -/
def Objects.onRoute (o : Objects) (part prog : Nat) (f : Route → Route) : Objects :=
  { o with routes := updateWhere (fun r => r.part == part && r.slot == prog) f o.routes }

/-- R314, R316: the frame that a killed column held is free. -/
def State.releaseFrame (s : State) (c : Column) : State :=
  match s.route? c.part c.prog, c.phase with
  | some r, .saving f _ | some r, .saved f | some r, .resuming f _ => (s.ringBytes c.core r.part r.ctx (r.frameVa f) (bytesOf 4 0)).1
  | _, _ => s

/-- R234: a column ends as killed. -/
def State.killNow (s₀ : State) (c : Column) : State :=
  let s := s₀.releaseFrame c
  let t := (s.meterCol c.id 7 1).onColumn c.id fun c => { c with killed := true, doomed := false, cvs := c.cvs.map Convoy.kill, cvregs := [] }
  ({ t with
      holds := t.holds.filter (·.col != c.id)
      launches := updateWhere (fun l => some l.id == c.launch) (fun l => { l with killed := true }) t.launches
      obj := t.obj.onRoute c.part c.prog fun r => { r with killedCols := r.killedCols + 1 } }).settle

/-- R316: the column is killed, or will be when its save has ended. -/
def Column.dying (c : Column) : Bool := c.killed || c.doomed

/-- R312: pre-emption of the column has begun, and its save has not ended. -/
def Column.beingSaved (c : Column) : Bool :=
  match c.phase with
  | .stopping | .saving .. => true
  | _ => false

/-- R234, R316: a column killed, at once or, while it is being saved, once the save has ended; its entry in the fault queue is the
caller's. -/
def State.kill (s : State) (col : Nat) : State :=
  match s.column? col with
  | none => s
  | some c =>
    if c.killed then s
    else if c.beingSaved then s.onColumn col fun c => { c with doomed := true }
    else s.killNow c

/-- R26: a descheduled convoy holds no port. A clause of another of its groups that is cut short leaves every register live. -/
def State.releasePorts (s : State) (col cv : Nat) : State :=
  let own (h : PortHold) : Bool := h.col == col && h.cv == cv
  let t := if s.holds.any own then s.onConvoy col cv fun v => { v with liveCount := 128 } else s
  { t with holds := s.holds.filter fun h => !own h }

/-! ## Undo log and rollback (R331, R332) -/

/-- R331: the first write to a place since the checkpoint takes `bytes` of a quadrant's log. -/
def State.logUndo (s : State) (col quad key bytes : Nat) : State :=
  s.onColumn col fun c => if c.undo.any (·.2.1 == key) then c else { c with undo := c.undo ++ [(quad, key, bytes)] }

/-- Key of a lane register of a convoy. -/
def regKey (cv n : Nat) : Nat := 2 * (128 * cv + n)

/-- Key of a scratchpad word by its physical number. -/
def wordKey (w : Nat) : Nat := 2 * w + 1

/-- The registers that an operand of `k` registers names; in a bounds pass with their companions. -/
def operandRegs (bounds : Bool) (o : Operand) (k : Nat) : List Nat :=
  match o with
  | .v n => let rs := (List.range k).map (· + n.toNat); if bounds then rs ++ rs.map (· + 64) else rs
  | _ => []

/-- R330: a stored error of a lane register, or of 64 bits of a register file, that a write of registers in lanes covers. -/
def PoisonAt.inRegs (col cv : Nat) (lanes rs : List Nat) : PoisonAt → Bool
  | .reg c v l n => c == col && v == cv && lanes.contains l && rs.contains n
  | .weak (.reg c v pair n) | .broken (.reg c v pair n) =>
    c == col && v == cv && lanes.contains (2 * pair) && lanes.contains (2 * pair + 1) && rs.contains n
  | _ => false

/-- R331: a write of lane registers of a convoy enters the undo log. -/
def State.logRegs (s : State) (col cv : Nat) (rs : List Nat) : State :=
  match s.convoy? col cv with
  | none => s
  | some v => rs.foldl (fun t n => t.logUndo col v.quad (regKey cv n) (4 * v.lanes.length + 8)) s

/-- R331: a write of scratchpad bytes by an instruction of a convoy enters the undo log. -/
def State.logSpad (s : State) (col quad pa n : Nat) : State :=
  (List.range ((pa + n + 3) / 4 - pa / 4)).foldl (fun t k => t.logUndo col quad (wordKey (pa / 4 + k)) 8) s

/-- R331: the overflow flag: some quadrant's entries exceed 64 KiB. -/
def Column.overflow (c : Column) : Bool :=
  c.undo.any fun e => (c.undo.filter (·.1 == e.1)).foldl (fun n f => n + f.2.2) 0 > 65536

/-- The scratchpad bytes of a column by offset, where not 0. -/
def State.spadImage (s : State) (banks : List Nat) : List Host.Cell :=
  s.store.spad.filterMap fun c =>
    match banks.findIdx? (· == c.1 / 32768) with
    | some k => some (k * 32768 + c.1 % 32768, c.2)
    | none => none

/-- The scratchpad bytes of a column replaced by an image. -/
def State.setSpadImage (s : State) (banks : List Nat) (image : List Host.Cell) : State :=
  let cleared := s.store.spad.filter fun c => !banks.contains (c.1 / 32768)
  { s with store := { s.store with
      spad := image.foldl (fun m c => match spadByte banks c.1 with
        | some a => Memory.write m a c.2
        | none => m) cleared } }

/-- R331: a checkpoint taken, with the convoys in the state in which they would resume. -/
def State.takeCheckpoint (s : State) (col : Nat) (resumed : List Convoy) : State :=
  s.onColumn col fun c =>
    { c with check := { cvs := resumed, cvregs := c.cvregs, spad := s.spadImage c.banks }, noRollback := false, undo := [] }

/-- R330, R332: a stored error in a register or word that the undo log of a column restores. -/
def Column.mends (c : Column) : PoisonAt → Bool
  | .reg col cv _ n => col == c.id && c.undo.any (·.2.1 == regKey cv n)
  | .word w => c.undo.any (·.2.1 == wordKey w)
  | _ => false

/-- R332, R242: what the tiles that a column's lanes held at its checkpoint have given the launch since is taken back. -/
def Launch.rolledBack (l : Launch) (c : Column) : Launch :=
  if c.launch ≠ some l.id then l
  else
    let tiles := c.check.cvs.flatMap fun v => v.lanes.filterMap fun k => k.tile.map (·.index)
    { l with quarters := l.quarters.filter fun q => !tiles.contains q.1
             deferred := l.deferred.filter fun d => !(d.1 == l.round && tiles.contains d.2.1) }

/-- R332: a convoy restored from a checkpoint; its quadrant is where it runs now. -/
def Convoy.restored (old now : Convoy) : Convoy := { old with quad := now.quad, firstIssue := now.firstIssue }

/-- R330 to R332: a convoy consumes uncorrectable data: its column rolls back where it may, or is killed. -/
def State.consume (s : State) (col quad : Nat) (addr : DWord) (access : Nat) : State :=
  match s.column? col with
  | none => s
  | some c =>
    if c.noRollback || c.overflow then (s.report c quad cUncorrectable addr access 0).kill col
    else
      let t := s.setSpadImage c.banks c.check.spad
      let t := t.onColumn col fun c =>
        { c with cvs := c.cvs.mapIdx fun k v => match c.check.cvs[k]? with
                   | some o => o.restored v
                   | none => v
                 cvregs := c.check.cvregs, undo := [] }
      let t := { t with
        ops := t.ops.filter (·.col != col), holds := t.holds.filter (·.col != col), launches := t.launches.map fun (l : Launch) => l.rolledBack c
        coh := { t.coh with poison := t.coh.poison.filter (!c.mends ·) } }
      ((t.report c quad cRolledBack addr access 0).blackBox 5 c.part 2 0 c.colid.toNat).settle

/-! ## Taking a trap (R230, R231) and returning from it (R233) -/

/-- R231: every live lane enters the handler: TRPC, trap mode, `%fault` in the lanes of F, TRADDR. -/
def Convoy.enterTrap (v : Convoy) (handler : PC) (codes : List (Nat × BitVec 16)) (addr : DWord) : Convoy :=
  { v with
    traddr := addr
    wait := none
    fencing := none
    lanes := v.lanes.mapIdx fun i l =>
      if l.live then
        { l with trpc := l.pc, trap := true, split := false, fault := (codes.lookup i).getD 0, pc := handler }
      else l }

/-- R104, R230, R231: entry to the handler, whose slot must be a branch target; otherwise the column is killed. -/
def State.enterTrap (s : State) (col cv : Nat) (codes : List (Nat × BitVec 16)) (addr : DWord) : State :=
  match s.column? col, s.convoy? col cv with
  | some c, some v =>
    match s.route? c.part c.prog with
    | none => s
    | some r =>
      if s.targetOk (coreOf v.quad) c.part c.prog r.trappc then
        (s.onConvoy col cv fun v => v.enterTrap r.trappc codes addr).settle
      else (s.report c v.quad cBranch (BitVec.setWidth 64 r.trappc) 0 0).kill col
  | _, _ => s

/-- R324: a paging request for a page of a context, merged into one that is unanswered, or handed over anew. -/
def State.requestPage (s : State) (c : Column) (quad ctx : Nat) (addr : DWord) (access : Nat) : State :=
  let page := addr.toNat / 4096
  match s.paging.find? fun q => q.part == c.part && q.ctx == ctx && q.page == page with
  | some q => s.amendEntry c.part q.entry 4 4 (s.entryCount c.part q.entry + 1)
  | none =>
    let k := s.faultProd c.part
    let u := s.report c quad cTranslation addr access 3
    let entry := if u.faultProd c.part = k then 2 ^ 64 else k
    { u with paging := u.paging ++ [{ part := c.part, ctx, page, entry, ready := none }] }

/-- Bytes of an overlay image (R210). -/
def DirEntry.bytes (d : DirEntry) : Nat := (d.nbm1 + 1) * 4096

/-- R67: every page of an image probed, as an image read: the first failure. -/
def State.imageFails (s : State) (core part ctx : Nat) (d : DirEntry) : Option (BitVec 16 × Nat) :=
  match s.probeRange ⟨core, none⟩ part ctx none .read d.image d.bytes with
  | .ok _ => none
  | .error e => some e

/-- R228, R231: the overlay of TRAPPC is made resident as CALLO does, whatever AUTO says, and the handler entered. A page of its image
that does not translate is asked for, and the entry waits; any other failure kills the column (DEDUCED; log 66). -/
def State.startTrap (s : State) (col cv : Nat) (codes : List (Nat × BitVec 16)) (addr : DWord) : State :=
  match s.column? col, s.convoy? col cv with
  | some c, some v =>
    match s.route? c.part c.prog with
    | none => s
    | some r =>
      let core := coreOf v.quad
      let h := pcHandle r.trappc
      let F := codes.map (·.1)
      let wait (t : State) (page : Option (Nat × Nat)) : State := (t.releasePorts col cv).onConvoy col cv fun v =>
        { v with wait := some { kind := .trapEntry codes addr page, pc := r.trappc, group := F, active := F, deadline := none,
                                err := none, met := false, since := none } }
      let fatal (t : State) (code : BitVec 16) (a : DWord) : State := (t.report c v.quad code a 8 0).kill col
      match (s.res core c.part c.prog h).st with
      | .resident => s.enterTrap col cv codes addr
      | .loading | .draining => wait s none
      | .absent => match r.dirEntry h with
        | none => fatal s cAbsent (BitVec.setWidth 64 r.trappc)
        | some d => match s.imageFails core c.part r.ctx d with
          | some (code, a) =>
            if code = cTranslation then
              wait ((s.touched ⟨core, none⟩ c.part r.ctx none a).requestPage c v.quad r.ctx (BitVec.ofNat 64 a) 8) (some (r.ctx, a / 4096))
            else fatal s code (BitVec.ofNat 64 a)
          | none => match s.load core c.part c.prog h d with
            | (t, .resident) => t.enterTrap col cv codes addr
            | (t, .loading) => wait t none
            | (t, .noBay) => fatal t cNoBay (BitVec.setWidth 64 r.trappc)
  | _, _ => s

/-- R233: a lane returns from the handler. -/
def Lane.trapReturn (l : Lane) (skip : Bool) : PC := if skip && l.fault != 0 then nextPc l.trpc else l.trpc

/-! ## The paging request (R324) -/

/-- R324: the convoy stops at its instruction, and the page is asked for. A convoy that another group has descheduled in the same cycle
keeps its wait, and the group issues the instruction again afterwards. -/
def State.pageFault (s : State) (col cv : Nat) (pc : PC) (group : List Nat) (addr : DWord) (access : Nat) : State :=
  match s.column? col, s.convoy? col cv with
  | some c, some v =>
    match s.route? c.part c.prog with
    | some r =>
      let t := if v.wait.isSome then s else (s.releasePorts col cv).onConvoy col cv fun v =>
        { v with
          fencing := none
          wait := some { kind := .replay r.ctx (addr.toNat / 4096), pc, group, active := group, deadline := none, err := none, met := false, since := none } }
      t.requestPage c v.quad r.ctx addr access
    | none => s
  | _, _ => s

/-! ## Fault delivery (R230, R324) -/

/-- R230: a fault of the convoy enters the route's handler: TRAPEN is 1, and no lane is in trap mode. A lane that has exited is in no mode:
live lanes alone count (DESIGN CHOICE; log 90). TRANSLATION never enters it. -/
def State.trapsTo (s : State) (c : Column) (v : Convoy) (code : BitVec 16) : Bool :=
  ((s.route? c.part c.prog).map Route.trapen).getD false && !(v.live.any fun i => (v.lane i).trap) && code != cTranslation

/-- R323: ACCESS of a read that an engine performed. -/
def engineRead : Nat := 17

/-- R323: ACCESS of a fault that an overlay load found. -/
def engineImage : Nat := 24

/-- R324: a fault that goes to the paging service: a TRANSLATION of the instruction's own access, not one that an engine found: the load
engine reading ahead (R74), or an overlay load (R224). -/
def replays (code : BitVec 16) (access : Nat) : Bool := code == cTranslation && !access.testBit 4

/-- SignalFault (R6) as R230 delivers it: to the paging service, to rollback, to the handler, or as a kill. A TRANSLATION that is not
replayed kills (DEDUCED; log 90). -/
def State.signal (s : State) (col cv : Nat) (pc : PC) (F : List Nat) (code : BitVec 16) (addr : DWord) (access : Nat) : State :=
  match s.column? col, s.convoy? col cv with
  | some c, some v =>
    if replays code access then s.pageFault col cv pc F addr access
    else if code = cUncorrectable then s.consume col v.quad addr access
    else
      let t := s.report c v.quad code addr access 0
      if s.trapsTo c v code then t.startTrap col cv (F.map fun i => (i, code)) addr else t.kill col
  | _, _ => s

/-- Raised faults by ascending program counter. -/
def insertRaised (r : Raised) : List Raised → List Raised
  | [] => [r]
  | q :: qs => if r.pc < q.pc then r :: q :: qs else q :: insertRaised r qs

/-- R121, R231: the faults that the groups of one convoy raised in a cycle, delivered in program-counter order. Those that enter the
handler do so together: each lane carries its own group's code, and TRADDR is the address of the lowest group. -/
def State.deliver (s : State) (col cv : Nat) (rs : List Raised) : State :=
  match s.column? col, s.convoy? col cv with
  | some c, some v =>
    let handled (r : Raised) : Bool := s.trapsTo c v r.code && r.code != cUncorrectable
    let t := rs.foldl (fun t r =>
      if ((t.column? col).map (·.dying)).getD true then t
      else if handled r then t.report c v.quad r.code r.addr r.access 0
      else t.signal col cv r.pc r.lanes r.code r.addr r.access) s
    match rs.filter handled with
    | [] => t
    | r :: more => if ((t.column? col).map (·.dying)).getD true then t
      else t.startTrap col cv ((r :: more).flatMap fun q => q.lanes.map fun i => (i, q.code)) r.addr
  | _, _ => s

/-- The faults of the cycle that ends, convoy by convoy. -/
def State.deliverAll (s : State) : State :=
  let cvs := (s.raised.map fun r => (r.col, r.cv)).dedup
  cvs.foldl (fun t k => t.deliver k.1 k.2 ((s.raised.filter fun r => (r.col, r.cv) == k).foldr insertRaised [])) { s with raised := [] }

/-! ## Tile outcomes (R252, R256) -/

/-- The outcomes of a tile run; `quarter` becomes `defer` where R241 forbids quartering. -/
inductive TileOut
  | done | quarter | defer
  deriving DecidableEq, Repr

/-- R256: the pending fills of a lane performed, in the order appended, each element in row-major order as a store of its own. -/
def State.performFills (s : State) (x : Ctx) (lane : Nat) (fills : List Fill) (g : Nat × Nat × Nat × Nat) : State :=
  fills.foldl (fun t f =>
    match t.resolve x .global .write anyLoc (fillWants lane f g) with
    | .error _ => t
    | .ok (ps, u) =>
      let elems := rangeElems g
      (elems.foldl (fun (u : State) e =>
        let a := fillAddr f.base f.off f.rs f.size e.1 e.2
        u.addOp x .store f.hint [lane] ((ps.filter fun p => decide (a ≤ p.va) && decide ((p.va : Int) < a + f.size)).mapIdx fun i p =>
            { p with grp := i, off := p.va - a.toNat }) [(lane, f.value.toNat % 2 ^ (8 * f.size))] []) u).onConvoy x.cur.col x.cur.cv
        fun v => v.stored elems.length ps) s

/-- R252: a lane's tile run ends with an outcome, and the lane exits. -/
def State.tileEnd (s : State) (x : Ctx) (lane : Nat) (o : TileOut) : State :=
  match s.convoy? x.cur.col x.cur.cv with
  | none => s
  | some v =>
    let l := v.lane lane
    let exit (t : State) : State := t.onConvoy x.cur.col x.cur.cv fun v =>
      v.onLane lane fun l => { l with live := false, tile := none, fills := [], edges := [] }
    let onLaunch (f : Launch → Launch) : State :=
      { s with launches := updateWhere (fun q => some q.id == x.c.launch) f s.launches }
    match l.tile with
    | none => exit s
    | some t =>
      match o with
      | .done => exit (s.performFills x lane l.fills (x.r.range t))
      | .quarter =>
        if x.r.mayQuarter t then
          exit (onLaunch fun q => { q with quarters := q.quarters ++ (x.r.quartersOf t).map fun c => (t.index, c) })
        else exit (onLaunch fun q => { q with deferred := q.deferred ++ [(q.round, t.index, t)] })
      | .defer => exit (onLaunch fun q => { q with deferred := q.deferred ++ [(q.round, t.index, t)] })

/-- Tile outcomes of several lanes. -/
def State.tileEnds (s : State) (x : Ctx) (lanes : List Nat) (o : TileOut) : State :=
  if lanes.isEmpty then s else (lanes.foldl (fun t l => t.tileEnd x l o) s).settle

/-- R251: a taken back-edge in a bounds lane; none when the tile ends with DEFER. -/
def Lane.backEdge (l : Lane) (pc : PC) : Option Lane :=
  let found := l.edges.find? (·.pc == pc)
  if found.isNone ∧ l.edges.length ≥ 4 then none
  else
    let e := found.getD { pc, count := 0, regs := [], preds := [] }
    let e := { e with count := e.count + 1 }
    let l := { l with edges := upsert (·.pc == pc) e l.edges }
    let l := if e.count = 5 then
        let w := e.regs.foldl (fun (m : BitVec 64) n => setFlag m n true)
        e.preds.foldl (fun l p => l.setPred p .und) { l with wide := w l.wide, mn := w l.mn }
      else l
    if e.count = 17 then none else some l

/-! ## Program counters, clauses and ports (R15 to R23) -/

/-- Lanes of the convoy that stand where others of its lanes, not of the same group, do have merged with them (R17). -/
def Convoy.joined (v : Convoy) (moved apart : List Nat) : List Nat :=
  let dests := moved.map fun i => (v.lane i).pc
  v.live.filter fun i => dests.contains (v.lane i).pc && !apart.contains i &&
    (v.live.any fun j => !apart.contains j && (v.lane j).pc == (v.lane i).pc && moved.contains j != moved.contains i)

/-- R15 to R17: the lanes of a group move; split bits are set by a branch to several counters and cleared at a branch, at a
branch-target slot reached in sequence, and at a merge. `apart` are the lanes of the other group that may move in the same cycle: what
they merge with is seen once they have had their turn. -/
def Convoy.move (v : Convoy) (group : List Nat) (target : Nat → PC) (branch : Bool) (btm : PC → Bool) (apart : List Nat) : Convoy :=
  let w := v.onLanes group fun i l => if l.live then { l with pc := target i } else l
  let moved := group.filter fun i => (w.lane i).live
  let dests := (moved.map fun i => (w.lane i).pc)
  let several := dests.any fun p => some p != dests.head?
  let u := w.onLanes moved fun _ l =>
    if branch then { l with split := several } else if btm l.pc then { l with split := false } else l
  u.onLanes (u.joined moved apart) fun _ l => { l with split := false }

/-- A counter of PERF advanced (R236). -/
def Convoy.count (v : Convoy) (k n : Nat) : Convoy :=
  { v with perf := insertD 0 v.perf k (lookupD 0 v.perf k + BitVec.ofNat 32 n) }

/-- Holds whose group is gone, and second holds of one group, are dropped. -/
def State.pruneHolds (s : State) : State :=
  { s with holds := s.holds.foldl (fun hs h =>
      let alive := match s.convoy? h.col h.cv with
        | some v => !(v.lanesAt h.pc).isEmpty
        | none => false
      if alive && !(hs.any fun k => k.col == h.col && k.cv == h.cv && k.pc == h.pc) then hs ++ [h] else hs) [] }

/-- The hold of the group that issues: that of the cycle's plan for a second candidate. -/
def State.hold? (s : State) (x : Ctx) : Option PortHold :=
  match x.cur.plan with
  | some m => m.hold
  | none => s.holds.find? fun h => h.col == x.cur.col && h.cv == x.cur.cv && h.pc == x.pc

/-- The clause of the group that issues: the running one, or a new one. -/
def State.clause (s : State) (x : Ctx) : PortHold :=
  (s.hold? x).getD { quad := x.v.quad, col := x.cur.col, cv := x.cur.cv, pc := x.pc, start := s.now, len := 0 }

/-- The ports without the clause of the group that issues. -/
def State.otherHolds (s : State) (x : Ctx) : List PortHold :=
  match s.hold? x with
  | some h => s.holds.erase h
  | none => s.holds

/-- R21, R23: a convoy whose clause ends, with the live-register count of the word that ends it, or 128. -/
def Convoy.endClause (v : Convoy) (now : Nat) (h : Option Hdr) : Convoy :=
  { v with
    lastClause := now
    liveCount := match h with
      | some h => if h.ce ∧ h.live.toNat < 127 then h.live.toNat else 128
      | none => 128 }

/-- R21, R23: the clause after one more instruction: it ends, with its live-register count, or runs on at the next slot. It ends too where
another group has descheduled the convoy in the same cycle, since such a convoy holds no port (R26). -/
def State.stepClause (s : State) (x : Ctx) (final : Bool) : State :=
  let h := s.clause x
  let ends := final || x.h.ce || h.len + 1 ≥ 24 || s.targetOk x.core x.c.part x.c.prog (nextPc x.pc) || x.v.wait.isSome
  let t := s.onConvoy x.cur.col x.cur.cv fun v =>
    let v := (if h.len = 0 then v.count 0 1 else v).count 1 1
    let v := { v with firstIssue := some (v.firstIssue.getD s.now) }
    if ends then v.endClause s.now (some x.h) else v
  { t with holds := if ends then s.otherHolds x else s.otherHolds x ++ [{ h with pc := nextPc x.pc, len := h.len + 1 }] }

/-- R22: the clause keeps its port while its instruction stalls; a convoy that another group has descheduled in the same cycle holds no
port (R26). -/
def State.keepClause (s : State) (x : Ctx) : State :=
  let t := s.onConvoy x.cur.col x.cur.cv fun v => v.count 2 1
  { t with holds := if x.v.wait.isSome then s.otherHolds x else s.otherHolds x ++ [s.clause x] }

/-- The clause of a group ends without its instruction having completed (a fault). The instruction may issue again, replayed or after
the handler, and its sources are still needed: all registers are live (R21, R27; log 67). -/
def State.dropClause (s : State) (x : Ctx) : State :=
  { s.onConvoy x.cur.col x.cur.cv fun v => v.endClause s.now none with holds := s.otherHolds x }

/-! ## Registers and resources an instruction names (R20, R24) -/

/-- Format slot `n` of the route, well formed and of an accepted format (R45). -/
def Ctx.fslot (x : Ctx) (n : Nat) (accepted : List Fmt) : Option FSlot :=
  match x.r.slots[n]? with
  | some w => readSlot w.1 w.2 accepted
  | none => none

/-- R167: formats of LDB. -/
def ldbFmts : List Fmt := [.f8e4, .f8e5, .f6e3, .f6e2, .f4, .cb4, .i8, .i4, .i2, .b1]

/-- R192: formats of slot A and slot B. -/
def mmaFloat : List Fmt := [.f16, .bf16, .f8e4, .f8e5, .f6e3, .f6e2, .f4]

/-- R192: the integer formats. -/
def mmaInt : List Fmt := [.i16, .n16, .i8, .n8, .i4, .i2, .b1]

/-- SLOT of LDB, QNT and DQNT. -/
def slotOf (ent : Nat) : Nat := bitsOf ent 0 3

/-- Bytes of a packed block (R167). -/
def blockBytes (t : FSlot) : Nat := t.block * t.efmt.width / 8

/-- R167: registers LDB writes, scale included. -/
def blockRegs (t : FSlot) : Nat := (blockBytes t + 3) / 4 + (if t.e8 then 1 else 0)

/-- R167: registers LDB would write for the largest block of the slot's format. -/
def mostRegs (t : FSlot) : Nat := ((if t.e8 then 64 else 16) * t.efmt.width / 8 + 3) / 4 + (if t.e8 then 1 else 0)

/-- Lane registers that an instruction names beside its operand fields. -/
def Ctx.hiddenRegs (x : Ctx) : Instr → List Nat
  | .ldb f => match f.a, x.fslot (slotOf f.ent.toNat) ldbFmts with
    | .v n, some t => (List.range (mostRegs t)).map (· + n.toNat)
    | _, _ => []
  | .plst f | .acrd f | .acwr f => [f.reg.toNat]
  | _ => []

/-- Lane registers that an instruction names. -/
def Ctx.laneRegs (x : Ctx) (i : Instr) : List Nat :=
  (i.slots.flatMap fun t => operandRegs false t.o t.n) ++ x.hiddenRegs i

/-- Lane registers that an instruction reads. -/
def readRegs (i : Instr) : List Nat :=
  (i.slots.flatMap fun t => if t.isSrc then operandRegs false t.o t.n else []) ++
  match i with
  | .plst f | .acwr f => [f.reg.toNat]
  | _ => []

/-- Uniform registers of a list of operand fields. -/
def uniRegs (xs : List Slot) : List Nat := xs.flatMap fun t => match t.o with
  | .s n => (List.range t.n).map (· + n.toNat)
  | _ => []

/-- Uniform registers an instruction writes. -/
def uniSets (i : Instr) : List Nat :=
  uniRegs (i.slots.filter (·.isDst)) ++ match i with
  | .loop f => uniRegs [⟨f.b, .uni, 1⟩]
  | _ => []

/-- Uniform registers an instruction reads. -/
def uniUses (i : Instr) : List Nat :=
  uniRegs (i.slots.filter (·.isSrc)) ++ match i with
  | .barw f | .baraw f | .waita f => [f.wreg, f.wreg + 1]
  | .ldb f => [bitsOf f.ent.toNat 3 6, bitsOf f.ent.toNat 3 6 + 1]
  | _ => []

/-- The opcode of an instruction word (R118). -/
def opcodeOf (i : Instr) : Nat := (i.form.map (·.1)).getD 0x3FF

/-- The read ports named as sources, or the write port named as destination. -/
def portsOf (i : Instr) (write : Bool) : List Nat :=
  (i.slots.filterMap fun t => match t.o with
    | .q n => if t.role == .readPort || t.role == .writePort then none else if decide (2 ≤ n.toNat) == write then some n.toNat else none
    | _ => none).dedup

/-- R20: the banks of the lane registers an instruction reads or writes; LDB writes those of its block. -/
def Ctx.banks (x : Ctx) (i : Instr) : List Nat :=
  ((match i with
    | .ldb f => (i.slots.flatMap fun (t : Slot) => operandRegs false t.o t.n) ++ match f.a, x.fslot (slotOf f.ent.toNat) ldbFmts with
      | .v n, some t => (List.range (blockRegs t)).map (· + n.toNat)
      | _, _ => []
    | _ => x.laneRegs i).map (· % 4)).dedup

/-- R20: the resources an instruction needs: banks 0 to 3, special-function unit 4, engine ports 5 matrix, 6 load, 7 store,
8 copy. -/
def Ctx.needs (x : Ctx) (i : Instr) : List Nat :=
  let o := opcodeOf i
  x.banks i ++
  (if o ∈ [0x089, 0x08A, 0x08B, 0x0C5, 0x0C6, 0x0C7, 0x0C8, 0x0C9, 0x091, 0x0CA, 0x0CB, 0x0CC] then [4] else []) ++
  (if o / 64 = 8 then [5] else []) ++
  (if o ∈ [0x140, 0x142, 0x144, 0x146, 0x147, 0x148] || o / 64 == 6 || !(portsOf i false).isEmpty then [6] else []) ++
  (if o ∈ [0x141, 0x143, 0x145, 0x149] || !(portsOf i true).isEmpty then [7] else []) ++
  (if o / 64 = 9 ∨ o = 0x2C0 then [8] else [])

/-! ## Checks (R120) -/

/-- R247: allowed in a bounds-pass column. -/
def boundsOk (i : Instr) : Bool :=
  let o := opcodeOf i
  let noPort := i.slots.all fun t => match t.o with
    | .q _ => false
    | _ => true
  noPort &&
  match o / 64 with
  | 0 | 1 | 2 | 3 | 4 | 10 | 12 => true
  | 5 => o ∈ [0x140, 0x142, 0x144, 0x146, 0x147]
  | 7 => o ∈ [0x1C0, 0x1C6, 0x1C8]
  | 11 => o ∈ [0x2C1, 0x2C5, 0x2C6]
  | 13 => o != 0x344
  | _ => false

/-- R18, R229: instructions that need a full mask. -/
def needsFull (i : Instr) : Bool := opcodeOf i ∈ [0x200, 0x201, 0x240, 0x241, 0x242, 0x243, 0x2C5, 0x2C6]

/-- Row 5 of R120: the named slots are malformed or not accepted, or their companions disagree (R155, R157, R167, R192 to R195). -/
def Ctx.slotBad (x : Ctx) (i : Instr) : Bool :=
  let cb (t : FSlot) (n : Nat) : Bool := t.efmt == .cb4 && (x.v.books.lookup n).isNone
  let mma (f : XForm) : Bool :=
    match x.fslot f.slotA.toNat (mmaFloat ++ [.cb4] ++ mmaInt), x.fslot f.slotB.toNat (mmaFloat ++ mmaInt) with
    | some a, some b =>
      mmaInt.contains a.efmt != mmaInt.contains b.efmt || (f.isat && !mmaInt.contains a.efmt) || cb a f.slotA.toNat ||
      a.e8 == (f.d == .none) || b.e8 == (f.e == .none)
    | _, _ => true
  match i with
  | .qnt f =>
    let n := slotOf f.ent.toNat
    match x.fslot n (if f.subop = 0 then Fmt.narrow else Fmt.micro) with
    | some t => (f.subop != 0 && !t.e8) || cb t n
    | none => true
  | .dqnt f =>
    let n := slotOf f.ent.toNat
    match x.fslot n Fmt.narrow with
    | some t => cb t n
    | none => true
  | .ldb f => (x.fslot (slotOf f.ent.toNat) ldbFmts).isNone
  | .mma f | .mmat f => mma f
  | .plst f => (x.fslot f.slotA.toNat Fmt.plane).isNone
  | .cbld f => (x.fslot f.slotA.toNat [.cb4]).isNone
  | _ => false

/-- Checks of R155 and R167 against the slot that give OPERAND_RESERVED: the position, an operand C without a scale, SREG. -/
def Ctx.slotOperandBad (x : Ctx) (i : Instr) : Bool :=
  let q (f : RForm) : Bool :=
    match x.fslot (slotOf f.ent.toNat) Fmt.narrow with
    | some t => bitsOf f.ent.toNat 3 5 ≥ t.efmt.positions || (!t.e8 && f.c != .none)
    | none => false
  match i with
  | .qnt f => if f.subop = 0 then q f else bitsOf f.ent.toNat 3 5 != 0
  | .dqnt f => q f
  | .ldb f => match x.fslot (slotOf f.ent.toNat) ldbFmts with
    | some t => let r := bitsOf f.ent.toNat 3 6; if t.e8 then r % 2 == 1 else r != 0
    | none => false
  | _ => false

/-- R18: every live lane is in the group with its guards true; a bounds lane with undecided guards does not count, since its tile
ends at the instruction (R248; log 7). -/
def Ctx.fullMask (x : Ctx) : Bool := x.v.live == x.group && x.group.all fun i => x.act.contains i || x.und.contains i

/-- Rows 1 to 6 of R120, and R76: the code of the first check that fails. -/
def Ctx.refuses (x : Ctx) (i : Instr) : Option (BitVec 16) :=
  let ldb := match i with
    | .ldb _ => x.slotOperandBad i
    | _ => false
  if !i.operandsOk || (x.laneRegs i).any (x.r.nregs ≤ ·) || ldb then some cOperand
  else if !i.targetOk then some cBranch
  else if x.bounds && !boundsOk i then some cBounds
  else if x.slotBad i then some cSlot
  else if x.slotOperandBad i then some cOperand
  else if needsFull i && !x.fullMask then some cPartial
  else if !x.act.isEmpty && (portsOf i false ++ portsOf i true).any fun q => (x.v.port? q).isNone then some cOperand
  else none

/-! ## Stalls (R22, R93) -/

/-- The counter of R93 that an instruction increments. -/
inductive Counter
  | loads | stores | copies | tiles
  deriving DecidableEq, Repr

/-- R93: the counters an instruction counts in; a load to a write port is a load, and its pushes are stores. -/
def countersOf (i : Instr) : List Counter :=
  let o := opcodeOf i
  (if o ∈ [0x140, 0x142, 0x144, 0x146, 0x208, 0x244] then [.loads] else []) ++
  (if o ∈ [0x141, 0x143, 0x145, 0x301, 0x246, 0x247] || o / 64 == 6 || !(portsOf i true).isEmpty then [.stores] else []) ++
  (if o ∈ [0x240, 0x241, 0x242, 0x243, 0x2C0] then [.copies] else []) ++
  (if o ∈ [0x200, 0x201, 0x202, 0x203, 0x204, 0x205, 0x207] then [.tiles] else [])

/-- A counter's value. -/
def Convoy.counter (v : Convoy) : Counter → Nat
  | .loads => v.loads
  | .stores => v.stores
  | .copies => v.copies
  | .tiles => v.tileOps

/-- Registers a load or atomic will write. -/
def OpKind.dst? : OpKind → Option (Operand × Nat)
  | .load (.plain n _) a => some (a, (n + 3) / 4)
  | .load (.widen _) a => some (a, 1)
  | .load (.block n sc) a => some (a, (n + 3) / 4 + (if sc then 1 else 0))
  | .load (.summary ..) a => some (a, 1)
  | .atomic _ _ n (some a) => some (a, (n + 3) / 4)
  | _ => none

/-- A pending operation has still to write a register that the instruction names, in a lane of the group; or it is a bounds load whose
destination is uniform, at which the group's lanes may end their tiles (R250). -/
def Op.blocks (o : Op) (x : Ctx) (i : Instr) : Bool :=
  o.col == x.cur.col && o.cv == x.cur.cv && !o.pieces.isEmpty &&
  ((match o.kind with
    | .load (.summary ..) (.s _) => o.aux.any fun m => x.group.contains m.1
    | _ => false) ||
  match o.kind.dst? with
  | some (.v n, k) => (o.lanes.any x.group.contains) && (x.laneRegs i).any fun r => n.toNat ≤ r && r < n.toNat + k
  | some (.s n, k) => (uniUses i ++ uniSets i).any fun r => n.toNat ≤ r && r < n.toNat + k
  | _ => false)

/-- R88: a FENCE of another group of the convoy waits: what issues meanwhile would count as later. -/
def Convoy.fenced (v : Convoy) (pc : PC) : Bool := v.fencing.any fun p => p != pc && !(v.lanesAt p).isEmpty

/-- The instruction may deschedule its convoy (R26). -/
def maySuspend : Instr → Bool
  | .barw _ | .baraw _ | .waita _ | .waitc _ | .nap _ | .qrd _ | .qwr _ | .emit _ | .callo _ | .fwcall _ | .sign _ | .mma _ | .mmat _ => true
  | _ => false

/-- R75: the buffer of a write port is full: more elements wait in it than the unit buffers. -/
def State.portFull (s : State) (x : Ctx) (q : Nat) : Bool :=
  decide (Config.pushBuffer < (s.ops.filter fun o => o.col == x.cur.col && o.cv == x.cur.cv && !o.pieces.isEmpty && match o.kind with
    | .push n .. => n == q
    | _ => false).length)

/-- R22: the operands are not ready, the counter stands at 63 (R93), a FENCE holds the convoy, or the instruction may deschedule a convoy
that another group has descheduled in the same cycle: a convoy has one wait record (R314). -/
def State.notReady (s : State) (x : Ctx) (i : Instr) : Bool :=
  x.v.fenced x.pc || (x.v.wait.isSome && maySuspend i) ||
  (s.ops.any fun o => o.blocks x i) ||
  ((countersOf i).any fun k => decide (63 ≤ x.v.counter k)) || ((portsOf i true).any (s.portFull x)) ||
  (match i with
   | .qnt f | .dqnt f => match x.v.books.lookup (slotOf f.ent.toNat), x.fslot (slotOf f.ent.toNat) Fmt.narrow with
     | some b, some t => t.efmt == .cb4 && !b.ready
     | _, _ => false
   | _ => false)

/-- The instruction reads a lane register: in a bounds pass with its companion, and in the undecided lanes too. -/
def Ctx.readsReg (x : Ctx) (i : Instr) (col cv l n : Nat) : Bool :=
  col == x.cur.col && cv == x.cur.cv && (x.act ++ x.und).contains l &&
  (readRegs i).any fun r => n == r || (x.bounds && n == r + 64)

/-- R327: the instruction reads one of the lane registers in 64 bits of a register file. -/
def Ctx.readsEcc (x : Ctx) (i : Instr) : EccWord → Bool
  | .reg col cv pair n => x.readsReg i col cv (2 * pair) n || x.readsReg i col cv (2 * pair + 1) n
  | _ => false

/-- R330: a lane register that the instruction reads holds poison, or a flipped bit that nothing has read yet. -/
def State.poisonedReg (s : State) (x : Ctx) (i : Instr) : Bool :=
  s.coh.poison.any fun p => match p with
    | .reg col cv l n => x.readsReg i col cv l n
    | _ => (p.unread).any (x.readsEcc i)

/-- R327: the instruction reads 64 bits of a register file with a flipped bit that nothing has read yet. -/
def State.unreadReg (s : State) (x : Ctx) (i : Instr) : Bool := (s.coh.poison.filterMap PoisonAt.unread).any (x.readsEcc i)

/-- Why an instruction does not pop: an element is not buffered yet, or one could not be fetched (R74). -/
inductive PopStop
  | empty
  | bad
  deriving DecidableEq, Repr

/-- R74: the elements popped by port and lane; the convoy with its ports advanced. -/
def Ctx.popAll (x : Ctx) : List Nat → Except PopStop Ctx
  | [] => .ok x
  | q :: qs =>
    match x.v.port? q with
    | none => x.popAll qs
    | some p => match p.elements x.act with
      | none => .error .empty
      | some xs =>
        let vs := fetchedValues xs
        let pos := p.pos + x.act.length
        match ({ x with v := x.v.setPort q { p with pos, buf := p.buf.filter (pos ≤ ·.1) }, pops := (q, vs) :: x.pops }).popAll qs with
        | .ok y => if vs.length = xs.length then .ok y else .error .bad
        | e => e

/-- R67, R74: the lowest lane whose element could not be fetched, and the failure. -/
def Ctx.popFault (x : Ctx) (qs : List Nat) : Option (Nat × Bad) :=
  x.act.zipIdx.findSome? fun lk => qs.findSome? fun q => match (x.v.port? q).bind fun p => p.element (p.pos + lk.2) with
    | some (.bad c a) => some (lk.1, ⟨c, a, engineRead⟩)
    | _ => none

/-- The values that the ports hold for the lanes, whatever failed. -/
def Ctx.popped (x : Ctx) (qs : List Nat) : Ctx :=
  { x with pops := qs.filterMap fun q => (x.v.port? q).map fun p =>
      (q, x.act.zipIdx.filterMap fun lk => match p.element (p.pos + lk.2) with
        | some (.value w) => some (lk.1, w)
        | _ => none) }

/-- The lanes below one. -/
def Ctx.below (x : Ctx) (l : Nat) : Ctx := { x with act := x.act.filter (· < l), und := x.und.filter (· < l) }

/-- R67: the address of a lane's access is known: it needs no element that could not be fetched. -/
def Ctx.addressed (x : Ctx) (f : MForm) (l : Nat) : Bool :=
  match f.c with
  | .q n => ((x.pops.lookup n.toNat).getD []).any (·.1 == l)
  | _ => true

/-- The form of an atomic. -/
def atomicForm? : Instr → Option MForm
  | .atadd f | .ataddf f | .atmin f | .atmax f | .atand f | .ator f | .atxor f | .atxch f | .atcas f | .atinc f => some f
  | _ => none

/-- R67: the lowest lane in which an atomic is misaligned, which comes before anything is probed. -/
def Ctx.misaligned (x : Ctx) (i : Instr) : Option Bad :=
  match atomicForm? i with
  | none => none
  | some f => (x.act.find? fun l => x.addressed f l && x.ea f l % f.size.bytes ≠ 0).map fun l => ⟨cMisaligned, BitVec.ofInt 64 (x.ea f l), 4⟩

/-! ## Issue -/

/-- What the execution of an instruction gives. -/
inductive Effect
  /-- It has its effect; the group moves to the next slot. -/
  | next (s : State)
  /-- A branch-class instruction: the lanes listed move to their targets, the others of the group to the next slot. -/
  | jump (s : State) (taken : List (Nat × PC))
  /-- Its effect, and its clause ends (YIELD, a wait that returns at once). -/
  | last (s : State)
  /-- It cannot complete yet: the clause keeps its port. -/
  | stall (s : State)
  /-- The convoy is descheduled at the instruction (R26). -/
  | wait (s : State) (kind : WaitKind) (deadline : Option Nat)
  /-- SignalFault over what the entry performed before: the lanes of F. -/
  | fault (s : State) (F : List Nat) (b : Bad)

/-- R104: the lowest target that is not legal. -/
def State.badTarget (s : State) (x : Ctx) (ts : List PC) : Option PC :=
  (ts.filter fun t => !s.targetOk x.core x.c.part x.c.prog t).foldl (fun (o : Option PC) t => match o with
    | none => some t
    | some u => some (if t < u then t else u)) none

/-- A fault of the whole group at an address. -/
def Ctx.fail (x : Ctx) (s : State) (code : BitVec 16) (addr : Nat) (access : Nat := 0) : Effect :=
  .fault s x.group ⟨code, BitVec.ofNat 64 addr, access⟩

/-- R327, R330: an instruction reads pieces of which one is poisoned: flipped bits are first corrected or found uncorrectable, and the
instruction issues again; poison is consumed. -/
def Ctx.readsPoison (x : Ctx) (t : State) (ps : List Piece) (addr access : Nat) : Effect :=
  if ps.any t.unread then .stall (ps.foldl (fun (u : State) p => u.checkBytes x.c.part p.loc p.addr p.n) t)
  else x.fail t cUncorrectable addr access

/-- R104, R220: the taken targets are checked before any lane moves. -/
def Ctx.branch (x : Ctx) (s : State) (taken : List (Nat × PC)) (t : State) : Effect :=
  match s.badTarget x (taken.map (·.2)) with
  | some p => x.fail s cBranch p.toNat
  | none => .jump t taken

/-- R251: taken back-edges in the lanes of a bounds pass. -/
def State.backEdges (s : State) (x : Ctx) (taken : List (Nat × PC)) : State :=
  if !x.bounds then s
  else taken.foldl (fun t lt =>
    if pcHandle lt.2 = pcHandle x.pc ∧ lt.2 ≤ x.pc then
      match (t.convoy? x.cur.col x.cur.cv).bind fun v => (v.lane lt.1).backEdge x.pc with
      | some l => t.onConvoy x.cur.col x.cur.cv fun v => v.onLane lt.1 fun _ => l
      | none => t.tileEnd x lt.1 .defer
    else t) s

/-- The lanes of the other group of the convoy that has its turn later in this cycle. -/
def Ctx.apart (x : Ctx) : List Nat :=
  match x.cur.mate with
  | some m => if m.col == x.cur.col && m.cv == x.cur.cv then m.lanes else []
  | none => []

/-- The group's lanes moved, and the convoy's end seen. -/
def State.moveGroup (s : State) (x : Ctx) (taken : List (Nat × PC)) (branch : Bool) : State :=
  let t := s.backEdges x taken
  (t.onConvoy x.cur.col x.cur.cv fun v =>
      v.move x.group (fun i => (taken.lookup i).getD (nextPc x.pc)) branch (t.targetOk x.core x.c.part x.c.prog) x.apart).checkEnd
    x.cur.col x.cur.cv

/-- The group's candidate of this cycle recorded (R19, R20), and the issue over. -/
def State.closeIssue (s : State) (x : Ctx) (i : Instr) (stalled pairOk : Bool) : State :=
  { s with
    cur := none
    holds := if x.cur.mate.isSome then s.holds else s.pruneHolds.holds
    issued := s.issued ++ [{ quad := x.v.quad, col := x.cur.col, cv := x.cur.cv, part := x.c.part, prog := x.c.prog, stalled, pairOk,
                             needs := x.needs i, uses := uniUses i, sets := uniSets i, mate := x.cur.mate }] }

/-- The convoy descheduled (R26, R314). -/
def Convoy.deschedule (v : Convoy) (x : Ctx) (kind : WaitKind) (deadline : Option Nat) : Convoy :=
  { v with fencing := none, wait := some { kind, pc := x.pc, group := x.group, active := x.act, deadline, err := none, met := false, since := none } }

/-- R322, R329: a fault that a walk ended in leaves the entries that it read checked and leased. -/
def State.walkFault (s : State) (x : Ctx) (b : Bad) : State :=
  let via : Via := if b.access = 8 then ⟨x.core, none⟩ else x.via
  let va := b.addr.toNat
  match s.leafFor via x.c.part x.r.ctx (some x.c.epoch) va with
  | .error code => if code = b.code then s.touched via x.c.part x.r.ctx (some x.c.epoch) va else s
  | .ok _ => s

/-- R121: the fault of an issue: at once, or with the cycle's end where another group of the column issues in the same cycle. -/
def State.raise (s₀ : State) (x : Ctx) (F : List Nat) (b : Bad) : State :=
  let s := s₀.walkFault x b
  if (x.cur.mate.any fun m => m.col == x.cur.col) || s.raised.any (·.col == x.cur.col) then
    { s with raised := s.raised ++ [{ col := x.cur.col, cv := x.cur.cv, pc := x.pc, lanes := F, code := b.code, addr := b.addr,
                                      access := b.access }] }
  else s.signal x.cur.col x.cur.cv x.pc F b.code b.addr b.access

/-- The read ports as they were: an instruction that faults or stalls has popped nothing (R74, R120). -/
def State.unpop (s : State) (x : Ctx) : State := s.onConvoy x.cur.col x.cur.cv fun v => { v with ports := x.v.ports }

/-- What an effect leaves: lanes moved, the clause stepped or ended, faults delivered. -/
def Ctx.conclude (x : Ctx) (i : Instr) (s : State) (e : Effect) : State :=
  let pairOk := s.pairEnabled x.core x.c.part x.c.prog x.pc
  match e with
  | .next t => ((t.stepClause x false).moveGroup x [] false).closeIssue x i false pairOk
  | .jump t taken => (((t.stepClause x true).moveGroup x taken true).closeIssue x i false pairOk).settle
  | .last t => ((t.stepClause x true).moveGroup x [] false).closeIssue x i false pairOk
  | .stall t => ((t.unpop x).keepClause x).closeIssue x i true pairOk
  | .wait t kind deadline =>
    (((t.stepClause x true).onConvoy x.cur.col x.cur.cv fun v => v.deschedule x kind deadline).releasePorts x.cur.col x.cur.cv).closeIssue
      x i false pairOk
  | .fault t F b => (((t.unpop x).dropClause x).raise x F b).closeIssue x i false pairOk

/-- R67, R74: an element that the instruction would pop could not be fetched. Misaligned atomics come first, then the failures of lower lanes.
The element stays in the buffer as it was read (DESIGN CHOICE; log 90). -/
def Ctx.popFails (x : Ctx) (i : Instr) (s : State) (body : Ctx → State → Effect) : Effect :=
  let y := x.popped (portsOf i false)
  match y.misaligned i, x.popFault (portsOf i false) with
  | some b, _ => .fault s x.group b
  | none, none => .stall s
  | none, some (l, b) => match body (y.below l) s with
    | .fault _ F c => .fault s F c
    | _ => .fault s x.group b

/-- R120, R22, R74: the checks, stalls and pops before an instruction's own effect. -/
def Ctx.run (x : Ctx) (i : Instr) (s : State) (body : Ctx → State → Effect) : Effect :=
  match x.refuses i with
  | some code => x.fail s code x.pc.toNat
  | none =>
    if s.notReady x i then .stall s
    else if s.poisonedReg x i then
      -- flipped bits are first corrected or found uncorrectable, and the instruction issues again
      if s.unreadReg x i then .stall (s.readEccs x.c.part (x.readsEcc i)) else x.fail s cUncorrectable 0 1
    else match x.popAll (portsOf i false) with
      | .error .empty => .stall s
      | .error .bad => x.popFails i s body
      | .ok y => body y (s.put y y.v)

/-- The issue of one instruction by the group that `State.cur` names (R120). -/
def issue (i : Instr) (h : Hdr) (body : Ctx → State → Effect) (s : State) : Host.Outcome State Fault Refusal :=
  match s.ctx h with
  | none => .fault .noIssuingGroup
  | some x => .next (x.conclude i s (x.run i s body))

/-! ## Results -/

/-- The convoy with a register written and the undo log kept (R331). -/
def State.putRegs (s : State) (x : Ctx) (o : Operand) (k : Nat) (v : Convoy) : State :=
  let regs := if (x.act ++ x.und).isEmpty then [] else operandRegs x.bounds o k
  let t := (s.logRegs x.cur.col x.cur.cv regs).put x v
  { t with coh := { t.coh with poison := t.coh.poison.filter (!·.inRegs x.cur.col x.cur.cv x.act regs) } }

/-- A result of `k` registers written to any destination (R109, R111): registers, a write port, or nowhere. A write of a uniform
register is no write of a lane register: under undecided guards it ends the lane's tile (R248). -/
def Ctx.retire (x : Ctx) (s : State) (o : Operand) (k : Nat) (kind : ResKind) (val : Nat → IVal) : Effect :=
  match o with
  | .q n => match s.push x n.toNat (some fun l => (val l).lo) none with
    | .error b => .fault s x.group b
    | .ok (t, v) => .next (t.put x v)
  | .s _ => .next ((s.putRegs x o k (x.writeReg o k kind val)).tileEnds x x.und .quarter)
  | _ => .next (s.putRegs x o k (x.writeReg o k kind val))

/-- R111: a uniform register is written only when a lane of the group is active; in the lanes the value of each. -/
def issueAlu (i : Instr) (h : Hdr) (a : Operand) (k : Nat) (srcs : List (Operand × Nat)) (op : Alu) (s : State) :
    Host.Outcome State Fault Refusal :=
  issue i h (fun x t => x.retire t a k op.kind fun l => op.eval (srcs.map fun o => x.read l o.1 o.2)) s

/-- An instruction that writes a predicate in each active lane. -/
def issuePred (i : Instr) (h : Hdr) (a : Operand) (val : Ctx → Nat → Tri) (s : State) : Host.Outcome State Fault Refusal :=
  issue i h (fun x t => .next (t.put x (x.writePred a (val x)))) s

/-- R248: lanes whose guards are undecided end their tiles; the rest of the group goes on. -/
def Ctx.settleUnd (x : Ctx) (s : State) : State := s.tileEnds x x.und .quarter

/-- R248: a class in which undecided guards act as decided true. -/
def Ctx.asTrue (x : Ctx) : Ctx :=
  { x with act := x.group.filter fun i => x.act.contains i || x.und.contains i, und := [] }

/-- A result where undecided guards end the lane's tile (R248: groups other than the arithmetic ones and the loads). -/
def Ctx.retireU (x : Ctx) (s : State) (o : Operand) (k : Nat) (val : Nat → IVal) : Effect :=
  match { x with und := [] }.retire s o k (.bits (k == 2) false) val with
  | .next t => .next (x.settleUnd t)
  | e => e

/-! ## Waits (R26, R187, R188) -/

/-- WAITA's comparison (R188). -/
def waitaHolds (cmp : Nat) (w v : Nat) : Bool :=
  match cmp with
  | 0 => w == v
  | 1 => w != v
  | 2 => decide (v ≤ w)
  | _ => decide (w < v)

/-- PHASE of a barrier object (R185). -/
def objPhase (o : Nat) : Nat := bitsOf o 32 4

/-- R187, R188: after a write to scratchpad, the condition of every waiting convoy whose banks are its column's is tested. -/
def State.notice (s : State) : State :=
  { s with cols := s.cols.map fun c => if c.banksOut then c else { c with cvs := c.cvs.map fun v =>
      match v.wait with
      | some w =>
        let met := match w.kind with
          | .barrier off ph _ => objPhase (s.spadNum c.banks off 16) != ph
          | .waita off cmp value _ => waitaHolds cmp (s.spadNum c.banks off 4) value.toNat
          | _ => false
        if met then { v with wait := some { w with met := true } } else v
      | none => v } }

/-! ## Fences (R87) -/

/-- R87: the pending operations of a convoy are bound or have arrived. -/
def State.opsDrained (s : State) (col cv : Nat) : Bool :=
  s.ops.all fun o => !(o.col == col && o.cv == cv) || o.kind == .posted || o.pieces.isEmpty

/-- R87: the completion times that the arrived accesses of a convoy return have passed, those still on their way among them. -/
def State.opsComplete (s : State) (x : Ctx) : Bool :=
  (s.ops.all fun o => !(o.col == x.cur.col && o.cv == x.cur.cv) || o.kind == .posted || decide (o.comp ≤ s.now)) &&
  decide (x.v.ctdev ≤ s.now)

/-- R360: the causeways on which a store or atomic of a peer is performed and not yet acknowledged. -/
def Op.peers (o : Op) : List Nat := if o.kind = .plst then [] else (o.aux.map (·.1)).filterMap fun k => if 64 ≤ k then some (k - 64) else none

/-- R87: no host or peer access of a convoy waits for its acknowledgement, and no zero-length read is on its way. -/
def State.opsAcked (s : State) (col cv : Nat) : Bool :=
  s.ops.all fun o => !(o.col == col && o.cv == cv) || (o.kind != .zeroRead && o.peers.isEmpty)

/-- R87, R96: the earlier loads and atomics of a convoy are bound, its stores and pushes have arrived, those of ACLD and ACST among them. -/
def State.drained (s : State) (col cv : Nat) : Bool :=
  s.opsDrained col cv && !(s.eng.mx.any fun e => e.col == col && e.cv == cv && decide (0 < e.left) && e.work.rows.isSome)

/-- The wait of FENCE.col and FENCE.dev (R87). -/
def State.fenceDev (s : State) (x : Ctx) : Bool := s.drained x.cur.col x.cur.cv && s.opsComplete x

/-- R184, R278: the wait of FENCE.col that SIGN performs, which waits for no tile operation (DEDUCED; log 28). -/
def State.fenceSign (s : State) (x : Ctx) : Bool := s.opsDrained x.cur.col x.cur.cv && s.opsComplete x

/-- R82: an access of the convoy that is made now would pass posted host writes of it: a read passes none, a write none under HOSTORD 0. -/
def State.passesPosted (s : State) (col cv : Nat) (reads writes : List Piece) : Bool :=
  s.ops.any fun o => o.kind == .posted && o.col == col && o.cv == cv &&
    (reads.any (·.loc.isHost) || (writes.any (·.loc.isHost) && o.pieces.any (·.loc == .host false)))

/-- The unread read-ahead of the bound read ports discarded. -/
def Convoy.emptied (v : Convoy) : Convoy :=
  { v with ports := v.ports.map fun qp => if qp.1 < 2 then (qp.1, { qp.2 with buf := [] }) else qp }

/-- R94, R97: the unread read-ahead of the bound read ports discarded; every later access sees the convoy's arrivals. -/
def Convoy.discard (v : Convoy) : Convoy := { v.emptied with arrived := [] }

end Sys2Proof.Machine
end

