-- ==== Sys2Proof/Machine/Control.lean ====
section
/-!
DEFINITION. Control flow (R220 to R223), the software traps (R232) and the return from a trap (R233), calls into overlays (R228) and
returns from them (R229).
-/

namespace Sys2Proof.Machine

/-- The fixed target of a B-format word: line and slot in a handle (R116). -/
def BForm.target (f : BForm) (handle : Nat) : PC := mkPc handle f.tline.toNat f.tslot.toNat

/-- R221: the lanes that are active go to one target. -/
def Ctx.toTarget (x : Ctx) (p : PC) : List (Nat × PC) := x.act.map fun l => (l, p)

/-- BRA (R221, R249). -/
def execBra (f : BForm) (s : State) : Host.Outcome State Fault Refusal :=
  issue (.bra f) f.h (fun x t => x.branch t (x.toTarget (BForm.target f (pcHandle x.pc))) (x.settleUnd t)) s

/-- The 16-bit table entry of BRX for an index: its piece, before probing (R222). -/
def brxWant (base : Nat) (l i : Nat) : Want := ⟨l, ((base + 2 * i : Nat) : Int), 2, 0⟩

/-- BRX (R222, R249): the active lanes whose index lies in the table go to their entries. -/
def execBrx (f : BForm) (s : State) : Host.Outcome State Fault Refusal :=
  issue (.brx f) f.h (fun x t =>
    let base := x.uni f.b
    let n := bitsOf f.ent.toNat 0 10 + 1
    let open_ := x.act.filter fun l => x.bounds && !(x.read l f.d).isPoint
    let used := (x.act.filter fun l => !open_.contains l).filterMap fun l =>
      let i := signedOf 32 (x.read l f.d).lo
      if 0 ≤ i ∧ i < n then some (l, i.toNat) else none
    if base % 2 = 1 ∧ !x.act.isEmpty then x.fail t cProtection base 1
    else match t.resolve x .scratch .read anyLoc (used.map fun li => brxWant base li.1 li.2) with
      | .error b => .fault t x.group b
      | .ok (ps, _) =>
        if ps.any fun p => t.earlierPending x.cur.col x.cur.cv t.nextId p || t.tileTransfers x.cur.col x.cur.cv t.nextId p false || t.owned p then
          .stall t
        else match ps.find? t.poisoned with
          | some p => x.readsPoison t ps p.va 1
          | none =>
            let taken := ps.map fun p =>
              let e := numberOf (t.peekBytes .spad p.addr 2)
              (p.lane, mkPc (pcHandle x.pc) (bitsOf e 3 10) (bitsOf e 0 3))
            x.branch t taken (t.tileEnds x (x.und ++ open_) .quarter)) s

/-- CALL (R221): the active lanes record their return address and go to the target. -/
def execCall (f : BForm) (s : State) : Host.Outcome State Fault Refusal :=
  issue (.call f) f.h (fun x t =>
    let v := x.v.onLanes x.act fun _ l => { l with lnk := nextPc x.pc }
    x.branch t (x.toTarget (BForm.target f (pcHandle x.pc))) (x.settleUnd (t.put x v))) s

/-- RET (R221): each active lane goes to its link, which must lie in the current overlay and be a legal target (R104): the
lowest that is not either. -/
def execRet (f : BForm) (s : State) : Host.Outcome State Fault Refusal :=
  issue (.ret f) f.h (fun x t =>
    let taken := x.act.map fun l => (l, (x.v.lane l).lnk)
    let foreign := (taken.map (·.2)).filter fun p => pcHandle p != pcHandle x.pc
    match foreign ++ (taken.map (·.2)).filter fun p => !t.targetOk x.core x.c.part x.c.prog p with
    | [] => x.branch t taken (x.settleUnd t)
    | p :: ps => x.fail t cBranch (ps.foldl (fun m q => min m q.toNat) p.toNat)) s

/-- LOOP (R221): once per group with an active lane, the counter is decremented, and the lanes go on while it is not 0. -/
def execLoop (f : BForm) (s : State) : Host.Outcome State Fault Refusal :=
  issue (.loop f) f.h (fun x t =>
    let c : Word := BitVec.ofNat 32 (x.uni f.b) - 1
    let v := match f.b with
      | .s n => x.v.setSreg n.toNat c
      | _ => x.v
    if x.act.isEmpty then .jump (x.settleUnd t) []
    else x.branch t (if c = 0 then [] else x.toTarget (BForm.target f (pcHandle x.pc))) (x.settleUnd (t.put x v))) s

/-- R13: lanes exit; in a bounds pass their tiles are done (R252). -/
def Ctx.exitLanes (x : Ctx) (t : State) : State :=
  if x.bounds then t.tileEnds x x.act .done
  else t.onConvoy x.cur.col x.cur.cv fun v => v.onLanes x.act fun _ l => { l with live := false, split := false }

/-- EXIT (R223, R238). -/
def execExit (f : BForm) (s : State) : Host.Outcome State Fault Refusal :=
  issue (.exit f) f.h (fun x t => .jump (x.settleUnd (x.exitLanes t)) []) s

/-- YIELD (R223): it ends its clause, and the convoy is passed over for up to 64 cycles. -/
def execYield (f : BForm) (s : State) : Host.Outcome State Fault Refusal :=
  issue (.yield f) f.h (fun x t =>
    let v := if x.act.isEmpty then x.v else { x.v with yieldUntil := some (t.now + 64) }
    .last (x.settleUnd (t.put x v))) s

/-- TRAP (R232): a software trap in the active lanes. -/
def execTrap (f : BForm) (s : State) : Host.Outcome State Fault Refusal :=
  issue (.trap f) f.h (fun x t =>
    if x.act.isEmpty then .next (x.settleUnd t)
    else .fault (x.settleUnd t) x.act ⟨BitVec.ofNat 16 (0xFF00 + bitsOf f.ent.toNat 0 8), 0, 0⟩) s

/-- NOP (R223). -/
def execNop (f : BForm) (s : State) : Host.Outcome State Fault Refusal :=
  issue (.nop f) f.h (fun x t => .next (x.settleUnd t)) s

/-- BKPT (R232): as TRAP with its own code; without a handler it has no effect. -/
def execBkpt (f : BForm) (s : State) : Host.Outcome State Fault Refusal :=
  issue (.bkpt f) f.h (fun x t =>
    if x.act.isEmpty || !x.r.trapen then .next (x.settleUnd t)
    else .fault (x.settleUnd t) x.act ⟨BitVec.ofNat 16 (0xFE00 + bitsOf f.ent.toNat 0 8), 0, 0⟩) s

/-- TRAPRET (R233): the active lanes in trap mode return; the others of the group go to the next slot. -/
def execTrapret (f : BForm) (s : State) : Host.Outcome State Fault Refusal :=
  issue (.trapret f) f.h (fun x t =>
    let ls := x.act.filter fun l => (x.v.lane l).trap
    let taken := ls.map fun l => (l, (x.v.lane l).trapReturn (f.ent.getLsbD 0))
    let v := x.v.onLanes ls fun _ l => { l with trap := false, fault := 0 }
    x.branch t taken (x.settleUnd (t.put x v))) s

/-! ## Calls into overlays -/

/-- R219: the directory entry of a valid handle operand. -/
def Ctx.handle? (x : Ctx) (o : Operand) : Option (Nat × DirEntry) :=
  let h := x.uni o
  if h < 0xFFF then (x.r.dirEntry h).map fun d => (h, d) else none

/-- R67: every page of an image probed, as an image read. -/
def State.probeImage (s : State) (x : Ctx) (d : DirEntry) : Option Bad :=
  (s.imageFails x.core x.c.part x.r.ctx d).map fun e => ⟨e.1, BitVec.ofNat 64 e.2, 8⟩

/-- R228: the loop of CALLO from the present state of the overlay on. -/
def Ctx.callInto (x : Ctx) (t : State) (h : Nat) (d : DirEntry) (target : PC) : Effect :=
  let enter (u : State) : Effect :=
    let r := u.res x.core x.c.part x.c.prog h
    x.branch u (x.toTarget target) ((u.setRes { r with lastUse := u.now }).onConvoy x.cur.col x.cur.cv fun v =>
      { v with stack := nextPc x.pc :: v.stack })
  match (t.res x.core x.c.part x.c.prog h).st with
  | .resident => enter t
  | .loading | .draining => .wait t (.callo h target) none
  | .absent =>
    if !d.auto then x.fail t cAbsent x.pc.toNat
    else match t.load x.core x.c.part x.c.prog h d with
      | (u, .resident) => enter u
      | (u, .loading) => .wait u (.callo h target) none
      | (_, .noBay) => x.fail t cNoBay x.pc.toNat

/-- CALLO (R228). -/
def execCallo (f : BForm) (s : State) : Host.Outcome State Fault Refusal :=
  issue (.callo f) f.h (fun x t0 =>
    let t := x.settleUnd t0
    match x.handle? f.b with
    | none => x.fail t cAbsent x.pc.toNat
    | some (h, d) =>
      if x.act.isEmpty then .jump t []
      else if x.v.stack.length ≥ 8 then x.fail t cReturn x.pc.toNat
      else
        let absent := (t.res x.core x.c.part x.c.prog h).st == .absent && d.auto
        match if absent then t.probeImage x d else none with
        | some b => .fault t x.group b
        | none => x.callInto t h d (BForm.target f h)) s

/-- RETO (R229). -/
def execReto (f : BForm) (s : State) : Host.Outcome State Fault Refusal :=
  issue (.reto f) f.h (fun x t0 =>
    let t := x.settleUnd t0
    match x.v.stack with
    | [] => x.fail t cReturn x.pc.toNat
    | p :: rest =>
      if x.act.isEmpty then .jump t []
      else x.branch t (x.toTarget p) (t.onConvoy x.cur.col x.cur.cv fun v => { v with stack := rest })) s

end Sys2Proof.Machine
end

