-- ==== Sys2Proof/Machine/Overlay.lean ====
section
/-!
DEFINITION. Overlay instructions (R224 to R227).
-/

namespace Sys2Proof.Machine

/-- R224: a failure of an overlay load after issue, written to the partition's fault queue. -/
def State.ovlFailure (s : State) (part route quad colid : Nat) (code : BitVec 16) (addr : Nat) : State :=
  s.faultEntry part { code, access := 0x18, service := 0, addr := BitVec.ofNat 64 addr, route, quad, colid }

/-- R224: the completion word of a failure. -/
def failWord (code : BitVec 16) : Nat := 2 ^ 31 + code.toNat

/-- OVL (R224): the load started or joined, with its completion where it is over at once. -/
def execOvl (f : BForm) (s : State) : Host.Outcome State Fault Refusal :=
  issue (.ovl f) f.h (fun x t =>
    if x.act.isEmpty then .next t
    else match x.handle? f.b with
    | none => x.fail t cAbsent x.pc.toNat
    | some (h, d) =>
      let off := x.uni f.c
      let word : Option Nat := if f.c == .none then none else some off
      if f.c != .none && (off % 4 != 0 || (spadByte x.c.banks off).isNone) then x.fail t cProtection off 2
      else match t.probeImage x d with
        | some b => .fault t x.group b
        | none =>
          let t := (t.forbidRollback x.cur.col).onConvoy x.cur.col x.cur.cv fun v => { v with copies := v.copies + 1 }
          let w : OvlWaiter := { col := x.cur.col, cv := x.cur.cv, word }
          match t.load x.core x.c.part x.c.prog h d with
          | (u, .resident) => .next (u.answerOvl w (u.ovlWord x.core x.c.part x.c.prog h)).notice
          | (u, .loading) => .next (u.addWaiter x.core x.c.part x.c.prog h w)
          | (u, .noBay) =>
            .next ((u.answerOvl w (failWord cNoBay)).ovlFailure x.c.part x.r.num x.v.quad x.c.colid.toNat cNoBay d.image).notice) s

/-- OVLQ (R225): the state of an overlay; an invalid handle gives 0. -/
def execOvlq (f : BForm) (s : State) : Host.Outcome State Fault Refusal :=
  issue (.ovlq f) f.h (fun x t =>
    let h := x.uni f.b
    let w := if h < 0xFFF then t.ovlWord x.core x.c.part x.c.prog h else 0
    x.retireU t f.a 1 fun _ => .pt w) s

/-- R214, R226: tokens of an overlay that a column holds on a core. -/
def Column.tokensOf (c : Column) (core handle : Nat) : Nat :=
  ((c.tokens.find? fun t => t.core == core && t.handle == handle).map (·.n)).getD 0

/-- A column's tokens of an overlay set. -/
def Column.setTokens (c : Column) (core handle n : Nat) : Column :=
  let rest := c.tokens.filter fun t => !(t.core == core && t.handle == handle)
  { c with tokens := if n = 0 then rest else rest ++ [{ core, handle, n }] }

/-- OVLPIN (R226): one token taken; a column holds at most 255. -/
def execOvlpin (f : BForm) (s : State) : Host.Outcome State Fault Refusal :=
  issue (.ovlpin f) f.h (fun x t =>
    if x.act.isEmpty then .next t
    else match x.handle? f.b with
    | none => x.fail t cAbsent x.pc.toNat
    | some (h, _) => .next ((t.forbidRollback x.cur.col).onColumn x.cur.col fun c =>
        c.setTokens x.core h (min 255 (c.tokensOf x.core h + 1)))) s

/-- OVLREL (R226): one token released. -/
def execOvlrel (f : BForm) (s : State) : Host.Outcome State Fault Refusal :=
  issue (.ovlrel f) f.h (fun x t =>
    if x.act.isEmpty then .next t
    else match x.handle? f.b with
    | none => x.fail t cAbsent x.pc.toNat
    | some (h, _) => .next ((t.forbidRollback x.cur.col).onColumn x.cur.col fun c =>
        c.setTokens x.core h (c.tokensOf x.core h - 1)).settle) s

/-- OVLEV (R227): an eviction request on the issuing core. -/
def execOvlev (f : BForm) (s : State) : Host.Outcome State Fault Refusal :=
  issue (.ovlev f) f.h (fun x t =>
    if x.act.isEmpty then .next t
    else match x.handle? f.b with
    | none => x.fail t cAbsent x.pc.toNat
    | some (h, _) => .next ((t.forbidRollback x.cur.col).evict x.core x.c.part x.c.prog h)) s

end Sys2Proof.Machine
end

