-- ==== Sys2Proof/Machine/System.lean ====
section
/-!
DEFINITION. System instructions (R235 to R237), fences, WAITC and NAP (R87, R181 to R183), and unassigned opcodes (R119).
-/

namespace Sys2Proof.Machine

/-- R93, R182: the counters in the bit positions of WAITC. -/
def Convoy.opcnt (v : Convoy) : Nat :=
  min 63 v.loads + 2 ^ 8 * min 63 v.stores + 2 ^ 16 * min 63 v.copies + 2 ^ 24 * min 63 v.tileOps

/-- R235: the value of a system register in a lane. -/
def Ctx.sysreg (x : Ctx) (sub ent lane : Nat) : Nat :=
  let l := x.v.lane lane
  match sub with
  | 0 => l.lnk.toNat
  | 1 => l.trpc.toNat
  | 2 => if l.trap then 1 else 0
  | 3 => x.v.traddr.toNat
  | 4 => x.v.stack.length
  | 5 => ((x.v.stack[ent]?).map BitVec.toNat).getD 0
  | 6 => x.v.ctdev
  | 7 => x.v.ctsys
  | 8 => x.v.opcnt
  | 9 => x.r.lease
  | _ => coreOf x.v.quad + 2 ^ 9 * (x.v.quad % 4)

/-- MOVS (R235). -/
def execMovs (f : RForm) (s : State) : Host.Outcome State Fault Refusal :=
  issue (.movs f) f.h (fun x0 t =>
    let x := x0.asTrue
    let k := if f.subop.toNat ∈ [3, 6, 7] then 2 else 1
    x.retire t f.a k (.bits (k == 2) false) fun l => .pt (x.sysreg f.subop.toNat (bitsOf f.ent.toNat 0 3) l)) s

/-- MOVC (R235): LNK in every active lane, TRPC in those in trap mode; in a bounds pass only from a point. -/
def execMovc (f : RForm) (s : State) : Host.Outcome State Fault Refusal :=
  issue (.movc f) f.h (fun x t =>
    let open_ := x.act.filter fun l => x.bounds && !(x.read l f.b).isPoint
    let ls := x.act.filter fun l => !open_.contains l
    let v := x.v.onLanes ls fun l a =>
      let p : PC := BitVec.ofNat 25 (x.read l f.b).lo
      if f.subop = 0 then { a with lnk := p } else if a.trap then { a with trpc := p } else a
    .next ((t.put x v).tileEnds x (x.und ++ open_) .quarter)) s

/-- CLK (R236): all 64 bits of one reading of the wall clock. -/
def execClk (f : RForm) (s : State) : Host.Outcome State Fault Refusal :=
  issue (.clk f) f.h (fun x0 t =>
    let x := x0.asTrue
    x.retire t f.a 2 (.bits true false) fun _ => .pt x.now.toNat) s

/-- PERF (R236). -/
def execPerf (f : RForm) (s : State) : Host.Outcome State Fault Refusal :=
  issue (.perf f) f.h (fun x0 t =>
    let x := x0.asTrue
    x.retire t f.a 1 (.bits false false) fun _ => .pt (lookupD 0 x.v.perf f.subop.toNat).toNat) s

/-- FWCALL (R237): after the wait of FENCE.dev the call joins the partition's queue and the convoy is descheduled. -/
def execFwcall (f : IForm) (s : State) : Host.Outcome State Fault Refusal :=
  issue (.fwcall f) f.h (fun x t =>
    if x.act.isEmpty then .next t
    else if !t.fenceDev x then .stall t
    else
      let block : Option DWord := if f.b == .none then none else some (BitVec.ofNat 64 (x.uni f.b 2))
      .wait ({ t with calls := t.calls ++ [(x.c.part, x.cur.col, x.cur.cv)] }.forbidRollback x.cur.col)
        (.fwcall (bitsOf f.imm.toNat 0 16) block f.a none) none) s

/-- R87: what a FENCE of a scope still waits for is over. -/
def State.fenceDone (s : State) (x : Ctx) (scope : Nat) : Bool :=
  if scope = 1 then s.drained x.cur.col x.cur.cv
  else s.fenceDev x && (scope != 4 || s.opsAcked x.cur.col x.cur.cv)

/-- R87: the zero-length host read of FENCE.sys, sent once. -/
def State.sendZeroRead (s : State) (x : Ctx) : State := s.addOp x .zeroRead .default [] [] [] []

/-- R88: a FENCE waits: until it is over, no other group of the convoy issues. -/
def Ctx.fenceWaits (x : Ctx) (t : State) : Effect :=
  .stall (if x.v.wait.isSome then t else t.onConvoy x.cur.col x.cur.cv fun v => { v with fencing := some x.pc })

/-- FENCE (R87, R88, R181). -/
def execFence (f : RForm) (s : State) : Host.Outcome State Fault Refusal :=
  issue (.fence f) f.h (fun x0 t =>
    let x := x0.asTrue
    if x.act.isEmpty then .next t
    else if !t.fenceDone x f.subop.toNat then x.fenceWaits t
    else if f.subop = 4 ∧ x.v.relaxedSent then x.fenceWaits (t.sendZeroRead x)
    else .next (t.put x { x.v.discard with fencing := none })) s

/-- R182: the counters satisfy WAITC's immediates. -/
def Convoy.countersOk (v : Convoy) (imm : Nat) : Bool :=
  v.loads ≤ bitsOf imm 0 6 && v.stores ≤ bitsOf imm 8 6 && v.copies ≤ bitsOf imm 16 6 && v.tileOps ≤ bitsOf imm 24 6

/-- WAITC (R182). -/
def execWaitc (f : IForm) (s : State) : Host.Outcome State Fault Refusal :=
  issue (.waitc f) f.h (fun x0 t =>
    let x := x0.asTrue
    let n := f.imm.toNat
    if x.act.isEmpty || x.v.countersOk n then .last t
    else .wait t (.waitc (bitsOf n 0 6) (bitsOf n 8 6) (bitsOf n 16 6) (bitsOf n 24 6)) none) s

/-- NAP (R183). -/
def execNap (f : IForm) (s : State) : Host.Outcome State Fault Refusal :=
  issue (.nap f) f.h (fun x0 t =>
    let x := x0.asTrue
    if x.act.isEmpty ∨ f.imm = 0 then .last t else .wait t .nap (some (t.now + f.imm.toNat))) s

/-- A word whose opcode is not assigned (R119): ILLEGAL_OPCODE for the whole group, whatever the guards. -/
def execUnassignedOpcode (w : IWord) (s : State) : Host.Outcome State Fault Refusal :=
  match s.ctx { g1 := ⟨false, 7⟩, g2 := ⟨false, 7⟩, hint := .default, ce := false, live := 0 } with
  | none => .fault .noIssuingGroup
  | some x => .next (x.conclude (.unassignedOpcode w) s (x.fail s cIllegal x.pc.toNat))

/-- R103: the line of the issuing group's program counter read again from the overlay's image; a line that fails again kills the
column with UNCORRECTABLE_DATA. -/
def State.reloadLine (s : State) (x : Ctx) : State :=
  match s.lineFor x.core x.c.part x.c.prog x.pc, x.r.dirEntry (pcHandle x.pc) with
  | some (r, a), some d =>
    let va := d.image + 64 * pcLine x.pc
    let t := (s.blackBox 2 x.c.part 5 0 x.pc.toNat).rangeRead ⟨x.core, none⟩ x.c.part x.r.ctx (some (.engine x.core, s.now + x.r.lease)) va 64
    let u := match s.vaBytes ⟨x.core, none⟩ x.c.part x.r.ctx va 64 with
      | some line => { t with store := { t.store with istore := copyLine t.store.istore a line r.gen.toNat } }
      | none => t
    match u.fetch x.core x.c.part x.c.prog x.pc with
    | .parity => (u.report x.c x.v.quad cUncorrectable 0 1 0).kill x.cur.col
    | _ => u
  | _, _ => s

/-- FETCH_PARITY_RETRY (R103). -/
def execFetchParityRetry (s : State) : Host.Outcome State Fault Refusal :=
  match s.ctx { g1 := ⟨false, 7⟩, g2 := ⟨false, 7⟩, hint := .default, ce := false, live := 0 } with
  | none => .fault .noIssuingGroup
  | some x => .next { s.reloadLine x with cur := none }

end Sys2Proof.Machine
end

