-- ==== Sys2Proof/Machine/Sync.lean ====
section
/-!
DEFINITION. Barriers, address waits and convergence signing (R184 to R188, R198), and the checkpoint at a phase change (R331).
-/

namespace Sys2Proof.Machine

/-! ## Barrier objects (R185) -/

/-- A barrier object's fields. -/
structure Barrier where
  exp : Nat
  pend : Nat
  phase : Nat
  ovr : Bool
  armed : Bool
  res : Nat
  waiters : Nat
  lastn : Nat
  lastcv : Nat
  tchg : Nat
  deriving DecidableEq, Repr

/-- R185: the fields of an object's 128 bits. -/
def Barrier.of (o : Nat) : Barrier :=
  { exp := bitsOf o 0 16, pend := bitsOf o 16 16, phase := bitsOf o 32 4, ovr := bitsOf o 36 1 == 1, armed := bitsOf o 37 1 == 1,
    res := bitsOf o 38 10, waiters := bitsOf o 48 16, lastn := bitsOf o 64 16, lastcv := bitsOf o 80 16, tchg := bitsOf o 96 32 }

/-- R185: an object's 128 bits. -/
def Barrier.bits (b : Barrier) : Nat :=
  let n (x : Bool) : Nat := if x then 1 else 0
  b.exp % 2 ^ 16 + b.pend % 2 ^ 16 * 2 ^ 16 + b.phase % 16 * 2 ^ 32 + n b.ovr * 2 ^ 36 + n b.armed * 2 ^ 37 + b.res % 2 ^ 10 * 2 ^ 38 +
  b.waiters % 2 ^ 16 * 2 ^ 48 + b.lastn % 2 ^ 16 * 2 ^ 64 + b.lastcv % 2 ^ 16 * 2 ^ 80 + b.tchg % 2 ^ 32 * 2 ^ 96

/-- The object at a scratchpad offset. -/
def State.barrier (s : State) (x : Ctx) (off : Nat) : Barrier := Barrier.of (s.spadNum x.c.banks off 16)

/-- An object written at its bank (R187), the waiting convoys told. -/
def State.setBarrier (s : State) (x : Ctx) (off : Nat) (b : Barrier) : State :=
  let t := match spadByte x.c.banks off with
    | some a => s.logSpad x.cur.col x.v.quad a 16
    | none => s
  (t.spadWriteNum x.c.banks off 16 b.bits).notice

/-- What stands before an instruction acts on an object or word of `n` bytes: alignment (R186), the probe (R67), poison, and the
convoy's own earlier accesses (R85), and a copy that has claimed its row (R90). -/
def Ctx.onObject (x : Ctx) (t : State) (f : MForm) (n access : Nat) (go : Nat → Effect) : Effect :=
  let off := (x.uniEa f).toNat
  if x.act.isEmpty then .next t
  else if off % n ≠ 0 then x.fail t cMisaligned off access
  else match t.resolve1 x .scratch .read anyLoc ⟨0, off, n, 0⟩ with
    | .error b => .fault t x.group { b with access }
    | .ok (p, _) =>
      if t.earlierPending x.cur.col x.cur.cv t.nextId p || t.tileTransfers x.cur.col x.cur.cv t.nextId p true || t.owned p then .stall t
      else if t.poisoned p then x.readsPoison t [p] off access
      else go off

/-- BARI (R187). -/
def execBari (f : MForm) (s : State) : Host.Outcome State Fault Refusal :=
  issue (.bari f) f.h (fun x t => x.onObject t f 16 4 fun off =>
    let n := x.uni f.a
    let o := t.barrier x off
    if n = 0 ∨ n > 65535 ∨ (o.armed ∧ o.waiters > 0) then x.fail t cBarrier off
    else .next (t.setBarrier x off
      { exp := n, pend := n, phase := 0, ovr := false, armed := true, res := 0, waiters := 0, lastn := 0, lastcv := 0,
        tchg := t.now % 2 ^ 32 })) s

/-- The outcome of an arrival (R187). -/
inductive Arrival
  /-- Counted; `turned` when it completed the phase. -/
  | counted (s : State) (turned : Bool)
  /-- BARRIER_OVERRUN, with OVR set where the object was armed. -/
  | overrun (s : State)

/-- R97: an object as an arrival leaves it, and as it was; a later load of the convoy may still read the latter. -/
def State.arriveAt (s : State) (x : Ctx) (off : Nat) (b : Barrier) : State :=
  let t := s.setBarrier x off b
  t.onConvoy x.cur.col x.cur.cv fun v => { v with
    arrived := (List.range 16).filterMap fun k => (spadByte x.c.banks (off + k)).map fun a =>
      (a, Memory.read s.store.spad a, Memory.read t.store.spad a) }

/-- Arrive(c) of R187, after its wait. -/
def Ctx.arrive (x : Ctx) (t : State) (off c : Nat) : Arrival :=
  let o := t.barrier x off
  if c = 0 ∨ c > 1024 ∨ !o.armed ∨ o.res ≠ 0 then .overrun t
  else if c > o.pend then .overrun (t.arriveAt x off { o with ovr := true })
  else
    let o := { o with pend := o.pend - c, lastcv := x.cur.cv, lastn := c }
    if o.pend = 0 then
      .counted (t.arriveAt x off
        { o with phase := (o.phase + 1) % 16, pend := o.exp, tchg := t.now % 2 ^ 32, waiters := 0 }) true
    else .counted (t.arriveAt x off o) false

/-- BARA (R187). -/
def execBara (f : MForm) (s : State) : Host.Outcome State Fault Refusal :=
  issue (.bara f) f.h (fun x t => x.onObject t f 16 4 fun off =>
    if !t.fenceDev x then .stall t
    else match x.arrive t off (if f.a == .none then x.act.length else x.uni f.a) with
      | .overrun u => .fault u x.group ⟨cBarrier, BitVec.ofNat 64 off, 0⟩
      | .counted u _ => .next u) s

/-! ## Returns of waits -/

/-- A predicate written alike in the lanes that were active (R186). -/
def Convoy.setPreds (v : Convoy) (lanes : List Nat) (dst : Option (BitVec 3)) (b : Bool) : Convoy :=
  match dst with
  | some p => v.onLanes lanes fun _ l => l.setPred p.toNat (.of b)
  | none => v

/-- The destination predicate of a wait. -/
def predDst (o : Operand) : Option (BitVec 3) :=
  match o with
  | .p n => some n
  | _ => none

/-- R187, R188, R94: a barrier or address wait that has returned: its predicate, the read-ahead gone, the group at the next slot. -/
def Convoy.returned (v : Convoy) (group active : List Nat) (pc : PC) (dst : Option (BitVec 3)) (b : Bool) (btm : PC → Bool) : Convoy :=
  (({ v with wait := none }.setPreds active dst b).discard).move group (fun _ => nextPc pc) false btm []

/-! ## Checkpoints (R331) -/

/-- The convoy's wait is BARW or BARAW on an object. -/
def Convoy.waitsOn (v : Convoy) (off : Nat) : Bool :=
  match v.wait with
  | some { kind := .barrier o _ _, .. } => o == off
  | _ => false

/-- Every counter of R93 is 0. -/
def Convoy.quiet (v : Convoy) : Bool := v.loads == 0 && v.stores == 0 && v.copies == 0 && v.tileOps == 0

/-- R331: a checkpoint where the arrival of a BARAW has changed the phase while every other live convoy waits on the object and
every counter is 0; each convoy is kept as it resumes when its wait returns true. -/
def State.checkpointAt (s : State) (x : Ctx) (off : Nat) (dst : Option (BitVec 3)) : State :=
  match s.column? x.cur.col with
  | none => s
  | some c =>
    let ok := c.cvs.zipIdx.all fun vk => vk.1.quiet && (vk.1.ended || vk.2 == x.cur.cv || vk.1.waitsOn off)
    if !ok then s
    else
      let btm (core : Nat) : PC → Bool := s.targetOk core c.part c.prog
      s.takeCheckpoint x.cur.col (c.cvs.mapIdx fun k v =>
        if k = x.cur.cv then v.returned x.group x.act x.pc dst true (btm (coreOf v.quad))
        else match v.wait with
          | some w => match w.kind with
            | .barrier _ _ d => v.returned w.group w.active w.pc d true (btm (coreOf v.quad))
            | _ => v
          | none => v)

/-- The cycle bound of a wait: 0 means none (R186). -/
def Ctx.bound (x : Ctx) (t : State) (w : Nat) : Option Nat :=
  let b := (x.v.sreg (w + 1)).toNat
  if b = 0 then none else some (t.now + b)

/-- A wait that returns at once with true (R27, R89): it ends its clause and discards the read-ahead. -/
def Ctx.returnNow (x : Ctx) (t : State) (dst : Option (BitVec 3)) : Effect :=
  .last (t.onConvoy x.cur.col x.cur.cv fun v => (v.setPreds x.act dst true).discard)

/-- Wait(ph, bound) of R187 on a phase that stands: one waiter more, and the convoy is descheduled. -/
def Ctx.waitPhase (x : Ctx) (t : State) (off ph : Nat) (dst : Option (BitVec 3)) (w : Nat) : Effect :=
  let o := t.barrier x off
  .wait (t.setBarrier x off { o with waiters := min (o.waiters + 1) 0xFFFF }) (.barrier off ph dst) (x.bound t w)

/-- BARW (R187). -/
def execBarw (f : MForm) (s : State) : Host.Outcome State Fault Refusal :=
  issue (.barw f) f.h (fun x t => x.onObject t f 16 4 fun off =>
    let ph := (x.v.sreg f.wreg).toNat % 16
    if (t.barrier x off).phase ≠ ph then x.returnNow t (predDst f.a)
    else x.waitPhase t off ph (predDst f.a) f.wreg) s

/-- BARAW (R187): the arrival, then the wait on the phase it read. -/
def execBaraw (f : MForm) (s : State) : Host.Outcome State Fault Refusal :=
  issue (.baraw f) f.h (fun x t => x.onObject t f 16 4 fun off =>
    if !t.fenceDev x then .stall t
    else
      let ph := (t.barrier x off).phase
      match x.arrive t off x.act.length with
      | .overrun u => .fault u x.group ⟨cBarrier, BitVec.ofNat 64 off, 0⟩
      | .counted u true => x.returnNow (u.checkpointAt x off (predDst f.a)) (predDst f.a)
      | .counted u false => x.waitPhase u off ph (predDst f.a) f.wreg) s

/-- WAITA (R188). -/
def execWaita (f : MForm) (s : State) : Host.Outcome State Fault Refusal :=
  issue (.waita f) f.h (fun x t => x.onObject t f 4 1 fun off =>
    let cmp := bitsOf f.ent.toNat 0 3
    let value := x.v.sreg f.wreg
    if waitaHolds cmp (t.spadNum x.c.banks off 4) value.toNat then x.returnNow t (predDst f.a)
    else .wait t (.waita off cmp value (predDst f.a)) (x.bound t f.wreg)) s

/-! ## Signing (R184, R198) -/

/-- R198: two pieces of work agree in every field but G1, G2, CE and LIVE, and in their captured values. -/
def sameWork (a b : MxWork) : Bool :=
  match a, b with
  | .mma t f p q r u _, .mma t' f' p' q' r' u' _ =>
    t == t' && { f with h := { f'.h with hint := f.h.hint } } == f' && p == p' && q == q' && r == r' && u == u'
  | _, _ => false

/-- R196: the convoy's signing would complete a round whose work finds all reservation entries held. -/
def State.roundFull (s : State) (x : Ctx) (n : Nat) (work : Bool) : Bool :=
  match s.column? x.cur.col with
  | none => false
  | some c =>
    let r := c.cvreg n
    !r.signers.contains x.cur.cv && (c.declared.all fun k => k == x.cur.cv || r.signers.contains k) &&
    match r.work with
    | some _ => s.tableFull (((c.cvs[r.poster]?).map (·.quad)).getD x.v.quad)
    | none => work && s.tableFull x.v.quad

/-- What a signing does. -/
inductive Signing
  | signed (s : State)
  /-- The convoy has signed the round already. -/
  | again
  /-- The work differs from the round's. -/
  | differs

/-- Sign(c, N, mma) of R198. -/
def State.sign (s : State) (x : Ctx) (n : Nat) (work : Option MxWork) : Signing :=
  match s.column? x.cur.col with
  | none => .again
  | some c =>
    let r := c.cvreg n
    if r.signers.contains x.cur.cv then .again
    else
      let clash := match work, r.work with
        | some w, some w' => !sameWork w w'
        | _, _ => false
      if clash then .differs
      else
        let r := { r with signers := r.signers ++ [x.cur.cv] }
        let r := match work with
          | some w =>
            let r := { r with pcs := r.pcs ++ [(x.cur.cv, x.pc)] }
            if r.work.isNone then { r with work := some w, poster := x.cur.cv } else r
          | none => r
        let t := s.onColumn x.cur.col fun c => c.setCvreg n r
        let t := if work.isSome then
            t.onConvoy x.cur.col x.cur.cv fun v => { v with tileOps := v.tileOps + 1 }
          else t
        .signed (t.complete x.cur.col n)

/-- SIGN (R184): a release before, an acquire after. -/
def execSign (f : RForm) (s : State) : Host.Outcome State Fault Refusal :=
  issue (.sign f) f.h (fun x t =>
    let n := bitsOf f.ent.toNat 0 4
    if x.act.isEmpty then .next t
    else if !t.fenceSign x || t.roundFull x n false then .stall t
    else match t.sign x n none with
      | .signed u => .last (u.onConvoy x.cur.col x.cur.cv Convoy.discard)
      | _ => .wait t (.sign n none) none) s

end Sys2Proof.Machine
end

