-- ==== Sys2Proof/Machine/Matrix.lean ====
section
/-!
DEFINITION. The matrix group at issue (R191 to R207): checks, probes, captured values and postings.
-/

namespace Sys2Proof.Machine

/-- K of MMA and MMAT (R201). -/
def depthOf (f : XForm) : Nat := 64 * (f.km1.toNat + 1)

/-- R191: bytes of an operand's range. -/
def operandBytes (t : FSlot) (k : Nat) : Nat := 512 * ((k / 64 - 1) * t.efmt.width + t.planes)

/-- R193: bytes of a scale table. -/
def scaleBytes (t : FSlot) (k : Nat) : Nat := 64 * (k / t.block)

/-- The first failure of a list of scratchpad ranges (offset, bytes, alignment), in order (R67, R191). -/
def probeRanges (banks : List Nat) (access : Nat) : List (Nat × Nat × Nat) → Option Bad
  | [] => none
  | (off, n, al) :: rest =>
    if off % al ≠ 0 then some ⟨cProtection, BitVec.ofNat 64 off, access⟩
    else match probeSpad banks off n with
      | some a => some ⟨cProtection, BitVec.ofNat 64 a, access⟩
      | none => probeRanges banks access rest

/-- A slot of an accepted MMA; its checks have passed (R192). -/
def Ctx.mmaSlot (x : Ctx) (n : Nat) : FSlot :=
  (x.fslot n (mmaFloat ++ [.cb4] ++ mmaInt)).getD
    { efmt := .f16, e8 := false, block := 16, planes := 16, round := .rne, sat := false, cbaddr := 0 }

/-- R201: the ranges an MMA probes: A, B, the A-scale table, the B-scale table. A scale table needs no alignment by R193, whatever R209's list
of faults has of a scale base (DESIGN CHOICE; log 75). -/
def Ctx.mmaRanges (x : Ctx) (f : XForm) : List (Nat × Nat × Nat) :=
  let a := x.mmaSlot f.slotA.toNat
  let b := x.mmaSlot f.slotB.toNat
  let k := depthOf f
  [(x.uni f.b, operandBytes a k, 512), (x.uni f.c, operandBytes b k, 512)] ++
  (if a.e8 then [(x.uni f.d, scaleBytes a k, 1)] else []) ++ (if b.e8 then [(x.uni f.e, scaleBytes b k, 1)] else [])

/-- The work of an MMA or MMAT as captured at issue (R201). -/
def Ctx.mmaWork (x : Ctx) (tri : Bool) (f : XForm) : MxWork :=
  .mma tri f (BitVec.ofNat 32 (x.uni f.b)) (BitVec.ofNat 32 (x.uni f.c)) (BitVec.ofNat 32 (x.uni f.d)) (BitVec.ofNat 32 (x.uni f.e))
    (((x.v.books.lookup f.slotA.toNat).map (·.table)).getD [])

/-- R194: the codebook of slot A is still being loaded. -/
def Ctx.bookPending (x : Ctx) (f : XForm) : Bool :=
  (x.mmaSlot f.slotA.toNat).efmt == .cb4 && !(((x.v.books.lookup f.slotA.toNat).map (·.ready)).getD true)

/-- An entry posted for the issuing convoy, counted in its tile operations (R93, R196). -/
def Ctx.postOwn (x : Ctx) (t : State) (tile urg : Nat) (work : MxWork) : State :=
  ((t.post x.v.quad x.cur.col x.cur.cv [(x.cur.cv, x.pc)] tile urg work).onConvoy x.cur.col x.cur.cv
    fun v => { v with tileOps := v.tileOps + 1 }).forbidRollback x.cur.col

/-- MMA and MMAT at issue (R201). -/
def Ctx.startMma (x : Ctx) (t : State) (tri : Bool) (f : XForm) : Effect :=
  match probeRanges x.c.banks 1 (x.mmaRanges f) with
  | some b => .fault t x.group b
  | none =>
    let work := x.mmaWork tri f
    if f.cven then
      if !t.fenceDev x || x.bookPending f || t.roundFull x f.cvn.toNat true then .stall t
      else match t.sign x f.cvn.toNat (some work) with
        | .signed u => .last u
        | .differs => x.fail t cOperand x.pc.toNat
        | .again => .wait t (.sign f.cvn.toNat (some work)) none
    else if x.bookPending f || t.tableFull x.v.quad || !t.drained x.cur.col x.cur.cv then .stall t
    else .next (x.postOwn t f.tile.toNat f.urg.toNat work)

/-- MMA (R201). -/
def execMma (f : XForm) (s : State) : Host.Outcome State Fault Refusal := issue (.mma f) f.h (fun x t => x.startMma t false f) s

/-- MMAT (R202). -/
def execMmat (f : XForm) (s : State) : Host.Outcome State Fault Refusal := issue (.mmat f) f.h (fun x t => x.startMma t true f) s

/-- R203: the bits one lane's elements change: (offset of the 8-byte word, bit of the word, new bit), in probing order. -/
def plstBits (base k0 i w r : Nat) : List (Nat × Nat × Nat) :=
  if i > 63 then []
  else (List.range (32 / w)).flatMap fun p =>
    let k := k0 + p
    if k > 2047 then []
    else (List.range w).map fun j =>
      (base + 512 * (k / 64 * w + j) + 8 * (k % 64), i, bitsOf (bitsOf r (w * p) w) (w - 1 - j) 1)

/-- PLST (R203): its merges are probed and left pending; `aux` holds for each event the bit and its value. -/
def execPlst (f : XForm) (s : State) : Host.Outcome State Fault Refusal :=
  issue (.plst f) f.h (fun x t =>
    match x.fslot f.slotA.toNat Fmt.plane with
    | none => x.fail t cSlot x.pc.toNat
    | some q =>
      let base := x.uni f.b
      let c := x.uni f.c
      let bits := x.act.flatMap fun l =>
        (plstBits base (bitsOf c 0 11) (bitsOf c 16 6 + l) q.efmt.width ((x.v.lane l).reg f.reg.toNat).toNat).map fun b => (l, b)
      if x.act.isEmpty then .next t
      else if base % 512 ≠ 0 then x.fail t cProtection base 2
      else match t.resolve x .scratch .write anyLoc (bits.map fun lb => ⟨lb.1, lb.2.1, 8, 0⟩) with
        | .error b => .fault t x.group b
        | .ok (ps, u) =>
          .next ((u.addOp x .plst .default x.act (ps.mapIdx fun i p => { p with grp := i }) []
            (bits.mapIdx fun i lb => (i, lb.2.2))).put x { x.v with tileOps := x.v.tileOps + 1 })) s

/-- An entry of the plain kinds: posted once per group with an active lane. -/
def Ctx.startTile (x : Ctx) (t : State) (f : XForm) (work : MxWork) : Effect :=
  if x.act.isEmpty then .next t
  else if t.tableFull x.v.quad then .stall t
  else .next (x.postOwn t f.tile.toNat f.urg.toNat work)

/-- ACZ (R204). -/
def execAcz (f : XForm) (s : State) : Host.Outcome State Fault Refusal := issue (.acz f) f.h (fun x t => x.startTile t f .acz) s

/-- R204: S, the row stride of a tile transfer. -/
def Ctx.tileStride (x : Ctx) (f : XForm) (e : Nat) : Nat := if f.c == .none then 64 * e else x.uni f.c

/-- A tile transfer at issue: its rows probed (R67), the convoy's earlier accesses done (R85). -/
def Ctx.startTransfer (x : Ctx) (t : State) (f : XForm) (e access : Nat) (work : Nat → Nat → MxWork) : Effect :=
  if x.act.isEmpty then .next t
  else
    let base := x.uni f.b
    let stride := x.tileStride f e
    match probeRanges x.c.banks access ((List.range 64).map fun i => (base + i * stride, 64 * e, 1)) with
    | some b => .fault t x.group b
    | none => if !t.opsDrained x.cur.col x.cur.cv then .stall t else x.startTile t f (work base stride)

/-- ACLD (R204). -/
def execAcld (f : XForm) (s : State) : Host.Outcome State Fault Refusal :=
  issue (.acld f) f.h (fun x t => x.startTransfer t f 4 1 .acld) s

/-- ACST (R204). -/
def execAcst (f : XForm) (s : State) : Host.Outcome State Fault Refusal :=
  let fmt := bitsOf f.variant.toNat 0 2
  issue (.acst f) f.h (fun x t => x.startTransfer t f (acstBytes fmt) 2 (.acst fmt)) s

/-- R70: the number of element (i, j) of a tile of a quadrant. -/
def tileIndex (quad tile i j : Nat) : Nat := (16 * quad + tile) * 4096 + 64 * i + j

/-- R205: the element an active lane addresses, 64 i + j. -/
def rowElem (b l : Nat) : Nat := 64 * bitsOf b 0 6 + (bitsOf b 8 6 + l) % 64

/-- R205: the accumulator word that ACRD reads and ACWR writes in a lane. -/
def Ctx.accWord (x : Ctx) (f : XForm) (l : Nat) : Nat := tileIndex x.v.quad f.tile.toNat 0 (rowElem (x.uni f.b) l)

/-- R327: 64 bits of an accumulator store that hold one of the words. -/
def EccWord.inAcc (words : List Nat) : EccWord → Bool
  | .acc n => words.any (· / 2 == n)
  | _ => false

/-- R327: flipped bits of the words that nothing has read yet. -/
def State.unreadAcc (s : State) (words : List Nat) : Bool := (s.coh.poison.filterMap PoisonAt.unread).any (EccWord.inAcc words)

/-- R330: the poison of accumulator words goes with them into the lanes' register. -/
def State.passAcc (s : State) (x : Ctx) (f : XForm) : State :=
  let lanes := x.act.filter fun l => s.coh.poison.contains (.acc (x.accWord f l))
  { s with coh := { s.coh with poison := s.coh.poison ++ lanes.map fun l => .reg x.cur.col x.cur.cv l f.reg.toNat } }

/-- ACRD (R205): after every earlier entry on the tile has drained. Flipped bits of the words are first corrected or found uncorrectable
(R327), and ACRD issues again. -/
def execAcrd (f : XForm) (s : State) : Host.Outcome State Fault Refusal :=
  issue (.acrd f) f.h (fun x t =>
    let words := x.act.map (x.accWord f)
    if t.eng.mx.any fun e => e.quad == x.v.quad && e.tile == f.tile.toNat then .stall t
    else if t.unreadAcc words then .stall (t.readEccs x.c.part (EccWord.inAcc words))
    else match x.retire t (.v f.reg) 1 (.bits false false) fun l => .pt (lookupD 0 t.store.tiles (x.accWord f l)).toNat with
      | .next u => .next (u.passAcc x f)
      | e => e) s

/-- ACWR (R205). -/
def execAcwr (f : XForm) (s : State) : Host.Outcome State Fault Refusal :=
  issue (.acwr f) f.h (fun x t =>
    x.startTile t f (.acwr (x.act.map fun l => (rowElem (x.uni f.b) l, (x.v.lane l).reg f.reg.toNat)))) s

/-- CBLD (R206): the table's read is left pending; until it returns the slot's codebook is not ready. -/
def execCbld (f : XForm) (s : State) : Host.Outcome State Fault Refusal :=
  issue (.cbld f) f.h (fun x t =>
    let n := f.slotA.toNat
    match x.fslot n [.cb4] with
    | none => x.fail t cSlot x.pc.toNat
    | some q =>
      if x.act.isEmpty then .next t
      else match t.resolve x .global .read anyLoc [⟨0, (q.cbaddr : Int), 32, 0⟩] with
        | .error b => .fault t x.group b
        | .ok (ps, u) =>
          let old := ((x.v.books.lookup n).map (·.table)).getD []
          let v := { x.v with loads := x.v.loads + 1, books := (x.v.books.filter (·.1 != n)) ++ [(n, { table := old, ready := false })] }
          .next (((u.put x v).addOp x (.codebook n) f.h.hint [0] ps [(0, 0)] []).forbidRollback x.cur.col)) s

/-- The checksum words of a quadrant: COUNT and the last correction (R207). -/
def State.cksum (s : State) (quad k : Nat) : Word := lookupD 0 s.store.cksum (2 * quad + k)

/-- A checksum word written. -/
def State.setCksum (s : State) (quad k : Nat) (w : Word) : State :=
  { s with store := { s.store with cksum := insertD 0 s.store.cksum (2 * quad + k) w } }

/-- CKRD (R207): after every tile operation of the convoy has drained. -/
def execCkrd (f : RForm) (s : State) : Host.Outcome State Fault Refusal :=
  issue (.ckrd f) f.h (fun x t =>
    if x.v.tileOps ≠ 0 then .stall t
    else
      let k := if f.subop = 1 then 1 else 0
      let w := (t.cksum x.v.quad k).toNat
      match x.retire t f.a 1 (.bits false false) fun _ => .pt w with
      | .next u =>
        if f.subop = 2 ∧ !x.act.isEmpty then
          .next ((u.setCksum x.v.quad 0 0).setCksum x.v.quad 1 (u.cksum x.v.quad 1 &&& 0x7FFFFFFF))
        else .next u
      | e => e) s

end Sys2Proof.Machine
end

