-- ==== Sys2Proof/Machine/Copy.lean ====
section
/-!
DEFINITION. Copy packets and their issue (R174, R175, R177), the geometry of a copy (R41, R42, R176), and what the copy engine does
for one line (R90 to R92).
-/

namespace Sys2Proof.Machine

/-! ## Packets (R174) -/

/-- The fields of a packet; `zero` says that its reserved bytes are zero. -/
structure Packet where
  op : Nat
  flags : Nat
  fmt : Nat
  hint : Nat
  len : Nat
  rows : Nat
  src : DWord
  dst : DWord
  sstride : Word
  dstride : Word
  cwoff : Nat
  cwval : Word
  task : Nat
  tmo : Nat
  zero : Bool
  deriving DecidableEq, Repr

/-- SSP, DSP, CW, DT, ORI: the flags of a packet. -/
def Packet.flag (p : Packet) (k : Nat) : Bool := p.flags.testBit k

/-- R174: the fields in a packet's 64 bytes, as a number; byte 0x3F is reserved unless the packet lies in a ring (R311). -/
def Packet.of (n : Nat) (ring : Bool) : Packet :=
  let at_ (off bytes : Nat) : Nat := bitsOf n (8 * off) (8 * bytes)
  { op := at_ 0 1, flags := at_ 1 1, fmt := at_ 2 1, hint := at_ 3 1, len := at_ 4 4, rows := at_ 8 4,
    src := BitVec.ofNat 64 (at_ 0x10 8), dst := BitVec.ofNat 64 (at_ 0x18 8), sstride := BitVec.ofNat 32 (at_ 0x20 4),
    dstride := BitVec.ofNat 32 (at_ 0x24 4), cwoff := at_ 0x28 4, cwval := BitVec.ofNat 32 (at_ 0x2C 4), task := at_ 0x30 2,
    tmo := at_ 0x32 2, zero := at_ 0x0C 4 == 0 && at_ 0x39 (if ring then 6 else 7) == 0 }

/-- The format of a plane copy, where FMT names one (R42, R177). -/
def Packet.plane? (p : Packet) : Option Fmt := (Fmt.ofCode p.fmt).filter (Fmt.plane.contains ·)

/-- R174, R175, R177: a reserved field, code or value. -/
def Packet.bad (p : Packet) : Bool :=
  !p.zero || decide (p.op > 2) || decide (p.flags ≥ 32) || decide (p.hint > 5) || p.cwval.getLsbD 31 || decide (p.task ≥ 4096) ||
  (p.flag 0 && decide (p.src.toNat ≥ 2 ^ 32)) || (p.flag 1 && decide (p.dst.toNat ≥ 2 ^ 32)) ||
  match p.op with
  | 0 => p.fmt != 0 || decide (p.rows > 1)
  | 1 => p.fmt != 0 || decide (p.rows > 65535)
  | _ => p.plane?.isNone || p.rows != 64 || p.len % 64 != 0 || decide (p.len < 64) || decide (p.len > 2048)

/-- R175: a LEN or ROWS of 0 copies nothing. -/
def Packet.empty (p : Packet) : Bool := p.len == 0 || p.rows == 0

/-- The width of a plane copy's elements. -/
def Packet.width (p : Packet) : Nat := (p.plane?.map Fmt.width).getD 1

/-! ## Geometry (R41, R42, R176, R177) -/

/-- Rows of the source: (first byte, bytes), in order. -/
def Packet.srcRows (p : Packet) : List (Int × Nat) :=
  if p.empty then []
  else
    let row (n : Nat) (r : Nat) : Int × Nat := ((p.src.toNat : Int) + r * p.sstride.toInt, n)
    if p.op = 2 then
      if p.flag 4 then (List.range p.len).map (row (8 * p.width)) else (List.range 64).map (row (p.len / 8 * p.width))
    else (List.range p.rows).map (row p.len)

/-- Rows of the destination; a plane copy has one. -/
def Packet.dstRows (p : Packet) : List (Int × Nat) :=
  if p.empty then []
  else if p.op = 2 then [((p.dst.toNat : Int), 8 * p.len * p.width)]
  else (List.range p.rows).map fun r => ((p.dst.toNat : Int) + (r : Nat) * p.dstride.toInt, p.len)

/-- A byte lies in some row. -/
def inRows (rows : List (Int × Nat)) (a : Nat) : Bool :=
  rows.any fun r => decide (r.1 ≤ (a : Int)) && decide ((a : Int) < r.1 + (r.2 : Int))

/-- R42, R177: the bits of a destination byte of a plane copy: for each of its 8 bits the source byte and the bit of it. -/
def Packet.planeBits (p : Packet) (b : Nat) : List (Nat × Nat) :=
  let w := p.width
  let q := b / 512
  let j := q % w
  let k := q / w * 64 + b % 512 / 8
  (List.range 8).map fun t =>
    let i := 8 * (b % 8) + t
    let row := if p.flag 4 then k else i
    let e := if p.flag 4 then i else k
    let bit := w * e + (w - 1 - j)
    (((p.src.toNat : Int) + (row : Nat) * p.sstride.toInt + (bit / 8 : Nat)).toNat, bit % 8)

/-- R176: the source byte of a destination byte: that of the highest row that holds it. -/
def Packet.srcOf (p : Packet) (a : Nat) : Option Nat :=
  ((p.srcRows.zip p.dstRows).reverse.find? fun r => decide (r.2.1 ≤ (a : Int)) && decide ((a : Int) < r.2.1 + (r.2.2 : Int))).map
    fun r => (r.1.1 + ((a : Int) - r.2.1)).toNat

/-- The source bytes that a destination byte depends on. -/
def Packet.needs (p : Packet) (a : Nat) : List Nat :=
  if p.op = 2 then if inRows p.dstRows a then ((p.planeBits (a - p.dst.toNat)).map (·.1)).dedup else []
  else (p.srcOf a).toList

/-- The value of a destination byte, from the source bytes read; none where the copy does not write it. -/
def Packet.value (p : Packet) (got : Memory) (a : Nat) : Option Byte :=
  if p.op = 2 then
    if inRows p.dstRows a then
      some (BitVec.ofNat 8 (((p.planeBits (a - p.dst.toNat)).zipIdx.map fun s =>
        (if (Memory.read got s.1.1).getLsbD s.1.2 then 2 ^ s.2 else 0)).sum))
    else none
  else (p.srcOf a).map (Memory.read got)

/-! ## Probing (R67, R175) -/

/-- Where one side of a copy lies. -/
structure Side where
  via : Via
  part : Nat
  ctx : Nat
  epoch : Option Nat
  scratch : Bool
  banks : List Nat

/-- The side of a convoy's own accesses. -/
def Ctx.side (x : Ctx) (scratch : Bool) : Side :=
  { via := x.via, part := x.c.part, ctx := x.r.ctx, epoch := some x.c.epoch, scratch, banks := x.c.banks }

/-- One byte of a side, translated. -/
def State.sideByte (s : State) (d : Side) (perm : Perm) (a : Nat) : Except (BitVec 16) Trans :=
  if d.scratch then match spadByte d.banks a with
    | some p => .ok ⟨.spad, p⟩
    | none => .error cProtection
  else (s.translate d.via d.part d.ctx d.epoch a perm).map (·.1)

/-- R321, R322: what looking up a byte of a side leaves. -/
def State.sideTouch (s : State) (d : Side) (a : Nat) : State := if d.scratch then s else s.touched d.via d.part d.ctx d.epoch a

/-- R67: the rows of a side probed in order; the first failure, or the state with the translations kept. -/
def State.probeRows (s : State) (d : Side) (perm : Perm) : List (Int × Nat) → Except (BitVec 16 × Int) State
  | [] => .ok s
  | (a, n) :: rest =>
    if n = 0 then s.probeRows d perm rest
    else if a < 0 then .error (cProtection, a)
    else if d.scratch then match probeSpad d.banks a.toNat n with
      | some b => .error (cProtection, (b : Int))
      | none => s.probeRows d perm rest
    else match s.probeRange d.via d.part d.ctx d.epoch perm a.toNat n with
      | .error e => .error (e.1, (e.2 : Int))
      | .ok t => t.probeRows d perm rest

/-- Bytes of a line of a side: 64 in memory (R61), 128 in scratchpad (R65). -/
def Side.unit (d : Side) : Nat := if d.scratch then 128 else 64

/-- The lines that rows touch, in ascending address order, translated. -/
def State.sideLines (s : State) (d : Side) (perm : Perm) (rows : List (Int × Nat)) : List CopyLine :=
  let u := d.unit
  let ns := rows.foldl (fun xs r =>
    if r.2 = 0 ∨ r.1 < 0 then xs
    else (List.range ((r.1.toNat + r.2 + u - 1) / u - r.1.toNat / u)).foldl (fun ys k => insertSorted (r.1.toNat / u + k) ys) xs) []
  ns.filterMap fun n => match s.sideByte d perm (n * u) with
    | .ok t => some { va := n * u, loc := t.loc, line := t.pa / u }
    | .error _ => none

/-- Payload bytes of a copy. -/
def Packet.total (p : Packet) : Nat := p.srcRows.foldl (fun n r => n + r.2) 0

/-! ## Completion (R92, R176, R305) -/

/-- R305: a task's counter decremented; a FREE entry and a counter of 0 discard the decrement. -/
def State.taskDecrement (s : State) (part task : Nat) : State :=
  { s with obj := { s.obj with
      tasks := updateWhere (fun t => t.part == part && t.task == task)
        (fun t => { t with counter := t.counter - 1, since := if t.counter = 1 then s.now else t.since }) s.obj.tasks } }

/-- A copy packet as the job of a partition. -/
def Packet.job (p : Packet) (id : Nat) (src : CopyFrom) (part prog ctx : Nat) (epoch : Option Nat) (quad : Nat) (colid : Word)
    (route lease : Nat) (now : Nat) (banks : List Nat) (pend srcLines : List CopyLine) (shards : Nat) (fromPeer : Bool) : CopyJob :=
  { id, src, part, prog, ctx, epoch, quad, colid, route, lease, op := p.op, flags := p.flags, fmt := p.fmt, hint := p.hint, len := p.len,
    rows := p.rows, srcAddr := p.src, dstAddr := p.dst, sstride := p.sstride, dstride := p.dstride, cwoff := p.cwoff,
    cwval := p.cwval, task := p.task, tmo := p.tmo, issued := now, banks, pend, srcLines, toRead := srcLines, got := [], begun := false, shards,
    fromPeer, accepted := [] }

/-- R338: the engine's buffer of a copy emptied: what its unwritten lines are made of is to be read, or sent, again (DEDUCED; log 54). -/
def CopyJob.emptied (j : CopyJob) : CopyJob :=
  { j with toRead := j.srcLines, got := [], accepted := if j.fromPeer && !j.pend.isEmpty then [] else j.accepted }

/-- The packet of a job. -/
def CopyJob.packet (j : CopyJob) : Packet :=
  { op := j.op, flags := j.flags, fmt := j.fmt, hint := j.hint, len := j.len, rows := j.rows, src := j.srcAddr, dst := j.dstAddr,
    sstride := j.sstride, dstride := j.dstride, cwoff := j.cwoff, cwval := j.cwval, task := j.task, tmo := j.tmo, zero := true }

/-- The scratchpad banks of a copy: those its column holds now. -/
def State.jobBanks (s : State) (j : CopyJob) : List Nat :=
  match j.src with
  | .cv _ col _ => ((s.column? col).map (·.banks)).getD j.banks
  | .ring _ => j.banks

/-- The core whose engine and translation buffer serve a copy. -/
def CopyJob.core (j : CopyJob) : Nat :=
  match j.src with
  | .cv core _ _ => core
  | .ring _ => coreOf j.quad

/-- The source of a copy. -/
def State.srcSide (s : State) (j : CopyJob) : Side :=
  { via := ⟨j.core, none⟩, part := j.part, ctx := j.ctx, epoch := j.epoch, scratch := j.packet.flag 0, banks := s.jobBanks j }

/-- The destination of a copy. -/
def State.dstSide (s : State) (j : CopyJob) : Side :=
  { via := ⟨j.core, none⟩, part := j.part, ctx := j.ctx, epoch := j.epoch, scratch := j.packet.flag 1, banks := s.jobBanks j }

/-- R176: the completion word written with a value, the waiting convoys told. -/
def State.completionWord (s : State) (j : CopyJob) (value : Word) : State :=
  if j.packet.flag 2 then (s.spadWriteNum (s.jobBanks j) j.cwoff 4 value.toNat).notice else s

/-- R93, R176: the issuing convoy's copies counter decremented; a ring has none. -/
def State.copyDone (s : State) (j : CopyJob) : State :=
  match j.src with
  | .cv _ col cv => s.onConvoy col cv fun v => { v with copies := v.copies - 1 }
  | .ring _ => s

/-- R176: a copy completes. -/
def State.finishCopy (s : State) (j : CopyJob) : State :=
  let t := s.completionWord j j.cwval
  let t := match j.src with
    | .cv _ col _ => t.meterCol col 2 j.packet.total
    | .ring _ => t
  let t := if j.packet.flag 3 then t.taskDecrement j.part j.task else t
  ({ t with eng := { t.eng with jobs := t.eng.jobs.filter (·.id != j.id) } }).copyDone j

/-- R176: a copy fails: bit 31 in the completion word, an entry in the fault queue with ACCESS bit 4, no decrement of the task. -/
def State.failCopy (s : State) (j : CopyJob) (code : BitVec 16) (addr : Nat) (access : Nat) : State :=
  let t := s.completionWord j (j.cwval ||| 0x80000000)
  let t := t.faultEntry j.part
    { code, access := 16 + access, service := 0, addr := BitVec.ofNat 64 addr, route := j.route, quad := j.quad,
      colid := j.colid.toNat }
  ({ t with eng := { t.eng with jobs := t.eng.jobs.filter (·.id != j.id) } }).copyDone j

/-! ## Issue (R175) -/

/-- Packets of a core's queue that still hold their place. -/
def State.copyPlaces (s : State) (core : Nat) : Nat :=
  (s.eng.jobs.filter fun j => match j.src with
    | .cv c _ _ => c == core
    | .ring _ => false).length

/-- A line of peer memory. -/
def CopyLine.isPeer (l : CopyLine) : Bool :=
  match l.loc with
  | .peer _ => true
  | _ => false

/-- R362: shards of a copy with a peer side: those of its payload. -/
def Packet.shards (p : Packet) (src dst : List CopyLine) : Nat :=
  if src.any (·.isPeer) || dst.any (·.isPeer) then (p.srcRows.foldl (fun n r => n + r.2) 0 + 4095) / 4096 else 0

/-- A copy issued by a convoy from its packet (R175). -/
def Ctx.startCopy (x : Ctx) (t : State) (p : Packet) : Effect :=
  if p.bad then x.fail t cOperand x.pc.toNat
  else
    let bad (c : BitVec 16) (a : Int) (access : Nat) : Effect := .fault t x.group ⟨c, BitVec.ofInt 64 a, access⟩
    match t.probeRows (x.side (p.flag 0)) .read p.srcRows with
    | .error e => bad e.1 e.2 1
    | .ok u => match u.probeRows (x.side (p.flag 1)) .write p.dstRows with
      | .error e => bad e.1 e.2 2
      | .ok w =>
        let cw := if !p.flag 2 then none else if p.cwoff % 4 ≠ 0 then some p.cwoff else probeSpad x.c.banks p.cwoff 4
        match cw with
        | some a => bad cProtection a 2
        | none =>
          let w := w.forbidRollback x.cur.col
          let src := w.sideLines (x.side (p.flag 0)) .read p.srcRows
          let dst := w.sideLines (x.side (p.flag 1)) .write p.dstRows
          let j := p.job w.nextId (.cv x.core x.cur.col x.cur.cv) x.c.part x.c.prog x.r.ctx (some x.c.epoch) x.v.quad x.c.colid x.r.num
            (if p.hint = 3 then 2 * x.r.lease else x.r.lease) w.now x.c.banks dst src (p.shards src dst)
            (src.any (·.isPeer))
          let w := (w.put x { x.v with copies := x.v.copies + 1 })
          if p.empty then .next (w.finishCopy j)
          else if w.copyPlaces x.core ≥ 64 then .stall t
          else .next { w with nextId := w.nextId + 1, eng := { w.eng with jobs := w.eng.jobs ++ [j] } }

/-- R90: a copy waits until the convoy's earlier accesses are done. -/
def Ctx.issueCopy (x : Ctx) (t : State) (p : Packet) : Effect :=
  if !t.drained x.cur.col x.cur.cv then .stall t else x.startCopy t p

/-- R175: the packet that CPY, CPY2 and CPYP build from eight uniform registers. -/
def Ctx.packet (x : Ctx) (f : MForm) (op rows fmt : Nat) (sstride dstride : Word) : Packet :=
  let n := x.uni f.a 8
  { op, flags := f.ent.toNat % 32, fmt, hint := ((hints.findIdx? (· == f.h.hint)).getD 0), len := bitsOf n 128 32, rows,
    src := BitVec.ofNat 64 (bitsOf n 64 64), dst := BitVec.ofNat 64 (bitsOf n 0 64), sstride, dstride, cwoff := bitsOf n 160 32,
    cwval := BitVec.ofNat 32 (bitsOf n 192 32), task := bitsOf n 224 16, tmo := bitsOf n 240 16, zero := true }
where
  /-- The hint codes in order (R108). -/
  hints : List Hint := [.default, .stream, .keep, .long, .evict, .home]

/-- CPY (R175). -/
def execCpy (f : MForm) (s : State) : Host.Outcome State Fault Refusal :=
  issue (.cpy f) f.h (fun x t => x.issueCopy t (x.packet f 0 1 0 0 0)) s

/-- CPY2 (R175). -/
def execCpy2 (f : MForm) (s : State) : Host.Outcome State Fault Refusal :=
  issue (.cpy2 f) f.h (fun x t =>
    let c := x.uni f.c 2
    x.issueCopy t (x.packet f 1 (x.uni f.b) 0 (BitVec.ofNat 32 c) (BitVec.ofNat 32 (c / 2 ^ 32)))) s

/-- CPYP (R175, R177). -/
def execCpyp (f : MForm) (s : State) : Host.Outcome State Fault Refusal :=
  issue (.cpyp f) f.h (fun x t => x.issueCopy t (x.packet f 2 64 (Fmt.code f.ty).toNat (BitVec.ofNat 32 (x.uni f.b)) 0)) s

/-- CPYQ (R175): a packet prebuilt in scratchpad. -/
def execCpyq (f : MForm) (s : State) : Host.Outcome State Fault Refusal :=
  issue (.cpyq f) f.h (fun x t =>
    let off := x.uni f.b
    if !t.drained x.cur.col x.cur.cv then .stall t
    else if off % 64 ≠ 0 then x.fail t cProtection off 1
    else match probeSpad x.c.banks off 64 with
      | some a => x.fail t cProtection a 1
      | none =>
        let ps : List Piece := (spadByte x.c.banks off).toList.map fun a =>
          { grp := 0, lane := 0, loc := .spad, addr := a, n := 64, off := 0, va := off }
        if ps.any t.poisoned then x.readsPoison t ps off 1
        else x.startCopy t (Packet.of (t.spadNum x.c.banks off 64) false)) s

/-! ## The engine (R90, R91, R176) -/

/-- Why a copy cannot go on: the code, the address and whether a read failed. -/
abbrev CopyBad := BitVec 16 × Nat × Nat

/-- R330: a byte that the copy reads in a line is poisoned. -/
def State.linePoisoned (s : State) (rows : List (Int × Nat)) (l : CopyLine) (t : Trans) (u : Nat) : Bool :=
  s.coh.poison.any fun p => match p, t.loc with
    | .sector n, .dev => n == t.pa / 64
    | .word w, .spad => decide (t.pa ≤ 4 * w) && decide (4 * w < t.pa + u) &&
        (List.range 4).any fun k => inRows rows (l.va + (4 * w - t.pa) + k)
    | _, _ => false

/-- R91: one source line read at one instant, under a lease in device memory. -/
def State.readLine (s : State) (j : CopyJob) (l : CopyLine) : Except CopyBad State :=
  let d := s.srcSide j
  let u := d.unit
  match s.sideByte d .read l.va with
  | .error c => .error (c, l.va, 1)
  | .ok t =>
    let s := (s.sideTouch d l.va).checkBytes j.part t.loc t.pa u
    let s := match j.src with
      | .cv _ col _ => s.meterLoc col t.loc u
      | .ring _ => s
    if s.linePoisoned j.packet.srcRows l t u then .error (cUncorrectable, l.va, 1)
    else
      let leased := match t.loc with
        | .dev => (s.grant (lineOf t.pa) (.engine j.core) (s.now + j.lease)).getD s
        | _ => s
      .ok { leased with eng := { leased.eng with
        jobs := updateWhere (fun k => k.id == j.id) (fun k =>
          { k with begun := true, toRead := k.toRead.filter (· != l)
                   got := Memory.writeBytes k.got l.va (s.peekBytes t.loc t.pa u) }) leased.eng.jobs } }

/-- Source lines read in turn; the first failure. -/
def State.readLines (s : State) (j : CopyJob) : List CopyLine → Except CopyBad State
  | [] => .ok s
  | l :: ls => match s.readLine j l with
    | .error e => .error e
    | .ok t => t.readLines j ls

/-- The source lines that must be read before a destination line is written: those its bytes come from, and those that the write
would change (R176). -/
def State.linesFor (s : State) (j : CopyJob) (l : CopyLine) : List CopyLine :=
  let u := (s.dstSide j).unit
  let su := (s.srcSide j).unit
  let need := (List.range u).flatMap fun k => j.packet.needs (l.va + k)
  j.toRead.filter fun r =>
    (need.any fun a => decide (r.va ≤ a) && decide (a < r.va + su)) ||
    (r.loc.same l.loc && decide (r.line * su < l.line * u + u) && decide (l.line * u < r.line * su + su))

/-- R90: an earlier recorded request for the same line is not yet released. -/
def State.lineClaimed (s : State) (j : CopyJob) (l : CopyLine) : Bool :=
  (s.eng.jobs.takeWhile (·.id != j.id)).any fun k => k.pend.any fun p => p.loc.same l.loc && p.line == l.line

/-- R176: copies of one core's queue begin in append order. -/
def State.mayBegin (s : State) (j : CopyJob) : Bool :=
  j.begun || match j.src with
  | .cv core _ _ => (s.eng.jobs.takeWhile (·.id != j.id)).all fun k => k.begun || match k.src with
    | .cv c _ _ => c != core
    | .ring _ => true
  | .ring _ => true

/-- R90: no lease stands on a destination line. -/
def State.leasesOver (s : State) (l : CopyLine) : Bool :=
  match l.loc with
  | .dev => decide (s.completion none (64 * l.line) 64 ≤ s.now)
  | _ => true

/-- The bytes of a destination line that the copy writes, as runs of (offset in the line, bytes). -/
def CopyJob.lineBytes (j : CopyJob) (l : CopyLine) (u : Nat) : List (Nat × Byte) :=
  (List.range u).filterMap fun k => (j.packet.value j.got (l.va + k)).map fun b => (k, b)

/-- A destination line written: the engine's write completes at its arrival (R90). -/
def State.writeLine (s : State) (j : CopyJob) (l : CopyLine) : Except CopyBad State :=
  let d := s.dstSide j
  match s.sideByte d .write l.va with
  | .error c => .error (c, l.va, 2)
  | .ok t =>
    let bs := j.lineBytes l d.unit
    let s := s.sideTouch d l.va
    let s := match j.src with
      | .cv _ col _ => s.meterLoc col t.loc bs.length
      | .ring _ => s
    let rs := runs (bs.map (·.1))
    let w := rs.foldl (fun (u : State) r =>
      (u.poke none t.loc (t.pa + r.1) ((bs.filter fun b => r.1 ≤ b.1 && b.1 < r.1 + r.2).map (·.2))).1) s
    .ok ({ w with eng := { w.eng with
      jobs := updateWhere (fun k => k.id == j.id) (fun k => { k with begun := true, pend := k.pend.filter (· != l) }) w.eng.jobs } }).notice

/-- A job by its number. -/
def State.job? (s : State) (id : Nat) : Option CopyJob := s.eng.jobs.find? (·.id == id)

/-- R82: no host read of a copy passes a host write of its convoy that is still on its way, and no host write of it passes a HOSTORD 0
one. -/
def State.hostHeld (s : State) (j : CopyJob) (l : CopyLine) (need : List CopyLine) : Bool :=
  s.ops.any fun o => o.kind == .posted && decide (o.seq < j.id) && (match j.src with
    | .cv _ col cv => o.col == col && o.cv == cv
    | .ring _ => false) &&
    ((need.any (·.loc.isHost)) || (l.loc.isHost && o.pieces.any fun p => p.loc == .host false))

/-- R90, R97: an earlier copy has still to write a line that this one reads. -/
def State.sourceClaimed (s : State) (j : CopyJob) (need : List CopyLine) : Bool :=
  (s.eng.jobs.takeWhile (·.id != j.id)).any fun k => k.pend.any fun p => need.any fun l =>
    p.loc.same l.loc && decide (p.line * p.bytes < l.line * l.bytes + l.bytes) && decide (l.line * l.bytes < p.line * p.bytes + p.bytes)

/-- The source addresses of payload byte `n`, in row-major payload order (R362). -/
def Packet.payload (p : Packet) (n : Nat) : Option Nat :=
  let per := ((p.srcRows.head?).map (·.2)).getD 1
  (p.srcRows[n / per]?).map fun r => ((r.1 : Int) + ((n % per : Nat) : Int)).toNat

/-- Source addresses of the bytes of shard `i` (R362). -/
def Packet.shardBytes (p : Packet) (i : Nat) : List Nat :=
  (List.range (min 4096 (p.total - 4096 * i))).filterMap fun k => p.payload (4096 * i + k)

/-- R362: every byte that a destination line is made of lies in an accepted shard. -/
def CopyJob.shardsIn (j : CopyJob) (l : CopyLine) (u : Nat) : Bool :=
  j.shards == 0 ||
  let have_ := j.accepted.flatMap j.packet.shardBytes
  (List.range u).all fun k => (j.packet.needs (l.va + k)).all have_.contains

/-- R90, R91: the source lines of a destination line read, and the line written where it can be owned now. -/
def State.grantLine (s : State) (j : CopyJob) (l : CopyLine) : Except CopyBad State :=
  let need := if j.fromPeer then [] else s.linesFor j l
  let down := match l.loc with
    | .peer k => !s.linkUp k
    | _ => false
  if !j.shardsIn l (s.dstSide j).unit || down || s.hostHeld j l need || s.sourceClaimed j need then .ok s
  else match s.readLines j need with
    | .error e => .error e
    | .ok t => match t.job? j.id with
      | none => .ok t
      | some j' => if t.lineClaimed j' l || !t.leasesOver l then .ok t else t.writeLine j' l

/-- OWNERSHIP_GRANT (R90): the engine reads what destination line `line` of a job needs and, once earlier leases and ownerships of
the line have ended, writes it. A line that cannot go on waits. -/
def execOwnershipGrant (job line : Nat) (s : State) : Host.Outcome State Fault Refusal :=
  match s.job? job with
  | none => .next s
  | some j =>
    match j.pend[line]? with
    | none => .next s
    | some l =>
      if !s.mayBegin j then .next s
      else match s.grantLine j l with
        | .ok t => .next t
        | .error _ => .next s

/-- COPY_COMPLETION (R176): every payload line is written and released. -/
def execCopyCompletion (job : Nat) (s : State) : Host.Outcome State Fault Refusal :=
  match s.job? job with
  | none => .next s
  | some j => if j.pend.isEmpty && j.accepted.length == j.shards then .next (s.finishCopy j) else .next s

/-- R176: what keeps the copy from going on: the first line that cannot be read or written. -/
def State.copyTrouble (s : State) (j : CopyJob) : Option CopyBad :=
  j.pend.findSome? fun l => match s.grantLine j l with
    | .error e => some e
    | .ok _ => none

/-- COPY_FAILURE (R176). -/
def execCopyFailure (job : Nat) (s : State) : Host.Outcome State Fault Refusal :=
  match s.job? job with
  | none => .next s
  | some j =>
    if !s.mayBegin j then .next s
    else match s.copyTrouble j with
      | some e =>
        let u := (s.srcSide j).unit
        let t := j.toRead.foldl (fun t l => t.checkBytes j.part l.loc (l.line * u) u) s
        .next ((t.sideTouch (if e.2.2 = 1 then s.srcSide j else s.dstSide j) e.2.1).failCopy j e.1 e.2.1 e.2.2)
      | none => .next s

end Sys2Proof.Machine
end

