-- ==== Sys2Proof/Machine/Queue.lean ====
section
/-!
DEFINITION. Queue instructions (R178 to R180): reservation, release, append and publication of messages.
-/

namespace Sys2Proof.Machine

/-- The queue of a partition with a number. -/
def State.queue? (s : State) (part qnum : Nat) : Option Queue := s.obj.queues.find? fun q => q.part == part && q.qnum == qnum

/-- A queue object by its identifier. -/
def State.queueId? (s : State) (id : Nat) : Option Queue := s.obj.queues.find? (·.id == id)

/-- A queue object changed. -/
def State.onQueue (s : State) (id : Nat) (f : Queue → Queue) : State :=
  { s with obj := { s.obj with queues := updateWhere (·.id == id) f s.obj.queues } }

/-- The time of a publication that waits for room. -/
def Msg.never : Nat := 2 ^ 64

/-- R297: an append counts against LENEFF when it publishes. The appends that are not published yet, in their order: those that still have
room beside the messages present are published when they are ready, the others wait for room. -/
def Queue.takeIn (q : Queue) (now : Nat) : Queue :=
  let out (m : Msg) : Bool := decide (m.at_ ≤ now)
  let ahead := q.msgs.filter (!out ·)
  let size (a : Nat) : Nat := (ahead.filter (·.app == a)).length
  let fit := ((ahead.map (·.app)).dedup.foldl (fun (r : List Nat × Nat × Bool) a =>
    if r.2.2 && decide (r.2.1 + size a ≤ q.leneff) then (a :: r.1, r.2.1 + size a, true) else (r.1, r.2.1, false))
    ([], (q.msgs.filter out).length, true)).1
  { q with msgs := q.msgs.map fun m =>
      if out m then m else { m with at_ := if fit.contains m.app then max m.ready now else Msg.never } }

/-- R297: a queue object changed, with the appends that wait for room; the operations of those appends take their times. -/
def State.requeue (s : State) (id : Nat) (f : Queue → Queue) : State :=
  let t := s.onQueue id fun q => (f q).takeIn s.now
  match t.queueId? id with
  | none => t
  | some q => { t with ops := t.ops.map fun o => match o.kind, o.aux with
      | .append, [(_, i, a)] =>
        if i = id ∧ s.now < o.comp then { o with comp := ((q.msgs.find? (·.app == a)).map (·.at_)).getD s.now } else o
      | _, _ => o }

/-- R304: the queue number is the input queue of a batch-mode route of the partition. -/
def State.feedsRoute (s : State) (part qnum : Nat) : Bool :=
  s.obj.routes.any fun r => r.part == part && !r.taskMode && r.qnum == qnum

/-- R291: the address of a message's slot. -/
def Queue.slotVa (q : Queue) (k : Nat) : Nat := q.ring + q.msize * (k % q.cap)

/-- Messages published by a time that are not reserved, oldest first. -/
def Queue.unreserved (q : Queue) (now : Nat) : List Msg := q.msgs.filter fun m => !m.reserved && decide (m.at_ ≤ now)

/-- Bits 31:12 of a queue number are 0 (R178). -/
def queueNumber? (w : Nat) : Option Nat := if w < 2 ^ 12 then some w else none

/-! ## Ranges of an agent -/

/-- The bytes of a range of an agent, each as a piece. -/
def State.rangePieces (s : State) (d : Side) (ea n : Nat) (perm : Perm := .read) : List Piece :=
  (List.range n).filterMap fun i => match s.sideByte d perm (ea + i) with
    | .ok t => some { grp := 0, lane := 0, loc := t.loc, addr := t.pa, n := 1, off := 0, va := ea + i }
    | .error _ => none

/-- R327, R329: a range is checked as it is read. -/
def State.checkRange (s : State) (d : Side) (ea n : Nat) : State :=
  (s.rangePieces d ea n).foldl (fun (t : State) p => t.checkBytes d.part p.loc p.addr p.n) s

/-- A byte of a range is poisoned (R330). -/
def State.rangePoisoned (s : State) (d : Side) (ea n : Nat) : Bool := (s.rangePieces d ea n).any s.poisoned

/-- R344: the bytes of a range that cross the host link or a causeway. -/
def State.meterRange (s : State) (col : Nat) (d : Side) (ea n : Nat) (perm : Perm := .read) : State :=
  (s.rangePieces d ea n perm).foldl (fun (t : State) p => t.meterLoc col p.loc p.n) s

/-! ## QRD (R178) -/

/-- R178: the messages a QRD of `n` lanes reserves now; none when it has to wait. -/
def State.qrdTakes (s : State) (part qnum n : Nat) (nw : Bool) : Option (Option Queue × List Msg) :=
  if s.feedsRoute part qnum then some (none, [])
  else match s.queue? part qnum with
    | none => some (none, [])
    | some q =>
      let free := q.unreserved s.now
      if !q.isOpen && q.msgs.isEmpty then some (none, [])
      else if free.length < n then if nw || !q.isOpen then some (some q, free) else none
      else some (some q, free.take n)

/-- Messages of a queue reserved by number. -/
def Queue.reserve (ks : List Nat) (q : Queue) : Queue :=
  { q with msgs := updateWhere (fun m => ks.contains m.k) (fun m => { m with reserved := true }) q.msgs }

/-- R178: messages reserved for the active lanes, oldest first; lanes beyond them receive 0. A message is an acquire (R89). -/
def Ctx.qrdGive (x : Ctx) (t : State) (a : Operand) (qnum : Nat) (q : Option Queue) (ms : List Msg) : State :=
  let va (m : Msg) : Nat := (q.map fun r => r.slotVa m.k).getD 0
  let lanes := x.act.zip ms
  let u := (t.putRegs x a 2 (x.writeReg a 2 (.bits true false) fun l => .pt (((lanes.lookup l).map va).getD 0))).forbidRollback x.cur.col
  match q with
  | none => u
  | some r =>
    if ms.isEmpty then u
    else
      let w := (u.onQueue r.id (Queue.reserve (ms.map (·.k)))).onConvoy x.cur.col x.cur.cv Convoy.discard
      w.onColumn x.cur.col fun c => { c with held := c.held ++ ms.map fun m => { q := qnum, qid := r.id, k := m.k, addr := BitVec.ofNat 64 (va m) } }

/-- R190, R330: the slots of the messages that a QRD gives, probed and checked as it reads them; otherwise the first failure, or the first
slot that is poisoned (DEDUCED; log 87). -/
def Ctx.slotsRead (x : Ctx) (t : State) (q : Option Queue) (ms : List Msg) : Except (Bad × State) State :=
  match q with
  | none => .ok t
  | some r =>
    let d := x.side false
    match t.probeRows d .read (ms.map fun m => ((r.slotVa m.k : Int), r.msize)) with
    | .error e => .error (⟨e.1, BitVec.ofInt 64 e.2, 1⟩, t)
    | .ok w =>
      let u := ms.foldl (fun (u : State) m => u.checkRange d (r.slotVa m.k) r.msize) w
      match ms.find? fun m => u.rangePoisoned d (r.slotVa m.k) r.msize with
      | some m => .error (⟨cUncorrectable, BitVec.ofNat 64 (r.slotVa m.k), 1⟩, u)
      | none => .ok u

/-- R178, R190, R330: what a QRD that does not wait does. -/
def Ctx.qrdTake (x : Ctx) (t : State) (a : Operand) (qnum : Nat) (q : Option Queue) (ms : List Msg) (last : Bool) : Effect :=
  match x.slotsRead t q ms with
  | .error (b, u) => .fault u x.group b
  | .ok u => let w := x.qrdGive u a qnum q ms; if last then .last w else .next w

/-- QRD (R178). -/
def execQrd (f : MForm) (s : State) : Host.Outcome State Fault Refusal :=
  issue (.qrd f) f.h (fun x t =>
    if x.act.isEmpty then .next t
    else match queueNumber? (x.uni f.b) with
      | none => x.fail t cOperand x.pc.toNat
      | some n =>
        let nw := f.ent.getLsbD 0
        match t.qrdTakes x.c.part n x.act.length nw with
        | none => .wait (t.forbidRollback x.cur.col) (.qrd n f.a) none
        | some (q, ms) => x.qrdTake t f.a n q ms !nw) s

/-! ## QACK (R179) -/

/-- R179: the reservation that an address names: one whose message is still present where there is one. -/
def State.heldAt (s : State) (c : Column) (qnum : Nat) (addr : DWord) : Option Held :=
  let hs := c.held.filter fun h => h.q == qnum && h.addr == addr
  let present (h : Held) : Bool := match s.queueId? h.qid with
    | some q => q.msgs.any (·.k == h.k)
    | none => false
  (hs.find? present) <|> hs.head?

/-- R179: one lane's release; a message that is gone is released silently, and the reservation goes with it (DESIGN CHOICE; log 74). -/
def State.release (s : State) (col qnum : Nat) (addr : DWord) : State :=
  match s.column? col with
  | none => s
  | some c => match s.heldAt c qnum addr with
    | none => s
    | some h =>
      (s.requeue h.qid fun q => { q with msgs := q.msgs.filter (·.k != h.k) }).onColumn col fun c =>
        { c with held := c.held.erase h }

/-- QACK (R179): every active lane is checked before any releases. -/
def execQack (f : MForm) (s : State) : Host.Outcome State Fault Refusal :=
  issue (.qack f) f.h (fun x t =>
    if x.act.isEmpty then .next t
    else match queueNumber? (x.uni f.b) with
      | none => x.fail t cOperand x.pc.toNat
      | some n =>
        let loads := t.ops.any fun o => o.col == x.cur.col && o.cv == x.cur.cv && match o.kind with
          | .load .. | .codebook _ => true
          | _ => false
        let addr (l : Nat) : DWord := BitVec.ofNat 64 (x.read l f.a 2).lo
        if loads then .stall t
        else match x.act.find? fun l => addr l != 0 && (t.heldAt x.c n (addr l)).isNone with
          | some l => x.fail t cProtection (addr l).toNat 2
          | none =>
            .next ((x.act.foldl (fun u l => if addr l = 0 then u else u.release x.cur.col n (addr l)) t).forbidRollback x.cur.col)) s

/-! ## QWR and EMIT (R180) -/

/-- The open target queue of a QWR, or of an EMIT to a batch-mode route of the partition. -/
def State.appendTarget (s : State) (part : Nat) (emit : Bool) (target : Nat) : Option Queue :=
  let q := if emit then
      (s.obj.routes.find? fun r => r.part == part && r.num == target && !r.taskMode).bind fun r => s.queue? part r.qnum
    else s.queue? part target
  q.filter (·.isOpen)

/-- R297: the messages present: an append counts from its publication. -/
def Queue.present (q : Queue) (now : Nat) : List Msg := q.msgs.filter fun m => decide (m.at_ ≤ now)

/-- R180: there is room for `n` more messages beside some that are present. -/
def Queue.fits (q : Queue) (n : Nat) (ms : List Msg) : Bool :=
  decide (ms.length + n ≤ q.leneff) && (List.range n).all fun i => !(ms.any fun m => m.k % q.cap == (q.next + i) % q.cap)

/-- R180: there is room for `n` messages, those counted that are still to be published before them. -/
def Queue.hasRoom (q : Queue) (n : Nat) : Bool := q.fits n q.msgs

/-- R180, R297: there is no room for `n` messages. Between the two, the answer waits for the publications ahead (log 42). -/
def Queue.full (q : Queue) (now n : Nat) : Bool := !q.fits n (q.present now)

/-- The bytes of one lane's source, read at one instant; bytes that no longer translate read 0. -/
def State.sourceBytes (s : State) (d : Side) (ea n : Nat) : List Byte :=
  (List.range n).map fun i => match s.sideByte d .read (ea + i) with
    | .ok t => s.peek t.loc t.pa
    | .error _ => 0

/-- R180: messages of one append in their slots, all of them published at one time. -/
def Queue.appended (q : Queue) (n at_ ready : Nat) : Queue :=
  { q with next := q.next + n
           msgs := q.msgs ++ (List.range n).map fun i => { k := q.next + i, at_, reserved := false, app := q.next, ready } }

/-- R99, R180: each lane's message copied into its slot; all of them are published when no copy of a slot's old bytes is left, and not
before the messages ahead of them. The second part is that time. -/
def State.append (s : State) (q : Queue) (core : Nat) (messages : List (List Byte)) : State × Nat :=
  let w := messages.zipIdx.foldl (fun (r : State × Nat) m =>
    let t := r.1.ringBytes core q.part q.ctx (q.slotVa (q.next + m.2)) m.1
    (t.1, max r.2 t.2)) (s, s.now)
  let ready := (q.msgs.map (·.ready)).foldl max w.2
  let at_ := (q.msgs.map (·.at_)).foldl max ready
  (w.1.onQueue q.id (·.appended messages.length at_ ready), at_)

/-- The ring of a queue as its messages are written. -/
def Queue.side (q : Queue) (core : Nat) : Side := { via := ⟨core, none⟩, part := q.part, ctx := q.ctx, epoch := none, scratch := false, banks := [] }

/-- R82: the sources of an append and the slots of its messages would pass host writes of the convoy. -/
def Ctx.appendHeld (x : Ctx) (t : State) (q : Queue) (space : Space) (srcs : List (Nat × Nat)) : Bool :=
  t.passesPosted x.cur.col x.cur.cv (srcs.flatMap fun la => t.rangePieces (x.side (space == .scratch)) la.2 q.msize)
    (srcs.zipIdx.flatMap fun k => t.rangePieces (q.side x.core) (q.slotVa (q.next + k.2)) q.msize .write)

/-- R93, R180: the active lanes' messages appended, and counted as a store until they are published; an effect that forbids a rollback
(R332). What crosses the host link or a causeway is metered (R344). -/
def Ctx.appendAll (x : Ctx) (t : State) (q : Queue) (space : Space) (srcs : List (Nat × Nat)) : State :=
  let d := x.side (space == .scratch)
  let m := srcs.zipIdx.foldl (fun (m : State) k =>
    (m.meterRange x.cur.col d k.1.2 q.msize).meterRange x.cur.col (q.side x.core) (q.slotVa (q.next + k.2)) q.msize .write) t
  let w := m.append q x.core (srcs.map fun la => t.sourceBytes d la.2 q.msize)
  let o : Op := { id := w.1.nextId, col := x.cur.col, cv := x.cur.cv, quad := x.v.quad, pc := x.pc, kind := .append, hint := .default,
                  lease := 0, lanes := x.act, pieces := [], vals := [], aux := [(0, q.id, q.next)], comp := w.2, issued := t.now, seq := w.1.nextId, csys := 0,
                  recalled := false }
  ({ w.1 with nextId := w.1.nextId + 1, ops := w.1.ops ++ [o] }.onConvoy x.cur.col x.cur.cv fun v =>
    { v with stores := v.stores + 1, ctdev := max v.ctdev w.2 }).forbidRollback x.cur.col

/-- QWR and EMIT at issue (R180). -/
def Ctx.startAppend (x : Ctx) (t : State) (f : MForm) (emit : Bool) : Effect :=
  let target := x.uni f.a
  if x.act.isEmpty then .next t
  else if !emit ∧ (queueNumber? target).isNone then x.fail t cOperand x.pc.toNat
  else match t.appendTarget x.c.part emit target with
    | none => x.fail t cQueue 0
    | some q =>
      let d := x.side (f.space == .scratch)
      let srcs := x.act.map fun l => (l, x.ea f l)
      match t.probeRows d .read (srcs.map fun la => (la.2, q.msize)) with
      | .error e => .fault t x.group ⟨e.1, BitVec.ofInt 64 e.2, 1⟩
      | .ok u =>
        if !u.fenceDev x then .stall u
        else
          let srcs := srcs.map fun la => (la.1, la.2.toNat)
          let u := srcs.foldl (fun (u : State) la => u.checkRange d la.2 q.msize) u
          let pred := bitsOf f.ent.toNat 0 3
          let set (w : State) (b : Bool) : State := w.onConvoy x.cur.col x.cur.cv fun v => v.setPreds x.act (some (BitVec.ofNat 3 pred)) b
          match srcs.find? fun la => u.rangePoisoned d la.2 q.msize with
          | some la => x.fail u cUncorrectable la.2 1
          | none =>
            if q.hasRoom x.act.length && x.appendHeld u q f.space srcs then .stall u
            else if q.hasRoom x.act.length then
              let w := x.appendAll u q f.space srcs
              if pred < 7 then .next (set w true) else .last w
            else if !q.full t.now x.act.length then .stall u
            else if pred < 7 then .next (set u false)
            else .wait u (.append emit (BitVec.ofNat 32 target) srcs f.space) none

/-- QWR (R180). -/
def execQwr (f : MForm) (s : State) : Host.Outcome State Fault Refusal := issue (.qwr f) f.h (fun x t => x.startAppend t f false) s

/-- EMIT (R180). -/
def execEmit (f : MForm) (s : State) : Host.Outcome State Fault Refusal := issue (.emit f) f.h (fun x t => x.startAppend t f true) s

end Sys2Proof.Machine
end

