-- ==== Sys2Proof/Machine/Launch.lean ====
section
/-!
DEFINITION. The dispatcher: accounts (R308, R309), room and placement (R8, R71, R303), column start (R11, R12), the ENTRY overlay
(R216, R217), batches (R304), named tasks (R306), bounds launches (R240, R242, R253) and column end (R13).
-/

namespace Sys2Proof.Machine

/-! ## Accounts -/

/-- An account of a partition. -/
def State.account? (s : State) (part acct : Nat) : Option Account := s.obj.accts.find? fun a => a.part == part && a.acct == acct

/-- R308: a level is an i64; the manual states none for a value outside that range (log 78). -/
def toLevel (x : Int) : Int := if -2 ^ 63 ≤ x ∧ x < 2 ^ 63 then x else (BitVec.ofNat 64 (Config.levelOver x)).toInt

/-- R308: an account is dry while LEVEL is at most 0, or while it is absent; account 0 has no limit until its record converges. -/
def State.dry (s : State) (part acct : Nat) : Bool :=
  match s.account? part acct with
  | some a => decide (a.level ≤ 0)
  | none => acct != 0

/-! ## Room (R8, R71, R303) -/

/-- The column lies in its frame. -/
def Column.isSaved (c : Column) : Bool :=
  match c.phase with
  | .saved _ => true
  | _ => false

/-- R8: lane-register words of one convoy. -/
def Route.convoyWords (r : Route) (bmode : Bool) : Nat := r.width * r.nregs * (if bmode then 2 else 1)

/-- Convoys resident on a quadrant. -/
def State.convoysOn (s : State) (quad : Nat) : Nat :=
  (s.cols.map fun c => if c.isSaved then 0 else (c.cvs.filter (·.quad == quad)).length).sum

/-- Lane-register words in use on a quadrant. -/
def State.wordsOn (s : State) (quad : Nat) : Nat :=
  (s.cols.map fun c => if c.isSaved then 0
    else (c.cvs.filter (·.quad == quad)).length * (((s.route? c.part c.prog).map (·.convoyWords c.bmode)).getD 0)).sum

/-- R71: a column whose route has matrix code holds the accumulator store of its convoys' quadrants. -/
def State.holdsTiles (s : State) (c : Column) : Bool := ((s.route? c.part c.prog).map (·.holdsAcc)).getD false

/-- R71: the accumulator store of a quadrant is held by a resident column, or holds the tiles of a saved one that were not written
out. -/
def State.storeHeld (s : State) (quad : Nat) (except : Option Nat) : Bool :=
  s.cols.any fun c => some c.id != except && s.holdsTiles c && !(c.isSaved && c.tilesOut) && c.cvs.any (·.quad == quad)

/-- R8: convoys of a route that a quadrant can take. -/
def State.capacity (s : State) (part : Nat) (r : Route) (bmode : Bool) (quad : Nat) (self : Option Nat) : Nat :=
  if !(((s.part? part).map fun p => p.qmap.getLsbD quad).getD false) || s.storeHeld quad self then 0
  else min (16 - s.convoysOn quad) ((32768 - s.wordsOn quad) / r.convoyWords bmode)

/-- The core by which a column of a route that uses a core is placed: for a pair the even one. -/
def Route.baseOf (r : Route) (core : Nat) : Nat := if r.pair then core - core % 2 else core

/-- The cores a column of a route uses: one, or an even core and the next. -/
def Route.coresAt (r : Route) (core : Nat) : List Nat := if r.pair then [core, core + 1] else [core]

/-- R303: a bank that belongs to a partition and that no column holds. -/
def State.bankFree (s : State) (part bank : Nat) : Bool :=
  (((s.part? part).map fun p => p.qmap.getLsbD (4 * (bank / 32) + bank % 32 / 8)).getD false) &&
  !(s.cols.any fun c => !(c.isSaved && c.banksOut) && c.banks.contains bank)

/-- R303: the lowest-numbered free banks of a core. -/
def State.banksAt (s : State) (part core n : Nat) : Option (List Nat) :=
  let bs := (((List.range 32).map (· + 32 * core)).filter (s.bankFree part)).take n
  if bs.length = n then some bs else none

/-- R69, R303: the banks a column would get on a core, or pair, in logical order. -/
def State.banksFor (s : State) (part : Nat) (r : Route) (core : Nat) : Option (List Nat) :=
  if r.pair then (s.banksAt part core (r.spbanks / 2)).bind fun a => (s.banksAt part (core + 1) (r.spbanks / 2)).map fun b => a ++ b
  else s.banksAt part core r.spbanks

/-- R8: the quadrants chosen for a column's convoys have room. -/
def State.quadsOk (s : State) (part : Nat) (r : Route) (bmode : Bool) (core : Nat) (quads : List Nat) (self : Option Nat) : Bool :=
  quads.length == r.nconv && (!r.pair || core % 2 == 0) &&
  quads.all fun q => (r.coresAt core).contains (coreOf q) && quads.count q ≤ s.capacity part r bmode q self

/-- Room for a column of a route somewhere on a core. -/
def State.fits (s : State) (part : Nat) (r : Route) (bmode : Bool) (core : Nat) : Bool :=
  (!r.pair || core % 2 == 0) && (s.banksFor part r core).isSome &&
  decide (r.nconv ≤ ((r.coresAt core).flatMap fun c => (List.range 4).map fun k => s.capacity part r bmode (4 * c + k) none).sum)

/-! ## The ENTRY overlay (R216, R217) -/

/-- The dispatcher waits for a load of ENTRY's overlay. -/
def State.markEntry (s : State) (core part prog handle : Nat) : State :=
  s.setRes { s.res core part prog handle with entry := true }

/-- R216: the overlay of ENTRY sought on the cores of a column. -/
def State.entryLoads (s : State) (r : Route) : List Nat → State × LoadAnswer
  | [] => (s, .resident)
  | core :: rest =>
    let h := pcHandle r.entry
    match r.dirEntry h with
    | none => (s, .noBay)
    | some d => match s.load core r.part r.slot h d with
      | (_, .noBay) => (s, .noBay)
      | (t, a) =>
        let t := if a == .loading then t.markEntry core r.part r.slot h else t
        match t.entryLoads r rest with
        | (u, .resident) => (u, a)
        | w => w

/-- R217: no core on which the column fits has a bay for its ENTRY overlay. -/
def State.noBayAnywhere (s : State) (r : Route) (bmode : Bool) : Bool :=
  (List.range 320).all fun core => !s.fits r.part r bmode core || (s.entryLoads r (r.coresAt core)).2 == .noBay

/-- R217: one NO_BAY entry for a launch that finds a bay nowhere. -/
def State.noBayEntry (s : State) (r : Route) (bmode : Bool) : State :=
  if r.noBay || !s.noBayAnywhere r bmode then s
  else
    let t := s.faultEntry r.part { code := cNoBay, access := 0x18, service := 0, addr := BitVec.setWidth 64 r.entry, route := r.num,
                                   quad := 0xFFFF, colid := 0xFFFFFFFF }
    { t with obj := t.obj.onRoute r.part r.slot fun r => { r with noBay := true } }

/-! ## Column start (R11) -/

/-- A lane at column start, exited. -/
def Route.startLane (r : Route) : Lane := { Lane.zero with pc := r.entry }

/-- R11: the lanes of convoy c where a test on the lane's number in the column says which are live. -/
def Route.startLanes (r : Route) (live : Nat → Bool) (c : Nat) : List Lane :=
  (List.range r.width).map fun l => { r.startLane with live := live (c * r.width + l) }

/-- R242: the lanes of convoy c of a bounds-pass column with its tiles, from the column's first on. -/
def Route.tileLanes (r : Route) (tiles : List Tile) (c : Nat) : List Lane :=
  (List.range r.width).map fun l => match tiles[c * r.width + l]? with
    | some t => r.startLane.withTile r t
    | none => r.startLane

/-- R253: the lanes of convoy c of an element column with its elements. -/
def Route.elementLanes (r : Route) (es : List (Tile × Nat × Nat)) (c : Nat) : List Lane :=
  (List.range r.width).map fun l => match es[c * r.width + l]? with
    | some e => r.startLane.withElement e.1 e.2
    | none => r.startLane

/-- A convoy at column start (R11, R93, R206, R229, R236). It counts as having issued its last clause at wall time 0, so that new convoys
go before all others of their priority and tie among themselves, whenever they were launched (DESIGN CHOICE, safe: R25 orders convoys by
the clause they issued last and names none for a new one; log 68). -/
def Convoy.start (lanes : List Lane) (sregs : List (Nat × Word)) (quad : Nat) : Convoy :=
  { lanes, sregs, loads := 0, stores := 0, copies := 0, tileOps := 0, ctdev := 0, ctsys := 0, stack := [], traddr := 0, ports := [],
    books := [], atts := [], wait := none, after := none, liveCount := 128, perf := [], quad, firstIssue := some 0,
    ended := lanes.all fun l => !l.live, relaxedSent := false, lastClause := 0, yieldUntil := none, boundary := [],
    fencing := none, arrived := [] }

/-- R11: s0 to s3 at column start. -/
def startRegs (addr : DWord) (n msize : Nat) : List (Nat × Word) :=
  let m := insertD 0 (insertD 0 [] 0 (loWord addr)) 1 (hiWord addr)
  insertD 0 (insertD 0 m 2 (BitVec.ofNat 32 n)) 3 (BitVec.ofNat 32 msize)

/-- Where a column is placed. -/
structure Spot where
  core : Nat
  quads : List Nat
  banks : List Nat

/-- What a launched column is given. -/
structure Start where
  task : Word
  bmode : Bool
  launch : Option Nat
  batch : Option Batch
  epoch : Nat
  regs : List (Nat × Word)
  /-- The lanes of each convoy. -/
  lanes : List (List Lane)

/-- R23, R315: the register file of quadrants taken over: dead registers of the saved convoys that ran there, but for those of the column
that comes back, read 0. -/
def State.takeQuads (s : State) (quads : List Nat) (self : Option Nat := none) : State :=
  let clear (bmode : Bool) (v : Convoy) : Convoy :=
    if quads.contains v.quad then
      { v with lanes := v.lanes.map fun l => { l with regs := l.regs.filter fun p => p.1 % (if bmode then 64 else 128) < v.liveCount } }
    else v
  { s with cols := s.cols.map fun k => if k.isSaved && some k.id != self then { k with cvs := k.cvs.map (clear k.bmode) } else k }

/-- R104: a convoy that starts at an ENTRY that is no legal target faults there before its first instruction, in every live lane
(DEDUCED; log 69). -/
def State.enterAt (s : State) (r : Route) (v : Convoy) : Convoy :=
  if s.targetOk (coreOf v.quad) r.part r.slot r.entry || v.ended then v
  else { v with boundary := [(cBranch, BitVec.setWidth 64 r.entry)] }

/-- R28, R310: the room made for a launch or a column is taken. -/
def State.takeRoom (s : State) (part : Nat) (who : Who) : State :=
  { s with fw := { s.fw with rooms := s.fw.rooms.eraseP fun m => m.part == part && m.who == who } }

/-- R9, R11, R331: a column of a route launched; the checksum status of the quadrants it holds starts at 0 (R207). -/
def State.newColumn (s : State) (r : Route) (p : Spot) (a : Start) : State :=
  let cvs := (a.lanes.zip p.quads).map fun lq => s.enterAt r (Convoy.start lq.1 a.regs lq.2)
  let c : Column :=
    { id := s.nextId, part := r.part, prog := r.slot, colid := BitVec.ofNat 32 r.nextCol, task := a.task, bmode := a.bmode,
      launch := a.launch, core := p.core, banks := p.banks, cvs, cvregs := [], tokens := [], held := [], batch := a.batch,
      epoch := a.epoch, phase := .running, killed := false, doomed := false, banksOut := false, tilesOut := false, since := s.now,
      check := { cvs, cvregs := [], spad := s.spadImage p.banks }, noRollback := false, undo := [] }
  let u := if r.holdsAcc then p.quads.foldl (fun t q => (t.setCksum q 0 0).setCksum q 1 0) (s.takeQuads p.quads) else s.takeQuads p.quads
  { (u.meter r.part r.acct 5 1).takeRoom r.part (.launch r.slot) with
    nextId := s.nextId + 1
    cols := u.cols ++ [c]
    obj := s.obj.onRoute r.part r.slot fun r => { r with nextCol := r.nextCol + 1, noBay := false } }

/-! ## Batches (R304) -/

/-- R353: the weight epoch of a context. -/
def State.weightEpoch (s : State) (part ctx : Nat) : Nat := ((s.ctx? part ctx).map (·.epoch)).getD 0

/-- R352, R353: a capture of the context's weight sets. -/
def State.capture (s : State) (part ctx : Nat) : State :=
  { s with obj := { s.obj with
      wsets := updateWhere (fun w => w.part == part && w.ctx == ctx) (fun w => { w with lastUse := s.now }) s.obj.wsets } }

/-- W4 THRESH. -/
def Route.thresh (r : Route) : Nat := bitsOf (r.word 4) 16 11

/-- W4 TIMEOUT. -/
def Route.timeout (r : Route) : Nat := bitsOf (r.word 4) 32 32

/-- R304: the coalescing timeout of the oldest unreserved record has passed. -/
def Route.overdue (r : Route) (q : Queue) (now : Nat) : Bool :=
  match (q.unreserved now).head? with
  | some m => r.timeout != 0 && decide (m.at_ + r.timeout ≤ now)
  | none => false

/-- R304: the launch condition. -/
def Route.launchable (r : Route) (q : Queue) (now : Nat) : Bool :=
  decide (r.thresh ≤ (q.unreserved now).length) || r.overdue q now || (r.due && !(q.unreserved now).isEmpty)

/-- R304: the batch formed now. -/
def Route.nextBatch (r : Route) (q : Queue) (now epoch : Nat) : Batch :=
  let k0 := (((q.unreserved now).head?).map (·.k)).getD 0
  { qid := q.id, k0, n := min (min (q.unreserved now).length r.laneCount) (q.cap - k0 % q.cap), epoch, addr := q.slotVa k0, msize := q.msize }

/-- The records of a batch marked reserved or unreserved. -/
def State.reserveBatch (s : State) (b : Batch) (on : Bool) : State :=
  s.onQueue b.qid fun q => { q with msgs := updateWhere (fun m => b.k0 ≤ m.k && m.k < b.k0 + b.n) (fun m => { m with reserved := on }) q.msgs }

/-- R13, R240: the records of a batch released. -/
def State.releaseBatch (s : State) (b : Batch) : State :=
  s.requeue b.qid fun q => { q with msgs := q.msgs.filter fun m => !(b.k0 ≤ m.k && m.k < b.k0 + b.n) }

/-- R304: the batch of a route that waits to be placed, or one formed now and reserved. -/
def State.decideBatch (s : State) (r : Route) : Option (State × Batch) :=
  match r.waiting with
  | some b => some (s, b)
  | none =>
    match s.queue? r.part r.qnum with
    | none => none
    | some q =>
      if !r.launchable q s.now then none
      else
        let b := r.nextBatch q s.now (s.weightEpoch r.part r.ctx)
        let t := (s.capture r.part r.ctx).reserveBatch b true
        let u := { t.obj with routes := updateWhere (fun x => x.part == r.part && x.qnum == r.qnum) (fun x => { x with due := false }) t.obj.routes }
        some ({ t with obj := u.onRoute r.part r.slot fun r => { r with waiting := some b } }, b)

/-- R11: the start registers of a batch. -/
def Batch.regs (b : Batch) : List (Nat × Word) := startRegs (BitVec.ofNat 64 b.addr) b.n b.msize

/-- R240, R242: a bounds launch begins with the first column of round 0. -/
def State.startBounds (s : State) (r : Route) (p : Spot) (task : Word) (arg : DWord) (batch : Option Batch) (msize epoch : Nat)
    (regs : List (Nat × Word)) : State :=
  let l : Launch :=
    { id := s.nextId, part := r.part, prog := r.slot, task, arg, batch, msize, epoch, tiles := r.roundZero, launched := 1,
      quarters := [], deferred := [], round := 0, element := false, killed := false, since := s.now }
  { s with nextId := s.nextId + 1, launches := s.launches ++ [l] }.newColumn r p
    { task, bmode := true, launch := some l.id, batch, epoch, regs, lanes := (List.range r.nconv).map (r.tileLanes l.tiles) }

/-- R11, R304: the column of a batch, or the first of its bounds launch. -/
def State.startBatch (s : State) (r : Route) (p : Spot) (b : Batch) : State :=
  let regs := b.regs
  let t := { s with obj := s.obj.onRoute r.part r.slot fun r => { r with waiting := none } }
  if r.bounds then t.startBounds r p 0xFFFFFFFF 0 (some b) b.msize b.epoch regs
  else t.newColumn r p { task := 0xFFFFFFFF, bmode := false, launch := none, batch := some b, epoch := b.epoch, regs,
                         lanes := (List.range r.nconv).map (r.startLanes (decide <| · < b.n)) }

/-! ## Named tasks (R306) -/

/-- An ARMED task entry. -/
def State.task? (s : State) (part task : Nat) : Option Task := s.obj.tasks.find? fun t => t.part == part && t.task == task

/-- A task entry made FREE. -/
def State.freeTask (s : State) (part task : Nat) : State :=
  { s with obj := { s.obj with tasks := s.obj.tasks.filter fun t => !(t.part == part && t.task == task) } }

/-! ## Bounds launches (R240, R242, R253) -/

/-- A bounds launch by its number. -/
def State.launch? (s : State) (id : Nat) : Option Launch := s.launches.find? (·.id == id)

/-- One bounds launch changed. -/
def State.onLaunch (s : State) (id : Nat) (f : Launch → Launch) : State := { s with launches := updateWhere (·.id == id) f s.launches }

/-- Columns of a launch that have not ended. -/
def State.launchRuns (s : State) (id : Nat) : Bool := s.cols.any fun c => c.launch == some id

/-- The start registers of a launch's columns. -/
def Launch.regs (l : Launch) : List (Nat × Word) :=
  match l.batch with
  | some b => b.regs
  | none => startRegs l.arg 0 0

/-- R240: every column of the round has been launched and has ended: the next round's tiles. -/
def State.nextRound (s : State) (r : Route) (l : Launch) : Launch :=
  if l.launched * r.laneCount < l.tiles.length || s.launchRuns l.id then l
  else { l with tiles := l.nextTiles, launched := 0, quarters := [], round := l.round + 1 }

/-- R240: the bounds pass of a launch is over: no round is left. -/
def State.passOver (s : State) (r : Route) (l : Launch) : Bool :=
  l.element || (!s.launchRuns l.id && l.tiles.length ≤ l.launched * r.laneCount && l.quarters.isEmpty)

/-! ## Column end (R13) -/

/-- R13: every convoy has ended, every counter is zero, and wall time has passed the latest completion time. -/
def State.columnOver (s : State) (c : Column) : Bool :=
  c.cvs.all fun v => v.ended && v.loads == 0 && v.stores == 0 && v.copies == 0 && v.tileOps == 0 && decide (v.ctdev ≤ s.now)

/-- R240: a launch with no column left to launch and none running ends, and its batch is released. -/
def State.endLaunch (s : State) (id : Nat) : State :=
  match s.launch? id with
  | none => s
  | some l => match s.route? l.part l.prog with
    | none => { s with launches := s.launches.filter (·.id != id) }
    | some r =>
      let n := if l.element then l.launched else 0
      let ended := !s.launchRuns id &&
        (l.killed || r.stopped || (s.passOver r l && (l.elements r).length ≤ n * r.laneCount))
      if !ended then s
      else
        let t := { s with launches := s.launches.filter (·.id != id) }
        match l.batch with
        | some b => t.releaseBatch b
        | none => t

/-! ## Weight-set generations (R353) -/

/-- R353: the weight epochs captured in a context by batches and tasks that have not ended. -/
def State.captures (s : State) (part ctx : Nat) : List Nat :=
  let inCtx (prog : Nat) : Bool := (s.route? part prog).any fun r => r.ctx == ctx
  ((s.cols.filter fun c => c.part == part && inCtx c.prog).map (·.epoch)) ++
  ((s.launches.filter fun l => l.part == part && inCtx l.prog).map (·.epoch)) ++
  (s.obj.routes.filterMap fun r => if r.part = part ∧ r.ctx = ctx then r.waiting.map (·.epoch) else none)

/-- R353: a generation of a set is bound to some batch. -/
def State.genBound (s : State) (w : WeightSet) (g : WsGen) : Bool := (s.captures w.part w.ctx).any fun e => w.genAt e == some g

/-- R351: a set shows a page of backing. -/
def WeightSet.shows (w : WeightSet) (pa : Nat) : Bool := w.gens.any fun g => g.pages.any fun p => p.2 == pa

/-- R351: a page of backing belongs to a set that shows it: to the one it belonged to before, else to the first that is left. -/
def State.inherit (s : State) (g : Page) : Page :=
  let left := s.obj.wsets.filter (·.shows g.pa)
  if left.any fun w => w.part == g.part && w.slot == g.slot then g
  else match left.head? with
    | some w => { g with part := w.part, ctx := w.ctx, slot := w.slot }
    | none => g

/-- R351: of pages of backing, those that no generation shows any more are zeroed and free; the others belong to a set that is left. -/
def State.freeBacking (s : State) (pas : List Nat) : State :=
  let gone := pas.filter fun pa => !(s.obj.wsets.any (·.shows pa))
  let t := gone.foldl (fun t pa => { t.zeroDev pa 4096 with obj := { t.obj with pages := t.obj.pages.filter (·.pa != pa) } }) s
  { t with obj := { t.obj with pages := updateWhere (fun g => pas.contains g.pa) t.inherit t.obj.pages } }

/-- R353: earlier generations to which no batch is bound any more give up their backing. -/
def State.dropGens (s : State) : State :=
  s.obj.wsets.foldl (fun t w =>
    let now := w.genAt (t.weightEpoch w.part w.ctx)
    let keep := w.gens.take 1 ++ (w.gens.drop 1).filter fun g => now == some g || t.genBound w g
    let lost := (w.gens.filter fun g => !keep.contains g).flatMap fun g => g.pages.map (·.2)
    { t with obj := { t.obj with
        wsets := updateWhere (fun x => x.part == w.part && x.slot == w.slot) (fun x => { x with gens := keep }) t.obj.wsets }
      }.freeBacking lost) s

/-- COLUMN_END (R13): references, tokens, banks and tiles are given up; the batch's records are released. -/
def execColumnEnd (col : Nat) (s : State) : Host.Outcome State Fault Refusal :=
  match s.column? col with
  | none => .next s
  | some c =>
    if !s.columnOver c then .next s
    else
      let t := { s with
        cols := s.cols.filter (·.id != col)
        coh := { s.coh with poison := s.coh.poison.filter fun p => match p with
          | .reg k .. | .weak (.reg k ..) | .broken (.reg k ..) => k != col
          | _ => true } }
      match c.launch, c.batch with
      | some l, _ => .next (t.endLaunch l).settle.dropGens
      | none, some b => .next (t.releaseBatch b).settle.dropGens
      | none, none => .next t.settle.dropGens

end Sys2Proof.Machine
end

