-- ==== Sys2Proof/Machine/Records.lean ====
section
/-!
DEFINITION. Records as the Surveyor sees them (R286 to R292): where they lie, header, trailer and bodies; the actual-state table
(R299), milestones (R300, R301) and the fault-queue entries of records (R368).
-/

namespace Sys2Proof.Machine

/-! ## Functions: 0 is the physical function, n + 1 is partition n -/

/-- The partition of a function. -/
def State.fnPart (s : State) (fn : Nat) : Option Partition := if fn = 0 then none else s.part? (fn - 1)

/-- A function whose records exist: the physical function from reduced service on, a partition while its record is in effect. -/
def State.fnUp (s : State) (fn : Nat) : Bool := s.fw.svc != .rom && (fn == 0 || (s.fnPart fn).isSome)

/-- R286: the DSR base. -/
def State.dsrBase (s : State) (fn : Nat) : Nat := if fn = 0 then 0x1800000 else ((s.fnPart fn).map (·.dsrpa)).getD 0

/-- R286: the AST base. -/
def State.astBase (s : State) (fn : Nat) : Nat := if fn = 0 then 0x1810000 else s.dsrBase fn + 0x400000

/-- R286, R323: the fault queue. -/
def State.faultBase (s : State) (fn : Nat) : Nat := if fn = 0 then 0x40000 else s.dsrBase fn + 0x440000

/-- R286, R300: the milestone ring and its number of entries. -/
def State.msRing (s : State) (fn : Nat) : Nat × Nat :=
  if fn = 0 then (0x400000, 4096) else ((s.fnPart fn).map fun p => (p.msrpa, p.mslen)).getD (0, 1)

/-- R286: record slots of a function. -/
def slotsOf (fn : Nat) : Nat := if fn = 0 then 64 else 4096

/-- The black box's name of a function's partition. -/
def fnName (fn : Nat) : Nat := if fn = 0 then 0xFF else fn - 1

/-! ## The state of a record -/

/-- The Surveyor's state of a record, if it has judged any version. -/
def State.rec? (s : State) (fn slot : Nat) : Option Rec := s.recs.find? fun r => r.fn == fn && r.slot == slot

/-- A record before any version. -/
def Rec.fresh (fn slot : Nat) : Rec :=
  { fn, slot, kind := 0, st := .idle, present := false, frozen := false, closed := false, blocked := false, writer := 0, accepted := 0,
    converged := 0, tchg := 0, outcome := 0, discard := 0, acc := none, eff := none, waiting := [], judged := [], kindBytes := [],
    retry := false, due := none }

/-- The state of a record. -/
def State.recOf (s : State) (fn slot : Nat) : Rec := (s.rec? fn slot).getD (Rec.fresh fn slot)

/-- The step in flight (R295). -/
def Rec.inFlight (r : Rec) : Bool := r.st == .applying || r.st == .draining

/-! ## Header and body fields -/

/-- PRES PRESENT. -/
def Version.wants (v : Version) : Bool := v.pres == 1

/-- A little-endian field of a body. -/
def Version.num (v : Version) (off n : Nat) : Nat := numberOf ((v.body.drop off).take n)

/-- R291: PARENT of a body, for the kinds that have one. -/
def Version.parent (v : Version) : Option Nat :=
  match v.kind with
  | 3 | 4 | 6 => some (v.num 0 4)
  | 5 => some (v.num 0x100 4)
  | _ => none

/-- R293: the records a version depends on: PARENT, and for a DELTA its BASEREC. -/
def Version.deps (v : Version) : List Nat :=
  v.parent.toList ++ if v.kind = 4 ∧ v.num 4 1 = 1 then [v.num 8 4] else []

/-- The body whose dependencies count for a record: that of the step in flight, or that in effect. -/
def Rec.dependsOn (r : Rec) (slot : Nat) : Bool :=
  (r.present && (r.eff.any fun v => v.deps.contains slot)) ||
  (r.inFlight && (r.acc.any fun v => v.deps.contains slot))

/-! ## The snapshot (R287, R290) -/

/-- A snapshot of a record slot. -/
structure Snapshot where
  v : Version
  recid : Nat
  /-- Every reserved field of the header is zero. -/
  clean : Bool
  /-- R290: VER, TWRITER and CSUM agree. -/
  whole : Bool

/-- R287, R290: the header and the half of VERSION read at one instant. -/
def State.snapshot (s : State) (fn slot : Nat) : Snapshot :=
  let a := s.dsrBase fn + 1024 * slot
  let pf := fn == 0
  let bytes (o n : Nat) : List Byte := if pf then Memory.bytes s.store.pf (a + o) n else Memory.bytes s.store.dev (a + o) n
  let num (o n : Nat) : Nat := numberOf (bytes o n)
  let ver := num 0x10 8
  let half := bytes (if ver % 2 = 0 then 0x40 else 0x220) 0x1E0
  let writer := num 4 4
  { v := { ver, kind := num 0 2, pres := num 2 1, flags := num 3 1, writer, base := num 0x18 8, body := half.take 0x1D0 }
    recid := num 8 4
    clean := num 0xC 4 == 0 && num 0x20 32 == 0
    whole := numberOf ((half.drop 0x1D0).take 8) == ver && numberOf ((half.drop 0x1D8).take 4) == writer &&
      numberOf ((half.drop 0x1DC).take 4) == crc32c (bytes 0 8 ++ bytes 0x18 8 ++ half.take 0x1DC) }

/-! ## The actual-state table (R299) -/

/-- R295: the code of a state. -/
def RecSt.code : RecSt → Nat
  | .idle => 0
  | .applying => 1
  | .draining => 2
  | .converged => 3
  | .failed => 4

/-- R353: GEN and OLDGENS of a weight set: the generation in effect, and those before it. -/
def State.genBytes (s : State) (w : WeightSet) : List Byte :=
  let gs := w.gens.filter fun g => g.epoch ≤ s.weightEpoch w.part w.ctx
  bytesOf 4 (((gs.head?).map (·.epoch)).getD 0) ++ bytesOf 4 (gs.length - 1) ++ List.replicate 16 0

/-- R299: the per-kind bytes of an entry, as they stand now. -/
def State.astKind (s : State) (r : Rec) : List Byte :=
  let part := r.fn - 1
  if r.fn = 0 then List.replicate 24 0
  else match r.kind with
  | 6 => match s.obj.queues.find? fun q => q.part == part && q.slot == r.slot with
    | some q => bytesOf 4 q.leneff ++ bytesOf 4 (q.present s.now).length ++ bytesOf 4 (q.msgs.filter (·.reserved)).length ++ List.replicate 12 0
    | none => List.replicate 24 0
  | 5 => match s.route? part r.slot with
    | some q => bytesOf 4 q.num ++ bytesOf 4 (s.cols.filter fun c => c.part == part && c.prog == r.slot).length ++
        bytesOf 8 (if r.st == .draining then q.deadline.getD 0 else 0) ++ List.replicate 8 0
    | none => bytesOf 4 0xFFFF ++ List.replicate 20 0
  | 4 => match s.obj.wsets.find? fun w => w.part == part && w.slot == r.slot with
    | some w => s.genBytes w
    | none => List.replicate 24 0
  | _ => List.replicate 24 0

/-- R299: the 64 bytes of an entry. -/
def Rec.astBytes (r : Rec) : List Byte :=
  let flag (b : Bool) (k : Nat) : Nat := if b then 2 ^ k else 0
  bytesOf 2 r.kind ++ bytesOf 1 r.st.code ++
  bytesOf 1 (flag r.present 0 + flag r.frozen 1 + flag (r.closed && r.kind == 6) 2 + flag r.blocked 3) ++ bytesOf 4 r.writer ++ bytesOf 8 r.accepted ++
  bytesOf 8 r.converged ++ bytesOf 8 r.tchg ++ bytesOf 2 r.outcome ++ bytesOf 2 0 ++ bytesOf 4 r.discard ++ r.kindBytes

/-- R299: the entry of a record written as one event, its state kept. -/
def State.putRec (s : State) (r : Rec) : State :=
  let r := { r with tchg := s.now, kindBytes := s.astKind r }
  let t := { s with recs := upsert (fun x => x.fn == r.fn && x.slot == r.slot) r s.recs }
  (t.ramWrite (r.fn == 0) (s.astBase r.fn + 64 * r.slot) r.astBytes).1

/-- R299: entries whose per-kind fields have moved on are written anew. -/
def State.syncAst (s : State) : State :=
  s.recs.foldl (fun t r => if s.fnUp r.fn && s.astKind r != r.kindBytes then t.putRec r else t) s

/-! ## Milestones (R300, R301) -/

/-- CONVERGED. -/
def mConverged : Nat := 1
/-- DELETED. -/
def mDeleted : Nat := 2
/-- SUPERSEDED. -/
def mSuperseded : Nat := 3
/-- BLOCKED. -/
def mBlocked : Nat := 4
/-- CONFLICT. -/
def mConflict : Nat := 0x10
/-- MALFORMED. -/
def mMalformed : Nat := 0x11
/-- NO_RESOURCE. -/
def mNoResource : Nat := 0x12
/-- SIGNATURE. -/
def mSignature : Nat := 0x13
/-- EVICTED. -/
def mEvicted : Nat := 0x20
/-- RELOADED. -/
def mReloaded : Nat := 0x21
/-- MIGRATION_LOST. -/
def mMigrationLost : Nat := 0x22
/-- REDUCED_SERVICE. -/
def mReduced : Nat := 0x30
/-- FULL_SERVICE. -/
def mFull : Nat := 0x31

/-- R300: a milestone entry. -/
def State.milestone (s : State) (fn recid outcome kind version discard writer : Nat) : State :=
  let ring := s.msRing fn
  s.ringWrite (fn == 0) (fnName fn) ring.1 ring.2
    (bytesOf 4 recid ++ bytesOf 2 outcome ++ bytesOf 1 kind ++ bytesOf 1 0 ++ bytesOf 8 version ++ bytesOf 8 s.now ++ bytesOf 4 discard ++
      bytesOf 4 writer)

/-- R299, R300: the entry of a record changed with its outcome, and then the milestone for a version written. -/
def State.outcome (s : State) (r : Rec) (outcome : Nat) (v : Version) (discard : Nat) : State :=
  (s.putRec { r with outcome, discard }).milestone r.fn r.slot outcome v.kind v.ver discard v.writer

/-- R301: a milestone that concerns no version of its own step (EVICTED, RELOADED, MIGRATION_LOST, SUPERSEDED, BLOCKED, CONFLICT): the
entry shows it, the discarded count stays. -/
def State.note (s : State) (r : Rec) (outcome : Nat) (v : Version) : State :=
  (s.putRec { r with outcome }).milestone r.fn r.slot outcome v.kind v.ver 0 v.writer

/-- R301, R365: a device milestone in a partition's ring. -/
def State.deviceMilestone (s : State) (fn outcome : Nat) : State := s.milestone fn 0xFFFFFFFF outcome 0 0 0 0

/-! ## Fault-queue entries (R323, R368) -/

/-- An entry in the fault queue of a function. -/
def State.fnFault (s : State) (fn : Nat) (e : FaultEntry) : State :=
  if s.fnUp fn then s.ringWrite (fn == 0) (fnName fn) (s.faultBase fn) 4096 (e.bytes s.now) else s

/-- R368: RECORD_CONFLICT and RECORD_MALFORMED name the writer in place of COLID. -/
def State.recordFault (s : State) (fn : Nat) (code : BitVec 16) (writer : Nat) : State :=
  s.fnFault fn { code, access := 0, service := 0, addr := 0, route := 0xFFFF, quad := 0xFFFF, colid := writer }

/-- R298: the record of a PARTITION object. -/
def State.partRec (s : State) (part : Nat) : Option Rec := s.recs.find? fun r => r.fn == 0 && r.eff.any fun v => v.num 0 1 == part

/-- R298: the partition of a function is being deleted; its records are all treated as ABSENT. -/
def State.partLeaving (s : State) (fn : Nat) : Bool := fn != 0 && (s.partRec (fn - 1)).any fun r => r.st == .draining

end Sys2Proof.Machine
end

