-- ==== Sys2Proof/Machine/Cipher.lean ====
section
/-!
DEFINITION. Keys of device memory (R336 to R338): device memory holds what is read through the keys in force, and what GDDR7 stores is
computed from it. Where a key, an owner or a tweak changes, the stored bytes stay and what they read as changes.
-/

namespace Sys2Proof.Machine

/-- Bytes of a page by its size code. -/
def pageBytes (s : Nat) : Nat := 2 ^ (12 + s)

/-- Two ranges meet. -/
def meets (a n b m : Nat) : Bool := decide (a < b + m) && decide (b < a + n)

/-! ## Keys (R336) -/

/-- R336: a granule's size. -/
def granuleBytes : Nat := 2 ^ 21

/-- R336: the granules that a range touches. -/
def granulesIn (a n : Nat) : List Nat := (List.range ((a + n - 1) / granuleBytes + 1 - a / granuleBytes)).map (a / granuleBytes + ·)

/-- R336: the tag of the granule that holds an address, where it names a protected context. -/
def State.granuleTag (s : State) (pa : Nat) : Option Granule := s.obj.granules.find? (·.n == pa / granuleBytes)

/-- R336: the page of a protected context that holds an address. -/
def State.taggedPage (s : State) (g : Granule) (pa : Nat) : Option Page :=
  s.obj.pages.find? fun p => p.part == g.part && p.ctx == g.ctx && p.dev && decide (p.pa ≤ pa) && decide (pa < p.pa + pageBytes p.s)

/-- R336: the tweak of a protected sector: bits 55:6 of its virtual address; of one that has none, its physical address (log 88). -/
def State.tweakOf (s : State) (g : Granule) (pa : Nat) : Nat :=
  match s.taggedPage g pa with
  | some p => bitsOf (p.va + (pa - p.pa)) 6 50
  | none => bitsOf pa 6 46

/-- The partition of an address of device memory: that whose memory it is, or, for backing that outlives its partition, that of the set
it belongs to (R351). -/
def State.memoryOf (s : State) (pa : Nat) : Option Partition :=
  (s.obj.parts.find? fun p => decide (p.membase ≤ pa) && decide (pa < p.membase + p.memsize)) <|>
  (s.obj.pages.find? fun g => g.own && decide (g.pa ≤ pa) && decide (pa < g.pa + pageBytes g.s)).bind fun g => s.part? g.part

/-- R336: the key and the tweak under which GDDR7 stores a byte; none where its key slot is empty. -/
def State.keyAt (s : State) (pa : Nat) : Option (Nat × Nat) :=
  if s.inCarveOut pa then some (Config.firmwareKey, bitsOf pa 6 46)
  else match s.granuleTag pa with
    | some g => ((s.ctx? g.part g.ctx).bind (·.key)).map fun k => (k, s.tweakOf g pa)
    | none => ((s.memoryOf pa).bind fun p => s.fw.worldKeys.lookup p.world).map fun k => (k, bitsOf pa 6 46)

/-! ## What GDDR7 stores (R336, R337) -/

/-- R337: the 64 bytes of a sector as GDDR7 stores them. -/
def State.rawSector (s : State) (line : Nat) : Nat :=
  match s.keyAt (64 * line) with
  | some (key, tweak) => xtsEncrypt key tweak (s.devNum (64 * line) 64)
  | none => s.devNum (64 * line) 64

/-- R337: ciphertext stored raw; what it decrypts to is what is read. -/
def State.putRaw (s : State) (line x : Nat) : State :=
  s.devWriteNum (64 * line) 64 (match s.keyAt (64 * line) with
    | some (key, tweak) => xtsDecrypt key tweak x
    | none => x)

/-- R336: lines read through the keys of `s` what GDDR7 stored under those of `old`. -/
def State.rekeyed (s old : State) (lines : List Nat) : State :=
  (lines.filter fun l => s.keyAt (64 * l) != old.keyAt (64 * l)).foldl (fun t l => t.putRaw l (old.rawSector l)) s

/-- The lines of a granule. -/
def granuleLines (n : Nat) : List Nat := (List.range (granuleBytes / 64)).map (n * (granuleBytes / 64) + ·)

/-- R336: the granules of a context. -/
def State.granulesOf (s : State) (part ctx : Nat) : List Granule := s.obj.granules.filter fun g => g.part == part && g.ctx == ctx

/-- R336, R338: a context's key slot filled or erased: its granules read what their stored bytes give. -/
def State.setKey (s : State) (part ctx : Nat) (key : Option Nat) : State :=
  { s with obj := { s.obj with
      ctxs := updateWhere (fun k => k.part == part && k.slot == ctx) (fun k => { k with key }) s.obj.ctxs } }.rekeyed s
    ((s.granulesOf part ctx).flatMap fun (g : Granule) => granuleLines g.n)

/-! ## Tags (R336) -/

/-- Only the tag of a page: the leaf is gone and the CONTEXT is the record (R336). -/
def Page.isTag (g : Page) : Bool := g.slot == g.ctx && !g.own

/-- A table that the Surveyor made. -/
def Page.isTable (g : Page) : Bool := g.slot == g.ctx && g.own

/-- R336: the granules of a page tagged for its context, or for the world where the context is not protected. -/
def State.tagPage (s : State) (g : Page) : List Granule :=
  let ns := granulesIn g.pa (pageBytes g.s)
  let others := s.obj.granules.filter fun k => !ns.contains k.n
  if (s.ctx? g.part g.ctx).any (·.prot) then others ++ ns.map fun n => { n, part := g.part, ctx := g.ctx } else others

/-- R336: a page recorded, and its granules tagged; tags of the memory it covers are replaced. A page taken from the partition's memory
holds zeros under its new key, and what else lies in its granules keeps its stored bytes. -/
def State.addPage (s : State) (g : Page) : State :=
  let pages := (s.obj.pages.filter fun h => !(h.isTag && meets h.pa (pageBytes h.s) g.pa (pageBytes g.s))) ++ [g]
  if !g.dev || g.isTable then { s with obj := { s.obj with pages } }
  else
    let granules := s.tagPage g
    let t : State := { s with obj := { s.obj with pages, granules } }
    if granules = s.obj.granules ∧ !((s.ctx? g.part g.ctx).any (·.prot)) then t
    else t.rekeyed s (((granulesIn g.pa (pageBytes g.s)).flatMap granuleLines).filter fun l =>
      !(g.own && meets (64 * l) 64 g.pa (pageBytes g.s)))

end Sys2Proof.Machine
end

