-- ==== Sys2Proof/Machine/Curve.lean ====
section
/-!
DEFINITION. X25519 (RFC 7748), Ed25519 (RFC 8032, pure), HMAC and HKDF with SHA-512 (RFC 2104, RFC 5869), as R339, R342, R346, R349 and
R350 use them.
-/

namespace Sys2Proof

/-! ## The field -/

/-- The field's prime, 2^255 - 19. -/
def fieldP : Nat := 2 ^ 255 - 19

/-- A difference in the field. -/
def fieldSub (a b : Nat) : Nat := (a + (fieldP - b % fieldP)) % fieldP

/-- A power in the field, of an exponent below 2^256. -/
def fieldPow (b e : Nat) : Nat :=
  (List.range 256).foldl (fun r k => let q := r * r % fieldP; if e.testBit (255 - k) then q * b % fieldP else q) 1

/-- The inverse; 0 for 0. -/
def fieldInv (a : Nat) : Nat := fieldPow a (fieldP - 2)

/-! ## X25519 (R349) -/

/-- A private key's bits fixed as the published algorithm fixes them. -/
def clamped (k : Nat) : Nat := bitsOf k 3 251 * 8 + 2 ^ 254

/-- The ladder's state: x2, z2, x3, z3. -/
structure Ladder where
  x2 : Nat
  z2 : Nat
  x3 : Nat
  z3 : Nat
  deriving DecidableEq, Repr

/-- One step of the ladder for a bit; `u` is the point's coordinate. -/
def Ladder.step (u : Nat) (l : Ladder) (bit : Bool) : Ladder :=
  let (x2, z2, x3, z3) := if bit then (l.x3, l.z3, l.x2, l.z2) else (l.x2, l.z2, l.x3, l.z3)
  let a := (x2 + z2) % fieldP
  let aa := a * a % fieldP
  let b := fieldSub x2 z2
  let bb := b * b % fieldP
  let e := fieldSub aa bb
  let da := fieldSub x3 z3 * a % fieldP
  let cb := (x3 + z3) * b % fieldP
  let sum := (da + cb) % fieldP
  let dif := fieldSub da cb
  let y2 := aa * bb % fieldP
  let w2 := e * (aa + 121665 * e) % fieldP
  let y3 := sum * sum % fieldP
  let w3 := u * (dif * dif) % fieldP
  if bit then ⟨y3, w3, y2, w2⟩ else ⟨y2, w2, y3, w3⟩

/-- X25519 of a private key and a coordinate. -/
def x25519 (k u : Nat) : Nat :=
  let u := u % 2 ^ 255 % fieldP
  let l := (List.range 255).foldl (fun l i => l.step u ((clamped k).testBit (254 - i))) (⟨1, 0, u, 1⟩ : Ladder)
  l.x2 * fieldInv l.z2 % fieldP

/-- The public key of a private key. -/
def x25519Public (k : Nat) : Nat := x25519 k 9

/-! ## Ed25519 -/

/-- The order of the base point. -/
def edL : Nat := 2 ^ 252 + 27742317777372353535851937790883648493

/-- The curve's constant -121665 / 121666. -/
def edD : Nat := fieldSub 0 121665 * fieldInv 121666 % fieldP

/-- A point in extended coordinates. -/
structure EdPoint where
  x : Nat
  y : Nat
  z : Nat
  t : Nat
  deriving DecidableEq, Repr

/-- The neutral point. -/
def edZero : EdPoint := ⟨0, 1, 1, 0⟩

/-- The sum of two points. -/
def EdPoint.add (p q : EdPoint) : EdPoint :=
  let a := fieldSub p.y p.x * fieldSub q.y q.x % fieldP
  let b := (p.y + p.x) * (q.y + q.x) % fieldP
  let c := 2 * p.t * q.t * edD % fieldP
  let d := 2 * p.z * q.z % fieldP
  let e := fieldSub b a
  let f := fieldSub d c
  let g := (d + c) % fieldP
  let h := (b + a) % fieldP
  ⟨e * f % fieldP, g * h % fieldP, f * g % fieldP, e * h % fieldP⟩

/-- A multiple of a point, of a factor below 2^256. -/
def EdPoint.times (p : EdPoint) (k : Nat) : EdPoint :=
  (List.range 256).foldl (fun r i => let q := r.add r; if k.testBit (255 - i) then q.add p else q) edZero

/-- Two points are the same. -/
def EdPoint.same (p q : EdPoint) : Bool :=
  p.x * q.z % fieldP == q.x * p.z % fieldP && p.y * q.z % fieldP == q.y * p.z % fieldP

/-- A point's 32 bytes as a number. -/
def EdPoint.encode (p : EdPoint) : Nat :=
  let i := fieldInv p.z
  p.y * i % fieldP + p.x * i % fieldP % 2 * 2 ^ 255

/-- A square root in the field, where there is one. -/
def fieldRoot (a : Nat) : Option Nat :=
  let r := fieldPow a ((fieldP + 3) / 8)
  let r' := r * fieldPow 2 ((fieldP - 1) / 4) % fieldP
  if r * r % fieldP = a then some r else if r' * r' % fieldP = a then some r' else none

/-- The point that 32 bytes name, where they name one. -/
def edDecode (n : Nat) : Option EdPoint :=
  let y := n % 2 ^ 255
  let odd := n / 2 ^ 255 % 2
  let yy := y * y % fieldP
  if fieldP ≤ y then none
  else (fieldRoot (fieldSub yy 1 * fieldInv ((edD * yy + 1) % fieldP) % fieldP)).bind fun r =>
    if r = 0 ∧ odd = 1 then none
    else
      let x := if r % 2 = odd then r else fieldP - r
      some ⟨x, y, 1, x * y % fieldP⟩

/-- The base point. -/
def edBase : EdPoint := (edDecode (4 * fieldInv 5 % fieldP)).getD edZero

/-- SHA-512 as a number below the order. -/
def edHash (bs : List Byte) : Nat := digestNum bs % edL

/-- The public key of a private seed of 32 bytes. -/
def ed25519Public (seed : List Byte) : List Byte := bytesOf 32 (edBase.times (clamped (digestNum seed % 2 ^ 256))).encode

/-- The signature of a message under a private seed of 32 bytes. -/
def ed25519Sign (seed message : List Byte) : List Byte :=
  let h := sha512 seed
  let a := clamped (numberOf (h.take 32))
  let r := edHash (h.drop 32 ++ message)
  let big := bytesOf 32 (edBase.times r).encode
  big ++ bytesOf 32 ((r + edHash (big ++ ed25519Public seed ++ message) * a) % edL)

/-- A signature of a message verifies under a public key of 32 bytes; the group equation is taken without the cofactor (log 12). -/
def ed25519Verify (key message sig : List Byte) : Bool :=
  match edDecode (numberOf (key.take 32)), edDecode (numberOf (sig.take 32)) with
  | some a, some r =>
    let s := numberOf (sig.drop 32)
    key.length == 32 && sig.length == 64 && decide (s < edL) &&
      (edBase.times s).same (r.add (a.times (edHash (sig.take 32 ++ key ++ message))))
  | _, _ => false

/-! ## HMAC and HKDF (R349) -/

/-- HMAC-SHA-512. -/
def hmacSha512 (key message : List Byte) : List Byte :=
  let key := if key.length > 128 then sha512 key else key
  let block (b : Byte) : List Byte := (List.range 128).map fun i => (key[i]?).getD 0 ^^^ b
  sha512 (block 0x5C ++ sha512 (block 0x36 ++ message))

/-- The first 32 bytes of HKDF-SHA-512. -/
def hkdf32 (salt secret info : List Byte) : List Byte := (hmacSha512 (hmacSha512 salt secret) (info ++ [1])).take 32

end Sys2Proof
end

