-- ==== Sys2Proof/Machine/Paging.lean ====
section
/-!
DEFINITION. Page tables as the Surveyor and the function cores write them (R317 to R319), the partition's free memory, weight-set
eviction and reload (R350 to R352), and the paging service (R324).
-/

namespace Sys2Proof.Machine

/-! ## Free memory (R324, R325) -/

/-- A range of a partition's memory that is in use: its control area, its milestone ring, a table root, a page taken from memory, a
MAPPING's own backing, the carve-out. -/
def State.inUse (s : State) (p : Partition) (a n : Nat) : Bool :=
  meets a n p.dsrpa 0x1000000 || meets a n p.msrpa (64 + 32 * p.mslen) ||
  (s.obj.ctxs.any fun c => meets a n c.ptroot 4096) || (s.obj.pages.any fun g => g.own && meets a n g.pa (pageBytes g.s)) ||
  (s.obj.maps.any fun m => m.back != 0 && bitsOf m.attr 0 2 == 0 && meets a n m.back m.size) || s.inCarveOut a

/-- R336: the granules of a range may hold a page of `owner`, a protected context or none: a granule has one key (log 88). -/
def State.granulesFit (s : State) (p : Partition) (owner : Option Nat) (a n : Nat) : Bool :=
  (granulesIn a n).all fun k => match s.granuleTag (k * granuleBytes), owner with
    | some g, some c => g.part == p.pnum && g.ctx == c
    | none, some _ => !s.inUse p (k * granuleBytes) granuleBytes
    | tag, none => tag.isNone

/-- Aligned free pages of a partition's memory. -/
def State.freePages (s : State) (p : Partition) (owner : Option Nat) (size : Nat) : List Nat :=
  let n := pageBytes size
  ((List.range (p.memsize / n + 1)).map fun k => ((p.membase + n - 1) / n + k) * n).filter fun a =>
    a + n ≤ p.membase + p.memsize && !s.inUse p a n && s.granulesFit p owner a n

/-- A free page taken from a partition's memory for a context's data, or for a table, and zeroed; which one is a free value (log 10). -/
def State.takePage (s : State) (part : Nat) (data : Option Nat) (size : Nat) : Option (Nat × State) :=
  (s.part? part).bind fun p =>
    let pool := s.freePages p (data.filter fun ctx => (s.ctx? part ctx).any (·.prot)) size
    Option.map (fun pa => (pa, s.free.2.zeroDev pa (pageBytes size))) pool[s.free.1 % pool.length]?

/-! ## Weight-set eviction (R352) -/

/-- R352: a weight set that may be evicted now. -/
def State.evictableSet (s : State) (part : Nat) (w : WeightSet) : Bool :=
  w.part == part && w.evictable && ((w.gens.head?).any fun g => !g.evicted) && !(w.gens.any (s.genBound w)) &&
  !(s.obj.wsets.any fun d => d.part == part && d.sub == 1 && d.baserec == w.slot)

/-- R352: the least recently used one. -/
def State.evictVictim (s : State) (part : Nat) : Option WeightSet :=
  (s.obj.wsets.filter (s.evictableSet part)).foldl (fun (o : Option WeightSet) w => match o with
    | none => some w
    | some v => some (if w.lastUse < v.lastUse then w else v)) none

/-- A weight set changed. -/
def State.onSet (s : State) (part slot : Nat) (f : WeightSet → WeightSet) : State :=
  { s with obj := { s.obj with wsets := updateWhere (fun w => w.part == part && w.slot == slot) f s.obj.wsets } }

/-! ## Leaves and tables -/

/-- The bits of a leaf entry (R318). -/
def Leaf.bits (l : Leaf) : Nat :=
  let flag (b : Bool) (k : Nat) : Nat := if b then 2 ^ k else 0
  3 + l.kind % 4 * 4 + flag l.rd 4 + flag l.w 5 + flag l.hostord 6 + l.size % 16 * 256 + l.pa / 4096 % 2 ^ 40 * 4096 + l.peer % 32 * 2 ^ 52

/-- The level whose slots a page of a size code fills. -/
def leafLevel (size : Nat) : Nat := if size ≥ 9 then 1 else 0

/-- The addresses of the slots a page fills, given the table that holds them (R319). -/
def leafSlots (table va size : Nat) : List Nat :=
  let level := leafLevel size
  let n := 2 ^ (size - 9 * level)
  let first := walkIndex va level / n * n
  (List.range n).map fun k => table + 8 * (first + k)

/-- The table a number of levels down, without making any. -/
def State.findTable (s : State) (va : Nat) : Nat → Nat → Nat → Option Nat
  | table, _, 0 => some table
  | table, level, n + 1 =>
    let e := s.devNum (table + 8 * walkIndex va level) 8
    if e % 2 = 1 ∧ bitsOf e 1 1 = 0 then s.findTable va (bitsOf e 12 40 * 4096) (level - 1) n else none

/-- The table a number of levels down, missing tables made from the partition's memory; with the latest completion time of the
stores. -/
def State.makeTable (s : State) (part ctx va : Nat) : Nat → Nat → Nat → Option (Nat × State × Nat)
  | table, _, 0 => some (table, s, s.now)
  | table, level, n + 1 =>
    let a := table + 8 * walkIndex va level
    let e := s.devNum a 8
    if e % 2 = 1 ∧ bitsOf e 1 1 = 0 then s.makeTable part ctx va (bitsOf e 12 40 * 4096) (level - 1) n
    else match s.takePage part none 0 with
      | none => none
      | some (pa, t) =>
        let w := (t.addPage { part, ctx, slot := ctx, va := 0, pa, s := 0, own := true, dev := true, gone := false }).devWrite none a (bytesOf 8 (pa + 1))
        (w.1.makeTable part ctx va pa (level - 1) n).map fun r => (r.1, r.2.1, max w.2 r.2.2)

/-- Eight-byte entries written, with the latest completion time. -/
def State.writeSlots (s : State) (entry : Nat) (slots : List Nat) : State × Nat :=
  slots.foldl (fun (r : State × Nat) a => let w := r.1.devWrite none a (bytesOf 8 entry); (w.1, max r.2 w.2)) (s, s.now)

/-- R319: a leaf written into every slot its page covers; none when a table cannot be made. -/
def State.writeLeaf (s : State) (part ctx va : Nat) (l : Leaf) : Option (State × Nat) :=
  (s.ctx? part ctx).bind fun c =>
    (s.makeTable part ctx va c.ptroot 4 (4 - leafLevel l.size)).map fun r =>
      let w := r.2.1.writeSlots l.bits (leafSlots r.1 va l.size)
      (w.1, max r.2.2 w.2)

/-- The slots of a page made invalid. -/
def State.clearLeaf (s : State) (part ctx va size : Nat) : State × Nat :=
  match (s.ctx? part ctx).bind fun c => s.findTable va c.ptroot 4 (4 - leafLevel size) with
  | some table => s.writeSlots 0 (leafSlots table va size)
  | none => (s, s.now)

/-- A page's leaf written and the page recorded. -/
def State.mapPage (s : State) (g : Page) (l : Leaf) : Option (State × Nat) :=
  (s.writeLeaf g.part g.ctx g.va l).map fun w => (w.1.addPage g, w.2)

/-- The leaves of pages made invalid, with the latest completion time of the stores; the pages are gone. -/
def State.unmapPages (s : State) (gs : List Page) : State × Nat :=
  gs.foldl (fun (r : State × Nat) g =>
    let w := r.1.clearLeaf g.part g.ctx g.va g.s
    ({ w.1 with obj := { w.1.obj with pages := updateWhere (· == g) (fun g => { g with gone := true }) w.1.obj.pages } }, max r.2 w.2))
    (s, s.now)

/-- R325: pages given up: those taken from the partition's memory are zeroed and free, device pages of another backing keep the tag of
their granule. -/
def State.freeUp (s : State) (gs : List Page) : State :=
  gs.foldl (fun t g =>
    let t := { t with obj := { t.obj with pages := t.obj.pages.filter (· != g) } }
    if g.isTable || g.own && !((t.ctx? g.part g.ctx).any (·.prot)) then t.zeroDev g.pa (pageBytes g.s)
    else if g.own then (t.zeroDev g.pa (pageBytes g.s)).addPage { g with slot := g.ctx, own := false, gone := false }
    else if g.dev then t.addPage { g with slot := g.ctx, gone := false }
    else t) s

/-! ## Mappings -/

/-- The converged MAPPING that holds an address of a context. -/
def State.mapAt (s : State) (part ctx va : Nat) : Option Mapping :=
  s.obj.maps.find? fun m => m.part == part && m.ctx == ctx && m.va ≤ va && va < m.va + m.size

/-- R291: a leaf of a MAPPING with a given backing; bits 56:52 of a peer backing name the causeway (log 11). -/
def Mapping.leaf (m : Mapping) (pa : Nat) : Leaf :=
  let kind := bitsOf m.attr 0 2
  { pa := bitsOf pa 12 40 * 4096, size := m.psize, peer := if kind = 2 then bitsOf m.back 52 5 else 0
    hostord := bitsOf m.attr 2 1 == 1, w := bitsOf m.attr 4 1 == 1, rd := bitsOf m.attr 3 1 == 1, kind }

/-- R324: the page of a MAPPING that holds an address: from its backing, or taken from the partition's memory. -/
def State.mapBacked (s : State) (m : Mapping) (va : Nat) : Option (State × Nat) :=
  let n := pageBytes m.psize
  let base := va / n * n
  let page (pa : Nat) (own : Bool) : Page :=
    { part := m.part, ctx := m.ctx, slot := m.slot, va := base, pa, s := m.psize, own, dev := own || bitsOf m.attr 0 2 == 0, gone := false }
  if m.back = 0 then
    (s.takePage m.part (some m.ctx) m.psize).bind fun r => r.2.mapPage (page r.1 true) { m.leaf r.1 with kind := 0, peer := 0, hostord := false }
  else
    let pa := m.back % 2 ^ 52 + (base - m.va)
    s.mapPage (page pa false) (m.leaf pa)

/-! ## Weight sets (R350 to R352) -/

/-- Bytes through a context, as the root core reads them. -/
def State.readThrough (s : State) (part ctx va n : Nat) : Option (List Byte) := s.vaBytes ⟨0, none⟩ part ctx va n

/-- R322, R329: what reading so leaves. -/
def State.readsThrough (s : State) (part ctx va n : Nat) : State := s.rangeRead ⟨0, none⟩ part ctx none va n

/-- R350: why an image does not become a generation. -/
inductive WeightBad
  | signature | noRoom
  deriving DecidableEq, Repr

/-- R350: the image of a set passes its checks: digest, key, signature. -/
def State.weightImage (s : State) (w : WeightSet) : Option (List Byte) :=
  (s.readThrough w.part w.ctx w.src w.wsize).bind fun bs =>
    match s.fw.pubkeys.lookup w.pubkey with
    | some key => if digestNum bs == w.digest && ed25519Verify key (bytesOf 64 w.digest) w.sig then some bs else none
    | none => none

/-- Bytes put on new pages of a partition's memory: the page numbers with their physical pages. -/
def State.backPages (s : State) (w : WeightSet) : List (Nat × List Byte) → Option (State × List (Nat × Nat))
  | [] => some (s, [])
  | (k, bs) :: rest =>
    match s.takePage w.part (some w.ctx) 0 with
    | none => none
    | some (pa, t) =>
      let u := t.addPage { part := w.part, ctx := w.ctx, slot := w.slot, va := w.va + 4096 * k, pa, s := 0, own := true, dev := true, gone := false }
      ((u.devWrite none pa bs).1.backPages w rest).map fun r => (r.1, (k, pa) :: r.2)

/-- Bytes cut into pages of 4 KiB. -/
def pagesOf (bs : List Byte) : List (Nat × List Byte) :=
  (List.range ((bs.length + 4095) / 4096)).map fun k => (k, (bs.drop (4096 * k)).take 4096)

/-- R351: the listed pages of a DELTA image over a base of `span` bytes; a later entry for a page wins. -/
def deltaPages (span : Nat) (bs : List Byte) : List (Nat × List Byte) :=
  (List.range (bs.length / 4104)).foldl (fun (xs : List (Nat × List Byte)) k =>
    let e := (bs.drop (4104 * k)).take 4104
    let off := numberOf (e.take 8)
    if off % 4096 = 0 ∧ off < span then (xs.filter (·.1 != off / 4096)) ++ [(off / 4096, e.drop 8)] else xs) []

/-- R351: a BASE set of the same world with the same digest whose backing can be shared: memory has one key, so no context concerned has
PROT (R336; DEDUCED; log 95). -/
def State.sharedBase (s : State) (w : WeightSet) : Option WsGen :=
  let world (part : Nat) : Option Nat := (s.part? part).map (·.world)
  let open_ (v : WeightSet) : Bool := !(s.ctx? v.part v.ctx).any (·.prot)
  (s.obj.wsets.find? fun v => w.sub == 0 && v.sub == 0 && !(v.part == w.part && v.slot == w.slot) && v.digest == w.digest && open_ v && open_ w &&
    world v.part == world w.part && ((v.gens.head?).any fun g => !g.evicted)).bind fun v => v.gens.head?

/-- R351: the backing of a set's image. -/
def State.backWeights (s : State) (w : WeightSet) (bs : List Byte) : Option (State × List (Nat × Nat)) :=
  match w.sub with
  | 0 => match s.sharedBase w with
    | some g => some (s, g.pages)
    | none => s.backPages w (pagesOf bs)
  | 1 =>
    let base := ((s.obj.wsets.find? fun v => v.part == w.part && v.slot == w.baserec).bind fun v => v.gens.head?).filter (!·.evicted)
    base.bind fun g => (s.backPages w (deltaPages w.span bs)).map fun r => (r.1, r.2 ++ g.pages.filter fun p => !(r.2.any fun q => q.1 == p.1))
  | _ => s.backPages w (pagesOf bs)

/-- R350: the leaves of a generation written, read-only. -/
def State.showWeights (s : State) (w : WeightSet) : List (Nat × Nat) → Option (State × Nat)
  | [] => some (s, s.now)
  | (k, pa) :: rest =>
    match s.writeLeaf w.part w.ctx (w.va + 4096 * k) { pa, size := 0, peer := 0, hostord := false, w := false, rd := true, kind := 0 } with
    | none => none
    | some (t, c) => (t.showWeights w rest).map fun r => (r.1, max c r.2)

/-- R352: a set evicted: its backing freed, its leaves invalid, the milestone written. -/
def State.evictSet (s : State) (w : WeightSet) : State :=
  match w.gens.head? with
  | none => s
  | some g =>
    let t := g.pages.foldl (fun (t : State) p => (t.clearLeaf w.part w.ctx (w.va + 4096 * p.1) 0).1) s
    let t := (t.onSet w.part w.slot fun w => { w with gens := w.gens.map fun g => { g with pages := [], evicted := true } }).freeBacking
      (g.pages.map (·.2))
    let r := t.recOf (w.part + 1) w.slot
    match r.eff with
    | some v => t.note r mEvicted v
    | none => t

/-- R352: work that needs memory, tried again after each eviction while there is a set to evict; where none makes room, the sets evicted
stay so. -/
def State.withRoom {α : Type} (part : Nat) (work : State → Option α) : Nat → State → Except State α
  | 0, s => match work s with
    | some r => .ok r
    | none => .error s
  | n + 1, s =>
    match work s with
    | some r => .ok r
    | none => match s.evictVictim part with
      | some w => (s.evictSet w).withRoom part work n
      | none => .error s

/-- R352: work with as many evictions as there are sets. -/
def State.makeRoom {α : Type} (s : State) (part : Nat) (work : State → Option α) : Except State α :=
  s.withRoom part work s.obj.wsets.length

/-! ## The paging service (R324) -/

/-- What the function core finds at a page. -/
inductive PageFound
  /-- Leaves written; their stores complete at the time given. -/
  | written (s : State) (t : Nat)
  /-- No room, whatever was evicted for it. -/
  | exhausted (s : State)
  | unmapped
  /-- An evicted weight set whose image fails its check (R352). -/
  | badImage (s : State) (w : WeightSet)

/-- R352: the pages of a set that convoys wait for, found with its reload. -/
def State.readySet (s : State) (w : WeightSet) (t : Nat) : State :=
  { s with paging := s.paging.map fun q =>
      if q.part = w.part ∧ q.ctx = w.ctx ∧ w.va ≤ 4096 * q.page ∧ 4096 * q.page < w.va + w.span ∧ q.ready = none then { q with ready := some t }
      else q }

/-- R352: an evicted weight set reloaded. -/
def State.reloadSet (s : State) (w : WeightSet) : PageFound :=
  let read := s.readsThrough w.part w.ctx w.src w.wsize
  match s.weightImage w with
  | none => .badImage read w
  | some bs =>
    match read.makeRoom w.part fun t => (t.backWeights w bs).bind fun r => (r.1.showWeights w r.2).map fun q => (q.1, q.2, r.2) with
    | .error t => .exhausted t
    | .ok (t, c, ps) =>
      let t := t.onSet w.part w.slot fun w => { w with gens := w.gens.map fun g => { g with pages := ps, evicted := false } }
      let r := t.recOf (w.part + 1) w.slot
      .written (match r.eff with
        | some v => (t.readySet w c).note r mReloaded v
        | none => t.readySet w c) c

/-- R324: the function core at an address of a context. -/
def State.serve (s : State) (part ctx va : Nat) : PageFound :=
  match s.weightAt part ctx va with
  | some w => if (w.gens.head?).any (·.evicted) then s.reloadSet w else .unmapped
  | none => match s.mapAt part ctx va with
    | none => .unmapped
    | some m =>
      match (s.ctx? part ctx).map fun c => s.walk va c.ptroot 4 with
      | some (.ok _) => .written s s.now
      | _ => match s.makeRoom part fun t => t.mapBacked m va with
        | .ok (t, c) => .written t c
        | .error t => .exhausted t

/-- Columns with a convoy that waits for a page. -/
def State.waitingOn (s : State) (q : PageReq) : List Nat :=
  (s.cols.filter fun c => c.part == q.part && c.cvs.any fun v => match v.wait with
    | some { kind := .replay ctx page, .. } => ctx == q.ctx && page == q.page
    | some { kind := .trapEntry _ _ page, .. } => page == some (q.ctx, q.page)
    | _ => false).map (·.id)

/-- R324: a request answered by a kill of every column that waits on the page. -/
def State.pagingKill (s : State) (q : PageReq) : State :=
  (s.waitingOn q).foldl State.kill { s.amendEntry q.part q.entry 3 1 2 with paging := s.paging.filter (· != q) }

/-- R352: the record of a set whose reloaded image fails its check. A step in flight goes on to its own end (R295), and the milestone alone
is written (DEDUCED; log 94). -/
def State.setFailed (s : State) (w : WeightSet) : State :=
  let r := s.recOf (w.part + 1) w.slot
  match r.eff with
  | some v => s.note { r with st := if r.inFlight then r.st else .failed } mSignature v
  | none => s

/-- PAGING_ANSWER (R324): the function core writes the leaves of a page, and once their stores have completed posts a replay; or it
kills every column that waits on the page. -/
def execPagingAnswer (part ctx page : Nat) (s : State) : Host.Outcome State Fault Refusal :=
  match s.paging.find? fun q => q.part == part && q.ctx == ctx && q.page == page with
  | none => .next s
  | some q =>
    match q.ready with
    | some t => if t ≤ s.now then .next { s.amendEntry part q.entry 3 1 1 with paging := s.paging.filter (· != q) } else .next s
    | none => match s.serve part ctx (4096 * page) with
      | .written t c => .next { t with paging := updateWhere (· == q) (fun q => { q with ready := some c }) t.paging }
      | .exhausted t => .next (t.pagingKill q)
      | .unmapped => .next (s.pagingKill q)
      | .badImage t w => .next ((t.pagingKill q).setFailed w)

/-- PAGE_WALK (R321, R322): a walk for an address; its translation is kept where every entry's lease is granted. -/
def execPageWalk (core part ctx va : Nat) (s : State) : Host.Outcome State Fault Refusal :=
  match s.leafFor ⟨core, none⟩ part ctx none va with
  | .ok (_, t) => .next t
  | .error _ => .next (s.touched ⟨core, none⟩ part ctx none va)

end Sys2Proof.Machine
end

