-- ==== Sys2Proof/Machine/Sched.lean ====
section
/-!
DEFINITION. The choice of what issues on a quadrant's ports (R17, R19, R20, R22, R25, R223), and the common fields of a word that
does not decode.
-/

namespace Sys2Proof.Machine

/-- The common fields of a word that is judged before its guards: both guards p7. -/
def plainHdr : Hdr := { g1 := ⟨false, 7⟩, g2 := ⟨false, 7⟩, hint := .default, ce := false, live := 0 }

/-- A convoy that may be chosen, with what R25 orders it by. -/
structure Cand where
  col : Nat
  cv : Nat
  prio : Nat
  last : Nat
  colid : Nat
  /-- When a YIELD that ended its latest clause lapses. -/
  yieldUntil : Option Nat
  deriving DecidableEq, Repr

/-- The word at a program counter, decoded (R103, R105). -/
def State.instrAt (s : State) (core part prog : Nat) (pc : PC) : Option Instr :=
  match s.fetch core part prog pc with
  | .word w => match decode w with
    | .ok i => some i
    | .error _ => none
  | _ => none

/-- The common fields of an instruction. -/
def hdrOf (i : Instr) : Hdr :=
  match i.form with
  | some (_, .r f) => f.h
  | some (_, .i f) => f.h
  | some (_, .m f) => f.h
  | some (_, .x f) => f.h
  | some (_, .b f) => f.h
  | none => plainHdr

/-- R25: the group named can issue: its instruction's operands are ready and its elements buffered. -/
def State.canIssue (s : State) (cur : Cur) : Bool :=
  match { s with cur := some cur }.ctx plainHdr with
  | none => false
  | some x =>
    match s.instrAt x.core x.c.part x.c.prog x.pc with
    | none => true
    | some i => match { s with cur := some cur }.ctx (hdrOf i) with
      | none => false
      | some y =>
        (y.refuses i).isSome || (!s.notReady y i && match y.popAll (portsOf i false) with
          | .error .empty => false
          | _ => true)

/-- R25: ready convoys of a quadrant whose frontier group runs no clause, `except` a given one. -/
def State.readyOn (s : State) (quad : Nat) (except : Option (Nat × Nat)) : List Cand :=
  s.cols.flatMap fun c =>
    if c.killed ∨ c.phase ≠ .running then []
    else c.cvs.zipIdx.filterMap fun vk =>
      let v := vk.1
      let k := vk.2
      if v.quad == quad && !v.ended && v.wait.isNone && v.boundary.isEmpty && some (c.id, k) != except &&
          !(s.holds.any fun h => h.col == c.id && h.cv == k && v.frontier == some h.pc) && s.canIssue ⟨c.id, k, false, none, none⟩ then
        some { col := c.id, cv := k, prio := ((s.route? c.part c.prog).map Route.prio).getD 0, last := v.lastClause,
               colid := c.colid.toNat, yieldUntil := v.yieldUntil }
      else none

/-- R25: `a` is chosen before `b`. -/
def Cand.before (a b : Cand) : Bool :=
  decide (b.prio < a.prio) || (a.prio == b.prio && (decide (a.last < b.last) || (a.last == b.last &&
    (decide (a.cv < b.cv) || (a.cv == b.cv && decide (a.colid < b.colid))))))

/-- R223: after a YIELD the convoy is passed over while another of its priority or higher has issued no clause since, for at most
64 cycles. -/
def Cand.yields (now : Nat) (all : List Cand) (c : Cand) : Bool :=
  match c.yieldUntil with
  | none => false
  | some t => decide (now < t) && decide (c.last + 64 = t) && all.any fun d =>
      !(d.col == c.col && d.cv == c.cv) && decide (c.prio ≤ d.prio) && decide (d.last + 64 ≤ t)

/-- R25: the convoy chosen at a clause boundary. -/
def State.arbitrate (s : State) (quad : Nat) (except : Option (Nat × Nat)) : Option Cur :=
  let all := s.readyOn quad except
  ((all.filter fun c => !c.yields s.now all).foldl (fun (o : Option Cand) c => match o with
    | none => some c
    | some d => some (if c.before d then c else d)) none).map fun c => ⟨c.col, c.cv, false, none, none⟩

/-- R17: the second group of a convoy may issue beside the frontier group. -/
def Convoy.secondOk (v : Convoy) : Bool :=
  let a := v.group false
  let b := v.group true
  !b.isEmpty && b.all (fun i => (v.lane i).split) && b.all fun i => !(a.any fun j => j / 4 == i / 4)

/-- The group of a running clause, when it may issue. -/
def State.holdCur (s : State) (h : PortHold) : Option Cur :=
  match s.column? h.col, s.convoy? h.col h.cv with
  | some c, some v =>
    if c.killed || v.ended || v.wait.isSome then none
    else if v.frontier == some h.pc then some ⟨h.col, h.cv, false, none, none⟩
    else if v.pcs[1]? == some h.pc.toNat && v.secondOk then some ⟨h.col, h.cv, true, none, none⟩
    else none
  | _, _ => none

/-- R20: the older clause first; then the frontier group, the lower `%cvid`, the lower `%colid`. -/
def State.olderHold (s : State) (a b : PortHold × Cur) : Bool :=
  let colid (h : PortHold) : Nat := ((s.column? h.col).map fun c => c.colid.toNat).getD 0
  let n (x : Bool) : Nat := if x then 1 else 0
  decide (a.1.start < b.1.start) || (a.1.start == b.1.start && (decide (n a.2.second < n b.2.second) ||
    (a.2.second == b.2.second && (decide (a.1.cv < b.1.cv) || (a.1.cv == b.1.cv && decide (colid a.1 < colid b.1))))))

/-- The oldest running clause among those given that can go on, with its group. -/
def State.oldest (s : State) (hs : List PortHold) : Option (PortHold × Cur) :=
  (hs.filterMap fun h => (s.holdCur h).map fun c => (h, c)).foldl (fun (o : Option (PortHold × Cur)) p => match o with
    | none => some p
    | some q => some (if s.olderHold p q then p else q)) none

/-- A candidate for a port: the running clause it goes on with, if it has one, and its group. -/
structure Bid where
  hold : Option PortHold
  cur : Cur
  deriving DecidableEq, Repr

/-- R17: the second group of the convoy of a bid, which runs no clause yet. -/
def State.secondBid (s : State) (b : Bid) : Option Bid :=
  match s.column? b.cur.col, s.convoy? b.cur.col b.cur.cv with
  | some c, some v =>
    if !b.cur.second && v.wait.isNone && v.secondOk && c.phase == .running then some ⟨none, ⟨b.cur.col, b.cur.cv, true, none, none⟩⟩ else none
  | _, _ => none

/-- R19: the candidate of port 0: the oldest running clause, or where a port is free the convoy that R25 chooses. -/
def State.firstBid (s : State) (quad : Nat) : Option Bid :=
  let hs := s.holds.filter (·.quad == quad)
  match s.oldest hs with
  | some (h, c) => some ⟨some h, c⟩
  | none => if hs.length < 2 then (s.arbitrate quad none).map fun c => ⟨none, c⟩ else none

/-- R19, R25: the candidate of port 1 beside that of port 0: another running clause, else the second group of its convoy or another convoy;
with `other` a second group is passed over. Beside a clause of a second group the frontier group of its convoy is chosen as any other
convoy is. -/
def State.mateBid (s : State) (quad : Nat) (first : Bid) (other : Bool) : Option Bid :=
  let hs := s.holds.filter fun h => h.quad == quad && some h != first.hold
  if hs.isEmpty then
    (if other then none else s.secondBid first) <|> (s.arbitrate quad (if first.cur.second then none else some (first.cur.col, first.cur.cv))).map fun c => ⟨none, c⟩
  else (s.oldest hs).map fun hc => ⟨some hc.1, hc.2⟩

/-- The context and the instruction of a group, where it has one that decodes. -/
def State.lookAt (s : State) (cur : Cur) : Option (Ctx × Instr) := do
  let x ← { s with cur := some cur }.ctx plainHdr
  let i ← s.instrAt x.core x.c.part x.c.prog x.pc
  let y ← { s with cur := some cur }.ctx (hdrOf i)
  pure (y, i)

/-- R20: two instructions need one resource, or of one convoy one uniform register that either writes. -/
def clash (needs uses sets needs' uses' sets' : List Nat) (sameConvoy : Bool) : Bool :=
  needs.any needs'.contains ||
  (sameConvoy && (sets.any (fun n => uses'.contains n || sets'.contains n) || uses.any sets'.contains))

/-- R20: both clauses begin in this cycle in different convoys, both could issue together but for a resource they share, and the second
has the lower `%cvid`, or the same and the lower `%colid`. -/
def State.swaps (s : State) (a b : Bid) : Bool :=
  a.hold.isNone && b.hold.isNone && !b.cur.second &&
  match s.lookAt a.cur, s.lookAt b.cur with
  | some (x, i), some (y, j) =>
    s.pairEnabled x.core x.c.part x.c.prog x.pc && s.pairEnabled y.core y.c.part y.c.prog y.pc &&
    s.canIssue a.cur && s.canIssue b.cur && clash (x.needs i) [] [] (y.needs j) [] [] false &&
    (decide (b.cur.cv < a.cur.cv) || (b.cur.cv == a.cur.cv && decide (y.c.colid.toNat < x.c.colid.toNat)))
  | _, _ => false

/-- A bid as the second candidate of its cycle. -/
def State.mate (s : State) (b : Bid) : Option Mate :=
  ({ s with cur := some b.cur }.ctx plainHdr).map fun (x : Ctx) =>
    { col := b.cur.col, cv := b.cur.cv, second := b.cur.second, pc := x.pc, lanes := x.group, hold := b.hold }

/-- R19, R20: both candidates of a quadrant's cycle. -/
def State.bids (s : State) (quad : Nat) (other : Bool) : Option (Bid × Option Bid) :=
  (s.firstBid quad).map fun a => match s.mateBid quad a other with
    | none => (a, none)
    | some b => if s.swaps a b then (b, some a) else (a, some b)

/-- R364: in reduced service an instruction takes 2 ns, and a port issues only in every other one (log 62). -/
def State.issuesNow (s : State) : Bool := !(s.fw.svc == .reduced && s.now % 2 == 1)

/-- R19: the candidate of a port. Port 0 chooses both candidates of the cycle as it begins, port 2 likewise but passes over a second group
where another convoy may issue; port 1 carries the second candidate. -/
def State.candidate (s : State) (quad port : Nat) : Option Cur :=
  if !s.issuesNow then none
  else match s.issued.filter (·.quad == quad), port with
  | [r], 1 => r.mate.map fun m => { col := m.col, cv := m.cv, second := m.second, mate := none, plan := some m }
  | [], 1 => none
  | [], p => (s.bids quad (p != 0)).map fun ab => { ab.1.cur with mate := ab.2.bind s.mate }
  | _, _ => none

/-- R20: a resource that what has issued in this cycle on the quadrant keeps from the candidate. -/
def State.contends (s : State) (x : Ctx) (i : Instr) : Bool :=
  s.issued.any fun r => r.quad == x.v.quad && !r.stalled &&
    clash (x.needs i) (uniUses i) (uniSets i) r.needs r.uses r.sets (r.col == x.cur.col && r.cv == x.cur.cv)

/-- R19: what has issued in this cycle on the quadrant and the candidate are not both pair-enabled. -/
def State.unpaired (s : State) (x : Ctx) : Bool :=
  s.issued.any fun r => r.quad == x.v.quad && !r.stalled && !(r.pairOk && s.pairEnabled x.core x.c.part x.c.prog x.pc)

/-- R19, R20: what has issued in this cycle on the quadrant keeps the candidate from issuing. -/
def State.conflicts (s : State) (x : Ctx) (i : Instr) : Bool := s.unpaired x || s.contends x i

/-- A fault at fetch or decode, delivered for the group (R103, R120). -/
def Ctx.faultAt (x : Ctx) (s : State) (code : BitVec 16) : State :=
  x.conclude (.unassignedOpcode 0) s (x.fail s code x.pc.toNat)

/-- What a quadrant's port runs next. -/
inductive Picked
  | nothing
  /-- No instruction executes: a fault at fetch or decode has been delivered, or the clause waits for a resource (R20). -/
  | faulted (s : State)
  /-- The instruction to execute, in the state in which its group is named. -/
  | run (i : Instr) (s : State)
  deriving DecidableEq, Repr

/-- R19, R103, R120: the candidate of a port, fetched and decoded. -/
def State.pick (s : State) (quad port : Nat) : Picked :=
  match s.candidate quad port with
  | none => .nothing
  | some cur =>
    let t := { s with cur := some cur }
    match t.ctx plainHdr with
    | none => .nothing
    | some x =>
      if s.unpaired x then .nothing
      else match s.fetch x.core x.c.part x.c.prog x.pc with
      | .fault c => .faulted (x.faultAt t c)
      | .parity => .run .fetchParityRetry t
      | .word w =>
        match decode w with
        | .error .operandReserved => .faulted (x.faultAt t cOperand)
        | .error .branchTarget => .faulted (x.faultAt t cBranch)
        | .ok i =>
          if s.contends x i then .faulted ((t.keepClause x).closeIssue x i true (s.pairEnabled x.core x.c.part x.c.prog x.pc))
          else .run i t

/-- R17: at the end of a cycle a group that had its turn and stands where it stood has merged with what has come there. -/
def State.joinGroups (s : State) : State :=
  s.issued.foldl (fun t r => match r.mate with
    | some m => if m.col != r.col || m.cv != r.cv then t
      else t.onConvoy m.col m.cv fun v =>
        v.onLanes (v.joined (m.lanes.filter fun i => (v.lane i).live && (v.lane i).pc == m.pc) []) fun _ l => { l with split := false }
    | none => t) s

/-- R236, R312: the convoys of the column are resident: not in a frame, nor on their way out of it. -/
def Column.onQuads (c : Column) : Bool :=
  match c.phase with
  | .running | .stopping | .saving .. => true
  | _ => false

/-- The wall clock advances (R77), the ports are free for the next cycle, and waiting convoys count it (R236). -/
def State.nextCycle (s : State) : State :=
  { s with
    wall := s.wall + 1
    issued := []
    cols := s.cols.map fun c =>
      if c.onQuads then { c with cvs := c.cvs.map fun v => if v.wait.isSome then v.count 3 1 else v } else c }

/-- A device step of the opcode table, which an agenda may name. -/
def isDeviceStep (i : Instr) : Bool :=
  i.form.isNone && match i with
    | .unassignedOpcode _ | .fetchParityRetry => false
    | _ => true

/-- R19: the first quadrant with a candidate that has not issued in this cycle, and the port. -/
def State.nextIssue (s : State) : Option (Nat × Nat) :=
  let quads := (s.cols.flatMap fun c => c.cvs.map (·.quad)).dedup
  let can (q p : Nat) : Bool := match s.pick q p with
    | .nothing => false
    | _ => true
  match quads.find? (can · 0) with
  | some q => some (q, 0)
  | none => (quads.find? (can · 1)).map fun q => (q, 1)

end Sys2Proof.Machine
end

