-- ==== Sys2Proof/Machine/Slices.lean ====
section
/-!
DEFINITION. Accounts charged and refilled (R308, R344), ranks and slice ends (R309, R310), pre-emption for room (R28), and drain
deadlines (R298, R316).
-/

namespace Sys2Proof.Machine

/-! ## Accounts (R308) -/

/-- R308: every bucket refilled, at most to its depth. -/
def State.refill (s : State) : State :=
  { s with
    fw := { s.fw with refilled := s.now }
    obj := { s.obj with accts := s.obj.accts.map fun a =>
      { a with level := toLevel (min (a.depth * 1000 : Nat) (a.level + (a.rate * 1000 : Nat))) } } }

/-- R308: a multiple of 1,000,000 at which the accounts have not yet been refilled. -/
def State.refillDue (s : State) : Bool := s.now % 1000000 == 0 && s.fw.refilled != s.now

/-- ACCOUNT_REFILL (R308). -/
def execAccountRefill (s : State) : Host.Outcome State Fault Refusal := if s.refillDue then .next s.refill else .next s

/-- R71: the column that holds a quadrant's accumulator store. -/
def State.storeHolder (s : State) (quad : Nat) : Option Column :=
  s.cols.find? fun k => s.holdsTiles k && !(k.isSaved && k.tilesOut) && k.cvs.any (·.quad == quad)

/-- R308: the route that pays for a quadrant's cycle: that of the convoy that issued on port 0, else that of the accumulator store's
holder. -/
def State.payer (s : State) (quad : Nat) : Option (Nat × Nat) :=
  match (s.issued.find? (·.quad == quad)).filter (!·.stalled) with
  | some r => some (r.part, r.prog)
  | none => (s.storeHolder quad).map fun k => (k.part, k.prog)

/-- R308, R344: one quadrant-ns charged for a quadrant's cycle. -/
def State.charge (s : State) (quad : Nat) : State :=
  let t := { s with fw := { s.fw with charged := quad :: s.fw.charged } }
  match s.payer quad with
  | none => t
  | some (part, prog) =>
    let acct := s.acctOf part prog
    { t with obj := { t.obj with
        accts := updateWhere (fun a => a.part == part && a.acct == acct) (fun a => { a with level := toLevel (a.level - 1) }) t.obj.accts }
      }.meter part acct 0 1

/-- Something may still issue on a quadrant's port 0 in this cycle. -/
def State.mayIssue (s : State) (quad : Nat) : Bool :=
  match s.pick quad 0 with
  | .nothing => false
  | _ => true

/-- CYCLE_CHARGE (R308): once a cycle for a quadrant, when it is settled what its port 0 issues. -/
def execCycleCharge (quad : Nat) (s : State) : Host.Outcome State Fault Refusal :=
  if s.fw.charged.contains quad || s.mayIssue quad then .next s else .next (s.charge quad)

/-- Quadrants that some column uses, or used when it issued in this cycle. -/
def State.quadsInUse (s : State) : List Nat := ((s.cols.flatMap fun k => k.cvs.map (·.quad)) ++ s.issued.map (·.quad)).dedup

/-- R308: at the end of a cycle every quadrant that has not been charged is. -/
def State.chargeRest (s : State) : State :=
  let t := (s.quadsInUse.filter fun q => !s.fw.charged.contains q).foldl State.charge s
  { t with fw := { t.fw with charged := [] } }

/-! ## Ranks (R310) -/

/-- What R310 orders columns by. `level` is none for an account without a limit. -/
structure Rank where
  prio : Nat
  level : Option (Int × Nat)
  since : Nat

/-- The rank of a column of a route. -/
def State.rankOf (s : State) (r : Route) (since : Nat) : Rank :=
  { prio := r.prio, since, level := (s.account? r.part r.acct).map fun a => (a.level, a.depth * 1000) }

/-- R310: LEVEL over DEPTH x 1,000 compared; an account without a limit stands above. -/
def levelAbove : Option (Int × Nat) → Option (Int × Nat) → Bool
  | none, some _ => true
  | some a, some b => decide (b.1 * a.2 < a.1 * b.2)
  | _, none => false

/-- R310: strictly above. -/
def Rank.above (a b : Rank) : Bool :=
  decide (b.prio < a.prio) || (a.prio == b.prio && (levelAbove a.level b.level ||
    (!levelAbove b.level a.level && decide (a.since < b.since))))

/-! ## Waiting and running columns -/

/-- A column that waits: to be launched, or pre-empted and resumable. -/
structure Waiter where
  route : Route
  bmode : Bool
  saved : Option Column
  rank : Rank

/-- The name under which room is made for a waiting column. -/
def Waiter.who (w : Waiter) : Who :=
  match w.saved with
  | some k => .column k.id
  | none => .launch w.route.slot

/-- R310: the quadrants of a saved column that it needs again, or a launch's room, on a core. -/
def State.waiterFits (s : State) (w : Waiter) (core : Nat) : Bool :=
  let core := w.route.baseOf core
  match w.saved with
  | none => s.fits w.route.part w.route w.bmode core
  | some k =>
    (!k.banksOut || (s.banksFor k.part w.route core).isSome) &&
    decide (w.route.nconv ≤ ((w.route.coresAt core).flatMap fun x => (List.range 4).map fun i =>
      s.capacity k.part w.route k.bmode (4 * x + i) (some k.id)).sum)

/-- R304: since when each batch that may be formed now waits, in order. -/
def Route.batchesDue (r : Route) (q : Queue) (now : Nat) : Bool → List Msg → Nat → List Nat
  | _, _, 0 => []
  | _, [], _ => []
  | due, m :: ms, fuel + 1 =>
    if r.thresh ≤ (m :: ms).length || (r.timeout != 0 && decide (m.at_ + r.timeout ≤ now)) || due then
      m.at_ :: r.batchesDue q now false ((m :: ms).drop (min (min (m :: ms).length r.laneCount) (q.cap - m.k % q.cap))) fuel
    else []

/-- R240, R253: columns of a bounds launch that may be launched now, each as its kind of column and since when it waits. -/
def State.roundsDue (s : State) (r : Route) (l0 : Launch) : List (Bool × Nat) :=
  let l := s.nextRound r l0
  let left (n : Nat) : Nat := (n + r.laneCount - 1) / r.laneCount
  if l.killed then []
  else if !l.element && decide (l.launched * r.laneCount < l.tiles.length) then
    List.replicate (left l.tiles.length - l.launched) (true, l.since)
  else if s.passOver r l then List.replicate (left (l.elements r).length - if l.element then l.launched else 0) (false, l.since)
  else []

/-- R304, R306, R240: the columns that a route is ready to launch: the kind of each, and since when it waits. -/
def State.readyLaunches (s : State) (r : Route) : List (Bool × Nat) :=
  if r.stopped || r.unusable || s.dry r.part r.acct then []
  else
    ((s.launches.filter fun l => l.part == r.part && l.prog == r.slot).flatMap (s.roundsDue r)) ++
    (if r.taskMode then
      (s.obj.tasks.filter fun t => t.part == r.part && t.prog == r.slot && t.counter == 0).map fun t => (r.bounds, t.since)
    else
      (r.waiting.toList.map fun b =>
        (r.bounds, (((s.queueId? b.qid).bind fun q => (q.msgs.find? (·.k == b.k0)).map (·.at_))).getD s.now)) ++
      match s.queue? r.part r.qnum with
      | some q => (r.batchesDue q s.now r.due (q.unreserved s.now) q.msgs.length).map fun a => (r.bounds, a)
      | none => [])

/-- A column uses a core. -/
def State.usesCore (s : State) (k : Column) (core : Nat) : Bool :=
  match s.route? k.part k.prog with
  | some r => (r.coresAt k.core).contains core
  | none => k.core == core

/-- R310: the waiting columns of a partition that may be placed on a core. -/
def State.waiters (s : State) (part core : Nat) : List Waiter :=
  (s.obj.routes.filter (·.part == part)).flatMap (fun r =>
    (s.readyLaunches r).map fun b => { route := r, bmode := b.1, saved := none, rank := s.rankOf r b.2 }) ++
  s.cols.filterMap fun k =>
    if k.part == part && k.isSaved && !k.killed && s.usesCore k core && !s.dry part (s.acctOf part k.prog) then
      (s.route? part k.prog).map fun r => { route := r, bmode := k.bmode, saved := some k, rank := s.rankOf r k.since }
    else none

/-- Waiting columns, best first. -/
def insertWaiter (w : Waiter) : List Waiter → List Waiter
  | [] => [w]
  | v :: vs => if w.rank.above v.rank then w :: v :: vs else v :: insertWaiter w vs

/-- R313: a frame of the route is left for one column more. -/
def State.frameLeft (s : State) (part prog : Nat) : Bool :=
  decide ((s.cols.filter fun k => k.part == part && k.prog == prog && k.phase != .running).length < 64)

/-- The column uses one of some cores. -/
def State.usesAny (s : State) (k : Column) (cores : List Nat) : Bool := cores.any (s.usesCore k)

/-- R310: running columns of a partition on some cores. -/
def State.runners (s : State) (part : Nat) (cores : List Nat) : List Column :=
  s.cols.filter fun k => k.part == part && k.phase == .running && !k.killed && s.usesAny k cores

/-- The cores on which a waiting column would be placed. -/
def Waiter.cores (w : Waiter) (core : Nat) : List Nat := w.route.coresAt (w.route.baseOf core)

/-- The rank of a column. -/
def State.colRank (s : State) (k : Column) : Rank :=
  match s.route? k.part k.prog with
  | some r => s.rankOf r k.since
  | none => { prio := 0, level := none, since := k.since }

/-- The worst-ranking of some columns; those of a dry account come first (R310). -/
def State.worst (s : State) (ks : List Column) : Option Column :=
  ks.foldl (fun (o : Option Column) k => match o with
    | none => some k
    | some d =>
      let dryK := s.dry k.part (s.acctOf k.part k.prog)
      let dryD := s.dry d.part (s.acctOf d.part d.prog)
      some (if (dryK && !dryD) || (dryK == dryD && (s.colRank d).above (s.colRank k)) then k else d)) none

/-! ## Room -/

/-- Columns as they would stand once saved, their banks and tiles given away. -/
def State.without (s : State) (ids : List Nat) : State :=
  { s with cols := updateWhere (fun k => ids.contains k.id) (fun k => { k with phase := .saved 0, banksOut := true, tilesOut := true }) s.cols }

/-- R71: as things would stand once every other pre-empted column had given its banks and tiles away. -/
def State.yielding (s : State) (w : Waiter) : State :=
  s.without ((s.cols.filter fun k => (k.beingSaved || k.isSaved) && (w.saved.map (·.id)) != some k.id).map (·.id))

/-- R8: `n` convoys spread over the quadrants of a core, or pair, each on one that has room and then the fewest convoys; fewer than `n`
where there is no more room. -/
def State.spread (s : State) (part : Nat) (r : Route) (bmode : Bool) (core : Nat) (self : Option Nat) : Nat → List Nat
  | 0 => []
  | n + 1 =>
    let qs := s.spread part r bmode core self n
    let room := ((r.coresAt core).flatMap fun c => (List.range 4).map (· + 4 * c)).filter fun q => decide (qs.count q < s.capacity part r bmode q self)
    match room.foldl (fun (o : Option Nat) q => match o with
        | none => some q
        | some p => some (if s.convoysOn q + qs.count q < s.convoysOn p + qs.count p then q else p)) none with
    | none => qs
    | some q => qs ++ [q]

/-- As things would stand with a launch's column placed. -/
def State.launchedAt (s : State) (r : Route) (bmode : Bool) (core : Nat) (quads : List Nat) : State :=
  s.newColumn r { core, quads, banks := (s.banksFor r.part r core).getD [] }
    { task := 0, bmode, launch := none, batch := none, epoch := 0, regs := [], lanes := quads.map fun _ => [] }

/-- A saved column's convoys and banks placed again; its data still lie in the frame (R315). -/
def State.putBack (s : State) (id frame : Nat) (quads banks : List Nat) : State :=
  s.onColumn id fun k =>
    { k with phase := .resuming frame (k.cvs.map (·.quad)), banks, cvs := (k.cvs.zip quads).map fun vq => { vq.1 with quad := vq.2 } }

/-- As things would stand with a waiting column placed on a core. -/
def State.occupy (s : State) (w : Waiter) (core : Nat) : State :=
  let core := w.route.baseOf core
  match w.saved with
  | some k => s.putBack k.id 0 (s.spread k.part w.route k.bmode core (some k.id) w.route.nconv)
      (if k.banksOut then (s.banksFor k.part w.route core).getD [] else k.banks)
  | none => s.launchedAt w.route w.bmode core (s.spread w.route.part w.route w.bmode core none w.route.nconv)

/-- The column for which room was made, while it still waits, and not for a bay (R217). -/
def State.roomFor (s : State) (m : Room) : Option Waiter :=
  (s.waiters m.part m.core).find? fun w => w.who == m.who && !(w.saved.isNone && w.route.noBay)

/-- R28, R310: placing a column, which leads from `s` to `t`, takes no room that was made for another. -/
def State.keepsRooms (s t : State) (part : Nat) (self : Who) : Bool :=
  s.fw.rooms.all fun m => (m.part == part && m.who == self) || match s.roomFor m with
    | none => true
    | some w => !(s.yielding w).waiterFits w m.core || (t.yielding w).waiterFits w m.core

/-- Room made for a waiting column. -/
def State.reserveRoom (s : State) (part core : Nat) (who : Who) (slice : Bool) : State :=
  if s.fw.rooms.any fun m => m.part == part && m.core == core && m.who == who && m.slice == slice then s
  else { s with fw := { s.fw with rooms := s.fw.rooms ++ [{ part, core, who, slice }] } }

/-! ## Pre-emption (R28, R309, R310) -/

/-- R310, R313: the columns to pre-empt, from the worst upward, until a waiting one fits; none when it still does not. R28 names no order
for those it pre-empts, and the model takes the same (DESIGN CHOICE, unsafe; log 54). -/
def State.victims (s : State) (w : Waiter) (core : Nat) (ks : List Column) : Nat → Option (List Nat)
  | 0 => none
  | n + 1 =>
    if (s.yielding w).waiterFits w core then some []
    else match s.worst (ks.filter fun k => s.frameLeft k.part k.prog) with
      | none => none
      | some k => ((s.without [k.id]).victims w core (ks.filter (·.id != k.id)) n).map (k.id :: ·)

/-- R312: pre-emption of columns asked for. -/
def State.stopColumns (s : State) (ids : List Nat) : State :=
  { s with cols := updateWhere (fun k => ids.contains k.id && k.phase == .running && !k.killed) (fun k => { k with phase := .stopping }) s.cols }

/-- R310: while the best waiting column ranks strictly above the worst running one of the core, or pair, that it needs, and pre-empting from
the worst upward makes room for it, those are pre-empted, and the room is the waiting column's. `h` is how things would then stand. -/
def State.serveWaiters (h : State) (part core : Nat) : List Waiter → List Column → State → State
  | [], _, s => s
  | w :: ws, ks, s =>
    let mine := ks.filter fun k => h.usesAny k (w.cores core)
    match h.worst mine with
    | none => s
    | some k =>
      if !w.rank.above (h.colRank k) then s
      else match h.victims w core mine (mine.length + 1) with
        | none => s
        | some ids =>
          (((h.without ids).yielding w).occupy w core).serveWaiters part core ws (ks.filter fun k => !ids.contains k.id)
            ((s.stopColumns ids).reserveRoom part core w.who true)

/-- R309: running columns of dry accounts are pre-empted. -/
def State.stopDry (s : State) (part core : Nat) : State :=
  (s.runners part [core]).foldl (fun (t : State) k =>
    if t.dry part (t.acctOf part k.prog) && t.frameLeft part k.prog then t.stopColumns [k.id] else t) s

/-- R309, R310: a slice end for one partition on a core. Room that R28 made is kept. -/
def State.slicePart (s : State) (core part : Nat) : State :=
  let t := s.stopDry part core
  let kept (m : Room) : Bool := !(m.part == part && m.core == core) || (!m.slice && (t.roomFor m).isSome)
  let u := { t with fw := { t.fw with rooms := t.fw.rooms.filter kept } }
  let mine := u.fw.rooms.filter fun m => m.part == part && m.core == core
  let h := mine.foldl (fun h m => match h.roomFor m with
    | some w => (h.yielding w).occupy w core
    | none => h) u
  let ws := (u.waiters part core).filter fun w => !(mine.any (·.who == w.who))
  h.serveWaiters part core (ws.foldr insertWaiter []) (u.runners part [core - core % 2, core - core % 2 + 1]) u

/-- R310: a slice ends on a core. -/
def State.endSlice (s : State) (core : Nat) : State :=
  let t := { s with fw := { s.fw with lastSlice := insertD 0 s.fw.lastSlice core s.now } }
  (t.obj.parts.filter fun p => !(p.quadsOf core).isEmpty).foldl (fun t p => t.slicePart core p.pnum) t

/-- SLICE_END (R310). -/
def execSliceEnd (core : Nat) (s : State) : Host.Outcome State Fault Refusal := .next (s.endSlice core)

/-- R28: every resident convoy of some cores has ended or is descheduled. -/
def State.allWait (s : State) (cores : List Nat) : Bool :=
  s.cols.all fun k => k.isSaved || k.cvs.all fun v => !cores.contains (coreOf v.quad) || v.ended || v.wait.isSome

/-- R28: every convoy of the column has ended or is descheduled. -/
def Column.descheduled (k : Column) : Bool := k.cvs.all fun v => v.ended || v.wait.isSome

/-- PREEMPT_FOR_ROOM (R28): every resident convoy of the core or pair waits, and a column that is ready to launch lacks room:
descheduled columns are pre-empted until it fits, and the room is that launch's. -/
def execPreemptForRoom (part prog core : Nat) (s : State) : Host.Outcome State Fault Refusal :=
  match s.route? part prog with
  | none => .next s
  | some r =>
    match s.readyLaunches r with
    | [] => .next s
    | b :: _ =>
      let w : Waiter := { route := r, bmode := b.1, saved := none, rank := s.rankOf r b.2 }
      if !s.allWait (w.cores core) || s.waiterFits w core then .next s
      else
        let ks := (s.runners part (w.cores core)).filter Column.descheduled
        match s.victims w core ks (ks.length + 1) with
        | some ids => .next ((s.stopColumns ids).reserveRoom part core w.who false)
        | none => .next s

/-! ## Drain deadlines (R298, R316) -/

/-- R298, R234: the columns of a route that are still there at its deadline; DRAIN_DEADLINE kills them. -/
def State.lateColumns (s : State) (part prog : Nat) : List Column :=
  match s.route? part prog with
  | some r => if r.deadline.any fun d => d ≤ s.now then
      s.cols.filter fun k => k.part == part && k.prog == prog && !k.dying else []
  | none => []

end Sys2Proof.Machine
end

