-- ==== Sys2Proof/Machine/Frames.lean ====
section
/-!
DEFINITION. The frame of a pre-empted column (R313, R314), its save (R312), the saving of its banks and tiles (R71), resumption (R315)
and the kill at a drain deadline (R316).
-/

namespace Sys2Proof.Machine

/-! ## Header (R314) -/

/-- Bytes at an offset of a frame. -/
abbrev Part := Nat × List Byte

/-- A mask of numbers. -/
def maskOf (n : Nat) (p : Nat → Bool) : Nat := ((List.range n).map fun i => if p i then 2 ^ i else 0).sum

/-- R314: the word and registers of work held in a convergence register. -/
def MxWork.frame : MxWork → List Byte
  | .mma tri f b x d e _ =>
    bytesOf 12 (((encode (if tri then .mmat f else .mma f)).getD 0).toNat) ++ bytesOf 4 b.toNat ++ bytesOf 4 x.toNat ++
    bytesOf 4 d.toNat ++ bytesOf 4 e.toNat
  | _ => List.replicate 28 0

/-- R314: a convergence register in the header. -/
def CvReg.frame (r : CvReg) : List Byte :=
  bytesOf 2 (maskOf 16 r.signers.contains) ++ bytesOf 2 (if r.work.isSome then 1 else 0) ++ bytesOf 2 r.poster ++ bytesOf 2 0 ++
  (r.work.map MxWork.frame).getD (List.replicate 28 0) ++ List.replicate 12 0

/-- R314: CFLAGS. -/
def State.cflags (s : State) (k : Column) : Nat :=
  (if s.holdsTiles k then 1 else 0) + (if k.banksOut then 2 else 0) + (if k.tilesOut then 4 else 0) + if k.bmode then 8 else 0

/-- R314: the header of a frame. -/
def State.frameHeader (s : State) (k : Column) (fstate : Nat) : List Part :=
  let b := k.batch
  [(0, bytesOf 4 fstate ++ bytesOf 4 k.colid.toNat ++ bytesOf 4 k.task.toNat ++
      bytesOf 2 (maskOf 16 fun i => ((k.cvs[i]?).map (·.ended)).getD false) ++ bytesOf 2 k.core),
   (0x18, bytesOf 8 ((k.cvs.zipIdx.map fun vi => (vi.1.quad - 4 * k.core) * 16 ^ vi.2).sum) ++ bytesOf 4 (s.cflags k) ++
      bytesOf 4 ((b.map (·.n)).getD 0) ++ bytesOf 8 ((b.map (·.k0)).getD 0) ++ bytesOf 8 k.epoch ++ bytesOf 8 0 ++
      (List.range 16).flatMap fun n => (k.cvreg n).frame)]

/-! ## Convoy blocks (R314) -/

/-- R314: kind, argument and address of a wait record. What the manual does not say of argument and address follows log 14. -/
def WaitRec.fields (w : WaitRec) : Nat × Nat × Nat :=
  let dst (d : Option (BitVec 3)) : Nat := (d.map (·.toNat)).getD 7
  match w.kind with
  | .barrier off ph d => (1, ph + 16 * dst d, off)
  | .waita off _ value _ => (2, value.toNat, off)
  | .qrd q _ => (3, q, 0)
  | .callo h target => (4, h, target.toNat)
  | .resume hs => (4, (hs.head?).getD 0xFFF, 0)
  | .trapEntry _ addr _ => (4, pcHandle w.pc, addr.toNat)
  | .waitc l a n t => (5, l + 2 ^ 8 * a + 2 ^ 16 * n + 2 ^ 24 * t, 0)
  | .nap => (6, 0, 0)
  | .append _ target _ _ => (7, target.toNat, 0)
  | .sign n _ => (8, n, 0)
  | .fwcall _ block _ answer => (9, (answer.map (·.toNat)).getD 0, (block.map (·.toNat)).getD 0)
  | .replay .. => (0, 0, 0)

/-- R314: the 32 bytes of a wait record. -/
def waitFrame (o : Option WaitRec) : List Byte :=
  match o with
  | none => List.replicate 32 0
  | some w =>
    let f := w.fields
    bytesOf 1 f.1 ++ bytesOf 3 0 ++ bytesOf 4 f.2.1 ++ bytesOf 8 f.2.2 ++ bytesOf 8 (w.deadline.getD 0) ++ bytesOf 4 w.pc.toNat ++ bytesOf 4 0

/-- R314: the 32 bytes of a queue port. -/
def portFrame (o : Option Port) : List Byte :=
  match o with
  | none => List.replicate 32 0
  | some p => bytesOf 8 p.base.toNat ++ bytesOf 4 p.count.toNat ++ bytesOf 2 p.stride.toNat ++ bytesOf 1 p.ty.code.toNat ++ bytesOf 1 1 ++
      bytesOf 4 p.pos ++ List.replicate 12 0

/-- R314: the 32 bytes of an attachment with its age. -/
def attachFrame (o : Option Attach) (age : Nat) : List Byte :=
  match o with
  | none => List.replicate 32 0
  | some a => bytesOf 8 a.base.toNat ++ bytesOf 4 a.n.toNat ++ bytesOf 1 a.ty.code.toNat ++ bytesOf 3 0 ++ bytesOf 8 a.table.toNat ++
      bytesOf 4 age ++ bytesOf 4 0

/-- R314: the block of a convoy. -/
def Convoy.block (v : Convoy) (bmode : Bool) : List Part :=
  let lane (i : Nat) : Lane := (v.lanes[i]?).getD Lane.zero
  let all (n : Nat) (f : Lane → Nat) : List Byte := (List.range 64).flatMap fun i => bytesOf n (f (lane i))
  let mask (f : Lane → Bool) : List Byte := bytesOf 8 (maskOf 64 fun i => decide (i < v.lanes.length) && f (lane i))
  [(0, all 4 (·.pc.toNat) ++ all 4 (·.lnk.toNat) ++ all 4 (·.trpc.toNat) ++ all 2 (·.fault.toNat) ++ mask (·.live) ++ mask (·.trap) ++
      mask (·.split) ++ bytesOf 8 v.traddr.toNat ++
      (List.range 7).flatMap fun p => if bmode then bytesOf 8 0 else mask fun l => l.pred p == .yes),
   (0x400, (List.range 64).flatMap fun n => bytesOf 4 (v.sreg n).toNat),
   (0x500, bytesOf 4 v.stack.length ++ (List.range 8).flatMap fun i => bytesOf 4 ((v.stack[i]?).getD 0).toNat),
   (0x540, bytesOf 1 v.loads ++ bytesOf 1 v.stores ++ bytesOf 1 v.copies ++ bytesOf 1 v.tileOps ++ bytesOf 4 v.liveCount ++ bytesOf 8 v.ctdev ++
      bytesOf 8 v.ctsys ++ (List.range 6).flatMap fun n => bytesOf 4 (lookupD 0 v.perf n).toNat),
   (0x580, waitFrame v.wait),
   (0x600, (List.range 4).flatMap fun q => portFrame (v.port? q)),
   (0x680, (List.range 8).flatMap fun n => (List.range 16).flatMap fun i =>
      bytesOf 2 (((v.books.lookup n).bind fun b => b.table[i]?).getD 0).toNat),
   (0x800, (List.range 8).flatMap fun i => attachFrame v.atts[i]? i)]

/-! ## Lane areas (R313, R314) -/

/-- R23: lane registers of a convoy that are live. -/
def Convoy.liveRegs (v : Convoy) (r : Route) : Nat := min v.liveCount r.nregs

/-- R314: one back-edge entry, in 32 bytes (log 14). -/
def BackEdge.frame (e : BackEdge) : List Byte :=
  bytesOf 4 e.pc.toNat ++ bytesOf 4 e.count ++ bytesOf 8 (maskOf 64 e.regs.contains) ++ bytesOf 8 (maskOf 7 e.preds.contains) ++ bytesOf 8 0

/-- R314: one pending fill, in 32 bytes (log 14). -/
def Fill.frame (f : Fill) : List Byte :=
  bytesOf 8 f.base.toNat ++ bytesOf 2 f.off.toNat ++ bytesOf 1 f.size ++ bytesOf 1 (codeFor hintCodes 3 f.hint).toNat ++ bytesOf 4 f.rs ++
  bytesOf 8 f.value.toNat ++ bytesOf 8 0

/-- R314: the bounds lane block. -/
def Lane.boundsFrame (l : Lane) : List Byte :=
  let t := l.tile.getD { depth := 0, index := 0, x := 0, y := 0, sx := 0, sy := 0 }
  let tri (p : Tri) : Nat := match p with
    | .no => 0
    | .yes => 1
    | .und => 2
  bytesOf 4 t.depth ++ bytesOf 4 t.index ++ bytesOf 4 t.x ++ bytesOf 4 t.y ++ bytesOf 8 l.wide.toNat ++ bytesOf 8 l.mn.toNat ++
  bytesOf 4 (((List.range 7).map fun p => tri (l.pred p) * 4 ^ p).sum) ++ bytesOf 4 0 ++ padded128 (l.edges.flatMap BackEdge.frame) ++
  padded128 (l.fills.flatMap Fill.frame)
where
  /-- A list cut or filled with zeros to 128 bytes. -/
  padded128 (bs : List Byte) : List Byte := (List.range 128).map fun i => (bs[i]?).getD 0

/-- R313, R314: the lane area of a convoy: its live registers, one register after another, and the bounds blocks. -/
def Route.lanes (r : Route) (k : Column) (cv : Nat) (v : Convoy) : List Part :=
  let at_ (n : Nat) : Nat := r.laneAt cv + 4 * r.width * n
  let regs (f : Nat → Nat) : List Part := (List.range (v.liveRegs r)).map fun n => (at_ (f n), v.lanes.flatMap fun l => bytesOf 4 (l.reg n).toNat)
  let upper : List Part := (List.range (v.liveRegs r)).map fun n =>
    (at_ (n + r.nregs), v.lanes.flatMap fun l => bytesOf 4 (l.reg (n + 64)).toNat)
  regs (fun n => n) ++ if k.bmode then
    upper ++ v.lanes.zipIdx.map fun li => (r.laneAt cv + 8 * r.width * r.nregs + 512 * li.2, li.1.boundsFrame)
  else []

/-! ## Writing and reading a frame -/

/-- R312: the pages of a save supplied as the paging service would; otherwise the first byte that it cannot, and the
state in which room was sought for it (R352). -/
def State.supply (s : State) (core part ctx : Nat) (perm : Perm) : List Nat → Except (Nat × State) State
  | [] => .ok s
  | a :: as_ =>
    match s.translate ⟨core, none⟩ part ctx none a perm with
    | .ok (_, t) => t.supply core part ctx perm as_
    | .error code =>
      if code ≠ cTranslation then .error (a, s)
      else match s.serve part ctx a with
        | .written t _ => match t.translate ⟨core, none⟩ part ctx none a perm with
          | .ok (_, u) => u.supply core part ctx perm as_
          | .error _ => .error (a, t)
        | .unmapped => .error (a, s)
        | .exhausted t | .badImage t _ => .error (a, t)

/-- The 4 KiB pages of ranges of a frame, given as offset and length. -/
def rangePages (va : Nat) (rs : List (Nat × Nat)) : List Nat :=
  (rs.flatMap fun p => (List.range ((va + p.1 + p.2 + 4095) / 4096 - (va + p.1) / 4096)).map fun i => ((va + p.1) / 4096 + i) * 4096).dedup

/-- Parts of a frame written through the route's context; the latest completion time, or the first byte that cannot be written. -/
def State.writeParts (s : State) (core : Nat) (r : Route) (va : Nat) (ps : List Part) : Except (Nat × State) (State × Nat) :=
  match s.supply core r.part r.ctx .write (rangePages va (ps.map fun p => (p.1, p.2.length))) with
  | .error e => .error e
  | .ok t => .ok (ps.foldl (fun (u : State × Nat) p =>
      let w := u.1.ringBytes core r.part r.ctx (va + p.1) p.2
      (w.1, max u.2 w.2)) (t, t.now))

/-- Bytes of a frame read through the route's context, their pages having been supplied. -/
def State.frameBytes (s : State) (core : Nat) (r : Route) (va n : Nat) : List Byte :=
  (List.range n).map fun i => match s.translate ⟨core, none⟩ r.part r.ctx none (va + i) .read with
    | .ok (t, _) => s.peek t.loc t.pa
    | .error _ => 0

/-- R316: a column that was being saved ends as killed. -/
def State.killSaved (s : State) (col : Nat) : State :=
  match s.column? col with
  | some k => (s.killNow k).onColumn col fun c => { c with phase := if k.beingSaved then .running else k.phase }
  | none => s

/-- R316: the deletion of a column's partition has begun. -/
def State.partLeaves (s : State) (part : Nat) : Bool :=
  s.recs.any fun r => r.fn == 0 && r.st == .draining && r.present && r.eff.any fun v => v.kind == 1 && v.num 0 1 == part

/-- R312: a column whose frame cannot be written is killed. -/
def State.saveFails (s : State) (k : Column) (addr : Nat) : State :=
  (s.report k (((k.cvs.head?).map (·.quad)).getD 0) cExhausted (BitVec.ofNat 64 addr) 2 0).killSaved k.id

/-! ## PREEMPTION_SAVE (R312) -/

/-- R313: the lowest frame that no column of the route holds; a killed one holds none (R316). -/
def State.freeFrame (s : State) (part prog : Nat) : Option Nat :=
  let held (f : Nat) : Bool := s.cols.any fun k => k.part == part && k.prog == prog && !k.killed && match k.phase with
    | .saving g _ | .saved g | .resuming g _ => g == f
    | _ => false
  (List.range 64).find? fun f => !held f

/-- R312: every convoy has stopped, so that no running clause can go on (log 79) and no fault of this cycle waits, and its load and store
counters are 0. -/
def State.stopped (s : State) (k : Column) : Bool :=
  (s.holds.all fun h => h.col != k.id || (s.holdCur h).isNone) && !(s.raised.any (·.col == k.id)) && k.cvs.all fun v => v.loads == 0 && v.stores == 0

/-- R312 step 3: everything a save writes. -/
def State.saveParts (s : State) (r : Route) (k : Column) : List Part :=
  s.frameHeader k 1 ++ k.cvs.zipIdx.flatMap fun vi =>
    (vi.1.block k.bmode).map (fun p => (0x400 + 0x1000 * vi.2 + p.1, p.2)) ++ r.lanes k vi.2 vi.1

/-- R324: a convoy that waits for a replay is saved as stopped at its instruction; the read-ahead of a saved convoy is discarded. -/
def Convoy.asSaved (v : Convoy) : Convoy :=
  let u := v.discard
  match v.wait with
  | some { kind := .replay .., .. } => { u with wait := none }
  | _ => u

/-- R312 step 4, R316: the writes have completed: FSTATE 2 and TSAVE; a column that was to be killed, or whose partition goes, is killed,
its frame free. -/
def State.saveEnds (s : State) (r : Route) (k : Column) (f : Nat) : State :=
  let va := r.frameVa f
  if k.doomed || s.partLeaves k.part then s.killSaved k.id
  else
    let t := (s.ringBytes k.core r.part r.ctx va (bytesOf 4 2)).1
    let u := (t.ringBytes k.core r.part r.ctx (va + 0x10) (bytesOf 8 s.now)).1
    (u.onColumn k.id fun k => { k with phase := .saved f, since := s.now, cvs := k.cvs.map Convoy.asSaved }).meterCol k.id 6 1

/-- R312: the save of a stopped column begins: what its convoys hold of the ports is given up, and the frame is written. Where no frame is
left the column runs on, or is killed if it was to be. -/
def State.beginSave (s : State) (r : Route) (k0 : Column) : State :=
  let t := (List.range k0.cvs.length).foldl (fun t cv => t.releasePorts k0.id cv) s
  match t.column? k0.id with
  | none => t
  | some k => match t.freeFrame k.part k.prog with
    | none => if k.doomed then t.killSaved k.id else t.onColumn k.id fun k => { k with phase := .running }
    | some f => match t.writeParts k.core r (r.frameVa f) (t.saveParts r k) with
      | .error (a, u) => u.saveFails k a
      | .ok (u, done) => u.onColumn k.id fun k => { k with phase := .saving f done }

/-- PREEMPTION_SAVE (R312): the frame is written once every convoy has stopped; when the writes have completed the column is saved. -/
def execPreemptionSave (col : Nat) (s : State) : Host.Outcome State Fault Refusal :=
  match s.column? col with
  | none => .next s
  | some k => match s.route? k.part k.prog with
    | none => .next s
    | some r => match k.phase with
      | .stopping => if k.killed || !s.stopped k then .next s else .next (s.beginSave r k)
      | .saving f done => if done ≤ s.now then .next (s.saveEnds r k f) else .next s
      | _ => .next s

/-! ## TILE_BANK_SAVE (R71, R312) -/

/-- R313: the banks of a column as parts of its frame. -/
def State.bankParts (s : State) (r : Route) (k : Column) : List Part :=
  if k.banksOut then [] else (List.range k.banks.length).map fun i => (r.banksAt + 32768 * i, s.spadBytes k.banks (32768 * i) 32768)

/-- The quadrants whose accumulator stores a column holds. -/
def State.heldQuads (s : State) (k : Column) : List Nat := if s.holdsTiles k then (k.cvs.map (·.quad)).dedup else []

/-- R313: the tiles and checksum words of a column's quadrants. -/
def State.tileParts (s : State) (r : Route) (k : Column) : List Part :=
  if k.tilesOut then []
  else (s.heldQuads k).flatMap fun q =>
    let base := r.tilesAt + 0x41000 * (q - 4 * k.core)
    ((List.range 16).map fun t => (base + 0x4000 * t,
      (List.range 4096).flatMap fun i => bytesOf 4 (lookupD 0 s.store.tiles (tileIndex q t 0 i)).toNat)) ++
    [(base + 0x40000, bytesOf 4 (s.cksum q 0).toNat ++ bytesOf 4 (s.cksum q 1).toNat)]

/-- R71: as things would stand once some saved columns had given up their banks, and some their tiles. -/
def State.givenUp (s : State) (banks tiles : List Nat) : State :=
  { s with cols := s.cols.map fun k =>
      { k with banksOut := k.banksOut || (k.isSaved && banks.contains k.id), tilesOut := k.tilesOut || (k.isSaved && tiles.contains k.id) } }

/-- R71: whether a waiting column on a core is to be placed where a saved one's banks, and where its tiles, lie. Of the saved columns the
first that make room give way (log 80). -/
def State.wantedBy (s : State) (k : Column) (w : Waiter) (core : Nat) : Bool × Bool :=
  let ids := (s.cols.filter fun c => c.isSaved && (w.saved.map (·.id)) != some c.id).map (·.id)
  let all (n : Nat) : List Nat := ids.take n
  if s.waiterFits w core then (false, false)
  else match (List.range (ids.length + 1)).find? fun n => (s.givenUp (all n) (all n)).waiterFits w core with
    | none => (false, false)
    | some n =>
      let rest := (all n).filter (· != k.id)
      if !(all n).contains k.id then (false, false)
      else (!(s.givenUp rest (all n)).waiterFits w core, !(s.givenUp (all n) rest).waiterFits w core)

/-- R71: another column of the partition is to be placed where a saved one's banks, and where its tiles, lie. -/
def State.roomWanted (s : State) (k : Column) (cores : List Nat) : Bool × Bool :=
  let ws := cores.flatMap fun core => (s.waiters k.part core).map fun w => s.wantedBy k w core
  (!k.banksOut && ws.any (·.1), !k.tilesOut && s.holdsTiles k && ws.any (·.2))

/-- R95: no copy or tile operation of the column is still at work. -/
def State.enginesDone (s : State) (k : Column) : Bool :=
  !(s.eng.mx.any fun e => e.col == k.id) && !(s.eng.jobs.any fun j => match j.src with
    | .cv _ col _ => col == k.id
    | .ring _ => false) && !(s.eng.res.any fun o => o.waiters.any (·.col == k.id))

/-- R330: the poisoned words of a column's banks, and of its tiles, each with its place in the frame. -/
def State.poisonParts (s : State) (r : Route) (k : Column) (banks tiles : Bool) : List (PoisonAt × Nat) :=
  s.coh.poison.filterMap fun p => match p with
    | .word w => if banks then (k.banks.findIdx? (· == w / 8192)).map fun i => (p, r.banksAt + 32768 * i + 4 * (w % 8192)) else none
    | .acc n =>
      if tiles && (s.heldQuads k).contains (n / 65536) then
        some (p, r.tilesAt + 0x41000 * (n / 65536 - 4 * k.core) + 0x4000 * (n % 65536 / 4096) + 4 * (n % 4096))
      else none
    | _ => none

/-- The device sector of a frame's byte. -/
def State.frameSector (s : State) (r : Route) (core va : Nat) : Option PoisonAt :=
  match s.translate ⟨core, none⟩ r.part r.ctx none va .read with
  | .ok (⟨.dev, pa⟩, _) => some (.sector (lineOf pa))
  | _ => none

/-- R330: poison goes with the words that are written into a frame. -/
def State.carryOut (s : State) (r : Route) (core va : Nat) (ps : List (PoisonAt × Nat)) : State :=
  let bad := (ps.filterMap fun p => s.frameSector r core (va + p.2)).dedup
  { s with coh := { s.coh with poison := s.coh.poison ++ bad.filter (!s.coh.poison.contains ·) } }

/-- R330: poison comes with the words that are read back from a frame. -/
def State.carryBack (s : State) (r : Route) (core va : Nat) (ps : List (PoisonAt × Nat)) : State :=
  if !(s.coh.poison.any fun p => match p with
    | .sector _ => true
    | _ => false) then s
  else
    let bad := ps.filter fun p => (s.frameSector r core (va + p.2)).any s.coh.poison.contains
    { s with coh := { s.coh with poison := s.coh.poison ++ (bad.map (·.1)).filter (!s.coh.poison.contains ·) } }

/-- TILE_BANK_SAVE (R71): the banks of a saved column, or its tiles, written into its frame, because another column is placed on them. -/
def execTileBankSave (col : Nat) (s : State) : Host.Outcome State Fault Refusal :=
  match s.column? col with
  | none => .next s
  | some k => match s.route? k.part k.prog, k.phase with
    | some r, .saved f =>
      let want := s.roomWanted k (r.coresAt k.core)
      if k.killed || !(want.1 || want.2) || !s.enginesDone k then .next s
      else
        let u := { k with banksOut := k.banksOut || want.1, tilesOut := k.tilesOut || want.2 }
        match s.writeParts k.core r (r.frameVa f) ((if want.1 then s.bankParts r k else []) ++ (if want.2 then s.tileParts r k else []) ++
            [(0x20, bytesOf 4 (s.cflags u))]) with
        | .error (a, t) => .next (t.saveFails k a)
        | .ok (t, _) => .next ((t.carryOut r k.core (r.frameVa f) (s.poisonParts r k want.1 want.2)).onColumn col fun k =>
            { k with banksOut := u.banksOut, tilesOut := u.tilesOut })
    | _, _ => .next s

/-! ## RESUMPTION (R8, R315) -/

/-- R71: convoys of a column that holds tiles share a quadrant exactly where they shared one. -/
def State.quadsKept (s : State) (k : Column) (quads : List Nat) : Bool :=
  if !s.holdsTiles k then true
  else
    let ps := (k.cvs.map (·.quad)).zip quads
    ps.all fun p => ps.all fun q => (p.1 == q.1) == (p.2 == q.2)

/-- A little-endian field of bytes read from a frame. -/
def fieldAt (bs : List Byte) (off n : Nat) : Nat := numberOf ((bs.drop off).take n)

/-- The numbers in a mask. -/
def inMask (n m : Nat) : List Nat := (List.range n).filter fun i => m.testBit i

/-- R314, R315: what a wait record of the frame says of a kind; what it does not hold stays as it was when the convoy was saved. -/
def WaitKind.readBack (k : WaitKind) (arg addr : Nat) : WaitKind :=
  match k with
  | .barrier .. => .barrier addr (arg % 16) (if arg / 16 = 7 then none else some (BitVec.ofNat 3 (arg / 16)))
  | .waita _ cmp _ d => .waita addr cmp (BitVec.ofNat 32 arg) d
  | .qrd _ a => .qrd arg a
  | .callo .. => .callo arg (BitVec.ofNat 25 addr)
  | .trapEntry codes _ page => .trapEntry codes (BitVec.ofNat 64 addr) page
  | .waitc .. => .waitc (bitsOf arg 0 8) (bitsOf arg 8 8) (bitsOf arg 16 8) (bitsOf arg 24 8)
  | .append emit _ srcs space => .append emit (BitVec.ofNat 32 arg) srcs space
  | .sign _ work => .sign arg work
  | .resume hs => .resume hs
  | .nap => .nap
  | .fwcall svc block a answer => .fwcall svc block a answer
  | .replay ctx page => .replay ctx page

/-- R314, R315: a wait record taken from the frame. -/
def WaitRec.readBack (w : WaitRec) (bs : List Byte) : Option WaitRec :=
  if fieldAt bs 0 1 = 0 then none
  else some { w with
    kind := w.kind.readBack (fieldAt bs 4 4) (fieldAt bs 8 8)
    deadline := if fieldAt bs 0x10 8 = 0 then none else some (fieldAt bs 0x10 8)
    pc := BitVec.ofNat 25 (fieldAt bs 0x18 4) }

/-- R314, R315: a queue port taken from the frame, which does not hold its hint. -/
def portFrom (old : Option Port) (bs : List Byte) : Option Port :=
  if fieldAt bs 0xF 1 = 0 then none
  else some { base := BitVec.ofNat 64 (fieldAt bs 0 8), count := BitVec.ofNat 32 (fieldAt bs 8 4), stride := BitVec.ofNat 16 (fieldAt bs 0xC 2)
              ty := (Fmt.ofCode (fieldAt bs 0xE 1)).getD .none, hint := (old.map (·.hint)).getD .default, pos := fieldAt bs 0x10 4, buf := [] }

/-- R314, R315: an attachment taken from the frame. -/
def attachFrom (bs : List Byte) : Attach :=
  { base := BitVec.ofNat 64 (fieldAt bs 0 8), n := BitVec.ofNat 32 (fieldAt bs 8 4), ty := (Fmt.ofCode (fieldAt bs 0xC 1)).getD .none
    table := BitVec.ofNat 64 (fieldAt bs 0x10 8) }

/-- R314, R315: a back-edge entry taken from the frame. -/
def backEdgeFrom (bs : List Byte) : BackEdge :=
  { pc := BitVec.ofNat 25 (fieldAt bs 0 4), count := fieldAt bs 4 4, regs := inMask 64 (fieldAt bs 8 8), preds := inMask 7 (fieldAt bs 0x10 8) }

/-- R314, R315: a pending fill taken from the frame. -/
def fillFrom (bs : List Byte) : Fill :=
  { base := BitVec.ofNat 64 (fieldAt bs 0 8), off := BitVec.ofNat 16 (fieldAt bs 8 2), size := fieldAt bs 0xA 1
    hint := (hintCodes[fieldAt bs 0xB 1]?).getD .default, rs := fieldAt bs 0xC 4, value := BitVec.ofNat 64 (fieldAt bs 0x10 8) }

/-- R314, R315: what the bounds lane block of a lane says; the sides of its tile are those of its depth. -/
def Lane.boundsFrom (l : Lane) (bs : List Byte) : Lane :=
  let tri (n : Nat) : Tri := if n = 0 then .no else if n = 1 then .yes else .und
  { l with
    tile := l.tile.map fun t => { t with depth := fieldAt bs 0 4, index := fieldAt bs 4 4, x := fieldAt bs 8 4, y := fieldAt bs 0xC 4 }
    wide := BitVec.ofNat 64 (fieldAt bs 0x10 8), mn := BitVec.ofNat 64 (fieldAt bs 0x18 8)
    preds := (List.range 7).foldl (fun m p => insertD .no m p (tri (bitsOf (fieldAt bs 0x20 4) (2 * p) 2))) []
    edges := (List.range l.edges.length).map fun i => backEdgeFrom ((bs.drop (0x28 + 32 * i)).take 32)
    fills := (List.range l.fills.length).map fun i => fillFrom ((bs.drop (0xA8 + 32 * i)).take 32) }

/-- R315: one lane with its live registers read back from the frame and its dead ones as they were, or 0 on another quadrant. -/
def Lane.readBack (l : Lane) (keep : Bool) (live : List (Nat × Nat)) : Lane :=
  let names := live.map (·.1)
  let kept := l.regs.filter fun p => keep && !names.contains p.1
  { l with regs := live.foldl (fun (m : List (Nat × Word)) p => insertD 0 m p.1 (BitVec.ofNat 32 p.2)) kept }

/-- R314, R315: what a convoy's block says of lane `i`. -/
def Lane.blockFrom (l : Lane) (bmode : Bool) (bs : List Byte) (i : Nat) : Lane :=
  let bit (off : Nat) : Bool := (fieldAt bs off 8).testBit i
  { l with
    pc := BitVec.ofNat 25 (fieldAt bs (4 * i) 4), lnk := BitVec.ofNat 25 (fieldAt bs (0x100 + 4 * i) 4)
    trpc := BitVec.ofNat 25 (fieldAt bs (0x200 + 4 * i) 4), fault := BitVec.ofNat 16 (fieldAt bs (0x300 + 2 * i) 2)
    live := bit 0x380, trap := bit 0x388, split := bit 0x390
    preds := if bmode then l.preds
      else (List.range 7).foldl (fun m p => insertD .no m p (if bit (0x3A0 + 8 * p) then .yes else .no)) [] }

/-- R315: a convoy taken from its block. Copies and tile operations counted on while it was saved (R95); what the convoy waited for
before it awaited overlays has no place in the frame and stays as it was (log 14). -/
def Convoy.blockFrom (v : Convoy) (bmode : Bool) (bs : List Byte) : Convoy :=
  { v with
    lanes := v.lanes.mapIdx fun i l => l.blockFrom bmode bs i
    traddr := BitVec.ofNat 64 (fieldAt bs 0x398 8)
    sregs := (List.range 64).foldl (fun m n => insertD 0 m n (BitVec.ofNat 32 (fieldAt bs (0x400 + 4 * n) 4))) []
    stack := (List.range (fieldAt bs 0x500 4)).map fun i => BitVec.ofNat 25 (fieldAt bs (0x504 + 4 * i) 4)
    liveCount := fieldAt bs 0x544 4
    ctdev := max v.ctdev (fieldAt bs 0x548 8)
    ctsys := max v.ctsys (fieldAt bs 0x550 8)
    perf := (List.range 6).foldl (fun m n => insertD 0 m n (BitVec.ofNat 32 (fieldAt bs (0x558 + 4 * n) 4))) []
    wait := v.wait.bind fun w => w.readBack ((bs.drop 0x580).take 32)
    ports := (List.range 4).filterMap fun q => (portFrom (v.port? q) ((bs.drop (0x600 + 32 * q)).take 32)).map fun p => (q, p)
    books := v.books.map fun b => (b.1, { b.2 with table := (List.range 16).map fun i => BitVec.ofNat 16 (fieldAt bs (0x680 + 32 * b.1 + 2 * i) 2) })
    atts := (List.range v.atts.length).map fun i => attachFrom ((bs.drop (0x800 + 32 * i)).take 32) }

/-- R314, R315: a convergence register taken from the header; what the header does not hold of its work stays as it was. -/
def CvReg.readBack (r : CvReg) (bs : List Byte) : CvReg :=
  let word (off : Nat) : Word := BitVec.ofNat 32 (fieldAt bs off 4)
  { r with
    signers := inMask 16 (fieldAt bs 0 2)
    poster := fieldAt bs 4 2
    work := if fieldAt bs 2 2 % 2 = 0 then none
      else r.work.map fun w => match w with
        | .mma tri f _ _ _ _ table => .mma tri f (word 0x14) (word 0x18) (word 0x1C) (word 0x20) table
        | w => w }

/-- R315: a convoy put back, its state and live registers read from the frame; `was` is the quadrant it ran on before. -/
def State.readBack (s : State) (r : Route) (k : Column) (f cv was : Nat) (v : Convoy) : Convoy :=
  let va := r.frameVa f
  let reg (n i : Nat) : Nat := numberOf (s.frameBytes k.core r (va + r.laneAt cv + 4 * (r.width * n + i)) 4)
  let u := v.blockFrom k.bmode (s.frameBytes k.core r (va + 0x400 + 0x1000 * cv) 4096)
  let live (i : Nat) : List (Nat × Nat) := (List.range (u.liveRegs r)).flatMap fun n =>
    (n, reg n i) :: if k.bmode then [(n + 64, reg (n + r.nregs) i)] else []
  let bounds (i : Nat) (l : Lane) : Lane :=
    if k.bmode then l.boundsFrom (s.frameBytes k.core r (va + r.laneAt cv + 8 * r.width * r.nregs + 512 * i) 512) else l
  { u with
    lanes := u.lanes.mapIdx fun i l => (bounds i l).readBack (was == v.quad) (live i)
    firstIssue := if was = v.quad then v.firstIssue else none }

/-- R71, R315: banks that were written out read back into the banks given now. -/
def State.readBanks (s : State) (r : Route) (k : Column) (f : Nat) (banks : List Nat) : State :=
  if !k.banksOut then s
  else
    let words := banks.zipIdx.flatMap fun b => (List.range 8192).map fun i => (PoisonAt.word (8192 * b.1 + i), r.banksAt + 32768 * b.2 + 4 * i)
    (s.spadWrite banks 0 (s.frameBytes k.core r (r.frameVa f + r.banksAt) (spadSize banks))).carryBack r k.core (r.frameVa f) words

/-- R71: tiles and checksum words go with the convoys from each quadrant to another, under the same numbers. -/
def State.moveTiles (s : State) (ps : List (Nat × Nat)) : State :=
  let moved := s.store.tiles.filterMap fun e => (ps.lookup (e.1 / 65536)).map fun q => (65536 * q + e.1 % 65536, e.2)
  let kept := s.store.tiles.filter fun e => !(ps.map (·.2)).contains (e.1 / 65536)
  let poison := s.coh.poison.filterMap fun p => match p with
    | .acc n => match ps.lookup (n / 65536) with
      | some q => some (PoisonAt.acc (65536 * q + n % 65536))
      | none => if (ps.map (·.2)).contains (n / 65536) then none else some p
    | _ => some p
  let t := { s with store := { s.store with tiles := moved.foldl (fun m e => insertD 0 m e.1 e.2) kept }, coh := { s.coh with poison } }
  ps.foldl (fun t p => (t.setCksum p.2 0 (s.cksum p.1 0)).setCksum p.2 1 (s.cksum p.1 1)) t

/-- R71, R315: tiles that were written out read back into the quadrant that each convoy runs on now; `was` are those of before. -/
def State.readTiles (s : State) (r : Route) (k : Column) (f : Nat) (was : List Nat) : State :=
  if !s.holdsTiles k || !k.tilesOut then s
  else (was.zip (k.cvs.map (·.quad))).dedup.foldl (fun t p =>
    let base := r.frameVa f + r.tilesAt + 0x41000 * (p.1 - 4 * k.core)
    let num (off : Nat) : Word := BitVec.ofNat 32 (numberOf (s.frameBytes k.core r (base + off) 4))
    let tiles := (List.range 65536).foldl (fun (m : List (Nat × Word)) i =>
      insertD 0 m (tileIndex p.2 (i / 4096) 0 (i % 4096)) (num (0x4000 * (i / 4096) + 4 * (i % 4096)))) t.store.tiles
    let words := (List.range 65536).map fun i =>
      (PoisonAt.acc (65536 * p.2 + i), r.tilesAt + 0x41000 * (p.1 - 4 * k.core) + 0x4000 * (i / 4096) + 4 * (i % 4096))
    let clean := t.coh.poison.filter fun q => match q with
      | .acc n => n / 65536 != p.2
      | _ => true
    (({ t with store := { t.store with tiles }, coh := { t.coh with poison := clean } }.setCksum p.2 0 (num 0x40000)).setCksum p.2 1
      (num 0x40004)).carryBack r k.core (r.frameVa f) words) s

/-- R216: overlays a convoy references on the core it comes back on: those not resident or loading there are loaded, and the convoy waits
for all of them; none with the code of a load that finds no bay. -/
def State.bringOverlays (s : State) (r : Route) (core : Nat) : List Nat → Except (BitVec 16) State
  | [] => .ok s
  | h :: hs =>
    match (s.res core r.part r.slot h).st with
    | .absent | .draining => match r.dirEntry h with
      | none => .error cAbsent
      | some d => match s.load core r.part r.slot h d with
        | (_, .noBay) => .error cNoBay
        | (t, _) => t.bringOverlays r core hs
    | _ => s.bringOverlays r core hs

/-- R216: a convoy that comes back on another core of the pair. -/
def State.comeBack (s : State) (r : Route) (k : Column) (cv oldCore : Nat) : State :=
  match s.convoy? k.id cv with
  | none => s
  | some v =>
    let core := coreOf v.quad
    if core = oldCore ∨ v.ended = true then s
    else match s.bringOverlays r core v.handles with
      | .error code => (s.report k v.quad code (BitVec.setWidth 64 ((v.frontier).getD 0)) 0 0).kill k.id
      | .ok t =>
        if v.handles.all fun h => (t.res core r.part r.slot h).st == .resident then t
        else t.onConvoy k.id cv fun v =>
          { v with after := match v.wait with
                     | some { kind := .resume _, .. } => v.after
                     | w => w
                   wait := some { kind := .resume v.handles, pc := (v.frontier).getD 0, group := [], active := [], deadline := none,
                                  err := none, met := false, since := none } }

/-- R314: ranges of a frame that a resumption reads. -/
def State.resumeRanges (s : State) (r : Route) (k : Column) : List (Nat × Nat) :=
  ((s.saveParts r k).map fun p => (p.1, p.2.length)) ++ (if k.banksOut then [(r.banksAt, 32768 * r.spbanks)] else []) ++
  if k.tilesOut && s.holdsTiles k then [(r.tilesAt, r.frameSize - r.tilesAt)] else []

/-- R315: a saved column placed: FSTATE 3; tiles and banks that were not written out are used in place, tiles going with their convoys. -/
def State.placeBack (s : State) (r : Route) (k : Column) (f : Nat) (quads banks : List Nat) : State :=
  let moves := (((k.cvs.map (·.quad)).zip quads).filter fun p => p.1 != p.2).dedup
  let t := if s.holdsTiles k && !k.tilesOut then s.moveTiles moves else s
  let u := (t.takeQuads quads (some k.id)).putBack k.id f quads banks
  ((u.ringBytes k.core r.part r.ctx (r.frameVa f) (bytesOf 4 3)).1).takeRoom k.part (.column k.id)

/-- R315: the data of a placed column read back; it runs, and its frame is free. -/
def State.resume (s : State) (r : Route) (k : Column) (f : Nat) (was : List Nat) : State :=
  let t := (s.readBanks r k f k.banks).readTiles r k f was
  let cvs := (k.cvs.zip was).mapIdx fun c vq => t.readBack r k f c vq.2 vq.1
  let regs := k.cvregs.map fun m => (m.1, m.2.readBack (t.frameBytes k.core r (r.frameVa f + 0x40 + 48 * m.1) 48))
  let u := t.onColumn k.id fun k =>
    { k with cvs, cvregs := regs, phase := .running, banksOut := false, tilesOut := false, since := s.now }
  let w := (u.ringBytes k.core r.part r.ctx (r.frameVa f) (bytesOf 4 0)).1
  ((was.zipIdx.foldl (fun (t : State) q => t.comeBack r k q.2 (coreOf q.1)) w).settle).notice

/-- RESUMPTION (R8, R28, R208, R309, R310, R315): a pre-empted column is placed again on its core or pair, where no room was made for
another, and not on other quadrants while entries of its own still work on its tiles; then its data are read back. -/
def execResumption (col core : Nat) (quads : List Nat) (s : State) : Host.Outcome State Fault Refusal :=
  match s.column? col with
  | none => .next s
  | some k => match s.route? k.part k.prog, k.phase with
    | some r, .saved f =>
      let moved := quads != k.cvs.map (·.quad)
      if k.killed || core != k.core || s.dry k.part r.acct || !s.quadsOk k.part r k.bmode core quads (some k.id) || !s.quadsKept k quads ||
         (moved && s.eng.mx.any (·.col == col)) then .next s
      else match if k.banksOut then s.banksFor k.part r core else some k.banks with
        | none => .next s
        | some banks =>
          let t := s.placeBack r k f quads banks
          if s.keepsRooms t k.part (.column col) then .next t else .next s
    | some r, .resuming f was =>
      if k.killed then .next s
      else match s.supply k.core r.part r.ctx .read (rangePages (r.frameVa f) (s.resumeRanges r k)) with
        | .ok t => .next (t.resume r k f was)
        | .error (a, t) => .next (t.saveFails k a)
    | _, _ => .next s

/-! ## DRAIN_DEADLINE (R298, R316) -/

/-- DRAIN_DEADLINE (R298, R316). -/
def execDrainDeadline (part prog : Nat) (s : State) : Host.Outcome State Fault Refusal :=
  .next ((s.lateColumns part prog).foldl (fun t k => t.kill k.id) s)

end Sys2Proof.Machine
end

