-- ==== Sys2Proof/Machine/Report.lean ====
section
/-!
DEFINITION. The module's identity (R342, R349), and usage reports with their chain (R344, R346, R347).
-/

namespace Sys2Proof.Machine

/-- A little-endian field of a block. -/
def fieldOf (bs : List Byte) (off n : Nat) : Nat := numberOf ((bs.drop off).take n)

/-- A list cut or filled with zeros to `n` bytes. -/
def padded (n : Nat) (bs : List Byte) : List Byte := (List.range n).map fun i => (bs[i]?).getD 0

/-- Characters as bytes. -/
def ascii (t : String) : List Byte := t.toList.map fun c => BitVec.ofNat 8 c.toNat

/-- The module's signature of a message with its identity key, 64 bytes. -/
def signature (message : List Byte) : List Byte := ed25519Sign Config.identitySeed message

/-- R349: the digest of the module's identity, 64 bytes: SHA-512 of its public key (DEDUCED; log 12). -/
def identityDigest : List Byte := sha512 (ed25519Public Config.identitySeed)

/-- R349 step 2: the wrapping key of a secret between a source and a destination. -/
def migrationKey (secret : Nat) (source destination : List Byte) : List Nat :=
  (hkdf32 (source ++ destination) (bytesOf 32 secret) (ascii "N4-MIGRATE")).map (·.toNat)

/-- R344: the report chain of a partition. -/
def State.chain? (s : State) (part : Nat) : Option Chain := s.fw.chains.find? (·.part == part)

/-- R346: a report's bytes before its signature. -/
def State.reportBody (s : State) (p : Partition) (k : Chain) : List Byte :=
  bytesOf 4 0x4E345552 ++ bytesOf 1 p.pnum ++ bytesOf 1 p.world ++ bytesOf 2 0 ++ bytesOf 8 k.seq ++ bytesOf 8 k.tfrom ++
  bytesOf 8 s.now ++ padded 64 k.prev ++ bytesOf 4 k.wresets ++ List.replicate 28 0 ++
  (List.range 512).flatMap fun i => bytesOf 8 (s.usage p.pnum (i / 8) (i % 8))

/-- R346, R347: a report made at this instant; the chain goes on from it. -/
def State.makeReport (s : State) (p : Partition) : List Byte × State :=
  let k := (s.chain? p.pnum).getD { part := p.pnum, seq := 0, tfrom := 0, prev := List.replicate 64 0, wresets := 0 }
  let body := s.reportBody p k
  let report := body ++ signature (sha512 body)
  (report, { s with fw := { s.fw with
      chains := upsert (·.part == p.pnum) { k with seq := k.seq + 1, tfrom := s.now, prev := sha512 report } s.fw.chains } })

/-- R344: a chain and counters that begin with a partition's convergence; retained ones go on. -/
def State.startChain (s : State) (part : Nat) : State :=
  if (s.chain? part).isSome then s
  else
    { s with fw := { s.fw with
        usage := s.fw.usage.filter (·.part != part)
        chains := s.fw.chains ++ [{ part, seq := 0, tfrom := s.now, prev := List.replicate 64 0, wresets := 0 }] } }

/-- R344: counters and chain end with the PARTITION record. -/
def State.endChain (s : State) (part : Nat) : State :=
  { s with fw := { s.fw with
      usage := s.fw.usage.filter (·.part != part)
      chains := s.fw.chains.filter (·.part != part) } }

end Sys2Proof.Machine
end

