-- ==== Sys2Proof/Machine/Wake.lean ====
section
/-!
DEFINITION. The end of waits (R26, R183, R186 to R188, R198, R216, R228, R231, R237): a descheduled convoy continues where it
stopped.
-/

namespace Sys2Proof.Machine

/-- The context in which a descheduled convoy's instruction goes on: its group and active lanes as they were, the wait over. -/
def State.wakeCtx (s : State) (col cv : Nat) : Option (Ctx × WaitRec) := do
  let c ← s.column? col
  let v ← c.cvs[cv]?
  let w ← v.wait
  let r ← s.route? c.part c.prog
  if c.phase ≠ .running || c.killed then none
  else some ({ cur := ⟨col, cv, false, none, none⟩, c, v := { v with wait := none }, r, h := hdr, group := w.group, act := w.active, und := [],
               pc := w.pc, now := s.wall, pops := [] }, w)
where
  /-- The guards were judged at issue. -/
  hdr : Hdr := { g1 := ⟨false, 7⟩, g2 := ⟨false, 7⟩, hint := .default, ce := false, live := 0 }

/-- What the rest of a waiting instruction leaves: its group moves, waits again, or faults. -/
def Ctx.resumeWith (x : Ctx) (e : Effect) : State :=
  match e with
  | .next t | .last t => t.moveGroup x [] false
  | .jump t taken => (t.moveGroup x taken true).settle
  | .stall t => t
  | .wait t kind deadline => t.onConvoy x.cur.col x.cur.cv fun v => v.deschedule x kind deadline
  | .fault t F b => t.signal x.cur.col x.cur.cv x.pc F b.code b.addr b.access

/-- R187, R188: a barrier or address wait that returns with a predicate value. -/
def Ctx.waitReturns (x : Ctx) (s : State) (dst : Option (BitVec 3)) (b : Bool) : State :=
  (s.onConvoy x.cur.col x.cur.cv fun v =>
    v.returned x.group x.act x.pc dst b (s.targetOk x.core x.c.part x.c.prog)).checkEnd x.cur.col x.cur.cv

/-- R216: the overlays awaited at a resumption: loads started again where an overlay is absent; once all are resident the convoy
takes up what it waited for before. -/
def Ctx.awaitOverlays (x : Ctx) (s : State) (handles : List Nat) (err : Option (BitVec 16)) : State :=
  let fatal (t : State) (code : BitVec 16) : State := (t.report x.c x.v.quad code (BitVec.setWidth 64 x.pc) engineImage 0).kill x.cur.col
  match err with
  | some code => fatal s code
  | none =>
    let st (t : State) (h : Nat) : ResSt := (t.res x.core x.c.part x.c.prog h).st
    if handles.all fun h => st s h == .resident then
      (s.onConvoy x.cur.col x.cur.cv fun v => { v with wait := v.after, after := none }).settle.notice
    else match handles.find? fun h => st s h == .absent with
      | none => s
      | some h => match x.r.dirEntry h with
        | none => fatal s cAbsent
        | some d => match s.load x.core x.c.part x.c.prog h d with
          | (_, .noBay) => fatal s cNoBay
          | (t, _) => t

/-- CONVOY_WAKE (R26): a convoy whose condition holds goes on; one whose condition does not hold waits. -/
def execConvoyWake (col cv : Nat) (s : State) : Host.Outcome State Fault Refusal :=
  match s.wakeCtx col cv with
  | none => .next s
  | some (x, w) =>
    let t := s.put x x.v
    match w.kind with
    | .barrier _ _ dst | .waita _ _ _ dst => if w.met then .next (x.waitReturns s dst true) else .next s
    | .qrd q a => match s.qrdTakes x.c.part q x.act.length false with
      | none => .next s
      | some (o, ms) => .next (x.resumeWith (x.qrdTake t a q o ms false))
    | .callo h target => match w.err, x.r.dirEntry h with
      | some code, _ => .next (x.resumeWith (x.fail t code x.pc.toNat engineImage))
      | none, none => .next (x.resumeWith (x.fail t cAbsent x.pc.toNat))
      | none, some d => .next (x.resumeWith (x.callInto t h d target))
    | .resume hs => .next (x.awaitOverlays s hs w.err)
    | .trapEntry codes addr page => match w.err with
      | some k => .next ((s.report x.c x.v.quad k (BitVec.setWidth 64 x.pc) engineImage 0).kill col)
      | none =>
        if s.paging.any fun q => q.part == x.c.part && some (q.ctx, q.page) == page then .next s
        else .next (t.startTrap col cv codes addr)
    | .waitc l a c n => if x.v.loads ≤ l ∧ x.v.stores ≤ a ∧ x.v.copies ≤ c ∧ x.v.tileOps ≤ n then .next (x.resumeWith (.next t)) else .next s
    | .append emit target srcs space => match s.appendTarget x.c.part emit target.toNat with
      | none => .next (x.resumeWith (x.fail t cQueue 0))
      | some q => if q.hasRoom srcs.length && !x.appendHeld t q space srcs then .next (x.resumeWith (.next (x.appendAll t q space srcs))) else .next s
    | .sign n work => if t.roundFull x n work.isSome then .next s else match t.sign x n work with
      | .signed u =>
        .next (x.resumeWith (.next (if work.isSome then u else u.onConvoy col cv Convoy.discard)))
      | .differs => .next (x.resumeWith (x.fail t cOperand x.pc.toNat))
      | .again => .next s
    | .nap | .fwcall .. | .replay .. => .next s

/-- WAIT_BOUND_EXPIRY (R187, R188): the bound passes while the condition has not held; a barrier loses a waiter. -/
def execWaitBoundExpiry (col cv : Nat) (s : State) : Host.Outcome State Fault Refusal :=
  match s.wakeCtx col cv with
  | none => .next s
  | some (x, w) =>
    if w.met || !(w.deadline.any fun d => d ≤ s.now) then .next s
    else match w.kind with
      | .barrier off _ dst =>
        let o := s.barrier x off
        .next (x.waitReturns (s.setBarrier x off { o with waiters := o.waiters - 1 }) dst false)
      | .waita _ _ _ dst => .next (x.waitReturns s dst false)
      | _ => .next s

/-- NAP_EXPIRY (R183). -/
def execNapExpiry (col cv : Nat) (s : State) : Host.Outcome State Fault Refusal :=
  match s.wakeCtx col cv with
  | none => .next s
  | some (x, w) =>
    if w.kind == .nap && w.deadline.any fun d => d ≤ s.now then .next (x.resumeWith (.next (s.put x x.v))) else .next s

/-- R237: the FWCALL of a partition that is answered next. -/
def State.firstCall (s : State) (part : Nat) : Option (Nat × Nat × Nat) := s.calls.find? (·.1 == part)

/-- R237: the status of a call that needs no service: 0 of service 0, all ones of an unknown one; it waits its turn. -/
def State.plainStatus (s : State) (part col cv svc : Nat) : Option Word :=
  if s.firstCall part != some (part, col, cv) then none
  else if svc = 0 then some 0
  else if svc > 3 then some 0xFFFFFFFF
  else none

/-- R237: a call answered leaves the partition's queue. -/
def State.dropCall (s : State) (part col cv : Nat) : State := { s with calls := s.calls.erase (part, col, cv) }

/-- R237: the answer of a call; it leaves the queue, and the convoy takes the status up when it runs. -/
def State.answerCall (s : State) (part col cv status : Nat) : State :=
  (s.dropCall part col cv).onConvoy col cv fun v => { v with wait := v.wait.map fun w => match w.kind with
    | .fwcall n b a _ => { w with kind := .fwcall n b a (some (BitVec.ofNat 32 status)) }
    | _ => w }

/-- R237: a call of a convoy whose column does not run, answered where it needs no service. -/
def State.answerAway (s : State) (col cv : Nat) : State :=
  match s.column? col, (s.convoy? col cv).bind (·.wait) with
  | some c, some w => match w.kind with
    | .fwcall svc _ _ none => match s.plainStatus c.part col cv svc with
      | some k => s.answerCall c.part col cv k.toNat
      | none => s
    | _ => s
  | _, _ => s

/-- FWCALL_ANSWER (R237): the status is written to A; in a column that does not run it is kept until it does. -/
def execFwcallAnswer (col cv : Nat) (s : State) : Host.Outcome State Fault Refusal :=
  match s.wakeCtx col cv with
  | none => .next (s.answerAway col cv)
  | some (x, w) =>
    match w.kind with
    | .fwcall svc _ a answer =>
      match answer <|> s.plainStatus x.c.part col cv svc with
      | none => .next s
      | some status =>
        let v := match a with
          | .s n => x.v.setSreg n.toNat status
          | _ => x.v
        .next (x.resumeWith (.next ((s.dropCall x.c.part col cv).put x v)))
    | _ => .next s

/-- REPLAY (R324): a replay was posted for the convoy's page, and it issues the instruction again from its first check. The group's
program counters still stand at it. -/
def execReplay (col cv : Nat) (s : State) : Host.Outcome State Fault Refusal :=
  match s.wakeCtx col cv with
  | none => .next s
  | some (x, w) =>
    match w.kind with
    | .replay ctx page =>
      if s.paging.any fun q => q.part == x.c.part && q.ctx == ctx && q.page == page then .next s else .next (s.put x x.v)
    | _ => .next s

/-- CHECKSUM_FAULT_DELIVERY (R199, R231): a fault that waits for the convoy's clause boundary; F is every live lane. -/
def execChecksumFaultDelivery (col cv : Nat) (s : State) : Host.Outcome State Fault Refusal :=
  match s.column? col, s.convoy? col cv with
  | some c, some v =>
    let running := (s.holds.any fun h => h.col == col && h.cv == cv) || s.raised.any (·.col == col)
    match v.boundary, v.frontier with
    | (code, addr) :: rest, some pc =>
      if running || c.killed || c.phase != .running || v.ended then .next s
      else
        let t := s.onConvoy col cv fun v => { v with boundary := rest, tileOps := v.tileOps - 1 }
        .next (t.signal col cv pc v.live code addr 0)
    | _, _ => .next s
  | _, _ => .next s

end Sys2Proof.Machine
end

