-- ==== Sys2Proof/Machine/Services.lean ====
section
/-!
DEFINITION. The firmware services of FWCALL (R307, R237), mailboxes (R358) and the requests that a function's firmware serves:
tasks, allow-lists (R345), reports (R347), slices (R310), publisher keys (R350) and the black box (R334).
-/

namespace Sys2Proof.Machine

/-! ## Services (R307) -/

/-- R307: a converged task-mode PROGRAM of the partition. -/
def State.taskRoute (s : State) (part prog : Nat) : Bool := (s.route? part prog).any fun r => r.taskMode && !r.stopped

/-- TASK_ARM on a block of 24 bytes: the state and the status. -/
def State.armTask (s : State) (part : Nat) (b : List Byte) : State × Nat :=
  let task := fieldOf b 0 2
  let prog := fieldOf b 4 4
  let count := fieldOf b 8 2
  if b.length < 24 ∨ task ≥ 4096 ∨ fieldOf b 2 2 ≠ 0 ∨ count = 0 ∨ fieldOf b 10 6 ≠ 0 ∨ !s.taskRoute part prog then (s, 1)
  else if (s.task? part task).isSome then (s, 2)
  else ({ s with obj := { s.obj with
      tasks := s.obj.tasks ++ [{ part, task, prog, counter := count, arg := BitVec.ofNat 64 (fieldOf b 16 8), since := s.now }] } }, 0)

/-- TASK_SIGNAL on a block of 8 bytes. -/
def State.signalTask (s : State) (part : Nat) (b : List Byte) : State × Nat :=
  let task := fieldOf b 0 2
  if b.length < 8 ∨ task ≥ 4096 ∨ fieldOf b 2 6 ≠ 0 then (s, 1)
  else match s.task? part task with
    | none => (s, 3)
    | some t => if t.counter = 0 then (s, 4) else (s.taskDecrement part task, 0)

/-- R307, R308: LEVEL of an account; that of account 0 without a record is a free value (log 17). -/
def State.levelOf (s : State) (part acct : Nat) : Option (Nat × State) :=
  match s.account? part acct with
  | some a => some ((a.level % 2 ^ 64).toNat, s)
  | none => if acct = 0 then some (s.free.1 % 2 ^ 64, s.free.2) else none

/-! ## FWCALL (R237) -/

/-- The first call of a partition, when it asks for a service: its column, convoy, context and block. -/
def State.callFor (s : State) (part svc : Nat) : Option (Column × Nat × Route × Option DWord) := do
  let k ← s.firstCall part
  let c ← s.column? k.2.1
  let v ← c.cvs[k.2.2]?
  let w ← v.wait
  let r ← s.route? c.part c.prog
  match w.kind with
  | .fwcall n block _ none => if n = svc then some (c, k.2.2, r, block) else none
  | _ => none

/-- R237: calls of convoys that are gone are answered by no one. -/
def State.dropDead (s : State) : State :=
  { s with calls := s.calls.filter fun k => match s.convoy? k.2.1 k.2.2 with
    | some v => match v.wait with
      | some { kind := .fwcall .., .. } => true
      | _ => false
    | none => false }

/-- R237: a range supplied as the paging service would, with a permission. -/
def State.blockReady (s : State) (r : Route) (block : Option DWord) (off n : Nat) (perm : Perm) : Option State :=
  block.bind fun b => match s.supply 0 r.part r.ctx perm (pagesIn' (b.toNat + off) n) with
    | .ok t => some t
    | .error _ => none
where
  /-- The pages of a range, each by the first byte of the range in it. -/
  pagesIn' (a n : Nat) : List Nat := (List.range ((a + n + 4095) / 4096 - a / 4096)).map fun k => if k = 0 then a else (a / 4096 + k) * 4096

/-- R237: the block of a call, read through its route's context. -/
def State.readBlock (s : State) (r : Route) (block : Option DWord) (n : Nat) : Option (List Byte × State) :=
  (s.blockReady r block 0 n .read).map fun t => (t.frameBytes 0 r ((block.map (·.toNat)).getD 0) n, t)

/-- A service that reads a block and gives a status. -/
def State.serveCall (s : State) (part svc n : Nat) (run : State → List Byte → State × Nat) : State :=
  let s := s.dropDead
  match s.callFor part svc with
  | none => s
  | some (k, cv, r, block) => match s.readBlock r block n with
    | none => s.answerCall part k.id cv 1
    | some (bs, t) => let u := run t bs; u.1.answerCall part k.id cv u.2

/-- TASK_ARM (R307): the partition's first call, when it asks for service 0x0001. -/
def execTaskArm (part : Nat) (s : State) : Host.Outcome State Fault Refusal := .next (s.serveCall part 1 24 fun t b => t.armTask part b)

/-- TASK_SIGNAL (R307). -/
def execTaskSignal (part : Nat) (s : State) : Host.Outcome State Fault Refusal := .next (s.serveCall part 2 8 fun t b => t.signalTask part b)

/-- R307: ACCT_READ writes LEVEL into bytes 8 to 15 of its block. -/
def State.readAcct (s : State) (part : Nat) (r : Route) (block : Option DWord) (b : List Byte) : State × Nat :=
  if fieldOf b 0 1 ≥ 64 ∨ fieldOf b 1 7 ≠ 0 then (s, 1)
  else match s.levelOf part (fieldOf b 0 1) with
    | none => (s, 1)
    | some (level, t) => match t.blockReady r block 8 8 .write with
      | none => (s, 1)
      | some u => ((u.ringBytes 0 r.part r.ctx ((block.map (·.toNat)).getD 0 + 8) (bytesOf 8 level)).1, 0)

/-- ACCT_READ (R307); status 1 has no other effect (R237). -/
def execAcctRead (part : Nat) (s : State) : Host.Outcome State Fault Refusal :=
  let s := s.dropDead
  match s.callFor part 3 with
  | none => .next s
  | some (k, cv, r, block) => match s.readBlock r block 8 with
    | none => .next (s.answerCall part k.id cv 1)
    | some (bs, t) => match t.readAcct part r block bs with
      | (_, 1) => .next (s.answerCall part k.id cv 1)
      | (u, n) => .next (u.answerCall part k.id cv n)

/-! ## Mailboxes (R358) -/

/-- The mailbox of a function; an idle one before any use. -/
def State.box (s : State) (fn : Nat) : Mailbox :=
  (s.fw.boxes.find? (·.fn == fn)).getD { fn, ovr := false, done := false, busy := false, area := [], req := [], resp := [], stamp := 0 }

/-- A mailbox replaced. -/
def State.setBox (s : State) (b : Mailbox) : State := { s with fw := { s.fw with boxes := upsert (·.fn == b.fn) b s.fw.boxes } }

/-- CODE of the request being served. -/
def Mailbox.code (b : Mailbox) : Nat := fieldOf b.req 0 2

/-- LEN of the request. -/
def Mailbox.len (b : Mailbox) : Nat := fieldOf b.req 2 2

/-- The payload of the request. -/
def Mailbox.payload (b : Mailbox) : List Byte := (b.req.drop 8).take b.len

/-- R358: the request being served by a function's firmware: a partition's function core while it has a partition, the root core or
the ROM for the physical function. -/
def State.request? (s : State) (fn : Nat) : Option Mailbox :=
  let b := s.box fn
  if b.busy && (fn == 0 || s.fnUp fn) then some b else none

/-- R358: the answer: the response, BUSY clear and DONE set, and MSI-X vector 0. -/
def State.respond (s : State) (fn status : Nat) (payload : List Byte) : State :=
  let b := s.box fn
  (s.setBox { b with
    busy := false, done := true
    resp := bytesOf 4 status ++ (b.req.drop 4).take 4 ++ bytesOf 2 payload.length ++ bytesOf 6 0 ++ payload }).sendMsix fn 0

/-- R358: the codes and who may send them: virtual functions, the physical function. -/
def codeUses : List (Nat × Bool × Bool) :=
  [(0x0001, true, false), (0x0002, true, false), (0x0010, true, false), (0x0011, true, true), (0x0020, true, false), (0x0021, true, false),
   (0x0022, true, false), (0x0100, false, true), (0x0101, false, true), (0x0102, false, true), (0x0103, false, true), (0x0104, false, true)]

/-- R358: a code that a function may send. -/
def codeFor? (fn code : Nat) : Bool := (codeUses.lookup code).any fun u => if fn = 0 then u.2 else u.1

/-- R358: a request of a code served: its payload must hold `n` bytes, and outside ROM service where it needs the firmware. -/
def State.serveBox (s : State) (fn code n : Nat) (run : State → List Byte → State) : State :=
  match s.request? fn with
  | none => s
  | some b =>
    if b.code ≠ code ∨ !codeFor? fn code then s
    else if b.len > 2032 ∨ b.len < n then s.respond fn 1 []
    else run s b.payload

/-- R363: a request that needs the root core is not allowed in the ROM. -/
def State.needsRoot (s : State) (run : State → State) : State := if s.fw.svc == .rom then s.respond 0 2 [] else run s

/-- MAILBOX_TASK_ARM (R307, R358). -/
def execMailboxTaskArm (part : Nat) (s : State) : Host.Outcome State Fault Refusal :=
  .next (s.serveBox (part + 1) 1 0 fun t b => let u := t.armTask part b; u.1.respond (part + 1) 0 (bytesOf 4 u.2))

/-- MAILBOX_TASK_SIGNAL (R307, R358). -/
def execMailboxTaskSignal (part : Nat) (s : State) : Host.Outcome State Fault Refusal :=
  .next (s.serveBox (part + 1) 2 0 fun t b => let u := t.signalTask part b; u.1.respond (part + 1) 0 (bytesOf 4 u.2))

/-- ALLOW_SET (R345, R358). -/
def execAllowSet (part : Nat) (s : State) : Host.Outcome State Fault Refusal :=
  .next (s.serveBox (part + 1) 0x10 64 fun t b =>
    { t with fw := { t.fw with allow := upsert (·.1 == part) (part, BitVec.ofNat 512 (fieldOf b 0 64)) t.fw.allow } }.respond (part + 1) 0 [])

/-- MAILBOX_UNKNOWN_CODE (R358): a code of no request; or one of a request that the function may not send, with STATUS 3. -/
def execMailboxUnknownCode (fn : Nat) (s : State) : Host.Outcome State Fault Refusal :=
  match s.request? fn with
  | none => .next s
  | some b =>
    if codeFor? fn b.code then .next s
    else .next (s.respond fn (if (codeUses.lookup b.code).isSome then 3 else 0xFFFFFFFF) [])

/-! ## Host buffers -/

/-- Bytes written to host memory by firmware. -/
def State.hostWrite (s : State) (addr : Nat) (bs : List Byte) : State := (s.poke none (.host false) addr bs).1

/-- R347: the partition whose report a function's request names. -/
def reportOf (fn : Nat) (payload : List Byte) : Nat := if fn = 0 then fieldOf payload 0 1 else fn - 1

/-- R347: an earlier request for a report of a partition waits still. -/
def State.reportAhead (s : State) (part stamp : Nat) : Bool :=
  s.fw.boxes.any fun b => b.busy && b.code == 0x11 && reportOf b.fn b.payload == part && decide (b.stamp < stamp) && (s.request? b.fn).isSome

/-- REPORT (R346, R347): made at one instant and written to the host buffer; none follows the report of the deletion (R344). -/
def execReport (fn : Nat) (s : State) : Host.Outcome State Fault Refusal :=
  .next (s.serveBox fn 0x11 16 fun t b =>
    let part := reportOf fn b
    let run (t : State) : State :=
      match t.part? part with
      | none => t.respond fn 1 []
      | some p =>
        if t.partLeaving (part + 1) then t.respond fn 2 []
        else if t.reportAhead part (t.box fn).stamp then t
        else let r := t.makeReport p; (r.2.hostWrite (fieldOf b 8 8) r.1).respond fn 0 []
    if fn = 0 then t.needsRoot run else run t)

/-- R334: the 32 bytes of an event. -/
def BbEvent.bytes (e : BbEvent) : List Byte :=
  bytesOf 8 e.wall ++ bytesOf 4 e.seq ++ bytesOf 2 e.event ++ bytesOf 1 e.part ++ bytesOf 1 e.unit_ ++ bytesOf 8 e.addr ++ bytesOf 8 e.detail

/-- R334: the ring of 8,192 events, event SEQ in place SEQ mod 8,192; places never written are 0. -/
def State.bboxBytes (s : State) : List Byte :=
  (List.range 8192).flatMap fun i => match s.fw.bbox.find? fun e => e.seq % 8192 == i with
    | some e => e.bytes
    | none => List.replicate 32 0

/-- BBOX_READ (R334, R358). -/
def execBboxRead (s : State) : Host.Outcome State Fault Refusal :=
  .next (s.serveBox 0 0x104 8 fun t b => t.needsRoot fun t =>
    (t.hostWrite (fieldOf b 0 8) (t.bboxBytes ++ signature (sha512 t.bboxBytes))).respond 0 0 [])

/-! ## Module configuration (R310, R341, R350) -/

/-- R341: a measurement register; zero at reset. -/
def State.measurement (s : State) (n : Nat) : List Byte := (s.fw.meas.lookup n).getD (List.replicate 64 0)

/-- R341: a measurement register extended. -/
def State.extend (s : State) (n : Nat) (d : List Byte) : State :=
  { s with fw := { s.fw with meas := upsert (·.1 == n) (n, sha512 (s.measurement n ++ d)) s.fw.meas } }

/-- R341 step 6: SLICE and the publisher key table as they are measured (log 18). -/
def State.configBytes (s : State) : List Byte :=
  bytesOf 8 s.fw.slice ++ (List.range 64).flatMap fun i => padded 32 ((s.fw.pubkeys.lookup i).getD [])

/-- R341 step 6: the configuration measured into register 3. -/
def State.measureConfig (s : State) : State := s.extend 3 (sha512 s.configBytes)

/-- SLICE_SET (R310, R341, R358). -/
def execSliceSet (s : State) : Host.Outcome State Fault Refusal :=
  .next (s.serveBox 0 0x102 4 fun t b => t.needsRoot fun t =>
    let n := fieldOf b 0 8
    if n < 1000 ∨ n > 100000000 then t.respond 0 1 []
    else { t with fw := { t.fw with slice := n } }.measureConfig.respond 0 0 [])

/-- PUBKEY_SET (R341, R350, R358). -/
def execPubkeySet (s : State) : Host.Outcome State Fault Refusal :=
  .next (s.serveBox 0 0x103 33 fun t b => t.needsRoot fun t =>
    let n := fieldOf b 0 1
    if n ≥ 64 then t.respond 0 1 []
    else { t with fw := { t.fw with pubkeys := upsert (·.1 == n) (n, (b.drop 1).take 32) t.fw.pubkeys } }.measureConfig.respond 0 0 [])

end Sys2Proof.Machine
end

