-- ==== Sys2Proof/Machine/Attest.lean ====
section
/-!
DEFINITION. The root core as an SPDM 1.2 responder (R342, R343). Codes, layouts and transcripts are those of the published standard
(PRESUMED; log 16).
-/

namespace Sys2Proof.Machine

/-- SPDM request codes as published: GET_VERSION, GET_CAPABILITIES, NEGOTIATE_ALGORITHMS, GET_CERTIFICATE, CHALLENGE,
GET_MEASUREMENTS (log 16). -/
def spdmCodes : List Nat := [0x84, 0xE1, 0xE3, 0x82, 0x83, 0xE0]

/-- The request code of a message. -/
def spdmCode (req : List Byte) : Nat := fieldOf req 1 1

/-- An ERROR response with its error code. -/
def spdmError (code : Nat) : List Byte := bytesOf 1 0x12 ++ bytesOf 1 0x7F ++ bytesOf 1 code ++ bytesOf 1 0

/-- R343: a request code is accepted in a state. -/
def SpdmSt.accepts (st : SpdmSt) (code : Nat) : Bool :=
  code == 0x84 || (st == .versioned && code == 0xE1) || (st == .capable && code == 0xE3) ||
  (st == .negotiated && [0x82, 0x83, 0xE0].contains code)

/-- R343: the state after an accepted request. -/
def SpdmSt.after (st : SpdmSt) (code : Nat) : SpdmSt :=
  if code = 0x84 then .versioned else if code = 0xE1 then .capable else if code = 0xE3 then .negotiated else st

/-- R342: index n + 1 reports register n, and 0xFF all eight; other indices report nothing. -/
def measured (index : Nat) : List Nat :=
  if index = 0xFF then List.range 8 else if 1 ≤ index ∧ index ≤ 8 then [index - 1] else []

/-- R342: register n as a DMTF measurement block. -/
def State.measurementBlock (s : State) (n : Nat) : List Byte :=
  bytesOf 1 (n + 1) ++ bytesOf 1 1 ++ bytesOf 2 67 ++ bytesOf 1 1 ++ bytesOf 2 64 ++ s.measurement n

/-! ## Answers (R342) -/

/-- R342: slot 0's chain: its length, the root's hash, and the certificates. -/
def certChain : List Byte :=
  let bs := padded 64 Config.rootHash ++ Config.certificates
  bytesOf 2 (bs.length + 4) ++ bytesOf 2 0 ++ bs

/-- A response without its signature: its bytes, and what is signed with it where it is. -/
structure SpdmAnswer where
  body : List Byte
  context : Option String
  deriving DecidableEq, Repr

/-- The head of a response. -/
def spdmHead (code p1 p2 : Nat) : List Byte := bytesOf 1 0x12 ++ bytesOf 1 code ++ bytesOf 1 p1 ++ bytesOf 1 p2

/-- R342: ALGORITHMS: the DMTF measurement block, SHA-512, and Ed25519, where the request offers them. -/
def spdmAlgorithms (req : List Byte) : List Byte :=
  spdmHead 0x63 0 0 ++ bytesOf 2 36 ++ bytesOf 1 1 ++ bytesOf 1 0 ++ bytesOf 4 8 ++ bytesOf 4 (fieldOf req 8 4 &&& 2 ^ 10) ++
  bytesOf 4 (fieldOf req 12 4 &&& 4) ++ List.replicate 16 0

/-- R342: CERTIFICATE: a portion of slot 0's chain. -/
def spdmCertificate (req : List Byte) : List Byte :=
  let off := fieldOf req 4 2
  let n := min (fieldOf req 6 2) (certChain.length - off)
  spdmHead 0x02 0 0 ++ bytesOf 2 n ++ bytesOf 2 (certChain.length - off - n) ++ (certChain.drop off).take n

/-- R342: CHALLENGE_AUTH: the digests of the chain and, where the request asks for it, of the measurements. -/
def State.spdmChallenge (s : State) (req : List Byte) (nonce : Nat) : List Byte :=
  spdmHead 0x03 0 1 ++ sha512 certChain ++ bytesOf 32 nonce ++
  (if fieldOf req 3 1 = 0 then [] else sha512 ((measured 0xFF).flatMap s.measurementBlock)) ++ bytesOf 2 0

/-- R342: MEASUREMENTS: how many there are, or the blocks that the request names. -/
def State.spdmMeasurements (s : State) (req : List Byte) (nonce : Nat) : List Byte :=
  let op := fieldOf req 3 1
  let blocks := (measured op).flatMap s.measurementBlock
  spdmHead 0x60 (if op = 0 then 8 else 0) 0 ++ bytesOf 1 (measured op).length ++ bytesOf 3 blocks.length ++ blocks ++ bytesOf 32 nonce ++
  bytesOf 2 0

/-- R342: a request names what the responder has: slot 0, bytes of its chain, a measurement. -/
def spdmNames (req : List Byte) : Bool :=
  match spdmCode req with
  | 0x82 => fieldOf req 2 1 % 16 == 0 && decide (fieldOf req 4 2 < certChain.length)
  | 0x83 => fieldOf req 2 1 == 0
  | 0xE0 => fieldOf req 3 1 == 0 || !(measured (fieldOf req 3 1)).isEmpty
  | _ => true

/-- R342: the answer to a request; `nonce` is the responder's. -/
def State.spdmAnswer (s : State) (req : List Byte) (nonce : Nat) : SpdmAnswer :=
  match spdmCode req with
  | 0x84 => ⟨[0x10, 0x04, 0, 0, 0, 1, 0x00, 0x12], none⟩
  | 0xE1 => ⟨spdmHead 0x61 0 0 ++ bytesOf 1 0 ++ bytesOf 1 Config.spdmSizes.1 ++ bytesOf 2 0 ++ bytesOf 4 0x16 ++
      bytesOf 4 Config.spdmSizes.2.1 ++ bytesOf 4 Config.spdmSizes.2.2, none⟩
  | 0xE3 => ⟨spdmAlgorithms req, none⟩
  | 0x82 => ⟨spdmCertificate req, none⟩
  | 0x83 => ⟨s.spdmChallenge req nonce, some "responder-challenge_auth signing"⟩
  | _ => ⟨s.spdmMeasurements req nonce, if (fieldOf req 2 1).testBit 0 then some "responder-measurements signing" else none⟩

/-! ## Transcripts and signatures (R342) -/

/-- What SPDM 1.2 signs of a transcript: four times the version, the context, and the transcript's hash. -/
def spdmSigned (context : String) (r : ShaRun) : List Byte :=
  let c := ascii context
  (List.replicate 4 (ascii "dmtf-spdm-v1.2.*")).flatten ++ List.replicate (36 - c.length) 0 ++ c ++ r.digest

/-- R342: the transcripts with an exchange, and the one that a signature is over. A signature begins its transcript anew. -/
def Transcripts.exchange (t : Transcripts) (code : Nat) (signs : Bool) (bs : List Byte) : Transcripts × ShaRun :=
  match code with
  | 0x82 => ({ t with m1 := t.m1.add bs }, t.m1)
  | 0x83 => ({ t with m1 := t.vca }, t.m1.add bs)
  | 0xE0 => ({ t with l1 := if signs then t.vca else t.l1.add bs }, t.l1.add bs)
  | _ => let v := t.vca.add bs; (⟨v, v, v⟩, v)

/-- R342, R343: an accepted request: the answer, the next state, and the exchange entered in its transcript. -/
def State.spdmAccept (s : State) (req : List Byte) : State :=
  let code := spdmCode req
  if !spdmNames req then { s with reply := spdmError 1 }
  else
    let old := if code = 0x84 then Transcripts.empty else s.fw.transcripts
    let a := s.spdmAnswer req (s.free.1 % 2 ^ 256)
    let r := old.exchange code a.context.isSome (req ++ a.body)
    { s.free.2 with
      reply := a.body ++ (a.context.map fun c => signature (spdmSigned c r.2)).getD []
      fw := { s.fw with spdm := s.fw.spdm.after code, transcripts := r.1 } }

/-- R343: an out-of-order request: the error, no transcript, INITIAL, and ATTEST_SEQUENCE in the physical function's fault queue. -/
def State.spdmRefuse (s : State) : State :=
  { s with reply := spdmError 4, fw := { s.fw with spdm := .initial, transcripts := Transcripts.empty } }.fnFault 0
    { code := cAttest, access := 0, service := 0, addr := 0, route := 0xFFFF, quad := 0xFFFF, colid := 0xFFFFFFFF }

/-- R342, R343: a request of a supported code; the responder is the root core. -/
def State.spdmRequest (s : State) (code : Nat) (req : List Byte) : State :=
  if s.fw.svc == .rom || spdmCode req != code then s
  else if s.fw.spdm.accepts code then s.spdmAccept req
  else s.spdmRefuse

/-- GET_VERSION (R343). -/
def execGetVersion (req : List Byte) (s : State) : Host.Outcome State Fault Refusal := .next (s.spdmRequest 0x84 req)

/-- GET_CAPABILITIES (R343). -/
def execGetCapabilities (req : List Byte) (s : State) : Host.Outcome State Fault Refusal := .next (s.spdmRequest 0xE1 req)

/-- NEGOTIATE_ALGORITHMS (R342, R343). -/
def execNegotiateAlgorithms (req : List Byte) (s : State) : Host.Outcome State Fault Refusal := .next (s.spdmRequest 0xE3 req)

/-- GET_CERTIFICATE (R342, R343). -/
def execGetCertificate (req : List Byte) (s : State) : Host.Outcome State Fault Refusal := .next (s.spdmRequest 0x82 req)

/-- CHALLENGE (R342, R343). -/
def execChallenge (req : List Byte) (s : State) : Host.Outcome State Fault Refusal := .next (s.spdmRequest 0x83 req)

/-- GET_MEASUREMENTS (R342, R343). -/
def execGetMeasurements (req : List Byte) (s : State) : Host.Outcome State Fault Refusal := .next (s.spdmRequest 0xE0 req)

/-- SPDM_UNSUPPORTED_REQUEST (R342): GET_DIGESTS and every other code; neither the state nor a transcript changes. -/
def execSpdmUnsupportedRequest (req : List Byte) (s : State) : Host.Outcome State Fault Refusal :=
  if s.fw.svc == .rom || spdmCodes.contains (spdmCode req) then .next s else .next { s with reply := spdmError 7 }

/-- ATTEST_SEQUENCE (R343): a supported request out of its order. -/
def execAttestSequence (req : List Byte) (s : State) : Host.Outcome State Fault Refusal :=
  if s.fw.svc == .rom || !spdmCodes.contains (spdmCode req) || s.fw.spdm.accepts (spdmCode req) then .next s else .next s.spdmRefuse

end Sys2Proof.Machine
end

