-- ==== Sys2Proof/Machine/Boot.lean ====
section
/-!
DEFINITION. The firmware carve-out and the start of the root core (R339 to R341), service levels (R363 to R365), and resets.
-/

namespace Sys2Proof.Machine

/-! ## The carve-out (R340) -/

/-- R340: the base of the carve-out. -/
def State.carveBase (s : State) : Nat := bitsOf s.fw.carve.toNat 26 26 * 2 ^ 26

/-- R340: its size. -/
def State.carveSize (s : State) : Nat := 2 ^ 26 * (bitsOf s.fw.carve.toNat 1 3 + 1)

/-- R340: LOCK. -/
def State.carveLocked (s : State) : Bool := s.fw.carve.getLsbD 0

/-- FW_WRITE (R341 step 2, R358). -/
def execFwWrite (s : State) : Host.Outcome State Fault Refusal :=
  .next (s.serveBox 0 0x100 8 fun t b =>
    let off := fieldOf b 0 8
    let data := b.drop 8
    if t.fw.svc != .rom || t.carveLocked then t.respond 0 2 []
    else if data.length > 2016 ∨ off + data.length > t.carveSize then t.respond 0 1 []
    else (t.devWrite none (t.carveBase + off) data).1.respond 0 0 [])

/-! ## The start of the root core (R341) -/

/-- R339: the header of the image in place. -/
def State.imageHeader (s : State) : List Byte := Memory.bytes s.store.dev s.carveBase 256

/-- R341 step 3, R357: BOOTERR for the image in place. -/
def State.bootCheck (s : State) : Nat :=
  let h := s.imageHeader
  let isize := fieldOf h 8 8
  let digest := (h.drop 0x40).take 64
  if fieldOf h 0 4 ≠ 0x4E344657 then 1
  else if fieldOf h 0x19 39 ≠ 0 ∨ fieldOf h 0xC0 64 ≠ 0 then 2
  else if fieldOf h 4 4 < Config.svnMin then 3
  else if isize % 4096 ≠ 0 ∨ isize + 256 > s.carveSize then 4
  else if sha512 (h.take 0x40 ++ Memory.bytes s.store.dev (s.carveBase + 256) isize) ≠ digest then 5
  else if fieldOf h 0x18 1 > 3 ∨ !ed25519Verify (Config.fusedKey (fieldOf h 0x18 1)) digest ((h.drop 0x80).take 64) then 6
  else 0

/-- R341 step 1: the ROM measured, once after a reset. -/
def State.measureRom (s : State) : State := if (s.fw.meas.lookup 0).isSome then s else s.extend 0 (bytesOf 64 Config.romDigest)

/-- R341 steps 4 to 6, R363: the measurements, LOCK, the root core started at ENTRY, and reduced service. -/
def State.startRoot (s : State) : State :=
  let h := s.imageHeader
  let t := (s.extend 1 ((h.drop 0x40).take 64)).extend 2 (sha512 h)
  let fw := { t.fw with carve := t.fw.carve ||| 1, booterr := 0, svc := .reduced, rootEntry := some (s.carveBase + fieldOf h 0x10 8) }
  ({ t with fw }.blackBox 0x0A 0xFF 7 0 0).measureConfig

/-- R341: the ROM runs steps 1 and 3 to 5 on the image in place. -/
def State.boot (s : State) : State :=
  let t := s.measureRom
  let e := t.bootCheck
  if e = 0 then t.startRoot else { t with fw := { t.fw with booterr := e } }

/-- FW_START (R341, R358); the request is done whatever BOOTERR says (log 18). -/
def execFwStart (s : State) : Host.Outcome State Fault Refusal :=
  .next (s.serveBox 0 0x101 0 fun t _ => if t.fw.svc != .rom then t.respond 0 2 [] else t.boot.respond 0 0 [])

/-! ## Service levels (R363, R365) -/

/-- A channel's training state. -/
def State.channel (s : State) (n : Nat) : Channel := (s.fw.channels.find? (·.n == n)).getD { n, tries := 0, trained := false }

/-- CHANNEL_TRAINING (R365): an attempt ends; a channel that fails is retried three times, and then its CHFAIL bit is set. -/
def execChannelTraining (channel : Nat) (ok : Bool) (s : State) : Host.Outcome State Fault Refusal :=
  let k := s.channel channel
  if s.fw.svc != .reduced || decide (32 ≤ channel) || k.trained || decide (4 ≤ k.tries) then .next s
  else
    let k := { k with tries := k.tries + 1, trained := ok }
    .next { s with fw := { s.fw with
      channels := upsert (·.n == channel) k s.fw.channels
      chfail := if !ok && k.tries == 4 then s.fw.chfail ||| BitVec.ofNat 32 (2 ^ channel) else s.fw.chfail } }

/-- R365: every channel is trained. -/
def State.allTrained (s : State) : Bool := (List.range 32).all fun n => (s.channel n).trained

/-- FULL_SERVICE_SWITCH (R365): at a clause boundary of every convoy; no value, lease or identifier changes. -/
def execFullServiceSwitch (s : State) : Host.Outcome State Fault Refusal :=
  if s.fw.svc != .reduced || !s.allTrained || !s.holds.isEmpty then .next s
  else
    let t := { s with fw := { s.fw with svc := .full } }
    .next ((t.obj.parts.foldl (fun t p => t.deviceMilestone (p.pnum + 1) mFull) t).blackBox 0x0A 0xFF 7 0 1)

/-! ## Resets -/

/-- COLD_RESET (R363): everything as State.reset has it; host and peer memory are not the module's. -/
def execColdReset (s : State) : Host.Outcome State Fault Refusal :=
  .next { State.reset with
    agenda := s.agenda, fresh := s.fresh, nextId := s.nextId
    store := { Store.reset with host := s.store.host, peer := s.store.peer } }

/-- R286: the PF's DSR in the root core's SRAM. -/
def inPfDsr (a : Nat) : Bool := decide (0x1800000 ≤ a) && decide (a < 0x1810000)

/-- R286, R365: what a warm reset keeps of memory: GDDR7 but for the actual-state tables, the physical function's DSR, and the memories
of others. -/
def State.keptStore (s : State) : Store :=
  { Store.reset with
    dev := s.store.dev.filter fun k => !s.inAst k.1
    pf := s.store.pf.filter fun k => inPfDsr k.1
    fwmem := s.store.fwmem
    host := s.store.host
    peer := s.store.peer }

/-- R334, R340, R341, R344, R349: what a warm reset keeps of the firmware's state. -/
def State.keptFirmware (s : State) : Firmware :=
  { Firmware.reset with
    carve := s.fw.carve
    links := s.fw.links
    bbox := s.fw.bbox
    bbSeq := s.fw.bbSeq
    usage := s.fw.usage
    chains := s.fw.chains.map fun k => { k with wresets := k.wresets + 1 }
    migs := s.fw.migs
    worldKeys := s.fw.worldKeys
    refilled := s.fw.refilled }

/-- The pages whose leaves and tables stand in device memory through a warm reset (log 19); backings of weight sets are read again. -/
def State.keptPages (s : State) : List Page :=
  s.obj.pages.filter fun g => !g.gone && !(s.obj.wsets.any fun w => w.part == g.part && w.slot == g.slot)

/-- R336, R365: the context keys are gone from the key slots; what the protected pages hold is ciphertext (log 19). -/
def State.sealAll (s : State) : State := (s.obj.ctxs.filter fun k => k.key.isSome).foldl (fun t k => t.setKey k.part k.slot none) s

/-- WARM_RESET (R286, R334, R340, R341, R344, R365): the ROM runs again, on the image in place. -/
def execWarmReset (cause : Nat) (s : State) : Host.Outcome State Fault Refusal :=
  let t : State := { State.reset with
    wall := s.wall, agenda := s.agenda, fresh := s.fresh, nextId := s.nextId
    store := s.sealAll.keptStore
    coh := { State.reset.coh with
      poison := s.coh.poison.filter fun p => match p with
        | .sector _ => true
        | _ => false
      flips := s.coh.flips }
    obj := { State.reset.obj with pages := s.keptPages, granules := s.obj.granules }
    fw := s.keptFirmware }
  let u := t.blackBox 9 0xFF 7 0 cause
  .next u.boot

end Sys2Proof.Machine
end

