-- ==== Sys2Proof/Machine/Memory.lean ====
section
/-!
DEFINITION. Loads, stores, prefetch, queue-port bindings and atomics at issue (R163 to R173, R189, R250): the access is translated
and probed, and its operation left pending; the device steps perform it.
-/

namespace Sys2Proof.Machine

/-! ## Loads -/

/-- The lanes a load reads for: every active lane, or the lowest for a uniform destination (R165). -/
def Ctx.loadLanes (x : Ctx) (a : Operand) : List Nat :=
  match a with
  | .s _ => x.act.take 1
  | _ => x.act

/-- R67: what a load to a write port touches: in each lane what it reads, then the element that it pushes. -/
def Ctx.loadParts (x : Ctx) (space : Space) (q : Nat) (lanes : List Nat) (ws : List Want) : List (Space × Perm × Want) :=
  lanes.flatMap fun l => (ws.filter (·.lane == l)).map (fun w => (space, .read, w)) ++
    match x.v.port? q with
    | none => []
    | some p => ((p.pushes x.act).filter (·.1 == l)).flatMap fun le => (p.pushWants le).map fun w => (.global, .write, w)

/-- R67: the first failure of a load to a write port. -/
def Ctx.loadBad (x : Ctx) (t : State) (space : Space) (a : Operand) (lanes : List Nat) (ws : List Want) : Option Bad :=
  match a with
  | .q n => t.firstBad x (x.loadParts space n.toNat lanes ws)
  | _ => none

/-- A load posted: its pieces read, its destination awaited; a write port takes its elements now and their values at the return. -/
def Ctx.startLoad (x : Ctx) (t : State) (space : Space) (hint : Hint) (conv : LoadConv) (a : Operand) (lanes : List Nat)
    (ws : List Want) : Effect :=
  match t.resolve x space .read anyLoc ws with
  | .error b => .fault t x.group ((x.loadBad t space a lanes ws).getD b)
  | .ok (ps, u) =>
    if lanes.isEmpty then .next u
    else
      let v := { x.v with loads := x.v.loads + 1 }
      let w := (u.put x v).addOp x (.load conv a) hint lanes (groupPieces false ps) (lanes.map fun l => (l, 0)) []
      match a with
      | .q n => match w.push { x with v } n.toNat none (some u.nextId) with
        | .error b => .fault t x.group ((x.loadBad t space a lanes ws).getD b)
        | .ok (w', v') => .next (w'.put x v')
      | _ => .next w

/-- Bytes of SIZE and sign of a load (R165). -/
def MForm.loadConv (f : MForm) : LoadConv := .plain f.size.bytes (f.ty != .none)

/-! ## Loads in a bounds pass (R189, R250) -/

/-- The exact address interval of a lane (R56); an operand that is WIDE or ill-formed counts as the whole range of its type (R244). -/
def Ctx.eaRange (x : Ctx) (f : MForm) (l : Nat) : Int × Int :=
  let rb := (x.read l f.b 2).rng (.int 64 false)
  let rc := (x.read l f.c).rng (.int 32 true)
  let k : Int := 2 ^ f.scale.val
  (rb.lo + rc.lo * k + f.off.toInt, rb.hi + rc.hi * k + f.off.toInt)

/-- The load form matches a summary's type. -/
def summaryMatches (f : MForm) (ldx : Bool) (ts : Fmt) : Bool :=
  if ldx then f.ty == ts
  else match f.size, f.ty with
    | .b4, .none => ts ∈ [Fmt.i32, .n32, .f32]
    | .b1, .i8 => ts == .i8
    | .b2, .i16 => ts == .i16
    | .b1, .none => ts == .n8
    | .b2, .none => ts == .n16
    | _, _ => false

/-- The most recent attachment that supplies an address interval: its type, and the addresses of the table entries. -/
def Ctx.summaryFor (x : Ctx) (f : MForm) (ldx : Bool) (g : Int × Int) : Option (Fmt × List Int) :=
  (x.v.atts.reverse.find? fun a =>
    let e : Int := a.ty.width / 8
    let base : Int := a.base.toNat
    summaryMatches f ldx a.ty && decide (base ≤ g.1) && decide (g.2 + e - 1 < base + a.n.toNat * e) &&
    decide ((g.1 - base) % e = 0)).map fun a =>
    let e : Int := a.ty.width / 8
    let base : Int := a.base.toNat
    let first := ((g.1 - base) / (64 * e)).toNat
    let last := ((g.2 - base) / (64 * e)).toNat
    (a.ty, (List.range (last + 1 - first)).map fun k => (a.table.toNat : Int) + 8 * (first + k : Nat))

/-- The whole range of a format as f32 (R250). -/
def formatRange (t : Fmt) : IVal :=
  match t.int? with
  | some (n, sg) => { lo := (rneF32 (.ofInt (intMin n sg))).toNat, hi := (rneF32 (.ofInt (intMax n sg))).toNat, wide := false, mn := false }
  | none =>
    match t.fparam? with
    | some p =>
      if t == .f32 || t == .f16 || t == .bf16 || t == .f8e5 then { lo := f32Inf true, hi := f32Inf false, wide := false, mn := true }
      else
        let m := (rneF32 (readValue t (maxFinite p))).toNat
        { lo := m + 2 ^ 31, hi := m, wide := false, mn := true }
    | none => wideF

/-- The whole range a load yields where no attachment matches (R250). -/
def loadRange (f : MForm) (ldx : Bool) : IVal :=
  if ldx then formatRange f.ty
  else match f.size, f.ty with
    | .b1, .none => { lo := 0, hi := 255, wide := false, mn := false }
    | .b2, .none => { lo := 0, hi := 65535, wide := false, mn := false }
    | .b1, _ => { lo := wrapTo 32 (-128), hi := 127, wide := false, mn := false }
    | .b2, _ => { lo := wrapTo 32 (-32768), hi := 32767, wide := false, mn := false }
    | _, _ => { wideBits (32 * f.size.regs) with mn := false }
where
  wideBits (n : Nat) : IVal := { lo := 0, hi := 2 ^ n - 1, wide := true, mn := false }

/-- The result kind of a bounds load: f32 for LDX, the extended integers for the forms with a TYPE, else a bit pattern (R248). -/
def loadKind (f : MForm) (ldx : Bool) : ResKind :=
  if ldx then .typed .flt else if f.ty == .none then .bits (f.size == .b8) false else .typed (.int 32 true)

/-- A lane register result that a bounds load knows at issue, register by register but for the pair of a 64-bit load (R244). -/
def Ctx.writeKnown (x : Ctx) (v : Convoy) (ls : List Nat) (o : Operand) (k : Nat) (kind : ResKind) (r : IVal) : Convoy :=
  match o with
  | .v n => v.onLanes ls fun i l =>
      let put (l : Lane) (n k : Nat) (r : IVal) : Lane :=
        l.setValue true n k (if x.act.contains i then r else kind.merge (l.value true n k) r)
      if k = 1 ∨ kind = .bits true false then put l n.toNat k r
      else (List.range k).foldl (fun l j => put l (n.toNat + j) 1 { r with lo := 0, hi := 2 ^ 32 - 1 }) l
  | _ => v

/-- A uniform register that a bounds load cannot give a point keeps its value, and every active lane's tile ends (R250). -/
def Ctx.loadUniform (x : Ctx) (t : State) : State := t.tileEnds x (x.act ++ x.und) .quarter

/-- A load in a bounds pass whose value is the whole range (LDS, LDB), or comes from summaries (LD, LDX). -/
def Ctx.boundsLoad (x : Ctx) (t : State) (f : MForm) (ldx : Bool) (k : Nat) (kind : ResKind) (known : Option IVal) : Effect :=
  let all := x.group.filter fun i => x.act.contains i || x.und.contains i
  let ls := match f.a with
    | .s _ => x.act.take 1
    | _ => all
  let src (l : Nat) : Option (Fmt × List Int) :=
    if known.isSome then none else x.summaryFor f ldx (x.eaRange f l)
  let fed := ls.filter fun l => (src l).isSome
  let plain := ls.filter fun l => (src l).isNone
  let ws := fed.flatMap fun l => match src l with
    | some (_, as_) => as_.zipIdx.flatMap fun ak => wants l ak.1 8 (8 * ak.2)
    | none => []
  match t.resolve x .global .read anyLoc ws with
  | .error b => .fault t x.group b
  | .ok (ps, u) =>
    let r := known.getD (loadRange f ldx)
    match f.a with
    | .s _ =>
      if !plain.isEmpty && !r.isPoint then .next (x.loadUniform u)
      else .next (x.settleUnd (feed u x ps fed))
    | _ =>
      let w := if plain.isEmpty then u
        else (u.logRegs x.cur.col x.cur.cv (operandRegs true f.a k)).put x (x.writeKnown x.v plain f.a k kind r)
      .next (feed w x ps fed)
where
  /-- The summary entries read as a pending load; `aux` holds by lane 1 where its guards are undecided, 2 for a uniform destination
  (all its active lanes), and the number of entries. -/
  feed (u : State) (x : Ctx) (ps : List Piece) (fed : List Nat) : State :=
    if fed.isEmpty then u
    else
      let ty (l : Nat) : Fmt := ((x.summaryFor f ldx (x.eaRange f l)).map (·.1)).getD .i32
      let entries (l : Nat) : Nat := ((ps.filter (·.lane == l)).map (·.n)).sum / 8
      let marks := match f.a with
        | .s _ => x.act.map fun l => (l, 2, entries l)
        | _ => fed.map fun l => (l, if x.und.contains l then 1 else 0, entries l)
      (u.addOp x (.load (.summary (fed.map fun l => (l, ty l)) ldx) f.a) f.h.hint fed (groupPieces false ps) (fed.map fun l => (l, 0))
        marks).onConvoy x.cur.col x.cur.cv fun v => { v with loads := v.loads + 1 }

/-- LD (R165, R250). -/
def execLd (f : MForm) (s : State) : Host.Outcome State Fault Refusal :=
  issue (.ld f) f.h (fun x t =>
    if x.bounds then x.boundsLoad t f false f.size.regs (loadKind f false) none
    else
      let ls := x.loadLanes f.a
      x.startLoad t .global f.h.hint (MForm.loadConv f) f.a ls (ls.flatMap fun l => wants l (x.ea f l) f.size.bytes)) s

/-- The value of LDS and LDB in a bounds pass (R250). -/
def wideMn (k : Nat) : IVal := { lo := 0, hi := 2 ^ (32 * k) - 1, wide := true, mn := true }

/-- LDS (R165, R250). -/
def execLds (f : MForm) (s : State) : Host.Outcome State Fault Refusal :=
  issue (.lds f) f.h (fun x t =>
    if x.bounds then x.boundsLoad t f false f.size.regs (loadKind f false) (some (wideMn f.size.regs))
    else
      let ls := x.loadLanes f.a
      x.startLoad t .scratch f.h.hint (MForm.loadConv f) f.a ls (ls.flatMap fun l => wants l (x.ea f l) f.size.bytes)) s

/-- LDX (R166, R250). -/
def execLdx (f : MForm) (s : State) : Host.Outcome State Fault Refusal :=
  issue (.ldx f) f.h (fun x t =>
    if x.bounds then x.boundsLoad t f true 1 (loadKind f true) (if f.space == .scratch then some (formatRange f.ty) else none)
    else
      let ls := x.loadLanes f.a
      x.startLoad t f.space f.h.hint (.widen f.ty) f.a ls (ls.flatMap fun l => wants l (x.ea f l) f.size.bytes)) s

/-- The parts of a packed block (R68, R167): its element bytes, then its scale byte. -/
def Ctx.blockWants (x : Ctx) (f : MForm) (q : FSlot) (l : Nat) : List Want :=
  let n := signedOf 32 (x.read l f.c).lo
  let bb := blockBytes q
  let ea : Int := ((x.read l f.b 2).lo : Int) + n * bb + f.off.toInt
  let elems := if ea < 0 then [⟨l, ea, bb, 0⟩]
    else (cutLines (bb + 1) ea.toNat bb).map fun p => ⟨l, p.1, p.2, p.1 - ea.toNat⟩
  let scale := (x.v.wideSreg (bitsOf f.ent.toNat 3 6) 2 : Int) + n
  elems ++ if q.e8 then wants l scale 1 (4 * ((bb + 3) / 4)) else []

/-- LDB (R167). -/
def execLdb (f : MForm) (s : State) : Host.Outcome State Fault Refusal :=
  issue (.ldb f) f.h (fun x t =>
    match x.fslot (slotOf f.ent.toNat) ldbFmts with
    | none => x.fail t cSlot x.pc.toNat
    | some q =>
      if x.bounds then x.boundsLoad t f false (blockRegs q) (.bits false false) (some (wideMn (blockRegs q)))
      else x.startLoad t .global f.h.hint (.block (blockBytes q) q.e8) f.a x.act (x.act.flatMap (x.blockWants f q))) s

/-! ## Lines brought into L1 (R61, R78, R81) -/

/-- The partition and context of a column, which tag what its accesses bring into L1 (R335). -/
def State.tagOf (s : State) (col : Nat) : Nat × Nat :=
  match s.column? col with
  | some c => (c.part, ((s.route? c.part c.prog).map (·.ctx)).getD 0)
  | none => (0xFF, 0)

/-- The L1 copy that serves a load of a column: its own (R335), its lease not ended, and not older than the convoy's first issue here (R61,
R79). -/
def State.l1Hit (s : State) (col quad line : Nat) (notBefore : Nat) : Option L1Line :=
  s.coh.l1.find? fun c => c.quad == quad && c.line == line && (c.part, c.ctx) == s.tagOf col && decide (s.now < c.leaseEnd) &&
    decide (notBefore ≤ c.filled)

/-- R2: the lines that one quadrant's L1 of 128 KiB holds. -/
def l1Lines : Nat := 2048

/-- R108: the copies of a quadrant's L1, newest first, with room for one more: a full L1 drops its oldest copy, one fetched under `.keep` last
(DESIGN CHOICE; log 70). -/
def makeSpace (quad : Nat) (copies : List L1Line) : List L1Line :=
  let mine := copies.filter (·.quad == quad)
  if mine.length < l1Lines then copies
  else match (mine.reverse.find? (!·.keep)) <|> mine.getLast? with
    | some c => copies.erase c
    | none => copies

/-- R78, R81, R108: a line fetched from its home slice: the lease, where the directory grants one, and the copy with the line's kept completion
time, unless the hint allocates none in L1. -/
def State.fetchLine (s : State) (col quad line lease : Nat) (hint : Hint) : State :=
  match s.grant line (.l1 quad) (s.now + lease) with
  | none => s
  | some t =>
    if hint = .stream ∨ hint = .home then t
    else
      let others := t.coh.l1.filter fun c => !(c.quad == quad && c.line == line) && decide (s.now < c.leaseEnd)
      { t with coh := { t.coh with
          l1 := { quad, line, part := (s.tagOf col).1, ctx := (s.tagOf col).2, data := Memory.bytes t.store.dev (64 * line) 64,
                  leaseEnd := s.now + lease, kept := s.keptTime line, filled := s.now, keep := hint == .keep
                  poisoned := s.coh.poison.contains (.sector line) } :: makeSpace quad others } }

/-- PF (R168): the lines of the active lanes that L1 has not, where they translate to device memory; any other address is ignored. -/
def execPf (f : MForm) (s : State) : Host.Outcome State Fault Refusal :=
  issue (.pf f) f.h (fun x0 t =>
    let x := x0.asTrue
    if x.bounds then .next t
    else .next (x.act.foldl (fun u l =>
      let ea := x.ea f l
      if ea < 0 then u
      else match u.translate x.via x.c.part x.r.ctx (some x.c.epoch) ea.toNat .read with
        | .ok (⟨.dev, pa⟩, w) =>
          if (w.l1Hit x.cur.col x.v.quad (lineOf pa) (x.v.firstIssue.getD w.now)).isSome then w
          else
            let line := lineOf pa
            ((w.checkBytes x.c.part .dev (64 * line) 64).fetchLine x.cur.col x.v.quad line (x.lease f.h.hint) f.h.hint).onConvoy
              x.cur.col x.cur.cv (·.count 4 1)
        | _ => u) t)) s

/-! ## Stores -/

/-- A store posted (R165): the bytes of each active lane. -/
def Ctx.startStore (x : Ctx) (t : State) (f : MForm) (val : Nat → Nat) : Effect :=
  let n := f.size.bytes
  match t.resolve x f.space .write anyLoc (x.act.flatMap fun l => wants l (x.ea f l) n) with
  | .error b => .fault t x.group b
  | .ok (ps, u) =>
    if x.act.isEmpty then .next u
    else
      .next ((u.addOp x .store f.h.hint x.act (dropOverwritten (groupPieces true ps))
        (x.act.map fun l => (l, val l % 2 ^ (8 * n))) []).put x (x.v.stored 1 ps))

/-- ST (R165). -/
def execSt (f : MForm) (s : State) : Host.Outcome State Fault Refusal :=
  issue (.st f) f.h (fun x t => x.startStore t f fun l => (x.read l f.a f.size.regs).lo) s

/-- STS (R165). -/
def execSts (f : MForm) (s : State) : Host.Outcome State Fault Refusal :=
  issue (.sts f) f.h (fun x t => x.startStore t f fun l => (x.read l f.a f.size.regs).lo) s

/-- The element STX stores (R166): RND in ENT 2:0 and SAT in ENT 3. -/
def narrowCode (f : MForm) (x : Nat) : Nat :=
  encodeValue f.ty (((rndCodes[bitsOf f.ent.toNat 0 3]?)).getD .rne) (f.ent.getLsbD 3) (readValue .f32 x)

/-- STX (R166). -/
def execStx (f : MForm) (s : State) : Host.Outcome State Fault Refusal :=
  issue (.stx f) f.h (fun x t => x.startStore t f fun l => narrowCode f (x.read l f.a).lo) s

/-! ## Queue-port bindings (R73, R76, R169) -/

/-- A port bound: position 0, nothing buffered. -/
def Ctx.bind (x : Ctx) (t : State) (f : MForm) : Effect :=
  match f.a with
  | .q n =>
    if x.act.isEmpty then .next t
    else .next (t.put x (x.v.setPort n.toNat
      { base := BitVec.ofNat 64 (x.uni f.b 2), count := BitVec.ofNat 32 (x.uni f.c), stride := f.off, ty := f.ty,
        hint := f.h.hint, pos := 0, buf := [] }))
  | _ => .next t

/-- Elements that the convoy pushed wait for the store engine. -/
def State.pushesPending (s : State) (x : Ctx) : Bool :=
  s.ops.any fun o => o.col == x.cur.col && o.cv == x.cur.cv && !o.pieces.isEmpty && o.kind.isPush

/-- LDQ (R169). -/
def execLdq (f : MForm) (s : State) : Host.Outcome State Fault Refusal := issue (.ldq f) f.h (fun x t => x.bind t f) s

/-- STQ (R169): what was pushed is first performed under the old binding (R76). -/
def execStq (f : MForm) (s : State) : Host.Outcome State Fault Refusal :=
  issue (.stq f) f.h (fun x t =>
    if !x.act.isEmpty && t.pushesPending x then .stall t else x.bind t f) s

/-! ## Atomics (R170 to R173) -/

/-- R170: the new value of each kind, numbered from ATADD; `n` bits. -/
def atomicNew (k : Nat) (t : Fmt) (n : Nat) (old a b : Nat) : Nat :=
  let sg := t.isSigned
  let less (x y : Nat) : Bool := decide (readInt n sg x < readInt n sg y)
  match k with
  | 0 => (old + a) % 2 ^ n
  | 1 => roundTo .f32 .rne false ((readValue .f32 old).add .rne (readValue .f32 a))
  | 2 => if less a old then a else old
  | 3 => if less old a then a else old
  | 4 => old &&& a
  | 5 => old ||| a
  | 6 => old ^^^ a
  | 7 => a
  | 8 => if old = a then b else old
  | _ => if old ≥ a then 0 else old + 1

/-- R173: the kinds that PCI Express has: FetchAdd, Swap, CAS. -/
def hostAtomicKind (k : Nat) : Bool := k == 0 || k == 7 || k == 8

/-- R171, R173, R359: what an atomic's entry checks on the backing of a lane's location; `enabled` is the virtual function's
AtomicOp Requester Enable. A kind without an AtomicOp whose scope is not `.sys` meets both faults on a host page: PROTECTION goes first
(DESIGN CHOICE; log 73). -/
def atomicDeny (k : Nat) (sys enabled : Bool) (l : Loc) : Option (BitVec 16) :=
  match l with
  | .dev | .spad => none
  | .host _ => if !sys then some cProtection else if enabled && hostAtomicKind k then none else some cHostAtomic
  | .peer _ => if sys then none else some cProtection

/-- The operation of an atomic on host memory that the issuing clause still waits for (R173). -/
def State.hostAtomic? (s : State) (x : Ctx) : Option Op :=
  s.ops.find? fun o => o.col == x.cur.col && o.cv == x.cur.cv && o.pc == x.pc && o.lease == 0 && match o.kind with
    | .atomic .. => true
    | _ => false

/-- An atomic at issue (R67, R170 to R173). Where a lane's location is host memory the clause waits until every lane is done. -/
def Ctx.startAtomic (x : Ctx) (t : State) (f : MForm) (k : Nat) : Effect :=
  match t.hostAtomic? x with
  | some o =>
    if o.pieces.isEmpty then .next { t with ops := t.ops.filter (·.id != o.id) }
    else .stall t
  | none =>
    let n := f.size.bytes
    match x.act.find? fun l => x.ea f l % n ≠ 0 with
    | some l => .fault t x.group ⟨cMisaligned, BitVec.ofInt 64 (x.ea f l), 4⟩
    | none =>
      match t.resolve x f.space .atomic (atomicDeny k (f.scope == .sys) (t.fw.atomicEn.contains x.c.part)) (x.act.map fun l => ⟨l, x.ea f l, n, 0⟩) with
      | .error b => .fault t x.group b
      | .ok (ps, u) =>
        if x.act.isEmpty then .next u
        else
          let regs := f.size.regs
          let dst : Option Operand := if f.ent.getLsbD 0 then none else some f.a
          let arg (l : Nat) : Nat × Nat :=
            let a := (x.read l f.a (if k = 8 then 2 * regs else regs)).lo
            if k = 8 then (a % 2 ^ (8 * n), a / 2 ^ (8 * n)) else (a, 0)
          let w := (u.addOp x (.atomic k f.ty n dst) f.h.hint x.act (ps.mapIdx fun i p => { p with grp := i })
              (x.act.map fun l => (l, 0)) (x.act.map fun l => (l, arg l))).put x { x.v with stores := x.v.stores + 1 }
          -- an atomic that the clause waits for is marked by the lease length 0
          if ps.any fun p => match p.loc with
              | .host _ => true
              | _ => false
          then .stall { w with ops := w.ops.map fun o => if o.id = u.nextId then { o with lease := 0 } else o }
          else .next w

/-- ATADD (R170). -/
def execAtadd (f : MForm) (s : State) : Host.Outcome State Fault Refusal := issue (.atadd f) f.h (fun x t => x.startAtomic t f 0) s

/-- ATADDF (R170). -/
def execAtaddf (f : MForm) (s : State) : Host.Outcome State Fault Refusal := issue (.ataddf f) f.h (fun x t => x.startAtomic t f 1) s

/-- ATMIN (R170). -/
def execAtmin (f : MForm) (s : State) : Host.Outcome State Fault Refusal := issue (.atmin f) f.h (fun x t => x.startAtomic t f 2) s

/-- ATMAX (R170). -/
def execAtmax (f : MForm) (s : State) : Host.Outcome State Fault Refusal := issue (.atmax f) f.h (fun x t => x.startAtomic t f 3) s

/-- ATAND (R170). -/
def execAtand (f : MForm) (s : State) : Host.Outcome State Fault Refusal := issue (.atand f) f.h (fun x t => x.startAtomic t f 4) s

/-- ATOR (R170). -/
def execAtor (f : MForm) (s : State) : Host.Outcome State Fault Refusal := issue (.ator f) f.h (fun x t => x.startAtomic t f 5) s

/-- ATXOR (R170). -/
def execAtxor (f : MForm) (s : State) : Host.Outcome State Fault Refusal := issue (.atxor f) f.h (fun x t => x.startAtomic t f 6) s

/-- ATXCH (R170). -/
def execAtxch (f : MForm) (s : State) : Host.Outcome State Fault Refusal := issue (.atxch f) f.h (fun x t => x.startAtomic t f 7) s

/-- ATCAS (R170). -/
def execAtcas (f : MForm) (s : State) : Host.Outcome State Fault Refusal := issue (.atcas f) f.h (fun x t => x.startAtomic t f 8) s

/-- ATINC (R170). -/
def execAtinc (f : MForm) (s : State) : Host.Outcome State Fault Refusal := issue (.atinc f) f.h (fun x t => x.startAtomic t f 9) s

end Sys2Proof.Machine
end

