-- ==== Sys2Proof/Machine/Complete.lean ====
section
/-!
DEFINITION. What the load and store engines do with pending operations: loads return, stores, atomics, pushes and merges arrive and
are acknowledged, elements are fetched ahead (R61, R64, R65, R74, R75, R77 to R85, R173, R203, R206, R250).
-/

namespace Sys2Proof.Machine

/-- A pending operation by its number. -/
def State.op? (s : State) (id : Nat) : Option Op := s.ops.find? (·.id == id)

/-- One pending operation changed. -/
def State.onOp (s : State) (id : Nat) (f : Op → Op) : State := { s with ops := updateWhere (·.id == id) f s.ops }

/-- A pending operation removed. -/
def State.dropOp (s : State) (id : Nat) : State := { s with ops := s.ops.filter (·.id != id) }

/-- The convoy of an operation changed. -/
def State.onIssuer (s : State) (o : Op) (f : Convoy → Convoy) : State := s.onConvoy o.col o.cv f

/-- A returned completion time taken up (R80, R81). -/
def State.takeTime (s : State) (o : Op) (t : Nat) : State := s.onIssuer o fun v => { v with ctdev := max v.ctdev t }

/-- The value of an operation in a lane. -/
def Op.val (o : Op) (lane : Nat) : Nat := (o.vals.lookup lane).getD 0

/-- The value of an operation in a lane replaced. -/
def Op.setVal (o : Op) (lane x : Nat) : Op := { o with vals := (o.vals.filter (·.1 != lane)) ++ [(lane, x)] }

/-! ## What a piece waits for -/

/-- R82: a host write of the convoy, sent before the operation, is still on its way; `strict` looks at HOSTORD 0 writes alone. -/
def State.hostWrites (s : State) (o : Op) (strict : Bool) : Bool :=
  s.ops.any fun q => q.kind == .posted && q.col == o.col && q.cv == o.cv && decide (q.seq < o.seq) &&
    q.pieces.any fun p => !strict || p.loc == .host false

/-- A posted write of host memory; atomics are AtomicOps (R82, R84). -/
def OpKind.posts : OpKind → Bool
  | .store | .push .. => true
  | _ => false

/-- R82, R360: an earlier request of the convoy that this one may not pass: a host write not yet sent, which posted writes may pass under
HOSTORD 1, or any access of the same peer. An element that a push has left in the store engine is no request yet (note 7 of R97). -/
def State.sendsBefore (s : State) (o : Op) (p : Piece) : Bool :=
  s.ops.any fun q => q.col == o.col && q.cv == o.cv && decide (q.seq < o.seq) &&
    q.pieces.any fun r => match p.loc with
      | .host _ => (q.kind == .store || (q.kind.isPush && o.kind.posts)) && (r.loc == .host false || (r.loc == .host true && !o.kind.posts))
      | .peer l => r.loc == .peer l
      | _ => false

/-- R66: an earlier piece of the same misaligned access has not been performed. -/
def Op.pieceBefore (o : Op) (p : Piece) : Bool := o.pieces.any (·.precedes p)

/-- R90, K4 of R97: a piece that a copy has claimed waits until the engine has written the line and released it. A load of another convoy
still hits a copy in L1 whose lease has not ended (R79). -/
def State.recalls (s : State) (o : Op) (p : Piece) (write : Bool) : Bool :=
  s.eng.jobs.any fun j => (j.pend.any (·.meets p)) &&
    !(!write && p.loc == .dev && o.hint != .home && !(match j.src with
        | .cv _ col cv => col == o.col && cv == o.cv
        | .ring _ => false) &&
      (s.l1Hit o.col o.quad (lineOf p.addr) (((s.convoy? o.col o.cv).bind (·.firstIssue)).getD s.now)).isSome)

/-- R360: an access of a peer needs its causeway up. -/
def State.pathUp (s : State) : Loc → Bool
  | .peer l => s.linkUp l
  | _ => true

/-- A piece of an ordinary access, or of an element pushed, may be performed now. -/
def State.mayPerform (s : State) (o : Op) (p : Piece) (write : Bool) : Bool :=
  !s.earlierPending o.col o.cv o.seq p && !s.tileTransfers o.col o.cv o.seq p write && !(write && s.earlierPush o.col o.cv o.seq p) &&
  !s.sendsBefore o p && !o.pieceBefore p && !s.recalls o p write && s.pathUp p.loc &&
  (!p.loc.isHost || write || !s.hostWrites o false) &&
  (!write || !((o.pieces.takeWhile (· != p)).any fun q => q.meets p))

/-! ## Loads -/

/-- R97: scratchpad bytes as a load reads them that is performed before the convoy's latest arrival, where nothing has written its object
since. -/
def State.beforeArrival (s : State) (o : Op) (p : Piece) : List Byte :=
  let old := ((s.convoy? o.col o.cv).map (·.arrived)).getD []
  let fresh := old.all fun b => Memory.read s.store.spad b.1 == b.2.2
  (List.range p.n).map fun k => match if fresh then old.lookup (p.addr + k) else none with
    | some b => b.1
    | none => Memory.read s.store.spad (p.addr + k)

/-- R85, R97: a load has read bytes of the object of the convoy's latest arrival as they are: no later one reads them as they were. -/
def Convoy.seesArrival (v : Convoy) (p : Piece) : Convoy :=
  if v.arrived.any fun b => decide (p.addr ≤ b.1) && decide (b.1 < p.addr + p.n) then { v with arrived := [] } else v

/-- R61, R79: the L1 copy that a piece of a load hits; none where its hint or the event passes L1 by. -/
def State.copyFor (s : State) (o : Op) (p : Piece) (evicted : Bool) : Option L1Line :=
  if evicted || o.hint == .home || p.loc != .dev then none
  else s.l1Hit o.col o.quad (lineOf p.addr) (((s.convoy? o.col o.cv).bind (·.firstIssue)).getD s.now)

/-- R330: a piece of a load reads poison: that of the copy it hits, or that of the place it lies in. -/
def State.readsPoison (s : State) (o : Op) (evicted : Bool) (p : Piece) : Bool :=
  match s.copyFor o p evicted with
  | some c => c.poisoned
  | none => s.poisoned p

/-- What one piece of a load reads: its bytes, the completion time returned with them (R81), and the state; `again` when the event has
asked the home slice for the line already. -/
def State.readPiece (s : State) (o : Op) (p : Piece) (evicted again : Bool) : List Byte × Nat × State :=
  match p.loc with
  | .dev =>
    let line := lineOf p.addr
    match s.copyFor o p evicted with
    | some c => ((c.data.drop (p.addr % 64)).take p.n, c.kept, s)
    | none =>
      (s.peekBytes .dev p.addr p.n, s.keptTime line,
        if again then s else (s.fetchLine o.col o.quad line o.lease o.hint).onIssuer o fun v => v.count 4 1)
  | .spad => if evicted then (s.beforeArrival o p, 0, s) else (s.peekBytes .spad p.addr p.n, 0, s.onIssuer o fun v => v.seesArrival p)
  | l => (s.peekBytes l p.addr p.n, 0, s)

/-- The bytes of a piece put into the value of its lane. -/
def Op.take (o : Op) (p : Piece) (bs : List Byte) (t : Nat) : Op :=
  { o.setVal p.lane (o.val p.lane + numberOf bs * 2 ^ (8 * p.off)) with comp := max o.comp t }

/-- R327, R329: what pieces of a column's access read is checked; a piece that hits a copy reads nothing else. -/
def State.checkPieces (s : State) (o : Op) (ps : List Piece) (evicted : Bool) : State :=
  let part := ((s.column? o.col).map (·.part)).getD 0xFF
  (ps.filter fun p => (s.copyFor o p evicted).isNone).foldl (fun t p => t.checkBytes part p.loc p.addr p.n) s

/-- R344: the bytes of pieces that cross the host link or a causeway. -/
def State.meterPieces (s : State) (o : Op) (ps : List Piece) : State := ps.foldl (fun t p => t.meterLoc o.col p.loc p.n) s

/-- R80, R82, R83: the acknowledgement point of a host or peer access of the convoy, which is now. -/
def State.ackNow (s : State) (o : Op) (l : Loc) : State :=
  if l.isSys then s.onIssuer o fun v => { v with ctsys := max v.ctsys s.now } else s

/-- Pieces of a load read in turn. -/
def State.readPieces (s : State) (id : Nat) (evicted : Bool) (ps : List Piece) : State :=
  ps.zipIdx.foldl (fun t pk => match t.op? id with
    | none => t
    | some o =>
      let p := pk.1
      let r := t.readPiece o p evicted ((ps.take pk.2).any fun q => q.loc == .dev && lineOf q.addr == lineOf p.addr)
      ((r.2.2.onOp id fun o => (o.take p r.1 r.2.1)).takeTime o r.2.1).ackNow o p.loc) s

/-- R165 to R167: the registers of a loaded value: their number and contents. -/
def LoadConv.value (c : LoadConv) (x : Nat) : Nat × Nat :=
  match c with
  | .plain n sg => ((n + 3) / 4, if sg then wrapTo 32 (signedOf (8 * n) x) else x)
  | .widen t => (1, (rneF32 (readValue t x)).toNat)
  | .block n sc => ((n + 3) / 4 + (if sc then 1 else 0), x)
  | .summary .. => (1, x)

/-- R250, R254: one entry of a summary table as an interval of the load's result. -/
def summaryEntry (t : Fmt) (ldx : Bool) (e : Nat) : IVal :=
  let lo := e % 2 ^ 32
  let hi := e / 2 ^ 32
  match t.int? with
  | some (n, sg) =>
    if readInt 32 sg lo > readInt 32 sg hi then
      if ldx then formatRange t else { lo := wrapTo 32 (intMin n sg), hi := wrapTo 32 (intMax n sg), wide := false, mn := false }
    else if ldx then
      { lo := (rneF32 (.ofInt (readInt 32 sg lo))).toNat, hi := (rneF32 (.ofInt (readInt 32 sg hi))).toNat, wide := false, mn := false }
    else { lo, hi, wide := false, mn := false }
  | none =>
    if isNan32 (BitVec.ofNat 32 lo) || isNan32 (BitVec.ofNat 32 hi) then { lo := f32Inf true, hi := f32Inf false, wide := false, mn := true }
    else if f32Key lo > f32Key hi then formatRange t
    else { lo, hi, wide := false, mn := false }

/-- The result type of a bounds load from summaries. -/
def summaryKind (t : Fmt) (ldx : Bool) : ResKind :=
  if ldx then .typed .flt
  else match t with
    | .i8 | .i16 => .typed (.int 32 true)
    | _ => .bits false false

/-- R250: the hull of `n` entries of a table. -/
def summaryHull (t : Fmt) (ldx : Bool) (x n : Nat) : IVal :=
  let o : Order := if ldx || t.int?.isNone then .flt else t.order
  let rs := (List.range n).map fun k => (summaryEntry t ldx (bitsOf x (64 * k) 64)).rng o
  match rs with
  | [] => .pt 0
  | r :: rs => (rs.foldl Rng.hull r).ival o

/-- Registers written in lanes, with the undo log (R331) and without poison. -/
def State.writeLanes (s : State) (o : Op) (dst : Operand) (k : Nat) (bounds : Bool) (f : Nat → Lane → Lane) : State :=
  let rs := operandRegs bounds dst k
  let t := (s.logRegs o.col o.cv rs).onIssuer o fun v => v.onLanes o.lanes f
  { t with coh := { t.coh with poison := t.coh.poison.filter (!·.inRegs o.col o.cv o.lanes rs) } }

/-- The context of an operation's convoy, for tile outcomes. -/
def State.opCtx (s : State) (o : Op) : Option Ctx := do
  let c ← s.column? o.col
  let v ← c.cvs[o.cv]?
  let r ← s.route? c.part c.prog
  pure { cur := ⟨o.col, o.cv, false, none, none⟩, c, v, r, h := State.wakeCtx.hdr, group := o.lanes, act := o.lanes, und := [], pc := o.pc,
         now := s.wall, pops := [] }

/-- R165, R250: every value of a load has arrived: the destination is written. -/
def State.finishLoad (s : State) (o : Op) (conv : LoadConv) (dst : Operand) : State :=
  match conv with
  | .summary tys ldx =>
    let ty (l : Nat) : Fmt := (tys.lookup l).getD .i32
    let hull (l : Nat) : IVal := summaryHull (ty l) ldx (o.val l) (((o.aux.lookup l).map (·.2)).getD 0)
    match dst with
    | .v n => s.writeLanes o dst 1 true fun l a =>
        let new := hull l
        a.setValue true n.toNat 1 (if ((o.aux.lookup l).map (·.1)) == some 1 then (summaryKind (ty l) ldx).merge (a.value true n.toNat 1) new else new)
    | .s n =>
      let r := hull (o.lanes.head?.getD 0)
      if r.isPoint then s.onIssuer o fun v => v.setWideSreg n.toNat 1 r.lo
      else match s.opCtx o with
        | some x => ((s.tileEnds x (o.aux.map (·.1)) .quarter).pruneHolds).checkEnd o.col o.cv
        | none => s
    | _ => s
  | _ =>
    match dst with
    | .v n => s.writeLanes o dst (conv.value 0).1 false fun l a => a.setWideReg n.toNat (conv.value 0).1 (conv.value (o.val l)).2
    | .s n => s.onIssuer o fun v => v.setWideSreg n.toNat (conv.value 0).1 (conv.value (o.val (o.lanes.head?.getD 0))).2
    | .q _ => { s with ops := s.ops.map fun q => match q.kind with
        | .push _ t (some n) => if n = o.id then { q with vals := q.lanes.map fun l => (l, pushCode t (conv.value (o.val l)).2) } else q
        | _ => q }
    | _ => s

/-- R360: a peer has answered: the causeway's latest acknowledgement is now. -/
def State.acked (s : State) (links : List Nat) : State :=
  if links.isEmpty then s
  else { s with fw := { s.fw with links := updateWhere (fun l => links.contains l.n) (fun l => { l with lastAck := s.now }) s.fw.links } }

/-- The causeways of pieces. -/
def peersOf (ps : List Piece) : List Nat :=
  ps.filterMap fun p => match p.loc with
    | .peer l => some l
    | _ => none

/-- LOAD_RETURN (R93): the event `grp` of a load is performed; with the last one the destination is written and the loads counter
falls. A piece that may not be performed yet waits. The zero-length read of FENCE.sys returns when no host write is on its way. -/
def execLoadReturn (op grp : Nat) (evicted : Bool) (s : State) : Host.Outcome State Fault Refusal :=
  match s.op? op with
  | none => .next s
  | some o =>
    match o.kind with
    | .zeroRead =>
      if s.hostWrites o false then .next s
      else .next ((s.dropOp op).onIssuer o fun v => { v with relaxedSent := false })
    | .load conv dst =>
      let ps := o.pieces.filter (·.grp == grp)
      if ps.isEmpty || !(ps.all fun p => s.mayPerform o p false) || (evicted && ps.any s.owned) then .next s
      else
        let s := ((s.checkPieces o ps evicted).meterPieces o ps).acked (peersOf ps)
        match ps.find? (s.readsPoison o evicted) with
        | some p =>
          let t := (s.dropOp op).onIssuer o fun v => { v with loads := v.loads - 1 }
          .next (t.consume o.col o.quad (BitVec.ofNat 64 p.va) 1)
        | none =>
          let t := (s.readPieces op evicted ps).onOp op fun o => { o with pieces := o.pieces.filter (·.grp != grp) }
          match t.op? op with
          | some o' =>
            if o'.pieces.isEmpty then
              .next ((((t.dropOp op).finishLoad o' conv dst).onIssuer o fun v => { v with loads := v.loads - 1 }).settle)
            else .next t
          | none => .next t
    | _ => .next s

/-- R194, R206: an earlier CBLD of the convoy for the same slot has not completed: the codebooks of a slot follow each other in issue
order. -/
def State.bookBefore (s : State) (o : Op) : Bool :=
  s.ops.any fun q => q.col == o.col && q.cv == o.cv && q.kind == o.kind && decide (q.seq < o.seq)

/-- CODEBOOK_READY (R206): the table is read at one instant and becomes the convoy's codebook for the slot. -/
def execCodebookReady (op : Nat) (s : State) : Host.Outcome State Fault Refusal :=
  match s.op? op with
  | none => .next s
  | some o =>
    match o.kind with
    | .codebook slot =>
      if !(o.pieces.all fun p => s.mayPerform o p false) || s.bookBefore o then .next s
      else
        let s := ((s.checkPieces o o.pieces false).meterPieces o o.pieces).acked (peersOf o.pieces)
        match o.pieces.find? (s.readsPoison o false) with
        | some p => .next (((s.dropOp op).onIssuer o fun v => { v with loads := v.loads - 1 }).consume o.col o.quad (BitVec.ofNat 64 p.va) 1)
        | none =>
          let t := s.readPieces op false o.pieces
          let x := ((t.op? op).map fun q => q.val 0).getD 0
          let last := !(s.ops.any fun q => q.id != op && q.col == o.col && q.cv == o.cv && q.kind == .codebook slot)
          let table := (List.range 16).map fun k => BitVec.ofNat 16 (bitsOf x (16 * k) 16)
          .next ((t.dropOp op).onIssuer o fun v =>
            { v with loads := v.loads - 1, books := (v.books.filter (·.1 != slot)) ++ [(slot, { table, ready := last })] })
    | _ => .next s

/-! ## Stores, atomics, merges -/

/-- R332: an access of the column has arrived at a home slice or a link. -/
def State.arrived (s : State) (o : Op) (l : Loc) : State := if l == .spad then s else s.forbidRollback o.col

/-- R360: what is kept of an access of a peer until its acknowledgement: the causeway, from 64 on, and the address. -/
def Piece.awaits (p : Piece) : List (Nat × Nat × Nat) :=
  match p.loc with
  | .peer l => [(64 + l, p.va, 0)]
  | _ => []

/-- Bytes of a store written where they belong; scratchpad writes enter the undo log and tell the waiting convoys. -/
def State.storeBytes (s : State) (o : Op) (p : Piece) (bs : List Byte) : State :=
  let s := if p.loc == .spad then s.logSpad o.col o.quad p.addr p.n else s
  let r := s.poke (some o.quad) p.loc p.addr bs
  let t := (r.1.onOp o.id fun o => { o with comp := if p.loc.isSys then o.comp else max o.comp r.2, aux := o.aux ++ p.awaits }).arrived o p.loc
  if p.loc == .spad then t.notice else t

/-- The bytes of a piece of a store. -/
def Op.bytes (o : Op) (p : Piece) : List Byte := bytesOf p.n (o.val p.lane / 2 ^ (8 * p.off))

/-- R63, R82: host writes of one event acknowledged as they enter the posted queue of the link together; they are performed at the host later,
as one. -/
def State.postHost (s : State) (o : Op) (ps : List Piece) : State :=
  ({ s with
    nextId := s.nextId + 1
    ops := s.ops ++ [{ o with id := s.nextId, kind := .posted, pieces := ps, aux := [], comp := 0 }] }.onOp o.id fun o =>
      { o with csys := max o.csys s.now }).forbidRollback o.col

/-- The bytes that pieces cover in a memory, as runs. -/
def coveredRuns (ps : List Piece) (l : Loc) : List (Nat × Nat) :=
  runs (((ps.filter (·.loc == l)).foldl (fun m p => Memory.writeBytes m p.addr (List.replicate p.n 1)) []).map (·.1))

/-- R62, R330: what pieces merged into one write cover together clears the poison there, as one write of those bytes does. -/
def State.mergeWrites (s : State) (o : Op) (ps : List Piece) : State :=
  if ps.length ≤ 1 then s
  else [Loc.dev, Loc.spad].foldl (fun t l => (coveredRuns ps l).foldl (fun t r => (t.poke (some o.quad) l r.1 (t.peekBytes l r.1 r.2)).1) t) s

/-- The pieces of a store's event performed or sent. -/
def State.storePieces (s : State) (o : Op) (ps : List Piece) : State :=
  let s := (s.checkPieces o ps true).meterPieces o ps
  let hosts := ps.filter (·.loc.isHost)
  let t := ((ps.filter (!·.loc.isHost)).foldl (fun t p => t.storeBytes o p (o.bytes p)) s).mergeWrites o ps
  if hosts.isEmpty then t else t.postHost o hosts

/-- R84, R170: one lane's atomic as one read-modify-write; the old value is returned to its register. -/
def State.atomicPiece (s : State) (o : Op) (k : Nat) (ty : Fmt) (dst : Option Operand) (p : Piece) : State :=
  let s := (s.checkPieces o [p] true).meterPieces o [p]
  let old := numberOf (s.peekBytes p.loc p.addr p.n)
  let ab := (o.aux.lookup p.lane).getD (0, 0)
  let new := atomicNew k ty (8 * p.n) old ab.1 ab.2
  let t := s.storeBytes o p (bytesOf p.n new)
  let t := t.onOp o.id fun q => { q with comp := max q.comp (if p.loc == .dev then s.keptTime (lineOf p.addr) else 0) }
  match dst with
  | some (.v n) => t.writeLanes { o with lanes := [p.lane] } (.v n) ((p.n + 3) / 4) false fun _ a => a.setWideReg n.toNat ((p.n + 3) / 4) old
  | some (.s n) => t.onIssuer o fun v => v.setWideSreg n.toNat ((p.n + 3) / 4) old
  | _ => t

/-- R203: the merges of a PLST into one 64-bit word: the bits of every event on it. They cover no byte whole, so the word keeps its stored
errors (R330). -/
def State.mergePieces (s : State) (o : Op) (ps : List Piece) : State :=
  match ps with
  | [] => s
  | p :: _ =>
    let old := numberOf (s.peekBytes .spad p.addr 8)
    let new := ps.foldl (fun x q =>
      let b := (o.aux.lookup q.grp).getD (0, 0)
      if x.testBit b.1 then if b.2 = 0 then x - 2 ^ b.1 else x else if b.2 = 0 then x else x + 2 ^ b.1) old
    let t := s.storeBytes o p (bytesOf 8 new)
    { t with coh := { t.coh with poison := s.coh.poison } }

/-- The pieces of an event are removed from an operation. -/
def State.donePieces (s : State) (id : Nat) (ps : List Piece) : State :=
  s.onOp id fun o => { o with pieces := o.pieces.filter (!ps.contains ·) }

/-- R82, R85: a posted write may be performed at the host: of those sent before it, none under HOSTORD 0 and none to a byte of it is still on
its way. -/
def State.postedTurn (s : State) (o : Op) : Bool :=
  !(s.ops.any fun q => q.kind == .posted && q.col == o.col && q.cv == o.cv && decide (q.seq < o.seq ∨ (q.seq = o.seq ∧ q.id < o.id)) &&
    q.pieces.any fun p => p.loc == .host false || o.pieces.any (·.meets p))

/-- R82: a posted write performed at the host. -/
def State.performPosted (s : State) (o : Op) : State :=
  (o.pieces.foldl (fun t p => (t.poke none p.loc p.addr (o.bytes p)).1) s).dropOp o.id

/-- R82: every posted write on its way performed at the host, in the order in which they were sent. -/
def State.flushPosted (s : State) : State := (s.ops.filter (·.kind == .posted)).foldl (fun t o => t.performPosted o) s

/-- R80, R82, R83: what the acknowledgement of a store or atomic leaves in its convoy: the latest completion time of its bytes in device
memory and scratchpad, and the latest acknowledgement of its host and peer bytes; a peer acknowledges now. -/
def Convoy.closed (v : Convoy) (o : Op) (now : Nat) : Convoy :=
  { v with stores := v.stores - 1, ctdev := max v.ctdev o.comp
           ctsys := max v.ctsys (if o.peers.isEmpty then o.csys else now) }

/-- R93: an atomic that its clause waits for leaves the stores counter with its last lane. -/
def State.closeWaited (s : State) (id : Nat) : State :=
  match s.op? id with
  | some o =>
    if o.lease = 0 ∧ o.pieces.isEmpty then
      s.onIssuer o (·.closed o s.now)
    else s
  | none => s

/-- STORE_ARRIVAL (R77): the event `grp` of a store, an atomic or a PLST is merged at its home slice or bank, or sent; a posted host
write is performed at the host. What may not be performed yet waits. -/
def execStoreArrival (op grp : Nat) (s : State) : Host.Outcome State Fault Refusal :=
  match s.op? op with
  | none => .next s
  | some o =>
    let ps := o.pieces.filter (·.grp == grp)
    let ok := !ps.isEmpty && ps.all fun p => s.mayPerform o p true
    match o.kind with
    | .store =>
      if ok then .next ((s.storePieces o ps).donePieces op ps) else .next s
    | .atomic k ty _ dst =>
      match ps with
      | [p] =>
        let host := match p.loc with
          | .host _ => true
          | _ => false
        if !ok || host || (o.lease == 0 && o.pieces.head? != some p) then .next s
        else if (s.checkPieces o [p] true).poisoned p then
          .next ((((s.checkPieces o [p] true).dropOp op).onIssuer o fun v => { v with stores := v.stores - 1 }).consume o.col o.quad (BitVec.ofNat 64 p.va) 4)
        else .next (((s.atomicPiece o k ty dst p).donePieces op ps).closeWaited op)
      | _ => .next s
    | .plst =>
      let word := o.pieces.filter fun q => ps.any fun p => p.addr == q.addr
      if !word.isEmpty && word.all fun p => s.mayPerform { o with pieces := [] } p true then
        .next ((s.mergePieces o word).donePieces op word)
      else .next s
    | .posted =>
      if s.postedTurn o then .next (s.performPosted o) else .next s
    | _ => .next s

/-- STORE_ACK (R80, R82, R83, R180): the completion time or acknowledgement returns, or messages are published. -/
def execStoreAck (op : Nat) (s : State) : Host.Outcome State Fault Refusal :=
  match s.op? op with
  | none => .next s
  | some o =>
    let counted := match o.kind with
      | .store | .push .. => true
      | .atomic .. => o.lease != 0
      | .append => decide (o.comp ≤ s.now)
      | _ => false
    if counted && o.pieces.isEmpty then
      .next (((s.acked o.peers).dropOp op).onIssuer o (·.closed o s.now))
    else .next s

/-- PUSH_PERFORM (R75): a piece of an element that was pushed performed as a store; one that a load feeds waits for its value. -/
def execPushPerform (op grp : Nat) (s : State) : Host.Outcome State Fault Refusal :=
  match s.op? op with
  | none => .next s
  | some o =>
    match o.kind with
    | .push .. =>
      let ps := o.pieces.filter (·.grp == grp)
      if ps.all fun p => (o.vals.lookup p.lane).isSome && s.mayPerform o p true then
        .next ((s.storePieces o ps).donePieces op ps)
      else .next s
    | _ => .next s

/-- PLST_MERGE_COMPLETE (R203): every merge is performed and the tile-operations counter falls. -/
def execPlstMergeComplete (op : Nat) (s : State) : Host.Outcome State Fault Refusal :=
  match s.op? op with
  | none => .next s
  | some o =>
    if o.kind == .plst && o.pieces.isEmpty then
      .next ((s.dropOp op).onIssuer o fun v => { v with tileOps := v.tileOps - 1, ctdev := max v.ctdev o.comp })
    else .next s

/-! ## Host atomics (R173, R359) -/

/-- The next lane of an atomic that its clause waits for, where its location is host memory. -/
def Op.hostHead (o : Op) : Option Piece :=
  if o.lease ≠ 0 then none
  else match o.pieces with
    | p :: _ => match p.loc with
      | .host _ => some p
      | _ => none
    | [] => none

/-- R173: the atomic faults at a lane: that lane and the ones above are not performed; what the lower lanes returned is taken up. -/
def State.failAtomic (s : State) (o : Op) (p : Piece) (code : BitVec 16) : State :=
  match s.convoy? o.col o.cv with
  | none => s
  | some v =>
    let t := { s with holds := s.holds.filter fun h => !(h.col == o.col && h.cv == o.cv && h.pc == o.pc) }
    let t := (t.dropOp o.id).onIssuer o (·.closed o s.now)
    t.signal o.col o.cv o.pc (v.lanesAt o.pc) code (BitVec.ofNat 64 p.va) 4

/-- HOST_ATOMIC_COMPLETION (R173): the completion of one lane's AtomicOp. -/
def execHostAtomicCompletion (op : Nat) (reply : HostReply) (s : State) : Host.Outcome State Fault Refusal :=
  match s.op? op with
  | none => .next s
  | some o =>
    match o.kind, o.hostHead with
    | .atomic k ty _ dst, some p =>
      if !s.mayPerform o p true || s.hostWrites o false then .next s
      else match reply with
        | .success =>
          let t := (s.atomicPiece o k ty dst p).onOp op fun q => { q with issued := s.now, csys := s.now }
          .next ((t.donePieces op [p]).closeWaited op)
        | .unsupported => .next (s.failAtomic o p cHostAtomic)
        | .error => .next (s.failAtomic o p cProtection)
    | _, _ => .next s

/-- COMPLETION_TIMEOUT (R359): no completion for 50 ms. -/
def execCompletionTimeout (op : Nat) (s : State) : Host.Outcome State Fault Refusal :=
  match s.op? op with
  | none => .next s
  | some o =>
    match o.hostHead with
    | some p => if o.issued + 50000000 ≤ s.now then .next (s.failAtomic o p cProtection) else .next s
    | none => .next s

/-! ## Read-ahead (R74, R94) -/

/-- The next element of a read port that is neither popped nor buffered. How far ahead of the reads the load engine goes is left open: the
model lets it go on to the count (DESIGN CHOICE; log 72). -/
def Port.nextFetch (p : Port) : Option Nat :=
  ((List.range (p.buf.length + 1)).map (· + p.pos)).find? fun e => decide (e < p.count.toNat) && (p.buf.lookup e).isNone

/-- What the fetch of an element gives: what the buffer holds of it, its completion time, its acknowledgement point, and the state. -/
structure Fetching where
  elem : Fetched
  dev : Nat
  sys : Nat
  state : State

/-- One element read at one instant under the engine's lease, or the failure met (R74); none while it would pass a host write of the convoy
(R82). -/
def State.fetchElement (s : State) (x : Ctx) (p : Port) (e : Nat) : Option Fetching :=
  match s.resolve x .global .read anyLoc (wants 0 (p.addr e) p.bytes) with
  | .error b => some ⟨.bad b.code b.addr, 0, 0, s⟩
  | .ok (ps, u) =>
    if s.passesPosted x.cur.col x.cur.cv ps [] then none
    else
    let t := ((ps.foldl (fun t q => (t.checkBytes x.c.part q.loc q.addr q.n).meterLoc x.cur.col q.loc q.n) u).acked (peersOf ps))
    match ps.find? t.poisoned with
    | some q => some ⟨.bad cUncorrectable (BitVec.ofNat 64 q.va), 0, 0, t⟩
    | none =>
      let x' := ps.foldl (fun n q => n + numberOf (t.peekBytes q.loc q.addr q.n) * 2 ^ (8 * q.off)) 0
      let kept := ps.foldl (fun m q => if q.loc == .dev then max m (t.keptTime (lineOf q.addr)) else m) 0
      let leased := ps.foldl (fun (u : State) q =>
        if q.loc == .dev then (u.grant (lineOf q.addr) (.loads x.core) (u.now + x.lease p.hint)).getD u else u) t
      some ⟨.value (popValue p.ty x'), kept, if ps.any (·.loc.isSys) then s.now else 0, leased⟩

/-- READ_AHEAD_FETCH (R94): the load engine fetches the next element of a bound read port. -/
def execReadAheadFetch (col cv port : Nat) (s : State) : Host.Outcome State Fault Refusal :=
  match s.opCtx { id := 0, col, cv, quad := 0, pc := 0, kind := .store, hint := .default, lease := 0, lanes := [], pieces := [], vals := [],
                  aux := [], comp := 0, issued := 0, seq := 0, csys := 0, recalled := false } with
  | none => .next s
  | some x =>
    match if port < 2 ∧ x.c.phase = .running then x.v.port? port else none with
    | none => .next s
    | some p =>
      match p.nextFetch with
      | none => .next s
      | some e => match s.fetchElement x p e with
        | none => .next s
        | some r => .next (r.state.onConvoy col cv fun v =>
          { v.setPort port { p with buf := p.buf ++ [(e, r.elem)] } with ctdev := max v.ctdev r.dev, ctsys := max v.ctsys r.sys })

end Sys2Proof.Machine
end

