-- ==== Sys2Proof/Machine/Surveyor.lean ====
section
/-!
DEFINITION. The Surveyor judges records: what is malformed (R288, R291), acceptance and its effects (R290, R297, R298), and how an
accepted version enters the state machine (R295, R296).
-/

namespace Sys2Proof.Machine

/-! ## Bodies (R291) -/

/-- R291: offset and bytes of every field of a body. -/
def bodyFields : Nat → List (Nat × Nat)
  | 1 => [(0, 1), (1, 1), (2, 2), (8, 8), (0x10, 8), (0x18, 8), (0x20, 8), (0x28, 4), (0x30, 160)]
  | 2 => [(0, 8), (8, 8), (0x10, 1)]
  | 3 => [(0, 4), (8, 8), (0x10, 8), (0x18, 8), (0x20, 1), (0x21, 1)]
  | 4 => [(0, 4), (4, 1), (5, 1), (6, 2), (8, 4), (0x10, 8), (0x18, 8), (0x20, 8), (0x28, 64), (0x68, 64)]
  | 5 => [(0, 0x100), (0x100, 4), (0x104, 1), (0x105, 1), (0x108, 8), (0x110, 8), (0x118, 8)]
  | 6 => [(0, 4), (4, 2), (8, 4), (0xC, 4), (0x10, 4), (0x18, 8)]
  | 7 => [(0, 1), (4, 4), (8, 8)]
  | _ => []

/-- R291: the fields marked F. Of PFLAGS only PROTECTED is not reserved. -/
def fixedFields : Nat → List (Nat × Nat)
  | 1 => [(0, 1), (1, 1), (2, 2), (8, 8), (0x10, 8), (0x18, 8), (0x20, 8), (0x28, 4)]
  | 2 => [(8, 8), (0x10, 1)]
  | 3 => [(0, 4)]
  | 4 => [(0, 4), (4, 1), (8, 4)]
  | 5 => [(0x100, 4)]
  | 6 => [(0, 4), (4, 2), (8, 4), (0xC, 4), (0x18, 8)]
  | 7 => [(0, 1)]
  | _ => []

/-- R288: every reserved byte of a body is 0. -/
def Version.tidy (v : Version) : Bool :=
  v.body.zipIdx.all fun bi => bi.1 == 0 || (bodyFields v.kind).any fun f => f.1 ≤ bi.2 && bi.2 < f.1 + f.2

/-- R291: QMAP. -/
def Version.qmap (v : Version) : BitVec 1280 := BitVec.ofNat 1280 (v.num 0x30 160)

/-- R288: no fixed field differs from the version in effect, and QMAP loses no bit. -/
def Version.keepsFixed (v old : Version) : Bool :=
  (fixedFields v.kind).all (fun f => v.num f.1 f.2 == old.num f.1 f.2) && (v.kind != 1 || (old.qmap &&& v.qmap) == old.qmap)

/-- The bodies a record stands for: that in effect, and that of the step in flight. -/
def Rec.claims (r : Rec) : List Version := r.eff.toList ++ if r.inFlight then r.acc.toList.filter Version.wants else []

/-- R291: no other record of the function holds the same number. -/
def State.alone (s : State) (fn slot : Nat) (v : Version) (off n : Nat) : Bool :=
  !(s.recs.any fun r => r.fn == fn && r.slot != slot && r.claims.any fun w => w.kind == v.kind && w.num off n == v.num off n)

/-- A range lies inside another. -/
def inside (a n b m : Nat) : Bool := decide (b ≤ a) && decide (a + n ≤ b + m)

/-- R2, R291, R357: the limits of a PARTITION body; its memory is device memory, and its control area of 16 MiB begins at DSRPA. -/
def Version.partOk (v : Version) : Bool :=
  let base := v.num 8 8
  let size := v.num 0x10 8
  let len := v.num 0x28 4
  decide (base + size ≤ 180 * 2 ^ 30) && decide (v.num 0 1 < 48) && decide (v.num 1 1 < 48) && decide (v.num 2 2 < 2) && base % 2 ^ 21 == 0 && size % 2 ^ 21 == 0 &&
  v.num 0x18 8 % 2 ^ 22 == 0 && inside (v.num 0x18 8) 0x1000000 base size && v.num 0x20 8 % 64 == 0 &&
  inside (v.num 0x20 8) (64 + 32 * len) base size && ((List.range 11).map fun k => 2 ^ (k + 6)).contains len

/-- R291: the limits of a MAPPING body; a range that leaves the virtual address space is outside them (log 13). -/
def Version.mapOk (v : Version) : Bool :=
  let n := pageBytes (v.num 0x20 1)
  let attr := v.num 0x21 1
  decide (v.num 0x20 1 < 16) && v.num 8 8 % n == 0 && v.num 0x10 8 % n == 0 && decide (v.num 8 8 + v.num 0x10 8 ≤ 2 ^ 56) &&
  decide (attr < 32) && attr % 4 != 3 && (attr / 4 % 2 == 0 || attr % 4 == 1)

/-- R291: the limits of a QUEUE body. -/
def Version.queueOk (v : Version) : Bool :=
  let msize := v.num 8 4
  let cap := v.num 0xC 4
  decide (v.num 4 2 < 4096) && msize % 16 == 0 && decide (16 ≤ msize) && decide (msize ≤ 4096) && decide (1 ≤ cap) && decide (cap ≤ 65536) &&
  decide (1 ≤ v.num 0x10 4) && decide (v.num 0x10 4 ≤ cap) && v.num 0x18 8 % 64 == 0

/-- R291: every body field is within its limits. -/
def State.inLimits (s : State) (fn slot : Nat) (v : Version) : Bool :=
  (v.deps.all fun d => decide (d < 4096)) &&
  match v.kind with
  | 1 => v.partOk && s.alone fn slot v 0 1
  | 2 => v.num 0 8 % 4096 == 0 && decide (v.num 0x10 1 < 2) && (v.num 8 8 == 0 || v.num 0x10 1 == 1)
  | 3 => v.mapOk
  | 4 => decide (v.num 4 1 < 3) && decide (v.num 5 1 < 2) && (v.num 4 1 == 1 || v.num 8 4 == 0)
  | 5 => decide (v.num 0x104 1 < 64) && decide (v.num 0x105 1 < 2) && v.num 0x108 8 % 64 == 0
  | 6 => v.queueOk && s.alone fn slot v 4 2
  | 7 => decide (v.num 0 1 < 64) && s.alone fn slot v 0 1 && !(v.num 0 1 == 0 && v.pres == 2)
  | _ => false

/-- R288: the checks on a version's body beside the object in effect, made at acceptance. A PRESENT version meets them again in APPLYING
(log 53). -/
def State.bodyBad (s : State) (r : Rec) (v : Version) : Bool :=
  (r.eff.any fun old => old.kind != v.kind || !v.keepsFixed old) || !s.inLimits r.fn r.slot v

/-- R288: a snapshot is malformed. -/
def State.malformed (s : State) (r : Rec) (p : Snapshot) : Bool :=
  let v := p.v
  !(v.pres == 1 || v.pres == 2) || p.recid != r.slot || !p.clean || !v.tidy || !(v.flags == 0 || (v.flags == 1 && v.kind == 6)) ||
  ((v.kind == 1) != (r.fn == 0)) || s.bodyBad r v

/-! ## Steps that end (R295) -/

/-- R296: an ABSENT version of a QUEUE or PROGRAM is never superseded. -/
def Version.pinned (v : Version) : Bool := v.pres == 2 && (v.kind == 5 || v.kind == 6)

/-- R298: the columns that a PROGRAM change has killed by its APPLYING. -/
def Rec.killed (r : Rec) (v : Version) : Nat := if v.kind = 5 ∧ r.present = true ∧ r.st = .applying then r.discard else 0

/-- R288, R295: a version fails; with MALFORMED its entry in the fault queue follows. -/
def State.failed (s : State) (r : Rec) (code : Nat) (v : Version) : State :=
  let t := s.outcome { r with st := .failed, due := none, retry := code == mNoResource } code v (r.killed v)
  if code = mMalformed then t.recordFault r.fn cMalformed v.writer else t

/-- R295: a PRESENT version converges. -/
def State.converged (s : State) (r : Rec) (v : Version) (killed : Nat) : State :=
  s.outcome { r with st := .converged, due := none, present := true, eff := some v, converged := v.ver } mConverged v killed

/-- R295: an ABSENT version converges. -/
def State.deleted (s : State) (r : Rec) (v : Version) (discard : Nat) : State :=
  s.outcome { r with st := .converged, due := none, present := false, eff := none, converged := v.ver } mDeleted v discard

/-- R297: a QUEUE object of a record. -/
def State.queueOf (s : State) (fn slot : Nat) : Option Queue := s.obj.queues.find? fun q => q.part + 1 == fn && q.slot == slot

/-- R297: a version that leaves LEN or lowers it converges at once. -/
def State.lenAtOnce (s : State) (r : Rec) (v : Version) : Option Queue :=
  if v.kind = 6 ∧ v.wants = true ∧ s.bodyBad r v = false then (s.queueOf r.fn r.slot).filter fun q => v.num 0x10 4 ≤ q.leneff else none

/-- R295: milestone SUPERSEDED for the versions that were IDLE and never started. -/
def State.supersede (s : State) (fn slot : Nat) (vs : List Version) : State :=
  (vs.filter fun v => !(s.recOf fn slot).acc.any (·.ver == v.ver)).foldl (fun t v => t.note (t.recOf fn slot) mSuperseded v) s

/-- R298: another retirement or change of a record's route is accepted. -/
def Rec.retiring (r : Rec) : Bool := r.waiting.any fun x => x.1.kind == 5 && !x.2

/-- R288, R295: a change of a route that fails, or that a malformed version replaces, gives the route its launches back, unless another one
waits. -/
def State.giveBack (s : State) (r : Rec) : State :=
  { s with obj := s.obj.onRoute (r.fn - 1) r.slot fun q => { q with stopped := r.retiring, deadline := none } }

/-- R288, R295, R296: one accepted version, while no step of its record is in flight: those that were IDLE are superseded but for the pinned
ones, and it fails, converges at once, or enters IDLE. -/
def State.enter (s : State) (fn slot : Nat) (x : Version × Bool) : State :=
  let r := s.recOf fn slot
  let keep := r.waiting.filter (·.1.pinned)
  let t := s.supersede fn slot ((r.waiting.filter (!·.1.pinned)).map (·.1))
  let r := { t.recOf fn slot with waiting := keep, retry := false }
  let idle (r : Rec) : Rec := if keep.isEmpty then r else { r with st := .idle }
  if x.2 then
    let u := (t.failed { r with acc := some x.1, blocked := r.blocked && !keep.isEmpty } mMalformed x.1).giveBack { r with waiting := keep }
    if keep.isEmpty then u else u.putRec (idle (u.recOf fn slot))
  else match if keep.isEmpty then t.lenAtOnce r x.1 else none with
    | some q =>
      let u := t.requeue q.id fun q => { q with leneff := x.1.num 0x10 4 }
      u.converged { r with acc := some x.1, blocked := false } x.1 0
    | none => t.putRec { r with st := .idle, waiting := keep ++ [x] }

/-- R295: a step of a record has ended; the versions that waited for it enter IDLE one after another. -/
def State.stepEnd (s : State) (fn slot : Nat) : State :=
  let r := s.recOf fn slot
  r.waiting.foldl (fun t x => t.enter fn slot x) (if r.waiting.isEmpty then s else s.putRec { r with waiting := [] })

/-! ## Acceptance (R290, R297, R298) -/

/-- R298, R306: a route takes no new column; its waiting batch goes back to the queue, its tasks are freed, and a bounds launch with
no running column ends. -/
def State.stopRoute (s : State) (part slot : Nat) : State :=
  match s.route? part slot with
  | none => s
  | some r =>
    let t := match r.waiting with
      | some b => s.reserveBatch b false
      | none => s
    let u := { t with obj := { t.obj.onRoute part slot fun r => { r with stopped := true, waiting := none } with
        tasks := t.obj.tasks.filter fun k => !(k.part == part && k.prog == slot) } }
    (u.launches.filter fun l => l.part == part && l.prog == slot).foldl (fun t l => t.endLaunch l.id) u

/-- R297: a deletion of the record is in flight or waits. -/
def Rec.leaving (r : Rec) : Bool := (r.inFlight && r.acc.any fun v => v.pres == 2) || r.waiting.any fun x => x.1.pres == 2

/-- R297, R298: what a version that is not malformed does at its acceptance. -/
def State.acceptEffects (s : State) (r : Rec) (v : Version) : State × Rec :=
  let q := s.queueOf r.fn r.slot
  match v.kind with
  | 6 =>
    if v.pres = 2 then
      ({ s with obj := { s.obj with
          queues := updateWhere (fun q => q.part + 1 == r.fn && q.slot == r.slot) (fun q => { q with isOpen := false }) s.obj.queues } },
       { r with closed := true })
    else match q with
      | none => (s, { r with closed := true })
      | some q => (if !r.leaving && v.num 0x10 4 < q.leneff then s.requeue q.id fun q => { q with leneff := v.num 0x10 4 } else s, r)
  | 5 => (s.stopRoute (r.fn - 1) r.slot, r)
  | _ => (s, r)

/-- R290, R295: a snapshot accepted. -/
def State.accept (s : State) (r : Rec) (p : Snapshot) : State :=
  let v := p.v
  let bad := s.malformed r p
  let e := if bad then (s, r) else s.acceptEffects r v
  let r := { e.2 with accepted := v.ver, kind := v.kind, writer := v.writer, frozen := false, judged := v.ver :: r.judged }
  if r.inFlight then e.1.putRec { r with waiting := r.waiting ++ [(v, bad)] } else (e.1.putRec r).enter r.fn r.slot (v, bad)

/-- R290: Judge. -/
def State.judge (s : State) (fn slot : Nat) : State :=
  let p := s.snapshot fn slot
  let r := s.recOf fn slot
  if p.v.ver = r.accepted then s
  else
    let based := if r.frozen then p.v.base == r.accepted else p.v.base + 1 == p.v.ver
    if r.accepted < p.v.ver ∧ p.whole = true ∧ based = true then s.accept r p
    else if r.judged.contains p.v.ver then s
    else (s.recordFault fn cConflict p.v.writer).note { r with frozen := true, judged := p.v.ver :: r.judged } mConflict p.v

/-- SURVEYOR_SCAN (R290). -/
def execSurveyorScan (fn slot : Nat) (s : State) : Host.Outcome State Fault Refusal :=
  if s.fnUp fn && decide (slot < slotsOf fn) && !s.partLeaving fn then .next (s.judge fn slot) else .next s

end Sys2Proof.Machine
end

