-- ==== Sys2Proof/Machine/Bars.lean ====
section
/-!
DEFINITION. What the host reaches through BAR0 and BAR2 (R337, R345, R356, R357): registers, mailbox windows, rings, usage counters,
partition memory; and host AtomicOps to the module (R359).
-/

namespace Sys2Proof.Machine

/-! ## Device memory from the host (R337) -/

/-- R337: one byte of device memory as the host reads it. -/
def State.barByte (s : State) (pa : Nat) : Byte :=
  if s.inCarveOut pa then 0xFF
  else if (s.granuleTag pa).isSome then BitVec.ofNat 8 (s.rawSector (lineOf pa) / 2 ^ (8 * (pa % 64)))
  else Memory.read s.store.dev pa

/-- R337, R340, R286: one byte as the host writes it. -/
def State.barStore (s : State) (pa : Nat) (b : Byte) : State :=
  if s.inCarveOut pa || s.inAst pa then s
  else if (s.granuleTag pa).isSome then
    let old := s.rawSector (lineOf pa)
    let at_ := 2 ^ (8 * (pa % 64))
    s.putRaw (lineOf pa) (old - old / at_ % 256 * at_ + b.toNat * at_)
  else (s.devWrite none pa [b]).1

/-! ## Registers (R357) -/

/-- R357: FSTAT. -/
def State.fstat (s : State) (fn : Nat) : Nat :=
  let svc := match s.fw.svc with
    | .rom => 0
    | .reduced => 1
    | .full => 2
  let part := if fn = 0 then true else (s.partRec (fn - 1)).any fun r => r.present && r.st == .converged
  (if part then 256 else 0) + 64 * svc + if fn = 0 then 0x3F else fn - 1

/-- R357: LINKUP. -/
def State.linkupReg (s : State) : Nat := maskOf 18 s.linkUp

/-- R358: MBCTL. -/
def Mailbox.ctl (b : Mailbox) : Nat := (if b.ovr then 8 else 0) + (if b.done then 4 else 0) + if b.busy then 2 else 0

/-- What lies at a BAR0 offset (R356). -/
inductive Bar0
  | dbell
  | mbctl
  | request (off : Nat)
  /-- A byte of a ring or of the physical function's DSR: in the root core's SRAM where `pf`. -/
  | memory (pf : Bool) (addr : Nat)
  /-- Read-only, or nothing. -/
  | other
  deriving DecidableEq, Repr

/-- Bytes of a ring of 4,096 entries. -/
def ringSpan : Nat := 64 + 32 * 4096

/-- R286, R356: the place of a BAR0 offset for a write; the physical function's records and rings exist from reduced service on. -/
def State.bar0 (s : State) (fn off : Nat) : Bar0 :=
  let window (base n : Nat) : Bool := decide (base ≤ off) && decide (off < base + n)
  if off = 8 then .dbell
  else if window 0x1000 4 then .mbctl
  else if window 0x1008 0x7F8 then .request (off - 0x1000)
  else if fn = 0 then
    if s.fw.svc != .rom && (window 0x40000 ringSpan || window 0x400000 ringSpan || window 0x1800000 0x10000) then .memory true off else .other
  else match s.fnPart fn with
    | none => .other
    | some p =>
      if window 0x40000 ringSpan then .memory false (p.faultQueue + (off - 0x40000))
      else if window 0x80000 ringSpan then .memory false (p.dsrpa + 0x4B0000 + (off - 0x80000))
      else if window 0x400000 (64 + 32 * p.mslen) then .memory false (p.msrpa + (off - 0x400000))
      else .other

/-- R290, R357: a scan of a function's DSR. -/
def State.scanAll (s : State) (fn : Nat) : State :=
  if s.fnUp fn && !s.partLeaving fn then (List.range (slotsOf fn)).foldl (fun t slot => t.judge fn slot) s else s

/-- DBELL (R290, R357). -/
def execDbell (fn : Nat) (s : State) : Host.Outcome State Fault Refusal := .next (s.scanAll fn)

/-- R340: a write to the carve-out register, which the boot ROM makes: BAR0 shows the register read-only. -/
def State.writeCarve (s : State) (value : DWord) : State :=
  let old := s.fw.carve
  let kept := if s.carveLocked then old else value &&& 0x000FFFFFFC00000E
  { s with fw := { s.fw with carve := kept ||| (value &&& 1) } }

/-- CARVE_OUT_WRITE (R340). -/
def execCarveOutWrite (value : DWord) (s : State) : Host.Outcome State Fault Refusal := .next (s.writeCarve value)

/-- R358: a write to MBCTL: DONE and OVR are cleared by a 1, and GO takes the request, or sets OVR while BUSY. -/
def Mailbox.writeCtl (b : Mailbox) (x : Nat) : Mailbox :=
  let c := { b with ovr := b.ovr && !x.testBit 3, done := b.done && !x.testBit 2 }
  if !x.testBit 0 then c
  else if b.busy then { c with ovr := true }
  else { c with busy := true, req := Memory.bytes b.area 8 0x7F8 }

/-- R347, R358: a write to a function's MBCTL; the request that a GO takes has its place in the order of arrival. -/
def State.writeMailbox (s : State) (fn x : Nat) : State :=
  let b := s.box fn
  let c := b.writeCtl x
  if b.busy || !c.busy then s.setBox c else { s.setBox { c with stamp := s.nextId } with nextId := s.nextId + 1 }

/-- R359: where the model puts AtomicOp Requester Enable: bit 6 of a register that lies beyond BAR0 (log 20). -/
def deviceControl2 : Nat := 2 ^ 32

/-- One byte of a write to a register or ring. -/
def State.writeReg1 (s : State) (fn off : Nat) (b : Byte) : State :=
  match s.bar0 fn off with
  | .request o => s.setBox { s.box fn with area := Memory.write (s.box fn).area o b }
  | .memory true a => (s.ramWrite true a [b]).1
  | .memory false a => s.barStore a b
  | _ => s

/-- REGISTER_WRITE (R4, R356 to R359): a write through BAR0, or to the function's Device Control 2. -/
def execRegisterWrite (fn off : Nat) (data : List Byte) (s : State) : Host.Outcome State Fault Refusal :=
  if off = deviceControl2 then
    let on := (numberOf data).testBit 6
    let rest := s.fw.atomicEn.filter (· != fn - 1)
    .next (if fn = 0 then s else { s with fw := { s.fw with atomicEn := if on then (fn - 1) :: rest else rest } })
  else match s.bar0 fn off with
    | .dbell => .next (s.scanAll fn)
    | .mbctl => if off = 0x1000 then .next (s.writeMailbox fn (numberOf data)) else .next s
    | _ => .next (data.zipIdx.foldl (fun t bi => t.writeReg1 fn (off + bi.2) bi.1) s)

/-! ## Usage counters (R345) -/

/-- R345: a partition lets the physical function see a counter. -/
def State.allowed (s : State) (part acct k : Nat) : Bool := ((s.fw.allow.lookup part).getD 0).getLsbD (8 * acct + k)

/-- R345: the event queue. -/
def Partition.eventQueue (p : Partition) : Nat := p.dsrpa + 0x4B0000

/-- R345: COUNTER_DENIED posted, or counted in the event of the same slot that is less than 1 ms old. -/
def State.denyRead (s : State) (part slotOff : Nat) : State :=
  match s.part? part with
  | none => s
  | some p =>
    let base := p.eventQueue
    match s.fw.denied.find? fun d => d.part == part && d.slotOff == slotOff && decide (s.now < d.at_ + 1000000) with
    | some d =>
      let a := base + 64 + 32 * (d.entry % 4096) + 4
      s.devWriteNum a 4 (s.devNum a 4 + 1)
    | none =>
      let k := s.ringProd false base
      let e : FaultEntry := { code := cDenied, access := 0, service := 0, addr := BitVec.ofNat 64 slotOff, route := 0xFFFF, quad := 0xFFFF,
                              colid := 0xFFFFFFFF }
      let t := s.ringWrite false part base 4096 (e.bytes s.now)
      if t.ringProd false base = k then t
      else { t with fw := { t.fw with
          denied := (t.fw.denied.filter fun d => !(d.part == part && d.slotOff == slotOff)) ++ [{ part, slotOff, entry := k, at_ := s.now }] } }

/-- R345: the 16 bytes of a slot as the physical function reads them, with the event that a denied read posts. -/
def State.counterSlot (s : State) (off : Nat) : List Byte × State :=
  let part := off / 0x10000
  let acct := off % 0x10000 / 0x400
  let k := off % 0x400 / 0x10
  if k ≥ 8 then (List.replicate 16 0, s)
  else if s.allowed part acct k then (bytesOf 8 (s.usage part acct k) ++ bytesOf 8 0, s)
  else (bytesOf 8 0 ++ bytesOf 4 1 ++ bytesOf 4 0, s.denyRead part (off % 0x10000 / 16 * 16))

/-- R345: the slots from one on, read in order. -/
def State.counterSlots (s : State) (slot : Nat) : Nat → List Byte × State
  | 0 => ([], s)
  | n + 1 =>
    let r := s.counterSlot (16 * slot)
    let q := r.2.counterSlots (slot + 1) n
    (r.1 ++ q.1, q.2)

/-- R345: bytes of the physical function's counter window. -/
def State.counterBytes (s : State) (off len : Nat) : List Byte × State :=
  let r := s.counterSlots (off / 16) ((off + len + 15) / 16 - off / 16)
  ((r.1.drop (off % 16)).take len, r.2)

/-- COUNTER_SLOT_READ (R345): bytes of the physical function's counter window. -/
def execCounterSlotRead (off len : Nat) (s : State) : Host.Outcome State Fault Refusal :=
  if off + len > 0x300000 then .next { s with reply := List.replicate len 0 }
  else
    let r := s.counterBytes off len
    .next { r.2 with reply := r.1 }

/-! ## BAR2 (R337, R357) -/

/-- R357: the physical address that a BAR2 offset reaches. -/
def Partition.bar2 (p : Partition) (o : Nat) : Option Nat :=
  if o < 0x1000000 then some (p.dsrpa + o) else if o - 0x1000000 < p.memsize then some (p.membase + (o - 0x1000000)) else none

/-! ## Reads of BAR0 (R4, R345, R356 to R358) -/

/-- R345, R356: a byte of a partition's own counters: VALUE, and STATUS 0. -/
def State.ownCounter (s : State) (part o : Nat) : Byte :=
  if o % 0x400 / 16 < 8 then lookupByte (bytesOf 8 (s.usage part (o / 0x400) (o % 0x400 / 16)) ++ bytesOf 8 0) (o % 16) else 0
where
  /-- A byte of a list, 0 behind its end. -/
  lookupByte (bs : List Byte) (k : Nat) : Byte := (bs[k]?).getD 0

/-- R4, R340, R357: the registers that a function shows: offset, and bytes. DBELL is write-only and reads 0. -/
def State.registers (s : State) (fn : Nat) : List (Nat × List Byte) :=
  [(0, bytesOf 4 (s.fstat fn))] ++
  if fn = 0 then [(0x100, bytesOf 8 s.fw.carve.toNat), (0x110, bytesOf 4 s.fw.booterr), (0x118, bytesOf 4 s.fw.chfail.toNat),
                  (0x120, bytesOf 4 s.linkupReg)]
  else []

/-- R356: one byte of BAR0 as the host reads it; an offset that nothing has reads 0. -/
def State.bar0Byte (s : State) (fn off : Nat) : Byte :=
  match (s.registers fn).find? fun r => decide (r.1 ≤ off) && decide (off < r.1 + r.2.length) with
  | some r => (r.2[off - r.1]?).getD 0
  | none =>
    if 0x1000 ≤ off ∧ off < 0x1004 then ((bytesOf 4 (s.box fn).ctl)[off - 0x1000]?).getD 0
    else if 0x1800 ≤ off ∧ off < 0x2000 then (((s.box fn).resp)[off - 0x1800]?).getD 0
    else if fn ≠ 0 ∧ 0xC0000 ≤ off ∧ off < 0xD0000 ∧ s.fnUp fn = true then s.ownCounter (fn - 1) (off - 0xC0000)
    else match s.bar0 fn off with
      | .request o => Memory.read (s.box fn).area o
      | .memory true a => Memory.read s.store.pf a
      | .memory false a => s.barByte a
      | _ => if fn = 0 ∧ 0x1810000 ≤ off ∧ off < 0x1811000 then Memory.read s.store.pf off else 0

/-- R82, R345, R356: a read through BAR0, whose completion passes no posted write of the module; the physical function's counter window answers as R345 says. -/
def State.bar0Read (s : State) (fn off len : Nat) : State :=
  let s := s.flushPosted
  if fn = 0 ∧ 0x1000000 ≤ off ∧ off + len ≤ 0x1300000 then
    let r := s.counterBytes (off - 0x1000000) len
    { r.2 with reply := r.1 }
  else { s with reply := (List.range len).map fun i => s.bar0Byte fn (off + i) }

/-- R357: an offset that reaches nothing: an entry with the offset as its address. -/
def State.barFault (s : State) (part off : Nat) (access : Nat) : State :=
  s.faultEntry part { code := cProtection, access, service := 0, addr := BitVec.ofNat 64 off, route := 0xFFFF, quad := 0xFFFF, colid := 0xFFFFFFFF }

/-- R357: the bytes that a read of BAR2 returns. -/
def State.barRead (s : State) (p : Partition) (off n : Nat) : List Byte :=
  (List.range n).map fun i => match p.bar2 (off + i) with
    | some pa => s.barByte pa
    | none => 0xFF

/-- R357: bytes written through BAR2; those that reach nothing are dropped. -/
def State.barWrite (s : State) (p : Partition) (off : Nat) (bs : List Byte) : State :=
  bs.zipIdx.foldl (fun t bi => match p.bar2 (off + bi.2) with
    | some pa => t.barStore pa bi.1
    | none => t) s

/-- R357: an access has an offset that reaches nothing: the first. -/
def Partition.misses (p : Partition) (off n : Nat) : Option Nat := ((List.range n).map (· + off)).find? fun o => (p.bar2 o).isNone

/-- BAR2_ACCESS (R337, R340, R357). The completion of a read passes no posted write of the module (R82, R376). -/
def execBar2Access (part off len : Nat) (write : Option (List Byte)) (s : State) : Host.Outcome State Fault Refusal :=
  let s := if write.isSome then s else s.flushPosted
  match s.part? part with
  | none => .next (if write.isSome then s else { s with reply := List.replicate len 0xFF })
  | some p =>
    match write with
    | some bs =>
      let t := s.barWrite p off bs
      .next (match p.misses off bs.length with
        | some o => t.barFault part o 2
        | none => t)
    | none =>
      let t := match p.bar2 off with
        | some pa => s.checkBytes part .dev pa len
        | none => s
      let u := { t with reply := t.barRead p off len }
      .next (match p.misses off len with
        | some o => u.barFault part o 1
        | none => u)

/-! ## Host AtomicOps to the module (R359) -/

/-- R359: the new value of an AtomicOp of `size` bytes; a CAS compares with `x` and stores `y`. -/
def atomicOp (kind : HostAtomicKind) (size old x y : Nat) : Nat :=
  match kind with
  | .fetchAdd => (old + x) % 2 ^ (8 * size)
  | .swap => x % 2 ^ (8 * size)
  | .cas => if old = x % 2 ^ (8 * size) then y % 2 ^ (8 * size) else old

/-- R286, R359: the VERSION field of a record in the physical function's DSR window. -/
def isPfVersion (off : Nat) : Bool := inPfDsr off && off % 1024 == 0x10

/-- HOST_ATOMICOP_COMPLETER (R84, R359): the completion carries the old value; Unsupported Request carries nothing. -/
def execHostAtomicopCompleter (fn bar off size : Nat) (kind : HostAtomicKind) (x y : Nat) (s : State) : Host.Outcome State Fault Refusal :=
  let s := s.flushPosted
  if bar = 2 ∧ fn ≠ 0 ∧ (size = 4 ∨ size = 8) ∧ off % size = 0 then
    match s.part? (fn - 1) with
    | none => .next { s with reply := List.replicate size 0xFF }
    | some p =>
      let s := match p.bar2 off with
        | some pa => s.checkBytes (fn - 1) .dev pa size
        | none => s
      if (p.misses off size).isSome then .next ({ s with reply := List.replicate size 0xFF }.barFault (fn - 1) off 4)
      else
        let old := s.barRead p off size
        .next ({ s with reply := old }.barWrite p off (bytesOf size (atomicOp kind size (numberOf old) x y)))
  else if s.fw.svc ≠ .rom ∧ bar = 0 ∧ fn = 0 ∧ size = 8 ∧ kind = .cas ∧ isPfVersion off = true then
    let old := Memory.num s.store.pf off 8
    .next { s with
      reply := bytesOf 8 old
      store := { s.store with pf := Memory.writeNum s.store.pf off 8 (atomicOp kind 8 old x y) } }
  else .next { s with reply := [] }

end Sys2Proof.Machine
end

