-- ==== Sys2Proof/Machine/Bounds.lean ====
section
/-!
DEFINITION. The bounds instructions (R254 to R258).
-/

namespace Sys2Proof.Machine

/-- R254: an attachment added: the same base is replaced, and the oldest of eight makes room. -/
def Convoy.attach (v : Convoy) (a : Attach) : Convoy :=
  let rest := v.atts.filter (·.base != a.base)
  { v with atts := (if rest.length ≥ 8 then rest.drop 1 else rest) ++ [a] }

/-- BSUM (R254). -/
def execBsum (f : MForm) (s : State) : Host.Outcome State Fault Refusal :=
  issue (.bsum f) f.h (fun x t =>
    if x.act.isEmpty || !x.bounds then .next (x.settleUnd t)
    else
      let table := x.uni f.a 2
      if table % 8 ≠ 0 then x.fail t cProtection table 1
      else .next (x.settleUnd (t.put x (x.v.attach
        { base := BitVec.ofNat 64 (x.uni f.b 2), n := BitVec.ofNat 32 (x.uni f.c), ty := f.ty, table := BitVec.ofNat 64 table })))) s

/-- FILL in an element column: a store of each active lane at its element (R255). -/
def Ctx.fillElements (x : Ctx) (t : State) (f : MForm) : Effect :=
  let base : DWord := BitVec.ofNat 64 (x.uni f.b 2)
  let ws := x.act.flatMap fun l =>
    wants l (fillAddr base f.off (x.uni f.c) f.size.bytes (x.special l .ex).lo (x.special l .ey).lo) f.size.bytes
  match t.resolve x .global .write anyLoc ws with
  | .error b => .fault t x.group b
  | .ok (ps, u) =>
    if x.act.isEmpty then .next u
    else
      let vals := x.act.map fun l => (l, (x.read l f.a f.size.regs).lo % 2 ^ (8 * f.size.bytes))
      .next ((u.addOp x .store f.h.hint x.act (dropOverwritten (groupPieces true ps)) vals []).put x
        (x.v.stored 1 ps))

/-- FILL in a bounds pass: the fills of the lanes that may hold one are appended, the others' tiles are deferred (R255). -/
def Ctx.fillTiles (x : Ctx) (t : State) (f : MForm) : Effect :=
  let val (l : Nat) : IVal := x.read l f.a f.size.regs
  let full := x.act.filter fun l => !(val l).isPoint || (val l).mn || decide ((x.v.lane l).fills.length ≥ 4)
  let ls := x.act.filter fun l => !full.contains l
  let mk (l : Nat) : Fill :=
    { base := BitVec.ofNat 64 (x.uni f.b 2), off := f.off, rs := x.uni f.c, value := BitVec.ofNat 64 (val l).lo,
      size := f.size.bytes, hint := f.h.hint }
  let ws := ls.flatMap fun l => match (x.v.lane l).tile with
    | some g => fillWants l (mk l) (x.r.range g)
    | none => []
  match t.resolve x .global .write anyLoc ws with
  | .error b => .fault t x.group b
  | .ok (_, u) =>
    let v := x.v.onLanes ls fun l a => { a with fills := a.fills ++ [mk l] }
    .next (x.settleUnd ((u.put x v).tileEnds x full .defer))

/-- FILL (R255). -/
def execFill (f : MForm) (s : State) : Host.Outcome State Fault Refusal :=
  issue (.fill f) f.h (fun x t => if x.bounds then x.fillTiles t f else x.fillElements t f) s

/-- DEFER (R257): undecided guards count as true (R248). -/
def execDefer (f : BForm) (s : State) : Host.Outcome State Fault Refusal :=
  issue (.defer f) f.h (fun x t => .next (if x.bounds then t.tileEnds x x.asTrue.act .defer else t)) s

/-- SPLIT (R257): undecided guards count as true (R248). -/
def execSplit (f : BForm) (s : State) : Host.Outcome State Fault Refusal :=
  issue (.split f) f.h (fun x t => .next (if x.bounds then t.tileEnds x x.asTrue.act .quarter else t)) s

/-- WIDEN (R258): undecided guards count as true (R248). -/
def execWiden (f : RForm) (s : State) : Host.Outcome State Fault Refusal :=
  issue (.widen f) f.h (fun x t =>
    if !x.bounds then .next t
    else match f.a with
      | .v n =>
        let v := x.v.onLanes x.asTrue.act fun _ l =>
          { l with wide := setFlag l.wide n.toNat true, mn := setFlag l.mn n.toNat true }.mark [n.toNat] []
        .next (t.putRegs x.asTrue f.a 1 v)
      | .p n => .next (t.put x (x.v.onLanes x.asTrue.act fun _ l => l.setPred n.toNat .und))
      | _ => .next t) s

/-- BDONE (R257): the tiles of the active lanes are done; in an element column the lanes exit. -/
def execBdone (f : BForm) (s : State) : Host.Outcome State Fault Refusal :=
  issue (.bdone f) f.h (fun x t =>
    if x.bounds then .next (x.settleUnd (t.tileEnds x x.act .done))
    else .next (t.onConvoy x.cur.col x.cur.cv fun v => v.onLanes x.act fun _ l => { l with live := false, split := false })) s

end Sys2Proof.Machine
end

