-- ==== Sys2Proof/Machine/Collective.lean ====
section
/-!
DEFINITION. Convoy collectives (R138 to R144).
-/

namespace Sys2Proof.Machine

/-- A collective's result in every participant; lanes with undecided guards end their tiles (R248). -/
def Ctx.collect (x : Ctx) (t : State) (o : Operand) (k : Nat) (kind : ResKind) (val : Nat → IVal) : Effect :=
  .next ((t.putRegs { x with und := [] } o k ({ x with und := [] }.writeReg o k kind val)).tileEnds x x.und .quarter)

/-- The whole range of a bit pattern of `n` bits. -/
def wideBits (n : Nat) : IVal := { lo := 0, hi := 2 ^ n - 1, wide := true, mn := false }

/-- A mask with the bits of some lanes set. -/
def laneMask (lanes : List Nat) : Nat := lanes.foldl (fun m l => m ||| 2 ^ l) 0

/-- R139, R144: the predicates of VOTE over the participants. -/
def voteAll (ps : List Tri) : Tri := ps.foldl Tri.and .yes

/-- R139, R144. -/
def voteAny (ps : List Tri) : Tri := ps.foldl Tri.or .no

/-- VOTE (R139, R144): `.any`, `.all`, `.ballot`, `.count`. -/
def execVote (f : RForm) (s : State) : Host.Outcome State Fault Refusal :=
  issue (.vote f) f.h (fun x t =>
    let p (l : Nat) : Tri := x.readPred l f.b
    let ps := x.act.map p
    let yes := x.act.filter fun l => p l == .yes
    let maybe := x.act.filter fun l => p l != .no
    match f.subop.toNat with
    | 0 => .next ((t.put x ({ x with und := [] }.writePred f.a fun _ => voteAny ps)).tileEnds x x.und .quarter)
    | 1 => .next ((t.put x ({ x with und := [] }.writePred f.a fun _ => voteAll ps)).tileEnds x x.und .quarter)
    | 2 => x.collect t f.a 2 (.bits true false) fun _ =>
        if ps.contains .und then wideBits 64 else .pt (laneMask yes)
    | _ => x.collect t f.a 1 (.typed (.int 32 false)) fun _ =>
        { lo := yes.length, hi := maybe.length, wide := false, mn := false }) s

/-- R140: lanes of a segment. -/
def segSize (f : RForm) (width : Nat) : Nat := let g := bitsOf f.ent.toNat 6 3; if g = 0 then width else min width (2 ^ g)

/-- R140: the lane that an amount selects; a lane outside the segment is none. -/
def shflLane (sub l sz c : Nat) : Option Nat :=
  let base := l - l % sz
  let j : Int := match sub with
    | 0 => (base + c % sz : Nat)
    | 1 => (l : Int) - c
    | 2 => (l + c : Nat)
    | _ => (base + (l % sz ^^^ c % sz) : Nat)
  if (base : Int) ≤ j ∧ j < (base + sz : Nat) then some j.toNat else none

/-- SHFL (R140, R144). -/
def execShfl (f : RForm) (s : State) : Host.Outcome State Fault Refusal :=
  issue (.shfl f) f.h (fun x t =>
    let k := f.ty.regs
    let pair := f.ty == .i64
    let sz := segSize f x.v.lanes.length
    let b (l : Nat) : IVal := x.read l f.b k
    let from_ (l c : Nat) : Option Nat := (shflLane f.subop.toNat l sz c).filter x.act.contains
    x.collect t f.a k (.bits pair true) fun l =>
      let c := if f.ent.getLsbD 11 then .pt (bitsOf f.ent.toNat 0 6) else x.read l f.c
      if c.isPoint then b ((from_ l c.lo).getD l)
      else
        let chosen := if c.wide || decide (c.hi < c.lo) then x.act
          else if f.subop.toNat = 1 ∨ f.subop.toNat = 2 then
            x.act.filter fun j =>
              let d := if f.subop.toNat = 1 then (l : Int) - j else (j : Int) - l
              decide ((c.lo : Int) ≤ d) && decide (d ≤ c.hi) && decide (j / sz = l / sz)
          else (List.range (min sz (c.hi - c.lo + 1))).filterMap fun d => from_ l (c.lo + d)
        bitHull pair (b l :: chosen.map b)) s

/-- The operations of the reductions. -/
inductive RedOp
  | add | max | min
  deriving DecidableEq, Repr

/-- R141: f32 maximum or minimum with -0 below +0. -/
def fbest (mx : Bool) (a b : Nat) : Nat := if (f32Key a < f32Key b) = mx then b else a

/-- R141: one step of f32 addition in ascending lane order. -/
def faddRne (a b : Nat) : Nat := roundTo .f32 .rne false ((readValue .f32 a).add .rne (readValue .f32 b))

/-- R141: a reduction of values, lowest lane first. -/
def reduce (t : Fmt) (op : RedOp) (sat : Bool) (xs : List Nat) : Nat :=
  match xs with
  | [] => 0
  | x :: rest =>
    if t == .f32 then
      match op with
      | .add => rest.foldl faddRne (if readValue .f32 x == .nan then nanCode .f32 else x)
      | .max | .min =>
        if xs.any fun y => readValue .f32 y == .nan then nanCode .f32 else rest.foldl (fbest (op == .max)) x
    else
      let n := 32
      let sg := t.isSigned
      let ys := xs.map (readInt n sg)
      match op with
      | .add =>
        let sum := ys.foldl (· + ·) 0
        wrapTo n (if sat then clampTo (intMin n sg) (intMax n sg) sum else sum)
      | .max => wrapTo n (ys.foldl Max.max (readInt n sg x))
      | .min => wrapTo n (ys.foldl Min.min (readInt n sg x))

/-- R141, R144: a reduction of intervals: its low ends and its high ends; an f32 result may be NaN when a source may be or the ends
include both infinities, on points too. -/
def reduceI (t : Fmt) (op : RedOp) (sat : Bool) (xs : List IVal) : IVal :=
  let rs := xs.map (·.rng t.order)
  let clash := rs.any Rng.hasPosInf && rs.any Rng.hasNegInf
  if xs.all IVal.isPoint then
    let r := reduce t op sat (xs.map (·.lo))
    { IVal.pt r with mn := t == .f32 && (xs.any (·.mn) || readValue .f32 r == .nan || clash) }
  else
    if t == .f32 then
      let lo := reduce t op false (rs.map fun r => Order.flt.pat r.lo)
      let hi := reduce t op false (rs.map fun r => Order.flt.pat r.hi)
      endsF lo hi (rs.any (·.mn) || clash)
    else match op with
      | .add => intResult 32 t.isSigned sat (rs.foldl (fun a r => a + r.lo) 0) (rs.foldl (fun a r => a + r.hi) 0)
      | .max | .min =>
        let g (a b : Int) : Int := if op == .max then Max.max a b else Min.min a b
        match rs with
        | [] => .pt 0
        | r :: rest => intResult 32 t.isSigned false (rest.foldl (fun a q => g a q.lo) r.lo) (rest.foldl (fun a q => g a q.hi) r.hi)

/-- A reduction over the participants, written in each of them. -/
def execReduce (i : Instr) (f : RForm) (op : RedOp) (s : State) : Host.Outcome State Fault Refusal :=
  issue i f.h (fun x t =>
    let r := reduceI f.ty op f.sat (x.act.map fun l => x.read l f.b)
    x.collect t f.a 1 (.typed f.ty.order) fun _ => r) s

/-- REDADD (R141, R144). -/
def execRedadd (f : RForm) (s : State) : Host.Outcome State Fault Refusal := execReduce (.redadd f) f .add s

/-- REDMAX (R141, R144). -/
def execRedmax (f : RForm) (s : State) : Host.Outcome State Fault Refusal := execReduce (.redmax f) f .max s

/-- REDMIN (R141, R144). -/
def execRedmin (f : RForm) (s : State) : Host.Outcome State Fault Refusal := execReduce (.redmin f) f .min s

/-- SCAN (R142, R144): a prefix in ascending lane order. -/
def execScan (f : RForm) (s : State) : Host.Outcome State Fault Refusal :=
  issue (.scan f) f.h (fun x t =>
    let sub := f.subop.toNat
    let op : RedOp := if sub < 2 then .add else if sub = 2 then .max else .min
    x.collect t f.a 1 (.typed f.ty.order) fun l =>
      let below := x.act.filter fun m => if sub = 1 then m < l else m ≤ l
      if below.isEmpty then .pt 0 else reduceI f.ty op f.sat (below.map fun m => x.read m f.b)) s

/-- MATCH (R143, R144). -/
def execMatchv (f : RForm) (s : State) : Host.Outcome State Fault Refusal :=
  issue (.matchv f) f.h (fun x t =>
    let k := f.ty.regs
    let b (l : Nat) : IVal := x.read l f.b k
    x.collect t f.a 2 (.bits true false) fun l =>
      if x.act.all fun m => (b m).isPoint then .pt (laneMask (x.act.filter fun m => (b m).lo == (b l).lo)) else wideBits 64) s

end Sys2Proof.Machine
end

