-- ==== Sys2Proof/Machine/OvlLoad.lean ====
section
/-!
DEFINITION. How overlay loads end (R213, R216 to R218, R224): the image read, its digest, the copy into bays, and the answers to
whoever waits.
-/

namespace Sys2Proof.Machine

/-! ## The image -/

/-- R213: the bytes of an overlay's image whose digest is the registered one; otherwise why the load fails. -/
def State.imageOf (s : State) (core part : Nat) (r : Route) (d : DirEntry) : VaRead :=
  match s.readVa ⟨core, none⟩ part r.ctx d.image d.bytes with
  | .bytes bs => if digestNum bs = d.digest then .bytes bs else .bad cForeign d.image
  | e => e

/-- R78, R322, R329: what the core's copy engine leaves when it has read an image, under leases of the route. -/
def State.imageRead (s : State) (core part : Nat) (r : Route) (d : DirEntry) : State :=
  s.rangeRead ⟨core, none⟩ part r.ctx (some (.engine core, s.now + r.lease)) d.image d.bytes

/-! ## Answers -/

/-- R218: the records of a copy on a core: the one that loads it and those that joined. -/
def State.copies (s : State) (r : Residency) : List Residency :=
  s.eng.res.filter fun x => x.core == r.core && x.bays == r.bays && x.st == .loading

/-- R216, R228: convoys of an overlay's route on its core that wait for a load of it take up the code with which it ended. -/
def State.failWaits (s : State) (r : Residency) (code : BitVec 16) : State :=
  { s with cols := s.cols.map fun c =>
      if c.part != r.part || c.prog != r.prog then c
      else { c with cvs := c.cvs.map fun v =>
        match v.wait with
        | none => v
        | some w =>
          let waits := coreOf v.quad == r.core && match w.kind with
            | .callo h _ => h == r.handle
            | .resume hs => hs.contains r.handle
            | .trapEntry _ _ page => page.isNone && pcHandle w.pc == r.handle
            | _ => false
          if waits then { v with wait := some { w with err := some code } } else v } }

/-- R211, R224: the address of a place in the image as the record's own partition and route know it. -/
def State.imageVa (s : State) (r : Residency) (off : Nat) : Nat :=
  (((s.route? r.part r.prog).bind (·.dirEntry r.handle)).map (·.image)).getD 0 + off

/-- R224: one waiting OVL answered: its word, its counter and, for a failure, an entry in the fault queue with the place in the image at
which the load failed. -/
def State.answerWaiter (s : State) (r : Residency) (w : OvlWaiter) (failed : Option (BitVec 16 × Nat)) : State :=
  match failed with
  | none => s.answerOvl w (s.ovlWord r.core r.part r.prog r.handle)
  | some (code, off) =>
    let t := s.answerOvl w (failWord code)
    match s.column? w.col, s.convoy? w.col w.cv with
    | some c, some v =>
      t.ovlFailure r.part (((s.route? r.part r.prog).map (·.num)).getD 0xFFFF) v.quad c.colid.toNat code (s.imageVa r off)
    | _, _ => t

/-- R217: the ENTRY overlay's image is unusable: one entry, no further column; its waiting batch goes back to the queue. -/
def State.unusableImage (s : State) (r : Residency) (code : BitVec 16) : State :=
  match s.route? r.part r.prog with
  | none => s
  | some q =>
    if !r.entry || q.unusable then s
    else
      let t := match q.waiting with
        | some b => s.reserveBatch b false
        | none => s
      let t := t.faultEntry r.part { code, access := 0x18, service := 0, addr := BitVec.setWidth 64 q.entry, route := q.num,
                                     quad := 0xFFFF, colid := 0xFFFFFFFF }
      { t with obj := t.obj.onRoute r.part r.prog fun q => { q with unusable := true, waiting := none } }

/-- R213: one record of a copy that has loaded well. Where OVLEV asked for its end meanwhile, the completion word shows it draining, as
it is until its bays are freed in the same event (DESIGN CHOICE; log 92). -/
def State.loadedWell (s : State) (r : Residency) : State :=
  let t := s.setRes { r with st := if r.evpend then .draining else .resident, evpend := false, lastUse := s.now, waiters := [],
                             entry := false, joined := false }
  r.waiters.foldl (fun t w => t.answerWaiter r w none) t

/-- R213: one record of a copy whose load failed, at a place in the image. -/
def State.loadFailed (s : State) (code : BitVec 16) (off : Nat) (r : Residency) : State :=
  let t := ((s.unusableImage r code).dropOverlay r).failWaits r code
  r.waiters.foldl (fun t w => t.answerWaiter r w (some (code, off))) t

/-- The record that loads, its route and its directory entry; a share that joined the copy loads nothing itself (R218). -/
def State.loading? (s : State) (core part prog handle : Nat) : Option (Residency × Route × DirEntry) := do
  let r ← s.res? core part prog handle
  guard (r.st == .loading && !r.joined)
  let q ← s.route? part prog
  let d ← q.dirEntry handle
  pure (r, q, d)

/-- OVERLAY_LOAD_END (R213, R224): the lines lie in their bays and the digest agrees. -/
def execOverlayLoadEnd (core part prog handle : Nat) (s : State) : Host.Outcome State Fault Refusal :=
  match s.loading? core part prog handle with
  | none => .next s
  | some (r, q, d) => match s.imageOf core part q d with
    | .bytes bs => .next (((s.copies r).foldl State.loadedWell ((s.imageRead core part q d).copyImage r bs)).settle).notice
    | .bad .. => .next s

/-- OVERLAY_LOAD_FAIL (R213, R224): the image cannot be read, or its digest differs. -/
def execOverlayLoadFail (core part prog handle : Nat) (s : State) : Host.Outcome State Fault Refusal :=
  match s.loading? core part prog handle with
  | none => .next s
  | some (r, q, d) => match s.imageOf core part q d with
    | .bytes _ => .next s
    | .bad code addr =>
      .next ((s.copies r).foldl (fun t x => t.loadFailed code (addr - d.image) x) (s.imageRead core part q d)).settle.notice

end Sys2Proof.Machine
end

