-- ==== Sys2Proof/Machine/Converge.lean ====
section
/-!
DEFINITION. How a step in APPLYING ends, kind by kind (R292, R295, R297, R298, R308, R336, R350): the object made or changed, or the
failure.
-/

namespace Sys2Proof.Machine

/-- How performing a version's effects ends. -/
inductive Made
  /-- Every effect performed; the entry stores complete at the time given. -/
  | good (s : State) (t : Nat)
  /-- A check or an allocation failed, with the outcome. -/
  | bad (s : State) (outcome : Nat)

/-! ## PARTITION (R302, R303, R344, R345) -/

/-- R291: the object of a PARTITION body. -/
def Version.partition (v : Version) : Partition :=
  { pnum := v.num 0 1, world := v.num 1 1, prot := v.num 2 2 % 2 == 1, membase := v.num 8 8, memsize := v.num 0x10 8,
    dsrpa := v.num 0x18 8, msrpa := v.num 0x20 8, mslen := v.num 0x28 4, qmap := v.qmap }

/-- R336: the world's key drawn when its first PARTITION converges. -/
def State.drawWorld (s : State) (world : Nat) : State :=
  if (s.fw.worldKeys.lookup world).isSome then s
  else { s.free.2 with fw := { s.fw with worldKeys := s.fw.worldKeys ++ [(world, s.free.1 % 2 ^ 512)] } }

/-- R302: a quadrant another partition owns makes the version fail; so does, at a creation, memory in which the backing of a set shared
with a partition now deleted still lies (R351; DEDUCED; log 95). The allow-list is clear (R345); at a creation the counters
and the chain start or go on (R344), and the world has a key (R336). -/
def State.makePartition (s : State) (v : Version) : Made :=
  let p := v.partition
  let lent (g : Page) : Bool := g.own && g.part != p.pnum && meets g.pa (pageBytes g.s) p.membase p.memsize
  if (s.obj.parts.any fun q => q.pnum != p.pnum && (q.qmap &&& p.qmap) != 0) || ((s.part? p.pnum).isNone && s.obj.pages.any lent) then
    .bad s mNoResource
  else
    let t := { s with
      obj := { s.obj with parts := upsert (·.pnum == p.pnum) p s.obj.parts }
      fw := { s.fw with allow := s.fw.allow.filter (·.1 != p.pnum) } }
    let u := if (s.part? p.pnum).isSome then t else (t.startChain p.pnum).drawWorld p.world
    .good u u.now

/-! ## CONTEXT (R336, R349) -/

/-- R336: key slots in use: the world keys, the context keys and the firmware key. -/
def State.keySlots (s : State) : Nat := s.fw.worldKeys.length + (s.obj.ctxs.filter fun c => c.key.isSome).length + 1

/-- R349: the envelope at a physical address. -/
def State.envelope (s : State) (pa : Nat) : List Byte := Memory.bytes s.store.dev pa 256

/-- R349 step 6: the context key that an ephemeral private key unwraps from an envelope. -/
def openEnvelope (e : List Byte) (ephemeral : Nat) : Option Nat :=
  let source := (e.drop 24).take 64
  if fieldOf e 0 4 ≠ 0x4E344B57 then none
  else (unwrapKey (migrationKey (x25519 ephemeral (Config.migrationPublic source)) source identityDigest)
    (((e.drop 152).take 72).map (·.toNat))).map bytesNat

/-- R349 steps 6 and 7: the key unwrapped from an envelope; the ephemeral private key is erased by the attempt, and the signed
confirmation or failure made. -/
def State.unwrap (s : State) (part pa : Nat) : Option Nat × State :=
  let e := s.envelope pa
  let key := ((s.fw.migs.find? (·.part == part)).map (·.ephemeral)).bind fun ks => ks.findSome? (openEnvelope e)
  let text := Config.migrationMessage key.isSome e
  (key, { s with fw := { s.fw with
    migs := updateWhere (·.part == part) (fun m => { m with ephemeral := [], message := text ++ signature text }) s.fw.migs } })

/-- The key of a new PROT context, or why there is none. -/
inductive KeyFound
  | key (k : Nat) (s : State)
  | none (outcome : Nat) (s : State)

/-- R336, R349: the key of a new PROT context. -/
def State.contextKey (s : State) (part keyref : Nat) : KeyFound :=
  if s.keySlots ≥ 256 then .none mNoResource s
  else if keyref = 0 then .key (s.free.1 % 2 ^ 512) s.free.2
  else match s.unwrap part keyref with
    | (some k, t) => .key (k % 2 ^ 512) t
    | (none, t) => .none mSignature t

/-- R291: a CONTEXT made. -/
def State.newContext (s : State) (part slot : Nat) (v : Version) : Made :=
  let prot := v.num 0x10 1 == 1
  let c : Context := { part, slot, ptroot := v.num 0 8, prot, keyref := v.num 8 8, key := none, epoch := 0 }
  let add (t : State) (c : Context) : Made :=
    .good { t with obj := { t.obj with ctxs := t.obj.ctxs ++ [c] } } t.now
  if !prot then add s c
  else match s.contextKey part c.keyref with
    | .key k t => .good ({ t with obj := { t.obj with ctxs := t.obj.ctxs ++ [c] } }.setKey part slot (some k)) t.now
    | .none e t => .bad t e

/-- The leaf that a recorded page shows. -/
def State.leafOfPage (s : State) (g : Page) : Option Leaf :=
  match s.obj.maps.find? fun m => m.part == g.part && m.slot == g.slot with
  | some m => some (if g.own then { m.leaf g.pa with kind := 0, peer := 0, hostord := false } else m.leaf g.pa)
  | none => none

/-- Leaves of recorded pages written anew. -/
def State.rewrite (s : State) : List Page → Option (State × Nat)
  | [] => some (s, s.now)
  | g :: gs =>
    match s.leafOfPage g with
    | none => s.rewrite gs
    | some l => match s.writeLeaf g.part g.ctx g.va l with
      | none => none
      | some (t, c) => (t.rewrite gs).map fun r => (r.1, max c r.2)

/-- The newest generations of a context's weight sets shown. -/
def State.showAll (s : State) : List WeightSet → Option (State × Nat)
  | [] => some (s, s.now)
  | w :: ws => match s.showWeights w (((w.gens.head?).map (·.pages)).getD []) with
    | none => none
    | some (t, c) => (t.showAll ws).map fun r => (r.1, max c r.2)

/-- R321: the translations of a context let go. -/
def State.dropTlb (s : State) (part ctx : Nat) : State :=
  { s with coh := { s.coh with tlb := s.coh.tlb.filter fun x => !(x.part == part && x.ctx == ctx) } }

/-- R291: a CONTEXT with another page-table root: the leaves are written under it, and the tables made under the old one are given
up. -/
def State.moveContext (s : State) (part slot root : Nat) : Made :=
  let mine (g : Page) : Bool := g.part == part && g.ctx == slot
  let tables := s.obj.pages.filter fun g => mine g && g.slot == slot && g.own
  let set (t : State) : State :=
    { t with obj := { t.obj with
        ctxs := updateWhere (fun k => k.part == part && k.slot == slot) (fun k => { k with ptroot := root }) t.obj.ctxs } }
  if (s.ctx? part slot).any fun k => k.ptroot == root then .good s s.now
  else match s.makeRoom part fun t =>
      ((set t).rewrite (s.obj.pages.filter fun g => mine g && g.slot != slot && !g.gone)).bind fun r =>
        (r.1.showAll (t.obj.wsets.filter fun w => w.part == part && w.ctx == slot)).map fun q => (q.1, max r.2 q.2) with
    | .error t => .bad t mNoResource
    | .ok (t, n) => .good ((t.freeUp tables).dropTlb part slot) n

/-! ## MAPPING (R291, R322, R324, R325) -/

/-- R291: the object of a MAPPING body. -/
def Version.mapping (v : Version) (part slot : Nat) : Mapping :=
  { part, slot, ctx := v.num 0 4, va := v.num 8 8, size := v.num 0x10 8, back := v.num 0x18 8, psize := v.num 0x20 1, attr := v.num 0x21 1 }

/-- A recorded page stays under a changed MAPPING: memory that the function core allocated, inside the new range. -/
def Mapping.keeps (m old : Mapping) (g : Page) : Bool :=
  old.back == 0 && m.back == 0 && old.psize == m.psize && inside g.va (pageBytes g.s) m.va m.size

/-- Pages of a MAPPING's own backing written, by number. -/
def State.mapRange (s : State) (m : Mapping) : List Nat → Option (State × Nat)
  | [] => some (s, s.now)
  | k :: ks => match s.mapBacked m (m.va + k * pageBytes m.psize) with
    | none => none
    | some (t, n) => (t.mapRange m ks).map fun r => (r.1, max n r.2)

/-- R291, R322: a MAPPING made or changed. A backing of its own is mapped at once, the function core's page by page (R324). -/
def State.makeMapping (s : State) (part slot : Nat) (v : Version) : Made :=
  let m := v.mapping part slot
  let old := s.obj.maps.find? fun o => o.part == part && o.slot == slot
  let pages := s.obj.pages.filter fun g => g.part == part && g.slot == slot && !g.gone
  let keep (g : Page) : Bool := m.keeps (old.getD m) g
  if (s.ctx? part m.ctx).isNone then .bad s mMalformed
  else
    match s.makeRoom part fun s =>
        let t := { s with obj := { s.obj with maps := upsert (fun o => o.part == part && o.slot == slot) m s.obj.maps } }
        let u := t.unmapPages (pages.filter fun g => !keep g)
        (u.1.rewrite (pages.filter keep)).bind fun r =>
          (r.1.mapRange m (if m.back = 0 then [] else List.range (m.size / pageBytes m.psize))).map fun q => (q.1, max u.2 (max r.2 q.2)) with
    | .error t => .bad t mNoResource
    | .ok (w, n) => .good w n

/-! ## WEIGHTSET (R350, R351, R353) -/

/-- R291: the object of a WEIGHTSET body over a base, before it has a generation. -/
def Version.weights (v : Version) (part slot : Nat) (base : Option WeightSet) : WeightSet :=
  { part, slot, ctx := v.num 0 4, sub := v.num 4 1, evictable := v.num 5 1 == 1, pubkey := v.num 6 2, baserec := v.num 8 4,
    src := v.num 0x10 8, wsize := v.num 0x18 8, va := v.num 0x20 8, span := (base.map (·.span)).getD (v.num 0x18 8),
    digest := v.num 0x28 64, sig := (v.body.drop 0x68).take 64, gens := [], lastUse := 0 }

/-- The epoch of a generation whose version has not converged: above every capture. -/
def pendingEpoch : Nat := 2 ^ 64

/-- The leaves of a set's newest generation made invalid. -/
def State.hideWeights (s : State) (w : WeightSet) : State × Nat :=
  (((w.gens.head?).map (·.pages)).getD []).foldl (fun (r : State × Nat) p =>
    let q := r.1.clearLeaf w.part w.ctx (w.va + 4096 * p.1) 0
    (q.1, max r.2 q.2)) (s, s.now)

/-- The weight set of a record. -/
def State.setOf (s : State) (part slot : Nat) : Option WeightSet := s.obj.wsets.find? fun x => x.part == part && x.slot == slot

/-- R350: the image, checked, becomes a new generation; the one before stays in use for whoever captured it (R353). -/
def State.newGeneration (s₀ : State) (w : WeightSet) : Made :=
  let s := s₀.readsThrough w.part w.ctx w.src w.wsize
  match s₀.weightImage w with
  | none => .bad s mSignature
  | some bs =>
    match s.makeRoom w.part fun t =>
        let hidden := match t.setOf w.part w.slot with
          | some o => t.hideWeights o
          | none => (t, t.now)
        (hidden.1.backWeights w bs).bind fun r => (r.1.showWeights w r.2).map fun q => (q.1, max hidden.2 q.2, r.2) with
    | .error t => .bad t mNoResource
    | .ok (t, n, pages) =>
      let old := t.setOf w.part w.slot
      let w := { w with
        gens := { epoch := pendingEpoch, va := w.va, span := w.span, pages, evicted := false } :: (old.map (·.gens)).getD []
        lastUse := (old.map (·.lastUse)).getD 0 }
      .good { t with obj := { t.obj with wsets := upsert (fun x => x.part == w.part && x.slot == w.slot) w t.obj.wsets } } n

/-- R350, R351: a WEIGHTSET version; a DELTA finds its base, reloaded if it was evicted. -/
def State.makeWeights (s : State) (part slot : Nat) (v : Version) : Made :=
  let base := if v.num 4 1 = 1 then s.obj.wsets.find? fun w => w.part == part && w.slot == v.num 8 4 && w.sub == 0 else none
  let w := v.weights part slot base
  if (s.ctx? part w.ctx).isNone || (w.sub == 1 && base.isNone) || w.va % 4096 != 0 || decide (2 ^ 56 < w.va + w.span) then
    .bad s mMalformed
  else match base with
    | none => s.newGeneration w
    | some b =>
      if (b.gens.head?).any (·.evicted) then match s.reloadSet b with
        | .written t _ => t.newGeneration w
        | .exhausted t => .bad t mNoResource
        | .unmapped => .bad s mSignature
        | .badImage t _ => .bad t mSignature
      else s.newGeneration w

/-- R353: the version converges: the context's epoch advances, and it is the generation's. -/
def State.advanceEpoch (s : State) (part slot : Nat) : State :=
  match s.obj.wsets.find? fun w => w.part == part && w.slot == slot with
  | none => s
  | some w =>
    let e := s.weightEpoch part w.ctx + 1
    let t := { s with obj := { s.obj with
      ctxs := updateWhere (fun k => k.part == part && k.slot == w.ctx) (fun k => { k with epoch := e }) s.obj.ctxs } }
    (t.onSet part slot fun w => { w with
      gens := updateWhere (fun g => g.epoch == pendingEpoch) (fun g => { g with epoch := e }) w.gens }).dropGens

/-! ## PROGRAM (R10, R211, R263, R292) -/

/-- R10: a word of a launch record. -/
def Version.launchWord (v : Version) (k : Nat) : Nat := v.num (8 * k) 8

/-- R10: words W0 and W5, and the reserved bytes. -/
def Version.controlOk (v : Version) : Bool :=
  let w := v.launchWord 0
  let lease := bitsOf w 32 16
  let banks := bitsOf w 21 5
  bitsOf w 48 16 == 0 && bitsOf w 26 6 == 0 && bitsOf w 2 3 == 0 && bitsOf w 0 2 != 3 &&
  (lease == 0 || (decide (64 ≤ lease) && decide (lease ≤ 8192))) && decide (banks ≤ 16) && (bitsOf w 9 1 == 0 || banks % 2 == 0) &&
  (bitsOf w 11 1 == 0 || decide (bitsOf w 16 5 ≤ 7)) && v.launchWord 5 % 64 == 0 && decide (v.launchWord 5 < 2 ^ 56) &&
  v.num 0x30 0x50 == 0

/-- R10: a program counter's slot is 0 to 4 and its handle stands in the directory. -/
def pcOk (pc : PC) (dir : List DirEntry) : Bool := decide (pcSlot pc < 5) && dir.any fun d => d.handle == pcHandle pc

/-- R10: word W1. -/
def Version.entriesOk (v : Version) (dir : List DirEntry) : Bool :=
  let w := v.launchWord 1
  let trap := BitVec.ofNat 25 (bitsOf w 32 25)
  bitsOf w 57 7 == 0 && bitsOf w 25 7 == 0 && pcOk (BitVec.ofNat 25 (bitsOf w 0 25)) dir &&
  (if bitsOf (v.launchWord 0) 12 1 = 1 then pcOk trap dir else trap == 0)

/-- R10: words W2 and W3. -/
def Version.shapeOk (v : Version) : Bool :=
  let w := v.launchWord 2
  let d := v.launchWord 3
  let side (k : Nat) : Bool := k == 0 || decide ((if bitsOf w 8 4 = 0 then 3 else bitsOf w 8 4) ≤ k)
  if bitsOf (v.launchWord 0) 11 1 = 0 then w == 0
  else
    decide (w < 2 ^ 16) && decide (bitsOf w 12 3 ≤ 5) && decide (bitsOf w 8 4 ≤ 8) && decide (bitsOf w 4 4 ≤ 8) && decide (bitsOf w 0 4 ≤ 8) &&
    (bitsOf w 15 1 == 1 || bitsOf w 4 4 == 0) && side (bitsOf w 0 4) && side (bitsOf w 4 4) && d % 2 ^ 32 != 0 && d / 2 ^ 32 != 0

/-- R10: word W4. -/
def Version.inputOk (v : Version) : Bool :=
  let w := v.launchWord 4
  let c0 := v.launchWord 0
  let thresh := bitsOf w 16 11
  if bitsOf c0 10 1 = 1 then w == 0
  else bitsOf w 27 5 == 0 && bitsOf w 12 4 == 0 && decide (1 ≤ thresh) &&
    decide (thresh ≤ 16 * 2 ^ bitsOf c0 0 2 * (bitsOf c0 5 4 + 1))

/-- R292: a byte run of a bundle, read through the parent context. -/
def State.bundle (s : State) (part : Nat) (v : Version) (off n : Nat) : Option (List Byte) :=
  s.readThrough part (v.num 0x100 4) (v.num 0x108 8 + off) n

/-- R119: an instruction word of the matrix group, in a 64-byte line of an image (R71, R101). A word that the line does not mark as valid
counts as well (DESIGN CHOICE; log 92). -/
def matrixLine (line : List Byte) : Bool :=
  (List.range 5).any fun k =>
    let op := numberOf ((line.drop (4 + 12 * k)).take 12) / 2 ^ 86
    decide (0x200 ≤ op) && decide (op ≤ 0x209)

/-- R71, R292: some line of an image holds matrix code. -/
def matrixCode (image : List Byte) : Bool := (List.range (image.length / 64)).any fun k => matrixLine ((image.drop (64 * k)).take 64)

/-- R211, R263, R292: one overlay-table entry registered, with whether its image holds matrix code. -/
def State.register (s : State) (part : Nat) (v : Version) (e : List Byte) : Option (DirEntry × Bool) :=
  let handle := numberOf (e.take 2)
  let flags := numberOf ((e.drop 2).take 1)
  let nbm1 := numberOf ((e.drop 3).take 1)
  let image := (v.num 0x108 8 + numberOf ((e.drop 8).take 8)) / 64 * 64
  if handle ≥ 0xFFF ∨ nbm1 > 15 then none
  else match s.readVa ⟨0, none⟩ part (v.num 0x100 4) image (4096 * (nbm1 + 1)) with
    | .bytes bs => some ({ handle, image, auto := flags % 2 == 1, share := flags / 2 % 2 == 1 && v.num 0x105 1 == 1, nbm1,
                           digest := digestNum bs }, matrixCode bs)
    | .bad .. => none

/-- R292: the directory of a bundle; none when a check on the bundle fails. -/
def State.directory (s : State) (part : Nat) (v : Version) : Option (List (DirEntry × Bool)) :=
  (s.bundle part v 0 8).bind fun h =>
    if numberOf (h.take 4) != 0x4B454C43 || numberOf ((h.drop 4).take 2) != 1 then none
    else
      let n := numberOf ((h.drop 6).take 2)
      (s.bundle part v 0x140 (16 * n)).bind fun table =>
        (List.range n).mapM fun k => s.register part v ((table.drop (16 * k)).take 16)

/-- R322, R329: what reading a bundle and the images of its entries leaves. -/
def State.bundleRead (s : State) (part : Nat) (v : Version) (dir : List DirEntry) : State :=
  let read (t : State) (va n : Nat) : State := t.readsThrough part (v.num 0x100 4) va n
  dir.foldl (fun t d => read t d.image d.bytes) (read (read s (v.num 0x108 8) 8) (v.num 0x108 8 + 0x140) (16 * dir.length))

/-- R9: the lowest route number that no other route of the partition holds. -/
def State.freeRoute (s : State) (part slot : Nat) : Nat :=
  let held (n : Nat) : Bool := s.obj.routes.any fun r => r.part == part && r.slot != slot && r.num == n
  ((List.range (s.obj.routes.length + 1)).find? fun n => !held n).getD 0

/-- R292: the route of a PROGRAM version. -/
def Version.route (v : Version) (part slot num : Nat) (dir : List (DirEntry × Bool)) (stopped : Bool) : Route :=
  { part, slot, num, ctx := v.num 0x100 4, acct := v.num 0x104 1
    words := (List.range 6).map fun k => BitVec.ofNat 64 (v.launchWord k)
    slots := (List.range 8).map fun k => (BitVec.ofNat 64 (v.num (0x80 + 16 * k) 8), BitVec.ofNat 64 (v.num (0x88 + 16 * k) 8))
    dir := dir.map (·.1), holdsAcc := dir.any (·.2), nextCol := 0, unusable := false, noBay := false, waiting := none, due := false,
    stopped, deadline := none, killedCols := 0 }

/-- R292: a PROGRAM version made a route. -/
def State.makeRoute (s : State) (r : Rec) (v : Version) : Made :=
  let part := r.fn - 1
  if (s.ctx? part (v.num 0x100 4)).isNone || !v.controlOk || !v.shapeOk || !v.inputOk then .bad s mMalformed
  else match s.directory part v with
    | none => .bad (s.bundleRead part v []) mMalformed
    | some dir =>
      let s := s.bundleRead part v (dir.map (·.1))
      if !v.entriesOk (dir.map (·.1)) then .bad s mMalformed
      else
        let q := v.route part r.slot (s.freeRoute part r.slot) dir r.retiring
        .good { s with obj := { s.obj with routes := upsert (fun x => x.part == part && x.slot == r.slot) q s.obj.routes } } s.now

/-! ## QUEUE (R297) -/

/-- R297: how a probe of a ring ends. -/
inductive Probed
  | ok (s : State)
  | malformed (s : State)
  | noRoom (s : State)

/-- R297: pages of a range probed, an absent page inside a MAPPING allocated. -/
def State.probeRing (s : State) (part ctx : Nat) : List Nat → Probed
  | [] => .ok s
  | a :: as_ =>
    match s.mapAt part ctx a with
    | none => .malformed s
    | some m =>
      if bitsOf m.attr 3 2 ≠ 3 then .malformed s
      else match s.serve part ctx a with
        | .written t _ => t.probeRing part ctx as_
        | .exhausted t => .noRoom t
        | .unmapped => .malformed s
        | .badImage t _ => .malformed t

/-- The first byte of every 4 KiB page of a range. -/
def pagesIn (a n : Nat) : List Nat := (List.range ((a + n + 4095) / 4096 - a / 4096)).map fun k => (a / 4096 + k) * 4096

/-- R297: a QUEUE made, its ring probed; or its LEN raised, the added range probed. -/
def State.makeQueue (s : State) (r : Rec) (v : Version) : Made :=
  let part := r.fn - 1
  let ctx := v.num 0 4
  let msize := v.num 8 4
  let cap := v.num 0xC 4
  let len := v.num 0x10 4
  let ring := v.num 0x18 8
  let old := s.queueOf r.fn r.slot
  let range : Nat × Nat := match old with
    | some q => (ring + q.leneff * msize, (len - q.leneff) * msize)
    | none => (ring, cap * msize)
  match s.probeRing part ctx (pagesIn range.1 range.2) with
  | .malformed t => .bad t mMalformed
  | .noRoom t => .bad t mNoResource
  | .ok t => match old with
    | some q => .good (t.requeue q.id fun q => { q with leneff := len }) t.now
    | none =>
      let q : Queue := { id := t.nextId, part, slot := r.slot, ctx, qnum := v.num 4 2, msize, cap, leneff := len, ring,
                         isOpen := !(r.waiting.any fun x => x.1.pres == 2 && !x.2), next := 0, msgs := [] }
      .good { t with nextId := t.nextId + 1, obj := { t.obj with queues := t.obj.queues ++ [q] } } t.now

/-! ## ACCOUNT (R308) -/

/-- R308: an account made full, or changed and clamped. -/
def State.makeAccount (s : State) (part slot : Nat) (v : Version) : Made :=
  let acct := v.num 0 1
  let depth := v.num 8 8
  let level : Int := match s.account? part acct with
    | some a => toLevel (min a.level (depth * 1000 : Nat))
    | none => toLevel (depth * 1000 : Nat)
  .good { s with obj := { s.obj with
    accts := upsert (fun a => a.part == part && a.acct == acct) { part, acct, slot, rate := v.num 4 4, depth, level } s.obj.accts } } s.now

/-! ## APPLYING_END -/

/-- R295: the effects of a step in APPLYING performed; the body is checked beside the object that is in effect by now (log 53). -/
def State.make (s : State) (r : Rec) (v : Version) : Made :=
  let part := r.fn - 1
  if s.bodyBad r v then .bad s mMalformed
  else match v.kind with
  | 1 => s.makePartition v
  | 2 => if r.present then s.moveContext part r.slot (v.num 0 8) else s.newContext part r.slot v
  | 3 => s.makeMapping part r.slot v
  | 4 => s.makeWeights part r.slot v
  | 5 => s.makeRoute r v
  | 6 => s.makeQueue r v
  | _ => s.makeAccount part r.slot v

/-- R295, R298, R363: a step in APPLYING converges. -/
def State.finishApplying (s : State) (r : Rec) (v : Version) : State :=
  let part := r.fn - 1
  let t := match v.kind with
    | 3 => s.freeUp (s.obj.pages.filter fun g => g.part == part && g.slot == r.slot && g.gone)
    | 4 => s.advanceEpoch part r.slot
    | _ => s
  let r := if v.kind = 6 then { r with closed := r.waiting.any fun x => x.1.pres == 2 && !x.2 } else r
  let u := t.converged r v (r.killed v)
  let w := if v.kind = 1 ∧ !r.present ∧ s.fw.svc == .reduced then u.deviceMilestone (v.num 0 1 + 1) mReduced else u
  w.stepEnd r.fn r.slot

/-- A record's state kept without a change of its entry. -/
def State.setRec (s : State) (r : Rec) : State :=
  { s with recs := updateWhere (fun x => x.fn == r.fn && x.slot == r.slot) (fun _ => r) s.recs }

/-- APPLYING_END (R295): the effects are performed; the version converges once its entry stores have completed, or fails. -/
def execApplyingEnd (fn slot : Nat) (s : State) : Host.Outcome State Fault Refusal :=
  match s.rec? fn slot with
  | none => .next s
  | some r =>
    match r.st, r.acc with
    | .applying, some v =>
      match r.due with
      | some t => if t ≤ s.now then .next (s.finishApplying r v) else .next s
      | none => match s.make r v with
        | .bad t outcome => .next (((t.giveBack r).failed r outcome v).stepEnd fn slot)
        | .good t n =>
          if n ≤ s.now then .next (t.finishApplying r v) else .next (t.setRec { r with due := some n })
    | _, _ => .next s

end Sys2Proof.Machine
end

