-- ==== Sys2Proof/Machine/Convert.lean ====
section
/-!
DEFINITION. Conversions, special functions and softmax (R154 to R160).
-/

namespace Sys2Proof.Machine

/-- The sources of CVT, CVTI and ICVT: B, and the old A where the result fills a part of the register. -/
def convSrcs (f : RForm) : List (Operand × Nat) :=
  (f.b, (f.from?.map Fmt.regs).getD 1) :: if f.ty.int?.isNone && f.ty.width < 32 then [(f.a, 1)] else []

/-- CVT (R154). -/
def execCvt (f : RForm) (s : State) : Host.Outcome State Fault Refusal :=
  issueAlu (.cvt f) f.h f.a f.ty.regs (convSrcs f) (convAlu f) s

/-- CVTI (R154). -/
def execCvti (f : RForm) (s : State) : Host.Outcome State Fault Refusal :=
  issueAlu (.cvti f) f.h f.a f.ty.regs (convSrcs f) (convAlu f) s

/-- ICVT (R154). -/
def execIcvt (f : RForm) (s : State) : Host.Outcome State Fault Refusal :=
  issueAlu (.icvt f) f.h f.a f.ty.regs (convSrcs f) (convAlu f) s

/-- The convoy's codebook for a slot; empty where it has none. -/
def Ctx.table (x : Ctx) (n : Nat) : List (BitVec 16) := ((x.v.books.lookup n).map (·.table)).getD []

/-- The slot QNT or DQNT names; its checks have passed. -/
def Ctx.quantSlot (x : Ctx) (f : RForm) : FSlot :=
  (x.fslot (slotOf f.ent.toNat) Fmt.narrow).getD
    { efmt := .f16, e8 := false, block := 16, planes := 16, round := .rne, sat := false, cbaddr := 0 }

/-- QNT (R155 to R157): `.q` writes one element of A, `.sc` the shared scale. -/
def execQnt (f : RForm) (s : State) : Host.Outcome State Fault Refusal :=
  issue (.qnt f) f.h (fun x t =>
    let fs := x.quantSlot f
    if f.subop = 0 then
      let op := qntAlu fs (x.table (slotOf f.ent.toNat)) (bitsOf f.ent.toNat 3 5)
      x.retire t f.a 1 op.kind fun l => op.eval [x.read l f.b, x.read l f.c, x.read l f.a]
    else x.retire t f.a 1 (qntScAlu fs).kind fun l => (qntScAlu fs).eval [x.read l f.b]) s

/-- DQNT (R155, R157). -/
def execDqnt (f : RForm) (s : State) : Host.Outcome State Fault Refusal :=
  issue (.dqnt f) f.h (fun x t =>
    let op := dqntAlu (x.quantSlot f) (x.table (slotOf f.ent.toNat)) (bitsOf f.ent.toNat 3 5)
    x.retire t f.a 1 op.kind fun l => op.eval [x.read l f.b, x.read l f.c]) s

/-- EXP2 (R158). -/
def execExp2 (f : RForm) (s : State) : Host.Outcome State Fault Refusal :=
  issueAlu (.exp2 f) f.h f.a 1 [(f.b, 1)] exp2Alu s

/-- LOG2 (R158). -/
def execLog2 (f : RForm) (s : State) : Host.Outcome State Fault Refusal :=
  issueAlu (.log2 f) f.h f.a 1 [(f.b, 1)] log2Alu s

/-- SIN (R158). -/
def execSin (f : RForm) (s : State) : Host.Outcome State Fault Refusal :=
  issueAlu (.sin f) f.h f.a 1 [(f.b, 1)] (trigAlu false) s

/-- COS (R158). -/
def execCos (f : RForm) (s : State) : Host.Outcome State Fault Refusal :=
  issueAlu (.cos f) f.h f.a 1 [(f.b, 1)] (trigAlu true) s

/-- TANH (R158). -/
def execTanh (f : RForm) (s : State) : Host.Outcome State Fault Refusal :=
  issueAlu (.tanh f) f.h f.a 1 [(f.b, 1)] tanhAlu s

/-- SMXI (R160). -/
def execSmxi (f : RForm) (s : State) : Host.Outcome State Fault Refusal :=
  issueAlu (.smxi f) f.h f.a 2 [] smxiAlu s

/-- SMXACC (R160). -/
def execSmxacc (f : RForm) (s : State) : Host.Outcome State Fault Refusal :=
  issueAlu (.smxacc f) f.h f.a 2 [(f.b, 2), (f.c, 1)] smxaccAlu s

/-- SMXNRM (R160). -/
def execSmxnrm (f : RForm) (s : State) : Host.Outcome State Fault Refusal :=
  issueAlu (.smxnrm f) f.h f.a 1 [(f.b, 2), (f.c, 1)] (smxnrmAlu f) s


end Sys2Proof.Machine
end

