-- ==== Sys2Proof/Machine/Engine.lean ====
section
/-!
DEFINITION. The matrix engine of a quadrant: passes and steps (R191, R193, R197, R204, R205), products and sums (R51 to R53), masks
(R202), checksums and drains (R195, R199).
-/

namespace Sys2Proof.Machine

/-! ## Products and sums (R51 to R53) -/

/-- R51: the product of two elements with the bytes of their scales (127 where a slot has no scale). -/
def mxProduct (a b : Exact) (xa xb : Nat) : Exact :=
  if xa = 255 ∨ xb = 255 then .nan
  else match a.mul b with
    | .fin neg m e _ =>
      let f : Int := e + ((xa : Int) - 127) + ((xb : Int) - 127)
      if m = 0 then .fin neg 0 0 false
      else if Exact.le (.fin false (2 ^ 25 - 1) 103 false) (.fin false m f false) then .inf neg
      else .fin neg m f false
    | x => x

/-- R52: the exact sum of a block's products; a zero sum is -0 only when every product is -0. -/
def mxSum (ps : List Exact) : Exact := ps.foldl (fun s p => s.add .rne p) (.fin true 0 0 false)

/-- R52: the accumulator after the blocks of 32 products, in order. -/
def mxAccumulate (blocks : List (List Exact)) (acc : Word) : Word :=
  blocks.foldl (fun w ps => rneF32 ((f32 w).add .rne (f32 (rneF32 (mxSum ps))))) acc

/-- The value of an integer or b1 element (R34). -/
def mxInt (t : Fmt) (x : Nat) : Int :=
  match t.int? with
  | some (n, sg) => readInt n sg x
  | none => if x % 2 = 1 then 1 else -1

/-! ## Operand reads (R191, R193) -/

/-- R43, R191: the encodings of a chunk's 64 x 64 elements, element (i, k) at 64 i + k; planes beyond `planes` read as zero. -/
def State.readPlanes (s : State) (banks : List Nat) (base width planes : Nat) : List Nat :=
  let words := (List.range planes).map fun j => (List.range 64).map fun k => s.spadNum banks (base + 512 * j + 8 * k) 8
  (List.range 64).flatMap fun i => (List.range 64).map fun k =>
    (words.zipIdx.map fun wj => bitsOf ((wj.1[k]?).getD 0) i 1 * 2 ^ (width - 1 - wj.2)).sum

/-- R193: the scale bytes of a chunk for an operand with a scale table: by row, in order of k. -/
def State.readScales (s : State) (banks : List Nat) (base k block c : Nat) : List Nat :=
  (List.range 64).flatMap fun i => (List.range (64 / block)).map fun q => s.spadNum banks (base + i * (k / block) + (64 * c) / block + q) 1

/-- The slots of an entry's MMA as its route has them (R192). -/
def Route.mmaSlot (r : Route) (n : Nat) : FSlot :=
  ((r.slots[n]?).bind fun w => readSlot w.1 w.2 (mmaFloat ++ [.cb4] ++ mmaInt)).getD
    { efmt := .f16, e8 := false, block := 16, planes := 16, round := .rne, sat := false, cbaddr := 0 }

/-- R191, R193: what pass c of an MMA reads. -/
def State.readChunk (s : State) (banks : List Nat) (r : Route) (f : XForm) (b c d e : Word) (n : Nat) : MxChunk :=
  let sa := r.mmaSlot f.slotA.toNat
  let sb := r.mmaSlot f.slotB.toNat
  { a := s.readPlanes banks (b.toNat + 512 * n * sa.efmt.width) sa.efmt.width sa.planes
    b := s.readPlanes banks (c.toNat + 512 * n * sb.efmt.width) sb.efmt.width sb.planes
    xa := if sa.e8 then s.readScales banks d.toNat (depthOf f) sa.block n else []
    xb := if sb.e8 then s.readScales banks e.toNat (depthOf f) sb.block n else [] }

/-- The scratchpad ranges pass c reads, as (offset, bytes): the blocks of both operands and the scale bytes. -/
def Route.chunkRanges (r : Route) (f : XForm) (b c d e : Word) (n : Nat) : List (Nat × Nat) :=
  let sa := r.mmaSlot f.slotA.toNat
  let sb := r.mmaSlot f.slotB.toNat
  let scales (t : FSlot) (base : Nat) : List (Nat × Nat) :=
    if t.e8 then (List.range 64).map fun i => (base + i * (depthOf f / t.block) + 64 * n / t.block, 64 / t.block) else []
  [(b.toNat + 512 * n * sa.efmt.width, 512 * sa.planes), (c.toNat + 512 * n * sb.efmt.width, 512 * sb.planes)] ++
  scales sa d.toNat ++ scales sb e.toNat

/-- R327: what a pass or step reads is checked: 64 bits of scratchpad in its ranges, and of its tile. -/
def State.checkPass (s : State) (c : Column) (e : MxEntry) (rs : List (Nat × Nat)) : State :=
  s.readEccs c.part fun w => match w with
    | .spad k => rs.any fun r => (List.range r.2).any fun i => (spadByte c.banks (r.1 + i)).map (· / 8) == some k
    | .acc k => k / 2048 == 16 * e.quad + e.tile
    | _ => false

/-- R330: the first offset of the ranges whose scratchpad word is poisoned. -/
def State.poisonedRange (s : State) (banks : List Nat) (rs : List (Nat × Nat)) : Option Nat :=
  (rs.flatMap fun r => (List.range r.2).map (· + r.1)).find? fun o => match spadByte banks o with
    | some a => s.coh.poison.contains (.word (a / 4))
    | none => false

/-! ## Passes and steps (R197) -/

/-- What a pass or step of an entry reads from scratchpad. -/
def MxEntry.reads (e : MxEntry) (r : Route) : List (Nat × Nat) :=
  match e.work with
  | .mma _ f b c d x _ => r.chunkRanges f b c d x e.chunks.length
  | .acld base stride => (List.range 64).map fun i => (base + i * stride, 256)
  | _ => []

/-- R90: the next pass or step of an entry reads or writes a row of scratchpad that a copy has claimed. -/
def State.mxRecalled (s : State) (e : MxEntry) : Bool :=
  match s.column? e.col with
  | none => false
  | some c => match s.route? c.part c.prog with
    | none => false
    | some r =>
      let rows := e.reads r ++ ((e.work.rows.map (·.1)).getD [])
      s.eng.jobs.any fun j => j.pend.any fun l => l.loc == .spad && rows.any fun g =>
        (List.range ((g.1 + g.2 + 127) / 128 - g.1 / 128)).any fun k => (spadByte c.banks (128 * (g.1 / 128 + k))).map (· / 128) == some l.line

/-- R85: an earlier ACLD or ACST of the convoy has still to read or write rows that the entry's overlap, and one of the two writes. -/
def State.transferBefore (s : State) (e : MxEntry) : Bool :=
  match e.work.rows with
  | none => false
  | some (rs, w) => (s.eng.mx.takeWhile (·.id != e.id)).any fun d => d.col == e.col && d.cv == e.cv && decide (0 < d.left) && match d.work.rows with
    | some (qs, u) => (w || u) && rs.any fun r => qs.any fun q => decide (r.1 < q.1 + q.2) && decide (q.1 < r.1 + r.2)
    | none => false

/-- R197: no entry of the quadrant posted before it holds the same tile, and engine work is left, for which nothing has to be waited
(R85, R90). -/
def State.mxEligible (s : State) (quad : Nat) (e : MxEntry) : Bool :=
  e.quad == quad && decide (0 < e.left) && !s.mxRecalled e && !s.transferBefore e &&
  !((s.eng.mx.takeWhile (·.id != e.id)).any fun d => d.quad == quad && d.tile == e.tile)

/-- R196: cycles that one pass or step of an entry keeps the engine. -/
def MxEntry.cost (e : MxEntry) (r : Route) : Nat :=
  match e.work with
  | .mma tri f .. =>
    let planes := (r.mmaSlot f.slotA.toNat).planes
    if tri then (planes * computedTiles f + 1) / 2 else 8 * planes
  | .acz => 16
  | .acld .. | .acst .. => 64
  | .acwr _ => 1
where
  /-- R202: the sub-tiles of an MMAT that are not skipped. -/
  computedTiles (f : XForm) : Nat :=
    ((List.range 16).filter fun n => decide (16 * ((n % 4 : Nat) - (n / 4 : Nat) : Int) - 15 ≤ diagOf f)).length

/-- R196: cycles of an entry's drain. -/
def MxEntry.drain (e : MxEntry) : Nat :=
  match e.work with
  | .mma .. => 32
  | _ => 0

/-- R364: the wall time of a number of the engine's cycles: in reduced service twice that at full service. -/
def State.engineTime (s : State) (cycles : Nat) : Nat := if s.fw.svc == .reduced then 2 * cycles else cycles

/-- R197: the quadrant's engine works on no pass or step. -/
def State.mxFree (s : State) (quad : Nat) : Bool := s.eng.mx.all fun e => e.quad != quad || decide (e.busy ≤ s.now)

/-- R197: the entry the free engine takes: the highest URG, then the earliest posted. -/
def State.mxPick (s : State) (quad : Nat) : Option MxEntry :=
  if !s.mxFree quad then none
  else (s.eng.mx.filter (s.mxEligible quad)).foldl (fun (o : Option MxEntry) e => match o with
    | none => some e
    | some d => some (if d.urg < e.urg then e else d)) none

/-- One entry of the reservation tables changed. -/
def State.onEntry (s : State) (id : Nat) (f : MxEntry → MxEntry) : State :=
  { s with eng := { s.eng with mx := updateWhere (·.id == id) f s.eng.mx } }

/-- R330: a stored error of an element of a tile that is written, or of 64 bits whose elements are. -/
def PoisonAt.inTile (quad tile : Nat) (elems : List Nat) : PoisonAt → Bool
  | .acc n => n / 4096 == 16 * quad + tile && elems.contains (n % 4096)
  | .weak (.acc k) | .broken (.acc k) =>
    k / 2048 == 16 * quad + tile && elems.contains (2 * k % 4096) && elems.contains (2 * k % 4096 + 1)
  | _ => false

/-- Words of a tile written: element numbers 64 i + j with their values; stored errors of the words clear (R330). -/
def State.setTile (s : State) (quad tile : Nat) (vals : List (Nat × Word)) : State :=
  { s with
    coh := { s.coh with poison := s.coh.poison.filter (!·.inTile quad tile (vals.map (·.1))) }
    store := { s.store with tiles := vals.foldl (fun m v => insertD 0 m (tileIndex quad tile 0 v.1) v.2) s.store.tiles } }

/-- A word of a tile. -/
def State.tileWord (s : State) (quad tile n : Nat) : Word := lookupD 0 s.store.tiles (tileIndex quad tile 0 n)

/-- R204: ACST's conversion of an element. -/
def acstCode (fmt : Nat) (w : Word) : Nat :=
  match fmt with
  | 0 => w.toNat
  | 1 => roundTo .bf16 .rne false (f32 w)
  | _ => roundTo .f16 .rne false (f32 w)

/-- R330: poison of a tile's elements goes with them into every scratchpad word that ACST writes a part of them to. -/
def State.storePoison (s : State) (c : Column) (e : MxEntry) (fmt base stride : Nat) : State :=
  let bad := s.coh.poison.flatMap fun p => match p with
    | .acc n => if n / 4096 = 16 * e.quad + e.tile then
        (List.range (acstBytes fmt)).filterMap fun k =>
          (spadByte c.banks (base + n % 4096 / 64 * stride + acstBytes fmt * (n % 64) + k)).map fun a => PoisonAt.word (a / 4)
      else []
    | _ => []
  { s with coh := { s.coh with poison := s.coh.poison ++ bad.dedup.filter (!s.coh.poison.contains ·) } }

/-- R204: the rows of a tile written to scratchpad. -/
def State.storeTile (s : State) (c : Column) (e : MxEntry) (fmt base stride : Nat) : State :=
  let n := acstBytes fmt
  let rows := (List.range 64).map fun i => (base + i * stride, (List.range 64).flatMap fun j =>
    bytesOf n (acstCode fmt (s.tileWord e.quad e.tile (64 * i + j))))
  (rows.foldl (fun t r => (((List.range r.2.length).filterMap fun k => spadByte c.banks (r.1 + k)).foldl
      (fun t a => t.logSpad c.id e.quad a 1) t).spadWrite c.banks r.1 r.2) s).storePoison c e fmt base stride |>.notice

/-- R204, R205: the one step of an entry that is no MMA. ACST returns its completion time, which is its arrival (R80). -/
def State.mxStep (s : State) (c : Column) (e : MxEntry) : State :=
  match e.work with
  | .mma .. => s
  | .acz => s.setTile e.quad e.tile ((List.range 4096).map fun n => (n, 0))
  | .acld base stride => s.setTile e.quad e.tile ((List.range 4096).map fun n =>
      (n, BitVec.ofNat 32 (s.spadNum c.banks (base + n / 64 * stride + 4 * (n % 64)) 4)))
  | .acst fmt base stride => (s.storeTile c e fmt base stride).onConvoy e.col e.cv fun v => { v with ctdev := max v.ctdev s.now }
  | .acwr vals => s.setTile e.quad e.tile vals

/-- R330: an MMA that adds to its tile reads a poisoned element of it. -/
def State.tilePoisoned (s : State) (e : MxEntry) : Bool :=
  (match e.work with
    | .mma _ f .. => !f.clr
    | _ => false) &&
  s.coh.poison.any fun p => match p with
    | .acc n => n / 4096 == 16 * e.quad + e.tile
    | _ => false

/-- R330: a pass or step consumes poison that it reads. -/
def State.passPoison (s : State) (c : Column) (r : Route) (e : MxEntry) : State :=
  match s.poisonedRange c.banks (e.reads r) with
  | some o => s.consume e.col e.quad (BitVec.ofNat 64 o) 1
  | none => if s.tilePoisoned e then s.consume e.col e.quad 0 1 else s

/-- One pass or step granted: its operands read, or its effect made. -/
def State.grantPass (s : State) (c : Column) (r : Route) (e : MxEntry) : State :=
  let t := (s.checkPass c e (e.reads r)).passPoison c r e
  match e.work with
  | .mma _ f b c' d x _ => t.onEntry e.id fun q =>
      { q with left := q.left - 1, busy := s.now + s.engineTime (e.cost r), recalled := false, chunks := q.chunks ++ [s.readChunk c.banks r f b c' d x q.chunks.length] }
  | _ => (t.mxStep c e).onEntry e.id fun q => { q with left := q.left - 1, busy := s.now + s.engineTime (e.cost r) }

/-- MATRIX_PASS_GRANT (R197): the free engine of a quadrant grants one pass or step to the entry it chooses. -/
def execMatrixPassGrant (quad : Nat) (s : State) : Host.Outcome State Fault Refusal :=
  match s.mxPick quad with
  | none => .next s
  | some e => match s.column? e.col with
    | none => .next s
    | some c => match s.route? c.part c.prog with
      | none => .next s
      | some r => .next (s.grantPass c r e)

/-! ## Drains (R195, R199, R202) -/

/-- A chunk's product (i, j, k) with k inside the chunk. -/
def MxChunk.product (h : MxChunk) (sa sb : FSlot) (table : List (BitVec 16)) (i j k : Nat) : Exact :=
  let na := 64 / sa.block
  let nb := 64 / sb.block
  mxProduct (slotValue sa.efmt table ((h.a[64 * i + k]?).getD 0)) (slotValue sb.efmt [] ((h.b[64 * j + k]?).getD 0))
    (if sa.e8 then (h.xa[na * i + k / sa.block]?).getD 0 else 127) (if sb.e8 then (h.xb[nb * j + k / sb.block]?).getD 0 else 127)

/-- The integer product (i, j, k) of a chunk. -/
def MxChunk.intProduct (h : MxChunk) (sa sb : FSlot) (i j k : Nat) : Int :=
  mxInt sa.efmt ((h.a[64 * i + k]?).getD 0) * mxInt sb.efmt ((h.b[64 * j + k]?).getD 0)

/-- The formats are of the integer class (R192). -/
def slotInt (t : FSlot) : Bool := mmaInt.contains t.efmt

/-- The products of an element by blocks of 32, in order of k. -/
def MxEntry.blocks (e : MxEntry) (sa sb : FSlot) (table : List (BitVec 16)) (i j : Nat) : List (List Exact) :=
  e.chunks.flatMap fun h => (List.range 2).map fun g => (List.range 32).map fun k => h.product sa sb table i j (32 * g + k)

/-- R195: T'(i, j) from its start value. -/
def MxEntry.result (e : MxEntry) (f : XForm) (sa sb : FSlot) (table : List (BitVec 16)) (start : Word) (i j : Nat) : Word :=
  if slotInt sa then
    let sum := (e.chunks.flatMap fun h => (List.range 64).map fun k => h.intProduct sa sb i j k).sum + start.toInt
    BitVec.ofInt 32 (if f.isat then clampTo (-(2 ^ 31)) (2 ^ 31 - 1) sum else sum)
  else mxAccumulate (e.blocks sa sb table i j) start

/-- R202: element (i, j) is masked. -/
def maskedElem (tri : Bool) (f : XForm) (i j : Nat) : Bool := tri && decide (diagOf f < (j : Int) - i)

/-- R202: what a masked element receives. -/
def maskWord (f : XForm) (isInt : Bool) (start : Word) : Word :=
  match bitsOf f.variant.toNat 7 2 with
  | 0 => if isInt then 0x80000000 else 0xFF800000
  | 1 => 0
  | 2 => if isInt then 0x80000001 else 0xFF7FFFFF
  | _ => start

/-- R195, R202: the tile after an MMA or MMAT, by element number. -/
def State.mmaTile (s : State) (r : Route) (e : MxEntry) (tri : Bool) (f : XForm) (table : List (BitVec 16)) : List (Nat × Word) :=
  let sa := r.mmaSlot f.slotA.toNat
  let sb := r.mmaSlot f.slotB.toNat
  (List.range 4096).map fun n =>
    let start := if f.clr then 0 else s.tileWord e.quad e.tile n
    (n, if maskedElem tri f (n / 64) (n % 64) then maskWord f (slotInt sa) start else e.result f sa sb table start (n / 64) (n % 64))

/-- R199: a row (or with `col` a column) whose products hold no NaN and no infinity is tested. -/
def MxEntry.tested (e : MxEntry) (r : Route) (tri : Bool) (f : XForm) (table : List (BitVec 16)) (col : Bool) (n : Nat) : Bool :=
  let sa := r.mmaSlot f.slotA.toNat
  let sb := r.mmaSlot f.slotB.toNat
  decide (n < 64) && (slotInt sa || (List.range 64).all fun m =>
    let i := if col then m else n
    let j := if col then n else m
    maskedElem tri f i j || (e.blocks sa sb table i j).all fun ps => ps.all fun p => match p with
      | .fin .. => true
      | _ => false)

/-- An exact sum. -/
def exactSum (xs : List Exact) : Exact := xs.foldl (·.add .rne ·) (.fin false 0 0 false)

/-- What errors in the engine added to a sum. -/
def errorAt (errors : List (Nat × Int × Int)) (n : Nat) : Exact :=
  exactSum ((errors.filter (·.1 == n)).map fun e => .fin (decide (e.2.1 < 0)) e.2.1.natAbs e.2.2 false)

/-- R199: the products of element (i, j). -/
def MxEntry.products (e : MxEntry) (sa sb : FSlot) (table : List (BitVec 16)) (i j : Nat) : List Exact :=
  if slotInt sa then e.chunks.flatMap fun h => (List.range 64).map fun k => .ofInt (h.intProduct sa sb i j k)
  else (e.blocks sa sb table i j).flatten

/-- R199: the contribution of element (i, j): the exact sum of the block values of R52, or of the integer products of R53. -/
def MxEntry.contribution (e : MxEntry) (sa sb : FSlot) (table : List (BitVec 16)) (i j : Nat) : Exact :=
  if slotInt sa then exactSum (e.products sa sb table i j)
  else exactSum ((e.blocks sa sb table i j).map fun ps => f32 (rneF32 (mxSum ps)))

/-- R199: a row (or with `col` a column) mismatches; a difference that is no number does (log 47). -/
def MxEntry.mismatches (e : MxEntry) (r : Route) (tri : Bool) (f : XForm) (table : List (BitVec 16))
    (elems sums : List (Nat × Int × Int)) (col : Bool) (n : Nat) : Bool :=
  let sa := r.mmaSlot f.slotA.toNat
  let sb := r.mmaSlot f.slotB.toNat
  let line := ((List.range 64).map fun m => if col then (m, n) else (n, m)).filter fun ij => !maskedElem tri f ij.1 ij.2
  let products := line.flatMap fun ij => e.products sa sb table ij.1 ij.2
  let sum := exactSum (line.map fun ij => (e.contribution sa sb table ij.1 ij.2).add .rne (errorAt elems (64 * ij.1 + ij.2)))
  let check := (exactSum products).add .rne (errorAt sums ((if col then 64 else 0) + n))
  e.tested r tri f table col n && match sum.add .rne check.negate with
    | .fin neg m x more =>
      if slotInt sa then m * 2 ^ x.toNat % 2 ^ 32 != 0
      else !Exact.le (Exact.fin neg m x more).abs ((exactSum (products.map Exact.abs)).scale (-16))
    | _ => true

/-- R207: a correction counted: COUNT saturates, and the last-correction word; R334: its black-box event. -/
def State.countCorrection (s : State) (part quad tile row col : Nat) (ckonly : Bool) : State :=
  let n := (s.cksum quad 0).toNat
  let w := 2 ^ 31 + (if ckonly then 2 ^ 30 else 0) + tile * 2 ^ 16 + row * 2 ^ 8 + col
  ((s.setCksum quad 0 (BitVec.ofNat 32 (min (n + 1) (2 ^ 32 - 1)))).setCksum quad 1 (BitVec.ofNat 32 w)).blackBox 6 part 3 0
    (2 * Config.correctionDetail tile row col + (if ckonly then 1 else 0))

/-- The signers' counters after a drain that wrote (R198). -/
def State.releaseSigners (s : State) (e : MxEntry) : State :=
  e.signers.foldl (fun t g => t.onConvoy e.col g.1 fun v => { v with tileOps := v.tileOps - 1 }) s

/-- R199: the fault left for each signer's next clause boundary; its counter falls when the fault is delivered. -/
def State.checksumFaults (s : State) (e : MxEntry) : State :=
  e.signers.foldl (fun t g => t.onConvoy e.col g.1 fun v =>
    if v.ended then { v with tileOps := v.tileOps - 1 }
    else { v with boundary := v.boundary ++ [(cChecksum, BitVec.setWidth 64 g.2)] }) s

/-- R196: an entry freed. The drain of the next entry of its tile begins now where its passes are over, or it has none. -/
def State.freeEntry (s : State) (id : Nat) : State :=
  let mx := s.eng.mx.filter (·.id != id)
  let next := (s.eng.mx.find? (·.id == id)).bind fun e => mx.find? fun d => d.quad == e.quad && d.tile == e.tile
  { s with eng := { s.eng with
      mx := updateWhere (fun d => some d.id == next.map (·.id) && d.left == 0) (fun d => { d with busy := max d.busy s.now }) mx } }

/-- R199: the drain of an MMA or MMAT with its mismatching rows and columns. -/
def State.drainMma (s : State) (c : Column) (r : Route) (e : MxEntry) (tri : Bool) (f : XForm) (table : List (BitVec 16))
    (rows cols : List Nat) : State :=
  let write (t : State) : State := ((t.setTile e.quad e.tile (t.mmaTile r e tri f table)).releaseSigners e).freeEntry e.id
  match rows, cols with
  | [], [] => write s
  | [i], [j] => (write s).countCorrection c.part e.quad e.tile i j false
  | [_], [] | [], [_] => (write s).countCorrection c.part e.quad e.tile 0 0 true
  | _, _ => (s.checksumFaults e).freeEntry e.id

/-- MATRIX_DRAIN (R196, R199): an entry whose passes are done has drained; `elems` and `sums` are what errors in the engine
added. -/
def execMatrixDrain (quad entry : Nat) (elems sums : List (Nat × Int × Int)) (s : State) : Host.Outcome State Fault Refusal :=
  match s.eng.mx.find? fun e => e.id == entry && e.quad == quad with
  | none => .next s
  | some e =>
    let first := !((s.eng.mx.takeWhile (·.id != e.id)).any fun d => d.quad == quad && d.tile == e.tile)
    if e.left ≠ 0 ∨ !first ∨ s.now < e.busy + s.engineTime e.drain then .next s
    else match s.column? e.col with
      | none => .next (s.freeEntry e.id)
      | some c => match s.route? c.part c.prog with
        | none => .next (s.freeEntry e.id)
        | some r => match e.work with
          | .mma tri f _ _ _ _ table =>
            .next (s.drainMma c r e tri f table ((List.range 64).filter (e.mismatches r tri f table elems sums false))
              ((List.range 64).filter (e.mismatches r tri f table elems sums true))).completeRounds
          | _ => .next ((s.releaseSigners e).freeEntry e.id).completeRounds

end Sys2Proof.Machine
end

