-- ==== Sys2Proof/Machine/FloatOps.lean ====
section
/-!
DEFINITION. Floating instructions (R146 to R153).
-/

namespace Sys2Proof.Machine

/-- FADD (R148). -/
def execFadd (f : RForm) (s : State) : Host.Outcome State Fault Refusal :=
  issueAlu (.fadd f) f.h f.a 1 [(f.b, 1), (f.c, 1)] (faddAlu f) s

/-- FSUB (R148). -/
def execFsub (f : RForm) (s : State) : Host.Outcome State Fault Refusal :=
  issueAlu (.fsub f) f.h f.a 1 [(f.b, 1), (f.c, 1)] (fsubAlu f) s

/-- FMUL (R148). -/
def execFmul (f : RForm) (s : State) : Host.Outcome State Fault Refusal :=
  issueAlu (.fmul f) f.h f.a 1 [(f.b, 1), (f.c, 1)] (fmulAlu f) s

/-- FSCALE (R148). -/
def execFscale (f : RForm) (s : State) : Host.Outcome State Fault Refusal :=
  issueAlu (.fscale f) f.h f.a 1 [(f.b, 1), (f.c, 1)] (fscaleAlu f) s

/-- FFMA (R148). -/
def execFfma (f : RForm) (s : State) : Host.Outcome State Fault Refusal :=
  issueAlu (.ffma f) f.h f.a 1 [(f.b, 1), (f.c, 1), (f.d, 1)] (ffmaAlu f) s

/-- FMIN (R148). -/
def execFmin (f : RForm) (s : State) : Host.Outcome State Fault Refusal :=
  issueAlu (.fmin f) f.h f.a 1 [(f.b, 1), (f.c, 1)] fminAlu s

/-- FMAX (R148). -/
def execFmax (f : RForm) (s : State) : Host.Outcome State Fault Refusal :=
  issueAlu (.fmax f) f.h f.a 1 [(f.b, 1), (f.c, 1)] fmaxAlu s

/-- FABS (R148). -/
def execFabs (f : RForm) (s : State) : Host.Outcome State Fault Refusal :=
  issueAlu (.fabs f) f.h f.a 1 [(f.b, 1)] fabsAlu s

/-- FNEG (R148). -/
def execFneg (f : RForm) (s : State) : Host.Outcome State Fault Refusal :=
  issueAlu (.fneg f) f.h f.a 1 [(f.b, 1)] fnegAlu s

/-- FRCP (R148). -/
def execFrcp (f : RForm) (s : State) : Host.Outcome State Fault Refusal :=
  issueAlu (.frcp f) f.h f.a 1 [(f.b, 1)] (frcpAlu f) s

/-- FSQRT (R148). -/
def execFsqrt (f : RForm) (s : State) : Host.Outcome State Fault Refusal :=
  issueAlu (.fsqrt f) f.h f.a 1 [(f.b, 1)] (fsqrtAlu f) s

/-- FRSQ (R149). -/
def execFrsq (f : RForm) (s : State) : Host.Outcome State Fault Refusal :=
  issueAlu (.frsq f) f.h f.a 1 [(f.b, 1)] frsqAlu s

/-- FCMP (R150, R161). -/
def execFcmp (f : RForm) (s : State) : Host.Outcome State Fault Refusal :=
  issuePred (.fcmp f) f.h f.a (fun x l => Machine.fcmp f.subop.toNat (x.read l f.b) (x.read l f.c)) s

/-- FCLASS (R151). -/
def execFclass (f : RForm) (s : State) : Host.Outcome State Fault Refusal :=
  issueAlu (.fclass f) f.h f.a 1 [(f.b, 1)] (fclassAlu f) s

/-- FEXPN (R152). -/
def execFexpn (f : RForm) (s : State) : Host.Outcome State Fault Refusal :=
  issueAlu (.fexpn f) f.h f.a 1 [(f.b, 1)] (fexpnAlu f) s

/-- HADD2 (R153). -/
def execHadd2 (f : RForm) (s : State) : Host.Outcome State Fault Refusal :=
  issueAlu (.hadd2 f) f.h f.a 1 [(f.b, 1), (f.c, 1)] (hadd2Alu f) s

/-- HMUL2 (R153). -/
def execHmul2 (f : RForm) (s : State) : Host.Outcome State Fault Refusal :=
  issueAlu (.hmul2 f) f.h f.a 1 [(f.b, 1), (f.c, 1)] (hmul2Alu f) s

/-- HFMA2 (R153). -/
def execHfma2 (f : RForm) (s : State) : Host.Outcome State Fault Refusal :=
  issueAlu (.hfma2 f) f.h f.a 1 [(f.b, 1), (f.c, 1), (f.d, 1)] (hfma2Alu f) s


end Sys2Proof.Machine
end

