-- ==== Sys2Proof/Machine/Integer.lean ====
section
/-!
DEFINITION. Integer and address instructions (R122 to R130).
-/

namespace Sys2Proof.Machine

/-- IADD (R124). -/
def execIadd (f : RForm) (s : State) : Host.Outcome State Fault Refusal :=
  issueAlu (.iadd f) f.h f.a 1 [(f.b, 1), (f.c, 1)] (addAlu f) s

/-- ISUB (R124). -/
def execIsub (f : RForm) (s : State) : Host.Outcome State Fault Refusal :=
  issueAlu (.isub f) f.h f.a 1 [(f.b, 1), (f.c, 1)] (subAlu f) s

/-- IMUL (R124). -/
def execImul (f : RForm) (s : State) : Host.Outcome State Fault Refusal :=
  issueAlu (.imul f) f.h f.a 1 [(f.b, 1), (f.c, 1)] (mulAlu f) s

/-- IMULH (R124). -/
def execImulh (f : RForm) (s : State) : Host.Outcome State Fault Refusal :=
  issueAlu (.imulh f) f.h f.a 1 [(f.b, 1), (f.c, 1)] (mulhAlu f) s

/-- IMAD (R124). -/
def execImad (f : RForm) (s : State) : Host.Outcome State Fault Refusal :=
  issueAlu (.imad f) f.h f.a 1 [(f.b, 1), (f.c, 1), (f.d, 1)] (madAlu f) s

/-- IADDX (R126). -/
def execIaddx (f : RForm) (s : State) : Host.Outcome State Fault Refusal :=
  issueAlu (.iaddx f) f.h f.a 2 [(f.b, 2), (f.c, 2)] (addAlu f) s

/-- ISUBX (R126). -/
def execIsubx (f : RForm) (s : State) : Host.Outcome State Fault Refusal :=
  issueAlu (.isubx f) f.h f.a 2 [(f.b, 2), (f.c, 2)] (subAlu f) s

/-- IMADX (R126). -/
def execImadx (f : RForm) (s : State) : Host.Outcome State Fault Refusal :=
  issueAlu (.imadx f) f.h f.a 2 [(f.b, 1), (f.c, 1), (f.d, 2)] (madxAlu f) s

/-- LEA (R127). -/
def execLea (f : MForm) (s : State) : Host.Outcome State Fault Refusal :=
  issueAlu (.lea f) f.h f.a f.baseRegs [(f.b, f.baseRegs), (f.c, 1)] (leaAlu f) s

/-- IMIN (R124). -/
def execImin (f : RForm) (s : State) : Host.Outcome State Fault Refusal :=
  issueAlu (.imin f) f.h f.a 1 [(f.b, 1), (f.c, 1)] (minAlu f) s

/-- IMAX (R124). -/
def execImax (f : RForm) (s : State) : Host.Outcome State Fault Refusal :=
  issueAlu (.imax f) f.h f.a 1 [(f.b, 1), (f.c, 1)] (maxAlu f) s

/-- IABS (R124). -/
def execIabs (f : RForm) (s : State) : Host.Outcome State Fault Refusal :=
  issueAlu (.iabs f) f.h f.a 1 [(f.b, 1)] (absAlu f) s

/-- INEG (R124). -/
def execIneg (f : RForm) (s : State) : Host.Outcome State Fault Refusal :=
  issueAlu (.ineg f) f.h f.a 1 [(f.b, 1)] (negAlu f) s

/-- IDIV (R125). -/
def execIdiv (f : RForm) (s : State) : Host.Outcome State Fault Refusal :=
  issueAlu (.idiv f) f.h f.a 1 [(f.b, 1), (f.c, 1)] (divAlu f) s

/-- IREM (R125). -/
def execIrem (f : RForm) (s : State) : Host.Outcome State Fault Refusal :=
  issueAlu (.irem f) f.h f.a 1 [(f.b, 1), (f.c, 1)] (remAlu f) s

/-- SADD (R124). -/
def execSadd (f : RForm) (s : State) : Host.Outcome State Fault Refusal :=
  issueAlu (.sadd f) f.h f.a 1 [(f.b, 1), (f.c, 1)] (saddAlu f) s

/-- SSUB (R124). -/
def execSsub (f : RForm) (s : State) : Host.Outcome State Fault Refusal :=
  issueAlu (.ssub f) f.h f.a 1 [(f.b, 1), (f.c, 1)] (ssubAlu f) s

/-- IDP4 (R128). -/
def execIdp4 (f : RForm) (s : State) : Host.Outcome State Fault Refusal :=
  issueAlu (.idp4 f) f.h f.a 1 [(f.b, 1), (f.c, 1), (f.d, 1)] (dotAlu f 8) s

/-- IDP8 (R128). -/
def execIdp8 (f : RForm) (s : State) : Host.Outcome State Fault Refusal :=
  issueAlu (.idp8 f) f.h f.a 1 [(f.b, 1), (f.c, 1), (f.d, 1)] (dotAlu f 4) s

/-- IDP2 (R128). -/
def execIdp2 (f : RForm) (s : State) : Host.Outcome State Fault Refusal :=
  issueAlu (.idp2 f) f.h f.a 1 [(f.b, 1), (f.c, 1), (f.d, 1)] (dotAlu f 16) s

/-- MOV (R129). -/
def execMov (f : RForm) (s : State) : Host.Outcome State Fault Refusal :=
  issueAlu (.mov f) f.h f.a f.ty.regs [(f.b, f.ty.regs)] (movAlu (f.ty == .i64)) s

/-- MOVI (R129). -/
def execMovi (f : IForm) (s : State) : Host.Outcome State Fault Refusal :=
  issueAlu (.movi f) f.h f.a 1 [] (immAlu f.imm) s

/-- MOVH (R129). -/
def execMovh (f : IForm) (s : State) : Host.Outcome State Fault Refusal :=
  issueAlu (.movh f) f.h f.a 2 [(f.b, 1)] (movhAlu f.imm) s

/-- SEL (R130, R137): B where the predicate D is true, C where it is false; undecided, the hull of both. -/
def execSel (f : RForm) (s : State) : Host.Outcome State Fault Refusal :=
  issue (.sel f) f.h (fun x t => x.retire t f.a f.ty.regs (.bits (f.ty == .i64) true) fun l =>
    let p : Option Bool := match x.readPred l f.d with
      | .yes => some true
      | .no => some false
      | .und => none
    selValue (f.ty == .i64) p (x.read l f.b f.ty.regs) (x.read l f.c f.ty.regs)) s

end Sys2Proof.Machine
end

