-- ==== Sys2Proof/Machine/Rings.lean ====
section
/-!
DEFINITION. The host and peer copy rings (R311), and the shards of a causeway copy (R362).
-/

namespace Sys2Proof.Machine

/-! ## Copy rings (R311) -/

/-- R311, R357: where a partition's host or peer copy ring lies. -/
def Partition.copyRing (p : Partition) (peer : Bool) : Nat := p.dsrpa + if peer then 0x490000 else 0x470000

/-- R311: what byte 0x3F of slot k holds once the packet is there. -/
def ringMark (k : Nat) : Nat := k / 1024 % 255 + 1

/-- R174, R311: a packet of a ring that is discarded: an entry with ACCESS bit 4 in the partition's fault queue. -/
def State.dropPacket (s : State) (part : Nat) (code : BitVec 16) (addr access : Nat) : State :=
  s.faultEntry part { code, access := accessOf code (16 + access), service := 0, addr := BitVec.ofNat 64 addr, route := 0xFFFF,
                      quad := 0xFFFF, colid := 0xFFFFFFFF }

/-- The context of a ring's packets and the lease of their reads, which the manual does not give (log 21). -/
def State.ringContext (s : State) (part : Nat) : Option Nat × Nat × State :=
  let cs := s.obj.ctxs.filter (·.part == part)
  let a := s.free
  let b := a.2.free
  ((cs[a.1 % cs.length]?).map (·.slot), b.1 % 16385, b.2)

/-- R175, R311: a packet taken from a ring: probed as at an issue, with no scratchpad of its own. -/
def State.takePacket (s : State) (part : Nat) (peer : Bool) (p : Packet) : State :=
  if p.flag 2 then s.dropPacket part cProtection p.src.toNat 0
  else if p.bad then s.dropPacket part cOperand p.src.toNat 0
  else
    let r := s.ringContext part
    match r.1 with
    | none => r.2.2.dropPacket part cTranslation p.src.toNat 1
    | some ctx =>
      let side (scratch : Bool) : Side := { via := ⟨coreOf 0xFFFF, none⟩, part, ctx, epoch := none, scratch, banks := [] }
      match r.2.2.probeRows (side (p.flag 0)) .read p.srcRows with
      | .error e => r.2.2.dropPacket part e.1 e.2.toNat 1
      | .ok u => match u.probeRows (side (p.flag 1)) .write p.dstRows with
        | .error e => u.dropPacket part e.1 e.2.toNat 2
        | .ok w =>
          let src := w.sideLines (side (p.flag 0)) .read p.srcRows
          let dst := w.sideLines (side (p.flag 1)) .write p.dstRows
          let j := p.job w.nextId (.ring peer) part 0 ctx none 0xFFFF 0xFFFFFFFF 0xFFFF r.2.1 w.now [] dst src (p.shards src dst)
            (src.any (·.isPeer))
          if p.empty then w.finishCopy j
          else { w with nextId := w.nextId + 1, eng := { w.eng with jobs := w.eng.jobs ++ [j] } }

/-- COPY_RING_TAKE (R311): the packet in the slot that RIDX names, once its byte 0x3F says that it is whole. -/
def execCopyRingTake (part : Nat) (peer : Bool) (s : State) : Host.Outcome State Fault Refusal :=
  match s.part? part with
  | none => .next s
  | some p =>
    let base := p.copyRing peer
    let k := s.devNum (base + 8) 8
    let slot := base + 64 + 64 * (k % 1024)
    if s.devNum (slot + 0x3F) 1 ≠ ringMark k then .next s
    else
      let s := s.checkBytes part .dev slot 64
      if s.coh.poison.contains (.sector (lineOf slot)) then .next ((s.dropPacket part cUncorrectable 0 1).devWriteNum (base + 8) 8 (k + 1))
      else .next ((s.takePacket part peer (Packet.of (s.devNum slot 64) true)).devWriteNum (base + 8) 8 (k + 1))

/-! ## Shards (R362) -/

/-- R362: the destination address of payload byte `n`; of a plane copy the lowest byte made from it. -/
def Packet.landing (p : Packet) (n : Nat) : Nat :=
  if p.op = 2 then
    let from_ := p.payload n
    (((List.range (8 * p.len * p.width)).map (p.dst.toNat + ·)).find? fun a => (p.needs a).any fun b => some b == from_).getD p.dst.toNat
  else ((p.dstRows[n / p.len]?).map fun r => (r.1 + ((n % p.len : Nat) : Int)).toNat).getD p.dst.toNat

/-- R362: the lowest shard not accepted. -/
def CopyJob.missing (j : CopyJob) : Option Nat := (List.range j.shards).find? fun i => !j.accepted.contains i

/-- R362: a shard decides the copy as failed; the address is the first destination byte of the shard. -/
def State.failShard (s : State) (j : CopyJob) (code : BitVec 16) (i : Nat) : State :=
  s.failCopy j code (j.packet.landing (4096 * i)) 2

/-- R90, R362: the lines whose shards are in, written where they can be. -/
def State.landLines (s : State) (id : Nat) (ls : List CopyLine) : State :=
  ls.foldl (fun t l => match t.job? id with
    | some j => match t.grantLine j l with
      | .ok u => u
      | .error _ => t
    | none => t) s

/-- R360, R362: the causeways that carry a shard of a copy: those of its source where that is a peer's, else those of its destination. -/
def State.shardPeers (s : State) (j : CopyJob) (i : Nat) : List Nat :=
  let addrs := j.packet.shardBytes i
  let lines := if j.fromPeer then j.toRead.filter fun l => addrs.any fun a => decide (l.va ≤ a) && decide (a < l.va + (s.srcSide j).unit)
    else j.pend.filter fun l => (List.range (s.dstSide j).unit).any fun k => (j.packet.needs (l.va + k)).any addrs.contains
  lines.filterMap fun l => match l.loc with
    | .peer k => some k
    | _ => none

/-- R362: wall time has reached the bound of a copy that has one. -/
def State.shardLate (s : State) (j : CopyJob) : Bool := j.tmo != 0 && decide (j.issued + 1000 * j.tmo ≤ s.now)

/-- R344: the bytes that a shard from a peer carried. -/
def State.meterShard (s : State) (j : CopyJob) (data : List Byte) : State :=
  match j.src with
  | .cv _ col _ => if j.fromPeer then s.meterCol col 4 data.length else s
  | .ring _ => s

/-- SHARD_ARRIVAL (R362): shard `shard` of a copy from a peer arrives with its bytes and its CRC-32C, or a peer's acknowledgement tells
of one; a shard judged before is discarded. One that comes when the copy's bound has passed is missing. -/
def execShardArrival (job shard : Nat) (data : List Byte) (crc : Word) (s : State) : Host.Outcome State Fault Refusal :=
  match s.job? job with
  | none => .next s
  | some j =>
    if decide (j.shards ≤ shard) || j.accepted.contains shard || !s.mayBegin j then .next s
    else
      let addrs := j.packet.shardBytes shard
      let s := (s.acked (s.shardPeers j shard)).meterShard j data
      if s.shardLate j then .next (s.failShard j cShardMissing (j.missing.getD shard))
      else if crc32c data ≠ crc.toNat ∨ data.length ≠ addrs.length then .next (s.failShard j cShardCorrupt shard)
      else
        let got := if j.fromPeer then (addrs.zip data).foldl (fun m ab => Memory.write m ab.1 ab.2) j.got else j.got
        let t := { s with eng := { s.eng with
          jobs := updateWhere (fun k => k.id == job) (fun k => { k with begun := true, got, accepted := k.accepted ++ [shard] }) s.eng.jobs } }
        .next (t.landLines job j.pend)

/-- SHARD_TIMEOUT (R362). -/
def execShardTimeout (job : Nat) (s : State) : Host.Outcome State Fault Refusal :=
  match s.job? job with
  | none => .next s
  | some j => match j.missing with
    | some i => if s.shardLate j then .next (s.failShard j cShardMissing i) else .next s
    | none => .next s

end Sys2Proof.Machine
end

