-- ==== Sys2Proof/Machine/Links.lean ====
section
/-!
DEFINITION. Causeways going down and coming up (R360, R361), and the accesses of peer modules to this one (R83).
-/

namespace Sys2Proof.Machine

/-- A causeway; one that was never up is down. -/
def State.link (s : State) (n : Nat) : Link := (s.fw.links.find? (·.n == n)).getD { n, up := false, lastAck := 0, retryAt := 0 }

/-- A causeway's state replaced. -/
def State.setLink (s : State) (l : Link) : State := { s with fw := { s.fw with links := upsert (·.n == l.n) l s.fw.links } }

/-- R361: the black-box event of a change; LINKUP shows the state itself. -/
def State.linkEvent (s : State) (n : Nat) (up : Bool) : State := (s.blackBox 0x0B 0xFF 6 0 (n + if up then 256 else 0)).sendMsix 0 1

/-- R360: the address of an access of a peer by an operation that waits for the peer. -/
def Op.peerAt (o : Op) (link : Nat) : Option Nat :=
  match o.pieces.find? (·.loc == .peer link) with
  | some p => some p.va
  | none => if o.peers.contains link then (o.aux.lookup (64 + link)).map (·.1) else none

/-- R360: the columns with an access unacknowledged on a causeway, each with the quadrant and the peer address. -/
def State.strandedColumns (s : State) (link : Nat) : List (Nat × Nat × Nat) :=
  s.ops.filterMap fun o => (o.peerAt link).map fun a => (o.col, o.quad, a)

/-- R361: an operation whose accesses of a causeway that went down are given up: they are never performed. -/
def Op.severed (o : Op) (link : Nat) : Op :=
  { o with pieces := o.pieces.filter (·.loc != .peer link), aux := o.aux.filter (·.1 != 64 + link) }

/-- R361: the accesses of a column on a causeway that went down given up; a load that had no other is over. -/
def State.sever (s : State) (link col : Nat) : State :=
  let mine (o : Op) : Bool := o.col == col && (o.peerAt link).isSome
  (s.ops.filter mine).foldl (fun t o =>
    let q := o.severed link
    match q.pieces, o.kind with
    | [], .load .. | [], .codebook _ => (t.dropOp o.id).onIssuer o fun v => { v with loads := v.loads - 1 }
    | _, _ => t.onOp o.id fun _ => q) s

/-- R360, R361: a column killed with UNCORRECTABLE_DATA; what it had under way on the causeway is not retried. -/
def State.strand (s : State) (link : Nat) (x : Nat × Nat × Nat) : State :=
  match s.column? x.1 with
  | some c => (if c.dying then s else (s.report c x.2.1 cUncorrectable (BitVec.ofNat 64 x.2.2) 1 0).kill x.1).sever link x.1
  | none => s

/-- R362: a copy without a timeout misses a shard that this causeway carries: its lowest missing shard. -/
def State.losesShard (s : State) (link : Nat) (j : CopyJob) : Option Nat :=
  if j.tmo = 0 ∧ ((List.range j.shards).any fun i => !j.accepted.contains i && (s.shardPeers j i).contains link) = true then j.missing
  else none

/-- LINK_DOWN (R360 to R362). -/
def execLinkDown (link : Nat) (s : State) : Host.Outcome State Fault Refusal :=
  let l := s.link link
  if !l.up || decide (s.now < l.lastAck + 1000000) then .next s
  else
    let t := (s.setLink { l with up := false, retryAt := s.now + 10000000 }).linkEvent link false
    let t := (t.strandedColumns link).foldl (State.strand · link) t
    .next (t.eng.jobs.foldl (fun u j => match u.losesShard link j with
      | some i => u.failShard j cShardMissing i
      | none => u) t)

/-- LINK_RETRAIN (R361): every 10 ms while the causeway is down. -/
def execLinkRetrain (link : Nat) (s : State) : Host.Outcome State Fault Refusal :=
  let l := s.link link
  if l.up || decide (s.now < l.retryAt) || decide (18 ≤ link) then .next s
  else .next (s.setLink { l with retryAt := s.now + 10000000 })

/-- LINK_UP (R361): training succeeds and the peer answers. -/
def execLinkUp (link : Nat) (s : State) : Host.Outcome State Fault Refusal :=
  let l := s.link link
  if l.up || decide (18 ≤ link) then .next s
  else .next ((s.setLink { l with up := true, lastAck := s.now }).linkEvent link true)

/-! ## Accesses of a peer (R83) -/

/-- R340: a range that the carve-out keeps from a peer, or poison that it would return. -/
def State.peerRefused (s : State) (pa n : Nat) (read : Bool) : Bool :=
  (List.range n).any fun i => s.inCarveOut (pa + i) || (read && s.coh.poison.contains (.sector (lineOf (pa + i))))

/-- PEER_ACCESS_REQUEST (R83, R84): the access is performed at the home slice under R80. The reply of a load is its data; of a store
the time at which the report leaves, that is its completion time; of an atomic the old value and that time. Nothing answers what the
carve-out or poison refuses (log 22). -/
def execPeerAccessRequest (link : Nat) (access : PeerAccess) (s : State) : Host.Outcome State Fault Refusal :=
  if !s.linkUp link then .next s
  else match access with
    | .load pa n =>
      let t := s.checkBytes 0xFF .dev pa n
      .next { t with reply := if t.peerRefused pa n true then [] else t.peekBytes .dev pa n }
    | .store pa data =>
      if s.peerRefused pa data.length false then .next { s with reply := [] }
      else
        let r := s.poke none .dev pa data
        .next { r.1 with reply := bytesOf 8 r.2 }
    | .atomic kind ty pa size a b =>
      let t := s.checkBytes 0xFF .dev pa size
      if t.peerRefused pa size true then .next { t with reply := [] }
      else
        let old := numberOf (t.peekBytes .dev pa size)
        let r := t.poke none .dev pa (bytesOf size (atomicNew kind ty (8 * size) old a.toNat b.toNat))
        .next { r.1 with reply := bytesOf size old ++ bytesOf 8 r.2 }

end Sys2Proof.Machine
end

