-- ==== Sys2Proof/Machine/Logic.lean ====
section
/-!
DEFINITION. Logic, shift, bit-field, compare and predicate instructions (R131 to R137).
-/

namespace Sys2Proof.Machine

/-- AND (R131). -/
def execBand (f : RForm) (s : State) : Host.Outcome State Fault Refusal :=
  issueAlu (.band f) f.h f.a f.ty.regs [(f.b, f.ty.regs), (f.c, f.ty.regs)] (logicAlu f.ty (· &&& ·)) s

/-- OR (R131). -/
def execBor (f : RForm) (s : State) : Host.Outcome State Fault Refusal :=
  issueAlu (.bor f) f.h f.a f.ty.regs [(f.b, f.ty.regs), (f.c, f.ty.regs)] (logicAlu f.ty (· ||| ·)) s

/-- XOR (R131). -/
def execBxor (f : RForm) (s : State) : Host.Outcome State Fault Refusal :=
  issueAlu (.bxor f) f.h f.a f.ty.regs [(f.b, f.ty.regs), (f.c, f.ty.regs)] (logicAlu f.ty (· ^^^ ·)) s

/-- ANDN (R131). -/
def execBandn (f : RForm) (s : State) : Host.Outcome State Fault Refusal :=
  issueAlu (.bandn f) f.h f.a f.ty.regs [(f.b, f.ty.regs), (f.c, f.ty.regs)] (logicAlu f.ty (fun x y => x &&& notBits f.ty y)) s

/-- NOT (R131). -/
def execBnot (f : RForm) (s : State) : Host.Outcome State Fault Refusal :=
  issueAlu (.bnot f) f.h f.a f.ty.regs [(f.b, f.ty.regs)] (logicAlu f.ty fun x _ => notBits f.ty x) s

/-- SHL (R132). -/
def execShl (f : RForm) (s : State) : Host.Outcome State Fault Refusal :=
  issueAlu (.shl f) f.h f.a 1 [(f.b, 1), (f.c, 1)] (shlAlu f) s

/-- SHR (R132). -/
def execShr (f : RForm) (s : State) : Host.Outcome State Fault Refusal :=
  issueAlu (.shr f) f.h f.a 1 [(f.b, 1), (f.c, 1)] (shrAlu f false) s

/-- SAR (R132). -/
def execSar (f : RForm) (s : State) : Host.Outcome State Fault Refusal :=
  issueAlu (.sar f) f.h f.a 1 [(f.b, 1), (f.c, 1)] (shrAlu f true) s

/-- ROT (R132). -/
def execRot (f : RForm) (s : State) : Host.Outcome State Fault Refusal :=
  issueAlu (.rot f) f.h f.a 1 [(f.b, 1), (f.c, 1)] (rotAlu f) s

/-- BFX (R133). -/
def execBfx (f : RForm) (s : State) : Host.Outcome State Fault Refusal :=
  issueAlu (.bfx f) f.h f.a 1 [(f.b, 1), (f.c, 1), (f.d, 1)] (bfxAlu f) s

/-- BFI (R133). -/
def execBfi (f : RForm) (s : State) : Host.Outcome State Fault Refusal :=
  issueAlu (.bfi f) f.h f.a 1 [(f.b, 1), (f.c, 1), (f.d, 1), (f.e, 1)] bfiAlu s

/-- POPC (R134). -/
def execPopc (f : RForm) (s : State) : Host.Outcome State Fault Refusal :=
  issueAlu (.popc f) f.h f.a 1 [(f.b, 1)] (countAlu (popCount 32)) s

/-- CLZ (R134). -/
def execClz (f : RForm) (s : State) : Host.Outcome State Fault Refusal :=
  issueAlu (.clz f) f.h f.a 1 [(f.b, 1)] (countAlu leadingZeros) s

/-- BREV (R134). -/
def execBrev (f : RForm) (s : State) : Host.Outcome State Fault Refusal :=
  issueAlu (.brev f) f.h f.a 1 [(f.b, 1)] brevAlu s

/-- ICMP (R135, R137). -/
def execIcmp (f : RForm) (s : State) : Host.Outcome State Fault Refusal :=
  issuePred (.icmp f) f.h f.a (fun x l => Machine.icmp f.subop.toNat f.ty.order (x.read l f.b f.ty.regs) (x.read l f.c f.ty.regs)) s

/-- PAND (R136, R137). -/
def execPand (f : RForm) (s : State) : Host.Outcome State Fault Refusal :=
  issuePred (.pand f) f.h f.a (fun x l => (x.readPred l f.b).and (x.readPred l f.c)) s

/-- POR (R136, R137). -/
def execPor (f : RForm) (s : State) : Host.Outcome State Fault Refusal :=
  issuePred (.por f) f.h f.a (fun x l => (x.readPred l f.b).or (x.readPred l f.c)) s

/-- PXOR (R136, R137). -/
def execPxor (f : RForm) (s : State) : Host.Outcome State Fault Refusal :=
  issuePred (.pxor f) f.h f.a (fun x l => (x.readPred l f.b).xor (x.readPred l f.c)) s

/-- PNOT (R136, R137). -/
def execPnot (f : RForm) (s : State) : Host.Outcome State Fault Refusal :=
  issuePred (.pnot f) f.h f.a (fun x l => (x.readPred l f.b).not) s

/-- PSET (R136, R137). -/
def execPset (f : RForm) (s : State) : Host.Outcome State Fault Refusal :=
  issuePred (.pset f) f.h f.a (fun x l => Machine.pset (x.read l f.b)) s


end Sys2Proof.Machine
end

