-- ==== Sys2Proof/Machine/Reconcile.lean ====
section
/-!
DEFINITION. Which step of a function starts next (R293, R294), what a start does (R295 to R298, R338), and how a step in DRAINING ends
(R297, R298, R325, R333).
-/

namespace Sys2Proof.Machine

/-! ## Order (R293, R294) -/

/-- The version of a record that waits for its step to start. -/
def Rec.pending (r : Rec) : Option Version := if r.inFlight then none else (r.waiting.head?).map (·.1)

/-- R293: a dependency is converged and present. -/
def Rec.ready (r : Rec) : Bool := r.present && r.converged != 0 && (r.st == .converged || r.st == .failed)

/-- R293: a dependency is desired present, or in flight. -/
def Rec.hoped (r : Rec) : Bool := r.inFlight || (((r.waiting.getLast?).map (·.1)) <|> r.acc).any Version.wants

/-- R294: the place of a pending version in the order, by kind; PARTITION records go by PNUM. -/
def Version.rank (v : Version) : Nat :=
  match v.kind, v.wants with
  | 1, _ => v.num 0 1
  | 6, false => 0
  | 5, false => 1
  | 4, false => 2
  | 3, false => 3
  | 2, false => 4
  | 2, true => 5
  | 3, true => 6
  | 4, true => 7
  | 5, true => 8
  | 6, true => 9
  | _, _ => 10

/-- R294: two records in flight never depend on each other. -/
def State.clear (s : State) (r : Rec) (v : Version) : Bool :=
  !(s.recs.any fun f => f.fn == r.fn && f.inFlight && (f.dependsOn r.slot || v.deps.contains f.slot))

/-- R363: in reduced service a PARTITION converges only when its memory ends by 3 GiB. -/
def State.serves (s : State) (v : Version) : Bool :=
  v.kind != 1 || !v.wants || s.fw.svc == .full || decide (v.num 8 8 + v.num 0x10 8 ≤ 3 * 2 ^ 30)

/-- R293: a pending version may start. -/
def State.eligible (s : State) (r : Rec) (v : Version) : Bool :=
  s.clear r v && s.serves v &&
  if v.wants then v.deps.all fun d => (s.recOf r.fn d).ready
  else !(s.recs.any fun f => f.fn == r.fn && f.dependsOn r.slot)

/-- R293: some dependency is neither desired present nor in flight. -/
def State.blockedOn (s : State) (r : Rec) (v : Version) : Bool :=
  v.wants && v.deps.any fun d => let y := s.recOf r.fn d; !y.ready && !y.hoped

/-- R293: milestone BLOCKED, once. -/
def State.writeBlocked (s : State) (fn : Nat) : State :=
  s.recs.foldl (fun t r0 =>
    let r := t.recOf r0.fn r0.slot
    match r.pending with
    | some v => if r.fn == fn && !r.blocked && t.blockedOn r v then t.note { r with blocked := true } mBlocked v else t
    | none => t) s

/-- R294: the first eligible record. -/
def State.firstEligible (s : State) (fn : Nat) : Option (Rec × Version) :=
  s.recs.foldl (fun (o : Option (Rec × Version)) r =>
    match (if r.fn = fn then r.pending else none) with
    | none => o
    | some v =>
      if !s.eligible r v then o
      else match o with
        | none => some (r, v)
        | some (q, w) => if v.rank < w.rank ∨ (v.rank = w.rank ∧ r.slot < q.slot) then some (r, v) else o) none

/-- R294: a place is free among the eight of a partition. -/
def State.placeFree (s : State) (fn : Nat) : Bool := fn == 0 || decide ((s.recs.filter fun r => r.fn == fn && r.inFlight).length < 8)

/-- R294, R298: a partition's records are reconciled while its PARTITION record is CONVERGED and present, or being deleted. -/
def State.reconciles (s : State) (fn : Nat) : Bool :=
  if fn = 0 then s.fw.svc != .rom
  else match s.partRec (fn - 1) with
    | some r => s.fw.svc != .rom && r.present && (r.st == .converged || r.st == .draining)
    | none => false

/-! ## Starts -/

/-- R338 step 1: the buffers of the copy and load engines that hold a departing context's data are emptied. -/
def State.emptyEngines (s : State) (part ctx : Nat) : State :=
  let mine (c : Column) : Bool := c.part == part && (s.route? part c.prog).any (·.ctx == ctx)
  { s with
    eng := { s.eng with jobs := updateWhere (fun j => j.part == part && j.ctx == ctx) CopyJob.emptied s.eng.jobs }
    cols := updateWhere mine (fun c => { c with cvs := c.cvs.map Convoy.emptied }) s.cols }

/-- R338 steps 1 and 2: no copy or translation with the departing context's tag remains, and its key slot is erased, after which its
granules read what GDDR7 stores. -/
def State.departs (s₀ : State) (part ctx : Nat) : State :=
  let s := s₀.emptyEngines part ctx
  { s with
    coh := { s.coh with
      l1 := s.coh.l1.filter fun k => !(k.part == part && k.ctx == ctx)
      tlb := s.coh.tlb.filter fun x => !(x.part == part && x.ctx == ctx) } }.setKey part ctx none

/-- R298: every record of a partition is treated as ABSENT: a synthetic version of the object in effect, or of the step in flight, waits
as its deletion. -/
def State.allAbsent (s : State) (fn : Nat) : State :=
  s.recs.foldl (fun t r0 =>
    let r := t.recOf r0.fn r0.slot
    if r.fn ≠ fn then t
    else
      let t := t.supersede r.fn r.slot ((r.waiting.map (·.1)).filter Version.wants)
      let r := t.recOf r.fn r.slot
      let gone := r.waiting.filter fun x => !x.1.wants
      let body := if r.inFlight then r.acc.filter Version.wants else r.eff
      let t := match body with
        | some v => if gone.isEmpty then
            (if v.kind = 5 then t.stopRoute (fn - 1) r.slot else t).putRec
              { r with waiting := [({ v with pres := 2, flags := 0 }, false)], st := if r.inFlight then r.st else .idle
                       closed := r.closed || v.kind == 6 }
          else t.putRec { r with waiting := gone }
        | none => t.putRec { r with waiting := gone, st := if r.inFlight || !gone.isEmpty then r.st else .converged }
      t) { s with obj := { s.obj with queues := updateWhere (fun q => q.part + 1 == fn) (fun q => { q with isOpen := false }) s.obj.queues } }

/-- R297, R304: every message of a queue is discarded, those with them that are still to be published (DEDUCED; log 42), and a batch that
waits to be placed. -/
def State.discardQueue (s : State) (q : Queue) : State :=
  let t := s.requeue q.id fun q => { q with msgs := [] }
  { t with
    obj := { t.obj with
      routes := s.obj.routes.map fun r =>
        { r with waiting := r.waiting.filter (·.qid != q.id), due := r.due && !(r.part == q.part && r.qnum == q.qnum) } } }

/-- The body of the object that a step in DRAINING drains: its kind and PNUM are those of the version in effect. -/
def Rec.object (r : Rec) : Option Version := if r.present then r.eff else none

/-- R295: a step in DRAINING starts; DRAIN is that of the accepted version. -/
def State.startDraining (s : State) (r : Rec) (v : Version) : State :=
  let part := r.fn - 1
  let r := { r with st := .draining, discard := 0 }
  match (r.object.map (·.kind)).getD 0 with
  | 1 =>
    let t := s.putRec r
    match t.part? ((r.object.map (·.num 0 1)).getD 0) with
    | some p =>
      let away := t.cols.filter fun k => k.part == p.pnum && k.phase != .running && !k.dying
      away.foldl (fun t k => t.kill k.id) (((t.makeReport p).2.endChain p.pnum).allAbsent (p.pnum + 1))
    | none => t
  | 2 => if (s.ctx? part r.slot).any (·.prot) then (s.putRec r).departs part r.slot else s.putRec r
  | 3 =>
    let w := s.unmapPages (s.obj.pages.filter fun g => g.part == part && g.slot == r.slot && !g.gone)
    { w.1 with obj := { w.1.obj with maps := w.1.obj.maps.filter fun m => !(m.part == part && m.slot == r.slot) } }.putRec
      { r with due := some w.2 }
  | 5 =>
    { s with obj := s.obj.onRoute part r.slot fun q => { q with stopped := true, deadline := some (s.now + v.num 0x118 8), killedCols := 0 }
      }.putRec r
  | 6 => match s.queueOf r.fn r.slot with
    | some q =>
      if v.flags = 1 then s.putRec r
      else (s.discardQueue q).putRec { r with discard := q.msgs.length }
    | none => s.putRec r
  | _ => s.putRec r

/-- R295: a step starts with the first version that waits. -/
def State.startStep (s : State) (r : Rec) (v : Version) : State :=
  let r := { r with waiting := r.waiting.drop 1, acc := some v, blocked := false, due := none, retry := false }
  if v.wants && !(v.kind == 5 && r.object.any (·.kind == 5)) then s.putRec { r with st := .applying }
  else s.startDraining r v

/-- RECONCILE_STEP_START (R294): BLOCKED milestones, and the first eligible record starts. -/
def execReconcileStepStart (fn : Nat) (s : State) : Host.Outcome State Fault Refusal :=
  if !s.reconciles fn then .next s
  else
    let t := s.writeBlocked fn
    if !t.placeFree fn then .next t
    else match t.firstEligible fn with
      | some (r, v) => .next (t.startStep r v)
      | none => .next t

/-! ## DRAINING_END -/

/-- R216, R298: the overlays of a route released. -/
def State.releaseOverlays (s : State) (part prog : Nat) : State :=
  (s.eng.res.filter fun x => x.part == part && x.prog == prog && x.st != .absent).foldl (fun t x => t.dropOverlay x) s

/-- R294: after a deletion of a partition, records that failed for want of resources are tried again. -/
def State.tryAgain (s : State) (fn : Nat) : State :=
  s.recs.foldl (fun t r0 =>
    let r := t.recOf r0.fn r0.slot
    match r.acc with
    | some v => if r.fn == fn && r.retry && r.st == .failed then
        t.putRec { r with st := .idle, retry := false, waiting := (v, false) :: r.waiting } else t
    | none => t) s

/-- R333: what a partition's quadrants hold, zeroed: banks and tiles with their checksum status; their stored errors go with them. -/
def State.zeroUnits (s : State) (p : Partition) : State :=
  let owns (q : Nat) : Bool := p.qmap.getLsbD q
  let ownsBank (bank : Nat) : Bool := owns (4 * (bank / 32) + bank % 32 / 8)
  { s with
    coh := { s.coh with poison := s.coh.poison.filter fun e => match e with
      | .word w => !ownsBank (w / 8192)
      | .weak (.spad k) | .broken (.spad k) => !ownsBank (k / 4096)
      | .acc n => !owns (n / 65536)
      | .weak (.acc k) | .broken (.acc k) => !owns (k / 32768)
      | _ => true }
    store := { s.store with
      spad := s.store.spad.filter fun k => !ownsBank (k.1 / 32768)
      tiles := s.store.tiles.filter fun k => !owns (k.1 / 65536)
      cksum := s.store.cksum.filter fun k => !owns (k.1 / 2) } }

/-- What lies between ranges, given in ascending order, from `a` up to `stop`: (first byte, bytes). -/
def gapsFrom (a stop : Nat) : List (Nat × Nat) → List (Nat × Nat)
  | [] => [(a, stop - a)]
  | (b, n) :: rest => (a, b - a) :: gapsFrom (b + n) stop rest

/-- R333, R351: a partition's memory zeroed, but for backing that sets of other partitions still show. -/
def State.zeroMemory (s : State) (p : Partition) : State :=
  let lent := s.obj.pages.filter fun g => g.own && g.part != p.pnum && meets g.pa (pageBytes g.s) p.membase p.memsize
  let ranges := (lent.foldl (fun ns g => insertSorted g.pa ns) []).map fun a => (a, 4096)
  (gapsFrom p.membase (p.membase + p.memsize) ranges).foldl (fun t r => t.zeroDev r.1 r.2) s

/-- R298, R333, R344: a partition whose records are all gone is removed, its resources zeroed. -/
def State.dropPartition (s : State) (p : Partition) : State :=
  let n := p.pnum
  let t := (s.zeroUnits p).zeroMemory p |>.endChain n
  { t with
    obj := { t.obj with
      parts := t.obj.parts.filter (·.pnum != n)
      pages := t.obj.pages.filter (·.part != n)
      granules := t.obj.granules.filter (·.part != n)
      tasks := t.obj.tasks.filter (·.part != n) }
    recs := t.recs.filter (·.fn != n + 1)
    paging := t.paging.filter (·.part != n)
    fw := { t.fw with
      allow := t.fw.allow.filter (·.1 != n)
      denied := t.fw.denied.filter (·.part != n)
      migs := (t.fw.migs.map fun m => if m.part = n then { m with wrapped := none, message := [] } else m).filter fun m =>
        m.part != n || !m.ephemeral.isEmpty
      worldKeys := if t.obj.parts.any fun q => q.pnum != n && q.world == p.world then t.fw.worldKeys
        else t.fw.worldKeys.filter (·.1 != p.world)
      posts := t.fw.posts.filter (·.part != n)
      boxes := t.fw.boxes.filter (·.fn != n + 1)
      atomicEn := t.fw.atomicEn.filter (· != n) } }

/-- R298: no record of a partition is present, in flight or pending. -/
def State.partEmpty (s : State) (part : Nat) : Bool :=
  !(s.recs.any fun r => r.fn == part + 1 && (r.present || r.inFlight || !r.waiting.isEmpty))

/-- R297, R298, R325, R333, R338: the object of a step in DRAINING is gone, with the number discarded or killed; none while it still
drains. -/
def State.drainedNow (s : State) (r : Rec) (v : Version) : Option (State × Nat) :=
  let part := r.fn - 1
  match (r.object.map (·.kind)).getD 0 with
  | 0 => some (s, 0)
  | 1 => match s.part? ((r.object.map (·.num 0 1)).getD 0) with
    | none => some (s, 0)
    | some p => if s.partEmpty p.pnum then some (s.dropPartition p, 0) else none
  | 2 =>
    let t := (s.departs part r.slot).freeUp (s.obj.pages.filter fun g => g.part == part && g.ctx == r.slot && !g.isTag)
    let tags := t.obj.pages.filter fun g => g.part == part && g.ctx == r.slot
    let u := tags.foldl (fun t g => t.zeroDev g.pa (pageBytes g.s)) t
    let u := (s.granulesOf part r.slot).foldl (fun t g => t.zeroDev (g.n * granuleBytes) granuleBytes) u
    some ({ u with obj := { u.obj with
      granules := u.obj.granules.filter fun g => !(g.part == part && g.ctx == r.slot)
      pages := u.obj.pages.filter fun g => !(g.part == part && g.ctx == r.slot)
      ctxs := u.obj.ctxs.filter fun k => !(k.part == part && k.slot == r.slot) } }, 0)
  | 3 => if r.due.any fun t => s.now < t then none
    else some (s.freeUp (s.obj.pages.filter fun g => g.part == part && g.slot == r.slot && g.gone), 0)
  | 4 => match s.obj.wsets.find? fun w => w.part == part && w.slot == r.slot with
    | none => some (s, 0)
    | some w =>
      if w.gens.any (s.genBound w) then none
      else
        let t := (s.hideWeights w).1
        let backing : List Nat := w.gens.flatMap fun g => g.pages.map Prod.snd
        some ({ t with obj := { t.obj with wsets := t.obj.wsets.filter fun x => !(x.part == part && x.slot == r.slot) }
          }.freeBacking backing, 0)
  | 5 => match s.route? part r.slot with
    | none => some (s, 0)
    | some q =>
      if s.cols.any fun k => k.part == part && k.prog == r.slot then none
      else
        let t := (s.launches.filter fun l => l.part == part && l.prog == r.slot).foldl (fun t l => t.endLaunch l.id) s
        let t := t.releaseOverlays part r.slot
        some (if v.wants then t else
          { t with obj := { t.obj with routes := t.obj.routes.filter fun x => !(x.part == part && x.slot == r.slot) } }, q.killedCols)
  | 6 => match s.queueOf r.fn r.slot with
    | none => some (s, 0)
    | some q =>
      if !q.msgs.isEmpty then none
      else some ({ s.discardQueue q with obj := { (s.discardQueue q).obj with queues := s.obj.queues.filter (·.id != q.id) } }, r.discard)
  | _ => some ({ s with obj := { s.obj with accts := s.obj.accts.filter fun a => !(a.part == part && a.slot == r.slot) } }, 0)

/-- DRAINING_END (R295): the old object has drained: it is DELETED, or a PROGRAM change goes on to APPLYING. -/
def execDrainingEnd (fn slot : Nat) (s : State) : Host.Outcome State Fault Refusal :=
  match s.rec? fn slot with
  | none => .next s
  | some r =>
    match r.st, r.acc with
    | .draining, some v =>
      match s.drainedNow r v with
      | none => .next s
      | some (t, n) =>
        if v.wants then .next (t.putRec { r with st := .applying, discard := n })
        else .next (((t.deleted r v n).tryAgain fn).stepEnd fn slot)
    | _, _ => .next s

end Sys2Proof.Machine
end

