-- ==== Sys2Proof/Machine/Migrate.lean ====
section
/-!
DEFINITION. Migration of a protected context (R348, R349).
-/

namespace Sys2Proof.Machine

/-! ## MIG_OFFER (R349 step 1) -/

/-- The migration state of a partition. -/
def State.mig (s : State) (part : Nat) : Migration := (s.fw.migs.find? (·.part == part)).getD { part, ephemeral := [], wrapped := none, message := [] }

/-- The migration state of a partition replaced. -/
def State.setMig (s : State) (m : Migration) : State := { s with fw := { s.fw with migs := upsert (·.part == m.part) m s.fw.migs } }

/-- MIG_OFFER (R349, R358): an ephemeral key pair is drawn, and the offer is its public key, the identity digest and a signature. -/
def execMigOffer (part : Nat) (s : State) : Host.Outcome State Fault Refusal :=
  .next (s.serveBox (part + 1) 0x20 0 fun t _ =>
    let key := t.free.1 % 2 ^ 256
    let pub := bytesOf 32 (x25519Public key)
    let u := t.free.2
    (u.setMig { u.mig part with ephemeral := key :: (u.mig part).ephemeral }).respond (part + 1) 0 (pub ++ identityDigest ++ signature pub))

/-! ## MIG_WRAP (R348, R349 steps 2 to 5) -/

/-- R348: no PROGRAM record depends on the context, or every one that does is ABSENT and CONVERGED. -/
def State.mayMigrate (s : State) (part ctx : Nat) : Bool :=
  !(s.recs.any fun r => r.fn == part + 1 && (r.claims.any fun v => v.kind == 5 && v.num 0x100 4 == ctx) ||
    r.fn == part + 1 && r.waiting.any fun x => x.1.wants && x.1.kind == 5 && x.1.num 0x100 4 == ctx)

/-- R349 step 5: the virtual addresses that a context's mappings take: the lowest, and the end of the highest. -/
def State.vaRange (s : State) (part ctx : Nat) : Nat × Nat :=
  let ms := s.obj.maps.filter fun m => m.part == part && m.ctx == ctx
  (ms.foldl (fun a m => min a m.va) (((ms.head?).map (·.va)).getD 0), ms.foldl (fun a m => max a (m.va + m.size)) 0)

/-- R349 step 2: the offer of a destination whose chain holds, with its signature over the public key. -/
def offerOk (offer : List Byte) : Bool :=
  (Config.certifiedKey ((offer.drop 32).take 64)).any fun key => ed25519Verify key (offer.take 32) ((offer.drop 96).take 64)

/-- R349 step 2: the context key wrapped for an offer, 72 bytes. -/
def wrapFor (key : Nat) (offer : List Byte) : List Byte :=
  (wrapKey (migrationKey (x25519 Config.migrationSecret (fieldOf offer 0 32)) identityDigest ((offer.drop 32).take 64)) (natBytes 64 key)).map
    (BitVec.ofNat 8 ·)

/-- R349 step 5: the envelope of 256 bytes. -/
def State.envelopeFor (s : State) (part ctx key : Nat) (offer : List Byte) : List Byte :=
  let range := s.vaRange part ctx
  bytesOf 4 0x4E344B57 ++ bytesOf 1 part ++ bytesOf 3 0 ++ bytesOf 8 range.1 ++ bytesOf 8 range.2 ++ identityDigest ++
  padded 64 (offer.drop 32) ++ wrapFor key offer ++ List.replicate 32 0

/-- MIG_WRAP (R348, R349, R358): the context key wrapped for an offer whose signature holds, the event written, the key erased and the
context departed, and then the envelope returned. -/
def execMigWrap (part : Nat) (s : State) : Host.Outcome State Fault Refusal :=
  .next (s.serveBox (part + 1) 0x21 164 fun t b =>
    let ctx := fieldOf b 0 4
    let offer := (b.drop 4).take 160
    match (t.ctx? part ctx).bind (·.key) with
    | none => t.respond (part + 1) 1 []
    | some key =>
      if !t.mayMigrate part ctx then t.respond (part + 1) 2 []
      else if !offerOk offer then t.respond (part + 1) 1 []
      else
        let envelope := t.envelopeFor part ctx key offer
        let u := t.blackBox 8 part 7 0 (fieldOf offer 32 8)
        let w := u.departs part ctx
        (w.setMig { w.mig part with wrapped := some (ctx, envelope) }).respond (part + 1) 0 envelope)

/-! ## MIG_RESULT (R349 step 7) -/

/-- R349: MIGRATION_LOST for the CONTEXT record. -/
def State.migrationLost (s : State) (part ctx : Nat) : State :=
  let r := s.recOf (part + 1) ctx
  match r.eff <|> r.acc with
  | some v => s.note r mMigrationLost v
  | none => s

/-- R349 step 7: what a message says of an envelope, confirmation or failure, where its destination signed it. -/
def migrationResult (envelope message : List Byte) : Option Bool :=
  let text := message.take (message.length - 64)
  let signed := (Config.certifiedKey ((envelope.drop 88).take 64)).any fun key => ed25519Verify key text (message.drop (message.length - 64))
  if !signed then none
  else if text = Config.migrationMessage true envelope then some true
  else if text = Config.migrationMessage false envelope then some false
  else none

/-- MIG_RESULT (R349, R358): the destination's signed confirmation or failure. -/
def execMigResult (part : Nat) (s : State) : Host.Outcome State Fault Refusal :=
  .next (s.serveBox (part + 1) 0x22 0 fun t b =>
    match (t.mig part).wrapped, (t.mig part).wrapped.bind fun w => migrationResult w.2 b with
    | none, _ => t.respond (part + 1) 2 []
    | some _, none => t.respond (part + 1) 1 []
    | some (ctx, _), some ok =>
      let u := t.setMig { t.mig part with wrapped := none }
      (if ok then u else u.migrationLost part ctx).respond (part + 1) 0 [])

end Sys2Proof.Machine
end

