-- ==== Sys2Proof/Machine/Starts.lean ====
section
/-!
DEFINITION. Columns that start (R8, R217, R304, R306, R240, R242, R253): placing one, and the device steps of the dispatcher that launch.
-/

namespace Sys2Proof.Machine

/-! ## Placing a column -/

/-- What placing a column comes to. -/
inductive Placing
  /-- Its overlay is resident on its cores, and it may start here. -/
  | go (s : State) (p : Spot)
  /-- It waits: for room, for its account, for its overlay, or for a bay. -/
  | hold (s : State)

/-- R8, R28, R303, R304, R309, R310: the route may launch, and its column has room here that was made for no other. -/
def State.mayPlace (s : State) (r : Route) (bmode : Bool) (core : Nat) (quads : List Nat) : Bool :=
  !r.stopped && !r.unusable && !s.dry r.part r.acct && s.quadsOk r.part r bmode core quads none && (s.banksFor r.part r core).isSome &&
  s.keepsRooms (s.launchedAt r bmode core quads) r.part (.launch r.slot)

/-- R8, R30, R217: a column of a route about to be placed. -/
def State.placing (s : State) (r : Route) (bmode : Bool) (core : Nat) (quads : List Nat) : Placing :=
  if !s.mayPlace r bmode core quads then .hold s
  else match s.banksFor r.part r core with
    | none => .hold s
    | some banks => match s.entryLoads r (r.coresAt core) with
      | (t, .resident) => .go t { core, quads, banks }
      | (t, .loading) => .hold t
      | (_, .noBay) => .hold (s.noBayEntry r bmode)

/-! ## Batches (R304) -/

/-- BATCH_LAUNCH (R304): with room and credit the dispatcher decides a batch, seeks the ENTRY overlay, and launches a column, or the
first of a bounds launch. -/
def execBatchLaunch (part prog core : Nat) (quads : List Nat) (s : State) : Host.Outcome State Fault Refusal :=
  match s.route? part prog with
  | none => .next s
  | some r =>
    if r.taskMode || !s.mayPlace r r.bounds core quads then .next s
    else match s.decideBatch r with
      | none => .next s
      | some (t, b) => match t.placing r r.bounds core quads with
        | .hold u => .next u
        | .go u p => .next (u.startBatch r p b)

/-- COALESCING_TIMEOUT (R304): wall time reaches the oldest record's publication time plus TIMEOUT; the launch condition holds. -/
def execCoalescingTimeout (part prog : Nat) (s : State) : Host.Outcome State Fault Refusal :=
  match s.route? part prog with
  | none => .next s
  | some r => match s.queue? part r.qnum with
    | none => .next s
    | some q =>
      if !r.taskMode && r.overdue q s.now then .next { s with obj := s.obj.onRoute part prog fun r => { r with due := true } }
      else .next s

/-! ## Named tasks (R306) -/

/-- TASK_LAUNCH (R306): a ready task's column, or the first of its bounds launch; the entry becomes FREE. -/
def execTaskLaunch (part task core : Nat) (quads : List Nat) (s : State) : Host.Outcome State Fault Refusal :=
  match s.task? part task with
  | none => .next s
  | some k => match s.route? part k.prog with
    | none => .next s
    | some r =>
      if k.counter ≠ 0 || !r.taskMode then .next s
      else match s.placing r r.bounds core quads with
        | .hold u => .next u
        | .go u p =>
          let epoch := u.weightEpoch part r.ctx
          let t := (u.capture part r.ctx).freeTask part task
          let regs := startRegs k.arg 0 0
          let num := BitVec.ofNat 32 task
          if r.bounds then .next (t.startBounds r p num k.arg none 0 epoch regs)
          else .next (t.newColumn r p { task := num, bmode := false, launch := none, batch := none, epoch, regs,
                                        lanes := (List.range r.nconv).map (r.startLanes fun _ => true) })

/-! ## Bounds launches (R240, R242, R253) -/

/-- BOUNDS_ROUND_LAUNCH (R240, R242): the next column of the round; a round begins when every column of the one before has ended. -/
def execBoundsRoundLaunch (launch core : Nat) (quads : List Nat) (s : State) : Host.Outcome State Fault Refusal :=
  match s.launch? launch with
  | none => .next s
  | some l0 => match s.route? l0.part l0.prog with
    | none => .next s
    | some r =>
      let l := s.nextRound r l0
      if l.killed || l.element || l.tiles.length ≤ l.launched * r.laneCount then .next s
      else match s.placing r true core quads with
        | .hold u => .next u
        | .go u p =>
          let t := u.onLaunch l.id fun _ => { l with launched := l.launched + 1 }
          .next (t.newColumn r p
            { task := l.task, bmode := true, launch := some l.id, batch := l.batch, epoch := l.epoch, regs := l.regs
              lanes := (List.range r.nconv).map (r.tileLanes (l.tiles.drop (l.launched * r.laneCount))) })

/-- ELEMENT_PASS_LAUNCH (R253): the next element column, once the bounds pass is over. -/
def execElementPassLaunch (launch core : Nat) (quads : List Nat) (s : State) : Host.Outcome State Fault Refusal :=
  match s.launch? launch with
  | none => .next s
  | some l => match s.route? l.part l.prog with
    | none => .next s
    | some r =>
      let n := if l.element then l.launched else 0
      let es := (l.elements r).drop (n * r.laneCount)
      if l.killed || !s.passOver r l || es.isEmpty then .next s
      else match s.placing r false core quads with
        | .hold u => .next u
        | .go u p =>
          let t := u.onLaunch l.id fun l => { l with element := true, launched := n + 1 }
          .next (t.newColumn r p
            { task := l.task, bmode := false, launch := some l.id, batch := l.batch, epoch := l.epoch, regs := l.regs
              lanes := (List.range r.nconv).map (r.elementLanes es) })

end Sys2Proof.Machine
end

