-- ==== Sys2Proof/Machine/Dispatch.lean ====
section
/-!
DEFINITION. The meaning of every constructor of Instr, one arm each.
-/

namespace Sys2Proof.Machine

def exec (i : Instr) (s : State) : Host.Outcome State Fault Refusal :=
  match i with
  | .iadd f => Sys2Proof.Machine.execIadd f s
  | .isub f => Sys2Proof.Machine.execIsub f s
  | .imul f => Sys2Proof.Machine.execImul f s
  | .imulh f => Sys2Proof.Machine.execImulh f s
  | .imad f => Sys2Proof.Machine.execImad f s
  | .iaddx f => Sys2Proof.Machine.execIaddx f s
  | .isubx f => Sys2Proof.Machine.execIsubx f s
  | .imadx f => Sys2Proof.Machine.execImadx f s
  | .lea f => Sys2Proof.Machine.execLea f s
  | .imin f => Sys2Proof.Machine.execImin f s
  | .imax f => Sys2Proof.Machine.execImax f s
  | .iabs f => Sys2Proof.Machine.execIabs f s
  | .ineg f => Sys2Proof.Machine.execIneg f s
  | .idiv f => Sys2Proof.Machine.execIdiv f s
  | .irem f => Sys2Proof.Machine.execIrem f s
  | .sadd f => Sys2Proof.Machine.execSadd f s
  | .ssub f => Sys2Proof.Machine.execSsub f s
  | .idp4 f => Sys2Proof.Machine.execIdp4 f s
  | .idp8 f => Sys2Proof.Machine.execIdp8 f s
  | .idp2 f => Sys2Proof.Machine.execIdp2 f s
  | .mov f => Sys2Proof.Machine.execMov f s
  | .movi f => Sys2Proof.Machine.execMovi f s
  | .movh f => Sys2Proof.Machine.execMovh f s
  | .sel f => Sys2Proof.Machine.execSel f s
  | .band f => Sys2Proof.Machine.execBand f s
  | .bor f => Sys2Proof.Machine.execBor f s
  | .bxor f => Sys2Proof.Machine.execBxor f s
  | .bnot f => Sys2Proof.Machine.execBnot f s
  | .bandn f => Sys2Proof.Machine.execBandn f s
  | .shl f => Sys2Proof.Machine.execShl f s
  | .shr f => Sys2Proof.Machine.execShr f s
  | .sar f => Sys2Proof.Machine.execSar f s
  | .rot f => Sys2Proof.Machine.execRot f s
  | .bfx f => Sys2Proof.Machine.execBfx f s
  | .bfi f => Sys2Proof.Machine.execBfi f s
  | .popc f => Sys2Proof.Machine.execPopc f s
  | .clz f => Sys2Proof.Machine.execClz f s
  | .brev f => Sys2Proof.Machine.execBrev f s
  | .icmp f => Sys2Proof.Machine.execIcmp f s
  | .pand f => Sys2Proof.Machine.execPand f s
  | .por f => Sys2Proof.Machine.execPor f s
  | .pxor f => Sys2Proof.Machine.execPxor f s
  | .pnot f => Sys2Proof.Machine.execPnot f s
  | .pset f => Sys2Proof.Machine.execPset f s
  | .fadd f => Sys2Proof.Machine.execFadd f s
  | .fsub f => Sys2Proof.Machine.execFsub f s
  | .fmul f => Sys2Proof.Machine.execFmul f s
  | .ffma f => Sys2Proof.Machine.execFfma f s
  | .fmin f => Sys2Proof.Machine.execFmin f s
  | .fmax f => Sys2Proof.Machine.execFmax f s
  | .fabs f => Sys2Proof.Machine.execFabs f s
  | .fneg f => Sys2Proof.Machine.execFneg f s
  | .fcmp f => Sys2Proof.Machine.execFcmp f s
  | .frcp f => Sys2Proof.Machine.execFrcp f s
  | .fsqrt f => Sys2Proof.Machine.execFsqrt f s
  | .frsq f => Sys2Proof.Machine.execFrsq f s
  | .fclass f => Sys2Proof.Machine.execFclass f s
  | .hadd2 f => Sys2Proof.Machine.execHadd2 f s
  | .hmul2 f => Sys2Proof.Machine.execHmul2 f s
  | .hfma2 f => Sys2Proof.Machine.execHfma2 f s
  | .fscale f => Sys2Proof.Machine.execFscale f s
  | .fexpn f => Sys2Proof.Machine.execFexpn f s
  | .cvt f => Sys2Proof.Machine.execCvt f s
  | .cvti f => Sys2Proof.Machine.execCvti f s
  | .icvt f => Sys2Proof.Machine.execIcvt f s
  | .qnt f => Sys2Proof.Machine.execQnt f s
  | .dqnt f => Sys2Proof.Machine.execDqnt f s
  | .exp2 f => Sys2Proof.Machine.execExp2 f s
  | .log2 f => Sys2Proof.Machine.execLog2 f s
  | .sin f => Sys2Proof.Machine.execSin f s
  | .cos f => Sys2Proof.Machine.execCos f s
  | .tanh f => Sys2Proof.Machine.execTanh f s
  | .smxi f => Sys2Proof.Machine.execSmxi f s
  | .smxacc f => Sys2Proof.Machine.execSmxacc f s
  | .smxnrm f => Sys2Proof.Machine.execSmxnrm f s
  | .vote f => Sys2Proof.Machine.execVote f s
  | .shfl f => Sys2Proof.Machine.execShfl f s
  | .redadd f => Sys2Proof.Machine.execRedadd f s
  | .redmax f => Sys2Proof.Machine.execRedmax f s
  | .redmin f => Sys2Proof.Machine.execRedmin f s
  | .scan f => Sys2Proof.Machine.execScan f s
  | .matchv f => Sys2Proof.Machine.execMatchv f s
  | .ld f => Sys2Proof.Machine.execLd f s
  | .st f => Sys2Proof.Machine.execSt f s
  | .lds f => Sys2Proof.Machine.execLds f s
  | .sts f => Sys2Proof.Machine.execSts f s
  | .ldx f => Sys2Proof.Machine.execLdx f s
  | .stx f => Sys2Proof.Machine.execStx f s
  | .ldb f => Sys2Proof.Machine.execLdb f s
  | .pf f => Sys2Proof.Machine.execPf f s
  | .ldq f => Sys2Proof.Machine.execLdq f s
  | .stq f => Sys2Proof.Machine.execStq f s
  | .atadd f => Sys2Proof.Machine.execAtadd f s
  | .ataddf f => Sys2Proof.Machine.execAtaddf f s
  | .atmin f => Sys2Proof.Machine.execAtmin f s
  | .atmax f => Sys2Proof.Machine.execAtmax f s
  | .atand f => Sys2Proof.Machine.execAtand f s
  | .ator f => Sys2Proof.Machine.execAtor f s
  | .atxor f => Sys2Proof.Machine.execAtxor f s
  | .atxch f => Sys2Proof.Machine.execAtxch f s
  | .atcas f => Sys2Proof.Machine.execAtcas f s
  | .atinc f => Sys2Proof.Machine.execAtinc f s
  | .fence f => Sys2Proof.Machine.execFence f s
  | .bari f => Sys2Proof.Machine.execBari f s
  | .bara f => Sys2Proof.Machine.execBara f s
  | .barw f => Sys2Proof.Machine.execBarw f s
  | .baraw f => Sys2Proof.Machine.execBaraw f s
  | .waita f => Sys2Proof.Machine.execWaita f s
  | .waitc f => Sys2Proof.Machine.execWaitc f s
  | .sign f => Sys2Proof.Machine.execSign f s
  | .nap f => Sys2Proof.Machine.execNap f s
  | .mma f => Sys2Proof.Machine.execMma f s
  | .mmat f => Sys2Proof.Machine.execMmat f s
  | .plst f => Sys2Proof.Machine.execPlst f s
  | .acz f => Sys2Proof.Machine.execAcz f s
  | .acld f => Sys2Proof.Machine.execAcld f s
  | .acst f => Sys2Proof.Machine.execAcst f s
  | .acrd f => Sys2Proof.Machine.execAcrd f s
  | .acwr f => Sys2Proof.Machine.execAcwr f s
  | .cbld f => Sys2Proof.Machine.execCbld f s
  | .ckrd f => Sys2Proof.Machine.execCkrd f s
  | .cpy f => Sys2Proof.Machine.execCpy f s
  | .cpy2 f => Sys2Proof.Machine.execCpy2 f s
  | .cpyp f => Sys2Proof.Machine.execCpyp f s
  | .cpyq f => Sys2Proof.Machine.execCpyq f s
  | .qrd f => Sys2Proof.Machine.execQrd f s
  | .qack f => Sys2Proof.Machine.execQack f s
  | .qwr f => Sys2Proof.Machine.execQwr f s
  | .emit f => Sys2Proof.Machine.execEmit f s
  | .bra f => Sys2Proof.Machine.execBra f s
  | .brx f => Sys2Proof.Machine.execBrx f s
  | .call f => Sys2Proof.Machine.execCall f s
  | .ret f => Sys2Proof.Machine.execRet f s
  | .loop f => Sys2Proof.Machine.execLoop f s
  | .exit f => Sys2Proof.Machine.execExit f s
  | .yield f => Sys2Proof.Machine.execYield f s
  | .trap f => Sys2Proof.Machine.execTrap f s
  | .nop f => Sys2Proof.Machine.execNop f s
  | .bkpt f => Sys2Proof.Machine.execBkpt f s
  | .ovl f => Sys2Proof.Machine.execOvl f s
  | .ovlq f => Sys2Proof.Machine.execOvlq f s
  | .ovlpin f => Sys2Proof.Machine.execOvlpin f s
  | .ovlrel f => Sys2Proof.Machine.execOvlrel f s
  | .ovlev f => Sys2Proof.Machine.execOvlev f s
  | .callo f => Sys2Proof.Machine.execCallo f s
  | .reto f => Sys2Proof.Machine.execReto f s
  | .bsum f => Sys2Proof.Machine.execBsum f s
  | .fill f => Sys2Proof.Machine.execFill f s
  | .defer f => Sys2Proof.Machine.execDefer f s
  | .split f => Sys2Proof.Machine.execSplit f s
  | .widen f => Sys2Proof.Machine.execWiden f s
  | .bdone f => Sys2Proof.Machine.execBdone f s
  | .movs f => Sys2Proof.Machine.execMovs f s
  | .movc f => Sys2Proof.Machine.execMovc f s
  | .clk f => Sys2Proof.Machine.execClk f s
  | .perf f => Sys2Proof.Machine.execPerf f s
  | .fwcall f => Sys2Proof.Machine.execFwcall f s
  | .trapret f => Sys2Proof.Machine.execTrapret f s
  | .unassignedOpcode w => Sys2Proof.Machine.execUnassignedOpcode w s
  | .fetchParityRetry => Sys2Proof.Machine.execFetchParityRetry s
  | .convoyWake col cv => Sys2Proof.Machine.execConvoyWake col cv s
  | .waitBoundExpiry col cv => Sys2Proof.Machine.execWaitBoundExpiry col cv s
  | .napExpiry col cv => Sys2Proof.Machine.execNapExpiry col cv s
  | .fwcallAnswer col cv => Sys2Proof.Machine.execFwcallAnswer col cv s
  | .loadReturn op grp evicted => Sys2Proof.Machine.execLoadReturn op grp evicted s
  | .storeArrival op grp => Sys2Proof.Machine.execStoreArrival op grp s
  | .storeAck op => Sys2Proof.Machine.execStoreAck op s
  | .hostAtomicCompletion op reply => Sys2Proof.Machine.execHostAtomicCompletion op reply s
  | .readAheadFetch col cv port => Sys2Proof.Machine.execReadAheadFetch col cv port s
  | .pushPerform op grp => Sys2Proof.Machine.execPushPerform op grp s
  | .ownershipGrant job line => Sys2Proof.Machine.execOwnershipGrant job line s
  | .copyCompletion job => Sys2Proof.Machine.execCopyCompletion job s
  | .copyFailure job => Sys2Proof.Machine.execCopyFailure job s
  | .matrixPassGrant quad => Sys2Proof.Machine.execMatrixPassGrant quad s
  | .matrixDrain quad entry elems sums => Sys2Proof.Machine.execMatrixDrain quad entry elems sums s
  | .checksumFaultDelivery col cv => Sys2Proof.Machine.execChecksumFaultDelivery col cv s
  | .plstMergeComplete op => Sys2Proof.Machine.execPlstMergeComplete op s
  | .codebookReady op => Sys2Proof.Machine.execCodebookReady op s
  | .overlayLoadEnd core part prog handle => Sys2Proof.Machine.execOverlayLoadEnd core part prog handle s
  | .overlayLoadFail core part prog handle => Sys2Proof.Machine.execOverlayLoadFail core part prog handle s
  | .batchLaunch part prog core quads => Sys2Proof.Machine.execBatchLaunch part prog core quads s
  | .coalescingTimeout part prog => Sys2Proof.Machine.execCoalescingTimeout part prog s
  | .taskLaunch part task core quads => Sys2Proof.Machine.execTaskLaunch part task core quads s
  | .boundsRoundLaunch launch core quads => Sys2Proof.Machine.execBoundsRoundLaunch launch core quads s
  | .elementPassLaunch launch core quads => Sys2Proof.Machine.execElementPassLaunch launch core quads s
  | .columnEnd col => Sys2Proof.Machine.execColumnEnd col s
  | .accountRefill => Sys2Proof.Machine.execAccountRefill s
  | .sliceEnd core => Sys2Proof.Machine.execSliceEnd core s
  | .preemptForRoom part prog core => Sys2Proof.Machine.execPreemptForRoom part prog core s
  | .preemptionSave col => Sys2Proof.Machine.execPreemptionSave col s
  | .tileBankSave col => Sys2Proof.Machine.execTileBankSave col s
  | .resumption col core quads => Sys2Proof.Machine.execResumption col core quads s
  | .drainDeadline part prog => Sys2Proof.Machine.execDrainDeadline part prog s
  | .surveyorScan fn slot => Sys2Proof.Machine.execSurveyorScan fn slot s
  | .reconcileStepStart fn => Sys2Proof.Machine.execReconcileStepStart fn s
  | .applyingEnd fn slot => Sys2Proof.Machine.execApplyingEnd fn slot s
  | .drainingEnd fn slot => Sys2Proof.Machine.execDrainingEnd fn slot s
  | .pageWalk core part ctx va => Sys2Proof.Machine.execPageWalk core part ctx va s
  | .pagingAnswer part ctx page => Sys2Proof.Machine.execPagingAnswer part ctx page s
  | .replay col cv => Sys2Proof.Machine.execReplay col cv s
  | .taskArm part => Sys2Proof.Machine.execTaskArm part s
  | .taskSignal part => Sys2Proof.Machine.execTaskSignal part s
  | .acctRead part => Sys2Proof.Machine.execAcctRead part s
  | .mailboxTaskArm part => Sys2Proof.Machine.execMailboxTaskArm part s
  | .mailboxTaskSignal part => Sys2Proof.Machine.execMailboxTaskSignal part s
  | .allowSet part => Sys2Proof.Machine.execAllowSet part s
  | .report fn => Sys2Proof.Machine.execReport fn s
  | .migOffer part => Sys2Proof.Machine.execMigOffer part s
  | .migWrap part => Sys2Proof.Machine.execMigWrap part s
  | .migResult part => Sys2Proof.Machine.execMigResult part s
  | .fwWrite => Sys2Proof.Machine.execFwWrite s
  | .fwStart => Sys2Proof.Machine.execFwStart s
  | .sliceSet => Sys2Proof.Machine.execSliceSet s
  | .pubkeySet => Sys2Proof.Machine.execPubkeySet s
  | .bboxRead => Sys2Proof.Machine.execBboxRead s
  | .mailboxUnknownCode fn => Sys2Proof.Machine.execMailboxUnknownCode fn s
  | .dbell fn => Sys2Proof.Machine.execDbell fn s
  | .carveOutWrite value => Sys2Proof.Machine.execCarveOutWrite value s
  | .registerWrite fn off data => Sys2Proof.Machine.execRegisterWrite fn off data s
  | .counterSlotRead off len => Sys2Proof.Machine.execCounterSlotRead off len s
  | .bar2Access part off len write => Sys2Proof.Machine.execBar2Access part off len write s
  | .hostAtomicopCompleter fn bar off size kind x y => Sys2Proof.Machine.execHostAtomicopCompleter fn bar off size kind x y s
  | .copyRingTake part peer => Sys2Proof.Machine.execCopyRingTake part peer s
  | .shardArrival job shard data crc => Sys2Proof.Machine.execShardArrival job shard data crc s
  | .shardTimeout job => Sys2Proof.Machine.execShardTimeout job s
  | .linkDown link => Sys2Proof.Machine.execLinkDown link s
  | .linkRetrain link => Sys2Proof.Machine.execLinkRetrain link s
  | .linkUp link => Sys2Proof.Machine.execLinkUp link s
  | .getVersion req => Sys2Proof.Machine.execGetVersion req s
  | .getCapabilities req => Sys2Proof.Machine.execGetCapabilities req s
  | .negotiateAlgorithms req => Sys2Proof.Machine.execNegotiateAlgorithms req s
  | .getCertificate req => Sys2Proof.Machine.execGetCertificate req s
  | .challenge req => Sys2Proof.Machine.execChallenge req s
  | .getMeasurements req => Sys2Proof.Machine.execGetMeasurements req s
  | .spdmUnsupportedRequest req => Sys2Proof.Machine.execSpdmUnsupportedRequest req s
  | .attestSequence req => Sys2Proof.Machine.execAttestSequence req s
  | .coldReset => Sys2Proof.Machine.execColdReset s
  | .warmReset cause => Sys2Proof.Machine.execWarmReset cause s
  | .channelTraining channel ok => Sys2Proof.Machine.execChannelTraining channel ok s
  | .fullServiceSwitch => Sys2Proof.Machine.execFullServiceSwitch s
  | .peerAccessRequest link access => Sys2Proof.Machine.execPeerAccessRequest link access s
  | .completionTimeout op => Sys2Proof.Machine.execCompletionTimeout op s
  | .cycleCharge quad => Sys2Proof.Machine.execCycleCharge quad s

end Sys2Proof.Machine
end

