-- ==== Sys2Proof/Machine/Place.lean ====
section
/-!
DEFINITION. One instruction word placed where the next step fetches: a partition with a route of one convoy of 16 lanes whose
overlay is resident with the word in line 0, slot 0, and that convoy's turn to issue (log 6).
-/

namespace Sys2Proof.Machine

/-- The route of a placed word: 128 lane registers, one convoy of 16 lanes, one scratchpad bank, no trap handler. -/
def placedRoute (part : Nat) : Route :=
  { part, slot := 0, num := 0, ctx := 0, acct := 0, words := [0x2F0000, 0, 0, 0, 0, 0], slots := List.replicate 8 (0, 0),
    dir := [{ handle := 0, image := 0, auto := false, share := false, nbm1 := 0, digest := 0 }], holdsAcc := true, nextCol := 1,
    unusable := false, noBay := false, waiting := none, due := false, stopped := false, deadline := none, killedCols := 0 }

/-- A convoy at column start with all its 16 lanes live (R11). -/
def placedConvoy : Convoy :=
  { lanes := List.replicate 16 { Lane.zero with live := true }, sregs := [], loads := 0, stores := 0, copies := 0, tileOps := 0,
    ctdev := 0, ctsys := 0, stack := [], traddr := 0, ports := [], books := [], atts := [], wait := none, after := none, liveCount := 128,
    perf := [], quad := 0, firstIssue := some 0, ended := false, relaxedSent := false, lastClause := 0, yieldUntil := none,
    boundary := [], fencing := none, arrived := [] }

/-- The column of a placed word. -/
def placedColumn (id part : Nat) : Column :=
  { id, part, prog := 0, colid := 0, task := 0, bmode := false, launch := none, core := 0, banks := [0], cvs := [placedConvoy],
    cvregs := [], tokens := [], held := [], batch := none, epoch := 0, phase := .running, killed := false, doomed := false, banksOut := false,
    tilesOut := false, since := 0, check := { cvs := [placedConvoy], cvregs := [], spad := [] }, noRollback := false, undo := [] }

/-- The partition of a placed word, which owns quadrant 0. -/
def placedPart (pnum : Nat) : Partition :=
  { pnum, world := 0, prot := false, membase := 0, memsize := 0, dsrpa := 0, msrpa := 0, mslen := 1024, qmap := 1 }

/-- A line word: generation 1, handle 0, valid, slot 0 a branch target, and the parities (R102). -/
def placedLine (w : IWord) : Nat := withGen (2 ^ 15 + popCount 96 w.toNat % 2 * 2 ^ 9 + 1) 1

/-- The state with a word placed. -/
def State.place (s : State) (w : IWord) : State :=
  let part := ((List.range 48).find? fun n => (s.part? n).isNone).getD 0
  let bay := ((s.freeBays 0).head?).getD 0
  let a := bayByte 0 bay 0
  { s with
    nextId := s.nextId + 1
    agenda := .issue 0 0 :: s.agenda
    store := { s.store with istore := Memory.writeNum (Memory.writeNum s.store.istore a 4 (placedLine w)) (a + 4) 12 w.toNat }
    obj := { s.obj with
      parts := placedPart part :: s.obj.parts.filter (·.pnum != part)
      routes := placedRoute part :: s.obj.routes.filter fun r => !(r.part == part && r.slot == 0) }
    cols := s.cols ++ [placedColumn s.nextId part]
    holds := { quad := 0, col := s.nextId, cv := 0, pc := 0, start := 0, len := 0 } :: s.holds.filter (·.quad != 0)
    issued := s.issued.filter (·.quad != 0)
    eng := { s.eng with
      res := { core := 0, part, prog := 0, handle := 0, st := .resident, gen := 1, bays := [bay], evpend := false, lastUse := 0,
               waiters := [], entry := false, joined := false } ::
        s.eng.res.filter fun r => !(r.core == 0 && r.part == part && r.prog == 0 && r.handle == 0) } }

end Sys2Proof.Machine
end

