-- ==== Sys2Proof/Machine/Schedule.lean ====
section
/-!
DEFINITION. The end of a cycle, and the model's own schedule, taken where the agenda is empty: one order of events that the manual
allows (log 1).
-/

namespace Sys2Proof.Machine

/-- R90, R236: accesses that stand recalled at a cycle's end are counted, each once: an operation for its convoy, the next read of a matrix
entry for each of its signers. -/
def State.countRecalls (s : State) : State :=
  let ops := s.ops.filter fun o => !o.recalled && o.pieces.any fun p => s.recalls o p (match o.kind with
    | .load .. | .codebook _ => false
    | _ => true)
  let mx := s.eng.mx.filter fun e => !e.recalled && decide (0 < e.left) && s.mxRecalled e
  let t := { s with ops := updateWhere (fun o => ops.any (·.id == o.id)) (fun o => { o with recalled := true }) s.ops
                    eng := { s.eng with mx := updateWhere (fun e => mx.any (·.id == e.id)) (fun e => { e with recalled := true }) s.eng.mx } }
  let u := ops.foldl (fun t o => t.onConvoy o.col o.cv (·.count 5 1)) t
  mx.foldl (fun t e => e.signers.foldl (fun t g => t.onConvoy e.col g.1 (·.count 5 1)) t) u

/-- R26, R187, R188: at the end of a cycle a wait whose bound has passed has ended, and a convoy that could have become ready for 128 cycles
does. -/
def State.forceWake (s : State) (col cv : Nat) : State :=
  let after (t : State) (i : Instr) : State := match exec i t with
    | .next u => u
    | _ => t
  let t := after s (.waitBoundExpiry col cv)
  match (t.convoy? col cv).bind (·.wait) with
  | none => t
  | some w =>
    let set (since : Option Nat) : State := t.onConvoy col cv fun v => { v with wait := v.wait.map fun w => { w with since } }
    match [Instr.convoyWake col cv, .napExpiry col cv, .fwcallAnswer col cv, .replay col cv].find? fun i => after t i != t with
    | none => if w.since.isNone then t else set none
    | some i =>
      let from_ := w.since.getD t.now
      if from_ + 127 ≤ t.now then after t i else set (some from_)

/-- Every waiting convoy at the end of a cycle. -/
def State.forceWakes (s : State) : State :=
  s.cols.foldl (fun t c => (List.range c.cvs.length).foldl (fun t cv => t.forceWake c.id cv) t) s

/-- R310: a core whose slice has run out. -/
def State.slicesOver (s : State) : List Nat :=
  ((s.cols.flatMap fun c => c.cvs.map fun v => coreOf v.quad).dedup).filter fun c => decide (lookupD 0 s.fw.lastSlice c + s.fw.slice ≤ s.now)

/-- R310: no slice lasts longer than SLICE. -/
def State.endSlices (s : State) : State := s.slicesOver.foldl (fun t c => t.endSlice c) s

/-- The cycle ends: groups that stand together have merged (R17), the faults raised beside another group's issue are delivered (R121), what
no port charged is charged (R308), recalls are counted (R236), waits that must end do (R26) and slices too (R310), the clock advances, the
accounts are refilled where that is due (R308), rings show the entries that have completed (R300), and the actual-state tables show the
counts that have moved on (R299). -/
def State.tick (s : State) : State :=
  let t := s.joinGroups.deliverAll.pruneHolds.chargeRest.countRecalls.forceWakes.endSlices.nextCycle
  (if t.refillDue then t.refill else t).flushPosts.syncAst

/-- A port of a quadrant issues. -/
def State.issueOn (s : State) (quad port : Nat) : Host.Outcome State Fault Refusal :=
  match s.pick quad port with
  | .nothing => .next s
  | .faulted t => .next t
  | .run i t => exec i t

/-- R19, R22, R25: a cycle does not end while a port has a candidate that can issue in it: that issue comes first, and the cycle's end
after it. -/
def State.endCycle (s : State) : Host.Outcome State Fault Refusal :=
  match s.nextIssue with
  | some (quad, port) => { s with agenda := .tick :: s.agenda }.issueOn quad port
  | none => .next s.tick

/-! ## What may happen next -/

/-- Device steps of convoys: waits that end, faults at a clause boundary, read-ahead. -/
def State.convoyEvents (s : State) : List Instr :=
  s.cols.flatMap fun c => (List.range c.cvs.length).flatMap fun k =>
    [.convoyWake c.id k, .waitBoundExpiry c.id k, .napExpiry c.id k, .fwcallAnswer c.id k, .replay c.id k,
     .checksumFaultDelivery c.id k, .readAheadFetch c.id k 0, .readAheadFetch c.id k 1]

/-- Device steps of memory operations. -/
def State.opEvents (s : State) : List Instr :=
  s.ops.flatMap fun o => ((o.pieces.map (·.grp)).dedup.flatMap fun g =>
      [Instr.loadReturn o.id g false, .storeArrival o.id g, .pushPerform o.id g]) ++
    [.loadReturn o.id 0 false, .codebookReady o.id, .hostAtomicCompletion o.id .success, .storeArrival o.id 0, .storeAck o.id,
     .plstMergeComplete o.id]

/-- Device steps of the copy and matrix engines and of overlay loads. -/
def State.engineEvents (s : State) : List Instr :=
  (s.eng.jobs.flatMap fun j => ((List.range j.pend.length).map fun k => Instr.ownershipGrant j.id k) ++
      [.copyCompletion j.id, .copyFailure j.id, .shardTimeout j.id]) ++
  (s.eng.mx.flatMap fun e => [Instr.matrixPassGrant e.quad, .matrixDrain e.quad e.id [] []]) ++
  (s.eng.res.flatMap fun r => [Instr.overlayLoadEnd r.core r.part r.prog r.handle, .overlayLoadFail r.core r.part r.prog r.handle])

/-- R358: what answers a mailbox request. -/
def Mailbox.services (b : Mailbox) : List Instr :=
  if !b.busy then []
  else [.mailboxTaskArm (b.fn - 1), .mailboxTaskSignal (b.fn - 1), .allowSet (b.fn - 1), .report b.fn, .migOffer (b.fn - 1),
        .migWrap (b.fn - 1), .migResult (b.fn - 1), .fwWrite, .fwStart, .sliceSet, .pubkeySet, .bboxRead, .mailboxUnknownCode b.fn]

/-- R290: every slot is scanned once in 50 µs of wall time. -/
def State.scanEvents (s : State) : List Instr :=
  if s.now % 50000 = 0 then (0 :: s.obj.parts.map (·.pnum + 1)).flatMap fun fn => (List.range (slotsOf fn)).map fun slot => .surveyorScan fn slot
  else []

/-- Device steps of the function cores and of the Surveyor. -/
def State.firmwareEvents (s : State) : List Instr :=
  (s.paging.map fun q => Instr.pagingAnswer q.part q.ctx q.page) ++
  (s.obj.parts.flatMap fun p => [Instr.taskArm p.pnum, .taskSignal p.pnum, .acctRead p.pnum, .copyRingTake p.pnum false,
      .copyRingTake p.pnum true]) ++
  (s.fw.boxes.flatMap Mailbox.services) ++
  (s.recs.flatMap fun r => [Instr.applyingEnd r.fn r.slot, .drainingEnd r.fn r.slot]) ++
  ((0 :: s.obj.parts.map (·.pnum + 1)).map fun fn => Instr.reconcileStepStart fn) ++ s.scanEvents

/-- Where a column of a route may be placed: a core and the quadrants of its convoys. -/
def State.spots (s : State) (p : Partition) (r : Route) (bmode : Bool) : List (Nat × List Nat) :=
  ((List.range 320).filter fun c => !(p.quadsOf c).isEmpty).map fun c => (c, s.spread p.pnum r bmode c none r.nconv)

/-- Where a saved column may come back: its own quadrants, or others of its core or pair. -/
def State.backSpots (s : State) (r : Route) (k : Column) : List (List Nat) :=
  [k.cvs.map (·.quad), s.spread k.part r k.bmode k.core (some k.id) r.nconv]

/-- Device steps of the dispatcher for a route. -/
def State.routeEvents (s : State) (p : Partition) (r : Route) : List Instr :=
  [.coalescingTimeout p.pnum r.slot, .drainDeadline p.pnum r.slot] ++
  ((s.spots p r r.bounds).flatMap fun cq =>
    .batchLaunch p.pnum r.slot cq.1 cq.2 ::
      ((s.obj.tasks.filter fun t => t.part == p.pnum && t.prog == r.slot).map fun t => .taskLaunch p.pnum t.task cq.1 cq.2) ++
      ((s.launches.filter fun l => l.part == p.pnum && l.prog == r.slot).map fun l => .boundsRoundLaunch l.id cq.1 cq.2)) ++
  ((s.launches.filter fun l => l.part == p.pnum && l.prog == r.slot).flatMap fun l =>
    (s.spots p r false).map fun cq => .elementPassLaunch l.id cq.1 cq.2) ++
  ((s.cols.filter fun c => c.part == p.pnum && c.prog == r.slot).flatMap fun c =>
    (s.backSpots r c).map fun qs => .resumption c.id c.core qs) ++
  ((s.spots p r r.bounds).map fun cq => .preemptForRoom p.pnum r.slot cq.1)

/-- Device steps of the dispatcher. -/
def State.dispatchEvents (s : State) : List Instr :=
  (s.cols.flatMap fun c => [Instr.columnEnd c.id, .preemptionSave c.id, .tileBankSave c.id]) ++
  (s.obj.parts.flatMap fun p => (s.obj.routes.filter (·.part == p.pnum)).flatMap (s.routeEvents p))

/-- The device steps tried, in this order. -/
def State.events (s : State) : List Instr :=
  s.opEvents ++ s.convoyEvents ++ s.engineEvents ++ s.firmwareEvents ++ s.dispatchEvents

/-- A device step changes the state now. -/
def State.happens (s : State) (i : Instr) : Bool :=
  match exec i s with
  | .next t => t != s
  | _ => false

/-- What happens next: a slice that ends, else the first device step that changes something, else an issue, else the next cycle. -/
def State.nextAct (s : State) : Act :=
  match s.slicesOver with
  | c :: _ => .event (.sliceEnd c)
  | [] => match s.events.find? s.happens with
    | some i => .event i
    | none => match s.nextIssue with
      | some (q, p) => .issue q p
      | none => .tick

end Sys2Proof.Machine
end

