-- ==== Sys2Proof/Machine/Step.lean ====
section
/-!
DEFINITION. One step: the head of the agenda, or where it is empty the model's own schedule; and the placing of one instruction
word for the next step.
-/

namespace Sys2Proof.Machine

/-- One act: a port issues, a cycle ends, a device step happens, the host reads a function's BAR0, or an error strikes. -/
def State.perform (s : State) : Act → Host.Outcome State Fault Refusal
  | .tick => s.endCycle
  | .upset u => .next (s.strike u)
  | .read fn off len => .next (s.bar0Read fn off len)
  | .event i => if isDeviceStep i then exec i s else .next s
  | .issue quad port => s.issueOn quad port

/-- One step of the module. -/
def step (s : State) : Host.Outcome State Fault Refusal :=
  match s.agenda with
  | [] => s.perform s.nextAct
  | a :: as => { s with agenda := as }.perform a

/-- The state with an instruction word stored where the next step fetches, numbered as the opcode table numbers its bits. -/
def State.withFetchWord (s : State) (nbits w : Nat) : State := s.place (BitVec.ofNat 96 (w % 2 ^ nbits))

end Sys2Proof.Machine
end

