-- ==== Sys2Proof/Safety.lean ====
section
/-!
DEFINITION. What claims are stated in: when an instruction can issue, what its group leaves behind, which memories are well formed, and
what every step keeps.
-/

namespace Sys2Proof.Machine

/-! ## Issue -/

/-- The group that `State.cur` names can issue `i` now: `x` is its context; no check of R120 refuses the instruction, its operands are
ready, no register it reads is poisoned, and its ports' elements are there; `y` is the context with them popped (R74). -/
structure Issues (i : Instr) (s : State) (x y : Ctx) : Prop where
  ctx : s.ctx (hdrOf i) = some x
  accepted : x.refuses i = none
  ready : s.notReady x i = false
  clean : s.poisonedReg x i = false
  pops : x.popAll (portsOf i false) = .ok y

/-- The state in which the instruction's own effect begins: the popped elements are gone. -/
def State.begun (s : State) (y : Ctx) : State := s.put y y.v

/-- The instruction is executed and its effect is `e`: its group moves as R15, R21 and R27 say. -/
def Gives (i : Instr) (s : State) (x : Ctx) (e : Effect) : Prop := exec i s = .next (x.conclude i s e)

/-- The column runs in element mode and every guard is decided (R245). -/
structure Plain (y : Ctx) : Prop where
  element : y.bounds = false
  decided : y.und = []

/-- The operand is no queue port. -/
def notPort : Operand → Bool
  | .q _ => false
  | _ => true

/-! ## What an instruction leaves -/

/-- Convoy `w` is convoy `v` after the live lanes of the group of `x` have gone to `tgt`: but for program counters, split bits and the
clause's own records nothing differs. -/
structure Moved (x : Ctx) (tgt : Nat → PC) (v w : Convoy) : Prop where
  rest : w = { v with lanes := w.lanes, perf := w.perf, firstIssue := w.firstIssue, lastClause := w.lastClause,
                      liveCount := w.liveCount }
  width : w.lanes.length = v.lanes.length
  lane : ∀ l, w.lane l =
    { v.lane l with pc := if l ∈ x.group ∧ (v.lane l).live = true then tgt l else (v.lane l).pc, split := (w.lane l).split }

/-- In `t` the issuing convoy is `w`; every other convoy and every other column is as in `u`, and of the column itself only the undo
log may differ. -/
structure Own (u t : State) (x : Ctx) (w : Convoy) : Prop where
  others : ∀ id, id ≠ x.cur.col → t.column? id = u.column? id
  own : ∃ c d, u.column? x.cur.col = some c ∧ t.column? x.cur.col = some d ∧ d = { c with cvs := d.cvs, undo := d.undo } ∧
    (∀ k, k ≠ x.cur.cv → d.cvs[k]? = c.cvs[k]?) ∧ d.cvs[x.cur.cv]? = some w

/-- `t` is `u` after the group of `x`, whose instruction left its convoy as `v`, has gone on to the next slot: memory, every other
column and every other convoy are as in `u`; of the column itself only the undo log, of the caches only poison may differ. -/
structure Ran (u t : State) (x : Ctx) (v : Convoy) : Prop where
  rest : t = { u with cols := t.cols, coh := { u.coh with poison := t.coh.poison }, holds := t.holds, issued := t.issued, cur := none }
  own : ∃ w, Moved x (fun _ => nextPc x.pc) v w ∧ Own u t x w

/-- `t` is `u` after a branch took the live lanes of the group to `tgt`: what differs beside is the instruction store, where overlays in
draining that nothing references any more leave it (R213). -/
structure Went (u t : State) (x : Ctx) (v : Convoy) (tgt : Nat → PC) : Prop where
  rest : t = { u with cols := t.cols, holds := t.holds, issued := t.issued, cur := none, eng := { u.eng with res := t.eng.res },
                      store := { u.store with istore := t.store.istore } }
  own : ∃ w, Moved x tgt v w ∧ Own u t x w

/-- `t` is `u` after the convoy, left as `v`, was descheduled at the instruction (R26). -/
structure Waited (u t : State) (x : Ctx) (v : Convoy) (kind : WaitKind) (deadline : Option Nat) : Prop where
  rest : t = { u with cols := t.cols, holds := t.holds, issued := t.issued, cur := none }
  own : ∃ w, w = { v with
      wait := some { kind, pc := x.pc, group := x.group, active := x.act, deadline, err := none, met := false, since := none }
      fencing := none
      perf := w.perf, firstIssue := w.firstIssue, lastClause := w.lastClause, liveCount := w.liveCount } ∧ Own u t x w

/-- `t` is `u` after the clause, its convoy `v`, stalled at the instruction (R22): it has popped nothing (R74). -/
structure Stalled (u t : State) (x : Ctx) (v : Convoy) : Prop where
  rest : t = { u with cols := t.cols, holds := t.holds, issued := t.issued, cur := none }
  own : ∃ w, w = { v with perf := w.perf, ports := x.v.ports } ∧ Own u t x w

/-- The instruction is executed from `s`, and what it leaves is `u` with its convoy as `v` and its group at the next slot. -/
def LeavesIn (i : Instr) (s : State) (x : Ctx) (u : State) (v : Convoy) : Prop := ∃ t, exec i s = .next t ∧ Ran u t x v

/-- The instruction is executed, and leaves its convoy as `v` and everything else as it was. -/
def Leaves (i : Instr) (s : State) (x : Ctx) (v : Convoy) : Prop := LeavesIn i s x s v

/-- The instruction is executed, and leaves its convoy as `v` with its lanes at `tgt`. -/
def Jumps (i : Instr) (s : State) (x : Ctx) (v : Convoy) (tgt : Nat → PC) : Prop := ∃ t, exec i s = .next t ∧ Went s t x v tgt

/-- The instruction is executed from `s`, and what it leaves is `u` with its convoy, as `v`, descheduled. -/
def WaitsIn (i : Instr) (s : State) (x : Ctx) (u : State) (v : Convoy) (kind : WaitKind) (deadline : Option Nat) : Prop :=
  ∃ t, exec i s = .next t ∧ Waited u t x v kind deadline

/-- The instruction cannot complete yet, and what it leaves is `u` with its clause stalled. -/
def StallsIn (i : Instr) (s : State) (x : Ctx) (u : State) (v : Convoy) : Prop := ∃ t, exec i s = .next t ∧ Stalled u t x v

/-- The instruction is executed, what it leaves is `u`, and its group is at the next slot. -/
def Goes (i : Instr) (s : State) (x : Ctx) (u : State) : Prop := ∃ v, u.convoy? x.cur.col x.cur.cv = some v ∧ LeavesIn i s x u v

/-- The instruction is executed, what it leaves is `u`, and the lanes of its group are at `tgt`. -/
def GoesTo (i : Instr) (s : State) (x : Ctx) (u : State) (tgt : Nat → PC) : Prop :=
  ∃ v t, u.convoy? x.cur.col x.cur.cv = some v ∧ exec i s = .next t ∧ Went u t x v tgt

/-- What the instruction leaves is `u` with its convoy descheduled. -/
def WaitsAt (i : Instr) (s : State) (x : Ctx) (u : State) (kind : WaitKind) (deadline : Option Nat) : Prop :=
  ∃ v, u.convoy? x.cur.col x.cur.cv = some v ∧ WaitsIn i s x u v kind deadline

/-- What the instruction leaves is `u` with its clause stalled. -/
def StallsAt (i : Instr) (s : State) (x : Ctx) (u : State) : Prop :=
  ∃ v, u.convoy? x.cur.col x.cur.cv = some v ∧ StallsIn i s x u v

/-- A device step takes the waiting convoy of `x` on: what it leaves is `u` with that convoy as `v`, its wait over, and its group at the
next slot. -/
def Resumes (i : Instr) (s : State) (x : Ctx) (u : State) (v : Convoy) : Prop :=
  ∃ t w, exec i s = .next t ∧ t = { u with cols := t.cols } ∧ Moved x (fun _ => nextPc x.pc) v w ∧ Own u t x w

/-- The instruction faults in the lanes of F with a code, an address and ACCESS bits, after which `u` stands (R230). -/
def Faults (i : Instr) (s : State) (x : Ctx) (u : State) (F : List Nat) (code : BitVec 16) (addr : DWord) (access : Nat) : Prop :=
  Gives i s x (.fault u F ⟨code, addr, access⟩)

/-! ## Accesses -/

/-- What a translation may change: the caches with the stored errors, the black box where an error was found, and the free counter. -/
def State.ReadsTo (s t : State) : Prop :=
  t = { s with coh := t.coh, fresh := t.fresh, fw := { s.fw with bbox := t.fw.bbox, bbSeq := t.fw.bbSeq } }

/-- R67: every byte of an access translates, with the permission that it needs: the access can be made. -/
def State.reaches (s : State) (x : Ctx) (space : Space) (perm : Perm) (deny : Loc → Option (BitVec 16)) (ws : List Want) : Prop :=
  ∃ r, s.resolve x space perm deny ws = .ok r

/-- R67, R175, R180: every byte of the rows of one side of a copy translates, with the permission that it needs. -/
def State.reachesRows (s : State) (d : Side) (perm : Perm) (rows : List (Int × Nat)) : Prop := ∃ u, s.probeRows d perm rows = .ok u

/-! ## Registers -/

/-- The convoy with `k` registers of A written (R109, R111): in each active lane the lane's own value; a uniform register once, with the
value of the lowest active lane; 0xFF writes nothing. -/
def Ctx.gets (y : Ctx) (a : Operand) (k : Nat) (val : Nat → Nat) : Convoy :=
  match a with
  | .v n => y.v.onLanes y.act fun l r => r.setWideReg n.toNat k (val l)
  | .s n => match y.act.head? with
    | some l => y.v.setWideSreg n.toNat k (val l)
    | none => y.v
  | _ => y.v

/-- The convoy with predicate A written in each active lane. -/
def Ctx.getsPred (y : Ctx) (a : Operand) (val : Nat → Bool) : Convoy :=
  match a with
  | .p n => y.v.onLanes y.act fun l r => r.setPred n.toNat (.of (val l))
  | _ => y.v

/-- The number that a source operand of `k` registers has in a lane. -/
def Ctx.src (y : Ctx) (l : Nat) (o : Operand) (k : Nat := 1) : Nat := (y.read l o k).lo

/-! ## Operations on registers -/

/-- An operation on registers: destination and its registers, sources with theirs, and the value. -/
structure AluForm where
  a : Operand
  k : Nat
  srcs : List (Operand × Nat)
  op : Alu

/-- The instructions whose whole effect is one value of their sources, written to A (R122, R146). -/
def aluForm : Instr → Option AluForm
  | .iadd f => some ⟨f.a, 1, [(f.b, 1), (f.c, 1)], (addAlu f)⟩
  | .isub f => some ⟨f.a, 1, [(f.b, 1), (f.c, 1)], (subAlu f)⟩
  | .imul f => some ⟨f.a, 1, [(f.b, 1), (f.c, 1)], (mulAlu f)⟩
  | .imulh f => some ⟨f.a, 1, [(f.b, 1), (f.c, 1)], (mulhAlu f)⟩
  | .imad f => some ⟨f.a, 1, [(f.b, 1), (f.c, 1), (f.d, 1)], (madAlu f)⟩
  | .iaddx f => some ⟨f.a, 2, [(f.b, 2), (f.c, 2)], (addAlu f)⟩
  | .isubx f => some ⟨f.a, 2, [(f.b, 2), (f.c, 2)], (subAlu f)⟩
  | .imadx f => some ⟨f.a, 2, [(f.b, 1), (f.c, 1), (f.d, 2)], (madxAlu f)⟩
  | .lea f => some ⟨f.a, f.baseRegs, [(f.b, f.baseRegs), (f.c, 1)], (leaAlu f)⟩
  | .imin f => some ⟨f.a, 1, [(f.b, 1), (f.c, 1)], (minAlu f)⟩
  | .imax f => some ⟨f.a, 1, [(f.b, 1), (f.c, 1)], (maxAlu f)⟩
  | .iabs f => some ⟨f.a, 1, [(f.b, 1)], (absAlu f)⟩
  | .ineg f => some ⟨f.a, 1, [(f.b, 1)], (negAlu f)⟩
  | .idiv f => some ⟨f.a, 1, [(f.b, 1), (f.c, 1)], (divAlu f)⟩
  | .irem f => some ⟨f.a, 1, [(f.b, 1), (f.c, 1)], (remAlu f)⟩
  | .sadd f => some ⟨f.a, 1, [(f.b, 1), (f.c, 1)], (saddAlu f)⟩
  | .ssub f => some ⟨f.a, 1, [(f.b, 1), (f.c, 1)], (ssubAlu f)⟩
  | .idp4 f => some ⟨f.a, 1, [(f.b, 1), (f.c, 1), (f.d, 1)], (dotAlu f 8)⟩
  | .idp8 f => some ⟨f.a, 1, [(f.b, 1), (f.c, 1), (f.d, 1)], (dotAlu f 4)⟩
  | .idp2 f => some ⟨f.a, 1, [(f.b, 1), (f.c, 1), (f.d, 1)], (dotAlu f 16)⟩
  | .mov f => some ⟨f.a, f.ty.regs, [(f.b, f.ty.regs)], (movAlu (f.ty == .i64))⟩
  | .movi f => some ⟨f.a, 1, [], (immAlu f.imm)⟩
  | .movh f => some ⟨f.a, 2, [(f.b, 1)], (movhAlu f.imm)⟩
  | .band f => some ⟨f.a, f.ty.regs, [(f.b, f.ty.regs), (f.c, f.ty.regs)], (logicAlu f.ty (· &&& ·))⟩
  | .bor f => some ⟨f.a, f.ty.regs, [(f.b, f.ty.regs), (f.c, f.ty.regs)], (logicAlu f.ty (· ||| ·))⟩
  | .bxor f => some ⟨f.a, f.ty.regs, [(f.b, f.ty.regs), (f.c, f.ty.regs)], (logicAlu f.ty (· ^^^ ·))⟩
  | .bandn f => some ⟨f.a, f.ty.regs, [(f.b, f.ty.regs), (f.c, f.ty.regs)], (logicAlu f.ty (fun x y => x &&& notBits f.ty y))⟩
  | .bnot f => some ⟨f.a, f.ty.regs, [(f.b, f.ty.regs)], (logicAlu f.ty fun x _ => notBits f.ty x)⟩
  | .shl f => some ⟨f.a, 1, [(f.b, 1), (f.c, 1)], (shlAlu f)⟩
  | .shr f => some ⟨f.a, 1, [(f.b, 1), (f.c, 1)], (shrAlu f false)⟩
  | .sar f => some ⟨f.a, 1, [(f.b, 1), (f.c, 1)], (shrAlu f true)⟩
  | .rot f => some ⟨f.a, 1, [(f.b, 1), (f.c, 1)], (rotAlu f)⟩
  | .bfx f => some ⟨f.a, 1, [(f.b, 1), (f.c, 1), (f.d, 1)], (bfxAlu f)⟩
  | .bfi f => some ⟨f.a, 1, [(f.b, 1), (f.c, 1), (f.d, 1), (f.e, 1)], bfiAlu⟩
  | .popc f => some ⟨f.a, 1, [(f.b, 1)], (countAlu (popCount 32))⟩
  | .clz f => some ⟨f.a, 1, [(f.b, 1)], (countAlu leadingZeros)⟩
  | .brev f => some ⟨f.a, 1, [(f.b, 1)], brevAlu⟩
  | .fadd f => some ⟨f.a, 1, [(f.b, 1), (f.c, 1)], (faddAlu f)⟩
  | .fsub f => some ⟨f.a, 1, [(f.b, 1), (f.c, 1)], (fsubAlu f)⟩
  | .fmul f => some ⟨f.a, 1, [(f.b, 1), (f.c, 1)], (fmulAlu f)⟩
  | .fscale f => some ⟨f.a, 1, [(f.b, 1), (f.c, 1)], (fscaleAlu f)⟩
  | .ffma f => some ⟨f.a, 1, [(f.b, 1), (f.c, 1), (f.d, 1)], (ffmaAlu f)⟩
  | .fmin f => some ⟨f.a, 1, [(f.b, 1), (f.c, 1)], fminAlu⟩
  | .fmax f => some ⟨f.a, 1, [(f.b, 1), (f.c, 1)], fmaxAlu⟩
  | .fabs f => some ⟨f.a, 1, [(f.b, 1)], fabsAlu⟩
  | .fneg f => some ⟨f.a, 1, [(f.b, 1)], fnegAlu⟩
  | .frcp f => some ⟨f.a, 1, [(f.b, 1)], (frcpAlu f)⟩
  | .fsqrt f => some ⟨f.a, 1, [(f.b, 1)], (fsqrtAlu f)⟩
  | .frsq f => some ⟨f.a, 1, [(f.b, 1)], frsqAlu⟩
  | .fclass f => some ⟨f.a, 1, [(f.b, 1)], (fclassAlu f)⟩
  | .fexpn f => some ⟨f.a, 1, [(f.b, 1)], (fexpnAlu f)⟩
  | .hadd2 f => some ⟨f.a, 1, [(f.b, 1), (f.c, 1)], (hadd2Alu f)⟩
  | .hmul2 f => some ⟨f.a, 1, [(f.b, 1), (f.c, 1)], (hmul2Alu f)⟩
  | .hfma2 f => some ⟨f.a, 1, [(f.b, 1), (f.c, 1), (f.d, 1)], (hfma2Alu f)⟩
  | .cvt f => some ⟨f.a, f.ty.regs, convSrcs f, (convAlu f)⟩
  | .cvti f => some ⟨f.a, f.ty.regs, convSrcs f, (convAlu f)⟩
  | .icvt f => some ⟨f.a, f.ty.regs, convSrcs f, (convAlu f)⟩
  | .exp2 f => some ⟨f.a, 1, [(f.b, 1)], exp2Alu⟩
  | .log2 f => some ⟨f.a, 1, [(f.b, 1)], log2Alu⟩
  | .sin f => some ⟨f.a, 1, [(f.b, 1)], (trigAlu false)⟩
  | .cos f => some ⟨f.a, 1, [(f.b, 1)], (trigAlu true)⟩
  | .tanh f => some ⟨f.a, 1, [(f.b, 1)], tanhAlu⟩
  | .smxi f => some ⟨f.a, 2, [], smxiAlu⟩
  | .smxacc f => some ⟨f.a, 2, [(f.b, 2), (f.c, 1)], smxaccAlu⟩
  | .smxnrm f => some ⟨f.a, 1, [(f.b, 2), (f.c, 1)], (smxnrmAlu f)⟩
  | _ => none

/-- The value of such an operation in a lane. -/
def AluForm.eval (g : AluForm) (y : Ctx) (l : Nat) : IVal := g.op.eval (g.srcs.map fun o => y.read l o.1 o.2)

/-- The registers that an instruction with a result writes: destination, its registers, how an undecided guard merges, and the value in
each lane (R122, R130, R155). -/
def resultOf (y : Ctx) (i : Instr) : Option (Operand × Nat × ResKind × (Nat → IVal)) :=
  match aluForm i with
  | some g => some (g.a, g.k, g.op.kind, g.eval y)
  | none => match i with
    | .sel f => some (f.a, f.ty.regs, .bits (f.ty == .i64) true, fun l =>
        let b := y.read l f.b f.ty.regs
        let c := y.read l f.c f.ty.regs
        match y.readPred l f.d with
        | .yes => b
        | .no => c
        | .und => bitHull (f.ty == .i64) [b, c])
    | .qnt f =>
      let op := if f.subop = 0 then qntAlu (y.quantSlot f) (y.table (slotOf f.ent.toNat)) (bitsOf f.ent.toNat 3 5) else qntScAlu (y.quantSlot f)
      some (f.a, 1, op.kind, fun l => op.eval (if f.subop = 0 then [y.read l f.b, y.read l f.c, y.read l f.a] else [y.read l f.b]))
    | .dqnt f =>
      let op := dqntAlu (y.quantSlot f) (y.table (slotOf f.ent.toNat)) (bitsOf f.ent.toNat 3 5)
      some (f.a, 1, op.kind, fun l => op.eval [y.read l f.b, y.read l f.c])
    | _ => none

/-- The value of an integer source read as TYPE (R122). -/
def Ctx.int (y : Ctx) (f : RForm) (l : Nat) (o : Operand) (k : Nat := 1) : Int := readInt (32 * k) f.ty.isSigned (y.src l o k)

/-- The value of a source read as f32. -/
def Ctx.flt (y : Ctx) (l : Nat) (o : Operand) : Exact := readValue .f32 (y.src l o)

/-- An exact integer reduced modulo 2^n, or with `.sat` clamped to the range of the type (R122). -/
def reduced (n : Nat) (signed sat : Bool) (e : Int) : Nat := wrapTo n (if sat then clampTo (intMin n signed) (intMax n signed) e else e)

/-- In element mode the instruction writes the value to A, `k` registers of it, in each active lane, and changes nothing else. -/
def Computes (i : Instr) (a : Operand) (k : Nat) (val : Ctx → Nat → Nat) : Prop :=
  notPort a = true → ∀ s x y, Issues i s x y → Plain y → Leaves i s x (y.gets a k (val y))

/-- In element mode, with a write port as its destination, the instruction pushes the value, one element for each active lane; a push whose
addresses do not all translate faults (R67, R75). -/
def Pushes (i : Instr) (a : Operand) (val : State → Ctx → Nat → Nat) : Prop :=
  ∀ n s x y, a = .q n → Issues i s x y → Plain y → match (s.begun y).push y n.toNat (some (val (s.begun y) y)) none with
    | .ok r => Goes i s x (r.1.put y r.2)
    | .error b => Faults i s x (s.begun y) y.group b.code b.addr b.access

/-- Every word that decodes to the instruction has fields that meet `p` (R112, R119). -/
def Only (mk : RForm → Instr) (p : RForm → Prop) : Prop := ∀ w f, decode w = .ok (mk f) → p f

/-- In element mode the instruction writes predicate A in each active lane, and changes nothing else. -/
def Decides (i : Instr) (a : Operand) (val : Ctx → Nat → Bool) : Prop :=
  ∀ s x y, Issues i s x y → Plain y → Leaves i s x (y.getsPred a (val y))

/-! ## Memory -/

/-- `t` has in its memories the bytes at a place, and every other byte of them as in `s`; tiles, checksum words, the instruction store
and the physical function's structures are as in `s`. -/
structure Puts (s t : State) (loc : Loc) (a : Nat) (bs : List Byte) : Prop where
  there : t.peekBytes loc a bs.length = bs
  else_ : ∀ l b, b < 2 ^ 52 → ¬(l.same loc = true ∧ a ≤ b ∧ b < a + bs.length) → t.peek l b = s.peek l b
  rest : t.store = { s.store with dev := t.store.dev, spad := t.store.spad, peer := t.store.peer, host := t.store.host }

/-- Every memory is in its canonical form. -/
def Store.wf (m : Store) : Bool :=
  Memory.wf m.dev && Memory.wf m.host && Memory.wf m.peer && Memory.wf m.spad && Memory.wf m.istore && Memory.wf m.pf &&
  Memory.wf m.fwmem && canonical (0 : Word) m.tiles && canonical (0 : Word) m.cksum

end Sys2Proof.Machine
end

