-- ==== Sys2Proof/Certificates/Slice0/Obligations.lean ====
section
/-!
DEFINITION. The statements for the provers.
-/

open Sys2Proof Sys2Proof.Machine

/-! ## Register instructions in element mode -/

/-- R124: IADD, ISUB, IMUL, IMULH, IMAD, IMIN, IMAX, IABS, INEG, SADD and SSUB write the exact value of their row, modulo 2^32 or with
`.sat` clamped, in each active lane; nothing else changes. R125: IDIV writes the quotient truncated toward zero, IREM what is left; a zero
divisor gives 2^32 - 1 read as TYPE, and x. R126: the 64-bit forms on register pairs; B and C of IMADX are 32-bit registers extended under
TYPE. -/
def Obligations.IntegerArithmetic : Prop :=
  (∀ f : RForm, f.ty = .i32 ∨ f.ty = .n32 →
    let e (sat : Bool) (g : Int → Int → Int → Int) (y : Ctx) (l : Nat) : Nat :=
      reduced 32 f.ty.isSigned sat (g (y.int f l f.b) (y.int f l f.c) (y.int f l f.d))
    let k := bitsOf f.ent.toNat 0 5
    Computes (.iadd f) f.a 1 (e f.sat fun x y _ => x + y) ∧
    Computes (.isub f) f.a 1 (e f.sat fun x y _ => x - y) ∧
    Computes (.imul f) f.a 1 (e f.sat fun x y _ => x * y) ∧
    Computes (.imulh f) f.a 1 (e false fun x y _ => x * y / 2 ^ 32) ∧
    Computes (.imad f) f.a 1 (e f.sat fun x y z => x * y + z) ∧
    Computes (.imin f) f.a 1 (e false fun x y _ => min x y) ∧
    Computes (.imax f) f.a 1 (e false fun x y _ => max x y) ∧
    Computes (.iabs f) f.a 1 (e f.sat fun x _ _ => |x|) ∧
    Computes (.ineg f) f.a 1 (e f.sat fun x _ _ => -x) ∧
    Computes (.sadd f) f.a 1 (e f.sat fun x y _ => x + y * 2 ^ k) ∧
    Computes (.ssub f) f.a 1 (e f.sat fun x y _ => x - y * 2 ^ k)) ∧
  ((∀ f : RForm, f.ty = .i32 ∨ f.ty = .n32 →
    Computes (.idiv f) f.a 1 (fun y l =>
      reduced 32 f.ty.isSigned f.sat
        (if y.int f l f.c = 0 then readInt 32 f.ty.isSigned (2 ^ 32 - 1) else (y.int f l f.b).tdiv (y.int f l f.c))) ∧
    Computes (.irem f) f.a 1 (fun y l =>
      wrapTo 32 (if y.int f l f.c = 0 then y.int f l f.b else y.int f l f.b - (y.int f l f.b).tdiv (y.int f l f.c) * y.int f l f.c))) ∧
  (∀ mk ∈ [Instr.idiv, .irem], Only mk fun f => (f.ty = .i32 ∨ f.ty = .n32) ∧ f.subop = 0 ∧ f.ent = 0) ∧ Only .irem fun f => f.sat = false) ∧
  ((∀ f : RForm, f.ty = .i64 ∨ f.ty = .n64 →
    let e (g : Ctx → Nat → Int) (y : Ctx) (l : Nat) : Nat := reduced 64 f.ty.isSigned f.sat (g y l)
    Computes (.iaddx f) f.a 2 (e fun y l => y.int f l f.b 2 + y.int f l f.c 2) ∧
    Computes (.isubx f) f.a 2 (e fun y l => y.int f l f.b 2 - y.int f l f.c 2) ∧
    Computes (.imadx f) f.a 2 (e fun y l => y.int f l f.b * y.int f l f.c + y.int f l f.d 2)) ∧
  let even (o : Operand) : Prop := (∀ n, o = .v n → n.toNat % 2 = 0) ∧ ∀ n, o = .s n → n.toNat % 2 = 0
  (∀ mk ∈ [Instr.iaddx, .isubx], Only mk fun f => (f.ty = .i64 ∨ f.ty = .n64) ∧ f.subop = 0 ∧ f.ent = 0 ∧ even f.a ∧ even f.b ∧ even f.c) ∧
  Only .imadx fun f => (f.ty = .i64 ∨ f.ty = .n64) ∧ f.subop = 0 ∧ f.ent = 0 ∧ even f.a ∧ even f.d)

/-- R127: LEA forms an address of 64 bits from a base pair, a signed index and the offset, or one of 32 bits from a base register and an
index; nothing is accessed. R56, R114, R127: the address of a lane's access. -/
def Obligations.Addresses : Prop :=
  (∀ f : MForm,
    (f.space = .global → Computes (.lea f) f.a 2 fun y l =>
      wrapTo 64 ((y.src l f.b 2 : Int) + signedOf 32 (y.src l f.c) * 2 ^ f.scale.val + f.off.toInt)) ∧
    (f.space = .scratch → Computes (.lea f) f.a 1 fun y l =>
      wrapTo 32 ((y.src l f.b : Int) + (y.src l f.c : Int) * 2 ^ f.scale.val + f.off.toInt))) ∧
  (∀ (f : MForm) (y : Ctx) (l : Nat),
    (f.space = .global →
      y.ea f l = (y.src l f.b 2 : Int) + signedOf 32 (y.src l f.c) * 2 ^ f.scale.val + f.off.toInt) ∧
    (f.space = .scratch →
      y.ea f l = ((y.src l f.b : Int) + (y.src l f.c : Int) * 2 ^ f.scale.val + f.off.toInt) % 2 ^ 32))

/-- R128: the packed dot products: D, read as T, plus the exact sum of the products of the elements. -/
def Obligations.DotProducts : Prop :=
  (∀ f : RForm,
    let bu := f.ent.getLsbD 0
    let cu := f.ent.getLsbD 1
    let t := !(bu && cu)
    let e (w : Nat) (y : Ctx) (l : Nat) : Nat :=
      let elem (u : Bool) (x k : Nat) : Int := readInt w (!u) (bitsOf x (w * k) w)
      reduced 32 t f.sat (readInt 32 t (y.src l f.d) +
        ((List.range (32 / w)).map fun k => elem bu (y.src l f.b) k * elem cu (y.src l f.c) k).sum)
    Computes (.idp4 f) f.a 1 (e 8) ∧ (f.ent = 0 → Computes (.idp8 f) f.a 1 (e 4)) ∧ Computes (.idp2 f) f.a 1 (e 16)) ∧
  Only .idp4 (fun f => f.ty = .i8 ∧ f.subop = 0 ∧ bitsOf f.ent.toNat 2 10 = 0) ∧ Only .idp8 (fun f => f.ty = .i4 ∧ f.subop = 0 ∧ f.ent = 0) ∧
  Only .idp2 fun f => f.ty = .i16 ∧ f.subop = 0 ∧ bitsOf f.ent.toNat 2 10 = 0

/-- R129, R130: MOV copies a register or a pair, MOVI and MOVH write their immediate, and SEL chooses by predicate D. A predicate that is
undecided, which R245 has in bounds passes alone, gives the low end of the hull of both (R137). -/
def Obligations.Moves : Prop :=
  ((∀ f : RForm, Computes (.mov f) f.a f.ty.regs fun y l => y.src l f.b f.ty.regs) ∧
  (∀ f : IForm, Computes (.movi f) f.a 1 (fun _ _ => f.imm.toNat) ∧
    Computes (.movh f) f.a 2 fun y l => y.src l f.b + 2 ^ 32 * f.imm.toNat) ∧
  (∀ f : RForm, Computes (.sel f) f.a f.ty.regs fun y l =>
    match y.readPred l f.d with
    | .yes => y.src l f.b f.ty.regs
    | .no => y.src l f.c f.ty.regs
    | .und => (bitHull (f.ty == .i64) [y.read l f.b f.ty.regs, y.read l f.c f.ty.regs]).lo)) ∧
  Only .sel fun f => (f.ty = .none ∨ f.ty = .i64) ∧ f.subop = 0 ∧ f.ent = 0 ∧ ∃ n, f.d = .p n

/-- R131, R132: the bitwise instructions on 32 bits or pairs, and the shifts with their amount from C or from the word. R133, R134: BFX
extracts and BFI inserts a clipped field; POPC counts ones, CLZ zeros above the highest one, BREV reverses. -/
def Obligations.LogicAndFields : Prop :=
  ((∀ f : RForm,
    let n := 32 * f.ty.regs
    let g (h : Nat → Nat → Nat) (y : Ctx) (l : Nat) : Nat := h (y.src l f.b f.ty.regs) (y.src l f.c f.ty.regs) % 2 ^ n
    let s (h : Nat → Nat → Nat) (y : Ctx) (l : Nat) : Nat :=
      h (y.src l f.b) (if f.ent.getLsbD 11 then bitsOf f.ent.toNat 0 5 else y.src l f.c)
    Computes (.band f) f.a f.ty.regs (g (· &&& ·)) ∧
    Computes (.bor f) f.a f.ty.regs (g (· ||| ·)) ∧
    Computes (.bxor f) f.a f.ty.regs (g (· ^^^ ·)) ∧
    Computes (.bnot f) f.a f.ty.regs (g fun b _ => 2 ^ n - 1 - b) ∧
    Computes (.bandn f) f.a f.ty.regs (g fun b c => b &&& (2 ^ n - 1 - c)) ∧
    Computes (.shl f) f.a 1 (s fun b k => if k ≥ 32 then 0 else b * 2 ^ k % 2 ^ 32) ∧
    Computes (.shr f) f.a 1 (s fun b k => if k ≥ 32 then 0 else b / 2 ^ k) ∧
    Computes (.sar f) f.a 1 (s fun b k => wrapTo 32 (signedOf 32 b / 2 ^ min k 31)) ∧
    Computes (.rot f) f.a 1 (s fun b k => (b * 2 ^ (k % 32) + b / 2 ^ (32 - k % 32)) % 2 ^ 32)) ∧
  (∀ mk ∈ [Instr.band, .bor, .bxor, .bnot, .bandn], Only mk fun f => (f.ty = .none ∨ f.ty = .i64) ∧ f.subop = 0 ∧ f.ent = 0) ∧
  ∀ mk ∈ [Instr.shl, .shr, .sar, .rot], Only mk fun f => f.ty = .none ∧ f.subop = 0 ∧ bitsOf f.ent.toNat 5 6 = 0 ∧
    if f.ent.getLsbD 11 then f.c = .none else bitsOf f.ent.toNat 0 5 = 0) ∧
  ((∀ f : RForm,
    let clip (pos wd : Nat) : Nat := if pos ≥ 32 ∨ wd = 0 then 0 else min wd (32 - pos)
    Computes (.bfx f) f.a 1 (fun y l =>
      let w := clip (y.src l f.c) (y.src l f.d)
      let v := bitsOf (y.src l f.b) (y.src l f.c) w
      if w = 0 then 0 else if f.ty = .i32 then wrapTo 32 (signedOf w v) else v) ∧
    Computes (.bfi f) f.a 1 (fun y l =>
      let w := clip (y.src l f.d) (y.src l f.e)
      let b := y.src l f.b
      if w = 0 then b else b - bitsOf b (y.src l f.d) w * 2 ^ y.src l f.d + y.src l f.c % 2 ^ w * 2 ^ y.src l f.d) ∧
    Computes (.popc f) f.a 1 (fun y l => ((List.range 32).filter (y.src l f.b).testBit).length) ∧
    Computes (.clz f) f.a 1 (fun y l => if y.src l f.b = 0 then 32 else 31 - (y.src l f.b).log2) ∧
    Computes (.brev f) f.a 1 (fun y l => ((List.range 32).map fun i => if (y.src l f.b).testBit i then 2 ^ (31 - i) else 0).sum)) ∧
  Only .bfx (fun f => (f.ty = .i32 ∨ f.ty = .n32) ∧ f.subop = 0 ∧ f.ent = 0) ∧
  ∀ mk ∈ [Instr.bfi, .popc, .clz, .brev], Only mk fun f => f.ty = .none ∧ f.subop = 0 ∧ f.ent = 0)

/-- R135, R136, R150: ICMP compares B and C as TYPE, FCMP as f32 with the zeros equal and NaN unordered, and PSET tests a register. Their
entries name P0 to P6 as what is written; that they accept a destination of none besides, which discards the result, is the model's choice
(log 64). R136, R137: PAND, POR, PXOR and PNOT write the connective of the sources lane by lane, in every mode; on decided predicates the
connectives are those of two values, an undecided one leaves PXOR undecided, and PAND with a false one false. -/
def Obligations.ComparesAndPredicates : Prop :=
  ((∀ f : RForm,
    (f.ty = .i32 ∨ f.ty = .n32 ∨ f.ty = .i64 ∨ f.ty = .n64 → Decides (.icmp f) f.a fun y l =>
      let b := y.int f l f.b f.ty.regs
      let c := y.int f l f.c f.ty.regs
      match f.subop.toNat with
      | 0 => b = c
      | 1 => b ≠ c
      | 2 => b < c
      | 3 => b ≤ c
      | 4 => b > c
      | _ => b ≥ c) ∧
    Decides (.fcmp f) f.a (fun y l =>
      let b := y.flt l f.b
      let c := y.flt l f.c
      let nan := b = .nan ∨ c = .nan
      let le := ¬nan ∧ (b.le c = true ∨ b.eqv c = true)
      let ge := ¬nan ∧ (c.le b = true ∨ b.eqv c = true)
      match f.subop.toNat with
      | 0 => b.eqv c
      | 1 => !b.eqv c
      | 2 => le ∧ ¬ge
      | 3 => le
      | 4 => ge ∧ ¬le
      | 5 => ge
      | 6 => nan
      | _ => ¬nan) ∧
    Decides (.pset f) f.a fun y l => y.src l f.b ≠ 0) ∧
  Only .icmp (fun f => (f.ty = .i32 ∨ f.ty = .n32 ∨ f.ty = .i64 ∨ f.ty = .n64) ∧ f.subop.toNat ≤ 5 ∧ f.ent = 0 ∧
    (f.a = .none ∨ ∃ n, f.a = .p n ∧ n ≠ 7)) ∧
  Only .fcmp fun f => f.ty = .f32 ∧ f.subop.toNat ≤ 7 ∧ f.ent = 0 ∧ (f.a = .none ∨ ∃ n, f.a = .p n ∧ n ≠ 7)) ∧
  ((∀ (f : RForm) (s : State) (x y : Ctx),
    let r (i : Instr) (g : Tri → Tri → Tri) : Prop :=
      Issues i s x y → Leaves i s x (y.writePred f.a fun l => g (y.readPred l f.b) (y.readPred l f.c))
    r (.pand f) Tri.and ∧ r (.por f) Tri.or ∧ r (.pxor f) Tri.xor ∧ r (.pnot f) fun b _ => b.not) ∧
  (∀ a b : Bool, (Tri.of a).and (.of b) = .of (a && b) ∧ (Tri.of a).or (.of b) = .of (a || b) ∧
    (Tri.of a).xor (.of b) = .of (a != b) ∧ (Tri.of a).not = .of (!a)) ∧
  ∀ p : Tri, p.and .no = .no ∧ Tri.no.and p = .no ∧ p.xor .und = .und ∧ Tri.und.xor p = .und ∧ Tri.und.not = .und ∧
    Tri.und.and .yes = .und ∧ Tri.yes.and .und = .und ∧ Tri.und.and .und = .und)

/-- R148: the f32 instructions write the exact result rounded once under their mode; FMIN and FMAX skip one NaN and order -0 below +0,
FABS and FNEG change the sign bit. R149, R151 to R153: FRSQ with its special results, the class mask of FCLASS, the parts of FEXPN, and
the packed halves, which never interact. -/
def Obligations.FloatArithmetic : Prop :=
  (∀ f : RForm,
    let r (g : Exact → Exact → Exact → Exact) (y : Ctx) (l : Nat) : Nat :=
      roundTo .f32 f.rnd false (g (y.flt l f.b) (y.flt l f.c) (y.flt l f.d))
    let m (least : Bool) (y : Ctx) (l : Nat) : Nat :=
      let b := y.src l f.b
      let c := y.src l f.c
      if y.flt l f.b = .nan then if y.flt l f.c = .nan then 0x7FC00000 else c
      else if y.flt l f.c = .nan then b
      else if (f32Key b ≤ f32Key c) = least then b else c
    Computes (.fadd f) f.a 1 (r fun b c _ => b.add f.rnd c) ∧
    Computes (.fsub f) f.a 1 (r fun b c _ => b.add f.rnd c.negate) ∧
    Computes (.fmul f) f.a 1 (r fun b c _ => b.mul c) ∧
    Computes (.ffma f) f.a 1 (r fun b c d => (b.mul c).add f.rnd d) ∧
    Computes (.frcp f) f.a 1 (r fun b _ _ => (Exact.ofInt 1).div b) ∧
    Computes (.fsqrt f) f.a 1 (r fun b _ _ => b.sqrt) ∧
    Computes (.fscale f) f.a 1 (fun y l => roundTo .f32 f.rnd false ((y.flt l f.b).scale (signedOf 32 (y.src l f.c)))) ∧
    Computes (.fmin f) f.a 1 (m true) ∧
    Computes (.fmax f) f.a 1 (m false) ∧
    Computes (.fabs f) f.a 1 (fun y l => if y.flt l f.b = .nan then 0x7FC00000 else y.src l f.b % 2 ^ 31) ∧
    Computes (.fneg f) f.a 1 (fun y l =>
      if y.flt l f.b = .nan then 0x7FC00000 else if y.src l f.b < 2 ^ 31 then y.src l f.b + 2 ^ 31 else y.src l f.b - 2 ^ 31)) ∧
  ((∀ f : RForm,
    let h (g : Exact → Exact → Exact → Exact) (y : Ctx) (l : Nat) : Nat :=
      let e (o : Operand) (k : Nat) : Exact := readValue f.ty (bitsOf (y.src l o) (16 * k) 16)
      let r (k : Nat) : Nat := roundTo f.ty f.rnd false (g (e f.b k) (e f.c k) (e f.d k))
      r 0 + 2 ^ 16 * r 1
    Computes (.frsq f) f.a 1 (fun y l => (frsq (BitVec.ofNat 32 (y.src l f.b))).toNat) ∧
    Computes (.fclass f) f.a 1 (fun y l => fclassBits f.ty (y.src l f.b)) ∧
    (f.subop = 0 → Computes (.fexpn f) f.a 1 fun y l => wrapTo 32 (fexpnExp (y.src l f.b))) ∧
    (f.subop = 1 → Computes (.fexpn f) f.a 1 fun y l => fexpnMan (y.src l f.b)) ∧
    Computes (.hadd2 f) f.a 1 (h fun b c _ => b.add f.rnd c) ∧
    Computes (.hmul2 f) f.a 1 (h fun b c _ => b.mul c) ∧
    Computes (.hfma2 f) f.a 1 (h fun b c d => (b.mul c).add f.rnd d)) ∧
  (frsq 0 = 0x7F800000 ∧ frsq 0x80000000 = 0xFF800000 ∧ frsq 0x7F800000 = 0 ∧ frsq 0xFF800000 = 0x7FC00000 ∧
    ∀ b : Word, f32 b = .nan → frsq b = 0x7FC00000) ∧
  ∀ b : Word, f32 b = .nan → fexpnExp b.toNat = 2 ^ 31 - 1 ∧ fexpnMan b.toNat = 0x7FC00000)

/-- R147, R154: CVT, CVTI and ICVT convert the element of B at SPOS, rounded once; a narrow float result takes its place in the old A, an
integer result is extended to the register. R155 to R157: QNT and DQNT by the format slot. -/
def Obligations.Conversions : Prop :=
  ∀ f : RForm,
    let old (y : Ctx) (l : Nat) : Nat := if f.ty.width < 32 then y.src l f.a else 0
    let c (y : Ctx) (l : Nat) : Nat :=
      placeResult f (old y l)
        (encodeValue f.ty f.rnd f.sat (readValue f.from (elemAt f.from.width f.spos (y.src l f.b ((f.from?.map Fmt.regs).getD 1)))))
    Computes (.cvt f) f.a f.ty.regs c ∧ Computes (.cvti f) f.a f.ty.regs c ∧ Computes (.icvt f) f.a f.ty.regs c ∧
    (f.subop = 0 → Computes (.qnt f) f.a 1 fun y l =>
      (qntAlu (y.quantSlot f) (y.table (slotOf f.ent.toNat)) (bitsOf f.ent.toNat 3 5)).point [y.src l f.b, y.src l f.c, y.src l f.a]) ∧
    (f.subop = 1 → Computes (.qnt f) f.a 1 fun y l => quantScale (y.quantSlot f).efmt (y.src l f.b)) ∧
    Computes (.dqnt f) f.a 1 fun y l =>
      (dqntAlu (y.quantSlot f) (y.table (slotOf f.ent.toNat)) (bitsOf f.ent.toNat 3 5)).point [y.src l f.b, y.src l f.c]

/-- R158: the special functions, with the results that the manual fixes: NaN gives the canonical NaN everywhere, and the rows of zeros,
infinities, 1 and the integers. Their other values are free within the bounds of R158 (log 5). R159, R160, R377: the softmax state: SMXI
empties it, SMXACC adds one term by integer exponents, SMXNRM divides by it. -/
def Obligations.SpecialFunctions : Prop :=
  ((∀ f : RForm,
    let w (g : Word → Word) (y : Ctx) (l : Nat) : Nat := (g (BitVec.ofNat 32 (y.src l f.b))).toNat
    Computes (.exp2 f) f.a 1 (w exp2) ∧ Computes (.log2 f) f.a 1 (w log2) ∧ Computes (.sin f) f.a 1 (w sin) ∧
    Computes (.cos f) f.a 1 (w cos) ∧ Computes (.tanh f) f.a 1 (w tanh)) ∧
  (∀ b : Word, f32 b = .nan → ∀ g ∈ [exp2, log2, sin, cos, tanh], g b = 0x7FC00000) ∧
  (exp2 0xFF800000 = 0 ∧ exp2 0x7F800000 = 0x7F800000 ∧ exp2 0x43000000 = 0x7F800000 ∧ exp2 0 = 0x3F800000 ∧
    exp2 0x40400000 = 0x41000000) ∧
  (log2 0x3F800000 = 0 ∧ log2 0 = 0xFF800000 ∧ log2 0x80000000 = 0xFF800000 ∧ log2 0x7F800000 = 0x7F800000 ∧
    log2 0xBF800000 = 0x7FC00000 ∧ log2 0x41000000 = 0x40400000) ∧
  (sin 0 = 0 ∧ sin 0x80000000 = 0x80000000 ∧ cos 0 = 0x3F800000 ∧ cos 0x80000000 = 0x3F800000 ∧
    ∀ g ∈ [sin, cos], g 0x7F800000 = 0x7FC00000 ∧ g 0xFF800000 = 0x7FC00000) ∧
  (tanh 0 = 0 ∧ tanh 0x80000000 = 0x80000000 ∧ tanh 0x7F800000 = 0x3F800000 ∧ tanh 0xFF800000 = 0xBF800000)) ∧
  (∀ f : RForm,
    Computes (.smxi f) f.a 2 (fun _ _ => 0x80000000) ∧
    Computes (.smxacc f) f.a 2 (fun y l => smxaccAlu.point [y.src l f.b 2, y.src l f.c]) ∧
    Computes (.smxnrm f) f.a 1 (fun y l => (smxnrmAlu f).point [y.src l f.b 2, y.src l f.c]))

/-- R139 to R144: the collectives over the active lanes in element mode. A predicate that is undecided, which R245 has in bounds passes
alone, leaves `.any` and `.all` undecided unless another lane settles them. -/
def Obligations.Collectives : Prop :=
  (∀ f : RForm,
    let red (op : RedOp) (xs : List Nat) : Nat :=
      match xs with
      | [] => 0
      | a :: as =>
        if f.ty = .f32 then
          match op with
          | .add => as.foldl (fun p q => roundTo .f32 .rne false ((readValue .f32 p).add .rne (readValue .f32 q)))
              (if readValue .f32 a = .nan then 0x7FC00000 else a)
          | .max => if xs.any fun q => readValue .f32 q == .nan then 0x7FC00000
              else as.foldl (fun p q => if f32Key p < f32Key q then q else p) a
          | .min => if xs.any fun q => readValue .f32 q == .nan then 0x7FC00000
              else as.foldl (fun p q => if f32Key q ≤ f32Key p then q else p) a
        else
          let n (q : Nat) : Int := readInt 32 f.ty.isSigned q
          match op with
          | .add => reduced 32 f.ty.isSigned f.sat (xs.map n).sum
          | .max => wrapTo 32 (as.foldl (fun m q => max m (n q)) (n a))
          | .min => wrapTo 32 (as.foldl (fun m q => min m (n q)) (n a))
    let all (op : RedOp) (y : Ctx) (_ : Nat) : Nat := red op (y.act.map fun m => y.src m f.b)
    let votes (y : Ctx) (t : Tri) : List Nat := y.act.filter fun m => y.readPred m f.b == t
    (f.subop = 0 → ∀ s x y, Issues (.vote f) s x y → Plain y → Leaves (.vote f) s x (y.writePred f.a fun _ =>
      if votes y .yes ≠ [] then .yes else if votes y .und = [] then .no else .und)) ∧
    (f.subop = 1 → ∀ s x y, Issues (.vote f) s x y → Plain y → Leaves (.vote f) s x (y.writePred f.a fun _ =>
      if votes y .no ≠ [] then .no else if votes y .und = [] then .yes else .und)) ∧
    (f.subop = 2 → Computes (.vote f) f.a 2 fun y _ =>
      if votes y .und = [] then ((votes y .yes).map (2 ^ ·)).sum else 0) ∧
    (f.subop = 3 → Computes (.vote f) f.a 1 fun y _ => (votes y .yes).length) ∧
    Computes (.shfl f) f.a f.ty.regs (fun y l =>
      let g := bitsOf f.ent.toNat 6 3
      let sz := if g = 0 then y.v.lanes.length else min y.v.lanes.length (2 ^ g)
      let c := if f.ent.getLsbD 11 then bitsOf f.ent.toNat 0 6 else y.src l f.c
      let base := l - l % sz
      let j : Int := match f.subop.toNat with
        | 0 => (base + c % sz : Nat)
        | 1 => (l : Int) - c
        | 2 => (l + c : Nat)
        | _ => (base + (l % sz ^^^ c % sz) : Nat)
      let m := if (base : Int) ≤ j ∧ j < (base + sz : Nat) ∧ j.toNat ∈ y.act then j.toNat else l
      y.src m f.b f.ty.regs) ∧
    Computes (.redadd f) f.a 1 (all .add) ∧ Computes (.redmax f) f.a 1 (all .max) ∧ Computes (.redmin f) f.a 1 (all .min) ∧
    Computes (.scan f) f.a 1 (fun y l =>
      let op : RedOp := match f.subop.toNat with
        | 0 | 1 => .add
        | 2 => .max
        | _ => .min
      red op ((y.act.filter fun m => if f.subop = 1 then m < l else m ≤ l).map fun m => y.src m f.b)) ∧
    Computes (.matchv f) f.a 2 (fun y l => ((y.act.filter fun m => y.src m f.b f.ty.regs == y.src l f.b f.ty.regs).map (2 ^ ·)).sum)) ∧
  Only .matchv fun f => (f.ty = .none ∨ f.ty = .i64) ∧ f.subop = 0 ∧ f.ent = 0

/-- R245, R248: in a bounds pass too, an instruction with a register result writes what its operation gives for the intervals of its
sources, merged in lanes with undecided guards; where it names a uniform register no guard is undecided. R137: the ends of integer sums,
differences, products and least and greatest values in a bounds pass are exact: for operand intervals that hold b and c, whose result
overflows no end, the result interval holds the result of b and c. -/
def Obligations.Intervals : Prop :=
  (∀ (i : Instr) (s : State) (x y : Ctx) (a : Operand) (k : Nat) (kind : ResKind) (val : Nat → IVal),
    Issues i s x y → resultOf y i = some (a, k, kind, val) → notPort a = true → ((∃ n, a = .s n) → y.und = []) →
      Leaves i s x (y.writeReg a k kind val)) ∧
  (∀ (f : RForm) (b c : IVal) (p q : Int), f.ty = .i32 ∨ f.ty = .n32 →
    let sg := f.ty.isSigned
    let holds (v : IVal) (z : Int) : Prop :=
      v.wide = false ∧ readInt 32 sg v.lo ≤ z ∧ z ≤ readInt 32 sg v.hi ∧ v.lo < 2 ^ 32 ∧ v.hi < 2 ^ 32
    let ok (op : Alu) (z : Int) : Prop :=
      let r := op.eval [b, c]
      r.wide = true ∨ (readInt 32 sg r.lo ≤ z ∧ z ≤ readInt 32 sg r.hi)
    holds b p → holds c q → f.sat = false → intMin 32 sg ≤ p → p ≤ intMax 32 sg → intMin 32 sg ≤ q → q ≤ intMax 32 sg →
      (intMin 32 sg ≤ p + q → p + q ≤ intMax 32 sg → ok (addAlu f) (p + q)) ∧
      (intMin 32 sg ≤ p - q → p - q ≤ intMax 32 sg → ok (subAlu f) (p - q)) ∧
      (intMin 32 sg ≤ p * q → p * q ≤ intMax 32 sg → ok (mulAlu f) (p * q)) ∧
      ok (minAlu f) (min p q) ∧ ok (maxAlu f) (max p q))

/-- R73, R76, R169: LDQ and STQ bind a port to a base, a count, a stride and a type, at element 0 with nothing read ahead; STQ first waits
for the elements pushed under the binding before. R75, R111: an instruction whose destination is a write port pushes its value of each
active lane, one element for each, and changes no register; a push whose addresses do not all translate faults. The collectives, CLK and
LDB have no write port as their destination. A push takes the elements that lie within the count, each a store of its own at its own
address; the port advances by the lanes. -/
def Obligations.Ports : Prop :=
  (∀ (f : MForm) (s : State) (x y : Ctx) (n : BitVec 2), f.a = .q n → y.act ≠ [] →
    let v := y.v.setPort n.toNat { base := BitVec.ofNat 64 (y.uni f.b 2), count := BitVec.ofNat 32 (y.uni f.c), stride := f.off, ty := f.ty,
                                   hint := f.h.hint, pos := 0, buf := [] }
    (Issues (.ldq f) s x y → Leaves (.ldq f) s x v) ∧
    (Issues (.stq f) s x y → (s.begun y).pushesPending y = false → Leaves (.stq f) s x v) ∧
    (Issues (.stq f) s x y → (s.begun y).pushesPending y = true → StallsAt (.stq f) s x (s.begun y))) ∧
  ((∀ mk ∈ [Instr.vote, .shfl, .redadd, .redmax, .redmin, .scan, .matchv, .clk], Only mk fun f => notPort f.a = true) ∧
  (∀ w f, decode w = .ok (.ldb f) → notPort f.a = true) ∧
  (∀ (i : Instr) (s : State) (x y : Ctx) (n : BitVec 2) (k : Nat) (kind : ResKind) (val : Nat → IVal),
    Issues i s x y → resultOf y i = some (.q n, k, kind, val) →
      match (s.begun y).push y n.toNat (some fun l => (val l).lo) none with
      | .ok r => Goes i s x (r.1.put y r.2)
      | .error b => Faults i s x (s.begun y) y.group b.code b.addr b.access) ∧
  ∀ (s : State) (y : Ctx) (n : Nat) (p : Port) (val : Nat → Nat) (ps : List Piece) (u : State),
    y.v.port? n = some p →
    let lanes := y.act.zipIdx.filter fun le => p.pos + le.2 < p.count.toNat
    let v := y.v.setPort n { p with pos := p.pos + y.act.length }
    s.resolve y .global .write anyLoc (lanes.flatMap fun le => wants le.1 (p.addr (p.pos + le.2)) p.bytes) = .ok (ps, u) →
      s.push y n (some val) none = .ok (
        lanes.foldl (fun (w : State) le => w.addOp y (.push n p.ty none) p.hint [le.1]
          ((ps.filter (·.lane == le.1)).mapIdx fun i q => { q with grp := i }) [(le.1, pushCode p.ty (val le.1))] []) u,
        { v with stores := v.stores + lanes.length, relaxedSent := v.relaxedSent || ps.any fun q => q.loc == .host true }))

/-- R87, R207, R225, R235, R236, R205: the instructions that read state: system registers, the wall clock, the counters, an overlay's
state, an element of a tile and the checksum words; to a register, or pushed to a write port. MOVC writes LNK, or in trap mode TRPC. -/
def Obligations.StateReads : Prop :=
  (∀ f : RForm,
    let sys (y : Ctx) (l : Nat) : Nat := match f.subop.toNat with
    | 0 => (y.v.lane l).lnk.toNat
    | 1 => (y.v.lane l).trpc.toNat
    | 2 => if (y.v.lane l).trap then 1 else 0
    | 3 => y.v.traddr.toNat
    | 4 => y.v.stack.length
    | 5 => ((y.v.stack[bitsOf f.ent.toNat 0 3]?).map BitVec.toNat).getD 0
    | 6 => y.v.ctdev
    | 7 => y.v.ctsys
    | 8 => min 63 y.v.loads + 2 ^ 8 * min 63 y.v.stores + 2 ^ 16 * min 63 y.v.copies + 2 ^ 24 * min 63 y.v.tileOps
    | 9 => y.r.lease
    | _ => y.v.quad / 4 + 2 ^ 9 * (y.v.quad % 4)
    Computes (.movs f) f.a (if f.subop.toNat ∈ [3, 6, 7] then 2 else 1) sys ∧ Pushes (.movs f) f.a (fun _ => sys) ∧
    Pushes (.perf f) f.a fun _ y _ => (lookupD 0 y.v.perf f.subop.toNat).toNat) ∧
  (∀ (f : RForm) (s : State) (x y : Ctx), Issues (.movc f) s x y → Plain y →
    Leaves (.movc f) s x (y.v.onLanes y.act fun l a =>
      let p : PC := BitVec.ofNat 25 (y.src l f.b)
      if f.subop = 0 then { a with lnk := p } else if a.trap then { a with trpc := p } else a)) ∧
  (∀ (f : RForm) (s : State) (x y : Ctx), Plain y → notPort f.a = true →
    (Issues (.clk f) s x y → Leaves (.clk f) s x (y.gets f.a 2 fun _ => s.wall.toNat)) ∧
    (Issues (.perf f) s x y → Leaves (.perf f) s x (y.gets f.a 1 fun _ => (lookupD 0 y.v.perf f.subop.toNat).toNat)) ∧
    (Issues (.ckrd f) s x y → y.v.tileOps = 0 →
      let out := y.gets f.a 1 fun _ => (s.cksum y.v.quad (if f.subop = 1 then 1 else 0)).toNat
      (f.subop ≠ 2 ∨ y.act = [] → Leaves (.ckrd f) s x out) ∧
      (f.subop = 2 → y.act ≠ [] → LeavesIn (.ckrd f) s x
        ((s.setCksum y.v.quad 0 0).setCksum y.v.quad 1 (s.cksum y.v.quad 1 &&& 0x7FFFFFFF)) out))) ∧
  (∀ (f : RForm) (s : State) (x y : Ctx) (n : BitVec 2), f.a = .q n → Issues (.ckrd f) s x y → Plain y → y.v.tileOps = 0 →
    match (s.begun y).push y n.toNat (some fun _ => (s.cksum y.v.quad (if f.subop = 1 then 1 else 0)).toNat) none with
    | .ok r => Goes (.ckrd f) s x (if f.subop = 2 ∧ y.act ≠ [] then
        ((r.1.put y r.2).setCksum y.v.quad 0 0).setCksum y.v.quad 1 (s.cksum y.v.quad 1 &&& 0x7FFFFFFF) else r.1.put y r.2)
    | .error b => Faults (.ckrd f) s x (s.begun y) y.group b.code b.addr b.access) ∧
  (∀ f : BForm, Pushes (.ovlq f) f.a fun t y _ => if y.uni f.b < 0xFFF then t.ovlWord y.core y.c.part y.c.prog (y.uni f.b) else 0) ∧
  (∀ (f : BForm) (s : State) (x y : Ctx), Issues (.ovlq f) s x y → Plain y → notPort f.a = true →
    Leaves (.ovlq f) s x (y.gets f.a 1 fun _ =>
      if y.uni f.b < 0xFFF then (s.begun y).ovlWord y.core y.c.part y.c.prog (y.uni f.b) else 0)) ∧
  ∀ (f : XForm) (s : State) (x y : Ctx), Issues (.acrd f) s x y → Plain y →
    (s.eng.mx.any fun e => e.quad == y.v.quad && e.tile == f.tile.toNat) = false →
    let word (l : Nat) : Nat := tileIndex y.v.quad f.tile.toNat (bitsOf (y.uni f.b) 0 6) ((bitsOf (y.uni f.b) 8 6 + l) % 64)
    let covers : EccWord → Bool := EccWord.inAcc (y.act.map word)
    let unread := (s.coh.poison.filterMap PoisonAt.unread).any covers
    (unread = true → StallsAt (.acrd f) s x ((s.begun y).readEccs y.c.part covers)) ∧
    (unread = false →
      Leaves (.acrd f) s x (y.gets (.v f.reg) 1 fun l => (lookupD 0 s.store.tiles (word l)).toNat) ∧
      ∀ l ∈ y.act, .acc (word l) ∈ s.coh.poison → ∃ t, exec (.acrd f) s = .next t ∧
        .reg y.cur.col y.cur.cv l f.reg.toNat ∈ t.coh.poison)

/-! ## Memory instructions at issue -/

/-- R59: every byte of a 256-byte line of device memory has the one home slice of its line, one of 768; lines whose addresses differ only
in bits 15:8 have different ones; and the addresses of the rule's example have the slices that it gives. -/
def Obligations.HomeSlices : Prop :=
  (∀ pa : Nat, homeOf pa < 768) ∧ (∀ pa qa : Nat, pa / 2 ^ 8 = qa / 2 ^ 8 → homeOf pa = homeOf qa) ∧
  (∀ pa qa : Nat, pa / 2 ^ 16 = qa / 2 ^ 16 → pa / 2 ^ 8 ≠ qa / 2 ^ 8 → homeOf pa ≠ homeOf qa) ∧
  homeOf 0x400001200 = 278 ∧ homeOf 0x400001300 = 279

/-- R67, R165 to R168: a load whose every byte translates is counted and left pending with the pieces of its active lanes, of the lowest
one for a uniform destination; no register changes before it returns. One that faults has no effect. To a write port it claims its
elements at issue, which are pushed as it returns (R75); that they are claimed then is the model's choice (log 33). PF completes whatever
its addresses are: it changes caches alone, and brings the line of a lane, where that lies in device memory and is not there yet, into L1
under the lease that it is granted (R78); that the line stands there at issue, its lease counted from then, is the model's choice (log
33). -/
def Obligations.Loads : Prop :=
  (∀ (f : MForm) (s : State) (x y : Ctx),
    let ls := match f.a with
      | .s _ => y.act.take 1
      | _ => y.act
    let go (i : Instr) (space : Space) (conv : LoadConv) (ls : List Nat) (want : Nat → List Want) : Prop :=
      Issues i s x y → Plain y → notPort f.a = true → y.act ≠ [] →
      ((s.begun y).reaches y space .read anyLoc (ls.flatMap want) →
        ∃ ps u, (s.begun y).resolve y space .read anyLoc (ls.flatMap want) = .ok (ps, u) ∧
        Goes i s x ((u.put y { y.v with loads := y.v.loads + 1 }).addOp y (.load conv f.a) f.h.hint ls (groupPieces false ps)
          (ls.map fun l => (l, 0)) [])) ∧
      ∀ b, (s.begun y).resolve y space .read anyLoc (ls.flatMap want) = .error b →
        Faults i s x (s.begun y) y.group b.code b.addr b.access
    -- to a write port
    let feed (i : Instr) (space : Space) (conv : LoadConv) (want : Nat → List Want) : Prop :=
      ∀ n, f.a = .q n → Issues i s x y → Plain y → y.act ≠ [] →
      (∀ ps u, (s.begun y).resolve y space .read anyLoc (y.act.flatMap want) = .ok (ps, u) →
        let v := { y.v with loads := y.v.loads + 1 }
        let w := (u.put y v).addOp y (.load conv f.a) f.h.hint y.act (groupPieces false ps) (y.act.map fun l => (l, 0)) []
        match w.push { y with v } n.toNat none (some u.nextId) with
        | .ok r => Goes i s x (r.1.put y r.2)
        | .error _ => ∃ b : Bad, Faults i s x (s.begun y) y.group b.code b.addr b.access) ∧
      ∀ b, (s.begun y).resolve y space .read anyLoc (y.act.flatMap want) = .error b →
        ∃ c : Bad, Faults i s x (s.begun y) y.group c.code c.addr c.access
    feed (.ld f) .global (.plain f.size.bytes (f.ty != .none)) (fun l => wants l (y.ea f l) f.size.bytes) ∧
    feed (.lds f) .scratch (.plain f.size.bytes (f.ty != .none)) (fun l => wants l (y.ea f l) f.size.bytes) ∧
    feed (.ldx f) f.space (.widen f.ty) (fun l => wants l (y.ea f l) f.size.bytes) ∧
    go (.ld f) .global (.plain f.size.bytes (f.ty != .none)) ls (fun l => wants l (y.ea f l) f.size.bytes) ∧
    go (.lds f) .scratch (.plain f.size.bytes (f.ty != .none)) ls (fun l => wants l (y.ea f l) f.size.bytes) ∧
    go (.ldx f) f.space (.widen f.ty) ls (fun l => wants l (y.ea f l) f.size.bytes) ∧
    ∀ q, y.fslot (slotOf f.ent.toNat) ldbFmts = some q →
      go (.ldb f) .global (.block (blockBytes q) q.e8) y.act (y.blockWants f q)) ∧
  ∀ (f : MForm) (s : State) (x y : Ctx), Issues (.pf f) s x y → ∃ u n, Goes (.pf f) s x u ∧ State.ReadsTo { s.begun y with cols := u.cols } u ∧
    u.convoy? y.cur.col y.cur.cv = some { y.v with perf := n } ∧
    ∀ l pa t, Plain y → y.act = [l] → 0 ≤ y.ea f l → f.h.hint ≠ .stream →
      (s.begun y).translate y.via y.c.part y.r.ctx (some y.c.epoch) (y.ea f l).toNat .read = .ok (⟨.dev, pa⟩, t) →
      t.l1Hit y.cur.col y.v.quad (lineOf pa) (y.v.firstIssue.getD s.now) = none →
      ((t.checkBytes y.c.part .dev (64 * lineOf pa) 64).grant (lineOf pa) (.l1 y.v.quad) (s.now + y.lease f.h.hint)).isSome = true →
      ∃ c ∈ u.coh.l1, c.quad = y.v.quad ∧ c.line = lineOf pa ∧ c.leaseEnd = s.now + y.lease f.h.hint ∧
        c.data = Memory.bytes s.store.dev (64 * lineOf pa) 64

/-- R250: in a bounds pass a load without a summary gives the whole range of its format at once, in the lanes of its group. -/
def Obligations.BoundsLoads : Prop :=
  ∀ (f : MForm) (s : State) (x y : Ctx) (n : BitVec 7), f.a = .v n → y.bounds = true → y.und = [] →
    let go (i : Instr) (k : Nat) (kind : ResKind) (r : IVal) : Prop :=
      Issues i s x y → Leaves i s x (y.writeKnown y.v y.act f.a k kind r)
    let all (k : Nat) : IVal := { lo := 0, hi := 2 ^ (32 * k) - 1, wide := true, mn := true }
    go (.lds f) f.size.regs (loadKind f false) (all f.size.regs) ∧
    (∀ q, y.fslot (slotOf f.ent.toNat) ldbFmts = some q → go (.ldb f) (blockRegs q) (.bits false false) (all (blockRegs q))) ∧
    (f.space = .scratch → go (.ldx f) 1 (.typed .flt) (formatRange f.ty)) ∧
    ((∀ l ∈ y.act, y.summaryFor f false (y.eaRange f l) = none) → go (.ld f) f.size.regs (loadKind f false) (loadRange f false)) ∧
    (f.space = .global → (∀ l ∈ y.act, y.summaryFor f true (y.eaRange f l) = none) →
      go (.ldx f) 1 (.typed .flt) (formatRange f.ty))

/-- R67, R165, R166, R255: a store whose every byte translates is counted and left pending with the bytes of its active lanes; a store
that faults has no effect. -/
def Obligations.Stores : Prop :=
  ∀ (f : MForm) (s : State) (x y : Ctx),
    let n := f.size.bytes
    let go (i : Instr) (space : Space) (ea : Nat → Int) (val : Nat → Nat) : Prop :=
      Issues i s x y → Plain y → y.act ≠ [] →
      ((s.begun y).reaches y space .write anyLoc (y.act.flatMap fun l => wants l (ea l) n) →
        ∃ ps u, (s.begun y).resolve y space .write anyLoc (y.act.flatMap fun l => wants l (ea l) n) = .ok (ps, u) ∧
        Goes i s x ((u.addOp y .store f.h.hint y.act (dropOverwritten (groupPieces true ps))
          (y.act.map fun l => (l, val l % 2 ^ (8 * n))) []).put y
            { y.v with stores := y.v.stores + 1
                       relaxedSent := y.v.relaxedSent || ps.any fun p => p.loc == .host true })) ∧
      ∀ b, (s.begun y).resolve y space .write anyLoc (y.act.flatMap fun l => wants l (ea l) n) = .error b →
        Faults i s x (s.begun y) y.group b.code b.addr b.access
    go (.st f) f.space (y.ea f) (fun l => y.src l f.a f.size.regs) ∧
    go (.sts f) f.space (y.ea f) (fun l => y.src l f.a f.size.regs) ∧
    go (.stx f) f.space (y.ea f) (fun l =>
      encodeValue f.ty (((rndCodes[bitsOf f.ent.toNat 0 3]?)).getD .rne) (f.ent.getLsbD 3) (readValue .f32 (y.src l f.a))) ∧
    go (.fill f) .global (fun l => (y.uni f.b 2 % 2 ^ 64 : Nat) +
        ((((y.special l .ey).lo * y.uni f.c + (y.special l .ex).lo) * n : Nat) : Int) + f.off.toInt)
      (fun l => y.src l f.a f.size.regs)

/-- R67, R170 to R173: an atomic at an address that is not a multiple of its size faults; one whose every byte translates, and which is
not of system scope or reaches no host memory, is counted and left pending with its operands and, unless NR is set, its destination; one
in host memory keeps its clause. The new values are those of R170. -/
def Obligations.Atomics : Prop :=
  (∀ (f : MForm) (s : State) (x y : Ctx) (i : Instr) (k : Nat),
    (i, k) ∈ [(Instr.atadd f, 0), (.ataddf f, 1), (.atmin f, 2), (.atmax f, 3), (.atand f, 4), (.ator f, 5), (.atxor f, 6), (.atxch f, 7),
      (.atcas f, 8), (.atinc f, 9)] →
    Issues i s x y → Plain y → y.act ≠ [] → (s.begun y).hostAtomic? y = none →
    let n := f.size.bytes
    let deny := atomicDeny k (f.scope == .sys) (s.fw.atomicEn.contains y.c.part)
    let arg (l : Nat) : Nat × Nat :=
      let a := y.src l f.a (if k = 8 then 2 * f.size.regs else f.size.regs)
      if k = 8 then (a % 2 ^ (8 * n), a / 2 ^ (8 * n)) else (a, 0)
    (∀ l ∈ y.act, y.ea f l % n ≠ 0 → (∀ m ∈ y.act, m < l → y.ea f m % n = 0) →
      Faults i s x (s.begun y) y.group cMisaligned (BitVec.ofInt 64 (y.ea f l)) 4) ∧
    ((∀ l ∈ y.act, y.ea f l % n = 0) → (s.begun y).reaches y f.space .atomic deny (y.act.map fun l => ⟨l, y.ea f l, n, 0⟩) → ∃ ps u,
      (s.begun y).resolve y f.space .atomic deny (y.act.map fun l => ⟨l, y.ea f l, n, 0⟩) = .ok (ps, u) ∧
      let w := (u.addOp y (.atomic k f.ty n (if f.ent.getLsbD 0 then none else some f.a)) f.h.hint y.act
        (ps.mapIdx fun i p => { p with grp := i }) (y.act.map fun l => (l, 0)) (y.act.map fun l => (l, arg l))).put y
          { y.v with stores := y.v.stores + 1 }
      (f.scope ≠ .sys ∨ (∀ p ∈ ps, ∀ r, p.loc ≠ .host r) → Goes i s x w) ∧
      ((∃ p ∈ ps, ∃ r, p.loc = .host r) →
        StallsAt i s x { w with ops := w.ops.map fun o => if o.id = u.nextId then { o with lease := 0 } else o }))) ∧
  ∀ (t : Fmt) (n old a b : Nat), 0 < n → old < 2 ^ n → a < 2 ^ n → b < 2 ^ n →
    let v (z : Nat) : Int := readInt n t.isSigned z
    atomicNew 0 t n old a b = (old + a) % 2 ^ n ∧
    v (atomicNew 2 t n old a b) = min (v old) (v a) ∧ v (atomicNew 3 t n old a b) = max (v old) (v a) ∧
    atomicNew 4 t n old a b = old &&& a ∧ atomicNew 5 t n old a b = old ||| a ∧ atomicNew 6 t n old a b = old ^^^ a ∧
    atomicNew 7 t n old a b = a ∧ atomicNew 8 t n old a b = (if old = a then b else old) ∧
    atomicNew 9 t n old a b = (if old ≥ a then 0 else old + 1) ∧
    atomicNew 1 t n old a b = roundTo .f32 .rne false ((readValue .f32 old).add .rne (readValue .f32 a))

/-! ## Copies, queues, barriers, waits -/

/-- R67, R174, R175, R177: CPY, CPY2, CPYP and CPYQ hand a packet, whose every byte translates, to the copy engine of their core: the
packet built from the uniform registers, or read from scratchpad. The convoy's copies counter rises, no byte is copied yet, and a copy of
nothing is over at once; a packet with a reserved field faults, and a full queue or an earlier access still on its way stalls the clause.
That a fault of CPYQ's own packet has ACCESS 1 is the model's choice (log 26). -/
def Obligations.Copies : Prop :=
  ∀ (f : MForm) (s : State) (x y : Ctx),
    let r := y.uni f.a 8
    let built (op rows fmt : Nat) (sstride dstride : Nat) : Packet :=
      { op, flags := f.ent.toNat % 32, fmt
        hint := match f.h.hint with
          | .default => 0
          | .stream => 1
          | .keep => 2
          | .long => 3
          | .evict => 4
          | .home => 5
        len := bitsOf r 128 32, rows, src := BitVec.ofNat 64 (bitsOf r 64 64), dst := BitVec.ofNat 64 (bitsOf r 0 64)
        sstride := BitVec.ofNat 32 sstride, dstride := BitVec.ofNat 32 dstride, cwoff := bitsOf r 160 32
        cwval := BitVec.ofNat 32 (bitsOf r 192 32), task := bitsOf r 224 16, tmo := bitsOf r 240 16, zero := true }
    let t := s.begun y
    let d (scratch : Bool) : Side := y.side scratch
    let go (i : Instr) (p : Packet) : Prop :=
      Issues i s x y → t.drained y.cur.col y.cur.cv = true →
      (p.bad = true → Faults i s x t y.group cOperand (BitVec.ofNat 64 y.pc.toNat) 0) ∧
      (p.bad = false → t.reachesRows (d (p.flag 0)) .read p.srcRows →
        (∀ u, t.probeRows (d (p.flag 0)) .read p.srcRows = .ok u → u.reachesRows (d (p.flag 1)) .write p.dstRows) →
        (p.flag 2 = true → p.cwoff % 4 = 0 ∧ p.cwoff + 4 ≤ spadSize y.c.banks) →
        ∃ u w, t.probeRows (d (p.flag 0)) .read p.srcRows = .ok u ∧ u.probeRows (d (p.flag 1)) .write p.dstRows = .ok w ∧
        let src := w.sideLines (d (p.flag 0)) .read p.srcRows
        let dst := w.sideLines (d (p.flag 1)) .write p.dstRows
        let j := p.job w.nextId (.cv y.core y.cur.col y.cur.cv) y.c.part y.c.prog y.r.ctx (some y.c.epoch) y.v.quad y.c.colid y.r.num
          (if p.hint = 3 then 2 * y.r.lease else y.r.lease) s.now y.c.banks dst src (p.shards src dst) (src.any (·.isPeer))
        let w' := (w.forbidRollback y.cur.col).put y { y.v with copies := y.v.copies + 1 }
        (p.empty = true → Goes i s x (w'.finishCopy j)) ∧
        (p.empty = false → s.copyPlaces y.core ≥ 64 → StallsAt i s x t) ∧
        (p.empty = false → s.copyPlaces y.core < 64 →
          Goes i s x { w' with nextId := s.nextId + 1, eng := { s.eng with jobs := s.eng.jobs ++ [j] } }))
    go (.cpy f) (built 0 1 0 0 0) ∧
    go (.cpy2 f) (built 1 (y.uni f.b) 0 (y.uni f.c 2) (y.uni f.c 2 / 2 ^ 32)) ∧
    go (.cpyp f) (built 2 64 (Fmt.code f.ty).toNat (y.uni f.b) 0) ∧
    (y.uni f.b % 64 = 0 → y.uni f.b + 64 ≤ spadSize y.c.banks → s.coh.poison = [] →
      go (.cpyq f) (Packet.of (s.spadNum y.c.banks (y.uni f.b) 64) false)) ∧
    (Issues (.cpyq f) s x y → t.drained y.cur.col y.cur.cv = true → y.uni f.b % 64 ≠ 0 →
      Faults (.cpyq f) s x t y.group cProtection (BitVec.ofNat 64 (y.uni f.b)) 1) ∧
    ∀ i ∈ [Instr.cpy f, .cpy2 f, .cpyp f, .cpyq f], Issues i s x y → t.drained y.cur.col y.cur.cv = false → StallsAt i s x t

/-- R178, R330: QRD reserves the oldest unreserved messages, one for each active lane, and gives each lane its message's address; without
enough of them it waits, unless NW is set or the queue is closed; from a queue that is absent, closed and empty, or a route's own (R304),
every lane receives 0. A message that holds uncorrectable data faults; that QRD is what consumes it is the model's choice (log 87). R179:
QACK, once the convoy's loads have returned, releases the messages that its lanes name; an address that the column does not hold faults
before any is released. By the model's choice that fault has ACCESS 2 (log 26), two lanes may name one address (log 43), and a release of
a message that is gone ends its reservation (log 74). -/
def Obligations.QueueReads : Prop :=
  (∀ (f : MForm) (s : State) (x y : Ctx), Issues (.qrd f) s x y → Plain y → y.act ≠ [] → y.uni f.b < 2 ^ 12 →
    let n := y.uni f.b
    let none_ : Prop := s.feedsRoute y.c.part n = true ∨ s.queue? y.c.part n = none ∨
      ∃ q, s.queue? y.c.part n = some q ∧ q.isOpen = false ∧ q.msgs = []
    (none_ → ∃ t, LeavesIn (.qrd f) s x t (y.gets f.a 2 fun _ => 0) ∧
      t = { s with cols := t.cols, coh := { s.coh with poison := t.coh.poison } }) ∧
    ∀ q, ¬none_ → s.queue? y.c.part n = some q →
      let free := q.msgs.filter fun m => !m.reserved && decide (m.at_ ≤ s.now)
      (free.length < y.act.length → f.ent.getLsbD 0 = false → q.isOpen = true →
        WaitsAt (.qrd f) s x ((s.begun y).forbidRollback y.cur.col) (.qrd n f.a) none) ∧
      (y.act.length ≤ free.length ∨ f.ent.getLsbD 0 = true ∨ q.isOpen = false →
        let ms := free.take y.act.length
        let rows := ms.map fun m => (((q.ring + q.msize * (m.k % q.cap) : Nat) : Int), q.msize)
        (∀ b u, y.slotsRead (s.begun y) (some q) ms = .error (b, u) → Faults (.qrd f) s x u y.group b.code b.addr b.access) ∧
        (∀ e, (s.begun y).probeRows (y.side false) .read rows = .error e →
          Faults (.qrd f) s x (s.begun y) y.group e.1 (BitVec.ofInt 64 e.2) 1) ∧
        ((s.begun y).reachesRows (y.side false) .read rows → s.coh.poison = [] → s.coh.flips = [] →
        let va (m : Msg) : Nat := q.ring + q.msize * (m.k % q.cap)
        let v := y.gets f.a 2 fun l => (((y.act.zip ms).lookup l).map va).getD 0
        ∃ u t c, (s.begun y).probeRows (y.side false) .read rows = .ok u ∧ LeavesIn (.qrd f) s x t (if ms = [] then v else v.discard) ∧
          t = { u with cols := t.cols, coh := { u.coh with poison := t.coh.poison }, obj := { u.obj with queues := t.obj.queues } } ∧
          t.obj.queues = s.obj.queues.map (fun p => if p.id = q.id then
            { p with msgs := p.msgs.map fun m => if ms.any (·.k == m.k) then { m with reserved := true } else m } else p) ∧
          t.column? y.cur.col = some c ∧ c.noRollback = true ∧
          c.held = y.c.held ++ ms.map fun m => { q := n, qid := q.id, k := m.k, addr := BitVec.ofNat 64 (va m) }))) ∧
  (∀ (f : MForm) (s : State) (x y : Ctx), Issues (.qack f) s x y → y.act ≠ [] → y.uni f.b < 2 ^ 12 →
    let n := y.uni f.b
    let addr (l : Nat) : DWord := BitVec.ofNat 64 (y.src l f.a 2)
    let loads : Prop := ∃ o ∈ s.ops, o.col = y.cur.col ∧ o.cv = y.cur.cv ∧ ((∃ c d, o.kind = .load c d) ∨ ∃ k, o.kind = .codebook k)
    (loads → StallsAt (.qack f) s x (s.begun y)) ∧
    (¬loads → ∀ l ∈ y.act, addr l ≠ 0 → (∀ h ∈ y.c.held, ¬(h.q = n ∧ h.addr = addr l)) →
      (∀ m ∈ y.act, m < l → addr m = 0 ∨ ∃ h ∈ y.c.held, h.q = n ∧ h.addr = addr m) →
      Faults (.qack f) s x (s.begun y) y.group cProtection (addr l) 2) ∧
    (¬loads → (∀ l ∈ y.act, addr l = 0 ∨ ∃ h ∈ y.c.held, h.q = n ∧ h.addr = addr l) →
      Goes (.qack f) s x ((y.act.foldl (fun u l => if addr l = 0 then u else u.release y.cur.col n (addr l)) (s.begun y)).forbidRollback
        y.cur.col)) ∧
    -- one lane's release
    ∀ (h : Held) (q : Queue) (t : State) (c : Column), t.column? y.cur.col = some c → t.heldAt c n h.addr = some h → h.addr ≠ 0 →
      t.queueId? h.qid = some q →
      (t.release y.cur.col n h.addr).queueId? h.qid = some ({ q with msgs := q.msgs.filter (·.k != h.k) }.takeIn t.now) ∧
      ((t.release y.cur.col n h.addr).column? y.cur.col).map (·.held) = some (c.held.erase h))

/-- R180: QWR appends one message for each active lane to an open queue with room, EMIT to the input queue of a batch-mode route; all of
them are published together, not before any copy of the slots' old bytes is gone, and count as a store until then; the predicate named
says so. Without room the predicate is false, or the convoy waits; where the room hangs on messages that are still to be published it
stalls, by the model's choice (log 42); that EMIT compares the whole register with a route number is its choice too (log 44). To a queue
that is absent or closed the instruction faults. -/
def Obligations.QueueWrites : Prop :=
  ∀ (f : MForm) (s : State) (x y : Ctx) (emit : Bool),
    let i : Instr := if emit then .emit f else .qwr f
    let t := s.begun y
    let target := y.uni f.a
    Issues i s x y → y.act ≠ [] → (emit = true ∨ target < 2 ^ 12) →
    (t.appendTarget y.c.part emit target = none → Faults i s x t y.group cQueue 0 0) ∧
    ∀ q, t.appendTarget y.c.part emit target = some q →
      let srcs := y.act.map fun l => (l, y.ea f l)
      let d := y.side (f.space == .scratch)
      let rows := srcs.map fun la => (la.2, q.msize)
      t.reachesRows d .read rows → t.fenceDev y = true → s.coh.poison = [] → s.coh.flips = [] →
      ∃ u, t.probeRows d .read rows = .ok u ∧
      let pred := bitsOf f.ent.toNat 0 3
      let src := srcs.map fun la => (la.1, la.2.toNat)
      let done (w : State) (b : Bool) : State := w.onConvoy y.cur.col y.cur.cv fun v =>
        v.onLanes y.act fun _ l => l.setPred pred (.of b)
      let w := y.appendAll u q f.space src
      let room : Prop := q.hasRoom y.act.length = true ∧ y.appendHeld u q f.space src = false
      (room → pred < 7 → Goes i s x (done w true)) ∧
      (room → pred = 7 → Goes i s x w) ∧
      (q.hasRoom y.act.length = true → y.appendHeld u q f.space src = true → StallsAt i s x u) ∧
      (q.hasRoom y.act.length = false → q.full s.now y.act.length = true → pred < 7 → Goes i s x (done u false)) ∧
      (q.hasRoom y.act.length = false → q.full s.now y.act.length = true → pred = 7 →
        WaitsAt i s x u (.append emit (BitVec.ofNat 32 target) src f.space) none) ∧
      (q.hasRoom y.act.length = false → q.full s.now y.act.length = false → StallsAt i s x u) ∧
      ∃ at_ ready, s.now ≤ ready ∧ ready ≤ at_ ∧ (∀ m ∈ q.msgs, m.ready ≤ ready ∧ m.at_ ≤ at_) ∧
        (∀ a, Memory.read w.store.dev a ≠ Memory.read u.store.dev a → u.completion none a 1 ≤ ready) ∧
        w.obj.queues = s.obj.queues.map (fun p => if p.id = q.id then
          { p with next := p.next + y.act.length
                   msgs := p.msgs ++ (List.range y.act.length).map fun i => 
                     { k := p.next + i, at_, reserved := false, app := p.next, ready } } else p) ∧
        (∃ o, w.ops = u.ops ++ [o] ∧ o.col = y.cur.col ∧ o.cv = y.cur.cv ∧ o.kind = .append ∧ o.pieces = [] ∧ o.comp = at_) ∧
        (w.convoy? y.cur.col y.cur.cv).map (·.stores) = some (y.v.stores + 1)

/-- R67, R85, R90, R185 to R188: the barrier instructions and WAITA on an object or word that lies aligned in the scratchpad, is not
poisoned, that no earlier access of the convoy still has to read or write, and that no copy owns. BARI arms it, an arrival counts down and
turns the phase, a wait on a phase that stands or on a value that is not there deschedules the convoy, with its bound; a wait that is over
at once writes true; an arrival that is refused leaves the object as it was, but for the overrun it may mark. R184, R196, R198: SIGN adds
the convoy to the signers of a register once its earlier accesses are done; the last of the declared convoys completes the round, for
which it waits where the reservation table is full. A convoy that has signed the round already waits for its end. -/
def Obligations.BarriersAndSigning : Prop :=
  (∀ (f : MForm) (s : State) (x y : Ctx) (at_ : Nat),
    let t := s.begun y
    let off := (y.ea f 0).toNat
    let n := y.uni f.a
    let o := t.barrier y off
    let now := s.now % 2 ^ 32
    let dst : Option (BitVec 3) := match f.a with
      | .p k => some k
      | _ => none
    let bound : Option Nat := if (y.v.sreg (f.wreg + 1)).toNat = 0 then none else some (s.now + (y.v.sreg (f.wreg + 1)).toNat)
    let ready (i : Instr) (size : Nat) : Prop :=
      let p : Piece := { grp := 0, lane := 0, loc := .spad, addr := at_, n := size, off := 0, va := off }
      Issues i s x y ∧ y.act ≠ [] ∧ off % size = 0 ∧ off + size ≤ spadSize y.c.banks ∧ spadByte y.c.banks off = some at_ ∧
      t.earlierPending y.cur.col y.cur.cv t.nextId p = false ∧ t.tileTransfers y.cur.col y.cur.cv t.nextId p true = false ∧
      t.owned p = false ∧ t.poisoned p = false
    let passes (i : Instr) (w : State) : Prop := Goes i s x (w.onConvoy y.cur.col y.cur.cv fun v => (v.setPreds y.act dst true).discard)
    let fails (i : Instr) (w : State) : Prop := Faults i s x w y.group cBarrier (BitVec.ofNat 64 off) 0
    let arrives (c : Nat) : Prop := 0 < c ∧ c ≤ 1024 ∧ o.armed = true ∧ o.res = 0 ∧ c ≤ o.pend
    let counted (c : Nat) : Barrier := { o with pend := o.pend - c, lastcv := y.cur.cv, lastn := c }
    let turned (c : Nat) : Barrier :=
      { counted c with phase := (o.phase + 1) % 16, pend := o.exp, tchg := now, waiters := 0 }
    let arrived (c : Nat) : State := t.arriveAt y off (if o.pend = c then turned c else counted c)
    let waits (i : Instr) (w : State) (ph : Nat) : Prop :=
      let b := w.barrier y off
      WaitsAt i s x (w.setBarrier y off { b with waiters := min (b.waiters + 1) 0xFFFF }) (.barrier off ph dst) bound
    (ready (.bari f) 16 → 1 ≤ n → n ≤ 65535 → ¬(o.armed = true ∧ o.waiters > 0) →
      Goes (.bari f) s x (t.setBarrier y off
        { exp := n, pend := n, phase := 0, ovr := false, armed := true, res := 0, waiters := 0, lastn := 0, lastcv := 0, tchg := now })) ∧
    (ready (.bari f) 16 → n = 0 ∨ n > 65535 ∨ (o.armed = true ∧ o.waiters > 0) → fails (.bari f) t) ∧
    (let c := if f.a = .none then y.act.length else n
     ready (.bara f) 16 → t.fenceDev y = true → arrives c → Goes (.bara f) s x (arrived c)) ∧
    (let c := if f.a = .none then y.act.length else n
     ready (.bara f) 16 → t.fenceDev y = true → 0 < c → c ≤ 1024 → o.armed = true → o.res = 0 → o.pend < c →
       fails (.bara f) (t.arriveAt y off { o with ovr := true })) ∧
    -- an arrival that is refused leaves the object as it was
    (let c := if f.a = .none then y.act.length else n
     ready (.bara f) 16 → t.fenceDev y = true → c = 0 ∨ 1024 < c ∨ o.armed = false ∨ o.res ≠ 0 → fails (.bara f) t) ∧
    (let c := y.act.length
     ready (.baraw f) 16 → t.fenceDev y = true →
       (1024 < c ∨ o.armed = false ∨ o.res ≠ 0 → fails (.baraw f) t) ∧
       (c ≤ 1024 → o.armed = true → o.res = 0 → o.pend < c → fails (.baraw f) (t.arriveAt y off { o with ovr := true }))) ∧
    (∀ i ∈ [Instr.bara f, .baraw f], ready i 16 → t.fenceDev y = false → StallsAt i s x t) ∧
    (ready (.barw f) 16 → o.phase ≠ (y.v.sreg f.wreg).toNat % 16 → passes (.barw f) t) ∧
    (ready (.barw f) 16 → o.phase = (y.v.sreg f.wreg).toNat % 16 → waits (.barw f) t o.phase) ∧
    (let c := y.act.length
     ready (.baraw f) 16 → t.fenceDev y = true → arrives c →
       (o.pend = c → passes (.baraw f) ((arrived c).checkpointAt y off dst)) ∧
       (o.pend ≠ c → waits (.baraw f) (arrived c) o.phase)) ∧
    (let v := y.v.sreg f.wreg
     let w := t.spadNum y.c.banks off 4
     let holds : Prop := match bitsOf f.ent.toNat 0 3 with
       | 0 => w = v.toNat
       | 1 => w ≠ v.toNat
       | 2 => v.toNat ≤ w
       | _ => w < v.toNat
     ready (.waita f) 4 → (holds → passes (.waita f) t) ∧
       (¬holds → WaitsAt (.waita f) s x t (.waita off (bitsOf f.ent.toNat 0 3) v dst) bound))) ∧
  (∀ (f : RForm) (s : State) (x y : Ctx), Issues (.sign f) s x y → y.act ≠ [] →
    let t := s.begun y
    let n := bitsOf f.ent.toNat 0 4
    let r := y.c.cvreg n
    (t.fenceSign y = false ∨ t.roundFull y n false = true → StallsAt (.sign f) s x t) ∧
    (t.fenceSign y = true → y.cur.cv ∈ r.signers → WaitsAt (.sign f) s x t (.sign n none) none) ∧
    (t.fenceSign y = true → t.roundFull y n false = false → y.cur.cv ∉ r.signers →
      Goes (.sign f) s x (((t.onColumn y.cur.col fun c => c.setCvreg n { r with signers := r.signers ++ [y.cur.cv] }).complete y.cur.col n
        ).onConvoy y.cur.col y.cur.cv Convoy.discard)))

/-- R87, R88, R93, R94, R182, R183, R223: FENCE waits for the convoy's earlier accesses, those of ACLD and ACST among them, while no other
group of the convoy issues, and discards its read-ahead; what FENCE.col and FENCE.dev await, arrival and completion of every operation
that is no posted host write, and FENCE.sys acknowledgement too, is the model's reading (log 28); WAITC and NAP deschedule their convoy;
YIELD has it passed over for 64 cycles; NOP has no effect. -/
def Obligations.FencesAndWaits : Prop :=
  (∀ (f : RForm) (s : State) (x y : Ctx), Issues (.fence f) s x y → Plain y → y.act ≠ [] →
    let own (o : Op) : Prop := o.col = y.cur.col ∧ o.cv = y.cur.cv
    let arrived : Prop := (∀ o ∈ s.ops, own o → o.kind = .posted ∨ o.pieces = []) ∧
      ∀ e ∈ s.eng.mx, e.col = y.cur.col → e.cv = y.cur.cv → 0 < e.left → e.work.rows = none
    let complete : Prop := (∀ o ∈ s.ops, own o → o.kind = .posted ∨ o.comp ≤ s.now) ∧ y.v.ctdev ≤ s.now
    let acked : Prop := ∀ o ∈ s.ops, own o → o.kind ≠ .zeroRead ∧ o.peers = []
    let gone : Prop := arrived ∧ (f.subop ≠ 1 → complete) ∧ (f.subop = 4 → acked)
    let waits (t : State) : Prop := StallsAt (.fence f) s x
      (if y.v.wait.isSome then t else t.onConvoy y.cur.col y.cur.cv fun v => { v with fencing := some y.pc })
    (gone → ¬(f.subop = 4 ∧ y.v.relaxedSent = true) →
      Leaves (.fence f) s x { y.v with ports := y.v.ports.map fun p => if p.1 < 2 then (p.1, { p.2 with buf := [] }) else p
                                       arrived := [], fencing := none }) ∧
    (¬gone → waits (s.begun y)) ∧
    (gone → f.subop = 4 → y.v.relaxedSent = true → waits ((s.begun y).addOp y .zeroRead .default [] [] [] []))) ∧
  (∀ (f : IForm) (s : State) (x y : Ctx), Issues (.waitc f) s x y → Plain y → y.act ≠ [] →
    let n (k : Nat) : Nat := bitsOf f.imm.toNat (8 * k) 6
    let gone : Prop := y.v.loads ≤ n 0 ∧ y.v.stores ≤ n 1 ∧ y.v.copies ≤ n 2 ∧ y.v.tileOps ≤ n 3
    (gone → Leaves (.waitc f) s x y.v) ∧ (¬gone → WaitsIn (.waitc f) s x s y.v (.waitc (n 0) (n 1) (n 2) (n 3)) none)) ∧
  (∀ (f : IForm) (s : State) (x y : Ctx), Issues (.nap f) s x y → Plain y → y.act ≠ [] →
    (f.imm = 0 → Leaves (.nap f) s x y.v) ∧
    (f.imm ≠ 0 → WaitsIn (.nap f) s x s y.v .nap (some (s.now + f.imm.toNat)))) ∧
  ∀ (f : BForm) (s : State) (x y : Ctx), Plain y →
    (Issues (.yield f) s x y → y.act ≠ [] → Leaves (.yield f) s x { y.v with yieldUntil := some (s.now + 64) }) ∧
    (Issues (.nop f) s x y → Leaves (.nop f) s x y.v)

/-! ## Control flow -/

/-- R104, R220 to R222: taken branches to legal targets: the active lanes go there, the others of the group to the next slot; CALL records
the return address, LOOP counts down. -/
def Obligations.Branches : Prop :=
  ∀ (f : BForm) (s : State) (x y : Ctx), Plain y →
    let ok (p : PC) : Prop := s.targetOk y.core y.c.part y.c.prog p = true
    let target := mkPc (pcHandle y.pc) f.tline.toNat f.tslot.toNat
    let dst (p : Nat → PC) (l : Nat) : PC := if l ∈ y.act then p l else nextPc y.pc
    (Issues (.bra f) s x y → ok target → Jumps (.bra f) s x y.v (dst fun _ => target)) ∧
    (Issues (.bra f) s x y → y.act ≠ [] → ¬ok target → Faults (.bra f) s x (s.begun y) y.group cBranch (BitVec.setWidth 64 target) 0) ∧
    (Issues (.call f) s x y → ok target →
      Jumps (.call f) s x (y.v.onLanes y.act fun _ l => { l with lnk := nextPc y.pc }) (dst fun _ => target)) ∧
    (Issues (.ret f) s x y → (∀ l ∈ y.act, ok (y.v.lane l).lnk ∧ pcHandle (y.v.lane l).lnk = pcHandle y.pc) →
      Jumps (.ret f) s x y.v (dst fun l => (y.v.lane l).lnk)) ∧
    (∀ n, f.b = .s n → Issues (.loop f) s x y → y.act ≠ [] →
      let c := y.v.sreg n.toNat - 1
      (c ≠ 0 → ok target → Jumps (.loop f) s x (y.v.setSreg n.toNat c) (dst fun _ => target)) ∧
      (c = 0 → Jumps (.loop f) s x (y.v.setSreg n.toNat c) fun _ => nextPc y.pc)) ∧
    (Issues (.brx f) s x y → y.uni f.b % 2 = 0 → (∀ o ∈ s.ops, o.col = y.cur.col → o.cv = y.cur.cv → o.pieces = []) →
      (∀ e ∈ s.eng.mx, e.col = y.cur.col → e.cv = y.cur.cv → e.left = 0) → (∀ j ∈ s.eng.jobs, j.pend = []) → s.coh.poison = [] →
      let i (l : Nat) : Int := signedOf 32 (y.src l f.d)
      let used (l : Nat) : Prop := 0 ≤ i l ∧ i l < bitsOf f.ent.toNat 0 10 + 1
      let off (l : Nat) : Nat := y.uni f.b + 2 * (i l).toNat
      let e (l : Nat) : Nat := s.spadNum y.c.banks (off l) 2
      let dest (l : Nat) : PC := mkPc (pcHandle y.pc) (bitsOf (e l) 3 10) (bitsOf (e l) 0 3)
      (∀ l ∈ y.act, used l → off l + 2 ≤ spadSize y.c.banks ∧ ok (dest l)) →
      Jumps (.brx f) s x y.v (dst fun l => if used l then dest l else nextPc y.pc))

/-- R13, R223, R257: EXIT, and BDONE in an element column, end their active lanes; a convoy whose last lane has gone has ended. No memory,
and no register of another lane, changes. -/
def Obligations.Exits : Prop :=
  ∀ (f : BForm) (s : State) (x y : Ctx) (i : Instr), i ∈ [Instr.exit f, .bdone f] → Issues i s x y → Plain y →
    ∃ t w, exec i s = .next t ∧ t.convoy? y.cur.col y.cur.cv = some w ∧
      (∀ l ∈ y.act, (w.lane l).live = false) ∧
      (∀ l, l ∉ y.act → (w.lane l).live = (y.v.lane l).live ∧ (w.lane l).regs = (y.v.lane l).regs ∧ (w.lane l).preds = (y.v.lane l).preds) ∧
      (w.live = [] → w.ended = true) ∧ w.sregs = y.v.sregs ∧
      t.store = { s.store with istore := t.store.istore } ∧ t.ops = s.ops ∧ t.obj = s.obj

/-- R230 to R232: a fault with a handler, TRAP, or BKPT with a handler, whose handler lies in a resident overlay at a branch target, and
while no live lane is in trap mode: every live lane enters the handler, with its counter kept in TRPC; the lanes of the fault, for TRAP
and BKPT the active ones, read its code in `%fault`, the others 0; TRADDR has the address. R234, R316: a fault without a handler, or with
a live lane in the handler already, kills the column: no lane of it lives, every convoy has ended; a column that is being saved is killed
once its save has ended. R233: TRAPRET returns the active lanes that are in trap mode to the counter that TRPC keeps, a faulting one,
where the word says so, to the slot after it; trap mode and `%fault` clear. -/
def Obligations.TrapsAndKills : Prop :=
  ((∀ (s : State) (col cv : Nat) (pc : PC) (F : List Nat) (code : BitVec 16) (addr : DWord) (access : Nat) (c : Column) (v : Convoy) (r : Route),
    s.column? col = some c → s.convoy? col cv = some v → s.route? c.part c.prog = some r → r.trapen = true →
    code ≠ cTranslation → code ≠ cUncorrectable → (∀ l, (v.lane l).live = true → (v.lane l).trap = false) →
    (s.res (coreOf v.quad) c.part c.prog (pcHandle r.trappc)).st = .resident →
    s.targetOk (coreOf v.quad) c.part c.prog r.trappc = true →
    ∃ w, (s.signal col cv pc F code addr access).convoy? col cv = some w ∧ w.traddr = addr ∧ w.wait = none ∧ w.fencing = none ∧
      w.sregs = v.sregs ∧
      w.stack = v.stack ∧
      ∀ l, w.lane l = if (v.lane l).live = true then
        { v.lane l with pc := r.trappc, trpc := (v.lane l).pc, trap := true, split := false, fault := if l ∈ F then code else 0 }
      else v.lane l) ∧
  -- R231: two groups that fault in one cycle enter together, each lane with its own group's code, and TRADDR of the lowest group
  (∀ (s : State) (col cv : Nat) (q : Raised) (qs : List Raised) (c : Column) (v : Convoy) (r : Route),
    s.column? col = some c → s.convoy? col cv = some v → s.route? c.part c.prog = some r → r.trapen = true → c.dying = false →
    (∀ p ∈ q :: qs, p.code ≠ cTranslation ∧ p.code ≠ cUncorrectable) → (∀ l, (v.lane l).live = true → (v.lane l).trap = false) →
    (s.res (coreOf v.quad) c.part c.prog (pcHandle r.trappc)).st = .resident →
    s.targetOk (coreOf v.quad) c.part c.prog r.trappc = true →
    ∃ w, (s.deliver col cv (q :: qs)).convoy? col cv = some w ∧ w.traddr = q.addr ∧ ∀ l, (v.lane l).live = true →
      (w.lane l).pc = r.trappc ∧ (w.lane l).trpc = (v.lane l).pc ∧ (w.lane l).trap = true ∧
      (w.lane l).fault = (((q :: qs).flatMap fun p => p.lanes.map fun i => (i, p.code)).lookup l).getD 0) ∧
  ∀ (f : BForm) (s : State) (x y : Ctx), Plain y → y.act ≠ [] →
    let code (hi : Nat) : BitVec 16 := BitVec.ofNat 16 (hi + bitsOf f.ent.toNat 0 8)
    (Issues (.trap f) s x y → Faults (.trap f) s x (s.begun y) y.act (code 0xFF00) 0 0) ∧
    (Issues (.bkpt f) s x y → y.r.trapen = true → Faults (.bkpt f) s x (s.begun y) y.act (code 0xFE00) 0 0) ∧
    (Issues (.bkpt f) s x y → y.r.trapen = false → Leaves (.bkpt f) s x y.v)) ∧
  (∀ (s : State) (col cv : Nat) (pc : PC) (F : List Nat) (code : BitVec 16) (addr : DWord) (access : Nat) (c : Column) (v : Convoy) (r : Route),
    s.column? col = some c → s.convoy? col cv = some v → s.route? c.part c.prog = some r → c.killed = false →
    (r.trapen = false ∨ ∃ l, (v.lane l).live = true ∧ (v.lane l).trap = true) → code ≠ cTranslation → code ≠ cUncorrectable →
    ∃ d, (s.signal col cv pc F code addr access).column? col = some d ∧
      (c.beingSaved = true → d = { c with doomed := true }) ∧
      (c.beingSaved = false → d.killed = true ∧ d.doomed = false ∧ d.cvregs = [] ∧
        ∀ w ∈ d.cvs, w.ended = true ∧ w.live = [] ∧ w.wait = none ∧ w.stack = [])) ∧
  (∀ (f : BForm) (s : State) (x y : Ctx), Issues (.trapret f) s x y → Plain y →
    let ls := y.act.filter fun l => (y.v.lane l).trap
    let back (l : Nat) : PC :=
      let a := y.v.lane l
      if f.ent.getLsbD 0 = true ∧ a.fault ≠ 0 then nextPc a.trpc else a.trpc
    (∀ l ∈ ls, s.targetOk y.core y.c.part y.c.prog (back l) = true) →
    Jumps (.trapret f) s x (y.v.onLanes ls fun _ l => { l with trap := false, fault := 0 }) fun l => if l ∈ ls then back l else nextPc y.pc)

/-- R228, R229: CALLO into a resident overlay pushes its return address and takes the group to the target; one that loads or drains, or
whose load the call starts, deschedules the convoy; RETO pops the address that it returns to. A ninth entry, an empty stack, an invalid
handle and an overlay that may not be loaded automatically fault. -/
def Obligations.OverlayCalls : Prop :=
  (∀ (f : BForm) (s : State) (x y : Ctx), Issues (.callo f) s x y → Plain y →
    let t := s.begun y
    let h := y.uni f.b
    let target := mkPc h f.tline.toNat f.tslot.toNat
    let st := (s.res y.core y.c.part y.c.prog h).st
    let fails (code : BitVec 16) : Prop := Faults (.callo f) s x t y.group code (BitVec.ofNat 64 y.pc.toNat) 0
    (h ≥ 0xFFF ∨ y.r.dirEntry h = none → fails cAbsent) ∧
    ∀ d, h < 0xFFF → y.r.dirEntry h = some d → y.act ≠ [] →
      (8 ≤ y.v.stack.length → fails cReturn) ∧
      (y.v.stack.length < 8 →
        (st = .resident → s.targetOk y.core y.c.part y.c.prog target = true →
          Jumps (.callo f) s x { y.v with stack := nextPc y.pc :: y.v.stack } fun l => if l ∈ y.act then target else nextPc y.pc) ∧
        (st = .loading ∨ st = .draining → WaitsIn (.callo f) s x s y.v (.callo h target) none) ∧
        (st = .absent → d.auto = false → fails cAbsent) ∧
        (st = .absent → d.auto = true → t.probeImage y d = none →
          (∀ u, t.load y.core y.c.part y.c.prog h d = (u, .loading) → WaitsAt (.callo f) s x u (.callo h target) none) ∧
          (∀ u, t.load y.core y.c.part y.c.prog h d = (u, .noBay) → fails cNoBay)))) ∧
  ∀ (f : BForm) (s : State) (x y : Ctx), Issues (.reto f) s x y → Plain y →
    (y.v.stack = [] → Faults (.reto f) s x (s.begun y) y.group cReturn (BitVec.ofNat 64 y.pc.toNat) 0) ∧
    ∀ p rest, y.v.stack = p :: rest → y.act ≠ [] → s.targetOk y.core y.c.part y.c.prog p = true →
      Jumps (.reto f) s x { y.v with stack := rest } fun l => if l ∈ y.act then p else nextPc y.pc

/-- R212, R213, R215, R224 to R227: OVL of a resident overlay answers at once in its completion word, of one that loads later; OVLPIN and
OVLREL count a token up and down; OVLEV lets the overlay drain. A load with room takes free bays under the next generation; that they are
the lowest is the model's choice (log 93). -/
def Obligations.OverlayRequests : Prop :=
  (∀ (f : BForm) (s : State) (x y : Ctx) (h : Nat) (d : DirEntry), y.act ≠ [] → y.uni f.b = h → h < 0xFFF → y.r.dirEntry h = some d →
    let t := (s.begun y).forbidRollback y.cur.col
    let u := t.onConvoy y.cur.col y.cur.cv fun v => { v with copies := v.copies + 1 }
    let word := if f.c = .none then none else some (y.uni f.c)
    let w : OvlWaiter := { col := y.cur.col, cv := y.cur.cv, word }
    (Issues (.ovl f) s x y → (f.c ≠ .none → y.uni f.c % 4 = 0 ∧ y.uni f.c < spadSize y.c.banks) → (s.begun y).probeImage y d = none →
      Goes (.ovl f) s x (match u.load y.core y.c.part y.c.prog h d with
        | (q, .resident) => (q.answerOvl w (q.ovlWord y.core y.c.part y.c.prog h)).notice
        | (q, .loading) => q.addWaiter y.core y.c.part y.c.prog h w
        | (q, .noBay) =>
          ((q.answerOvl w (2 ^ 31 + cNoBay.toNat)).ovlFailure y.c.part y.r.num y.v.quad y.c.colid.toNat cNoBay d.image).notice)) ∧
    (Issues (.ovlpin f) s x y → Goes (.ovlpin f) s x (t.onColumn y.cur.col fun c => c.setTokens y.core h (min 255 (c.tokensOf y.core h + 1)))) ∧
    (Issues (.ovlrel f) s x y →
      Goes (.ovlrel f) s x (t.onColumn y.cur.col fun c => c.setTokens y.core h (c.tokensOf y.core h - 1)).settle) ∧
    (∀ k, (y.c.setTokens y.core h k).tokensOf y.core h = k) ∧
    (Issues (.ovlev f) s x y → Goes (.ovlev f) s x (t.evict y.core y.c.part y.c.prog h))) ∧
  ∀ (s : State) (core part prog h : Nat) (d : DirEntry),
    let r := s.res core part prog h
    (r.st = .resident → s.load core part prog h d = (s, .resident) ∧
      (s.evict core part prog h) = (s.setRes { r with st := .draining }).settle) ∧
    (r.st = .draining → s.load core part prog h d = (s.setRes { r with st := .resident }, .resident)) ∧
    (r.st = .loading → s.load core part prog h d = (s, .loading) ∧ s.evict core part prog h = s.setRes { r with evpend := true }) ∧
    (r.st = .absent → s.shareable core part d = none → s.baysUsed core part + (d.nbm1 + 1) ≤ s.bayQuota core part →
      d.nbm1 + 1 ≤ (s.freeBays core).length →
      s.load core part prog h d = (s.setRes { r with
        st := .loading, gen := r.gen + 1, bays := (s.freeBays core).take (d.nbm1 + 1), evpend := false, waiters := []
        joined := false }, .loading))

/-! ## The matrix group -/

/-- R85, R196, R198, R201 to R206: MMA, MMAT, the tile instructions and ACWR post one entry to the reservation table of their quadrant,
with the values captured at issue, and count it; a full table stalls the clause, as a round that would complete into it does. A
convergence MMA signs its round. PLST leaves its merges pending, CBLD the read of a codebook. -/
def Obligations.MatrixPosts : Prop :=
  ∀ (f : XForm) (s : State) (x y : Ctx),
    let t := s.begun y
    let full : Prop := 16 ≤ (s.eng.mx.filter (·.quad == y.v.quad)).length
    let earlier : Prop := ∃ o ∈ s.ops, o.col = y.cur.col ∧ o.cv = y.cur.cv ∧ o.kind ≠ .posted ∧ o.pieces ≠ []
    let b := y.uni f.b
    let w32 (o : Operand) : Word := BitVec.ofNat 32 (y.uni o)
    let posts (i : Instr) (work : MxWork) (passes : Nat) : Prop :=
      (full → StallsAt i s x t) ∧
      (¬full → ∃ u c, LeavesIn i s x u { y.v with tileOps := y.v.tileOps + 1 } ∧
        u = { s with cols := u.cols, nextId := s.nextId + 1, fw := { s.fw with usage := u.fw.usage }, eng := { s.eng with
          mx := s.eng.mx ++ [{ id := s.nextId, quad := y.v.quad, col := y.cur.col, cv := y.cur.cv, signers := [(y.cur.cv, y.pc)]
                               tile := f.tile.toNat, urg := f.urg.toNat, work, left := passes, chunks := [], busy := s.now
                               recalled := false }] } } ∧
        u.column? y.cur.col = some c ∧ c.noRollback = true)
    let mma (i : Instr) (tri : Bool) : Prop :=
      let work : MxWork := .mma tri f (w32 f.b) (w32 f.c) (w32 f.d) (w32 f.e) (((y.v.books.lookup f.slotA.toNat).map (·.table)).getD [])
      Issues i s x y → probeRanges y.c.banks 1 (y.mmaRanges f) = none → y.bookPending f = false →
      (f.cven = false → ¬earlier → (∀ e ∈ s.eng.mx, e.col = y.cur.col → e.cv = y.cur.cv → 0 < e.left → e.work.rows = none) →
        posts i work (if tri ∧ signedOf 7 (bitsOf f.variant.toNat 0 7) = -64 then 0 else f.km1.toNat + 1)) ∧
      (f.cven = true → t.fenceDev y = false ∨ t.roundFull y f.cvn.toNat true = true → StallsAt i s x t) ∧
      (f.cven = true → t.fenceDev y = true → t.roundFull y f.cvn.toNat true = false → y.cur.cv ∉ (y.c.cvreg f.cvn.toNat).signers →
        (∀ w, (y.c.cvreg f.cvn.toNat).work = some w → sameWork work w = true) →
        ∃ u, t.sign y f.cvn.toNat (some work) = .signed u ∧ Goes i s x u) ∧
      (f.cven = true → t.fenceDev y = true → y.cur.cv ∈ (y.c.cvreg f.cvn.toNat).signers →
        WaitsAt i s x t (.sign f.cvn.toNat (some work)) none)
    let transfer (i : Instr) (e access : Nat) (work : Nat → Nat → MxWork) : Prop :=
      let stride := if f.c = .none then 64 * e else y.uni f.c
      Issues i s x y → y.act ≠ [] → ¬earlier →
      probeRanges y.c.banks access ((List.range 64).map fun r => (b + r * stride, 64 * e, 1)) = none → posts i (work b stride) 1
    mma (.mma f) false ∧ mma (.mmat f) true ∧
    (Issues (.acz f) s x y → y.act ≠ [] → posts (.acz f) .acz 1) ∧
    transfer (.acld f) 4 1 .acld ∧
    transfer (.acst f) (if bitsOf f.variant.toNat 0 2 = 0 then 4 else 2) 2 (.acst (bitsOf f.variant.toNat 0 2)) ∧
    (Issues (.acwr f) s x y → y.act ≠ [] → posts (.acwr f)
      (.acwr (y.act.map fun l => (64 * bitsOf b 0 6 + (bitsOf b 8 6 + l) % 64, (y.v.lane l).reg f.reg.toNat))) 1) ∧
    (∀ q, Issues (.plst f) s x y → y.act ≠ [] → y.fslot f.slotA.toNat Fmt.plane = some q → b % 512 = 0 →
      let w := q.efmt.width
      let c := y.uni f.c
      -- bit (k, j) of lane l's register goes to plane j of column k, row i
      let bits := y.act.flatMap fun l =>
        let i := bitsOf c 16 6 + l
        if i > 63 then [] else (List.range (32 / w)).flatMap fun p =>
          let k := bitsOf c 0 11 + p
          if k > 2047 then [] else (List.range w).map fun j =>
            (l, b + 512 * (k / 64 * w + j) + 8 * (k % 64), i, bitsOf ((y.v.lane l).reg f.reg.toNat).toNat (w * p + (w - 1 - j)) 1)
      t.reaches y .scratch .write anyLoc (bits.map fun z => ⟨z.1, z.2.1, 8, 0⟩) →
      ∃ ps u, t.resolve y .scratch .write anyLoc (bits.map fun z => ⟨z.1, z.2.1, 8, 0⟩) = .ok (ps, u) ∧ Goes (.plst f) s x ((u.addOp y .plst .default y.act (ps.mapIdx fun n p => { p with grp := n }) []
        (bits.mapIdx fun n z => (n, z.2.2))).put y { y.v with tileOps := y.v.tileOps + 1 })) ∧
    ∀ q, Issues (.cbld f) s x y → y.act ≠ [] → y.fslot f.slotA.toNat [.cb4] = some q →
      t.reaches y .global .read anyLoc [⟨0, (q.cbaddr : Int), 32, 0⟩] →
      ∃ ps u, t.resolve y .global .read anyLoc [⟨0, (q.cbaddr : Int), 32, 0⟩] = .ok (ps, u) ∧
      let n := f.slotA.toNat
      let book : Codebook := { table := ((y.v.books.lookup n).map (·.table)).getD [], ready := false }
      Goes (.cbld f) s x (((u.put y { y.v with loads := y.v.loads + 1, books := (y.v.books.filter (·.1 != n)) ++ [(n, book)] }).addOp y
        (.codebook n) f.h.hint [0] ps [(0, 0)] []).forbidRollback y.cur.col)

/-! ## Bounds passes -/

/-- R252, R254 to R258: the bounds instructions. BSUM attaches a summary, FILL appends a pending fill to each active lane that may hold
one, and defers the tiles of the others, WIDEN gives up what is known of a register or predicate; DEFER and SPLIT end the tiles of their
lanes, deferred or quartered, BDONE and EXIT with their fills performed. In an element column BSUM, DEFER, SPLIT and WIDEN have no
effect. -/
def Obligations.BoundsInstructions : Prop :=
  (∀ (f : MForm) (s : State) (x y : Ctx), y.bounds = true → y.und = [] → y.act ≠ [] →
    let base : DWord := BitVec.ofNat 64 (y.uni f.b 2)
    let rest := y.v.atts.filter (·.base != base)
    (Issues (.bsum f) s x y → y.uni f.a 2 % 8 = 0 → Leaves (.bsum f) s x { y.v with
      atts := (if 8 ≤ rest.length then rest.drop 1 else rest) ++
        [{ base, n := BitVec.ofNat 32 (y.uni f.c), ty := f.ty, table := BitVec.ofNat 64 (y.uni f.a 2) }] }) ∧
    (Issues (.bsum f) s x y → y.uni f.a 2 % 8 ≠ 0 →
      Faults (.bsum f) s x (s.begun y) y.group cProtection (BitVec.ofNat 64 (y.uni f.a 2)) 1) ∧
    (let val (l : Nat) : IVal := y.read l f.a f.size.regs
     let mk (l : Nat) : Fill :=
       { base, off := f.off, rs := y.uni f.c, value := BitVec.ofNat 64 (val l).lo, size := f.size.bytes, hint := f.h.hint }
     Issues (.fill f) s x y → (∀ l ∈ y.act, (val l).isPoint = true ∧ (val l).mn = false ∧ (y.v.lane l).fills.length < 4) →
     let ws := y.act.flatMap fun l => match (y.v.lane l).tile with
       | some g => fillWants l (mk l) (y.r.range g)
       | none => []
     (s.begun y).reaches y .global .write anyLoc ws → ∃ ps u, (s.begun y).resolve y .global .write anyLoc ws = .ok (ps, u) ∧
       Goes (.fill f) s x (u.put y (y.v.onLanes y.act fun l a => { a with fills := a.fills ++ [mk l] }))) ∧
    -- some lanes cannot hold one: their tiles are deferred
    (let val (l : Nat) : IVal := y.read l f.a f.size.regs
     let mk (l : Nat) : Fill :=
       { base, off := f.off, rs := y.uni f.c, value := BitVec.ofNat 64 (val l).lo, size := f.size.bytes, hint := f.h.hint }
     let full := y.act.filter fun l => !(val l).isPoint || (val l).mn || decide (4 ≤ (y.v.lane l).fills.length)
     let ls := y.act.filter fun l => !full.contains l
     let ws := ls.flatMap fun l => match (y.v.lane l).tile with
       | some g => fillWants l (mk l) (y.r.range g)
       | none => []
     Issues (.fill f) s x y → (s.begun y).reaches y .global .write anyLoc ws → ∃ t w, exec (.fill f) s = .next t ∧
       t.convoy? y.cur.col y.cur.cv = some w ∧ (∀ l ∈ full, (w.lane l).live = false ∧ (w.lane l).tile = none) ∧
       (∀ l ∈ ls, (w.lane l).live = (y.v.lane l).live ∧ (w.lane l).fills = (y.v.lane l).fills ++ [mk l]) ∧
       t.launches = s.launches.map fun q => if some q.id = y.c.launch then
         { q with deferred := q.deferred ++ (full.filterMap fun l => (y.v.lane l).tile).map fun g => (q.round, g.index, g) } else q)) ∧
  (∀ (f : RForm) (s : State) (x y : Ctx), Issues (.widen f) s x y → y.bounds = true → y.und = [] →
    (∀ n, f.a = .v n → Leaves (.widen f) s x (y.v.onLanes y.act fun _ l =>
      { l with wide := setFlag l.wide n.toNat true, mn := setFlag l.mn n.toNat true }.mark [n.toNat] [])) ∧
    (∀ n, f.a = .p n → Leaves (.widen f) s x (y.v.onLanes y.act fun _ l => l.setPred n.toNat .und))) ∧
  (∀ (f : MForm) (g : BForm) (h : RForm) (s : State) (x y : Ctx) (i : Instr), i ∈ [Instr.bsum f, .defer g, .split g, .widen h] → Plain y →
    Issues i s x y → Leaves i s x y.v) ∧
  ∀ (f : BForm) (s : State) (x y : Ctx), y.bounds = true → y.und = [] →
    let tiles := y.act.filterMap fun l => (y.v.lane l).tile
    let small := tiles.filter fun g => !y.r.mayQuarter g
    let ends (i : Instr) (quarters : List (Nat × Tile)) (deferred : List Tile) : Prop :=
      Issues i s x y → ∃ t w, exec i s = .next t ∧ t.convoy? y.cur.col y.cur.cv = some w ∧
        (∀ l ∈ y.act, (w.lane l).live = false ∧ (w.lane l).tile = none) ∧ (∀ l, l ∉ y.act → (w.lane l).live = (y.v.lane l).live) ∧
        t.launches = s.launches.map (fun q => if some q.id = y.c.launch then
          { q with quarters := q.quarters ++ quarters, deferred := q.deferred ++ deferred.map fun g => (q.round, g.index, g) } else q)
    ends (.defer f) [] tiles ∧
    ends (.split f) ((tiles.filter y.r.mayQuarter).flatMap fun g => (y.r.quartersOf g).map fun c => (g.index, c)) small ∧
    ends (.bdone f) [] [] ∧ ends (.exit f) [] [] ∧
    -- the fills of a tile that is done
    (∀ i ∈ [Instr.bdone f, .exit f], Issues i s x y → ∃ t w, exec i s = .next t ∧ t.convoy? y.cur.col y.cur.cv = some w ∧
      let u := y.act.foldl (fun (u : State) l => match (y.v.lane l).tile with
        | some g => u.performFills y l (y.v.lane l).fills (y.r.range g)
        | none => u) (s.begun y)
      t.ops = u.ops ∧ (u.convoy? y.cur.col y.cur.cv).map (·.stores) = some w.stores) ∧
    ∀ (u : State) (v : Convoy) (l : Nat) (k : Fill) (more : List Fill) (g : Nat × Nat × Nat × Nat), u.convoy? y.cur.col y.cur.cv = some v →
      u.performFills y l (k :: more) g = (u.performFills y l [k] g).performFills y l more g ∧
      (u.reaches y .global .write anyLoc (fillWants l k g) → ∃ new : List Op,
        (u.performFills y l [k] g).ops = u.ops ++ new ∧
        ((u.performFills y l [k] g).convoy? y.cur.col y.cur.cv).map (·.stores) = some (v.stores + (rangeElems g).length) ∧
        new.length = (rangeElems g).length ∧ ∀ (n : Nat) (o : Op) (e : Nat × Nat), new[n]? = some o → (rangeElems g)[n]? = some e →
          o.col = y.cur.col ∧ o.cv = y.cur.cv ∧ o.kind = .store ∧ o.lanes = [l] ∧ o.vals = [(l, k.value.toNat % 2 ^ (8 * k.size))] ∧
          ∀ p ∈ o.pieces, fillAddr k.base k.off k.rs k.size e.1 e.2 ≤ p.va ∧
            (p.va : Int) < fillAddr k.base k.off k.rs k.size e.1 e.2 + k.size)

/-- R241: the quarters of a tile that may be quartered are four tiles one depth down that cover it exactly: every element of the tile lies
in one of them and no other element does. R251: the fifth taken run of a back-edge gives up the registers and predicates written in its
loop, the seventeenth defers the tile, and a fifth distinct back-edge finds no entry. -/
def Obligations.BoundsPasses : Prop :=
  (∀ (r : Route) (t : Tile), r.mayQuarter t = true → 0 < t.sx → 0 < t.sy → (r.twod = false → t.sy = 1) →
    let q : List Tile := t.quarters r.twod
    q.length = 4 ∧ (∀ c ∈ q, c.depth = t.depth + 1) ∧
    ∀ a b : Nat, let inside (c : Tile) : Prop := c.x ≤ a ∧ a < c.x + c.sx ∧ c.y ≤ b ∧ b < c.y + c.sy
      (inside t ↔ ∃ c ∈ q, inside c) ∧ ∀ (i j : Nat) (c d : Tile), q[i]? = some c → q[j]? = some d → inside c → inside d → i = j) ∧
  ((∀ (l : Lane) (pc : PC), l.edges.find? (·.pc == pc) = none →
    (4 ≤ l.edges.length → l.backEdge pc = none) ∧
    (l.edges.length < 4 → l.backEdge pc = some { l with edges := l.edges ++ [{ pc, count := 1, regs := [], preds := [] }] })) ∧
  ∀ (l : Lane) (pc : PC) (e : BackEdge), l.edges.find? (·.pc == pc) = some e →
    (e.count < 4 ∨ (4 < e.count ∧ e.count < 16) → ∃ m, l.backEdge pc = some m ∧ m.wide = l.wide ∧ m.mn = l.mn ∧ m.preds = l.preds ∧
      m.edges.find? (·.pc == pc) = some { e with count := e.count + 1 }) ∧
    (e.count = 4 → ∃ m, l.backEdge pc = some m ∧ (∀ n ∈ e.regs, n < 64 → m.wide.getLsbD n = true ∧ m.mn.getLsbD n = true) ∧
      ∀ p ∈ e.preds, p < 7 → m.pred p = .und) ∧
    (e.count = 16 → l.backEdge pc = none))

/-! ## Fetch, checks, calls of firmware -/

/-- R237: FWCALL, after the wait of FENCE.dev, joins the partition's queue of calls and deschedules its convoy. R119: a word without an
opcode faults for its whole group. R103: a line with a parity error is read again from the overlay's image. -/
def Obligations.FirmwareCallsAndFetch : Prop :=
  (∀ (f : IForm) (s : State) (x y : Ctx), Issues (.fwcall f) s x y → y.act ≠ [] →
    let t := s.begun y
    (t.fenceDev y = false → StallsAt (.fwcall f) s x t) ∧
    (t.fenceDev y = true → WaitsAt (.fwcall f) s x ({ t with calls := s.calls ++ [(y.c.part, y.cur.col, y.cur.cv)] }.forbidRollback y.cur.col)
      (.fwcall (f.imm.toNat % 2 ^ 16) (if f.b = .none then none else some (BitVec.ofNat 64 (y.uni f.b 2))) f.a none) none)) ∧
  (∀ (w : IWord) (s : State) (x : Ctx), s.ctx plainHdr = some x →
    Faults (.unassignedOpcode w) s x s x.group cIllegal (BitVec.ofNat 64 x.pc.toNat) 0) ∧
  ∀ (s : State) (x : Ctx) (r : Residency) (a : Nat) (d : DirEntry), s.ctx plainHdr = some x →
    s.lineFor x.core x.c.part x.c.prog x.pc = some (r, a) → x.r.dirEntry (pcHandle x.pc) = some d →
    let u := (s.blackBox 2 x.c.part 5 0 x.pc.toNat).rangeRead ⟨x.core, none⟩ x.c.part x.r.ctx (some (.engine x.core, s.now + x.r.lease))
      (d.image + 64 * pcLine x.pc) 64
    let v := match s.vaBytes ⟨x.core, none⟩ x.c.part x.r.ctx (d.image + 64 * pcLine x.pc) 64 with
      | some line => { u with store := { u.store with istore := copyLine u.store.istore a line r.gen.toNat } }
      | none => u
    (v.fetch x.core x.c.part x.c.prog x.pc ≠ .parity → exec .fetchParityRetry s = .next { v with cur := none }) ∧
    (v.fetch x.core x.c.part x.c.prog x.pc = .parity →
      exec .fetchParityRetry s = .next { (v.report x.c x.v.quad cUncorrectable 0 1 0).kill x.cur.col with cur := none })

/-- R120, R22, R74, R76, R327, R330: before an instruction has its own effect the checks come in this order, each ending the issue:
reserved operands and registers beyond the route's, an illegal target word, an instruction that bounds passes lack, a malformed slot, a
partial mask, a port that is not bound; then operands that are not ready and a full counter stall, flipped bits of a register are
corrected or found uncorrectable before the instruction issues again, and a poisoned register is consumed. -/
def Obligations.CheckOrder : Prop :=
  ∀ (i : Instr) (s : State) (x : Ctx), i.form.isSome = true → s.ctx (hdrOf i) = some x →
    let fails (code : BitVec 16) : Prop := Faults i s x s x.group code (BitVec.ofNat 64 x.pc.toNat) 0
    let regs : Prop := ∀ r ∈ x.laneRegs i, r < x.r.nregs
    let ldb : Prop := (∃ f, i = .ldb f) ∧ x.slotOperandBad i = true
    (i.operandsOk = false → fails cOperand) ∧
    (i.operandsOk = true → ¬regs → fails cOperand) ∧
    (i.operandsOk = true → regs → ldb → fails cOperand) ∧
    (i.operandsOk = true → regs → ¬ldb →
      (i.targetOk = false → fails cBranch) ∧
      (i.targetOk = true →
        (x.bounds = true → boundsOk i = false → fails cBounds) ∧
        ((x.bounds = false ∨ boundsOk i = true) →
          (x.slotBad i = true → fails cSlot) ∧
          (x.slotBad i = false → x.slotOperandBad i = true → fails cOperand) ∧
          (x.slotBad i = false → x.slotOperandBad i = false → needsFull i = true → x.fullMask = false → fails cPartial) ∧
          (x.slotBad i = false → x.slotOperandBad i = false → needsFull i = false ∨ x.fullMask = true → x.act ≠ [] →
            (∃ q ∈ portsOf i false ++ portsOf i true, x.v.port? q = none) → fails cOperand)))) ∧
    (x.refuses i = none → s.notReady x i = true → StallsAt i s x s) ∧
    (x.refuses i = none → s.notReady x i = false → s.poisonedReg x i = true →
      (s.unreadReg x i = true → StallsAt i s x (s.readEccs x.c.part (x.readsEcc i))) ∧
      (s.unreadReg x i = false → Faults i s x s x.group cUncorrectable 0 1))

/-- R14, R111: without an active lane an instruction of these groups changes nothing; its group moves on. -/
def Obligations.InactiveGroups : Prop :=
  ∀ (f : MForm) (g : BForm) (h : RForm) (k : XForm) (m : IForm) (s : State) (x y : Ctx) (i : Instr),
    i ∈ [Instr.ld f, .st f, .lds f, .sts f, .ldx f, .stx f, .ldq f, .stq f, .fence h, .bari f, .bara f, .barw f, .baraw f, .waita f,
      .waitc m, .sign h, .nap m, .plst k, .acz k, .acld k, .acst k, .acwr k, .cbld k, .qrd f, .qack f, .qwr f, .emit f, .yield g, .trap g,
      .bkpt g, .ovl g, .ovlpin g, .ovlrel g, .ovlev g, .fill f, .fwcall m] →
    Issues i s x y → Plain y → notPort f.a = true ∨ i = .ldq f ∨ i = .stq f → y.act = [] → Leaves i s x y.v

/-! ## Device steps: waits and accesses -/

/-- R26, R183, R187, R188, R237, R324: the ends of waits. A convoy whose barrier, word, counters, answer or time is there goes on at the
slot after its instruction, with the predicate or register written; a bound that passes first leaves a false predicate and one waiter
less; before that nothing happens. A replayed convoy stands again at its instruction. -/
def Obligations.Wakes : Prop :=
  ∀ (s : State) (col cv : Nat) (x : Ctx) (w : WaitRec), s.wakeCtx col cv = some (x, w) → (∃ l ∈ w.group, (x.v.lane l).live = true) →
    let due : Prop := ∃ d, w.deadline = some d ∧ d ≤ s.now
    let back (dst : Option (BitVec 3)) (b : Bool) : Convoy := (x.v.setPreds w.active dst b).discard
    (∀ off ph dst, w.kind = .barrier off ph dst →
      (w.met = true → Resumes (.convoyWake col cv) s x s (back dst true)) ∧
      (w.met = false → exec (.convoyWake col cv) s = .next s) ∧
      (w.met = false → due →
        let o := s.barrier x off
        Resumes (.waitBoundExpiry col cv) s x (s.setBarrier x off { o with waiters := o.waiters - 1 }) (back dst false))) ∧
    (∀ off cmp val dst, w.kind = .waita off cmp val dst →
      (w.met = true → Resumes (.convoyWake col cv) s x s (back dst true)) ∧
      (w.met = false → exec (.convoyWake col cv) s = .next s) ∧
      (w.met = false → due → Resumes (.waitBoundExpiry col cv) s x s (back dst false))) ∧
    (w.met = false → ¬due → exec (.waitBoundExpiry col cv) s = .next s) ∧
    (w.kind = .nap → (due → Resumes (.napExpiry col cv) s x s x.v) ∧ (¬due → exec (.napExpiry col cv) s = .next s)) ∧
    (∀ l a c n, w.kind = .waitc l a c n →
      let met : Prop := x.v.loads ≤ l ∧ x.v.stores ≤ a ∧ x.v.copies ≤ c ∧ x.v.tileOps ≤ n
      (met → Resumes (.convoyWake col cv) s x s x.v) ∧ (¬met → exec (.convoyWake col cv) s = .next s)) ∧
    (∀ svc block n answer, w.kind = .fwcall svc block (.s n) answer →
      let u := { s with calls := s.calls.erase (x.c.part, col, cv) }
      let first : Prop := s.calls.find? (·.1 == x.c.part) = some (x.c.part, col, cv)
      (∀ k, answer = some k → Resumes (.fwcallAnswer col cv) s x u (x.v.setSreg n.toNat k)) ∧
      (answer = none → first → svc = 0 → Resumes (.fwcallAnswer col cv) s x u (x.v.setSreg n.toNat 0)) ∧
      (answer = none → first → 3 < svc → Resumes (.fwcallAnswer col cv) s x u (x.v.setSreg n.toNat 0xFFFFFFFF)) ∧
      (answer = none → ¬first → exec (.fwcallAnswer col cv) s = .next s)) ∧
    ∀ ctx page, w.kind = .replay ctx page →
      let open_ : Prop := ∃ q ∈ s.paging, q.part = x.c.part ∧ q.ctx = ctx ∧ q.page = page
      (open_ → exec (.replay col cv) s = .next s) ∧
      (¬open_ → exec (.replay col cv) s = .next (s.onConvoy col cv fun _ => x.v))

/-- R64, R77, R80, R82, R165, R170, R173, R203, R206, R359: a pending access performed. The last event of a load writes its register and
takes it from the loads counter; a store's bytes, an atomic's new value, a pushed element appear at their place alone, with the completion
time that the line's leases ask for; that a lane with a uniform destination leaves there each old value in turn is the model's choice (log
37); an acknowledgement takes the access from its counter and its time into CTdev and CTsys. -/
def Obligations.AccessesPerformed : Prop :=
  ∀ (s : State) (o : Op) (c : Column) (v : Convoy), s.op? o.id = some o → s.column? o.col = some c → c.cvs[o.cv]? = some v →
    s.coh.poison = [] → s.coh.flips = [] → s.store.wf = true →
    let part (g : Nat) : List Piece := o.pieces.filter (·.grp == g)
    let same (t : State) : Prop := ∃ w, t.convoy? o.col o.cv = some w ∧ w = { v with wait := w.wait }
    (∀ conv r g p evicted, o.kind = .load conv (.v r) → (∀ t b, conv ≠ .summary t b) → part g = [p] → s.mayPerform o p false = true →
      s.copyFor o p evicted = none → (evicted = true → s.owned p = false ∧ v.arrived = []) →
      let got := o.val p.lane + numberOf (s.peekBytes p.loc p.addr p.n) * 2 ^ (8 * p.off)
      let val (l : Nat) : Nat := if l = p.lane then got else o.val l
      ∃ t w, exec (.loadReturn o.id g evicted) s = .next t ∧ t.convoy? o.col o.cv = some w ∧
        t.store = { s.store with istore := t.store.istore } ∧ t.obj = s.obj ∧
        w = { v with lanes := w.lanes, loads := w.loads, ctdev := w.ctdev, ctsys := w.ctsys, perf := w.perf, arrived := w.arrived } ∧
        (w.arrived = v.arrived ∨ w.arrived = []) ∧
        (p.loc = .dev → s.keptTime (lineOf p.addr) ≤ w.ctdev) ∧ (p.loc.isSys = true → s.now ≤ w.ctsys) ∧
        (o.pieces = [p] → t.op? o.id = none ∧ w.loads = v.loads - 1 ∧
          ∀ l, w.lane l = if l ∈ o.lanes ∧ l < v.lanes.length then
            (v.lane l).setWideReg r.toNat (conv.value 0).1 (conv.value (val l)).2 else v.lane l) ∧
        (o.pieces ≠ [p] → w.loads = v.loads ∧ w.lanes = v.lanes ∧
          ∃ q, t.op? o.id = some q ∧ q.pieces = o.pieces.filter (·.grp != g) ∧ ∀ l, q.val l = val l)) ∧
    (∀ i g p, (i = .storeArrival o.id g ∧ o.kind = .store) ∨
        (i = .pushPerform o.id g ∧ (∃ q t f, o.kind = .push q t f) ∧ (o.vals.lookup p.lane).isSome = true) →
      s.mayPerform o p true = true → part g = [p] → (∀ r, p.loc ≠ .host r) → p.addr + p.n ≤ 2 ^ 52 → (∀ k < p.n, s.inAst (p.addr + k) = false) →
      ∃ t q, exec i s = .next t ∧ same t ∧ Puts s t p.loc p.addr (bytesOf p.n (o.val p.lane / 2 ^ (8 * p.off))) ∧ t.op? o.id = some q ∧
        q.pieces = o.pieces.filter (· != p) ∧ (p.loc = .dev → s.completion (some o.quad) p.addr p.n ≤ q.comp)) ∧
    (∀ g, o.kind = .store → part g ≠ [] → (∀ p ∈ part g, s.mayPerform o p true = true ∧ ∃ r, p.loc = .host r) → o.id < s.nextId →
      ∃ t q u, exec (.storeArrival o.id g) s = .next t ∧ same t ∧ t.store = s.store ∧ t.op? o.id = some u ∧
        u.pieces = o.pieces.filter (!(part g).contains ·) ∧ s.now ≤ u.csys ∧ t.ops.getLast? = some q ∧ q.kind = .posted ∧ q.seq = o.seq ∧
        q.pieces = part g ∧ ∀ p ∈ part g, q.bytes p = bytesOf p.n (o.val p.lane / 2 ^ (8 * p.off))) ∧
    (∀ p r, o.kind = .posted → o.pieces = [p] → p.loc = .host r → s.postedTurn o = true →
      ∃ t, exec (.storeArrival o.id p.grp) s = .next t ∧ t.peekBytes p.loc p.addr p.n = bytesOf p.n (o.val p.lane / 2 ^ (8 * p.off)) ∧
        (∀ b, ¬(p.addr ≤ b ∧ b < p.addr + p.n) → Memory.read t.store.host b = Memory.read s.store.host b) ∧
        t = { s with store := { s.store with host := t.store.host }, ops := s.ops.filter (·.id != o.id) }) ∧
    (∀ i g p k ty n dst, o.kind = .atomic k ty n dst → p.addr + p.n ≤ 2 ^ 52 → (∀ j < p.n, s.inAst (p.addr + j) = false) →
      s.mayPerform o p true = true →
      (i = .storeArrival o.id g ∧ part g = [p] ∧ (o.lease ≠ 0 ∨ o.pieces.head? = some p) ∧ (∀ r, p.loc ≠ .host r)) ∨
        (i = .hostAtomicCompletion o.id .success ∧ o.hostHead = some p ∧ s.hostWrites o false = false) →
      let old := numberOf (s.peekBytes p.loc p.addr p.n)
      let ab := (o.aux.lookup p.lane).getD (0, 0)
      ∃ t w q, exec i s = .next t ∧ Puts s t p.loc p.addr (bytesOf p.n (atomicNew k ty (8 * p.n) old ab.1 ab.2)) ∧
        t.op? o.id = some q ∧ q.pieces = o.pieces.filter (· != p) ∧
        (p.loc = .dev → s.completion (some o.quad) p.addr p.n ≤ q.comp ∧ s.keptTime (lineOf p.addr) ≤ q.comp) ∧
        t.convoy? o.col o.cv = some w ∧
        w = { v with lanes := w.lanes, sregs := w.sregs, stores := w.stores, ctdev := w.ctdev, ctsys := w.ctsys, wait := w.wait } ∧
        w.sregs = (match dst with
          | some (.s r) => (v.setWideSreg r.toNat ((p.n + 3) / 4) old).sregs
          | _ => v.sregs) ∧
        ∀ l, w.lane l = match dst with
          | some (.v r) => if l = p.lane ∧ l < v.lanes.length then (v.lane l).setWideReg r.toNat ((p.n + 3) / 4) old else v.lane l
          | _ => v.lane l) ∧
    (∀ p, o.hostHead = some p →
      let fails (i : Instr) (code : BitVec 16) : Prop := ∃ t : State, exec i s =
        .next (t.signal o.col o.cv o.pc (v.lanesAt o.pc) code (BitVec.ofNat 64 p.va) 4) ∧ t.op? o.id = none ∧ t.store = s.store ∧
        t.convoy? o.col o.cv = some (v.closed o s.now)
      (o.issued + 50000000 ≤ s.now → fails (.completionTimeout o.id) cProtection) ∧
      ((∃ k ty n dst, o.kind = .atomic k ty n dst) → s.mayPerform o p true = true → s.hostWrites o false = false →
        fails (.hostAtomicCompletion o.id .unsupported) cHostAtomic ∧ fails (.hostAtomicCompletion o.id .error) cProtection)) ∧
    (o.pieces = [] → o.kind = .store ∨ (∃ q t f, o.kind = .push q t f) ∨ (o.lease ≠ 0 ∧ ∃ k ty n dst, o.kind = .atomic k ty n dst) ∨
        (o.kind = .append ∧ o.comp ≤ s.now) →
      ∃ t w, exec (.storeAck o.id) s = .next t ∧ t.op? o.id = none ∧ t.store = s.store ∧ t.convoy? o.col o.cv = some w ∧
        w = { v with stores := v.stores - 1, ctdev := max v.ctdev o.comp
                     ctsys := max v.ctsys (if o.peers = [] then o.csys else s.now) }) ∧
    (o.pieces = [] → o.kind = .plst →
      ∃ t w, exec (.plstMergeComplete o.id) s = .next t ∧ t.op? o.id = none ∧ t.store = s.store ∧ t.convoy? o.col o.cv = some w ∧
        w = { v with tileOps := v.tileOps - 1, ctdev := max v.ctdev o.comp }) ∧
    ∀ p slot, o.kind = .codebook slot → o.pieces = [p] → p.lane = 0 → p.off = 0 → p.n = 32 → o.val 0 = 0 → s.mayPerform o p false = true →
      s.copyFor o p false = none → (∀ q ∈ s.ops, q.col = o.col → q.cv = o.cv → q.kind = .codebook slot → q = o) →
      ∃ t w b, exec (.codebookReady o.id) s = .next t ∧ t.op? o.id = none ∧ t.store = s.store ∧ t.convoy? o.col o.cv = some w ∧
        w.loads = v.loads - 1 ∧ w.lanes = v.lanes ∧ w.books.lookup slot = some b ∧ b.ready = true ∧
        b.table = (List.range 16).map fun k => BitVec.ofNat 16 (numberOf ((s.peekBytes p.loc p.addr 32).drop (2 * k) |>.take 2))

/-- R74, R94: the load engine fetches the next element of a bound read port that nobody has read, and keeps it with the port, or the
failure that it met; nothing else of the convoy changes but CTdev and CTsys. R82: it waits while it would pass a host write of the
convoy. -/
def Obligations.ReadAhead : Prop :=
  ∀ (s : State) (col cv n e : Nat) (c : Column) (v : Convoy) (r : Route) (p : Port), s.column? col = some c → c.cvs[cv]? = some v →
    s.route? c.part c.prog = some r → c.phase = .running → n < 2 → v.port? n = some p → p.nextFetch = some e →
    let x : Ctx := { cur := ⟨col, cv, false, none, none⟩, c, v, r, h := State.wakeCtx.hdr, group := [], act := [], und := [], pc := 0, now := s.wall,
                     pops := [] }
    let got := s.resolve x .global .read anyLoc (wants 0 (p.addr e) p.bytes)
    let held : Prop := ∃ q u, got = .ok (q, u) ∧ (∃ p ∈ q, ∃ r, p.loc = .host r) ∧ ∃ o ∈ s.ops, o.kind = .posted ∧ o.col = col ∧ o.cv = cv
    (held → exec (.readAheadFetch col cv n) s = .next s) ∧
    (¬held → ∃ t w f, exec (.readAheadFetch col cv n) s = .next t ∧ t.store = s.store ∧ t.convoy? col cv = some w ∧
      w = { v with ports := w.ports, ctdev := w.ctdev, ctsys := w.ctsys } ∧ w.port? n = some { p with buf := p.buf ++ [(e, f)] } ∧
      v.ctdev ≤ w.ctdev ∧ v.ctsys ≤ w.ctsys ∧
      (∀ b, got = .error b → f = .bad b.code b.addr) ∧
      ∀ q u, got = .ok ([q], u) → q.off = 0 → s.coh.poison = [] → s.coh.flips = [] →
        f = .value (popValue p.ty (numberOf (s.peekBytes q.loc q.addr q.n))) ∧ (q.loc.isSys = true → s.now ≤ w.ctsys) ∧
          (q.loc = .dev → s.keptTime (lineOf q.addr) ≤ w.ctdev))

/-! ## Device steps: engines -/

/-- R90, R92, R176: the copy engine. Once no lease of others and no earlier copy stands on a destination line whose source it has read,
the bytes that the copy writes appear there, and the line leaves the copy; with every line written the completion word, the counter of the
convoy and the task follow; a copy that cannot go on sets bit 31 of its word, and leaves the task. -/
def Obligations.CopyEngine : Prop :=
  ∀ (s : State) (j : CopyJob), s.job? j.id = some j → s.store.wf = true →
    let ends (t : State) (word : Word) : Prop := t.job? j.id = none ∧
      (j.packet.flag 2 = true → j.cwoff % 4 = 0 → j.cwoff + 4 ≤ spadSize (s.jobBanks j) →
        t.spadNum (s.jobBanks j) j.cwoff 4 = word.toNat) ∧
      ∀ core col cv v, j.src = .cv core col cv → s.convoy? col cv = some v → ∃ w, t.convoy? col cv = some w ∧ w.copies = v.copies - 1 ∧
        w.lanes = v.lanes ∧ w.sregs = v.sregs
    (∀ k l, j.pend[k]? = some l → s.mayBegin j = true → j.toRead = [] → j.shards = 0 → (∀ n, l.loc = .peer n → s.linkUp n = true) →
      s.hostHeld j l [] = false → s.lineClaimed j l = false → s.leasesOver l = true →
      match s.sideByte (s.dstSide j) .write l.va with
      | .error _ => exec (.ownershipGrant j.id k) s = .next s ∧ (s.copyTrouble j).isSome = true
      | .ok z => (∀ b < 64, z.loc = .dev → s.inAst (z.pa + b) = false) →
        ∃ t, exec (.ownershipGrant j.id k) s = .next t ∧ t.job? j.id = some { j with begun := true, pend := j.pend.filter (· != l) } ∧
          t.store = { s.store with dev := t.store.dev, spad := t.store.spad, host := t.store.host, peer := t.store.peer } ∧
          ∀ a < 2 ^ 52, t.peek z.loc a =
            if z.pa ≤ a ∧ a < z.pa + (s.dstSide j).unit then (j.packet.value j.got (l.va + (a - z.pa))).getD (s.peek z.loc a)
            else s.peek z.loc a) ∧
    (∀ k l, j.pend[k]? = some l → j.toRead = [] → j.shards = 0 → s.leasesOver l = false ∨ s.lineClaimed j l = true →
      exec (.ownershipGrant j.id k) s = .next s) ∧
    (j.pend = [] → j.accepted.length = j.shards →
      ∃ t, exec (.copyCompletion j.id) s = .next t ∧ ends t j.cwval ∧ t.store = { s.store with spad := t.store.spad } ∧
        t.obj.tasks = if j.packet.flag 3 then (s.taskDecrement j.part j.task).obj.tasks else s.obj.tasks) ∧
    (j.pend ≠ [] → exec (.copyCompletion j.id) s = .next s) ∧
    (s.mayBegin j = true → (s.copyTrouble j).isSome = true →
      ∃ t, exec (.copyFailure j.id) s = .next t ∧ ends t (j.cwval ||| 0x80000000) ∧ t.obj = s.obj) ∧
    ((s.copyTrouble j).isSome = false → exec (.copyFailure j.id) s = .next s)

/-- R196, R197: the engine, once free, takes, of the entries of its quadrant whose tile no earlier entry holds, one of the highest URG,
and of those the one posted first. A pass of an MMA reads its operands into the entry and writes nothing; the other instructions have
their effect at once. R195, R196, R199, R202, R207, R364: the drain of an MMA ends 32 cycles after its last pass, which take twice their
time in reduced service. Without a mismatch, or with one row and one column, the tile takes its result and every signer's counter falls;
with more the tile keeps its values and each signer is left a fault for its next clause boundary, which then leaves its counter and
delivers it. -/
def Obligations.MatrixEngine : Prop :=
  (∀ (s : State) (quad : Nat) (e : MxEntry) (c : Column) (r : Route), e ∈ s.eng.mx → s.column? e.col = some c →
    s.route? c.part c.prog = some r → s.coh.poison = [] → (s.eng.mx.map (·.id)).Nodup → s.store.wf = true → s.mxEligible quad e = true →
    ((∃ d ∈ s.eng.mx, d.quad = quad ∧ s.now < d.busy) → exec (.matrixPassGrant quad) s = .next s) ∧
    ((∀ d ∈ s.eng.mx, d.quad = quad → d.busy ≤ s.now) →
    (∀ d ∈ s.eng.mx, s.mxEligible quad d = true → d.urg < e.urg ∨ (d.urg = e.urg ∧ d ∉ s.eng.mx.takeWhile (·.id != e.id))) →
    ∃ t q, exec (.matrixPassGrant quad) s = .next t ∧ t.eng.mx.find? (·.id == e.id) = some q ∧ q.left = e.left - 1 ∧ q.busy = s.now + s.engineTime (e.cost r) ∧
      (∀ d, d ∈ s.eng.mx → d.id ≠ e.id → d ∈ t.eng.mx) ∧
      t.store = { s.store with tiles := t.store.tiles, spad := t.store.spad } ∧
      (∀ tri f b c' d x table, e.work = .mma tri f b c' d x table →
        t.store = s.store ∧ q.chunks = e.chunks ++ [s.readChunk c.banks r f b c' d x e.chunks.length]) ∧
      (e.work = .acz → t.store.spad = s.store.spad ∧ ∀ n < 4096, t.tileWord quad e.tile n = 0) ∧
      (∀ base stride, e.work = .acld base stride → t.store.spad = s.store.spad ∧ ∀ n < 4096,
        (t.tileWord quad e.tile n).toNat = s.spadNum c.banks (base + n / 64 * stride + 4 * (n % 64)) 4) ∧
      (∀ fmt base stride, e.work = .acst fmt base stride → t.store.tiles = s.store.tiles ∧
        (c.banks.Nodup → 64 * acstBytes fmt ≤ stride → base + 63 * stride + 64 * acstBytes fmt ≤ spadSize c.banks → ∀ n < 4096,
          t.spadNum c.banks (base + n / 64 * stride + acstBytes fmt * (n % 64)) (acstBytes fmt) = acstCode fmt (s.tileWord quad e.tile n))) ∧
      ∀ vals, e.work = .acwr vals → (∀ z ∈ vals, z.1 < 4096) → (vals.map (·.1)).Nodup → t.store.spad = s.store.spad ∧
        ∀ n < 4096, t.tileWord quad e.tile n = (vals.lookup n).getD (s.tileWord quad e.tile n))) ∧
  ((∀ (s : State) (quad : Nat) (e : MxEntry) (c : Column) (r : Route) (tri : Bool) (f : XForm) (b c' d x : Word) (table : List (BitVec 16))
    (elems sums : List (Nat × Int × Int)), s.eng.mx.find? (fun m => m.id == e.id && m.quad == quad) = some e →
    ((s.eng.mx.takeWhile (·.id != e.id)).any fun m => m.quad == quad && m.tile == e.tile) = false → e.left = 0 →
    e.work = .mma tri f b c' d x table →
    (s.now < e.busy + s.engineTime 32 → exec (.matrixDrain quad e.id elems sums) s = .next s) ∧
    (e.busy + s.engineTime 32 ≤ s.now → s.column? e.col = some c → s.route? c.part c.prog = some r →
    (e.signers.map (·.1)).Nodup → s.store.wf = true →
    let rs := (List.range 64).filter (e.mismatches r tri f table elems sums false)
    let cs := (List.range 64).filter (e.mismatches r tri f table elems sums true)
    let good : Prop := rs.length ≤ 1 ∧ cs.length ≤ 1
    ∃ t : State, exec (.matrixDrain quad e.id elems sums) s = .next t.completeRounds ∧ (∀ m ∈ t.eng.mx, m.id ≠ e.id) ∧ t.store.spad = s.store.spad ∧
      t.store.dev = s.store.dev ∧
      (good → (∀ n < 4096, ((s.mmaTile r e tri f table)[n]?).map (·.2) = some (t.tileWord quad e.tile n)) ∧
        ∀ g ∈ e.signers, ∀ v, s.convoy? e.col g.1 = some v → t.convoy? e.col g.1 = some { v with tileOps := v.tileOps - 1 }) ∧
      (good → rs.length + cs.length > 0 → (t.cksum quad 0).toNat = min ((s.cksum quad 0).toNat + 1) (2 ^ 32 - 1)) ∧
      (¬good → t.store = s.store ∧ ∀ g ∈ e.signers, ∀ v, s.convoy? e.col g.1 = some v → v.ended = false →
        t.convoy? e.col g.1 = some { v with boundary := v.boundary ++ [(cChecksum, BitVec.setWidth 64 g.2)] }))) ∧
  ∀ (s : State) (col cv : Nat) (c : Column) (v : Convoy) (code : BitVec 16) (addr : DWord) (rest : List (BitVec 16 × DWord)) (pc : PC),
    s.column? col = some c → s.convoy? col cv = some v → v.boundary = (code, addr) :: rest → v.frontier = some pc →
    c.killed = false → c.phase = .running → v.ended = false →
    let running : Prop := (∃ h ∈ s.holds, h.col = col ∧ h.cv = cv) ∨ ∃ q ∈ s.raised, q.col = col
    (running → exec (.checksumFaultDelivery col cv) s = .next s) ∧
    (¬running → ∃ t : State, exec (.checksumFaultDelivery col cv) s = .next (t.signal col cv pc v.live code addr 0) ∧ t = { s with cols := t.cols } ∧
      t.convoy? col cv = some { v with boundary := rest, tileOps := v.tileOps - 1 }))

/-- R213, R224: an overlay whose image reads whole and has the registered digest becomes resident, with its lines in its bays, or, where
its end was asked for meanwhile, drains, and is absent at once where nothing refers to it; one that cannot be read, or has another digest,
becomes absent. -/
def Obligations.OverlayLoads : Prop :=
  ∀ (s : State) (core part prog h : Nat) (r : Residency) (q : Route) (d : DirEntry), s.loading? core part prog h = some (r, q, d) →
    (s.eng.res.map fun x => (x.core, x.part, x.prog, x.handle)).Nodup →
    match s.imageOf core part q d with
    | .bytes bs => digestNum bs = d.digest ∧ exec (.overlayLoadFail core part prog h) s = .next s ∧
      ∃ t, exec (.overlayLoadEnd core part prog h) s = .next t ∧ t.store.dev = s.store.dev ∧
        let idle : Prop := s.refs core part prog h = 0 ∧ s.tokens core part prog h = 0
        let now := t.res core part prog h
        (r.evpend = true → idle → now.st = .absent ∧ now.bays = []) ∧
        (r.evpend = false ∨ ¬idle → now.st = (if r.evpend then .draining else .resident) ∧ now.evpend = false ∧ now.gen = r.gen ∧
          now.bays = r.bays ∧
          (Memory.wf s.store.istore = true → (∀ x ∈ s.eng.res, ∀ b ∈ x.bays, b < 128) → r.bays.Nodup →
            ∀ k n bay, r.bays[k]? = some bay → n < 64 → 64 * (64 * k + n) + 64 ≤ bs.length →
            let line := (bs.drop (64 * (64 * k + n))).take 64
            Memory.num t.store.istore (bayByte core bay (64 * n)) 4 = withGen (numberOf (line.take 4)) r.gen.toNat ∧
            Memory.bytes t.store.istore (bayByte core bay (64 * n) + 4) 60 = line.drop 4))
    | .bad _ _ => exec (.overlayLoadEnd core part prog h) s = .next s ∧
      ∃ t, exec (.overlayLoadFail core part prog h) s = .next t ∧ (t.res core part prog h).st = .absent ∧ (t.res core part prog h).bays = []

/-! ## Device steps: the dispatcher -/

/-- R8, R9, R11, R30, R242, R253, R304, R306: launches. With room and credit, and its ENTRY overlay resident, a column of the route is
placed: the next COLID, the task, the batch, one convoy for each quadrant, every lane at ENTRY with its registers and predicates zero, and
those lanes live that have a record, a task, a tile or an element. A batch begins with the oldest unreserved record, has at most a
column's lanes, and does not wrap in its ring. The later rounds of a bounds launch and its later element columns begin as the first ones
do. R104: a convoy whose ENTRY is no branch target has BRANCH_TARGET before it at its start; that it is the column that faults, and not
the launch, is the model's choice (log 69). -/
def Obligations.Launches : Prop :=
  let started (u w : State) (r : Route) (core : Nat) (quads : List Nat) (num : Word) (bm : Bool) (b : Option Batch) (sregs : List (Nat × Word))
      (live : Nat → Bool) : Prop :=
    ∃ c, w.cols.getLast? = some c ∧ c.part = r.part ∧ c.prog = r.slot ∧ c.colid = BitVec.ofNat 32 r.nextCol ∧ c.task = num ∧ c.bmode = bm ∧
      c.batch = b ∧ c.core = core ∧ some c.banks = u.banksFor r.part r core ∧ c.phase = .running ∧ c.killed = false ∧ c.cvs.map (·.quad) = quads ∧
      ∀ k v, c.cvs[k]? = some v → v.lanes.length = r.width ∧ v.sregs = sregs ∧ v.wait = none ∧ v.loads = 0 ∧ v.stores = 0 ∧ v.copies = 0 ∧
        v.tileOps = 0 ∧ v.stack = [] ∧
        v.boundary = (if w.targetOk (coreOf v.quad) r.part r.slot r.entry || v.ended then [] else [(cBranch, BitVec.setWidth 64 r.entry)]) ∧
        ∀ l < r.width, (v.lane l).pc = r.entry ∧ (v.lane l).live = live (k * r.width + l) ∧
          (v.lane l).regs = [] ∧ (v.lane l).preds = [] ∧ (v.lane l).trap = false
  ∀ (s : State) (part prog core : Nat) (quads : List Nat) (r : Route), s.route? part prog = some r →
    let resident : Prop := (r.dirEntry (pcHandle r.entry)).isSome = true ∧
      ∀ k ∈ r.coresAt core, (s.res k r.part r.slot (pcHandle r.entry)).st = .resident
    (r.taskMode = false → s.mayPlace r r.bounds core quads = true →
      match s.decideBatch r with
      | none => exec (.batchLaunch part prog core quads) s = .next s
      | some (t, b) => t.mayPlace r r.bounds core quads = true → resident → ∃ w, exec (.batchLaunch part prog core quads) s = .next w ∧
          started s w r core quads 0xFFFFFFFF r.bounds (some b) (startRegs (BitVec.ofNat 64 b.addr) b.n b.msize) fun i =>
            if r.bounds then decide (i < r.roundZero.length) else decide (i < b.n)) ∧
    (r.taskMode = true ∨ s.mayPlace r r.bounds core quads = false → exec (.batchLaunch part prog core quads) s = .next s) ∧
    (∀ q, r.waiting = none → s.queue? part r.qnum = some q →
      ((q.unreserved s.now).length < r.thresh → r.overdue q s.now = false → r.due = false → s.decideBatch r = none) ∧
      (r.thresh ≤ (q.unreserved s.now).length ∨ r.overdue q s.now = true → 0 < q.cap → q.unreserved s.now ≠ [] → ∃ t b m, s.decideBatch r = some (t, b) ∧
        (q.unreserved s.now).head? = some m ∧ b.k0 = m.k ∧ b.addr = q.slotVa m.k ∧ b.msize = q.msize ∧ b.n ≤ r.laneCount ∧ b.n ≤ (q.unreserved s.now).length ∧ b.k0 % q.cap + b.n ≤ q.cap)) ∧
    (∀ q, s.queue? part r.qnum = some q → r.taskMode = false → r.overdue q s.now = true →
      ∃ t, exec (.coalescingTimeout part prog) s = .next t ∧ t.route? part prog = some { r with due := true }) ∧
    (∀ n k, s.task? part n = some k → k.prog = prog → k.counter = 0 → r.taskMode = true → s.mayPlace r r.bounds core quads = true → resident →
      ∃ w, exec (.taskLaunch part n core quads) s = .next w ∧ w.task? part n = none ∧
        started s w r core quads (BitVec.ofNat 32 n) r.bounds none (startRegs k.arg 0 0) fun i => if r.bounds then decide (i < r.roundZero.length) else true) ∧
    ∀ l, s.launch? l.id = some l → l.part = part → l.prog = prog → l.killed = false →
      -- the round that the next column belongs to: this one, or the next when every column of this one has ended
      (let over_ : Prop := l.tiles.length ≤ l.launched * r.laneCount ∧ s.launchRuns l.id = false
       let m : Launch := { l with tiles := if over_ then l.nextTiles else l.tiles, launched := if over_ then 0 else l.launched
                                  quarters := if over_ then [] else l.quarters, round := if over_ then l.round + 1 else l.round }
       (l.element = false → m.launched * r.laneCount < m.tiles.length → s.mayPlace r true core quads = true → resident →
         ∃ w, exec (.boundsRoundLaunch l.id core quads) s = .next w ∧ w.launch? l.id = some { m with launched := m.launched + 1 } ∧
           started s w r core quads l.task true l.batch l.regs fun i => decide (m.launched * r.laneCount + i < m.tiles.length)) ∧
       (l.element = true ∨ m.tiles.length ≤ m.launched * r.laneCount → exec (.boundsRoundLaunch l.id core quads) s = .next s)) ∧
      -- the element columns, the first and the later ones
      let n := if l.element then l.launched else 0
      let es := (l.elements r).drop (n * r.laneCount)
      let pass : Prop := l.element = true ∨ (l.quarters = [] ∧ l.tiles.length ≤ l.launched * r.laneCount ∧ s.launchRuns l.id = false)
      (pass → es ≠ [] → s.mayPlace r false core quads = true → resident →
        ∃ w, exec (.elementPassLaunch l.id core quads) s = .next w ∧
          w.launch? l.id = some { l with element := true, launched := n + 1 } ∧
          started s w r core quads l.task false l.batch l.regs fun i => decide (i < es.length)) ∧
      (¬pass ∨ es = [] → exec (.elementPassLaunch l.id core quads) s = .next s)

/-- R13, R308 to R310: the end of a column gives back its batch's records; accounts are refilled to their depth at most, once at each
millisecond, and charged once a cycle for a quadrant that issues or is held; a slice end stops running columns, those of dry accounts
among them. -/
def Obligations.EndsAndAccounts : Prop :=
  (∀ (s : State) (c : Column), s.column? c.id = some c →
    let rest (b : Batch) (q : Queue) : Queue := { q with msgs := q.msgs.filter fun m => !(decide (b.k0 ≤ m.k) && decide (m.k < b.k0 + b.n)) }
    let over_ : Prop := ∀ v ∈ c.cvs, v.ended = true ∧ v.loads = 0 ∧ v.stores = 0 ∧ v.copies = 0 ∧ v.tileOps = 0 ∧ v.ctdev ≤ s.now
    (¬over_ → exec (.columnEnd c.id) s = .next s) ∧
    (over_ → ∃ t, exec (.columnEnd c.id) s = .next t ∧ t.cols = s.cols.filter (·.id != c.id) ∧
      ∀ b q, c.launch = none → c.batch = some b → s.queueId? b.qid = some q →
        (t.queueId? b.qid).map (·.msgs) = some ((rest b q).takeIn s.now).msgs)) ∧
  (∀ s : State,
    let due : Prop := s.now % 1000000 = 0 ∧ s.fw.refilled ≠ s.now
    (due → ∃ t, exec .accountRefill s = .next t ∧ t.fw.refilled = s.now ∧ t.obj.accts = s.obj.accts.map fun a =>
      { a with level := toLevel (min ((a.depth * 1000 : Nat) : Int) (a.level + (a.rate * 1000 : Nat))) }) ∧
    (¬due → exec .accountRefill s = .next s)) ∧
  (∀ (s : State) (quad : Nat),
    (quad ∈ s.fw.charged ∨ s.mayIssue quad = true → exec (.cycleCharge quad) s = .next s) ∧
    (quad ∉ s.fw.charged → s.mayIssue quad = false → ∃ t, exec (.cycleCharge quad) s = .next t ∧ quad ∈ t.fw.charged ∧ t.cols = s.cols ∧
      match s.payer quad with
      | none => t.obj.accts = s.obj.accts
      | some (part, prog) => t.obj.accts = s.obj.accts.map fun a =>
        if a.part = part ∧ a.acct = s.acctOf part prog then { a with level := toLevel (a.level - 1) } else a)) ∧
  (∀ (s : State) (quad : Nat), (∀ i, s.issued.find? (·.quad == quad) = some i → i.stalled = false → s.payer quad = some (i.part, i.prog)) ∧
    ((∀ i ∈ s.issued, i.quad ≠ quad) → s.payer quad = (s.storeHolder quad).map fun k => (k.part, k.prog))) ∧
  ∀ (s : State) (core : Nat), (s.cols.map (·.id)).Nodup → ∃ t, exec (.sliceEnd core) s = .next t ∧
    t = { s with cols := t.cols, fw := { s.fw with lastSlice := insertD 0 s.fw.lastSlice core s.now, rooms := t.fw.rooms } } ∧
    (∀ k ∈ s.cols, k ∈ t.cols ∨ (k.phase = .running ∧ k.killed = false ∧ { k with phase := .stopping } ∈ t.cols)) ∧
    ∀ k ∈ s.cols, ∀ p ∈ s.obj.parts, p.pnum = k.part → p.quadsOf core ≠ [] → k.phase = .running → k.killed = false →
      s.usesCore k core = true → s.dry k.part (s.acctOf k.part k.prog) = true →
      (s.cols.filter fun c => c.part == k.part && c.prog == k.prog).length ≤ 64 → { k with phase := .stopping } ∈ t.cols

/-- R28, R71, R298, R312, R313, R315, R316: pre-emption. A column that is to give room stops; with every convoy stopped and its loads and
stores done it is written to the lowest free frame of its route, and when the writes have completed it is saved; its banks and tiles go
out when another column needs them; a saved column comes back on free quadrants with the banks that it had or others; with its registers
as the frame holds them; at its drain deadline a column that is not being saved is killed. That a column whose frame cannot be written or
read is killed (log 14), and that room made for one column is not given to another (log 81), are the model's choices. -/
def Obligations.Preemption : Prop :=
  (∀ (s : State) (part prog core : Nat) (r : Route), s.route? part prog = some r →
    match s.readyLaunches r with
    | [] => exec (.preemptForRoom part prog core) s = .next s
    | b :: _ =>
      let w : Waiter := { route := r, bmode := b.1, saved := none, rank := s.rankOf r b.2 }
      let ks := (s.runners part (w.cores core)).filter Column.descheduled
      (s.allWait (w.cores core) = false ∨ s.waiterFits w core = true → exec (.preemptForRoom part prog core) s = .next s) ∧
      (s.allWait (w.cores core) = true → s.waiterFits w core = false → match s.victims w core ks (ks.length + 1) with
        | none => exec (.preemptForRoom part prog core) s = .next s
        | some ids => (∀ id ∈ ids, ∃ k ∈ s.cols, k.id = id ∧ k.part = part ∧ k.phase = .running ∧ k.killed = false) ∧
          ∃ t, exec (.preemptForRoom part prog core) s = .next t ∧ t = { s with cols := t.cols, fw := { s.fw with rooms := t.fw.rooms } } ∧
            ⟨part, core, .launch prog, false⟩ ∈ t.fw.rooms ∧ t.cols = s.cols.map fun k =>
              if k.id ∈ ids ∧ k.phase = .running ∧ k.killed = false then { k with phase := .stopping } else k)) ∧
  (∀ (s : State) (k : Column) (r : Route), s.column? k.id = some k → s.route? k.part k.prog = some r → k.killed = false →
    let now (t : State) (f : Column → Prop) : Prop := ∃ d, t.column? k.id = some d ∧ d.cvs.map (·.lanes) = k.cvs.map (·.lanes) ∧ f d
    let lost (t : State) : Prop := (t.column? k.id).map (·.killed) = some true
    let held (f : Nat) : Prop := ∃ c ∈ s.cols, c.part = k.part ∧ c.prog = k.prog ∧ c.killed = false ∧
      (c.phase = .saved f ∨ (∃ n, c.phase = .saving f n) ∨ ∃ q, c.phase = .resuming f q)
    let still : Prop := (∀ h ∈ s.holds, h.col ≠ k.id) ∧ (∀ q ∈ s.raised, q.col ≠ k.id) ∧ ∀ v ∈ k.cvs, v.loads = 0 ∧ v.stores = 0
    (k.phase = .stopping → still →
      match s.freeFrame k.part k.prog with
      | none => ∃ w, exec (.preemptionSave k.id) s = .next w ∧ if k.doomed then lost w else now w fun d => d.phase = .running
      | some f => f < 64 ∧ ¬held f ∧ (∀ g < f, held g) ∧
        match s.writeParts k.core r (r.frameVa f) (s.saveParts r k) with
        | .ok (u, done) => ∃ w, exec (.preemptionSave k.id) s = .next w ∧ w.store = u.store ∧ now w fun d => d.phase = .saving f done
        | .error _ => ∃ w, exec (.preemptionSave k.id) s = .next w ∧ lost w) ∧
    -- what the frame holds of each convoy
    (∀ c v, k.cvs[c]? = some v →
      let put (off : Nat) (bs : List Byte) : Prop := (off, bs) ∈ s.saveParts r k
      put (0x800 + 0x1000 * c) ((List.range 64).flatMap fun n => bytesOf 4 (v.sreg n).toNat) ∧
      put (0x900 + 0x1000 * c) (bytesOf 4 v.stack.length ++ (List.range 8).flatMap fun i => bytesOf 4 ((v.stack[i]?).getD 0).toNat) ∧
      ∀ n < min v.liveCount r.nregs, put (r.laneAt c + 4 * r.width * n) (v.lanes.flatMap fun l => bytesOf 4 (l.reg n).toNat)) ∧
    (k.phase = .stopping → (∃ v ∈ k.cvs, v.loads ≠ 0 ∨ v.stores ≠ 0) → exec (.preemptionSave k.id) s = .next s) ∧
    (∀ f done, k.phase = .saving f done →
      (s.now < done → exec (.preemptionSave k.id) s = .next s) ∧
      (done ≤ s.now → ∃ w, exec (.preemptionSave k.id) s = .next w ∧
        if k.doomed = true ∨ s.partLeaves k.part = true then lost w else now w fun d => d.phase = .saved f ∧ d.since = s.now)) ∧
    (∀ f, k.phase = .saved f →
      let want := s.roomWanted k (r.coresAt k.core)
      let banksOut := k.banksOut || want.1
      let tilesOut := k.tilesOut || want.2
      ((want.1 || want.2) = true → s.enginesDone k = true →
        match s.writeParts k.core r (r.frameVa f) ((if want.1 then s.bankParts r k else []) ++ (if want.2 then s.tileParts r k else []) ++
          [(0x20, bytesOf 4 (s.cflags { k with banksOut, tilesOut }))]) with
        | .ok (u, _) => ∃ w, exec (.tileBankSave k.id) s = .next w ∧ w.store = u.store ∧ now w fun d => d.banksOut = banksOut ∧ d.tilesOut = tilesOut ∧ d.phase = .saved f
        | .error _ => ∃ w, exec (.tileBankSave k.id) s = .next w ∧ lost w) ∧
      ((want.1 || want.2) = false ∨ s.enginesDone k = false → exec (.tileBankSave k.id) s = .next s) ∧
      ∀ quads, s.dry k.part r.acct = false → s.quadsOk k.part r k.bmode k.core quads (some k.id) = true → s.quadsKept k quads = true →
        k.cvs.length = r.nconv → (quads = k.cvs.map (·.quad) ∨ ∀ e ∈ s.eng.mx, e.col ≠ k.id) →
        match if k.banksOut then s.banksFor k.part r k.core else some k.banks with
        | none => exec (.resumption k.id k.core quads) s = .next s
        | some banks => s.keepsRooms (s.placeBack r k f quads banks) k.part (.column k.id) = true →
          ∃ w, exec (.resumption k.id k.core quads) s = .next w ∧ now w fun d => d.phase = .resuming f (k.cvs.map (·.quad)) ∧
            d.cvs.map (·.quad) = quads ∧ d.banks = banks) ∧
    ∀ f was core quads, k.phase = .resuming f was → was.length = k.cvs.length →
      match s.supply k.core r.part r.ctx .read (rangePages (r.frameVa f) (s.resumeRanges r k)) with
      | .ok t => ∃ w d, exec (.resumption k.id core quads) s = .next w ∧ w.column? k.id = some d ∧ d.phase = .running ∧
          d.cvs.map (·.quad) = k.cvs.map (·.quad) ∧ d.banks = k.banks ∧ d.banksOut = false ∧ d.tilesOut = false ∧ d.since = s.now ∧
          let u := (t.readBanks r k f k.banks).readTiles r k f was
          let word (off : Nat) : Nat := numberOf (u.frameBytes k.core r (r.frameVa f + off) 4)
          ((∀ p ∈ was.zip (k.cvs.map (·.quad)), coreOf p.1 = coreOf p.2) → ∀ c v, d.cvs[c]? = some v →
            (∀ n < 64, v.sreg n = BitVec.ofNat 32 (word (0x800 + 0x1000 * c + 4 * n))) ∧
            v.liveCount = word (0x944 + 0x1000 * c) ∧
            ∀ i < v.lanes.length, (i < 64 → (v.lane i).pc = BitVec.ofNat 25 (word (0x400 + 0x1000 * c + 4 * i))) ∧
              ∀ n < min v.liveCount r.nregs, k.bmode = false ∨ n < 64 →
                (v.lane i).reg n = BitVec.ofNat 32 (word (r.laneAt c + 4 * (r.width * n + i))))
      | .error _ => ∃ w, exec (.resumption k.id core quads) s = .next w ∧ lost w) ∧
  ∀ (s : State) (part prog d : Nat) (r : Route), s.route? part prog = some r → r.deadline = some d →
    (s.cols.map (·.id)).Nodup →
    (s.now < d → exec (.drainDeadline part prog) s = .next s) ∧
    (d ≤ s.now → ∃ t, exec (.drainDeadline part prog) s = .next t ∧ ∀ k ∈ s.cols, k.part = part → k.prog = prog →
      (t.column? k.id).map (·.dying) = some true ∧ (k.beingSaved = false → k.doomed = false → (t.column? k.id).map (·.killed) = some true))

/-! ## Device steps: reconciliation, paging, services -/

/-- R287 to R300: reconciliation. A scan accepts a snapshot that is whole, newer, and made from the version before; one that is not makes
the record frozen, once; a version accepted already is left alone. The first eligible version of a function starts its step; a step in
APPLYING ends once its stores have completed, with the version in effect, or fails; a step in DRAINING ends once its object is gone. R308:
an ACCOUNT begins full, and a change clamps its level; what a level outside an i64 is is the model's free value (log 78). -/
def Obligations.Reconciliation : Prop :=
  (∀ (s : State) (fn slot : Nat), s.fnUp fn = true → slot < slotsOf fn → s.partLeaving fn = false →
    let p := s.snapshot fn slot
    let r := s.recOf fn slot
    let good : Prop := r.accepted < p.v.ver ∧ p.whole = true ∧ if r.frozen then p.v.base = r.accepted else p.v.base + 1 = p.v.ver
    (p.v.ver = r.accepted → exec (.surveyorScan fn slot) s = .next s) ∧
    (good → ∃ t, exec (.surveyorScan fn slot) s = .next t ∧
      (t.recOf fn slot).accepted = p.v.ver ∧ (t.recOf fn slot).writer = p.v.writer ∧ (t.recOf fn slot).frozen = false) ∧
    (p.v.ver ≠ r.accepted → ¬good → p.v.ver ∈ r.judged → exec (.surveyorScan fn slot) s = .next s) ∧
    (p.v.ver ≠ r.accepted → ¬good → p.v.ver ∉ r.judged → ∃ t, exec (.surveyorScan fn slot) s = .next t ∧
      (t.recOf fn slot).frozen = true ∧ (t.recOf fn slot).accepted = r.accepted ∧ (t.recOf fn slot).outcome = mConflict)) ∧
  (∀ (s : State) (fn : Nat),
    (s.reconciles fn = false → exec (.reconcileStepStart fn) s = .next s) ∧
    (s.reconciles fn = true → let u := s.writeBlocked fn
      match if u.placeFree fn then u.firstEligible fn else none with
      | none => exec (.reconcileStepStart fn) s = .next u
      | some (r, v) => r ∈ u.recs ∧ r.fn = fn ∧ r.inFlight = false ∧ (r.waiting.head?).map (·.1) = some v ∧ u.eligible r v = true ∧
        ∃ t, exec (.reconcileStepStart fn) s = .next t ∧ (t.recOf fn r.slot).acc = some v ∧
          (t.recOf fn r.slot).st = if v.wants && !(v.kind == 5 && r.object.any (·.kind == 5)) then .applying else .draining)) ∧
  (∀ (s : State) (r : Rec) (v : Version), s.rec? r.fn r.slot = some r → r.acc = some v → r.waiting = [] →
    let now (t : State) : Rec := t.recOf r.fn r.slot
    (r.st = .applying →
      (∀ t, r.due = some t → s.now < t → exec (.applyingEnd r.fn r.slot) s = .next s) ∧
      (let done : Prop := ∃ t, exec (.applyingEnd r.fn r.slot) s = .next t ∧ (now t).st = .converged ∧ (now t).present = true ∧
        (now t).eff = some v ∧ (now t).converged = v.ver ∧ (now t).outcome = mConverged
      (∀ t, r.due = some t → t ≤ s.now → done) ∧
      (r.due = none → match s.make r v with
        | .good _ n => (n ≤ s.now → done) ∧
          (s.now < n → ∃ t, exec (.applyingEnd r.fn r.slot) s = .next t ∧ (now t).st = .applying ∧ (now t).due = some n)
        | .bad _ code => ∃ w, exec (.applyingEnd r.fn r.slot) s = .next w ∧ (now w).st = .failed ∧ (now w).outcome = code))) ∧
    (r.st = .draining → match s.drainedNow r v with
      | none => exec (.drainingEnd r.fn r.slot) s = .next s
      | some (_, n) => ∃ w, exec (.drainingEnd r.fn r.slot) s = .next w ∧
          (v.wants = true → (now w).st = .applying) ∧
          (v.wants = false → (now w).st = .converged ∧ (now w).present = false ∧ (now w).eff = none ∧ (now w).converged = v.ver ∧
            (now w).outcome = mDeleted ∧ (now w).discard = n))) ∧
  -- R308: an ACCOUNT begins full, and a change clamps its level
  ∀ (s : State) (part slot : Nat) (v : Version) (acct depth : Nat), acct = v.num 0 1 → depth = v.num 8 8 →
    ∃ t n a, s.makeAccount part slot v = .good t n ∧ t.account? part acct = some a ∧ a.rate = v.num 4 4 ∧ a.depth = depth ∧
      (s.account? part acct = none → a.level = toLevel (depth * 1000 : Nat)) ∧
      ∀ b, s.account? part acct = some b → a.level = toLevel (min b.level (depth * 1000 : Nat))

/-- R317 to R322, R324: a page walk keeps the translation that it finds, unless one of its entries' leases is refused; memory does not
change. The function core that has written the leaves of a page posts its replay once those stores have completed, and where there is no
page to give it kills every column that waits for it. -/
def Obligations.Paging : Prop :=
  (∀ (s : State) (core part ctx va : Nat),
    (∃ t, exec (.pageWalk core part ctx va) s = .next t ∧ s.ReadsTo t) ∧
    ((s.tlbHit ⟨core, none⟩ part ctx va).isSome = true ∨ s.ctx? part ctx = none → exec (.pageWalk core part ctx va) s = .next s) ∧
    ∀ c, s.tlbHit ⟨core, none⟩ part ctx va = none → s.ctx? part ctx = some c → s.coh.poison = [] → s.coh.flips = [] →
      match s.walk va c.ptroot 4 with
      | .error _ => exec (.pageWalk core part ctx va) s = .next (s.touched ⟨core, none⟩ part ctx none va)
      | .ok (e, _) => s.coh.leases = [] → ∃ t x, exec (.pageWalk core part ctx va) s = .next t ∧
        t.tlbHit ⟨core, none⟩ part ctx va = some x ∧ x.leaf = BitVec.ofNat 64 e ∧ x.ends = s.now + 16384) ∧
  ∀ (s : State) (q : PageReq), s.paging.find? (fun r => r.part == q.part && r.ctx == q.ctx && r.page == q.page) = some q →
    let gone (t : State) : Prop := q ∉ t.paging
    (∀ n, q.ready = some n → s.now < n → exec (.pagingAnswer q.part q.ctx q.page) s = .next s) ∧
    (∀ n, q.ready = some n → n ≤ s.now → ∃ t, exec (.pagingAnswer q.part q.ctx q.page) s = .next t ∧ gone t ∧ t.cols = s.cols) ∧
    (q.ready = none → match s.serve q.part q.ctx (4096 * q.page) with
      | .written t n => ∃ w, exec (.pagingAnswer q.part q.ctx q.page) s = .next w ∧ w.cols = t.cols ∧
        w.paging = t.paging.map fun r => if r = q then { r with ready := some n } else r
      | _ => (s.cols.map (·.id)).Nodup → ∃ t, exec (.pagingAnswer q.part q.ctx q.page) s = .next t ∧ gone t ∧
        ∀ c ∈ s.cols, c.part = q.part → (∃ v ∈ c.cvs, ∃ w, v.wait = some w ∧ w.kind = .replay q.ctx q.page) →
          (t.column? c.id).map (·.dying) = some true ∧ (c.beingSaved = false → c.doomed = false → (t.column? c.id).map (·.killed) = some true))

/-- R237, R307, R358: task services. TASK_ARM makes a FREE entry ARMED with its PROGRAM, counter and argument, TASK_SIGNAL lowers a
counter, ACCT_READ writes an account's level into its block; by FWCALL the first call of the partition is served, and its answer is the
status; by mailbox STATUS is 0 and the service's own status is the payload (R358). The status of a block that is too short (log 55), and a
level for account 0 without a record (log 17), are the model's choices. -/
def Obligations.TaskServices : Prop :=
  (∀ (s : State) (part : Nat) (b : List Byte),
    let task := fieldOf b 0 2
    let ok : Prop := 24 ≤ b.length ∧ task < 4096 ∧ fieldOf b 2 2 = 0 ∧ fieldOf b 8 2 ≠ 0 ∧ fieldOf b 10 6 = 0 ∧ s.taskRoute part (fieldOf b 4 4) = true
    (¬ok → s.armTask part b = (s, 1)) ∧ (ok → (s.task? part task).isSome = true → s.armTask part b = (s, 2)) ∧
    (ok → s.task? part task = none → (s.armTask part b).2 = 0 ∧ (s.armTask part b).1.task? part task =
      some { part, task, prog := fieldOf b 4 4, counter := fieldOf b 8 2, arg := BitVec.ofNat 64 (fieldOf b 16 8), since := s.now })) ∧
  (∀ (s : State) (part : Nat) (b : List Byte),
    let task := fieldOf b 0 2
    (b.length < 8 ∨ task ≥ 4096 ∨ fieldOf b 2 6 ≠ 0 → s.signalTask part b = (s, 1)) ∧
    (8 ≤ b.length → task < 4096 → fieldOf b 2 6 = 0 → s.task? part task = none → s.signalTask part b = (s, 3)) ∧
    ∀ k, 8 ≤ b.length → task < 4096 → fieldOf b 2 6 = 0 → s.task? part task = some k →
      (k.counter = 0 → s.signalTask part b = (s, 4)) ∧
      (k.counter ≠ 0 → (s.signalTask part b).2 = 0 ∧ ((s.signalTask part b).1.task? part task).map (·.counter) = some (k.counter - 1))) ∧
  -- by FWCALL
  (∀ (s : State) (part : Nat) (c : Column) (cv : Nat) (v : Convoy) (w : WaitRec) (r : Route) (svc : Nat) (block : Option DWord) (a : Operand),
    s.calls.find? (·.1 == part) = some (part, c.id, cv) → s.column? c.id = some c → c.cvs[cv]? = some v → v.wait = some w →
    w.kind = .fwcall svc block a none → s.route? c.part c.prog = some r →
    let answered (t : State) (status : Nat) : Prop := t.convoy? c.id cv =
      some { v with wait := some { w with kind := .fwcall svc block a (some (BitVec.ofNat 32 status)) } }
    let go (i : Instr) (n : Nat) (run : State → List Byte → State × Nat) : Prop :=
      match s.dropDead.readBlock r block n with
      | none => ∃ t, exec i s = .next t ∧ answered t 1
      | some (bs, u) => ∃ t, exec i s = .next t ∧ answered t (run u bs).2 ∧ t.obj.tasks = (run u bs).1.obj.tasks ∧ t.obj.accts = u.obj.accts
    -- the level that ACCT_READ writes into bytes 8 to 15 of its block
    (svc = 3 → ∀ bs u level v x, s.dropDead.readBlock r block 8 = some (bs, u) → fieldOf bs 0 1 < 64 → fieldOf bs 1 7 = 0 →
      u.levelOf part (fieldOf bs 0 1) = some (level, v) → v.blockReady r block 8 8 .write = some x →
      (∀ k, u.account? part (fieldOf bs 0 1) = some k → level = (k.level % 2 ^ 64).toNat) ∧
      ∃ t, exec (.acctRead part) s = .next t ∧
        t.store = (x.ringBytes 0 r.part r.ctx ((block.map (·.toNat)).getD 0 + 8) (bytesOf 8 level)).1.store) ∧
    (svc = 1 → go (.taskArm part) 24 fun u bs => u.armTask part bs) ∧
    (svc = 2 → go (.taskSignal part) 8 fun u bs => u.signalTask part bs) ∧
    (svc = 3 → go (.acctRead part) 8 fun u bs => (u, if fieldOf bs 0 1 < 64 ∧ fieldOf bs 1 7 = 0 ∧
      (fieldOf bs 0 1 = 0 ∨ (u.account? part (fieldOf bs 0 1)).isSome) ∧
      ((u.levelOf part (fieldOf bs 0 1)).bind fun l => l.2.blockReady r block 8 8 .write).isSome then 0 else 1))) ∧
  -- by mailbox
  ∀ (s : State) (part : Nat) (b : Mailbox), s.request? (part + 1) = some b → b.len ≤ 2032 →
    let done (t : State) (status : Nat) (payload : List Byte) : Prop :=
      (t.box (part + 1)).busy = false ∧ (t.box (part + 1)).done = true ∧ t.fw.msix = s.fw.msix ++ [(part + 1, 0)] ∧
      (t.box (part + 1)).resp = bytesOf 4 status ++ (b.req.drop 4).take 4 ++ bytesOf 2 payload.length ++ bytesOf 6 0 ++ payload
    (b.code = 1 → ∃ t, exec (.mailboxTaskArm part) s = .next t ∧ t.obj = (s.armTask part b.payload).1.obj ∧
      done t 0 (bytesOf 4 (s.armTask part b.payload).2)) ∧
    (b.code = 2 → ∃ t, exec (.mailboxTaskSignal part) s = .next t ∧ t.obj = (s.signalTask part b.payload).1.obj ∧
      done t 0 (bytesOf 4 (s.signalTask part b.payload).2))

/-- R310, R334, R345 to R350, R358: mailbox requests. A payload that is too short answers 1, a code of no request all ones; the allow-
list, the slice, a publisher key and a migration key are set, reports and the black box go to host memory, and the module's configuration
is measured. How long a payload must be (log 55), the text of a confirmation or failure (log 61) and the STATUS of a report that may no
longer be made (log 89) are the model's choices. -/
def Obligations.MailboxServices : Prop :=
  ∀ (s : State) (fn : Nat) (b : Mailbox), s.request? fn = some b → b.len ≤ 2032 →
    let resp (status : Nat) (payload : List Byte) : List Byte :=
      bytesOf 4 status ++ (b.req.drop 4).take 4 ++ bytesOf 2 payload.length ++ bytesOf 6 0 ++ payload
    let done (t : State) (bytes : List Byte) : Prop :=
      (t.box fn).busy = false ∧ (t.box fn).done = true ∧ (t.box fn).resp = bytes ∧ (t.box fn).area = b.area
    let answers (i : Instr) (status : Nat) (p : State → Prop) : Prop := ∃ t, exec i s = .next t ∧ done t (resp status []) ∧ p t
    -- R341: the configuration measured into register 3
    let measured (t : State) : Prop := t.measurement 3 = sha512 (s.measurement 3 ++ sha512 t.configBytes) ∧
      ∀ n, n ≠ 3 → t.measurement n = s.measurement n
    (fn ≠ 0 → b.code = 0x10 → 64 ≤ b.len → answers (.allowSet (fn - 1)) 0 fun t =>
      t.fw.allow.lookup (fn - 1) = some (BitVec.ofNat 512 (fieldOf b.payload 0 64)) ∧ t.store = s.store) ∧
    (fn ≠ 0 → b.code = 0x10 → b.len < 64 → answers (.allowSet (fn - 1)) 1 fun t => t.fw.allow = s.fw.allow) ∧
    (b.code = 0x11 → 16 ≤ b.len → (fn = 0 → s.fw.svc ≠ .rom) →
      let part := if fn = 0 then fieldOf b.payload 0 1 else fn - 1
      (s.part? part = none → answers (.report fn) 1 fun t => t.store = s.store) ∧
      (∀ p, s.part? part = some p → s.partLeaving (part + 1) = true → answers (.report fn) 2 fun t => t.store = s.store) ∧
      (∀ p, s.part? part = some p → s.partLeaving (part + 1) = false → s.reportAhead part b.stamp = true → exec (.report fn) s = .next s) ∧
      ∀ p, s.part? part = some p → s.partLeaving (part + 1) = false → s.reportAhead part b.stamp = false → s.store.wf = true → answers (.report fn) 0 fun t =>
        Memory.bytes t.store.host (fieldOf b.payload 8 8) (s.makeReport p).1.length = (s.makeReport p).1 ∧
        t.store = { s.store with host := t.store.host } ∧
        (t.chain? p.pnum).map (·.seq) = some (((s.chain? p.pnum).map (·.seq)).getD 0 + 1)) ∧
    (fn = 0 → b.code = 0x104 → 8 ≤ b.len → s.fw.svc ≠ .rom → s.store.wf = true → answers .bboxRead 0 fun t =>
      (let bs := s.bboxBytes ++ signature (sha512 s.bboxBytes)
      Memory.bytes t.store.host (fieldOf b.payload 0 8) bs.length = bs) ∧ t.store = { s.store with host := t.store.host }) ∧
    (fn = 0 → b.code = 0x102 → 4 ≤ b.len → s.fw.svc ≠ .rom →
      let n := fieldOf b.payload 0 8
      (1000 ≤ n → n ≤ 100000000 → answers .sliceSet 0 fun t => t.fw.slice = n ∧ measured t) ∧
      (n < 1000 ∨ 100000000 < n → answers .sliceSet 1 fun t => t.fw.slice = s.fw.slice)) ∧
    (fn = 0 → b.code = 0x103 → 33 ≤ b.len → s.fw.svc ≠ .rom →
      let n := fieldOf b.payload 0 1
      (n < 64 → answers .pubkeySet 0 fun t => measured t ∧ t.fw.pubkeys.lookup n = some ((b.payload.drop 1).take 32) ∧
        ∀ m, m ≠ n → t.fw.pubkeys.lookup m = s.fw.pubkeys.lookup m) ∧
      (64 ≤ n → answers .pubkeySet 1 fun t => t.fw.pubkeys = s.fw.pubkeys)) ∧
    (b.code ∉ [1, 2, 0x10, 0x11, 0x20, 0x21, 0x22, 0x100, 0x101, 0x102, 0x103, 0x104] →
      answers (.mailboxUnknownCode fn) 0xFFFFFFFF fun t => t.store = s.store ∧ t.obj = s.obj) ∧
    (b.code ∈ [1, 2, 0x10, 0x11, 0x20, 0x21, 0x22, 0x100, 0x101, 0x102, 0x103, 0x104] → codeFor? fn b.code = false →
      answers (.mailboxUnknownCode fn) 3 fun t => t.store = s.store ∧ t.obj = s.obj) ∧
    -- payloads that are too short
    (∀ i code n, (i, code, n) ∈ [(Instr.report fn, 0x11, 16), (.migWrap (fn - 1), 0x21, 164), (.fwWrite, 0x100, 8), (.sliceSet, 0x102, 4),
        (.pubkeySet, 0x103, 33), (.bboxRead, 0x104, 8)] → b.code = code → codeFor? fn code = true → b.len < n →
      answers i 1 fun t => t.store = s.store ∧ t.obj = s.obj ∧ t.fw = { s.fw with boxes := t.fw.boxes, msix := t.fw.msix }) ∧
    (fn ≠ 0 → b.code = 0x20 → ∃ t key, exec (.migOffer (fn - 1)) s = .next t ∧ key < 2 ^ 256 ∧
      (let pub := bytesOf 32 (x25519Public key); done t (resp 0 (pub ++ identityDigest ++ signature pub))) ∧
      (t.mig (fn - 1)).ephemeral = key :: (s.mig (fn - 1)).ephemeral) ∧
    (fn ≠ 0 → b.code = 0x21 → 164 ≤ b.len →
      let ctx := fieldOf b.payload 0 4
      let offer := (b.payload.drop 4).take 160
      ((s.ctx? (fn - 1) ctx).bind (·.key) = none → answers (.migWrap (fn - 1)) 1 fun t => t.obj = s.obj) ∧
      ∀ key, (s.ctx? (fn - 1) ctx).bind (·.key) = some key →
        (s.mayMigrate (fn - 1) ctx = false → answers (.migWrap (fn - 1)) 2 fun t => t.obj = s.obj) ∧
        (s.mayMigrate (fn - 1) ctx = true → offerOk offer = false → answers (.migWrap (fn - 1)) 1 fun t => t.obj = s.obj) ∧
        (s.mayMigrate (fn - 1) ctx = true → offerOk offer = true → ∃ t, exec (.migWrap (fn - 1)) s = .next t ∧
          done t (resp 0 (s.envelopeFor (fn - 1) ctx key offer)) ∧ (t.ctx? (fn - 1) ctx).bind (·.key) = none ∧
          (t.mig (fn - 1)).wrapped = some (ctx, s.envelopeFor (fn - 1) ctx key offer))) ∧
    (fn ≠ 0 → b.code = 0x22 → ((s.mig (fn - 1)).wrapped = none → answers (.migResult (fn - 1)) 2 fun t => t.store = s.store) ∧
      ∀ ctx envelope, (s.mig (fn - 1)).wrapped = some (ctx, envelope) → match migrationResult envelope b.payload with
        | none => answers (.migResult (fn - 1)) 1 fun t => t.fw.migs = s.fw.migs
        | some ok => answers (.migResult (fn - 1)) 0 fun t => (t.mig (fn - 1)).wrapped = none ∧ (ok = true → t.store = s.store))

/-- R340, R341, R358, R363, R365: boot. FW_WRITE puts bytes into an unlocked carve-out while the ROM runs; FW_START starts the root core
on an image that passes its checks, with LOCK set, and else says why in BOOTERR; a channel has four attempts; with all 32 trained and no
clause running full service begins, and no value changes but for the milestones that say so; a cold reset leaves the state of reset, a
warm one the memory and the registers that survive, and what the ROM makes of the image in place. That the wall clock starts at 0 (log 2)
and memories empty (log 3), that the world keys are kept (log 19), and that the links stay and what the manual does not list is reset (log
57), are the model's choices. -/
def Obligations.Boot : Prop :=
  (∀ (s : State) (b : Mailbox), s.request? 0 = some b → b.len ≤ 2032 →
    let st (t : State) : Nat := fieldOf (t.box 0).resp 0 4
    let off := fieldOf b.payload 0 8
    let data := b.payload.drop 8
    (b.code = 0x100 → 8 ≤ b.len → s.fw.svc = .rom → s.fw.carve.getLsbD 0 = false → data.length ≤ 2016 → off + data.length ≤ s.carveSize →
      s.store.wf = true → ∃ t, exec .fwWrite s = .next t ∧ st t = 0 ∧ Memory.bytes t.store.dev (s.carveBase + off) data.length = data ∧
        t.store = { s.store with dev := t.store.dev }) ∧
    (b.code = 0x100 → 8 ≤ b.len → s.fw.svc ≠ .rom ∨ s.fw.carve.getLsbD 0 = true →
      ∃ t, exec .fwWrite s = .next t ∧ st t = 2 ∧ t.store = s.store) ∧
    (b.code = 0x101 → s.fw.svc = .rom → ∃ t, exec .fwStart s = .next t ∧ t.store = s.store ∧ t.fw.booterr = s.measureRom.bootCheck ∧
      (s.measureRom.bootCheck = 0 → t.fw.svc = .reduced ∧ t.fw.carve = s.fw.carve ||| 1 ∧
        t.fw.rootEntry = some (s.carveBase + fieldOf s.imageHeader 0x10 8)) ∧
      (s.measureRom.bootCheck ≠ 0 → t.fw.svc = .rom ∧ t.fw.carve = s.fw.carve)) ∧
    (b.code = 0x101 → s.fw.svc ≠ .rom → ∃ t, exec .fwStart s = .next t ∧ st t = 2 ∧ t.fw.svc = s.fw.svc)) ∧
  (∀ (s : State) (n : Nat) (ok : Bool), n < 32 → s.fw.svc = .reduced → (s.channel n).trained = false →
    (4 ≤ (s.channel n).tries → exec (.channelTraining n ok) s = .next s) ∧
    ((s.channel n).tries < 4 → ∃ t, exec (.channelTraining n ok) s = .next t ∧ (t.channel n).trained = ok ∧
      (t.channel n).tries = (s.channel n).tries + 1 ∧
      t.fw.chfail = if ok = false ∧ (s.channel n).tries = 3 then s.fw.chfail ||| BitVec.ofNat 32 (2 ^ n) else s.fw.chfail)) ∧
  (∀ s : State, s.fw.svc = .reduced → (∀ n < 32, (s.channel n).trained = true) →
    (s.holds ≠ [] → exec .fullServiceSwitch s = .next s) ∧
    (s.holds = [] → ∃ t, exec .fullServiceSwitch s = .next t ∧ t.fw.svc = .full ∧ t.cols = s.cols ∧ t.obj = s.obj ∧ t.ops = s.ops ∧
      t.store = { s.store with dev := t.store.dev } ∧ (s.store.wf = true → ∀ a,
        (∀ p ∈ s.obj.parts, a < p.msrpa ∨ p.msrpa + 64 + 32 * p.mslen ≤ a) → (∀ q ∈ s.fw.posts, a < q.base ∨ q.base + 8 ≤ a) →
        Memory.read t.store.dev a = Memory.read s.store.dev a))) ∧
  (∀ s : State, ∃ t, exec .coldReset s = .next t ∧ t.fw = State.reset.fw ∧ t.cols = [] ∧ t.obj = State.reset.obj ∧ t.ops = [] ∧ t.recs = [] ∧
    t.store.dev = [] ∧ t.store.spad = [] ∧ t.store.host = s.store.host ∧ t.wall = 0) ∧
  ∀ (s : State) (cause : Nat),
    ∃ t, exec (.warmReset cause) s = .next t ∧ t.fw.booterr = t.bootCheck ∧ (t.bootCheck = 0 → t.fw.svc = .reduced ∧ t.fw.carve = s.fw.carve ||| 1) ∧
      (t.bootCheck ≠ 0 → t.fw.svc = .rom ∧ t.fw.carve = s.fw.carve) ∧ t.fw.worldKeys = s.fw.worldKeys ∧ t.cols = [] ∧ t.ops = [] ∧ t.recs = [] ∧
      t.store.spad = [] ∧ t.store.tiles = [] ∧ t.store.host = s.store.host ∧ t.fw.links = s.fw.links ∧ t.wall = s.wall ∧ t.fw.usage = s.fw.usage ∧
      (∀ k ∈ t.fw.chains, 0 < k.wresets) ∧ ((∀ c ∈ s.obj.ctxs, c.key = none) → ∀ a, s.inAst a = false → s.store.wf = true →
        Memory.read t.store.dev a = Memory.read s.store.dev a)

/-! ## Device steps: host, causeways, attestation -/

/-- R4, R290, R311, R337, R340, R345, R356 to R359: the host interface. DBELL scans the records of its function in order; the carve-out
register locks for good, and BAR0 shows it read-only; MBCTL takes a request or shows an overrun, clears what is written with a 1, and the
request area and Device Control 2 take what is written; a counter slot is read where its partition allows it, and zero otherwise; BAR2
reads and writes the partition's memory, all ones and nothing in a locked carve-out; an AtomicOp is performed and answered with the old
value; a ring's packet is taken once its mark stands: it becomes a copy, or is dropped (R174). The offset of Device Control 2 (log 20),
and the context and the lease of a ring's packets (log 21), are the model's choices. -/
def Obligations.HostInterface : Prop :=
  (∀ (s : State) (fn : Nat), s.fnUp fn = true → s.partLeaving fn = false →
    exec (.dbell fn) s = .next ((List.range (slotsOf fn)).foldl (fun t slot => t.judge fn slot) s)) ∧
  (∀ (s : State) (v : DWord), ∃ t, exec (.carveOutWrite v) s = .next t ∧ t = { s with fw := { s.fw with carve := t.fw.carve } } ∧
    (s.fw.carve.getLsbD 0 = true → t.fw.carve = s.fw.carve) ∧
    (s.fw.carve.getLsbD 0 = false → t.fw.carve.getLsbD 0 = v.getLsbD 0 ∧ bitsOf t.fw.carve.toNat 1 3 = bitsOf v.toNat 1 3 ∧
      bitsOf t.fw.carve.toNat 26 26 = bitsOf v.toNat 26 26)) ∧
  (∀ (s : State) (data : List Byte), data.length ≤ 8 → exec (.registerWrite 0 0x100 data) s = .next s) ∧
  (∀ (s : State) (fn x : Nat), x < 2 ^ 32 →
    let b := s.box fn
    ∃ t, exec (.registerWrite fn 0x1000 (bytesOf 4 x)) s = .next t ∧ (t.box fn).area = b.area ∧
      (t.box fn).done = (b.done && !x.testBit 2) ∧ (t.box fn).busy = (b.busy || x.testBit 0) ∧
      (t.box fn).ovr = ((b.ovr && !x.testBit 3) || (b.busy && x.testBit 0)) ∧
      (t.box fn).req = if x.testBit 0 && !b.busy then Memory.bytes b.area 8 0x7F8 else b.req) ∧
  (∀ (s : State) (fn off : Nat) (data : List Byte), 0x1008 ≤ off → off + data.length ≤ 0x1800 → Memory.wf (s.box fn).area = true →
    ∃ t, exec (.registerWrite fn off data) s = .next t ∧ Memory.bytes (t.box fn).area (off - 0x1000) data.length = data ∧
      t.store = s.store) ∧
  (∀ (s : State) (part : Nat) (data : List Byte),
    ∃ t, exec (.registerWrite (part + 1) deviceControl2 data) s = .next t ∧ (part ∈ t.fw.atomicEn ↔ (numberOf data).testBit 6 = true) ∧
      t.store = s.store) ∧
  (∀ (s : State) (part acct k : Nat), part < 48 → acct < 64 → k < 8 →
    let off := part * 0x10000 + acct * 0x400 + k * 0x10
    (s.allowed part acct k = true → exec (.counterSlotRead off 16) s = .next { s with reply := bytesOf 8 (s.usage part acct k) ++ bytesOf 8 0 }) ∧
    (s.allowed part acct k = false → ∃ t, exec (.counterSlotRead off 16) s = .next t ∧ t.reply = bytesOf 8 0 ++ bytesOf 4 1 ++ bytesOf 4 0)) ∧
  (∀ (s : State) (p : Partition) (off pa : Nat), s.part? p.pnum = some p → p.bar2 off = some pa → s.granuleTag pa = none →
    let u := s.flushPosted
    (∀ o ∈ u.ops, o.kind ≠ .posted) ∧
    (s.inCarveOut pa = false → ∃ t, exec (.bar2Access p.pnum off 1 none) s = .next t ∧ t.reply = [Memory.read u.store.dev pa] ∧
      t.store = u.store) ∧
    (s.inCarveOut pa = true → ∃ t, exec (.bar2Access p.pnum off 1 none) s = .next t ∧ t.reply = [0xFF] ∧ t.store = u.store) ∧
    ∀ b : Byte, s.store.wf = true → ∃ t, exec (.bar2Access p.pnum off 1 (some [b])) s = .next t ∧ ∀ a, Memory.read t.store.dev a =
      if a = pa ∧ s.inCarveOut pa = false ∧ s.inAst pa = false then b else Memory.read s.store.dev a) ∧
  (∀ (s : State) (off x y : Nat), s.fw.svc ≠ .rom → isPfVersion off = true → off % 8 = 0 → s.store.wf = true →
    let old := Memory.num s.store.pf off 8
    ∃ t, exec (.hostAtomicopCompleter 0 0 off 8 .cas x y) s = .next t ∧ t.reply = bytesOf 8 old ∧
      Memory.num t.store.pf off 8 = (if old = x % 2 ^ 64 then y % 2 ^ 64 else old) ∧ t.store = { s.flushPosted.store with pf := t.store.pf }) ∧
  ∀ (s : State) (p : Partition) (peer : Bool), s.part? p.pnum = some p →
    let base := p.copyRing peer
    let k := s.devNum (base + 8) 8
    let slot := base + 64 + 64 * (k % 1024)
    (s.devNum (slot + 0x3F) 1 ≠ k / 1024 % 255 + 1 → exec (.copyRingTake p.pnum peer) s = .next s) ∧
    (s.devNum (slot + 0x3F) 1 = k / 1024 % 255 + 1 →
      let q := Packet.of (s.devNum slot 64) true
      ∃ t, exec (.copyRingTake p.pnum peer) s = .next t ∧ (s.store.wf = true → k + 1 < 2 ^ 64 → t.devNum (base + 8) 8 = k + 1) ∧
        (q.flag 2 = true ∨ q.bad = true → t.eng = s.eng) ∧
        (q.flag 2 = false → q.bad = false → q.empty = false → s.coh.poison = [] → s.coh.flips = [] →
          match s.ringContext p.pnum with
          | (none, _, _) => t.eng = s.eng
          | (some ctx, _, u) =>
            let side (scratch : Bool) : Side := { via := ⟨coreOf 0xFFFF, none⟩, part := p.pnum, ctx, epoch := none, scratch, banks := [] }
            u.reachesRows (side (q.flag 0)) .read q.srcRows →
              (∀ w, u.probeRows (side (q.flag 0)) .read q.srcRows = .ok w → w.reachesRows (side (q.flag 1)) .write q.dstRows) →
              ∃ j, t.eng = { s.eng with jobs := s.eng.jobs ++ [j] } ∧ j.packet = { q with zero := true } ∧ j.src = .ring peer ∧
                j.part = p.pnum ∧ j.ctx = ctx))

/-- R83, R360 to R362: causeways. One that has not answered for 1 ms goes down, and is tried every 10 ms until it is up; the columns with
an access on it are killed, one that is being saved once its save has ended. A shard whose length and CRC-32C agree is accepted, one that
does not, or does not come in time, fails its copy. A peer's load, store and atomic are performed at the home slice and answered. What a
peer is answered (log 22), and that a causeway that is down may come up at any attempt (log 58), are the model's choices. -/
def Obligations.Causeways : Prop :=
  (∀ (s : State) (n : Nat),
    let l := s.link n
    (l.up = false ∨ s.now < l.lastAck + 1000000 → exec (.linkDown n) s = .next s) ∧
    (l.up = true → l.lastAck + 1000000 ≤ s.now → ∃ t, exec (.linkDown n) s = .next t ∧ (t.link n).up = false ∧
      (t.link n).retryAt = s.now + 10000000 ∧
      ((s.cols.map (·.id)).Nodup → ∀ o ∈ s.ops, ∀ p ∈ o.pieces, p.loc = .peer n → ∀ c, s.column? o.col = some c →
        (t.column? o.col).map (·.dying) = some true ∧ (∀ q ∈ t.ops, q.col = o.col → ∀ r ∈ q.pieces, r.loc ≠ .peer n) ∧
          (c.dying = false → c.beingSaved = false → (t.column? o.col).map (·.killed) = some true))) ∧
    (l.up = true ∨ s.now < l.retryAt ∨ 18 ≤ n → exec (.linkRetrain n) s = .next s) ∧
    (l.up = false → l.retryAt ≤ s.now → n < 18 → ∃ t, exec (.linkRetrain n) s = .next t ∧ (t.link n).up = false ∧
      (t.link n).retryAt = s.now + 10000000 ∧ t.store = s.store) ∧
    (l.up = false → n < 18 → ∃ t, exec (.linkUp n) s = .next t ∧ (t.link n).up = true ∧ (t.link n).lastAck = s.now ∧ t.store = s.store ∧
      t.fw.msix = s.fw.msix ++ [(0, 1)]) ∧
    (l.up = true ∨ 18 ≤ n → exec (.linkUp n) s = .next s)) ∧
  (∀ (s : State) (j : CopyJob), s.job? j.id = some j → s.mayBegin j = true →
    (∀ i data crc, i < j.shards → i ∉ j.accepted → data.length = (j.packet.shardBytes i).length →
      (s.shardLate j = true → ∃ t, exec (.shardArrival j.id i data crc) s = .next t ∧ t.job? j.id = none) ∧
      (s.shardLate j = false → crc32c data = crc.toNat → j.pend = [] → ∃ t q, exec (.shardArrival j.id i data crc) s = .next t ∧ t.job? j.id = some q ∧
        q.accepted = j.accepted ++ [i] ∧ q.begun = true ∧ t.store = s.store) ∧
      (crc32c data ≠ crc.toNat → ∃ t, exec (.shardArrival j.id i data crc) s = .next t ∧ t.job? j.id = none)) ∧
    (∀ i data crc, j.shards ≤ i ∨ i ∈ j.accepted → exec (.shardArrival j.id i data crc) s = .next s) ∧
    ∀ i, j.missing = some i →
      (j.tmo ≠ 0 → j.issued + 1000 * j.tmo ≤ s.now → ∃ t, exec (.shardTimeout j.id) s = .next t ∧ t.job? j.id = none ∧ t.obj = s.obj) ∧
      (j.tmo = 0 ∨ s.now < j.issued + 1000 * j.tmo → exec (.shardTimeout j.id) s = .next s)) ∧
  ∀ (s : State) (link : Nat),
    let go (a : PeerAccess) (t : State) : Prop := exec (.peerAccessRequest link a) s = .next t
    (s.linkUp link = false → ∀ a, go a s) ∧
    (s.linkUp link = true → s.coh.flips = [] → s.coh.poison = [] → s.store.wf = true → ∀ pa,
      (∀ n, (∀ i < n, s.inCarveOut (pa + i) = false) → ∃ t, go (.load pa n) t ∧ t.reply = s.peekBytes .dev pa n ∧ t.store = s.store) ∧
      (∀ data, (∀ i < data.length, s.inCarveOut (pa + i) = false ∧ s.inAst (pa + i) = false) →
        ∃ t, go (.store pa data) t ∧ t.peekBytes .dev pa data.length = data ∧ t.reply = bytesOf 8 (s.completion none pa data.length)) ∧
      ∀ k ty n a b, (∀ i < n, s.inCarveOut (pa + i) = false ∧ s.inAst (pa + i) = false) →
        let old := numberOf (s.peekBytes .dev pa n)
        ∃ t, go (.atomic k ty pa n a b) t ∧ t.peekBytes .dev pa n = bytesOf n (atomicNew k ty (8 * n) old a.toNat b.toNat) ∧
          t.reply = bytesOf n old ++ bytesOf 8 (s.completion none pa n))

/-- R342, R343: the SPDM responder. GET_VERSION is accepted in every state and empties the transcripts; the capability exchange follows in
its order, and then certificate, challenge and measurements, whose answer carries the block of the register asked for. An exchange enters
its transcript, and a signature stands at the end of its answer; a request that names what the responder does not have is answered with an
error and changes nothing; one out of order is answered with an error, and the responder begins anew; another code is answered with an
error alone. The codes, the errors, the layouts, the transcripts and the signing context are taken from the SPDM standard, not from the
manual (PRESUMED; log 16). -/
def Obligations.Attestation : Prop :=
  ∀ (s : State) (req : List Byte), s.fw.svc ≠ .rom →
    let code := fieldOf req 1 1
    let error (n : Nat) : List Byte := bytesOf 1 0x12 ++ bytesOf 1 0x7F ++ bytesOf 1 n ++ bytesOf 1 0
    let old := if code = 0x84 then Transcripts.empty else s.fw.transcripts
    let signs := code == 0x83 || (code == 0xE0 && (fieldOf req 2 1).testBit 0)
    let context := if code = 0x83 then "responder-challenge_auth signing" else "responder-measurements signing"
    let accepts (i : Instr) (st : SpdmSt) : Prop :=
      (spdmNames req = true → ∃ t body, exec i s = .next t ∧ t.fw.spdm = st ∧ t.store = s.store ∧
        t.fw.transcripts = (old.exchange code signs (req ++ body)).1 ∧
        t.reply = body ++ if signs then signature (spdmSigned context (old.exchange code signs (req ++ body)).2) else []) ∧
      (spdmNames req = false → exec i s = .next { s with reply := error 1 })
    let refuses (i : Instr) : Prop := ∃ t, exec i s = .next t ∧ t.fw.spdm = .initial ∧ t.fw.transcripts = Transcripts.empty ∧
      t.reply = error 4
    (code = 0x84 → accepts (.getVersion req) .versioned) ∧
    (code = 0xE1 → s.fw.spdm = .versioned → accepts (.getCapabilities req) .capable) ∧
    (code = 0xE3 → s.fw.spdm = .capable → accepts (.negotiateAlgorithms req) .negotiated) ∧
    (code = 0x82 → s.fw.spdm = .negotiated → accepts (.getCertificate req) .negotiated) ∧
    (code = 0x83 → s.fw.spdm = .negotiated → accepts (.challenge req) .negotiated) ∧
    (code = 0xE0 → s.fw.spdm = .negotiated → accepts (.getMeasurements req) .negotiated ∧
      ∀ n < 8, fieldOf req 3 1 = n + 1 → (s.measurement n).length = 64 → ∃ t, exec (.getMeasurements req) s = .next t ∧
        (t.reply.drop 8).take 71 =
          bytesOf 1 (n + 1) ++ bytesOf 1 1 ++ bytesOf 2 67 ++ bytesOf 1 1 ++ bytesOf 2 64 ++ s.measurement n) ∧
    (code = 0xE1 → s.fw.spdm ≠ .versioned → refuses (.getCapabilities req) ∧ refuses (.attestSequence req)) ∧
    (code = 0xE3 → s.fw.spdm ≠ .capable → refuses (.negotiateAlgorithms req) ∧ refuses (.attestSequence req)) ∧
    (code = 0x82 → s.fw.spdm ≠ .negotiated → refuses (.getCertificate req) ∧ refuses (.attestSequence req)) ∧
    (code = 0x83 → s.fw.spdm ≠ .negotiated → refuses (.challenge req) ∧ refuses (.attestSequence req)) ∧
    (code = 0xE0 → s.fw.spdm ≠ .negotiated → refuses (.getMeasurements req) ∧ refuses (.attestSequence req)) ∧
    (code ∉ [0x84, 0xE1, 0xE3, 0x82, 0x83, 0xE0] → exec (.spdmUnsupportedRequest req) s = .next { s with reply := error 7 })

/-! ## Words, steps and invariants -/

/-- R101, R105, R109, R112 to R116, R118 to R120: a word of each format written out from its encoding decodes to its instruction, an
unassigned opcode to its own row, and a reserved operand code and a fixed target in slot 5 are refused. -/
def Obligations.DecodeWords : Prop :=
  let h : Hdr := { g1 := ⟨false, 7⟩, g2 := ⟨false, 7⟩, hint := .default, ce := false, live := 0 }
  -- (p1,!p2) FADD.f32 v4, v5, v6
  decode 0x20010141BFFFC68004000000 = .ok (.fadd
    { h := { h with g1 := ⟨false, 1⟩, g2 := ⟨true, 2⟩ }, a := .v 4, b := .v 5, c := .v 6, d := .none, e := .none, ty := .f32, subop
      := 0, rnd := .rule, sat := false, ent := 0 }) ∧
  -- ATADD.n32.dev v6, [s4 + v2*4 + 0x10]
  decode 0x6001A10080041DC0021A3800 = .ok (.atadd
    { h, a := .v 6, b := .s 4, c := .v 2, off := 0x10, size := .b4, space := .global, scope := .dev, scale := 2, ty := .n32, ent :=
      0 }) ∧
  -- MMA tile 0, s10, s11, CLR, slot 1 for the second operand
  decode 0x802022A2FFFFDDC000200000 = .ok (.mma
    { h, clr := true, isat := false, urg := 0, tile := 0, b := .s 10, c := .s 11, d := .none, e := .none, slotA := 0, slotB := 1,
      km1 := 0, cven := false, cvn := 0, variant := 0 }) ∧
  -- CALLO s6, line 4, slot 0
  decode 0xB17FE1BFFFFFDDC000080000 = .ok (.callo
    { h, a := .none, b := .s 6, c := .none, d := .none, e := .none, tline := 4, tslot := 0, ent := 0 }) ∧
  -- MOVI v3, 0x1234_5678
  decode 0x0540FFC48D159DC003C00000 = .ok (.movi
    { h, a := .v 3, b := .none, imm := 0x12345678, ty := .none, subop := 0, ent := 0 }) ∧
  -- an opcode that is not assigned, a source code of 0xCC, and CALLO into slot 5
  decode 0x0A4060FFFFFFDDC000200000 = .ok (.unassignedOpcode 0x0A4060FFFFFFDDC000200000) ∧
  decode 0x20013301BFFFDDC004000000 = .error .operandReserved ∧
  decode 0xB17FE1BFFFFFDDC000094000 = .error .branchTarget

/-- R105, R109, R112 to R118: every well-formed instruction has a word, and that word decodes to it, with every operand at every value
that its field admits. -/
def Obligations.EncodeDecode : Prop :=
  ∀ i : Instr, i.form.isSome = true → i.wellFormed = true → ∃ w, encode i = some w ∧ decode w = .ok i

/-- R105, R119, R120: what a word decodes to is well-formed and has no other word: no bit of a word is dropped. -/
def Obligations.DecodeEncode : Prop :=
  ∀ (w : IWord) (i : Instr), decode w = .ok i → i.wellFormed = true ∧ encode i = some w

/-- R103, R120: the port's candidate runs the instruction whose word stands at its program counter: `step` is `exec` of the decoded
instruction in the state in which that group is named, once the agenda has moved on. A line that fails its parity is read again, and a
fetch fault, a reserved code or a bad fixed target is delivered to the group. R2, R19, R25: a cycle's end moves the clock by one, once
every candidate that can issue in the cycle has. A device step of the agenda is performed. -/
def Obligations.StepRunsDecoded : Prop :=
  (∀ (s : State) (quad port : Nat) (rest : List Act) (cur : Cur) (x : Ctx), s.agenda = .issue quad port :: rest →
    let u : State := { s with agenda := rest }
    let t : State := { s with agenda := rest, cur := some cur }
    u.candidate quad port = some cur → t.ctx plainHdr = some x →
    (u.unpaired x = true → step s = .next u) ∧
    (u.unpaired x = false → match u.fetch x.core x.c.part x.c.prog x.pc with
      | .word w => match decode w with
        | .ok i => u.conflicts x i = false → step s = exec i t
        | .error .operandReserved => step s = .next (x.faultAt t cOperand)
        | .error .branchTarget => step s = .next (x.faultAt t cBranch)
      | .parity => step s = exec .fetchParityRetry t
      | .fault c => step s = .next (x.faultAt t c))) ∧
  (∀ (s : State) (rest : List Act), s.agenda = .tick :: rest →
    let u : State := { s with agenda := rest }
    match u.nextIssue with
    | none => step s = .next u.tick
    | some (quad, port) => step s = s.issueOn quad port) ∧
  (∀ (s : State) (i : Instr) (rest : List Act), s.agenda = .event i :: rest → isDeviceStep i = true →
    step s = exec i { s with agenda := rest })

/-- R286, R310, R334, R340, R341, R344, R357, R363: right after cold reset the boot ROM runs, nothing is resident, no partition and no
record exists, the carve-out register is unlocked, SLICE is 100,000, no event has been recorded and every measurement reads 0; and a
COLD_RESET leaves any module so, with the memories of host and peers as they were. That unlisted bytes read 0 is the model's choice (log
3), and so is a wall clock of 0 (log 2). -/
def Obligations.ResetState : Prop :=
  let r := State.reset
  (r.store.wf = true ∧ r.fw.svc = .rom ∧ r.fw.slice = 100000 ∧ r.fw.carve = 0 ∧ r.fw.booterr = 0 ∧ r.fw.bbox = [] ∧ r.fw.bbSeq = 0 ∧
    r.fw.meas = [] ∧ r.fw.usage = [] ∧ r.fw.spdm = .initial ∧ r.cols = [] ∧ r.eng.res = [] ∧ r.ops = [] ∧ r.obj.parts = [] ∧
    r.obj.routes = [] ∧ r.recs = [] ∧ r.launches = []) ∧
  ∀ s : State, ∃ t, exec .coldReset s = .next t ∧ t.store.host = s.store.host ∧ t.store.peer = s.store.peer ∧
    t = { r with agenda := s.agenda, fresh := s.fresh, nextId := s.nextId,
                 store := { r.store with host := s.store.host, peer := s.store.peer } }

/-- Every step keeps every memory in its canonical form: no step lists a byte twice, out of order, or at the value that an unlisted byte
reads as. -/
def Obligations.StepKeepsMemory : Prop :=
  ∀ s t : State, s.store.wf = true → step s = .next t → t.store.wf = true

/-- R2, R6: no state stops the module: every step gives a next state. What goes wrong in a program is a fault that R230 delivers, never an
end of the run. -/
def Obligations.StepNeverStops : Prop :=
  ∀ s : State, ∃ t, step s = .next t

/-- R2, R77, R363: only the end of a cycle moves the wall clock, by one; no instruction and no device step does but a cold reset. -/
def Obligations.WallClock : Prop :=
  (∀ (i : Instr) (s t : State), exec i s = .next t → t.wall = s.wall ∨ i = .coldReset) ∧
  ∀ (s : State) (rest : List Act), s.agenda = .tick :: rest → ∃ t, step s = .next t ∧
    match { s with agenda := rest }.nextIssue with
    | none => t.wall = s.wall + 1
    | some _ => t.wall = s.wall ∧ t.agenda = s.agenda
end

