-- ==== Sys2Proof/Laws/Columns.lean ====
section
/-!
SUPPORT. Columns, convoys and lanes looked up after a change.
-/

namespace Sys2Proof.Machine

/-! ## Lists -/

theorem updateAt_same {α : Type} (k : Nat) (f : α → α) (xs : List α) : (updateAt k f xs)[k]? = xs[k]?.map f := by simp [updateAt]

theorem updateAt_other {α : Type} {j k : Nat} (f : α → α) (xs : List α) (h : j ≠ k) : (updateAt k f xs)[j]? = xs[j]? := by
  simp [updateAt, h]

@[simp] theorem updateAt_length {α : Type} (k : Nat) (f : α → α) (xs : List α) : (updateAt k f xs).length = xs.length := by
  simp [updateAt]

theorem updateAt_updateAt {α : Type} (k : Nat) (f g : α → α) (xs : List α) :
    updateAt k g (updateAt k f xs) = updateAt k (fun x => g (f x)) xs := by
  simp only [updateAt, List.mapIdx_mapIdx]
  congr 1
  funext i x
  by_cases h : i = k <;> simp [h]

/-! ## Columns -/

theorem find_updateWhere_same (id : Nat) (f : Column → Column) (hf : ∀ c, (f c).id = c.id) (cs : List Column) :
    (updateWhere (·.id == id) f cs).find? (·.id == id) = (cs.find? (·.id == id)).map f := by
  induction cs with
  | nil => rfl
  | cons c cs ih =>
    rw [updateWhere, List.map_cons, ← updateWhere]
    cases h : (c.id == id) with
    | true => simp only [if_true, List.find?_cons, hf, h, Option.map_some]
    | false => simp only [Bool.false_eq_true, if_false, List.find?_cons, h, ih]

theorem find_updateWhere_other {id j : Nat} (f : Column → Column) (hf : ∀ c, (f c).id = c.id) (h : j ≠ id) (cs : List Column) :
    (updateWhere (·.id == id) f cs).find? (·.id == j) = cs.find? (·.id == j) := by
  induction cs with
  | nil => rfl
  | cons c cs ih =>
    rw [updateWhere, List.map_cons, ← updateWhere]
    cases hc : (c.id == id) with
    | true =>
      have hj : (c.id == j) = false := by
        simp only [beq_iff_eq, beq_eq_false_iff_ne] at hc ⊢
        omega
      simp only [if_true, List.find?_cons, hf, hj, ih]
    | false => simp only [Bool.false_eq_true, if_false, List.find?_cons, ih]

theorem column_onColumn_same (s : State) (id : Nat) (f : Column → Column) (hf : ∀ c, (f c).id = c.id) :
    (s.onColumn id f).column? id = (s.column? id).map f := find_updateWhere_same id f hf s.cols

theorem column_onColumn_other (s : State) {id j : Nat} (f : Column → Column) (hf : ∀ c, (f c).id = c.id) (h : j ≠ id) :
    (s.onColumn id f).column? j = s.column? j := find_updateWhere_other f hf h s.cols

theorem column_onConvoy_same (s : State) (col cv : Nat) (f : Convoy → Convoy) :
    (s.onConvoy col cv f).column? col = (s.column? col).map fun c => { c with cvs := updateAt cv f c.cvs } :=
  column_onColumn_same s col _ fun _ => rfl

theorem column_onConvoy_other (s : State) {col j : Nat} (cv : Nat) (f : Convoy → Convoy) (h : j ≠ col) :
    (s.onConvoy col cv f).column? j = s.column? j := column_onColumn_other s _ (fun _ => rfl) h

/-! ## Lanes -/

theorem lane_onLanes (v : Convoy) (ls : List Nat) (f : Nat → Lane → Lane) (l : Nat) :
    (v.onLanes ls f).lane l = if l ∈ ls ∧ l < v.lanes.length then f l (v.lane l) else v.lane l := by
  simp only [Convoy.onLanes, Convoy.lane, List.getElem?_mapIdx]
  by_cases hl : l < v.lanes.length
  · by_cases hm : l ∈ ls <;> simp [hl, hm]
  · simp [hl]

@[simp] theorem lanes_length_onLanes (v : Convoy) (ls : List Nat) (f : Nat → Lane → Lane) :
    (v.onLanes ls f).lanes.length = v.lanes.length := by simp [Convoy.onLanes]

theorem onLanes_rest (v : Convoy) (ls : List Nat) (f : Nat → Lane → Lane) :
    v.onLanes ls f = { v with lanes := (v.onLanes ls f).lanes } := rfl

end Sys2Proof.Machine
end

