-- ==== Sys2Proof/Laws/Issue.lean ====
section
/-!
SUPPORT. What the issue of one instruction does: the shared checks and stalls over, its effect; and what an effect that goes on to the
next slot leaves.
-/

namespace Sys2Proof.Machine

/-! ## The context -/

theorem mem_lanesWhere {v : Convoy} {p : Lane → Bool} {l : Nat} : l ∈ v.lanesWhere p ↔ l < v.lanes.length ∧ p (v.lane l) = true := by
  simp [Convoy.lanesWhere]

/-- Every lane at a program counter is live. -/
theorem lanesAt_live {v : Convoy} {pc : PC} {l : Nat} (h : l ∈ v.lanesAt pc) : l < v.lanes.length ∧ (v.lane l).live = true := by
  rw [Convoy.lanesAt, mem_lanesWhere] at h
  simp only [Bool.and_eq_true] at h
  exact ⟨h.1, h.2.1⟩

/-- Every lane of a group is live. -/
theorem group_live {v : Convoy} {b : Bool} {l : Nat} (h : l ∈ v.group b) : l < v.lanes.length ∧ (v.lane l).live = true := by
  simp only [Convoy.group] at h
  split at h
  · exact lanesAt_live h
  · simp at h

theorem lanesWhere_nodup (v : Convoy) (p : Lane → Bool) : (v.lanesWhere p).Nodup := List.Nodup.filter _ List.nodup_range

theorem group_nodup (v : Convoy) (b : Bool) : (v.group b).Nodup := by
  rw [Convoy.group]
  split
  · exact lanesWhere_nodup _ _
  · exact List.nodup_nil

/-- What `State.ctx` finds. -/
theorem ctx_spec {s : State} {h : Hdr} {x : Ctx} (hx : s.ctx h = some x) :
    s.cur = some x.cur ∧ s.column? x.cur.col = some x.c ∧ x.c.cvs[x.cur.cv]? = some x.v ∧
    (∀ l ∈ x.group, l < x.v.lanes.length ∧ (x.v.lane l).live = true) ∧ x.group ≠ [] ∧ x.h = h ∧ x.act = x.group.filter (fun i => guards h (x.v.lane i) == .yes) ∧ x.pops = [] := by
  simp only [State.ctx, Option.bind_eq_bind, Option.bind_eq_some_iff] at hx
  obtain ⟨cur, hcur, c, hc, v, hv, r, hr, l, hl, hx⟩ := hx
  simp only [Option.pure_def, Option.some.injEq] at hx
  subst hx
  refine ⟨hcur, hc, hv, fun l hl => ?_, fun hn => ?_, rfl, rfl, rfl⟩
  · simp only at hl
    split at hl
    · exact lanesAt_live (List.mem_of_mem_filter hl)
    · exact group_live hl
  · simp only at hn
    rw [hn] at hl
    simp at hl

theorem ctx_group_live {s : State} {h : Hdr} {x : Ctx} (hx : s.ctx h = some x) {l : Nat} (hl : l ∈ x.group) :
    l < x.v.lanes.length ∧ (x.v.lane l).live = true := (ctx_spec hx).2.2.2.1 l hl

/-- The lanes of a group are there once each. -/
theorem ctx_nodup {s : State} {h : Hdr} {x : Ctx} (hx : s.ctx h = some x) : x.group.Nodup := by
  simp only [State.ctx, Option.bind_eq_bind, Option.bind_eq_some_iff] at hx
  obtain ⟨cur, -, c, -, v, -, r, -, l, -, hx⟩ := hx
  simp only [Option.pure_def, Option.some.injEq] at hx
  subst hx
  dsimp only
  split
  · exact (lanesWhere_nodup _ _).filter _
  · exact group_nodup _ _

/-- Popping changes the convoy's ports and the popped values alone. -/
theorem popAll_spec {x y : Ctx} {qs : List Nat} (h : x.popAll qs = .ok y) :
    y = { x with v := { x.v with ports := y.v.ports }, pops := y.pops } := by
  induction qs generalizing x with
  | nil => simp only [Ctx.popAll, Except.ok.injEq] at h; subst h; rfl
  | cons q qs ih =>
    simp only [Ctx.popAll] at h
    split at h
    · exact ih h
    · split at h
      · cases h
      · split at h
        · next hy =>
          split at h
          · cases h
            rw [ih hy]; rfl
          · cases h
        · next hn => exact absurd h (hn _)

/-! ## The shared part of an issue -/

/-- An instruction that can issue has the effect of its body. -/
theorem issue_gives {i : Instr} {s : State} {x y : Ctx} (hi : Issues i s x y) (body : Ctx → State → Effect) :
    issue i (hdrOf i) body s = .next (x.conclude i s (body y (s.begun y))) := by
  obtain ⟨hctx, hacc, hready, hclean, hpops⟩ := hi
  simp [issue, hctx, Ctx.run, hacc, hready, hclean, hpops, State.begun]

/-! ## Moving on -/

/-- A change of split bits alone. -/
theorem onLanes_split (v : Convoy) (ls : List Nat) (f : Nat → Lane → Lane) (hf : ∀ i a, f i a = { a with split := (f i a).split })
    (l : Nat) : (v.onLanes ls f).lane l = { v.lane l with split := ((v.onLanes ls f).lane l).split } := by
  rw [lane_onLanes]
  split
  · exact hf l _
  · rfl

/-- The live lanes of a group move to their targets. -/
theorem move_moved (x : Ctx) (v : Convoy) (tgt : Nat → PC) (branch : Bool) (btm : PC → Bool) (apart : List Nat) :
    Moved x tgt v (v.move x.group tgt branch btm apart) := by
  refine ⟨by simp [Convoy.move, Convoy.onLanes], by simp [Convoy.move], fun l => ?_⟩
  have h1 : ∀ l, (v.onLanes x.group fun i l => if l.live then { l with pc := tgt i } else l).lane l =
      { v.lane l with pc := if l ∈ x.group ∧ (v.lane l).live = true then tgt l else (v.lane l).pc } := by
    intro l
    rw [lane_onLanes]
    by_cases hw : l < v.lanes.length
    · by_cases hg : l ∈ x.group
      · by_cases hl : (v.lane l).live = true
        · simp [hg, hw, hl]
        · rw [if_pos ⟨by simp [hg], hw⟩, if_neg hl, if_neg fun h => hl h.2]
      · simp [hg]
    · have : ¬(v.lane l).live = true := by simp [Convoy.lane, hw, Lane.zero]
      rw [if_neg fun h => hw h.2, if_neg fun h => this h.2]
  unfold Convoy.move
  simp only
  rw [onLanes_split _ _ (fun _ l => { l with split := false }) (fun _ _ => rfl),
    onLanes_split _ _ (fun _ l => if branch then { l with split := _ } else if btm l.pc then { l with split := false } else l)
      (fun _ a => by split <;> [rfl; (split <;> rfl)]), h1]

/-- A live lane stays live when its group moves. -/
theorem moved_live {x : Ctx} {tgt : Nat → PC} {v w : Convoy} (hm : Moved x tgt v w) {l : Nat} (h : (v.lane l).live = true) :
    l ∈ w.live := by
  have hw : l < w.lanes.length := by
    rw [hm.width]
    by_contra hw
    simp [Convoy.lane, hw, Lane.zero] at h
  rw [Convoy.live, mem_lanesWhere]
  refine ⟨hw, ?_⟩
  rw [hm.lane l]
  exact h

theorem checkEnd_live {s : State} {col cv : Nat} {v : Convoy} (hv : s.convoy? col cv = some v) {l : Nat} (hl : l ∈ v.live) :
    s.checkEnd col cv = s := by
  have : v.live.isEmpty = false := by
    cases h : v.live with
    | nil => rw [h] at hl; cases hl
    | cons => rfl
  simp [State.checkEnd, hv, this]

/-- The clause of an instruction that completes: only the convoy's own records of it and the ports differ. -/
theorem stepClause_spec (s : State) (x : Ctx) (final : Bool) :
    ∃ f : Convoy → Convoy, (∀ v, f v = { v with perf := (f v).perf, firstIssue := (f v).firstIssue, lastClause := (f v).lastClause,
                                                liveCount := (f v).liveCount }) ∧
      s.stepClause x final = { s.onConvoy x.cur.col x.cur.cv f with holds := (s.stepClause x final).holds } := by
  refine ⟨_, fun v => ?_, rfl⟩
  split <;> split <;> rfl

/-- `t` is `u` but for its columns, ports and candidates, and the issuing convoy is `w` in it. -/
structure Steps (u t : State) (x : Ctx) (w : Convoy) : Prop where
  rest : t = { u with cols := t.cols, holds := t.holds, issued := t.issued, cur := t.cur }
  others : ∀ id, id ≠ x.cur.col → t.column? id = u.column? id
  own : ∀ c, u.column? x.cur.col = some c → t.column? x.cur.col = some { c with cvs := updateAt x.cur.cv (fun _ => w) c.cvs }

/-- What the issuing convoy `v` is in a state. -/
theorem steps_onConvoy {u t : State} {x : Ctx} {w w' : Convoy} (ht : Steps u t x w) {c : Column} {v : Convoy}
    (hc : u.column? x.cur.col = some c) (hv : c.cvs[x.cur.cv]? = some v) (f : Convoy → Convoy) (hf : f w = w') :
    Steps u (t.onConvoy x.cur.col x.cur.cv f) x w' := by
  refine ⟨?_, fun id hid => (column_onConvoy_other t _ f hid).trans (ht.others id hid), fun d hd => ?_⟩
  · have := ht.rest
    generalize t.holds = H at this
    generalize t.issued = I at this
    generalize t.cur = k at this
    generalize hC : (t.onConvoy x.cur.col x.cur.cv f).cols = C
    have h2 : t.onConvoy x.cur.col x.cur.cv f = { t with cols := C } := by rw [← hC]; rfl
    rw [h2, this]
  · rw [hc] at hd
    cases hd
    rw [column_onConvoy_same, ht.own c hc]
    simp only [Option.map_some, Option.some.injEq]
    congr 1
    rw [updateAt_updateAt]
    apply List.ext_getElem?
    intro k
    by_cases hk : k = x.cur.cv
    · subst hk
      rw [updateAt_same, updateAt_same, hv]
      simp only [Option.map_some, hf]
    · rw [updateAt_other _ _ hk, updateAt_other _ _ hk]

theorem steps_holds {u t : State} {x : Ctx} {w : Convoy} (ht : Steps u t x w) (H : List PortHold) (I : List Issued) (k : Option Cur) :
    Steps u { t with holds := H, issued := I, cur := k } x w := by
  refine ⟨?_, ht.others, ht.own⟩
  have := ht.rest
  generalize t.holds = H' at this
  generalize t.issued = I' at this
  generalize t.cur = k' at this
  generalize t.cols = C at this ⊢
  rw [this]

theorem stepClause_steps {u : State} {x : Ctx} {c : Column} {v : Convoy} (hc : u.column? x.cur.col = some c)
    (hv : c.cvs[x.cur.cv]? = some v) (final : Bool) :
    ∃ w, w = { v with perf := w.perf, firstIssue := w.firstIssue, lastClause := w.lastClause, liveCount := w.liveCount } ∧
      Steps u (u.stepClause x final) x w := by
  obtain ⟨f, hf, hstep⟩ := stepClause_spec u x final
  have h0 : Steps u u x v := by
    refine ⟨rfl, fun _ _ => rfl, fun d hd => ?_⟩
    rw [hc] at hd; cases hd
    rw [hc]
    congr 1
    have : updateAt x.cur.cv (fun _ => v) c.cvs = c.cvs := by
      apply List.ext_getElem?
      intro k
      by_cases hk : k = x.cur.cv
      · subst hk; rw [updateAt_same, hv]; rfl
      · rw [updateAt_other _ _ hk]
    rw [this]
  refine ⟨f v, hf v, ?_⟩
  rw [hstep]
  exact steps_holds (steps_onConvoy h0 hc hv f rfl) _ _ u.cur

theorem steps_convoy {u t : State} {x : Ctx} {w : Convoy} (ht : Steps u t x w) {c : Column} {v : Convoy}
    (hc : u.column? x.cur.col = some c) (hv : c.cvs[x.cur.cv]? = some v) : t.convoy? x.cur.col x.cur.cv = some w := by
  simp only [State.convoy?, ht.own c hc, Option.bind_some, updateAt_same, hv, Option.map_some]

/-- The group of a convoy in which some lane stays live moves. -/
theorem moveGroup_steps {u : State} {x : Ctx} {c : Column} {v : Convoy} (hc : u.column? x.cur.col = some c)
    (hv : c.cvs[x.cur.cv]? = some v) (taken : List (Nat × PC)) (branch final : Bool) (hb : taken = [] ∨ x.bounds = false)
    {l : Nat} (hl : (v.lane l).live = true) :
    ∃ w, Moved x (fun i => (taken.lookup i).getD (nextPc x.pc)) v w ∧
      Steps u ((u.stepClause x final).moveGroup x taken branch) x w := by
  obtain ⟨v1, hv1, hs1⟩ := stepClause_steps hc hv final
  generalize u.stepClause x final = t at hs1
  have hback : t.backEdges x taken = t := by
    rcases hb with rfl | hb
    · simp [State.backEdges]
    · simp [State.backEdges, hb]
  have hl1 : ∀ l, v1.lane l = v.lane l := fun l => by rw [hv1]; rfl
  generalize hbtm : t.targetOk x.core x.c.part x.c.prog = btm
  have hm := move_moved x v1 (fun i => (taken.lookup i).getD (nextPc x.pc)) branch btm x.apart
  have hs2 := steps_onConvoy hs1 hc hv
    (fun v => v.move x.group (fun i => (taken.lookup i).getD (nextPc x.pc)) branch btm x.apart) rfl
  refine ⟨v1.move x.group (fun i => (taken.lookup i).getD (nextPc x.pc)) branch btm x.apart, ?_, ?_⟩
  · refine ⟨?_, ?_, fun l => ?_⟩
    · rw [hm.rest, hv1]
    · rw [hm.width, hv1]
    · rw [hm.lane l, hl1]
  · have hcv := steps_convoy hs2 hc hv
    have hend := checkEnd_live hcv (moved_live hm ((congrArg Lane.live (hl1 l)).trans hl))
    simp only [State.moveGroup, hback, hbtm, hend]
    exact hs2

theorem steps_own {u t : State} {x : Ctx} {w v : Convoy} (ht : Steps u t x w) {c : Column}
    (hc : u.column? x.cur.col = some c) (hv : c.cvs[x.cur.cv]? = some v) : Own u t x w := by
  refine ⟨ht.others, c, _, hc, ht.own c hc, rfl, fun k hk => updateAt_other _ _ hk, ?_⟩
  simp only [updateAt_same, hv, Option.map_some]

/-! ## The ends of an issue -/

/-- An issue over: only the ports and the cycle's candidates change. -/
theorem steps_close {u t : State} {x : Ctx} {w : Convoy} (ht : Steps u t x w) (i : Instr) (stalled pairOk : Bool) :
    Steps u (t.closeIssue x i stalled pairOk) x w :=
  steps_holds ht (t.closeIssue x i stalled pairOk).holds (t.closeIssue x i stalled pairOk).issued none

/-- A descheduled convoy gives up its ports, and its live-register count may become 128. -/
theorem steps_release {u t : State} {x : Ctx} {w : Convoy} (ht : Steps u t x w) {c : Column} {v : Convoy}
    (hc : u.column? x.cur.col = some c) (hv : c.cvs[x.cur.cv]? = some v) :
    ∃ n, Steps u (t.releasePorts x.cur.col x.cur.cv) x { w with liveCount := n } := by
  unfold State.releasePorts
  dsimp only
  split
  · exact ⟨128, steps_holds (steps_onConvoy ht hc hv (fun v => { v with liveCount := 128 }) rfl) _ _ t.cur⟩
  · exact ⟨w.liveCount, steps_holds ht _ _ t.cur⟩

theorem rest_poison {u t : State} (h : t = { u with cols := t.cols, holds := t.holds, issued := t.issued, cur := t.cur })
    (hk : t.cur = none) :
    t = { u with cols := t.cols, coh := { u.coh with poison := t.coh.poison }, holds := t.holds, issued := t.issued, cur := none } := by
  have hc : t.coh = u.coh := by rw [h]
  rw [hc]
  rw [hk] at h
  exact h

/-- A completed instruction: its group goes on to the next slot. -/
theorem conclude_next (x : Ctx) (i : Instr) (s u : State) {c : Column} {v : Convoy} (hc : u.column? x.cur.col = some c)
    (hv : c.cvs[x.cur.cv]? = some v) {l : Nat} (hl : (v.lane l).live = true) : Ran u (x.conclude i s (.next u)) x v := by
  obtain ⟨w, hm, hs⟩ := moveGroup_steps hc hv [] false false (.inl rfl) hl
  have hs' := steps_close hs i false (s.pairEnabled x.core x.c.part x.c.prog x.pc)
  exact ⟨rest_poison hs'.rest rfl, w, hm, steps_own hs' hc hv⟩

/-- The same where the clause ends with the instruction (R27). -/
theorem conclude_last (x : Ctx) (i : Instr) (s u : State) {c : Column} {v : Convoy} (hc : u.column? x.cur.col = some c)
    (hv : c.cvs[x.cur.cv]? = some v) {l : Nat} (hl : (v.lane l).live = true) : Ran u (x.conclude i s (.last u)) x v := by
  obtain ⟨w, hm, hs⟩ := moveGroup_steps hc hv [] false true (.inl rfl) hl
  have hs' := steps_close hs i false (s.pairEnabled x.core x.c.part x.c.prog x.pc)
  exact ⟨rest_poison hs'.rest rfl, w, hm, steps_own hs' hc hv⟩

/-- A hand-over changes residency records alone (R218). -/
theorem handOver_spec (s : State) (r : Residency) : ∃ rs, s.handOver r = { s with eng := { s.eng with res := rs } } := by
  unfold State.handOver
  split
  · split <;> exact ⟨_, rfl⟩
  · exact ⟨_, rfl⟩

/-- A record that becomes absent changes residency records and the instruction store alone (R213). -/
theorem dropOverlay_spec (s : State) (r : Residency) :
    ∃ rs is, s.dropOverlay r = { s with eng := { s.eng with res := rs }, store := { s.store with istore := is } } := by
  obtain ⟨rs, h⟩ := handOver_spec (s.setRes { r with st := .absent, bays := [], evpend := false, waiters := [], entry := false, joined := false }) r
  unfold State.dropOverlay
  dsimp only
  rw [h]
  exact ⟨_, _, rfl⟩

/-- Settling changes residency records and the instruction store alone (R213). -/
theorem settle_spec (s : State) :
    s.settle = { s with eng := { s.eng with res := s.settle.eng.res }, store := { s.store with istore := s.settle.store.istore } } := by
  have : ∀ (rs : List Residency) (t : State),
      t = { s with eng := { s.eng with res := t.eng.res }, store := { s.store with istore := t.store.istore } } →
      let u := rs.foldl (fun t r =>
        if r.st = .draining ∧ t.refs r.core r.part r.prog r.handle = 0 ∧ t.tokens r.core r.part r.prog r.handle = 0 then t.dropOverlay r
        else t) t
      u = { s with eng := { s.eng with res := u.eng.res }, store := { s.store with istore := u.store.istore } } := by
    intro rs
    induction rs with
    | nil => exact fun t h => h
    | cons r rs ih =>
      intro t ht
      refine ih (if r.st = .draining ∧ t.refs r.core r.part r.prog r.handle = 0 ∧ t.tokens r.core r.part r.prog r.handle = 0
        then t.dropOverlay r else t) ?_
      split
      · obtain ⟨R, I, hd⟩ := dropOverlay_spec t r
        rw [hd]
        generalize t.eng.res = R' at ht
        generalize t.store.istore = I' at ht
        rw [ht]
      · exact ht
  exact this s.eng.res s rfl

/-- A branch: the lanes taken go to their targets, the others of the group to the next slot (R15, R220). -/
theorem conclude_jump (x : Ctx) (i : Instr) (s u : State) {c : Column} {v : Convoy} (hc : u.column? x.cur.col = some c)
    (hv : c.cvs[x.cur.cv]? = some v) {l : Nat} (hl : (v.lane l).live = true) (taken : List (Nat × PC)) (hb : x.bounds = false) :
    Went u (x.conclude i s (.jump u taken)) x v fun i => (taken.lookup i).getD (nextPc x.pc) := by
  obtain ⟨w, hm, hs⟩ := moveGroup_steps hc hv taken true true (.inr hb) hl
  have hs' := steps_close hs i false (s.pairEnabled x.core x.c.part x.c.prog x.pc)
  have hset := settle_spec (((u.stepClause x true).moveGroup x taken true).closeIssue x i false
    (s.pairEnabled x.core x.c.part x.c.prog x.pc))
  change Steps u (((u.stepClause x true).moveGroup x taken true).closeIssue x i false
    (s.pairEnabled x.core x.c.part x.c.prog x.pc)) x w at hs'
  change Went u ((((u.stepClause x true).moveGroup x taken true).closeIssue x i false
    (s.pairEnabled x.core x.c.part x.c.prog x.pc)).settle) x v _
  have hcur : (((u.stepClause x true).moveGroup x taken true).closeIssue x i false
    (s.pairEnabled x.core x.c.part x.c.prog x.pc)).cur = none := rfl
  generalize ((u.stepClause x true).moveGroup x taken true).closeIssue x i false
    (s.pairEnabled x.core x.c.part x.c.prog x.pc) = t at hs' hset hcur ⊢
  have hcols : t.settle.cols = t.cols := by rw [hset]
  have hcolumn : ∀ id, t.settle.column? id = t.column? id := fun id => by simp only [State.column?, hcols]
  refine ⟨?_, w, hm, ?_⟩
  · have hr := hs'.rest
    rw [hcur] at hr
    generalize t.settle.eng.res = R at hset ⊢
    generalize t.settle.store.istore = I at hset ⊢
    rw [hset]
    generalize t.cols = C at hr ⊢
    generalize t.holds = H at hr ⊢
    generalize t.issued = I at hr ⊢
    rw [hr]
  · have ho := steps_own hs' hc hv
    refine ⟨fun id hid => (hcolumn id).trans (ho.others id hid), ?_⟩
    rw [hcolumn]
    exact ho.own

/-- A descheduled convoy (R26). -/
theorem conclude_wait (x : Ctx) (i : Instr) (s u : State) {c : Column} {v : Convoy} (hc : u.column? x.cur.col = some c)
    (hv : c.cvs[x.cur.cv]? = some v) (kind : WaitKind) (deadline : Option Nat) :
    Waited u (x.conclude i s (.wait u kind deadline)) x v kind deadline := by
  obtain ⟨w, hw, hs⟩ := stepClause_steps hc hv true
  obtain ⟨n, hs2⟩ := steps_release (steps_onConvoy hs hc hv (fun v => v.deschedule x kind deadline) rfl) hc hv
  have hs' := steps_close hs2 i false (s.pairEnabled x.core x.c.part x.c.prog x.pc)
  refine ⟨?_, _, ?_, steps_own hs' hc hv⟩
  · exact hs'.rest
  · rw [hw]; rfl

/-- A stalled clause (R22). -/
theorem conclude_stall (x : Ctx) (i : Instr) (s u : State) {c : Column} {v : Convoy} (hc : u.column? x.cur.col = some c)
    (hv : c.cvs[x.cur.cv]? = some v) : Stalled u (x.conclude i s (.stall u)) x v := by
  have h0 : Steps u u x v := by
    refine ⟨rfl, fun _ _ => rfl, fun d hd => ?_⟩
    rw [hc] at hd; cases hd
    rw [hc]
    congr 1
    have : updateAt x.cur.cv (fun _ => v) c.cvs = c.cvs := by
      apply List.ext_getElem?
      intro k
      by_cases hk : k = x.cur.cv
      · subst hk; rw [updateAt_same, hv]; rfl
      · rw [updateAt_other _ _ hk]
    rw [this]
  have hs := steps_holds (steps_onConvoy (steps_onConvoy h0 hc hv (fun v => { v with ports := x.v.ports }) rfl) hc hv
    (fun v => v.count 2 1) rfl) ((u.unpop x).keepClause x).holds u.issued u.cur
  have hs' := steps_close (t := (u.unpop x).keepClause x) hs i true (s.pairEnabled x.core x.c.part x.c.prog x.pc)
  exact ⟨hs'.rest, _, rfl, steps_own hs' hc hv⟩

end Sys2Proof.Machine
end

