-- ==== Sys2Proof/Laws/Results.lean ====
section
/-!
SUPPORT. What the shared results leave: registers and predicates written, and nothing else (R111, R122).
-/

namespace Sys2Proof.Machine

/-- `t` is `u` but for the issuing convoy, which is `v` in it, its column's undo log, and poison. -/
structure Wrote (u t : State) (x : Ctx) (v : Convoy) : Prop where
  rest : t = { u with cols := t.cols, coh := { u.coh with poison := t.coh.poison } }
  own : Own u t x v

theorem own_trans {u t w : State} {x : Ctx} {a b : Convoy} (h1 : Own u t x a) (h2 : Own t w x b) : Own u w x b := by
  obtain ⟨ho1, c, d, hc, hd, hcd, hk1, hv1⟩ := h1
  obtain ⟨ho2, d', e, hd', he, hde, hk2, hv2⟩ := h2
  rw [hd] at hd'
  cases hd'
  refine ⟨fun id hid => (ho2 id hid).trans (ho1 id hid), c, e, hc, he, ?_, fun k hk => (hk2 k hk).trans (hk1 k hk), hv2⟩
  rw [hde, hcd]

theorem wrote_self {u : State} {x : Ctx} {c : Column} {v : Convoy} (hc : u.column? x.cur.col = some c)
    (hv : c.cvs[x.cur.cv]? = some v) : Wrote u u x v := ⟨rfl, fun _ _ => rfl, c, c, hc, hc, rfl, fun _ _ => rfl, hv⟩

theorem Wrote.withCols {u t : State} {x : Ctx} {v : Convoy} (hw : Wrote u t x v) (C : List Column) (P : List PoisonAt) :
    ({ t with cols := C, coh := { t.coh with poison := P } } : State) = { u with cols := C, coh := { u.coh with poison := P } } := by
  conv_lhs => rw [hw.rest]

theorem Wrote.with {u t : State} {x : Ctx} {v : Convoy} (hw : Wrote u t x v) (C : List Column) (P : List PoisonAt) (H : List PortHold)
    (I : List Issued) : ({ t with cols := C, coh := { t.coh with poison := P }, holds := H, issued := I, cur := none } : State) =
      { u with cols := C, coh := { u.coh with poison := P }, holds := H, issued := I, cur := none } := by
  conv_lhs => rw [hw.rest]

/-- A state that only differs in its convoy is left by the group's going on. -/
theorem ran_of_wrote {u t : State} {x : Ctx} (i : Instr) (s : State) {v : Convoy} (hw : Wrote u t x v) {l : Nat}
    (hl : (v.lane l).live = true) : Ran u (x.conclude i s (.next t)) x v := by
  obtain ⟨-, c, d, -, hd, -, -, hv⟩ := hw.own
  obtain ⟨hr, w, hm, ho⟩ := conclude_next x i s t hd hv hl
  refine ⟨?_, w, hm, own_trans hw.own ho⟩
  generalize x.conclude i s (.next t) = t' at hr ho ⊢
  rw [← hw.with]
  exact hr

/-! ## The convoy put back -/

theorem wrote_put {u t : State} {x y : Ctx} {v : Convoy} (hw : Wrote u t x v) (hcur : y.cur = x.cur) (w : Convoy) :
    Wrote u (t.put y w) x w := by
  obtain ⟨ho, c, d, hc, hd, hcd, hck, hcv⟩ := hw.own
  have h1 : (t.put y w).column? x.cur.col = some { d with cvs := updateAt x.cur.cv (fun _ => w) d.cvs } := by
    rw [State.put, hcur, column_onConvoy_same, hd]; rfl
  refine ⟨?_, fun id hid => ?_, c, _, hc, h1, ?_, fun k hk => ?_, ?_⟩
  · exact hw.withCols _ t.coh.poison
  · rw [State.put, hcur, column_onConvoy_other _ _ _ hid]; exact ho id hid
  · rw [hcd]
  · simp only [updateAt_other _ _ hk, hck k hk]
  · simp only [updateAt_same, hcv, Option.map_some]

theorem put_wrote {s : State} {h : Hdr} {x : Ctx} (hx : s.ctx h = some x) (v : Convoy) : Wrote s (s.put x v) x v := by
  obtain ⟨-, hc, hv, -⟩ := ctx_spec hx
  exact wrote_put (wrote_self hc hv) rfl v

/-- The state in which an effect begins. -/
theorem begun_wrote {i : Instr} {s : State} {x y : Ctx} (hi : Issues i s x y) : Wrote s (s.begun y) x y.v := by
  have hcur : y.cur = x.cur := by rw [popAll_spec hi.pops]
  have := put_wrote hi.ctx y.v
  rwa [State.begun, State.put, hcur]

theorem wrote_poison {u t : State} {x : Ctx} {v : Convoy} (hw : Wrote u t x v) (p : List PoisonAt) :
    Wrote u { t with coh := { t.coh with poison := p } } x v :=
  ⟨hw.withCols t.cols p, hw.own.others, hw.own.own⟩

/-! ## The undo log (R331) -/

theorem logUndo_wrote {u t : State} {x : Ctx} {v : Convoy} (hw : Wrote u t x v) (quad key n : Nat) :
    Wrote u (t.logUndo x.cur.col quad key n) x v := by
  obtain ⟨ho, c, d, hc, hd, hcd, hck, hcv⟩ := hw.own
  have hid : ∀ c : Column, (if c.undo.any (·.2.1 == key) then c else { c with undo := c.undo ++ [(quad, key, n)] } : Column).id = c.id := by
    intro c; split <;> rfl
  have h1 := column_onColumn_same t x.cur.col
    (fun c => if c.undo.any (·.2.1 == key) then c else { c with undo := c.undo ++ [(quad, key, n)] }) hid
  rw [hd] at h1
  refine ⟨?_, fun id hne => (column_onColumn_other t _ hid hne).trans (ho id hne), c, _, hc, h1, ?_, ?_, ?_⟩
  · exact hw.withCols _ t.coh.poison
  · simp only
    split
    · exact hcd
    · rw [hcd]
  · intro k hk; simp only; split <;> exact hck k hk
  · simp only; split <;> exact hcv

theorem logRegs_wrote {u t : State} {x : Ctx} {v : Convoy} (hw : Wrote u t x v) (cv : Nat) (rs : List Nat) :
    Wrote u (t.logRegs x.cur.col cv rs) x v := by
  simp only [State.logRegs]
  split
  · exact hw
  · rename_i a _
    have : ∀ t, Wrote u t x v →
        Wrote u (rs.foldl (fun t n => t.logUndo x.cur.col a.quad (regKey cv n) (4 * a.lanes.length + 8)) t) x v := by
      induction rs with
      | nil => exact fun _ h => h
      | cons n rs ih => exact fun t h => ih _ (logUndo_wrote h _ _ _)
    exact this t hw

/-! ## Registers -/

theorem putRegs_wrote {u t : State} {x y : Ctx} {v : Convoy} (hw : Wrote u t x v) (hcur : y.cur = x.cur) (o : Operand) (k : Nat)
    (w : Convoy) : Wrote u (t.putRegs y o k w) x w := by
  have h1 := logRegs_wrote hw y.cur.cv (if (y.act ++ y.und).isEmpty then [] else operandRegs y.bounds o k)
  have h2 := wrote_put h1 hcur w
  rw [← hcur] at h2
  unfold State.putRegs
  exact wrote_poison h2 _

/-- A result that is no push leaves its convoy with the result written. -/
theorem retire_wrote {s : State} {i : Instr} {x y : Ctx} (hi : Issues i s x y) {a : Operand} (ha : notPort a = true)
    (hu : y.und = []) (k : Nat) (kind : ResKind) (val : Nat → IVal) :
    ∃ t, y.retire (s.begun y) a k kind val = .next t ∧ Wrote s t x (y.writeReg a k kind val) := by
  have hy := popAll_spec hi.pops
  have hcur : y.cur = x.cur := by rw [hy]
  have hp := putRegs_wrote (begun_wrote hi) hcur a k (y.writeReg a k kind val)
  cases a with
  | q n => cases ha
  | s n => exact ⟨_, rfl, by simpa [State.tileEnds, hu] using hp⟩
  | v n => exact ⟨_, rfl, hp⟩
  | p n => exact ⟨_, rfl, hp⟩
  | sp c => exact ⟨_, rfl, hp⟩
  | none => exact ⟨_, rfl, hp⟩

/-! ## Liveness is untouched by results -/

theorem setWideReg_live (l : Lane) (n k x : Nat) : (l.setWideReg n k x).live = l.live := by
  induction k generalizing l n x with
  | zero => rfl
  | succ k ih => exact ih _ _ _

theorem setValue_live (l : Lane) (b : Bool) (n k : Nat) (x : IVal) : (l.setValue b n k x).live = l.live := by
  unfold Lane.setValue
  split
  · simp [Lane.mark, setWideReg_live]
  · exact setWideReg_live _ _ _ _

theorem onLanes_live {v : Convoy} {ls : List Nat} {f : Nat → Lane → Lane} (hf : ∀ i a, (f i a).live = a.live) (l : Nat) :
    ((v.onLanes ls f).lane l).live = (v.lane l).live := by
  rw [lane_onLanes]
  split
  · exact hf _ _
  · rfl

theorem setWideSreg_lane (v : Convoy) (n k x l : Nat) : (v.setWideSreg n k x).lane l = v.lane l := by
  induction k generalizing v n x with
  | zero => rfl
  | succ k ih => exact ih _ _ _

theorem setPred_live (l : Lane) (p : Nat) (x : Tri) : (l.setPred p x).live = l.live := by
  unfold Lane.setPred
  split <;> rfl

theorem writeReg_live (y : Ctx) (a : Operand) (k : Nat) (kind : ResKind) (val : Nat → IVal) (l : Nat) :
    ((y.writeReg a k kind val).lane l).live = (y.v.lane l).live := by
  unfold Ctx.writeReg
  split
  · exact onLanes_live (fun i a => setValue_live _ _ _ _ _) l
  · split
    · rw [setWideSreg_lane]
    · rfl
  · rfl

theorem writePred_live (y : Ctx) (a : Operand) (val : Nat → Tri) (l : Nat) :
    ((y.writePred a val).lane l).live = (y.v.lane l).live := by
  unfold Ctx.writePred
  split
  · exact onLanes_live (fun i a => setPred_live _ _ _) l
  · rfl

/-- The lanes of the group are live in the context with the elements popped. -/
theorem issues_live {s : State} {i : Instr} {x y : Ctx} (hi : Issues i s x y) : ∀ l ∈ x.group, (y.v.lane l).live = true := by
  intro l hl
  rw [popAll_spec hi.pops]
  exact (ctx_group_live hi.ctx hl).2

/-! ## Results of the register instructions -/

/-- An instruction whose result is no push leaves its convoy with the result written (R122). -/
theorem issueAlu_ran {s : State} {i : Instr} {x y : Ctx} (hi : Issues i s x y) {a : Operand} (ha : notPort a = true)
    (hu : y.und = []) (k : Nat) (srcs : List (Operand × Nat)) (op : Alu) :
    ∃ t, issueAlu i (hdrOf i) a k srcs op s = .next t ∧
      Ran s t x (y.writeReg a k op.kind fun l => op.eval (srcs.map fun o => y.read l o.1 o.2)) := by
  obtain ⟨t, ht, hw⟩ := retire_wrote hi ha hu k op.kind fun l => op.eval (srcs.map fun o => y.read l o.1 o.2)
  refine ⟨_, issue_gives hi _, ?_⟩
  rw [ht]
  obtain ⟨l, hl⟩ := List.exists_mem_of_ne_nil _ (ctx_spec hi.ctx).2.2.2.2.1
  exact ran_of_wrote i s hw ((writeReg_live _ _ _ _ _ _).trans (issues_live hi l hl))

/-- A predicate result leaves its convoy with the predicate written. -/
theorem issuePred_ran {s : State} {i : Instr} {x y : Ctx} (hi : Issues i s x y) (a : Operand) (val : Ctx → Nat → Tri) :
    ∃ t, issuePred i (hdrOf i) a val s = .next t ∧ Ran s t x (y.writePred a (val y)) := by
  have hcur : y.cur = x.cur := by rw [popAll_spec hi.pops]
  refine ⟨_, issue_gives hi _, ?_⟩
  obtain ⟨l, hl⟩ := List.exists_mem_of_ne_nil _ (ctx_spec hi.ctx).2.2.2.2.1
  exact ran_of_wrote i s (wrote_put (begun_wrote hi) hcur _) ((writePred_live _ _ _ _).trans (issues_live hi l hl))

/-! ## Element mode -/

@[simp] theorem pt_isPoint (n : Nat) : (IVal.pt n).isPoint = true := by simp [IVal.pt, IVal.isPoint]

/-- In element mode every operand is a point (R245). -/
theorem read_isPoint {y : Ctx} (hp : Plain y) (l : Nat) (o : Operand) (k : Nat) : (y.read l o k).isPoint = true := by
  cases o with
  | v n => simp [Ctx.read, Lane.value, hp.element]
  | sp c => cases c <;> simp [Ctx.read, Ctx.special, hp.element, IVal.isPoint, IVal.pt]
  | _ => simp [Ctx.read]

@[simp] theorem pt_mn (n : Nat) : (IVal.pt n).mn = false := rfl

/-- In element mode no operand has MN set (R245). -/
theorem read_mn {y : Ctx} (hp : Plain y) (l : Nat) (o : Operand) (k : Nat) : (y.read l o k).mn = false := by
  cases o with
  | v n => simp [Ctx.read, Lane.value, hp.element]
  | sp c => cases c <;> simp [Ctx.read, Ctx.special, hp.element, IVal.pt]
  | _ => simp [Ctx.read]

theorem eval_lo {op : Alu} {xs : List IVal} (h : xs.all IVal.isPoint = true) (hn : xs.any (·.mn) = false) :
    (op.eval xs).lo = op.point (xs.map (·.lo)) := by
  simp only [Alu.eval, h, hn, Bool.and_false, Bool.not_false, Bool.and_true, if_true]
  rfl

/-- In element mode a result is written in each active lane as the number it is. -/
theorem writeReg_plain {y : Ctx} (hp : Plain y) (a : Operand) (k : Nat) (kind : ResKind) (val : Nat → IVal) :
    y.writeReg a k kind val = y.gets a k fun l => (val l).lo := by
  cases a with
  | v n =>
    simp only [Ctx.writeReg, Ctx.gets, hp.decided, List.append_nil, Convoy.onLanes]
    congr 1
    apply List.ext_getElem?
    intro l
    simp only [List.getElem?_mapIdx]
    congr 1
    funext r
    by_cases hl : l ∈ y.act
    · simp [hl, Lane.setValue, hp.element]
    · simp [hl]
  | _ => rfl

theorem writePred_plain {y : Ctx} (hp : Plain y) (a : Operand) (val : Nat → Bool) :
    (y.writePred a fun l => .of (val l)) = y.getsPred a val := by
  cases a with
  | p n =>
    simp only [Ctx.writePred, Ctx.getsPred, hp.decided, List.append_nil, Convoy.onLanes]
    congr 1
    apply List.ext_getElem?
    intro l
    simp only [List.getElem?_mapIdx]
    congr 1
    funext r
    by_cases hl : l ∈ y.act
    · simp [hl]
    · simp [hl]
  | _ => rfl

/-- In element mode an instruction writes what its operation computes from its sources (R245). -/
theorem issueAlu_leaves {s : State} {i : Instr} {x y : Ctx} (hi : Issues i s x y) (hp : Plain y) {a : Operand}
    (ha : notPort a = true) (k : Nat) (srcs : List (Operand × Nat)) (op : Alu) :
    ∃ t, issueAlu i (hdrOf i) a k srcs op s = .next t ∧
      Ran s t x (y.gets a k fun l => op.point (srcs.map fun o => y.src l o.1 o.2)) := by
  obtain ⟨t, ht, hr⟩ := issueAlu_ran hi ha hp.decided k srcs op
  refine ⟨t, ht, ?_⟩
  rw [writeReg_plain hp] at hr
  have : (fun l => (op.eval (srcs.map fun o => y.read l o.1 o.2)).lo) = fun l => op.point (srcs.map fun o => y.src l o.1 o.2) := by
    funext l
    rw [eval_lo (by simp [read_isPoint hp]) (by simp [read_mn hp])]
    simp [Ctx.src, Function.comp_def]
  rwa [this] at hr

end Sys2Proof.Machine
end

