-- ==== Sys2Proof/Laws/Effects.lean ====
section
/-!
SUPPORT. From the effect of an instruction to what its execution leaves: one lemma for each way to end an issue, and where a convoy is
found after the shared operations.
-/

namespace Sys2Proof.Machine

/-! ## Convoys found -/

theorem convoy_of_column {s : State} {col cv : Nat} {v : Convoy} (h : s.convoy? col cv = some v) :
    ∃ c, s.column? col = some c ∧ c.cvs[cv]? = some v := by
  simpa only [State.convoy?, Option.bind_eq_some_iff] using h

@[simp] theorem convoy_onConvoy (s : State) (col cv : Nat) (f : Convoy → Convoy) :
    (s.onConvoy col cv f).convoy? col cv = (s.convoy? col cv).map f := by
  simp only [State.convoy?, column_onConvoy_same]
  cases s.column? col with
  | none => rfl
  | some c => simp [updateAt_same]

theorem convoy_onColumn (s : State) (col cv : Nat) (f : Column → Column) (hf : ∀ c, (f c).id = c.id) (hc : ∀ c, (f c).cvs = c.cvs) :
    (s.onColumn col f).convoy? col cv = s.convoy? col cv := by
  simp only [State.convoy?, column_onColumn_same s col f hf]
  cases s.column? col with
  | none => rfl
  | some c => simp [hc]

@[simp] theorem convoy_forbid (s : State) (col cv : Nat) : (s.forbidRollback col).convoy? col cv = s.convoy? col cv :=
  convoy_onColumn s col cv _ (fun _ => rfl) fun _ => rfl

@[simp] theorem convoy_addOp (s : State) (x : Ctx) (kind : OpKind) (hint : Hint) (lanes : List Nat) (pieces : List Piece)
    (vals : List (Nat × Nat)) (aux : List (Nat × Nat × Nat)) (col cv : Nat) :
    (s.addOp x kind hint lanes pieces vals aux).convoy? col cv = s.convoy? col cv := rfl

theorem convoy_cols {s t : State} (h : t.cols = s.cols) (col cv : Nat) : t.convoy? col cv = s.convoy? col cv := by
  simp only [State.convoy?, State.column?, h]

/-- A convoy put back where there is one. -/
theorem convoy_put {s : State} {y : Ctx} {v : Convoy} (h : s.convoy? y.cur.col y.cur.cv = some v) (w : Convoy) :
    (s.put y w).convoy? y.cur.col y.cur.cv = some w := by
  rw [State.put, convoy_onConvoy, h]; rfl

/-! ## The beginning of an effect -/

theorem issues_cur {i : Instr} {s : State} {x y : Ctx} (hi : Issues i s x y) : y.cur = x.cur := by rw [popAll_spec hi.pops]

theorem begun_convoy {i : Instr} {s : State} {x y : Ctx} (hi : Issues i s x y) :
    (s.begun y).convoy? x.cur.col x.cur.cv = some y.v := by
  obtain ⟨-, c, d, -, hd, -, -, hv⟩ := (begun_wrote hi).own
  simp [State.convoy?, hd, hv]

theorem begun_rest (s : State) (y : Ctx) : s.begun y = { s with cols := (s.begun y).cols } := rfl

theorem issues_group {i : Instr} {s : State} {x y : Ctx} (hi : Issues i s x y) :
    y.group = x.group ∧ y.act = x.act ∧ y.und = x.und ∧ y.pc = x.pc ∧ y.c = x.c ∧ y.r = x.r ∧ y.h = x.h ∧ y.now = x.now := by
  rw [popAll_spec hi.pops]; exact ⟨rfl, rfl, rfl, rfl, rfl, rfl, rfl, rfl⟩

/-- The active lanes are in the group, once each, and live. -/
theorem issues_act {i : Instr} {s : State} {x y : Ctx} (hi : Issues i s x y) {l : Nat} (hl : l ∈ y.act) :
    l ∈ y.group ∧ (y.v.lane l).live = true ∧ l < y.v.lanes.length := by
  obtain ⟨hg, ha, -⟩ := issues_group hi
  obtain ⟨-, -, -, -, -, -, hact, -⟩ := ctx_spec hi.ctx
  rw [ha, hact] at hl
  have hm := (List.mem_filter.1 hl).1
  refine ⟨by rw [hg]; exact hm, issues_live hi l hm, ?_⟩
  rw [popAll_spec hi.pops]
  exact (ctx_group_live hi.ctx hm).1

theorem issues_nodup {i : Instr} {s : State} {x y : Ctx} (hi : Issues i s x y) : y.act.Nodup ∧ y.group.Nodup := by
  obtain ⟨hg, ha, -⟩ := issues_group hi
  obtain ⟨-, -, -, -, -, -, hact, -⟩ := ctx_spec hi.ctx
  have := ctx_nodup hi.ctx
  rw [ha, hg, hact]
  exact ⟨this.filter _, this⟩

/-- In element mode the context as though undecided guards were true is the context. -/
theorem asTrue_plain {i : Instr} {s : State} {x y : Ctx} (hi : Issues i s x y) (hu : y.und = []) : y.asTrue = y := by
  obtain ⟨hg, ha, -⟩ := issues_group hi
  obtain ⟨-, -, -, -, -, -, hact, -⟩ := ctx_spec hi.ctx
  have : (y.group.filter fun l => y.act.contains l || y.und.contains l) = y.act := by
    rw [hu, hg, ha, hact]
    apply List.filter_congr
    intro l hl
    by_cases h : guards (hdrOf i) (x.v.lane l) = .yes <;> simp [hl, h]
  rw [Ctx.asTrue, this, ← hu]

/-! ## The end of an issue -/

theorem live_of_lanes {i : Instr} {s : State} {x y : Ctx} (hi : Issues i s x y) {v : Convoy}
    (hl : ∀ l, (v.lane l).live = (y.v.lane l).live) : ∃ l, (v.lane l).live = true := by
  obtain ⟨l, h⟩ := List.exists_mem_of_ne_nil _ (ctx_spec hi.ctx).2.2.2.2.1
  exact ⟨l, (hl l).trans (issues_live hi l h)⟩

theorem goes_next {i : Instr} {s : State} {x y : Ctx} (hi : Issues i s x y) {body : Ctx → State → Effect} {T : State} {v : Convoy}
    (he : exec i s = issue i (hdrOf i) body s) (hb : body y (s.begun y) = .next T ∨ body y (s.begun y) = .last T)
    (hv : T.convoy? x.cur.col x.cur.cv = some v) (hl : ∀ l, (v.lane l).live = (y.v.lane l).live) : Goes i s x T := by
  obtain ⟨c, hc, hcv⟩ := convoy_of_column hv
  obtain ⟨l, hl⟩ := live_of_lanes hi hl
  refine ⟨v, hv, _, he.trans (issue_gives hi body), ?_⟩
  rcases hb with hb | hb <;> rw [hb]
  · exact conclude_next x i s T hc hcv hl
  · exact conclude_last x i s T hc hcv hl

theorem leavesIn_of_goes {i : Instr} {s : State} {x : Ctx} {T : State} {v : Convoy} (h : Goes i s x T)
    (hv : T.convoy? x.cur.col x.cur.cv = some v) : LeavesIn i s x T v := by
  obtain ⟨w, hw, h⟩ := h
  rw [hv] at hw; cases hw
  exact h

/-- A state that differs from `u` in its convoy, the undo log and poison alone may be described by `u`. -/
theorem leavesIn_of_wrote {i : Instr} {s u T : State} {x : Ctx} {v : Convoy} (h : LeavesIn i s x T v) (hw : Wrote u T x v) :
    LeavesIn i s x u v := by
  obtain ⟨t, ht, hr, w, hm, ho⟩ := h
  refine ⟨t, ht, ?_, w, hm, own_trans hw.own ho⟩
  rw [← hw.with]
  exact hr

theorem leaves_next {i : Instr} {s u : State} {x y : Ctx} (hi : Issues i s x y) {body : Ctx → State → Effect} {T : State} {v : Convoy}
    (he : exec i s = issue i (hdrOf i) body s) (hb : body y (s.begun y) = .next T ∨ body y (s.begun y) = .last T)
    (hw : Wrote u T x v) (hl : ∀ l, (v.lane l).live = (y.v.lane l).live) : LeavesIn i s x u v := by
  have hv : T.convoy? x.cur.col x.cur.cv = some v := by
    obtain ⟨-, c, d, -, hd, -, -, hv⟩ := hw.own
    simp [State.convoy?, hd, hv]
  exact leavesIn_of_wrote (leavesIn_of_goes (goes_next hi he hb hv hl) hv) hw

theorem waits_at {i : Instr} {s : State} {x y : Ctx} (hi : Issues i s x y) {body : Ctx → State → Effect} {T : State} {v : Convoy}
    {kind : WaitKind} {dl : Option Nat} (he : exec i s = issue i (hdrOf i) body s) (hb : body y (s.begun y) = .wait T kind dl)
    (hv : T.convoy? x.cur.col x.cur.cv = some v) : WaitsAt i s x T kind dl := by
  obtain ⟨c, hc, hcv⟩ := convoy_of_column hv
  refine ⟨v, hv, _, he.trans (issue_gives hi body), ?_⟩
  rw [hb]
  exact conclude_wait x i s T hc hcv kind dl

theorem waits_in {i : Instr} {s : State} {x y : Ctx} (hi : Issues i s x y) {body : Ctx → State → Effect}
    {kind : WaitKind} {dl : Option Nat} (he : exec i s = issue i (hdrOf i) body s) (hb : body y (s.begun y) = .wait (s.begun y) kind dl) :
    WaitsIn i s x s y.v kind dl := by
  obtain ⟨v, hv, t, ht, hr, w, hw, ho⟩ := waits_at hi he hb (begun_convoy hi)
  rw [begun_convoy hi] at hv; cases hv
  exact ⟨t, ht, hr, w, hw, own_trans (begun_wrote hi).own ho⟩

theorem stalls_at {i : Instr} {s : State} {x y : Ctx} (hi : Issues i s x y) {body : Ctx → State → Effect} {T : State} {v : Convoy}
    (he : exec i s = issue i (hdrOf i) body s) (hb : body y (s.begun y) = .stall T)
    (hv : T.convoy? x.cur.col x.cur.cv = some v) : StallsAt i s x T := by
  obtain ⟨c, hc, hcv⟩ := convoy_of_column hv
  refine ⟨v, hv, _, he.trans (issue_gives hi body), ?_⟩
  rw [hb]
  exact conclude_stall x i s T hc hcv

theorem stalls_begun {i : Instr} {s : State} {x y : Ctx} (hi : Issues i s x y) {body : Ctx → State → Effect}
    (he : exec i s = issue i (hdrOf i) body s) (hb : body y (s.begun y) = .stall (s.begun y)) : StallsAt i s x (s.begun y) :=
  stalls_at hi he hb (begun_convoy hi)

theorem faults_of {i : Instr} {s : State} {x y : Ctx} (hi : Issues i s x y) {body : Ctx → State → Effect} {T : State} {F : List Nat}
    {code : BitVec 16} {addr : DWord} {access : Nat} (he : exec i s = issue i (hdrOf i) body s)
    (hb : body y (s.begun y) = .fault T F ⟨code, addr, access⟩) : Faults i s x T F code addr access := by
  rw [Faults, Gives, he, issue_gives hi body, hb]

theorem jumps_to {i : Instr} {s : State} {x y : Ctx} (hi : Issues i s x y) (hp : y.bounds = false) {body : Ctx → State → Effect}
    {T : State} {taken : List (Nat × PC)} {v : Convoy} (he : exec i s = issue i (hdrOf i) body s)
    (hb : body y (s.begun y) = .jump T taken) (hv : T.convoy? x.cur.col x.cur.cv = some v)
    (hl : ∀ l, (v.lane l).live = (y.v.lane l).live) (tgt : Nat → PC)
    (htgt : ∀ l, (taken.lookup l).getD (nextPc y.pc) = tgt l) (hT : Own s T x v)
    (hrest : T = { s with cols := T.cols, eng := { s.eng with res := T.eng.res } }) : Jumps i s x v tgt := by
  obtain ⟨c, hc, hcv⟩ := convoy_of_column hv
  obtain ⟨l, hl⟩ := live_of_lanes hi hl
  have hx : x.bounds = false := by
    rw [popAll_spec hi.pops] at hp
    exact hp
  refine ⟨_, he.trans (issue_gives hi body), ?_⟩
  rw [hb]
  obtain ⟨hr, w, hm, ho⟩ := conclude_jump x i s T hc hcv hl taken hx
  have hfun : (fun l => (taken.lookup l).getD (nextPc x.pc)) = tgt := by
    funext l
    rw [← htgt l, (issues_group hi).2.2.2.1]
  rw [hfun] at hm
  refine ⟨?_, w, hm, own_trans hT ho⟩
  generalize x.conclude i s (.jump T taken) = t at hr ho ⊢
  generalize T.cols = C at hrest
  generalize T.eng.res = R at hrest
  subst hrest
  exact hr

/-! ## Accesses -/

theorem State.ReadsTo.refl (s : State) : s.ReadsTo s := rfl

theorem State.ReadsTo.trans {s t u : State} (h1 : s.ReadsTo t) (h2 : t.ReadsTo u) : s.ReadsTo u := by
  unfold State.ReadsTo at *
  generalize t.coh = K at h1
  generalize t.fresh = n at h1
  generalize t.fw.bbox = b at h1
  generalize t.fw.bbSeq = q at h1
  subst h1
  exact h2

theorem ReadsTo.mk (s : State) (c : Coherence) (n : Nat) (b : List BbEvent) (q : Nat) :
    s.ReadsTo { s with coh := c, fresh := n, fw := { s.fw with bbox := b, bbSeq := q } } := rfl

theorem ReadsTo.coh (s : State) (c : Coherence) : s.ReadsTo { s with coh := c } := rfl

theorem free_reads (s : State) : s.ReadsTo s.free.2 := rfl

theorem blackBox_reads (s : State) (e p u a d : Nat) : s.ReadsTo (s.blackBox e p u a d) := by
  unfold State.blackBox
  exact ReadsTo.mk ..

theorem ReadsTo.foldl {α : Type} {f : State → α → State} (h : ∀ t a, State.ReadsTo t (f t a)) (l : List α) (s : State) :
    s.ReadsTo (l.foldl f s) := by
  induction l generalizing s with
  | nil => exact .refl s
  | cons a l ih => exact (h s a).trans (ih _)

theorem readEcc_reads (s : State) (part : Nat) (w : EccWord) : s.ReadsTo (s.readEcc part w) := by
  unfold State.readEcc
  dsimp only
  have event (c : Coherence) (e : Nat) : s.ReadsTo (({ s with coh := c } : State).free.2.blackBox e part w.unit.1 w.unit.2
      (({ s with coh := c } : State).free.1 % 2 ^ 64)) := ((ReadsTo.coh s c).trans (free_reads _)).trans (blackBox_reads ..)
  split
  · exact event _ _
  · split
    · exact event _ _
    · exact .refl s

theorem checkSector_reads (s : State) (part line : Nat) : s.ReadsTo (s.checkSector part line) := by
  unfold State.checkSector
  split
  · exact .refl s
  · dsimp only
    split
    · exact .refl s
    · exact (ReadsTo.coh s _).trans (blackBox_reads ..)
    · exact (ReadsTo.coh s _).trans (blackBox_reads ..)

theorem checkBytes_reads (s : State) (part : Nat) (loc : Loc) (a n : Nat) : s.ReadsTo (s.checkBytes part loc a n) := by
  unfold State.checkBytes State.readEccs
  refine State.ReadsTo.trans ?_ (ReadsTo.foldl (fun t w => readEcc_reads t part w) _ _)
  cases loc with
  | dev => exact ReadsTo.foldl (fun t l => checkSector_reads t part l) _ _
  | _ => rfl

theorem checkWalk_reads (s : State) (part va ptroot : Nat) : s.ReadsTo (s.checkWalk part va ptroot) :=
  ReadsTo.foldl (fun t a => checkBytes_reads t part .dev a 8) _ _

theorem grant_reads {s t : State} {line : Nat} {h : Holder} {ends : Nat} (hg : s.grant line h ends = some t) : s.ReadsTo t := by
  simp only [State.grant] at hg
  split at hg
  · cases hg
  · cases hg; rfl

theorem keepNear_reads (s : State) (b : Via) (e : TlbEntry) : s.ReadsTo (s.keepNear b e) := by
  unfold State.keepNear
  split <;> rfl

theorem leaseWalk_reads (s : State) (core ends : Nat) (entries : List Nat) : s.ReadsTo (s.leaseWalk core ends entries).1 := by
  induction entries generalizing s with
  | nil => exact .refl s
  | cons a es ih =>
    simp only [State.leaseWalk]
    split
    · rename_i t ht
      exact (grant_reads ht).trans (ih t)
    · exact ih s

theorem keepWalk_reads (s : State) (b : Via) (part ctx va leaf : Nat) (entries : List Nat) :
    s.ReadsTo (s.keepWalk b part ctx va leaf entries) := by
  have h := leaseWalk_reads s b.core s.walkEnds entries
  simp only [State.keepWalk]
  split
  · rename_i t ht
    rw [ht] at h
    exact h
  · rename_i t ht
    rw [ht] at h
    exact h.trans (State.ReadsTo.trans (ReadsTo.coh _ _) (keepNear_reads _ _ _))

theorem leafFor_reads {s t : State} {b : Via} {part ctx va : Nat} {epoch : Option Nat} {l : Leaf}
    (h : s.leafFor b part ctx epoch va = .ok (l, t)) : s.ReadsTo t := by
  simp only [State.leafFor] at h
  split at h
  · cases h; rfl
  · cases h
  · split at h
    · cases h; exact keepNear_reads ..
    · split at h
      · cases h
      · split at h
        · cases h
        · simp only [Except.ok.injEq, Prod.mk.injEq] at h
          rw [← h.2]
          exact (checkWalk_reads ..).trans (keepWalk_reads ..)

/-- A translation changes what `State.ReadsTo` names alone. -/
theorem translate_reads {s t : State} {b : Via} {part ctx va : Nat} {epoch : Option Nat} {perm : Perm} {z : Trans}
    (h : s.translate b part ctx epoch va perm = .ok (z, t)) : s.ReadsTo t := by
  simp only [State.translate] at h
  split at h
  · cases h
  · split at h
    · cases h
    · rename_i l u hl
      have hu := leafFor_reads hl
      have : t = u := by
        clear hu hl
        cases perm <;> simp only at h <;> repeat' split at h
        all_goals simp_all
      rw [this]
      exact hu

theorem resolve1_reads {s t : State} {x : Ctx} {space : Space} {perm : Perm} {deny : Loc → Option (BitVec 16)} {w : Want} {p : Piece}
    (h : s.resolve1 x space perm deny w = .ok (p, t)) : s.ReadsTo t := by
  simp only [State.resolve1] at h
  split at h
  · split at h
    · cases h
    · split at h
      · cases h
      · rename_i z u hz
        split at h
        · cases h
        · simp only [Except.ok.injEq, Prod.mk.injEq] at h
          rw [← h.2]
          exact translate_reads hz
  · split at h
    · cases h
    · split at h
      · cases h; rfl
      · cases h

/-- Probing an access changes what `State.ReadsTo` names alone (R67). -/
theorem resolve_reads {s t : State} {x : Ctx} {space : Space} {perm : Perm} {deny : Loc → Option (BitVec 16)} {ws : List Want}
    {ps : List Piece} (h : s.resolve x space perm deny ws = .ok (ps, t)) : s.ReadsTo t := by
  induction ws generalizing s ps t with
  | nil => cases h; rfl
  | cons w ws ih =>
    simp only [State.resolve] at h
    split at h
    · cases h
    · rename_i p u hp
      split at h
      · cases h
      · rename_i qs r hr
        simp only [Except.ok.injEq, Prod.mk.injEq] at h
        rw [← h.2]
        exact (resolve1_reads hp).trans (ih hr)

theorem probe_reads {s t : State} {b : Via} {part ctx : Nat} {epoch : Option Nat} {perm : Perm} {fuel va n : Nat}
    (h : s.probe b part ctx epoch perm fuel va n = .ok t) : s.ReadsTo t := by
  induction fuel generalizing s va n with
  | zero => cases h; rfl
  | succ fuel ih =>
    simp only [State.probe] at h
    split at h
    · cases h; rfl
    · split at h
      · cases h
      · rename_i z u hz
        exact (translate_reads hz).trans (ih h)

theorem probeRows_reads {s t : State} {d : Side} {perm : Perm} {rows : List (Int × Nat)} (h : s.probeRows d perm rows = .ok t) :
    s.ReadsTo t := by
  induction rows generalizing s with
  | nil => cases h; rfl
  | cons r rest ih =>
    obtain ⟨a, n⟩ := r
    simp only [State.probeRows] at h
    split at h
    · exact ih h
    · split at h
      · cases h
      · split at h
        · split at h
          · cases h
          · exact ih h
        · split at h
          · cases h
          · rename_i u hu
            exact (probe_reads hu).trans (ih h)

theorem State.ReadsTo.convoy {s t : State} (h : s.ReadsTo t) (col cv : Nat) : t.convoy? col cv = s.convoy? col cv := by rw [h]; rfl

theorem resolve_convoy {s t : State} {x : Ctx} {space : Space} {perm : Perm} {deny : Loc → Option (BitVec 16)} {ws : List Want}
    {ps : List Piece} (h : s.resolve x space perm deny ws = .ok (ps, t)) (col cv : Nat) : t.convoy? col cv = s.convoy? col cv :=
  (resolve_reads h).convoy col cv

theorem probeRows_convoy {s t : State} {d : Side} {perm : Perm} {rows : List (Int × Nat)} (h : s.probeRows d perm rows = .ok t)
    (col cv : Nat) : t.convoy? col cv = s.convoy? col cv :=
  (probeRows_reads h).convoy col cv

end Sys2Proof.Machine
end

