-- ==== Sys2Proof/Laws/Mem.lean ====
section
/-!
SUPPORT. Laws of the canonical maps: reading after writing, and that every memory operation keeps the canonical form.
-/

namespace Sys2Proof.Machine

/-! ## Canonical maps -/

theorem above_lower {α : Type} [DecidableEq α] {d : α} {n : Nat} {b : Option Nat} {m : List (Nat × α)} (h : above d (some n) m = true)
    (hb : ∀ k, b = some k → k ≤ n) : above d b m = true := by
  cases m with
  | nil => rfl
  | cons p m =>
    obtain ⟨k, v⟩ := p
    simp only [above, Bool.and_eq_true, decide_eq_true_eq] at h ⊢
    refine ⟨⟨?_, h.1.2⟩, h.2⟩
    cases b with
    | none => rfl
    | some j => exact decide_eq_true (lt_of_le_of_lt (hb j rfl) h.1.1)

theorem lookupD_low {α : Type} [DecidableEq α] {d : α} {n a : Nat} {m : List (Nat × α)} (h : above d (some n) m = true) (ha : a ≤ n) :
    lookupD d m a = d := by
  induction m generalizing n with
  | nil => rfl
  | cons p m ih =>
    obtain ⟨k, v⟩ := p
    simp only [above, Bool.and_eq_true, decide_eq_true_eq] at h
    rw [lookupD, if_neg (by omega)]
    exact ih h.2 (by omega)

/-- A key that was set reads as its value. -/
theorem lookupD_insertD_same {α : Type} [DecidableEq α] {d : α} {m : List (Nat × α)} (h : canonical d m = true) (a : Nat) (x : α) :
    lookupD d (insertD d m a x) a = x := by
  suffices H : ∀ b, above d b m = true → lookupD d (insertD d m a x) a = x from H none h
  induction m with
  | nil => intro b _; by_cases hx : x = d <;> simp [insertD, lookupD, hx]
  | cons p m ih =>
    obtain ⟨k, v⟩ := p
    intro b hb
    simp only [above, Bool.and_eq_true] at hb
    have hm : above d (some k) m = true := hb.2
    rw [insertD]
    split_ifs with h1 h2 h3 h4
    · rw [lookupD, if_neg (by omega), lookupD_low hm (by omega), h2]
    · simp [lookupD]
    · rw [lookupD_low hm (by omega), h4]
    · simp [lookupD]
    · rw [lookupD, if_neg h3]
      exact ih (above_lower hm (by simp)) (some k) hm

/-- Setting one key leaves every other. -/
theorem lookupD_insertD_other {α : Type} [DecidableEq α] (d : α) (m : List (Nat × α)) {a b : Nat} (x : α) (h : b ≠ a) :
    lookupD d (insertD d m a x) b = lookupD d m b := by
  induction m with
  | nil => by_cases hx : x = d <;> simp [insertD, lookupD, hx, h]
  | cons p m ih =>
    obtain ⟨k, v⟩ := p
    rw [insertD]
    split_ifs with h1 h2 h3 h4
    · rfl
    · rw [lookupD, if_neg h]
    · rw [lookupD, if_neg (by omega)]
    · rw [lookupD, if_neg h, lookupD, if_neg (by omega)]
    · rw [lookupD, lookupD, ih]

theorem above_insertD {α : Type} [DecidableEq α] {d : α} {m : List (Nat × α)} {b : Option Nat} (h : above d b m = true) (a : Nat) (x : α)
    (ha : ∀ k, b = some k → k < a) : above d b (insertD d m a x) = true := by
  have ok : ∀ (b : Option Nat), (∀ k, b = some k → k < a) → (match b with | none => true | some n => decide (n < a)) = true := by
    intro b hb; cases b with
    | none => rfl
    | some j => exact decide_eq_true (hb j rfl)
  induction m generalizing b with
  | nil =>
    by_cases hx : x = d
    · simp [insertD, hx, above]
    · simp only [insertD, if_neg hx, above, Bool.and_eq_true, bne_iff_ne]
      exact ⟨⟨ok b ha, hx⟩, trivial⟩
  | cons p m ih =>
    obtain ⟨k, v⟩ := p
    have h' := h
    simp only [above, Bool.and_eq_true, bne_iff_ne] at h
    rw [insertD]
    split_ifs with h1 h2 h3 h4
    · exact h'
    · simp only [above, Bool.and_eq_true, bne_iff_ne]
      exact ⟨⟨ok b ha, h2⟩, ⟨decide_eq_true h1, h.1.2⟩, h.2⟩
    · exact above_lower h.2 fun j hj => by have := ha j hj; omega
    · subst h3
      simp only [above, Bool.and_eq_true, bne_iff_ne]
      exact ⟨⟨ok b ha, h4⟩, h.2⟩
    · simp only [above, Bool.and_eq_true, bne_iff_ne]
      exact ⟨h.1, ih h.2 fun j hj => by simp at hj; omega⟩

/-- Setting a key keeps the canonical form. -/
theorem canonical_insertD {α : Type} [DecidableEq α] {d : α} {m : List (Nat × α)} (h : canonical d m = true) (a : Nat) (x : α) :
    canonical d (insertD d m a x) = true := above_insertD h a x (by simp)

theorem above_filter {α : Type} [DecidableEq α] {d : α} {m : List (Nat × α)} {b : Option Nat} (p : Nat × α → Bool)
    (h : above d b m = true) : above d b (m.filter p) = true := by
  induction m generalizing b with
  | nil => exact h
  | cons q m ih =>
    obtain ⟨k, v⟩ := q
    have h' := h
    simp only [above, Bool.and_eq_true] at h
    rw [List.filter_cons]
    split
    · simp only [above, Bool.and_eq_true]
      exact ⟨h.1, ih h.2⟩
    · refine ih (above_lower h.2 fun j hj => ?_)
      subst hj
      have := h.1.1
      simp only [decide_eq_true_eq] at this
      omega

/-- Dropping entries keeps the canonical form. -/
theorem canonical_filter {α : Type} [DecidableEq α] {d : α} {m : List (Nat × α)} (p : Nat × α → Bool) (h : canonical d m = true) :
    canonical d (m.filter p) = true := above_filter p h

/-- Setting many keys keeps the canonical form. -/
theorem canonical_foldl {α β : Type} [DecidableEq α] {d : α} (f : List (Nat × α) → β → List (Nat × α))
    (hf : ∀ m b, canonical d m = true → canonical d (f m b) = true) (bs : List β) {m : List (Nat × α)} (h : canonical d m = true) :
    canonical d (bs.foldl f m) = true := by
  induction bs generalizing m with
  | nil => exact h
  | cons b bs ih => exact ih (hf m b h)

/-- Two canonical maps that read alike are equal. -/
theorem canonical_ext {α : Type} [DecidableEq α] {d : α} {m n : List (Nat × α)} (hm : canonical d m = true) (hn : canonical d n = true)
    (h : ∀ a, lookupD d m a = lookupD d n a) : m = n := by
  suffices H : ∀ (m n : List (Nat × α)) (b : Option Nat), above d b m = true → above d b n = true →
      (∀ a, lookupD d m a = lookupD d n a) → m = n from H m n none hm hn h
  intro m
  induction m with
  | nil =>
    intro n b _ hn h
    cases n with
    | nil => rfl
    | cons q n =>
      obtain ⟨k, v⟩ := q
      simp only [above, Bool.and_eq_true, bne_iff_ne] at hn
      have := h k
      simp only [lookupD, if_true] at this
      exact absurd this.symm hn.1.2
  | cons p m ih =>
    obtain ⟨k, v⟩ := p
    intro n b hm hn h
    simp only [above, Bool.and_eq_true, bne_iff_ne] at hm
    cases n with
    | nil =>
      have := h k
      simp only [lookupD, if_true] at this
      exact absurd this hm.1.2
    | cons q n =>
      obtain ⟨j, w⟩ := q
      simp only [above, Bool.and_eq_true, bne_iff_ne] at hn
      have hk : k = j := by
        by_contra hne
        rcases Nat.lt_or_gt_of_ne hne with hlt | hlt
        · have := h k
          rw [lookupD, if_pos rfl, lookupD, if_neg hne, lookupD_low hn.2 (by omega)] at this
          exact hm.1.2 this
        · have := h j
          rw [lookupD, if_neg (Ne.symm hne), lookupD, if_pos rfl, lookupD_low hm.2 (by omega)] at this
          exact hn.1.2 this.symm
      subst hk
      have hv : v = w := by simpa [lookupD] using h k
      subst hv
      congr 1
      refine ih n (some k) hm.2 hn.2 fun a => ?_
      by_cases ha : a ≤ k
      · rw [lookupD_low hm.2 ha, lookupD_low hn.2 ha]
      · have := h a
        rwa [lookupD, if_neg (by omega), lookupD, if_neg (by omega)] at this

/-! ## Byte memories -/

theorem read_write_same {m : Memory} (h : Memory.wf m = true) (a : Nat) (b : Byte) : (m.write a b).read a = b :=
  lookupD_insertD_same h a b

theorem read_write_other (m : Memory) {a c : Nat} (b : Byte) (h : c ≠ a) : (m.write a b).read c = m.read c :=
  lookupD_insertD_other 0 m b h

theorem wf_write {m : Memory} (h : Memory.wf m = true) (a : Nat) (b : Byte) : Memory.wf (m.write a b) = true := canonical_insertD h a b

theorem wf_writeBytes {m : Memory} (h : Memory.wf m = true) (a : Nat) (bs : List Byte) : Memory.wf (m.writeBytes a bs) = true := by
  induction bs generalizing m a with
  | nil => exact h
  | cons b bs ih => exact ih (wf_write h a b) (a + 1)

theorem wf_writeNum {m : Memory} (h : Memory.wf m = true) (a n x : Nat) : Memory.wf (m.writeNum a n x) = true := wf_writeBytes h a _

/-- Bytes outside the written range read as before. -/
theorem read_writeBytes_outside (m : Memory) {a c : Nat} (bs : List Byte) (h : c < a ∨ a + bs.length ≤ c) :
    (m.writeBytes a bs).read c = m.read c := by
  induction bs generalizing m a with
  | nil => rfl
  | cons b bs ih =>
    simp only [List.length_cons] at h
    rw [Memory.writeBytes, ih (m.write a b) (by omega), read_write_other m b (by omega)]

/-- Bytes inside the written range read as written. -/
theorem read_writeBytes_inside {m : Memory} (hm : Memory.wf m = true) (a : Nat) (bs : List Byte) {i : Nat} (h : i < bs.length) :
    (m.writeBytes a bs).read (a + i) = bs[i] := by
  induction bs generalizing m a i with
  | nil => simp at h
  | cons b bs ih =>
    rw [Memory.writeBytes]
    cases i with
    | zero => rw [read_writeBytes_outside _ _ (by omega)]; exact read_write_same hm a b
    | succ i =>
      have := ih (wf_write hm a b) (a + 1) (i := i) (by simpa using h)
      rw [show a + (i + 1) = a + 1 + i by omega, this]; simp

theorem bytes_length (m : Memory) (a n : Nat) : (m.bytes a n).length = n := by
  induction n generalizing a with
  | zero => rfl
  | succ n ih => simp [Memory.bytes, ih]

theorem bytes_get (m : Memory) (a n : Nat) {i : Nat} (h : i < n) : (m.bytes a n)[i]? = some (m.read (a + i)) := by
  induction n generalizing a i with
  | zero => omega
  | succ n ih =>
    cases i with
    | zero => rfl
    | succ i => simp only [Memory.bytes, List.getElem?_cons_succ]; rw [ih (a + 1) (by omega)]; congr 2; omega

/-- What was written is read. -/
theorem bytes_writeBytes {m : Memory} (hm : Memory.wf m = true) (a : Nat) (bs : List Byte) : (m.writeBytes a bs).bytes a bs.length = bs := by
  apply List.ext_getElem?
  intro i
  by_cases h : i < bs.length
  · rw [bytes_get _ _ _ h, read_writeBytes_inside hm a bs h, List.getElem?_eq_getElem h]
  · rw [List.getElem?_eq_none (by simpa [bytes_length] using h), List.getElem?_eq_none (by simpa using h)]

theorem wf_spadStore (banks : List Nat) {m : Memory} (h : Memory.wf m = true) (off : Nat) (bs : List Byte) :
    Memory.wf (spadStore banks m off bs) = true := by
  induction bs generalizing m off with
  | nil => exact h
  | cons b bs ih =>
    rw [spadStore]
    apply ih
    cases spadByte banks off with
    | none => exact h
    | some a => exact wf_write h a b

/-! ## The memories of a state -/

theorem store_wf_iff (m : Store) : m.wf = true ↔ Memory.wf m.dev = true ∧ Memory.wf m.host = true ∧ Memory.wf m.peer = true ∧
    Memory.wf m.spad = true ∧ Memory.wf m.istore = true ∧ Memory.wf m.pf = true ∧ Memory.wf m.fwmem = true ∧
    canonical (0 : Word) m.tiles = true ∧ canonical (0 : Word) m.cksum = true := by
  simp [Store.wf, and_assoc]

theorem reset_wf : State.reset.store.wf = true := by decide

/-- A write at the home slice keeps every memory's form. -/
theorem devWrite_wf {s : State} (h : s.store.wf = true) (own : Option Nat) (pa : Nat) (bs : List Byte) :
    (s.devWrite own pa bs).1.store.wf = true := by
  rw [store_wf_iff] at h ⊢
  exact ⟨wf_writeBytes h.1 pa bs, h.2⟩

/-- Zeroing device memory keeps every memory's form. -/
theorem zeroDev_wf {s : State} (h : s.store.wf = true) (pa n : Nat) : (s.zeroDev pa n).store.wf = true := by
  rw [store_wf_iff] at h ⊢
  exact ⟨canonical_filter _ h.1, h.2⟩

/-- A scratchpad write keeps every memory's form. -/
theorem spadWrite_wf {s : State} (h : s.store.wf = true) (banks : List Nat) (off : Nat) (bs : List Byte) :
    (s.spadWrite banks off bs).store.wf = true := by
  rw [store_wf_iff] at h ⊢
  exact ⟨h.1, h.2.1, h.2.2.1, wf_spadStore banks h.2.2.2.1 off bs, h.2.2.2.2⟩

/-- A write at a place of any kind keeps every memory's form. -/
theorem poke_wf {s : State} (h : s.store.wf = true) (own : Option Nat) (loc : Loc) (a : Nat) (bs : List Byte) :
    (s.poke own loc a bs).1.store.wf = true := by
  cases loc with
  | dev => exact devWrite_wf h own a _
  | spad => rw [store_wf_iff] at h ⊢; exact ⟨h.1, h.2.1, h.2.2.1, wf_writeBytes h.2.2.2.1 a bs, h.2.2.2.2⟩
  | host r => rw [store_wf_iff] at h ⊢; exact ⟨h.1, wf_writeBytes h.2.1 a bs, h.2.2⟩
  | peer l => rw [store_wf_iff] at h ⊢; exact ⟨h.1, h.2.1, wf_writeBytes h.2.2.1 _ bs, h.2.2.2⟩

/-- A firmware write keeps every memory's form. -/
theorem ramWrite_wf {s : State} (h : s.store.wf = true) (pf : Bool) (a : Nat) (bs : List Byte) :
    (s.ramWrite pf a bs).1.store.wf = true := by
  cases pf with
  | false => exact devWrite_wf h none a bs
  | true => rw [store_wf_iff] at h ⊢; exact ⟨h.1, h.2.1, h.2.2.1, h.2.2.2.1, h.2.2.2.2.1, wf_writeBytes h.2.2.2.2.2.1 a bs, h.2.2.2.2.2.2⟩

/-- A tile write keeps every memory's form. -/
theorem setTile_wf {s : State} (h : s.store.wf = true) (quad tile : Nat) (vals : List (Nat × Word)) :
    (s.setTile quad tile vals).store.wf = true := by
  rw [store_wf_iff] at h ⊢
  exact ⟨h.1, h.2.1, h.2.2.1, h.2.2.2.1, h.2.2.2.2.1, h.2.2.2.2.2.1, h.2.2.2.2.2.2.1,
    canonical_foldl _ (fun m v hm => canonical_insertD hm _ _) vals h.2.2.2.2.2.2.2.1, h.2.2.2.2.2.2.2.2⟩

/-- A checksum status written keeps every memory's form. -/
theorem setCksum_wf {s : State} (h : s.store.wf = true) (quad k : Nat) (w : Word) : (s.setCksum quad k w).store.wf = true := by
  rw [store_wf_iff] at h ⊢
  exact ⟨h.1, h.2.1, h.2.2.1, h.2.2.2.1, h.2.2.2.2.1, h.2.2.2.2.2.1, h.2.2.2.2.2.2.1,
    h.2.2.2.2.2.2.2.1, canonical_insertD h.2.2.2.2.2.2.2.2 _ _⟩

/-- What a device write stored is read back at its home slice, and every byte outside it reads as before. -/
theorem devWrite_reads {s : State} (h : s.store.wf = true) (own : Option Nat) (pa : Nat) (bs : List Byte) :
    Memory.bytes (s.devWrite own pa bs).1.store.dev pa bs.length = bs ∧
    ∀ a, a < pa ∨ pa + bs.length ≤ a → Memory.read (s.devWrite own pa bs).1.store.dev a = Memory.read s.store.dev a :=
  ⟨bytes_writeBytes ((store_wf_iff _).1 h).1 pa bs, fun _ ha => read_writeBytes_outside _ bs ha⟩

end Sys2Proof.Machine
end

