-- ==== Sys2Proof/Laws/Special.lean ====
section
/-!
SUPPORT. What `Window.climb` answers: a position of the window, the greatest that is reached; hence the monotone functions of R149,
R158 and R377 rise with their windows.
-/

namespace Sys2Proof

/-- One more position tried. -/
theorem Window.climb_fold_succ (lo : Int) (r : Int → Bool) (n : Nat) :
    (List.range (n + 1)).foldl (fun a i => if r (lo + 1 + i) then lo + 1 + i else a) lo =
      if r (lo + 1 + n) then lo + 1 + n else (List.range n).foldl (fun a i => if r (lo + 1 + i) then lo + 1 + i else a) lo := by
  simp [List.range_succ]

/-- The fold stays between its ends, is the lowest position or a reached one, and passes over no reached position. -/
theorem Window.climb_fold (lo : Int) (r : Int → Bool) (n : Nat) :
    let k := (List.range n).foldl (fun a i => if r (lo + 1 + i) then lo + 1 + i else a) lo
    lo ≤ k ∧ k ≤ lo + n ∧ (k = lo ∨ r k = true) ∧ ∀ j, lo < j → j ≤ lo + n → r j = true → j ≤ k := by
  induction n with
  | zero => exact ⟨le_refl _, by simp, .inl rfl, fun j h1 h2 _ => by simp at h2 ⊢; omega⟩
  | succ n ih =>
    obtain ⟨h1, h2, h3, h4⟩ := ih
    simp only [Window.climb_fold_succ]
    split
    · next h => exact ⟨by omega, by push_cast; omega, .inr h, fun j _ hj _ => by push_cast at hj; omega⟩
    · next h =>
      refine ⟨h1, by push_cast; omega, h3, fun j hj hn hr => ?_⟩
      by_cases e : j = lo + 1 + n
      · exact absurd (e ▸ hr) h
      · exact h4 j hj (by push_cast at hn; omega) hr

/-- `climb` answers a position of the window, the lowest or a reached one, and no reached position lies above it. -/
theorem Window.climb_spec (w : Window) (r : Int → Bool) :
    w.lo ≤ w.climb r ∧ w.climb r ≤ max w.lo w.hi ∧ (w.climb r = w.lo ∨ r (w.climb r) = true) ∧
      ∀ j, w.lo < j → j ≤ w.hi → r j = true → j ≤ w.climb r := by
  obtain ⟨h1, h2, h3, h4⟩ := Window.climb_fold w.lo r (w.hi - w.lo).toNat
  exact ⟨h1, by unfold Window.climb; omega, h3, fun j a b c => h4 j a (by omega) c⟩

/-- A higher window in which more is reached gives a result at least as high. -/
theorem Window.climb_mono {v w : Window} {r q : Int → Bool} (hl : v.lo ≤ w.lo) (hh : v.hi ≤ w.hi)
    (hr : ∀ k, r k = true → q k = true) : v.climb r ≤ w.climb q := by
  obtain ⟨h1, h2, h3, -⟩ := Window.climb_spec v r
  obtain ⟨g1, -, -, g4⟩ := Window.climb_spec w q
  rcases h3 with h | h
  · omega
  · by_cases hk : v.climb r ≤ w.lo
    · omega
    · exact g4 _ (by omega) (by omega) (hr _ h)

end Sys2Proof
end

