-- ==== Sys2Proof/Laws/State.lean ====
section
/-!
SUPPORT. What each update of a state, a convoy and a lane leaves, field by field.
-/

namespace Sys2Proof.Machine

@[simp] theorem State.onColumn_wall (s : State) (id : Nat) (f : Column → Column) : (s.onColumn id f).wall = s.wall := rfl
@[simp] theorem State.onColumn_agenda (s : State) (id : Nat) (f : Column → Column) : (s.onColumn id f).agenda = s.agenda := rfl
@[simp] theorem State.onColumn_cur (s : State) (id : Nat) (f : Column → Column) : (s.onColumn id f).cur = s.cur := rfl
@[simp] theorem State.onColumn_fresh (s : State) (id : Nat) (f : Column → Column) : (s.onColumn id f).fresh = s.fresh := rfl
@[simp] theorem State.onColumn_nextId (s : State) (id : Nat) (f : Column → Column) : (s.onColumn id f).nextId = s.nextId := rfl
@[simp] theorem State.onColumn_store (s : State) (id : Nat) (f : Column → Column) : (s.onColumn id f).store = s.store := rfl
@[simp] theorem State.onColumn_coh (s : State) (id : Nat) (f : Column → Column) : (s.onColumn id f).coh = s.coh := rfl
@[simp] theorem State.onColumn_ops (s : State) (id : Nat) (f : Column → Column) : (s.onColumn id f).ops = s.ops := rfl
@[simp] theorem State.onColumn_eng (s : State) (id : Nat) (f : Column → Column) : (s.onColumn id f).eng = s.eng := rfl
@[simp] theorem State.onColumn_launches (s : State) (id : Nat) (f : Column → Column) : (s.onColumn id f).launches = s.launches := rfl
@[simp] theorem State.onColumn_obj (s : State) (id : Nat) (f : Column → Column) : (s.onColumn id f).obj = s.obj := rfl
@[simp] theorem State.onColumn_recs (s : State) (id : Nat) (f : Column → Column) : (s.onColumn id f).recs = s.recs := rfl
@[simp] theorem State.onColumn_paging (s : State) (id : Nat) (f : Column → Column) : (s.onColumn id f).paging = s.paging := rfl
@[simp] theorem State.onColumn_calls (s : State) (id : Nat) (f : Column → Column) : (s.onColumn id f).calls = s.calls := rfl
@[simp] theorem State.onColumn_fw (s : State) (id : Nat) (f : Column → Column) : (s.onColumn id f).fw = s.fw := rfl
@[simp] theorem State.onColumn_holds (s : State) (id : Nat) (f : Column → Column) : (s.onColumn id f).holds = s.holds := rfl
@[simp] theorem State.onColumn_issued (s : State) (id : Nat) (f : Column → Column) : (s.onColumn id f).issued = s.issued := rfl
@[simp] theorem State.onColumn_raised (s : State) (id : Nat) (f : Column → Column) : (s.onColumn id f).raised = s.raised := rfl
@[simp] theorem State.onColumn_reply (s : State) (id : Nat) (f : Column → Column) : (s.onColumn id f).reply = s.reply := rfl
@[simp] theorem State.onConvoy_wall (s : State) (col cv : Nat) (f : Convoy → Convoy) : (s.onConvoy col cv f).wall = s.wall := rfl
@[simp] theorem State.onConvoy_agenda (s : State) (col cv : Nat) (f : Convoy → Convoy) : (s.onConvoy col cv f).agenda = s.agenda := rfl
@[simp] theorem State.onConvoy_cur (s : State) (col cv : Nat) (f : Convoy → Convoy) : (s.onConvoy col cv f).cur = s.cur := rfl
@[simp] theorem State.onConvoy_fresh (s : State) (col cv : Nat) (f : Convoy → Convoy) : (s.onConvoy col cv f).fresh = s.fresh := rfl
@[simp] theorem State.onConvoy_nextId (s : State) (col cv : Nat) (f : Convoy → Convoy) : (s.onConvoy col cv f).nextId = s.nextId := rfl
@[simp] theorem State.onConvoy_store (s : State) (col cv : Nat) (f : Convoy → Convoy) : (s.onConvoy col cv f).store = s.store := rfl
@[simp] theorem State.onConvoy_coh (s : State) (col cv : Nat) (f : Convoy → Convoy) : (s.onConvoy col cv f).coh = s.coh := rfl
@[simp] theorem State.onConvoy_ops (s : State) (col cv : Nat) (f : Convoy → Convoy) : (s.onConvoy col cv f).ops = s.ops := rfl
@[simp] theorem State.onConvoy_eng (s : State) (col cv : Nat) (f : Convoy → Convoy) : (s.onConvoy col cv f).eng = s.eng := rfl
@[simp] theorem State.onConvoy_launches (s : State) (col cv : Nat) (f : Convoy → Convoy) : (s.onConvoy col cv f).launches = s.launches := rfl
@[simp] theorem State.onConvoy_obj (s : State) (col cv : Nat) (f : Convoy → Convoy) : (s.onConvoy col cv f).obj = s.obj := rfl
@[simp] theorem State.onConvoy_recs (s : State) (col cv : Nat) (f : Convoy → Convoy) : (s.onConvoy col cv f).recs = s.recs := rfl
@[simp] theorem State.onConvoy_paging (s : State) (col cv : Nat) (f : Convoy → Convoy) : (s.onConvoy col cv f).paging = s.paging := rfl
@[simp] theorem State.onConvoy_calls (s : State) (col cv : Nat) (f : Convoy → Convoy) : (s.onConvoy col cv f).calls = s.calls := rfl
@[simp] theorem State.onConvoy_fw (s : State) (col cv : Nat) (f : Convoy → Convoy) : (s.onConvoy col cv f).fw = s.fw := rfl
@[simp] theorem State.onConvoy_holds (s : State) (col cv : Nat) (f : Convoy → Convoy) : (s.onConvoy col cv f).holds = s.holds := rfl
@[simp] theorem State.onConvoy_issued (s : State) (col cv : Nat) (f : Convoy → Convoy) : (s.onConvoy col cv f).issued = s.issued := rfl
@[simp] theorem State.onConvoy_raised (s : State) (col cv : Nat) (f : Convoy → Convoy) : (s.onConvoy col cv f).raised = s.raised := rfl
@[simp] theorem State.onConvoy_reply (s : State) (col cv : Nat) (f : Convoy → Convoy) : (s.onConvoy col cv f).reply = s.reply := rfl
@[simp] theorem State.put_wall (s : State) (x : Ctx) (v : Convoy) : (s.put x v).wall = s.wall := rfl
@[simp] theorem State.put_agenda (s : State) (x : Ctx) (v : Convoy) : (s.put x v).agenda = s.agenda := rfl
@[simp] theorem State.put_cur (s : State) (x : Ctx) (v : Convoy) : (s.put x v).cur = s.cur := rfl
@[simp] theorem State.put_fresh (s : State) (x : Ctx) (v : Convoy) : (s.put x v).fresh = s.fresh := rfl
@[simp] theorem State.put_nextId (s : State) (x : Ctx) (v : Convoy) : (s.put x v).nextId = s.nextId := rfl
@[simp] theorem State.put_store (s : State) (x : Ctx) (v : Convoy) : (s.put x v).store = s.store := rfl
@[simp] theorem State.put_coh (s : State) (x : Ctx) (v : Convoy) : (s.put x v).coh = s.coh := rfl
@[simp] theorem State.put_ops (s : State) (x : Ctx) (v : Convoy) : (s.put x v).ops = s.ops := rfl
@[simp] theorem State.put_eng (s : State) (x : Ctx) (v : Convoy) : (s.put x v).eng = s.eng := rfl
@[simp] theorem State.put_launches (s : State) (x : Ctx) (v : Convoy) : (s.put x v).launches = s.launches := rfl
@[simp] theorem State.put_obj (s : State) (x : Ctx) (v : Convoy) : (s.put x v).obj = s.obj := rfl
@[simp] theorem State.put_recs (s : State) (x : Ctx) (v : Convoy) : (s.put x v).recs = s.recs := rfl
@[simp] theorem State.put_paging (s : State) (x : Ctx) (v : Convoy) : (s.put x v).paging = s.paging := rfl
@[simp] theorem State.put_calls (s : State) (x : Ctx) (v : Convoy) : (s.put x v).calls = s.calls := rfl
@[simp] theorem State.put_fw (s : State) (x : Ctx) (v : Convoy) : (s.put x v).fw = s.fw := rfl
@[simp] theorem State.put_holds (s : State) (x : Ctx) (v : Convoy) : (s.put x v).holds = s.holds := rfl
@[simp] theorem State.put_issued (s : State) (x : Ctx) (v : Convoy) : (s.put x v).issued = s.issued := rfl
@[simp] theorem State.put_raised (s : State) (x : Ctx) (v : Convoy) : (s.put x v).raised = s.raised := rfl
@[simp] theorem State.put_reply (s : State) (x : Ctx) (v : Convoy) : (s.put x v).reply = s.reply := rfl
@[simp] theorem State.begun_wall (s : State) (y : Ctx) : (s.begun y).wall = s.wall := rfl
@[simp] theorem State.begun_agenda (s : State) (y : Ctx) : (s.begun y).agenda = s.agenda := rfl
@[simp] theorem State.begun_cur (s : State) (y : Ctx) : (s.begun y).cur = s.cur := rfl
@[simp] theorem State.begun_fresh (s : State) (y : Ctx) : (s.begun y).fresh = s.fresh := rfl
@[simp] theorem State.begun_nextId (s : State) (y : Ctx) : (s.begun y).nextId = s.nextId := rfl
@[simp] theorem State.begun_store (s : State) (y : Ctx) : (s.begun y).store = s.store := rfl
@[simp] theorem State.begun_coh (s : State) (y : Ctx) : (s.begun y).coh = s.coh := rfl
@[simp] theorem State.begun_ops (s : State) (y : Ctx) : (s.begun y).ops = s.ops := rfl
@[simp] theorem State.begun_eng (s : State) (y : Ctx) : (s.begun y).eng = s.eng := rfl
@[simp] theorem State.begun_launches (s : State) (y : Ctx) : (s.begun y).launches = s.launches := rfl
@[simp] theorem State.begun_obj (s : State) (y : Ctx) : (s.begun y).obj = s.obj := rfl
@[simp] theorem State.begun_recs (s : State) (y : Ctx) : (s.begun y).recs = s.recs := rfl
@[simp] theorem State.begun_paging (s : State) (y : Ctx) : (s.begun y).paging = s.paging := rfl
@[simp] theorem State.begun_calls (s : State) (y : Ctx) : (s.begun y).calls = s.calls := rfl
@[simp] theorem State.begun_fw (s : State) (y : Ctx) : (s.begun y).fw = s.fw := rfl
@[simp] theorem State.begun_holds (s : State) (y : Ctx) : (s.begun y).holds = s.holds := rfl
@[simp] theorem State.begun_issued (s : State) (y : Ctx) : (s.begun y).issued = s.issued := rfl
@[simp] theorem State.begun_raised (s : State) (y : Ctx) : (s.begun y).raised = s.raised := rfl
@[simp] theorem State.begun_reply (s : State) (y : Ctx) : (s.begun y).reply = s.reply := rfl
@[simp] theorem State.forbidRollback_wall (s : State) (col : Nat) : (s.forbidRollback col).wall = s.wall := rfl
@[simp] theorem State.forbidRollback_agenda (s : State) (col : Nat) : (s.forbidRollback col).agenda = s.agenda := rfl
@[simp] theorem State.forbidRollback_cur (s : State) (col : Nat) : (s.forbidRollback col).cur = s.cur := rfl
@[simp] theorem State.forbidRollback_fresh (s : State) (col : Nat) : (s.forbidRollback col).fresh = s.fresh := rfl
@[simp] theorem State.forbidRollback_nextId (s : State) (col : Nat) : (s.forbidRollback col).nextId = s.nextId := rfl
@[simp] theorem State.forbidRollback_store (s : State) (col : Nat) : (s.forbidRollback col).store = s.store := rfl
@[simp] theorem State.forbidRollback_coh (s : State) (col : Nat) : (s.forbidRollback col).coh = s.coh := rfl
@[simp] theorem State.forbidRollback_ops (s : State) (col : Nat) : (s.forbidRollback col).ops = s.ops := rfl
@[simp] theorem State.forbidRollback_eng (s : State) (col : Nat) : (s.forbidRollback col).eng = s.eng := rfl
@[simp] theorem State.forbidRollback_launches (s : State) (col : Nat) : (s.forbidRollback col).launches = s.launches := rfl
@[simp] theorem State.forbidRollback_obj (s : State) (col : Nat) : (s.forbidRollback col).obj = s.obj := rfl
@[simp] theorem State.forbidRollback_recs (s : State) (col : Nat) : (s.forbidRollback col).recs = s.recs := rfl
@[simp] theorem State.forbidRollback_paging (s : State) (col : Nat) : (s.forbidRollback col).paging = s.paging := rfl
@[simp] theorem State.forbidRollback_calls (s : State) (col : Nat) : (s.forbidRollback col).calls = s.calls := rfl
@[simp] theorem State.forbidRollback_fw (s : State) (col : Nat) : (s.forbidRollback col).fw = s.fw := rfl
@[simp] theorem State.forbidRollback_holds (s : State) (col : Nat) : (s.forbidRollback col).holds = s.holds := rfl
@[simp] theorem State.forbidRollback_issued (s : State) (col : Nat) : (s.forbidRollback col).issued = s.issued := rfl
@[simp] theorem State.forbidRollback_raised (s : State) (col : Nat) : (s.forbidRollback col).raised = s.raised := rfl
@[simp] theorem State.forbidRollback_reply (s : State) (col : Nat) : (s.forbidRollback col).reply = s.reply := rfl
@[simp] theorem State.addOp_wall (s : State) (x : Ctx) (k : OpKind) (h : Hint) (ls : List Nat) (ps : List Piece) (vs : List (Nat × Nat)) (as : List (Nat × Nat × Nat)) : (s.addOp x k h ls ps vs as).wall = s.wall := rfl
@[simp] theorem State.addOp_agenda (s : State) (x : Ctx) (k : OpKind) (h : Hint) (ls : List Nat) (ps : List Piece) (vs : List (Nat × Nat)) (as : List (Nat × Nat × Nat)) : (s.addOp x k h ls ps vs as).agenda = s.agenda := rfl
@[simp] theorem State.addOp_cur (s : State) (x : Ctx) (k : OpKind) (h : Hint) (ls : List Nat) (ps : List Piece) (vs : List (Nat × Nat)) (as : List (Nat × Nat × Nat)) : (s.addOp x k h ls ps vs as).cur = s.cur := rfl
@[simp] theorem State.addOp_fresh (s : State) (x : Ctx) (k : OpKind) (h : Hint) (ls : List Nat) (ps : List Piece) (vs : List (Nat × Nat)) (as : List (Nat × Nat × Nat)) : (s.addOp x k h ls ps vs as).fresh = s.fresh := rfl
@[simp] theorem State.addOp_store (s : State) (x : Ctx) (k : OpKind) (h : Hint) (ls : List Nat) (ps : List Piece) (vs : List (Nat × Nat)) (as : List (Nat × Nat × Nat)) : (s.addOp x k h ls ps vs as).store = s.store := rfl
@[simp] theorem State.addOp_coh (s : State) (x : Ctx) (k : OpKind) (h : Hint) (ls : List Nat) (ps : List Piece) (vs : List (Nat × Nat)) (as : List (Nat × Nat × Nat)) : (s.addOp x k h ls ps vs as).coh = s.coh := rfl
@[simp] theorem State.addOp_eng (s : State) (x : Ctx) (k : OpKind) (h : Hint) (ls : List Nat) (ps : List Piece) (vs : List (Nat × Nat)) (as : List (Nat × Nat × Nat)) : (s.addOp x k h ls ps vs as).eng = s.eng := rfl
@[simp] theorem State.addOp_cols (s : State) (x : Ctx) (k : OpKind) (h : Hint) (ls : List Nat) (ps : List Piece) (vs : List (Nat × Nat)) (as : List (Nat × Nat × Nat)) : (s.addOp x k h ls ps vs as).cols = s.cols := rfl
@[simp] theorem State.addOp_launches (s : State) (x : Ctx) (k : OpKind) (h : Hint) (ls : List Nat) (ps : List Piece) (vs : List (Nat × Nat)) (as : List (Nat × Nat × Nat)) : (s.addOp x k h ls ps vs as).launches = s.launches := rfl
@[simp] theorem State.addOp_obj (s : State) (x : Ctx) (k : OpKind) (h : Hint) (ls : List Nat) (ps : List Piece) (vs : List (Nat × Nat)) (as : List (Nat × Nat × Nat)) : (s.addOp x k h ls ps vs as).obj = s.obj := rfl
@[simp] theorem State.addOp_recs (s : State) (x : Ctx) (k : OpKind) (h : Hint) (ls : List Nat) (ps : List Piece) (vs : List (Nat × Nat)) (as : List (Nat × Nat × Nat)) : (s.addOp x k h ls ps vs as).recs = s.recs := rfl
@[simp] theorem State.addOp_paging (s : State) (x : Ctx) (k : OpKind) (h : Hint) (ls : List Nat) (ps : List Piece) (vs : List (Nat × Nat)) (as : List (Nat × Nat × Nat)) : (s.addOp x k h ls ps vs as).paging = s.paging := rfl
@[simp] theorem State.addOp_calls (s : State) (x : Ctx) (k : OpKind) (h : Hint) (ls : List Nat) (ps : List Piece) (vs : List (Nat × Nat)) (as : List (Nat × Nat × Nat)) : (s.addOp x k h ls ps vs as).calls = s.calls := rfl
@[simp] theorem State.addOp_fw (s : State) (x : Ctx) (k : OpKind) (h : Hint) (ls : List Nat) (ps : List Piece) (vs : List (Nat × Nat)) (as : List (Nat × Nat × Nat)) : (s.addOp x k h ls ps vs as).fw = s.fw := rfl
@[simp] theorem State.addOp_holds (s : State) (x : Ctx) (k : OpKind) (h : Hint) (ls : List Nat) (ps : List Piece) (vs : List (Nat × Nat)) (as : List (Nat × Nat × Nat)) : (s.addOp x k h ls ps vs as).holds = s.holds := rfl
@[simp] theorem State.addOp_issued (s : State) (x : Ctx) (k : OpKind) (h : Hint) (ls : List Nat) (ps : List Piece) (vs : List (Nat × Nat)) (as : List (Nat × Nat × Nat)) : (s.addOp x k h ls ps vs as).issued = s.issued := rfl
@[simp] theorem State.addOp_raised (s : State) (x : Ctx) (k : OpKind) (h : Hint) (ls : List Nat) (ps : List Piece) (vs : List (Nat × Nat)) (as : List (Nat × Nat × Nat)) : (s.addOp x k h ls ps vs as).raised = s.raised := rfl
@[simp] theorem State.addOp_reply (s : State) (x : Ctx) (k : OpKind) (h : Hint) (ls : List Nat) (ps : List Piece) (vs : List (Nat × Nat)) (as : List (Nat × Nat × Nat)) : (s.addOp x k h ls ps vs as).reply = s.reply := rfl
@[simp] theorem State.dropOp_wall (s : State) (op : Nat) : (s.dropOp op).wall = s.wall := rfl
@[simp] theorem State.dropOp_agenda (s : State) (op : Nat) : (s.dropOp op).agenda = s.agenda := rfl
@[simp] theorem State.dropOp_cur (s : State) (op : Nat) : (s.dropOp op).cur = s.cur := rfl
@[simp] theorem State.dropOp_fresh (s : State) (op : Nat) : (s.dropOp op).fresh = s.fresh := rfl
@[simp] theorem State.dropOp_nextId (s : State) (op : Nat) : (s.dropOp op).nextId = s.nextId := rfl
@[simp] theorem State.dropOp_store (s : State) (op : Nat) : (s.dropOp op).store = s.store := rfl
@[simp] theorem State.dropOp_coh (s : State) (op : Nat) : (s.dropOp op).coh = s.coh := rfl
@[simp] theorem State.dropOp_eng (s : State) (op : Nat) : (s.dropOp op).eng = s.eng := rfl
@[simp] theorem State.dropOp_cols (s : State) (op : Nat) : (s.dropOp op).cols = s.cols := rfl
@[simp] theorem State.dropOp_launches (s : State) (op : Nat) : (s.dropOp op).launches = s.launches := rfl
@[simp] theorem State.dropOp_obj (s : State) (op : Nat) : (s.dropOp op).obj = s.obj := rfl
@[simp] theorem State.dropOp_recs (s : State) (op : Nat) : (s.dropOp op).recs = s.recs := rfl
@[simp] theorem State.dropOp_paging (s : State) (op : Nat) : (s.dropOp op).paging = s.paging := rfl
@[simp] theorem State.dropOp_calls (s : State) (op : Nat) : (s.dropOp op).calls = s.calls := rfl
@[simp] theorem State.dropOp_fw (s : State) (op : Nat) : (s.dropOp op).fw = s.fw := rfl
@[simp] theorem State.dropOp_holds (s : State) (op : Nat) : (s.dropOp op).holds = s.holds := rfl
@[simp] theorem State.dropOp_issued (s : State) (op : Nat) : (s.dropOp op).issued = s.issued := rfl
@[simp] theorem State.dropOp_raised (s : State) (op : Nat) : (s.dropOp op).raised = s.raised := rfl
@[simp] theorem State.dropOp_reply (s : State) (op : Nat) : (s.dropOp op).reply = s.reply := rfl
@[simp] theorem State.onOp_wall (s : State) (op : Nat) (f : Op → Op) : (s.onOp op f).wall = s.wall := rfl
@[simp] theorem State.onOp_agenda (s : State) (op : Nat) (f : Op → Op) : (s.onOp op f).agenda = s.agenda := rfl
@[simp] theorem State.onOp_cur (s : State) (op : Nat) (f : Op → Op) : (s.onOp op f).cur = s.cur := rfl
@[simp] theorem State.onOp_fresh (s : State) (op : Nat) (f : Op → Op) : (s.onOp op f).fresh = s.fresh := rfl
@[simp] theorem State.onOp_nextId (s : State) (op : Nat) (f : Op → Op) : (s.onOp op f).nextId = s.nextId := rfl
@[simp] theorem State.onOp_store (s : State) (op : Nat) (f : Op → Op) : (s.onOp op f).store = s.store := rfl
@[simp] theorem State.onOp_coh (s : State) (op : Nat) (f : Op → Op) : (s.onOp op f).coh = s.coh := rfl
@[simp] theorem State.onOp_eng (s : State) (op : Nat) (f : Op → Op) : (s.onOp op f).eng = s.eng := rfl
@[simp] theorem State.onOp_cols (s : State) (op : Nat) (f : Op → Op) : (s.onOp op f).cols = s.cols := rfl
@[simp] theorem State.onOp_launches (s : State) (op : Nat) (f : Op → Op) : (s.onOp op f).launches = s.launches := rfl
@[simp] theorem State.onOp_obj (s : State) (op : Nat) (f : Op → Op) : (s.onOp op f).obj = s.obj := rfl
@[simp] theorem State.onOp_recs (s : State) (op : Nat) (f : Op → Op) : (s.onOp op f).recs = s.recs := rfl
@[simp] theorem State.onOp_paging (s : State) (op : Nat) (f : Op → Op) : (s.onOp op f).paging = s.paging := rfl
@[simp] theorem State.onOp_calls (s : State) (op : Nat) (f : Op → Op) : (s.onOp op f).calls = s.calls := rfl
@[simp] theorem State.onOp_fw (s : State) (op : Nat) (f : Op → Op) : (s.onOp op f).fw = s.fw := rfl
@[simp] theorem State.onOp_holds (s : State) (op : Nat) (f : Op → Op) : (s.onOp op f).holds = s.holds := rfl
@[simp] theorem State.onOp_issued (s : State) (op : Nat) (f : Op → Op) : (s.onOp op f).issued = s.issued := rfl
@[simp] theorem State.onOp_raised (s : State) (op : Nat) (f : Op → Op) : (s.onOp op f).raised = s.raised := rfl
@[simp] theorem State.onOp_reply (s : State) (op : Nat) (f : Op → Op) : (s.onOp op f).reply = s.reply := rfl
@[simp] theorem State.onQueue_wall (s : State) (id : Nat) (f : Queue → Queue) : (s.onQueue id f).wall = s.wall := rfl
@[simp] theorem State.onQueue_agenda (s : State) (id : Nat) (f : Queue → Queue) : (s.onQueue id f).agenda = s.agenda := rfl
@[simp] theorem State.onQueue_cur (s : State) (id : Nat) (f : Queue → Queue) : (s.onQueue id f).cur = s.cur := rfl
@[simp] theorem State.onQueue_fresh (s : State) (id : Nat) (f : Queue → Queue) : (s.onQueue id f).fresh = s.fresh := rfl
@[simp] theorem State.onQueue_nextId (s : State) (id : Nat) (f : Queue → Queue) : (s.onQueue id f).nextId = s.nextId := rfl
@[simp] theorem State.onQueue_store (s : State) (id : Nat) (f : Queue → Queue) : (s.onQueue id f).store = s.store := rfl
@[simp] theorem State.onQueue_coh (s : State) (id : Nat) (f : Queue → Queue) : (s.onQueue id f).coh = s.coh := rfl
@[simp] theorem State.onQueue_ops (s : State) (id : Nat) (f : Queue → Queue) : (s.onQueue id f).ops = s.ops := rfl
@[simp] theorem State.onQueue_eng (s : State) (id : Nat) (f : Queue → Queue) : (s.onQueue id f).eng = s.eng := rfl
@[simp] theorem State.onQueue_cols (s : State) (id : Nat) (f : Queue → Queue) : (s.onQueue id f).cols = s.cols := rfl
@[simp] theorem State.onQueue_launches (s : State) (id : Nat) (f : Queue → Queue) : (s.onQueue id f).launches = s.launches := rfl
@[simp] theorem State.onQueue_recs (s : State) (id : Nat) (f : Queue → Queue) : (s.onQueue id f).recs = s.recs := rfl
@[simp] theorem State.onQueue_paging (s : State) (id : Nat) (f : Queue → Queue) : (s.onQueue id f).paging = s.paging := rfl
@[simp] theorem State.onQueue_calls (s : State) (id : Nat) (f : Queue → Queue) : (s.onQueue id f).calls = s.calls := rfl
@[simp] theorem State.onQueue_fw (s : State) (id : Nat) (f : Queue → Queue) : (s.onQueue id f).fw = s.fw := rfl
@[simp] theorem State.onQueue_holds (s : State) (id : Nat) (f : Queue → Queue) : (s.onQueue id f).holds = s.holds := rfl
@[simp] theorem State.onQueue_issued (s : State) (id : Nat) (f : Queue → Queue) : (s.onQueue id f).issued = s.issued := rfl
@[simp] theorem State.onQueue_raised (s : State) (id : Nat) (f : Queue → Queue) : (s.onQueue id f).raised = s.raised := rfl
@[simp] theorem State.onQueue_reply (s : State) (id : Nat) (f : Queue → Queue) : (s.onQueue id f).reply = s.reply := rfl
@[simp] theorem State.setTile_wall (s : State) (quad tile : Nat) (vs : List (Nat × Word)) : (s.setTile quad tile vs).wall = s.wall := rfl
@[simp] theorem State.setTile_agenda (s : State) (quad tile : Nat) (vs : List (Nat × Word)) : (s.setTile quad tile vs).agenda = s.agenda := rfl
@[simp] theorem State.setTile_cur (s : State) (quad tile : Nat) (vs : List (Nat × Word)) : (s.setTile quad tile vs).cur = s.cur := rfl
@[simp] theorem State.setTile_fresh (s : State) (quad tile : Nat) (vs : List (Nat × Word)) : (s.setTile quad tile vs).fresh = s.fresh := rfl
@[simp] theorem State.setTile_nextId (s : State) (quad tile : Nat) (vs : List (Nat × Word)) : (s.setTile quad tile vs).nextId = s.nextId := rfl
@[simp] theorem State.setTile_ops (s : State) (quad tile : Nat) (vs : List (Nat × Word)) : (s.setTile quad tile vs).ops = s.ops := rfl
@[simp] theorem State.setTile_eng (s : State) (quad tile : Nat) (vs : List (Nat × Word)) : (s.setTile quad tile vs).eng = s.eng := rfl
@[simp] theorem State.setTile_cols (s : State) (quad tile : Nat) (vs : List (Nat × Word)) : (s.setTile quad tile vs).cols = s.cols := rfl
@[simp] theorem State.setTile_launches (s : State) (quad tile : Nat) (vs : List (Nat × Word)) : (s.setTile quad tile vs).launches = s.launches := rfl
@[simp] theorem State.setTile_obj (s : State) (quad tile : Nat) (vs : List (Nat × Word)) : (s.setTile quad tile vs).obj = s.obj := rfl
@[simp] theorem State.setTile_recs (s : State) (quad tile : Nat) (vs : List (Nat × Word)) : (s.setTile quad tile vs).recs = s.recs := rfl
@[simp] theorem State.setTile_paging (s : State) (quad tile : Nat) (vs : List (Nat × Word)) : (s.setTile quad tile vs).paging = s.paging := rfl
@[simp] theorem State.setTile_calls (s : State) (quad tile : Nat) (vs : List (Nat × Word)) : (s.setTile quad tile vs).calls = s.calls := rfl
@[simp] theorem State.setTile_fw (s : State) (quad tile : Nat) (vs : List (Nat × Word)) : (s.setTile quad tile vs).fw = s.fw := rfl
@[simp] theorem State.setTile_holds (s : State) (quad tile : Nat) (vs : List (Nat × Word)) : (s.setTile quad tile vs).holds = s.holds := rfl
@[simp] theorem State.setTile_issued (s : State) (quad tile : Nat) (vs : List (Nat × Word)) : (s.setTile quad tile vs).issued = s.issued := rfl
@[simp] theorem State.setTile_raised (s : State) (quad tile : Nat) (vs : List (Nat × Word)) : (s.setTile quad tile vs).raised = s.raised := rfl
@[simp] theorem State.setTile_reply (s : State) (quad tile : Nat) (vs : List (Nat × Word)) : (s.setTile quad tile vs).reply = s.reply := rfl
@[simp] theorem State.setCksum_wall (s : State) (quad k : Nat) (w : Word) : (s.setCksum quad k w).wall = s.wall := rfl
@[simp] theorem State.setCksum_agenda (s : State) (quad k : Nat) (w : Word) : (s.setCksum quad k w).agenda = s.agenda := rfl
@[simp] theorem State.setCksum_cur (s : State) (quad k : Nat) (w : Word) : (s.setCksum quad k w).cur = s.cur := rfl
@[simp] theorem State.setCksum_fresh (s : State) (quad k : Nat) (w : Word) : (s.setCksum quad k w).fresh = s.fresh := rfl
@[simp] theorem State.setCksum_nextId (s : State) (quad k : Nat) (w : Word) : (s.setCksum quad k w).nextId = s.nextId := rfl
@[simp] theorem State.setCksum_coh (s : State) (quad k : Nat) (w : Word) : (s.setCksum quad k w).coh = s.coh := rfl
@[simp] theorem State.setCksum_ops (s : State) (quad k : Nat) (w : Word) : (s.setCksum quad k w).ops = s.ops := rfl
@[simp] theorem State.setCksum_eng (s : State) (quad k : Nat) (w : Word) : (s.setCksum quad k w).eng = s.eng := rfl
@[simp] theorem State.setCksum_cols (s : State) (quad k : Nat) (w : Word) : (s.setCksum quad k w).cols = s.cols := rfl
@[simp] theorem State.setCksum_launches (s : State) (quad k : Nat) (w : Word) : (s.setCksum quad k w).launches = s.launches := rfl
@[simp] theorem State.setCksum_obj (s : State) (quad k : Nat) (w : Word) : (s.setCksum quad k w).obj = s.obj := rfl
@[simp] theorem State.setCksum_recs (s : State) (quad k : Nat) (w : Word) : (s.setCksum quad k w).recs = s.recs := rfl
@[simp] theorem State.setCksum_paging (s : State) (quad k : Nat) (w : Word) : (s.setCksum quad k w).paging = s.paging := rfl
@[simp] theorem State.setCksum_calls (s : State) (quad k : Nat) (w : Word) : (s.setCksum quad k w).calls = s.calls := rfl
@[simp] theorem State.setCksum_fw (s : State) (quad k : Nat) (w : Word) : (s.setCksum quad k w).fw = s.fw := rfl
@[simp] theorem State.setCksum_holds (s : State) (quad k : Nat) (w : Word) : (s.setCksum quad k w).holds = s.holds := rfl
@[simp] theorem State.setCksum_issued (s : State) (quad k : Nat) (w : Word) : (s.setCksum quad k w).issued = s.issued := rfl
@[simp] theorem State.setCksum_raised (s : State) (quad k : Nat) (w : Word) : (s.setCksum quad k w).raised = s.raised := rfl
@[simp] theorem State.setCksum_reply (s : State) (quad k : Nat) (w : Word) : (s.setCksum quad k w).reply = s.reply := rfl
@[simp] theorem State.onEntry_wall (s : State) (id : Nat) (f : MxEntry → MxEntry) : (s.onEntry id f).wall = s.wall := rfl
@[simp] theorem State.onEntry_agenda (s : State) (id : Nat) (f : MxEntry → MxEntry) : (s.onEntry id f).agenda = s.agenda := rfl
@[simp] theorem State.onEntry_cur (s : State) (id : Nat) (f : MxEntry → MxEntry) : (s.onEntry id f).cur = s.cur := rfl
@[simp] theorem State.onEntry_fresh (s : State) (id : Nat) (f : MxEntry → MxEntry) : (s.onEntry id f).fresh = s.fresh := rfl
@[simp] theorem State.onEntry_nextId (s : State) (id : Nat) (f : MxEntry → MxEntry) : (s.onEntry id f).nextId = s.nextId := rfl
@[simp] theorem State.onEntry_store (s : State) (id : Nat) (f : MxEntry → MxEntry) : (s.onEntry id f).store = s.store := rfl
@[simp] theorem State.onEntry_coh (s : State) (id : Nat) (f : MxEntry → MxEntry) : (s.onEntry id f).coh = s.coh := rfl
@[simp] theorem State.onEntry_ops (s : State) (id : Nat) (f : MxEntry → MxEntry) : (s.onEntry id f).ops = s.ops := rfl
@[simp] theorem State.onEntry_cols (s : State) (id : Nat) (f : MxEntry → MxEntry) : (s.onEntry id f).cols = s.cols := rfl
@[simp] theorem State.onEntry_launches (s : State) (id : Nat) (f : MxEntry → MxEntry) : (s.onEntry id f).launches = s.launches := rfl
@[simp] theorem State.onEntry_obj (s : State) (id : Nat) (f : MxEntry → MxEntry) : (s.onEntry id f).obj = s.obj := rfl
@[simp] theorem State.onEntry_recs (s : State) (id : Nat) (f : MxEntry → MxEntry) : (s.onEntry id f).recs = s.recs := rfl
@[simp] theorem State.onEntry_paging (s : State) (id : Nat) (f : MxEntry → MxEntry) : (s.onEntry id f).paging = s.paging := rfl
@[simp] theorem State.onEntry_calls (s : State) (id : Nat) (f : MxEntry → MxEntry) : (s.onEntry id f).calls = s.calls := rfl
@[simp] theorem State.onEntry_fw (s : State) (id : Nat) (f : MxEntry → MxEntry) : (s.onEntry id f).fw = s.fw := rfl
@[simp] theorem State.onEntry_holds (s : State) (id : Nat) (f : MxEntry → MxEntry) : (s.onEntry id f).holds = s.holds := rfl
@[simp] theorem State.onEntry_issued (s : State) (id : Nat) (f : MxEntry → MxEntry) : (s.onEntry id f).issued = s.issued := rfl
@[simp] theorem State.onEntry_raised (s : State) (id : Nat) (f : MxEntry → MxEntry) : (s.onEntry id f).raised = s.raised := rfl
@[simp] theorem State.onEntry_reply (s : State) (id : Nat) (f : MxEntry → MxEntry) : (s.onEntry id f).reply = s.reply := rfl
@[simp] theorem State.freeEntry_wall (s : State) (id : Nat) : (s.freeEntry id).wall = s.wall := rfl
@[simp] theorem State.freeEntry_agenda (s : State) (id : Nat) : (s.freeEntry id).agenda = s.agenda := rfl
@[simp] theorem State.freeEntry_cur (s : State) (id : Nat) : (s.freeEntry id).cur = s.cur := rfl
@[simp] theorem State.freeEntry_fresh (s : State) (id : Nat) : (s.freeEntry id).fresh = s.fresh := rfl
@[simp] theorem State.freeEntry_nextId (s : State) (id : Nat) : (s.freeEntry id).nextId = s.nextId := rfl
@[simp] theorem State.freeEntry_store (s : State) (id : Nat) : (s.freeEntry id).store = s.store := rfl
@[simp] theorem State.freeEntry_coh (s : State) (id : Nat) : (s.freeEntry id).coh = s.coh := rfl
@[simp] theorem State.freeEntry_ops (s : State) (id : Nat) : (s.freeEntry id).ops = s.ops := rfl
@[simp] theorem State.freeEntry_cols (s : State) (id : Nat) : (s.freeEntry id).cols = s.cols := rfl
@[simp] theorem State.freeEntry_launches (s : State) (id : Nat) : (s.freeEntry id).launches = s.launches := rfl
@[simp] theorem State.freeEntry_obj (s : State) (id : Nat) : (s.freeEntry id).obj = s.obj := rfl
@[simp] theorem State.freeEntry_recs (s : State) (id : Nat) : (s.freeEntry id).recs = s.recs := rfl
@[simp] theorem State.freeEntry_paging (s : State) (id : Nat) : (s.freeEntry id).paging = s.paging := rfl
@[simp] theorem State.freeEntry_calls (s : State) (id : Nat) : (s.freeEntry id).calls = s.calls := rfl
@[simp] theorem State.freeEntry_fw (s : State) (id : Nat) : (s.freeEntry id).fw = s.fw := rfl
@[simp] theorem State.freeEntry_holds (s : State) (id : Nat) : (s.freeEntry id).holds = s.holds := rfl
@[simp] theorem State.freeEntry_issued (s : State) (id : Nat) : (s.freeEntry id).issued = s.issued := rfl
@[simp] theorem State.freeEntry_raised (s : State) (id : Nat) : (s.freeEntry id).raised = s.raised := rfl
@[simp] theorem State.freeEntry_reply (s : State) (id : Nat) : (s.freeEntry id).reply = s.reply := rfl
@[simp] theorem State.setRes_wall (s : State) (r : Residency) : (s.setRes r).wall = s.wall := rfl
@[simp] theorem State.setRes_agenda (s : State) (r : Residency) : (s.setRes r).agenda = s.agenda := rfl
@[simp] theorem State.setRes_cur (s : State) (r : Residency) : (s.setRes r).cur = s.cur := rfl
@[simp] theorem State.setRes_fresh (s : State) (r : Residency) : (s.setRes r).fresh = s.fresh := rfl
@[simp] theorem State.setRes_nextId (s : State) (r : Residency) : (s.setRes r).nextId = s.nextId := rfl
@[simp] theorem State.setRes_store (s : State) (r : Residency) : (s.setRes r).store = s.store := rfl
@[simp] theorem State.setRes_coh (s : State) (r : Residency) : (s.setRes r).coh = s.coh := rfl
@[simp] theorem State.setRes_ops (s : State) (r : Residency) : (s.setRes r).ops = s.ops := rfl
@[simp] theorem State.setRes_cols (s : State) (r : Residency) : (s.setRes r).cols = s.cols := rfl
@[simp] theorem State.setRes_launches (s : State) (r : Residency) : (s.setRes r).launches = s.launches := rfl
@[simp] theorem State.setRes_obj (s : State) (r : Residency) : (s.setRes r).obj = s.obj := rfl
@[simp] theorem State.setRes_recs (s : State) (r : Residency) : (s.setRes r).recs = s.recs := rfl
@[simp] theorem State.setRes_paging (s : State) (r : Residency) : (s.setRes r).paging = s.paging := rfl
@[simp] theorem State.setRes_calls (s : State) (r : Residency) : (s.setRes r).calls = s.calls := rfl
@[simp] theorem State.setRes_fw (s : State) (r : Residency) : (s.setRes r).fw = s.fw := rfl
@[simp] theorem State.setRes_holds (s : State) (r : Residency) : (s.setRes r).holds = s.holds := rfl
@[simp] theorem State.setRes_issued (s : State) (r : Residency) : (s.setRes r).issued = s.issued := rfl
@[simp] theorem State.setRes_raised (s : State) (r : Residency) : (s.setRes r).raised = s.raised := rfl
@[simp] theorem State.setRes_reply (s : State) (r : Residency) : (s.setRes r).reply = s.reply := rfl
@[simp] theorem State.spadWrite_wall (s : State) (banks : List Nat) (off : Nat) (bs : List Byte) : (s.spadWrite banks off bs).wall = s.wall := rfl
@[simp] theorem State.spadWrite_agenda (s : State) (banks : List Nat) (off : Nat) (bs : List Byte) : (s.spadWrite banks off bs).agenda = s.agenda := rfl
@[simp] theorem State.spadWrite_cur (s : State) (banks : List Nat) (off : Nat) (bs : List Byte) : (s.spadWrite banks off bs).cur = s.cur := rfl
@[simp] theorem State.spadWrite_fresh (s : State) (banks : List Nat) (off : Nat) (bs : List Byte) : (s.spadWrite banks off bs).fresh = s.fresh := rfl
@[simp] theorem State.spadWrite_nextId (s : State) (banks : List Nat) (off : Nat) (bs : List Byte) : (s.spadWrite banks off bs).nextId = s.nextId := rfl
@[simp] theorem State.spadWrite_ops (s : State) (banks : List Nat) (off : Nat) (bs : List Byte) : (s.spadWrite banks off bs).ops = s.ops := rfl
@[simp] theorem State.spadWrite_eng (s : State) (banks : List Nat) (off : Nat) (bs : List Byte) : (s.spadWrite banks off bs).eng = s.eng := rfl
@[simp] theorem State.spadWrite_cols (s : State) (banks : List Nat) (off : Nat) (bs : List Byte) : (s.spadWrite banks off bs).cols = s.cols := rfl
@[simp] theorem State.spadWrite_launches (s : State) (banks : List Nat) (off : Nat) (bs : List Byte) : (s.spadWrite banks off bs).launches = s.launches := rfl
@[simp] theorem State.spadWrite_obj (s : State) (banks : List Nat) (off : Nat) (bs : List Byte) : (s.spadWrite banks off bs).obj = s.obj := rfl
@[simp] theorem State.spadWrite_recs (s : State) (banks : List Nat) (off : Nat) (bs : List Byte) : (s.spadWrite banks off bs).recs = s.recs := rfl
@[simp] theorem State.spadWrite_paging (s : State) (banks : List Nat) (off : Nat) (bs : List Byte) : (s.spadWrite banks off bs).paging = s.paging := rfl
@[simp] theorem State.spadWrite_calls (s : State) (banks : List Nat) (off : Nat) (bs : List Byte) : (s.spadWrite banks off bs).calls = s.calls := rfl
@[simp] theorem State.spadWrite_fw (s : State) (banks : List Nat) (off : Nat) (bs : List Byte) : (s.spadWrite banks off bs).fw = s.fw := rfl
@[simp] theorem State.spadWrite_holds (s : State) (banks : List Nat) (off : Nat) (bs : List Byte) : (s.spadWrite banks off bs).holds = s.holds := rfl
@[simp] theorem State.spadWrite_issued (s : State) (banks : List Nat) (off : Nat) (bs : List Byte) : (s.spadWrite banks off bs).issued = s.issued := rfl
@[simp] theorem State.spadWrite_raised (s : State) (banks : List Nat) (off : Nat) (bs : List Byte) : (s.spadWrite banks off bs).raised = s.raised := rfl
@[simp] theorem State.spadWrite_reply (s : State) (banks : List Nat) (off : Nat) (bs : List Byte) : (s.spadWrite banks off bs).reply = s.reply := rfl
@[simp] theorem State.devWrite_wall (s : State) (own : Option Nat) (pa : Nat) (bs : List Byte) : ((s.devWrite own pa bs).1).wall = s.wall := rfl
@[simp] theorem State.devWrite_agenda (s : State) (own : Option Nat) (pa : Nat) (bs : List Byte) : ((s.devWrite own pa bs).1).agenda = s.agenda := rfl
@[simp] theorem State.devWrite_cur (s : State) (own : Option Nat) (pa : Nat) (bs : List Byte) : ((s.devWrite own pa bs).1).cur = s.cur := rfl
@[simp] theorem State.devWrite_fresh (s : State) (own : Option Nat) (pa : Nat) (bs : List Byte) : ((s.devWrite own pa bs).1).fresh = s.fresh := rfl
@[simp] theorem State.devWrite_nextId (s : State) (own : Option Nat) (pa : Nat) (bs : List Byte) : ((s.devWrite own pa bs).1).nextId = s.nextId := rfl
@[simp] theorem State.devWrite_ops (s : State) (own : Option Nat) (pa : Nat) (bs : List Byte) : ((s.devWrite own pa bs).1).ops = s.ops := rfl
@[simp] theorem State.devWrite_eng (s : State) (own : Option Nat) (pa : Nat) (bs : List Byte) : ((s.devWrite own pa bs).1).eng = s.eng := rfl
@[simp] theorem State.devWrite_cols (s : State) (own : Option Nat) (pa : Nat) (bs : List Byte) : ((s.devWrite own pa bs).1).cols = s.cols := rfl
@[simp] theorem State.devWrite_launches (s : State) (own : Option Nat) (pa : Nat) (bs : List Byte) : ((s.devWrite own pa bs).1).launches = s.launches := rfl
@[simp] theorem State.devWrite_obj (s : State) (own : Option Nat) (pa : Nat) (bs : List Byte) : ((s.devWrite own pa bs).1).obj = s.obj := rfl
@[simp] theorem State.devWrite_recs (s : State) (own : Option Nat) (pa : Nat) (bs : List Byte) : ((s.devWrite own pa bs).1).recs = s.recs := rfl
@[simp] theorem State.devWrite_paging (s : State) (own : Option Nat) (pa : Nat) (bs : List Byte) : ((s.devWrite own pa bs).1).paging = s.paging := rfl
@[simp] theorem State.devWrite_calls (s : State) (own : Option Nat) (pa : Nat) (bs : List Byte) : ((s.devWrite own pa bs).1).calls = s.calls := rfl
@[simp] theorem State.devWrite_fw (s : State) (own : Option Nat) (pa : Nat) (bs : List Byte) : ((s.devWrite own pa bs).1).fw = s.fw := rfl
@[simp] theorem State.devWrite_holds (s : State) (own : Option Nat) (pa : Nat) (bs : List Byte) : ((s.devWrite own pa bs).1).holds = s.holds := rfl
@[simp] theorem State.devWrite_issued (s : State) (own : Option Nat) (pa : Nat) (bs : List Byte) : ((s.devWrite own pa bs).1).issued = s.issued := rfl
@[simp] theorem State.devWrite_raised (s : State) (own : Option Nat) (pa : Nat) (bs : List Byte) : ((s.devWrite own pa bs).1).raised = s.raised := rfl
@[simp] theorem State.devWrite_reply (s : State) (own : Option Nat) (pa : Nat) (bs : List Byte) : ((s.devWrite own pa bs).1).reply = s.reply := rfl
@[simp] theorem State.zeroDev_wall (s : State) (pa n : Nat) : (s.zeroDev pa n).wall = s.wall := rfl
@[simp] theorem State.zeroDev_agenda (s : State) (pa n : Nat) : (s.zeroDev pa n).agenda = s.agenda := rfl
@[simp] theorem State.zeroDev_cur (s : State) (pa n : Nat) : (s.zeroDev pa n).cur = s.cur := rfl
@[simp] theorem State.zeroDev_fresh (s : State) (pa n : Nat) : (s.zeroDev pa n).fresh = s.fresh := rfl
@[simp] theorem State.zeroDev_nextId (s : State) (pa n : Nat) : (s.zeroDev pa n).nextId = s.nextId := rfl
@[simp] theorem State.zeroDev_ops (s : State) (pa n : Nat) : (s.zeroDev pa n).ops = s.ops := rfl
@[simp] theorem State.zeroDev_eng (s : State) (pa n : Nat) : (s.zeroDev pa n).eng = s.eng := rfl
@[simp] theorem State.zeroDev_cols (s : State) (pa n : Nat) : (s.zeroDev pa n).cols = s.cols := rfl
@[simp] theorem State.zeroDev_launches (s : State) (pa n : Nat) : (s.zeroDev pa n).launches = s.launches := rfl
@[simp] theorem State.zeroDev_obj (s : State) (pa n : Nat) : (s.zeroDev pa n).obj = s.obj := rfl
@[simp] theorem State.zeroDev_recs (s : State) (pa n : Nat) : (s.zeroDev pa n).recs = s.recs := rfl
@[simp] theorem State.zeroDev_paging (s : State) (pa n : Nat) : (s.zeroDev pa n).paging = s.paging := rfl
@[simp] theorem State.zeroDev_calls (s : State) (pa n : Nat) : (s.zeroDev pa n).calls = s.calls := rfl
@[simp] theorem State.zeroDev_fw (s : State) (pa n : Nat) : (s.zeroDev pa n).fw = s.fw := rfl
@[simp] theorem State.zeroDev_holds (s : State) (pa n : Nat) : (s.zeroDev pa n).holds = s.holds := rfl
@[simp] theorem State.zeroDev_issued (s : State) (pa n : Nat) : (s.zeroDev pa n).issued = s.issued := rfl
@[simp] theorem State.zeroDev_raised (s : State) (pa n : Nat) : (s.zeroDev pa n).raised = s.raised := rfl
@[simp] theorem State.zeroDev_reply (s : State) (pa n : Nat) : (s.zeroDev pa n).reply = s.reply := rfl
@[simp] theorem State.meter_wall (s : State) (part acct k n : Nat) : (s.meter part acct k n).wall = s.wall := rfl
@[simp] theorem State.meter_agenda (s : State) (part acct k n : Nat) : (s.meter part acct k n).agenda = s.agenda := rfl
@[simp] theorem State.meter_cur (s : State) (part acct k n : Nat) : (s.meter part acct k n).cur = s.cur := rfl
@[simp] theorem State.meter_fresh (s : State) (part acct k n : Nat) : (s.meter part acct k n).fresh = s.fresh := rfl
@[simp] theorem State.meter_nextId (s : State) (part acct k n : Nat) : (s.meter part acct k n).nextId = s.nextId := rfl
@[simp] theorem State.meter_store (s : State) (part acct k n : Nat) : (s.meter part acct k n).store = s.store := rfl
@[simp] theorem State.meter_coh (s : State) (part acct k n : Nat) : (s.meter part acct k n).coh = s.coh := rfl
@[simp] theorem State.meter_ops (s : State) (part acct k n : Nat) : (s.meter part acct k n).ops = s.ops := rfl
@[simp] theorem State.meter_eng (s : State) (part acct k n : Nat) : (s.meter part acct k n).eng = s.eng := rfl
@[simp] theorem State.meter_cols (s : State) (part acct k n : Nat) : (s.meter part acct k n).cols = s.cols := rfl
@[simp] theorem State.meter_launches (s : State) (part acct k n : Nat) : (s.meter part acct k n).launches = s.launches := rfl
@[simp] theorem State.meter_obj (s : State) (part acct k n : Nat) : (s.meter part acct k n).obj = s.obj := rfl
@[simp] theorem State.meter_recs (s : State) (part acct k n : Nat) : (s.meter part acct k n).recs = s.recs := rfl
@[simp] theorem State.meter_paging (s : State) (part acct k n : Nat) : (s.meter part acct k n).paging = s.paging := rfl
@[simp] theorem State.meter_calls (s : State) (part acct k n : Nat) : (s.meter part acct k n).calls = s.calls := rfl
@[simp] theorem State.meter_holds (s : State) (part acct k n : Nat) : (s.meter part acct k n).holds = s.holds := rfl
@[simp] theorem State.meter_issued (s : State) (part acct k n : Nat) : (s.meter part acct k n).issued = s.issued := rfl
@[simp] theorem State.meter_raised (s : State) (part acct k n : Nat) : (s.meter part acct k n).raised = s.raised := rfl
@[simp] theorem State.meter_reply (s : State) (part acct k n : Nat) : (s.meter part acct k n).reply = s.reply := rfl
@[simp] theorem State.setBox_wall (s : State) (b : Mailbox) : (s.setBox b).wall = s.wall := rfl
@[simp] theorem State.setBox_agenda (s : State) (b : Mailbox) : (s.setBox b).agenda = s.agenda := rfl
@[simp] theorem State.setBox_cur (s : State) (b : Mailbox) : (s.setBox b).cur = s.cur := rfl
@[simp] theorem State.setBox_fresh (s : State) (b : Mailbox) : (s.setBox b).fresh = s.fresh := rfl
@[simp] theorem State.setBox_nextId (s : State) (b : Mailbox) : (s.setBox b).nextId = s.nextId := rfl
@[simp] theorem State.setBox_store (s : State) (b : Mailbox) : (s.setBox b).store = s.store := rfl
@[simp] theorem State.setBox_coh (s : State) (b : Mailbox) : (s.setBox b).coh = s.coh := rfl
@[simp] theorem State.setBox_ops (s : State) (b : Mailbox) : (s.setBox b).ops = s.ops := rfl
@[simp] theorem State.setBox_eng (s : State) (b : Mailbox) : (s.setBox b).eng = s.eng := rfl
@[simp] theorem State.setBox_cols (s : State) (b : Mailbox) : (s.setBox b).cols = s.cols := rfl
@[simp] theorem State.setBox_launches (s : State) (b : Mailbox) : (s.setBox b).launches = s.launches := rfl
@[simp] theorem State.setBox_obj (s : State) (b : Mailbox) : (s.setBox b).obj = s.obj := rfl
@[simp] theorem State.setBox_recs (s : State) (b : Mailbox) : (s.setBox b).recs = s.recs := rfl
@[simp] theorem State.setBox_paging (s : State) (b : Mailbox) : (s.setBox b).paging = s.paging := rfl
@[simp] theorem State.setBox_calls (s : State) (b : Mailbox) : (s.setBox b).calls = s.calls := rfl
@[simp] theorem State.setBox_holds (s : State) (b : Mailbox) : (s.setBox b).holds = s.holds := rfl
@[simp] theorem State.setBox_issued (s : State) (b : Mailbox) : (s.setBox b).issued = s.issued := rfl
@[simp] theorem State.setBox_raised (s : State) (b : Mailbox) : (s.setBox b).raised = s.raised := rfl
@[simp] theorem State.setBox_reply (s : State) (b : Mailbox) : (s.setBox b).reply = s.reply := rfl
@[simp] theorem State.setLink_wall (s : State) (l : Link) : (s.setLink l).wall = s.wall := rfl
@[simp] theorem State.setLink_agenda (s : State) (l : Link) : (s.setLink l).agenda = s.agenda := rfl
@[simp] theorem State.setLink_cur (s : State) (l : Link) : (s.setLink l).cur = s.cur := rfl
@[simp] theorem State.setLink_fresh (s : State) (l : Link) : (s.setLink l).fresh = s.fresh := rfl
@[simp] theorem State.setLink_nextId (s : State) (l : Link) : (s.setLink l).nextId = s.nextId := rfl
@[simp] theorem State.setLink_store (s : State) (l : Link) : (s.setLink l).store = s.store := rfl
@[simp] theorem State.setLink_coh (s : State) (l : Link) : (s.setLink l).coh = s.coh := rfl
@[simp] theorem State.setLink_ops (s : State) (l : Link) : (s.setLink l).ops = s.ops := rfl
@[simp] theorem State.setLink_eng (s : State) (l : Link) : (s.setLink l).eng = s.eng := rfl
@[simp] theorem State.setLink_cols (s : State) (l : Link) : (s.setLink l).cols = s.cols := rfl
@[simp] theorem State.setLink_launches (s : State) (l : Link) : (s.setLink l).launches = s.launches := rfl
@[simp] theorem State.setLink_obj (s : State) (l : Link) : (s.setLink l).obj = s.obj := rfl
@[simp] theorem State.setLink_recs (s : State) (l : Link) : (s.setLink l).recs = s.recs := rfl
@[simp] theorem State.setLink_paging (s : State) (l : Link) : (s.setLink l).paging = s.paging := rfl
@[simp] theorem State.setLink_calls (s : State) (l : Link) : (s.setLink l).calls = s.calls := rfl
@[simp] theorem State.setLink_holds (s : State) (l : Link) : (s.setLink l).holds = s.holds := rfl
@[simp] theorem State.setLink_issued (s : State) (l : Link) : (s.setLink l).issued = s.issued := rfl
@[simp] theorem State.setLink_raised (s : State) (l : Link) : (s.setLink l).raised = s.raised := rfl
@[simp] theorem State.setLink_reply (s : State) (l : Link) : (s.setLink l).reply = s.reply := rfl
@[simp] theorem State.onLaunch_wall (s : State) (id : Nat) (f : Launch → Launch) : (s.onLaunch id f).wall = s.wall := rfl
@[simp] theorem State.onLaunch_agenda (s : State) (id : Nat) (f : Launch → Launch) : (s.onLaunch id f).agenda = s.agenda := rfl
@[simp] theorem State.onLaunch_cur (s : State) (id : Nat) (f : Launch → Launch) : (s.onLaunch id f).cur = s.cur := rfl
@[simp] theorem State.onLaunch_fresh (s : State) (id : Nat) (f : Launch → Launch) : (s.onLaunch id f).fresh = s.fresh := rfl
@[simp] theorem State.onLaunch_nextId (s : State) (id : Nat) (f : Launch → Launch) : (s.onLaunch id f).nextId = s.nextId := rfl
@[simp] theorem State.onLaunch_store (s : State) (id : Nat) (f : Launch → Launch) : (s.onLaunch id f).store = s.store := rfl
@[simp] theorem State.onLaunch_coh (s : State) (id : Nat) (f : Launch → Launch) : (s.onLaunch id f).coh = s.coh := rfl
@[simp] theorem State.onLaunch_ops (s : State) (id : Nat) (f : Launch → Launch) : (s.onLaunch id f).ops = s.ops := rfl
@[simp] theorem State.onLaunch_eng (s : State) (id : Nat) (f : Launch → Launch) : (s.onLaunch id f).eng = s.eng := rfl
@[simp] theorem State.onLaunch_cols (s : State) (id : Nat) (f : Launch → Launch) : (s.onLaunch id f).cols = s.cols := rfl
@[simp] theorem State.onLaunch_obj (s : State) (id : Nat) (f : Launch → Launch) : (s.onLaunch id f).obj = s.obj := rfl
@[simp] theorem State.onLaunch_recs (s : State) (id : Nat) (f : Launch → Launch) : (s.onLaunch id f).recs = s.recs := rfl
@[simp] theorem State.onLaunch_paging (s : State) (id : Nat) (f : Launch → Launch) : (s.onLaunch id f).paging = s.paging := rfl
@[simp] theorem State.onLaunch_calls (s : State) (id : Nat) (f : Launch → Launch) : (s.onLaunch id f).calls = s.calls := rfl
@[simp] theorem State.onLaunch_fw (s : State) (id : Nat) (f : Launch → Launch) : (s.onLaunch id f).fw = s.fw := rfl
@[simp] theorem State.onLaunch_holds (s : State) (id : Nat) (f : Launch → Launch) : (s.onLaunch id f).holds = s.holds := rfl
@[simp] theorem State.onLaunch_issued (s : State) (id : Nat) (f : Launch → Launch) : (s.onLaunch id f).issued = s.issued := rfl
@[simp] theorem State.onLaunch_raised (s : State) (id : Nat) (f : Launch → Launch) : (s.onLaunch id f).raised = s.raised := rfl
@[simp] theorem State.onLaunch_reply (s : State) (id : Nat) (f : Launch → Launch) : (s.onLaunch id f).reply = s.reply := rfl
@[simp] theorem State.nextCycle_agenda (s : State) : (s.nextCycle).agenda = s.agenda := rfl
@[simp] theorem State.nextCycle_cur (s : State) : (s.nextCycle).cur = s.cur := rfl
@[simp] theorem State.nextCycle_fresh (s : State) : (s.nextCycle).fresh = s.fresh := rfl
@[simp] theorem State.nextCycle_nextId (s : State) : (s.nextCycle).nextId = s.nextId := rfl
@[simp] theorem State.nextCycle_store (s : State) : (s.nextCycle).store = s.store := rfl
@[simp] theorem State.nextCycle_coh (s : State) : (s.nextCycle).coh = s.coh := rfl
@[simp] theorem State.nextCycle_ops (s : State) : (s.nextCycle).ops = s.ops := rfl
@[simp] theorem State.nextCycle_eng (s : State) : (s.nextCycle).eng = s.eng := rfl
@[simp] theorem State.nextCycle_launches (s : State) : (s.nextCycle).launches = s.launches := rfl
@[simp] theorem State.nextCycle_obj (s : State) : (s.nextCycle).obj = s.obj := rfl
@[simp] theorem State.nextCycle_recs (s : State) : (s.nextCycle).recs = s.recs := rfl
@[simp] theorem State.nextCycle_paging (s : State) : (s.nextCycle).paging = s.paging := rfl
@[simp] theorem State.nextCycle_calls (s : State) : (s.nextCycle).calls = s.calls := rfl
@[simp] theorem State.nextCycle_fw (s : State) : (s.nextCycle).fw = s.fw := rfl
@[simp] theorem State.nextCycle_holds (s : State) : (s.nextCycle).holds = s.holds := rfl
@[simp] theorem State.nextCycle_raised (s : State) : (s.nextCycle).raised = s.raised := rfl
@[simp] theorem State.nextCycle_reply (s : State) : (s.nextCycle).reply = s.reply := rfl
@[simp] theorem State.free_wall (s : State) : (s.free.2).wall = s.wall := rfl
@[simp] theorem State.free_agenda (s : State) : (s.free.2).agenda = s.agenda := rfl
@[simp] theorem State.free_cur (s : State) : (s.free.2).cur = s.cur := rfl
@[simp] theorem State.free_nextId (s : State) : (s.free.2).nextId = s.nextId := rfl
@[simp] theorem State.free_store (s : State) : (s.free.2).store = s.store := rfl
@[simp] theorem State.free_coh (s : State) : (s.free.2).coh = s.coh := rfl
@[simp] theorem State.free_ops (s : State) : (s.free.2).ops = s.ops := rfl
@[simp] theorem State.free_eng (s : State) : (s.free.2).eng = s.eng := rfl
@[simp] theorem State.free_cols (s : State) : (s.free.2).cols = s.cols := rfl
@[simp] theorem State.free_launches (s : State) : (s.free.2).launches = s.launches := rfl
@[simp] theorem State.free_obj (s : State) : (s.free.2).obj = s.obj := rfl
@[simp] theorem State.free_recs (s : State) : (s.free.2).recs = s.recs := rfl
@[simp] theorem State.free_paging (s : State) : (s.free.2).paging = s.paging := rfl
@[simp] theorem State.free_calls (s : State) : (s.free.2).calls = s.calls := rfl
@[simp] theorem State.free_fw (s : State) : (s.free.2).fw = s.fw := rfl
@[simp] theorem State.free_holds (s : State) : (s.free.2).holds = s.holds := rfl
@[simp] theorem State.free_issued (s : State) : (s.free.2).issued = s.issued := rfl
@[simp] theorem State.free_raised (s : State) : (s.free.2).raised = s.raised := rfl
@[simp] theorem State.free_reply (s : State) : (s.free.2).reply = s.reply := rfl
@[simp] theorem State.pruneHolds_wall (s : State) : (s.pruneHolds).wall = s.wall := rfl
@[simp] theorem State.pruneHolds_agenda (s : State) : (s.pruneHolds).agenda = s.agenda := rfl
@[simp] theorem State.pruneHolds_cur (s : State) : (s.pruneHolds).cur = s.cur := rfl
@[simp] theorem State.pruneHolds_fresh (s : State) : (s.pruneHolds).fresh = s.fresh := rfl
@[simp] theorem State.pruneHolds_nextId (s : State) : (s.pruneHolds).nextId = s.nextId := rfl
@[simp] theorem State.pruneHolds_store (s : State) : (s.pruneHolds).store = s.store := rfl
@[simp] theorem State.pruneHolds_coh (s : State) : (s.pruneHolds).coh = s.coh := rfl
@[simp] theorem State.pruneHolds_ops (s : State) : (s.pruneHolds).ops = s.ops := rfl
@[simp] theorem State.pruneHolds_eng (s : State) : (s.pruneHolds).eng = s.eng := rfl
@[simp] theorem State.pruneHolds_cols (s : State) : (s.pruneHolds).cols = s.cols := rfl
@[simp] theorem State.pruneHolds_launches (s : State) : (s.pruneHolds).launches = s.launches := rfl
@[simp] theorem State.pruneHolds_obj (s : State) : (s.pruneHolds).obj = s.obj := rfl
@[simp] theorem State.pruneHolds_recs (s : State) : (s.pruneHolds).recs = s.recs := rfl
@[simp] theorem State.pruneHolds_paging (s : State) : (s.pruneHolds).paging = s.paging := rfl
@[simp] theorem State.pruneHolds_calls (s : State) : (s.pruneHolds).calls = s.calls := rfl
@[simp] theorem State.pruneHolds_fw (s : State) : (s.pruneHolds).fw = s.fw := rfl
@[simp] theorem State.pruneHolds_issued (s : State) : (s.pruneHolds).issued = s.issued := rfl
@[simp] theorem State.pruneHolds_raised (s : State) : (s.pruneHolds).raised = s.raised := rfl
@[simp] theorem State.pruneHolds_reply (s : State) : (s.pruneHolds).reply = s.reply := rfl
@[simp] theorem Convoy.onLanes_sregs (v : Convoy) (ls : List Nat) (f : Nat → Lane → Lane) : (v.onLanes ls f).sregs = v.sregs := rfl
@[simp] theorem Convoy.onLanes_loads (v : Convoy) (ls : List Nat) (f : Nat → Lane → Lane) : (v.onLanes ls f).loads = v.loads := rfl
@[simp] theorem Convoy.onLanes_stores (v : Convoy) (ls : List Nat) (f : Nat → Lane → Lane) : (v.onLanes ls f).stores = v.stores := rfl
@[simp] theorem Convoy.onLanes_copies (v : Convoy) (ls : List Nat) (f : Nat → Lane → Lane) : (v.onLanes ls f).copies = v.copies := rfl
@[simp] theorem Convoy.onLanes_tileOps (v : Convoy) (ls : List Nat) (f : Nat → Lane → Lane) : (v.onLanes ls f).tileOps = v.tileOps := rfl
@[simp] theorem Convoy.onLanes_ctdev (v : Convoy) (ls : List Nat) (f : Nat → Lane → Lane) : (v.onLanes ls f).ctdev = v.ctdev := rfl
@[simp] theorem Convoy.onLanes_ctsys (v : Convoy) (ls : List Nat) (f : Nat → Lane → Lane) : (v.onLanes ls f).ctsys = v.ctsys := rfl
@[simp] theorem Convoy.onLanes_stack (v : Convoy) (ls : List Nat) (f : Nat → Lane → Lane) : (v.onLanes ls f).stack = v.stack := rfl
@[simp] theorem Convoy.onLanes_traddr (v : Convoy) (ls : List Nat) (f : Nat → Lane → Lane) : (v.onLanes ls f).traddr = v.traddr := rfl
@[simp] theorem Convoy.onLanes_ports (v : Convoy) (ls : List Nat) (f : Nat → Lane → Lane) : (v.onLanes ls f).ports = v.ports := rfl
@[simp] theorem Convoy.onLanes_books (v : Convoy) (ls : List Nat) (f : Nat → Lane → Lane) : (v.onLanes ls f).books = v.books := rfl
@[simp] theorem Convoy.onLanes_atts (v : Convoy) (ls : List Nat) (f : Nat → Lane → Lane) : (v.onLanes ls f).atts = v.atts := rfl
@[simp] theorem Convoy.onLanes_wait (v : Convoy) (ls : List Nat) (f : Nat → Lane → Lane) : (v.onLanes ls f).wait = v.wait := rfl
@[simp] theorem Convoy.onLanes_after (v : Convoy) (ls : List Nat) (f : Nat → Lane → Lane) : (v.onLanes ls f).after = v.after := rfl
@[simp] theorem Convoy.onLanes_liveCount (v : Convoy) (ls : List Nat) (f : Nat → Lane → Lane) : (v.onLanes ls f).liveCount = v.liveCount := rfl
@[simp] theorem Convoy.onLanes_perf (v : Convoy) (ls : List Nat) (f : Nat → Lane → Lane) : (v.onLanes ls f).perf = v.perf := rfl
@[simp] theorem Convoy.onLanes_quad (v : Convoy) (ls : List Nat) (f : Nat → Lane → Lane) : (v.onLanes ls f).quad = v.quad := rfl
@[simp] theorem Convoy.onLanes_firstIssue (v : Convoy) (ls : List Nat) (f : Nat → Lane → Lane) : (v.onLanes ls f).firstIssue = v.firstIssue := rfl
@[simp] theorem Convoy.onLanes_ended (v : Convoy) (ls : List Nat) (f : Nat → Lane → Lane) : (v.onLanes ls f).ended = v.ended := rfl
@[simp] theorem Convoy.onLanes_relaxedSent (v : Convoy) (ls : List Nat) (f : Nat → Lane → Lane) : (v.onLanes ls f).relaxedSent = v.relaxedSent := rfl
@[simp] theorem Convoy.onLanes_lastClause (v : Convoy) (ls : List Nat) (f : Nat → Lane → Lane) : (v.onLanes ls f).lastClause = v.lastClause := rfl
@[simp] theorem Convoy.onLanes_yieldUntil (v : Convoy) (ls : List Nat) (f : Nat → Lane → Lane) : (v.onLanes ls f).yieldUntil = v.yieldUntil := rfl
@[simp] theorem Convoy.onLanes_boundary (v : Convoy) (ls : List Nat) (f : Nat → Lane → Lane) : (v.onLanes ls f).boundary = v.boundary := rfl
@[simp] theorem Convoy.onLanes_fencing (v : Convoy) (ls : List Nat) (f : Nat → Lane → Lane) : (v.onLanes ls f).fencing = v.fencing := rfl
@[simp] theorem Convoy.onLanes_arrived (v : Convoy) (ls : List Nat) (f : Nat → Lane → Lane) : (v.onLanes ls f).arrived = v.arrived := rfl
@[simp] theorem Convoy.onLane_sregs (v : Convoy) (l : Nat) (f : Lane → Lane) : (v.onLane l f).sregs = v.sregs := rfl
@[simp] theorem Convoy.onLane_loads (v : Convoy) (l : Nat) (f : Lane → Lane) : (v.onLane l f).loads = v.loads := rfl
@[simp] theorem Convoy.onLane_stores (v : Convoy) (l : Nat) (f : Lane → Lane) : (v.onLane l f).stores = v.stores := rfl
@[simp] theorem Convoy.onLane_copies (v : Convoy) (l : Nat) (f : Lane → Lane) : (v.onLane l f).copies = v.copies := rfl
@[simp] theorem Convoy.onLane_tileOps (v : Convoy) (l : Nat) (f : Lane → Lane) : (v.onLane l f).tileOps = v.tileOps := rfl
@[simp] theorem Convoy.onLane_ctdev (v : Convoy) (l : Nat) (f : Lane → Lane) : (v.onLane l f).ctdev = v.ctdev := rfl
@[simp] theorem Convoy.onLane_ctsys (v : Convoy) (l : Nat) (f : Lane → Lane) : (v.onLane l f).ctsys = v.ctsys := rfl
@[simp] theorem Convoy.onLane_stack (v : Convoy) (l : Nat) (f : Lane → Lane) : (v.onLane l f).stack = v.stack := rfl
@[simp] theorem Convoy.onLane_traddr (v : Convoy) (l : Nat) (f : Lane → Lane) : (v.onLane l f).traddr = v.traddr := rfl
@[simp] theorem Convoy.onLane_ports (v : Convoy) (l : Nat) (f : Lane → Lane) : (v.onLane l f).ports = v.ports := rfl
@[simp] theorem Convoy.onLane_books (v : Convoy) (l : Nat) (f : Lane → Lane) : (v.onLane l f).books = v.books := rfl
@[simp] theorem Convoy.onLane_atts (v : Convoy) (l : Nat) (f : Lane → Lane) : (v.onLane l f).atts = v.atts := rfl
@[simp] theorem Convoy.onLane_wait (v : Convoy) (l : Nat) (f : Lane → Lane) : (v.onLane l f).wait = v.wait := rfl
@[simp] theorem Convoy.onLane_after (v : Convoy) (l : Nat) (f : Lane → Lane) : (v.onLane l f).after = v.after := rfl
@[simp] theorem Convoy.onLane_liveCount (v : Convoy) (l : Nat) (f : Lane → Lane) : (v.onLane l f).liveCount = v.liveCount := rfl
@[simp] theorem Convoy.onLane_perf (v : Convoy) (l : Nat) (f : Lane → Lane) : (v.onLane l f).perf = v.perf := rfl
@[simp] theorem Convoy.onLane_quad (v : Convoy) (l : Nat) (f : Lane → Lane) : (v.onLane l f).quad = v.quad := rfl
@[simp] theorem Convoy.onLane_firstIssue (v : Convoy) (l : Nat) (f : Lane → Lane) : (v.onLane l f).firstIssue = v.firstIssue := rfl
@[simp] theorem Convoy.onLane_ended (v : Convoy) (l : Nat) (f : Lane → Lane) : (v.onLane l f).ended = v.ended := rfl
@[simp] theorem Convoy.onLane_relaxedSent (v : Convoy) (l : Nat) (f : Lane → Lane) : (v.onLane l f).relaxedSent = v.relaxedSent := rfl
@[simp] theorem Convoy.onLane_lastClause (v : Convoy) (l : Nat) (f : Lane → Lane) : (v.onLane l f).lastClause = v.lastClause := rfl
@[simp] theorem Convoy.onLane_yieldUntil (v : Convoy) (l : Nat) (f : Lane → Lane) : (v.onLane l f).yieldUntil = v.yieldUntil := rfl
@[simp] theorem Convoy.onLane_boundary (v : Convoy) (l : Nat) (f : Lane → Lane) : (v.onLane l f).boundary = v.boundary := rfl
@[simp] theorem Convoy.onLane_fencing (v : Convoy) (l : Nat) (f : Lane → Lane) : (v.onLane l f).fencing = v.fencing := rfl
@[simp] theorem Convoy.onLane_arrived (v : Convoy) (l : Nat) (f : Lane → Lane) : (v.onLane l f).arrived = v.arrived := rfl
@[simp] theorem Convoy.setSreg_lanes (v : Convoy) (n : Nat) (w : Word) : (v.setSreg n w).lanes = v.lanes := rfl
@[simp] theorem Convoy.setSreg_loads (v : Convoy) (n : Nat) (w : Word) : (v.setSreg n w).loads = v.loads := rfl
@[simp] theorem Convoy.setSreg_stores (v : Convoy) (n : Nat) (w : Word) : (v.setSreg n w).stores = v.stores := rfl
@[simp] theorem Convoy.setSreg_copies (v : Convoy) (n : Nat) (w : Word) : (v.setSreg n w).copies = v.copies := rfl
@[simp] theorem Convoy.setSreg_tileOps (v : Convoy) (n : Nat) (w : Word) : (v.setSreg n w).tileOps = v.tileOps := rfl
@[simp] theorem Convoy.setSreg_ctdev (v : Convoy) (n : Nat) (w : Word) : (v.setSreg n w).ctdev = v.ctdev := rfl
@[simp] theorem Convoy.setSreg_ctsys (v : Convoy) (n : Nat) (w : Word) : (v.setSreg n w).ctsys = v.ctsys := rfl
@[simp] theorem Convoy.setSreg_stack (v : Convoy) (n : Nat) (w : Word) : (v.setSreg n w).stack = v.stack := rfl
@[simp] theorem Convoy.setSreg_traddr (v : Convoy) (n : Nat) (w : Word) : (v.setSreg n w).traddr = v.traddr := rfl
@[simp] theorem Convoy.setSreg_ports (v : Convoy) (n : Nat) (w : Word) : (v.setSreg n w).ports = v.ports := rfl
@[simp] theorem Convoy.setSreg_books (v : Convoy) (n : Nat) (w : Word) : (v.setSreg n w).books = v.books := rfl
@[simp] theorem Convoy.setSreg_atts (v : Convoy) (n : Nat) (w : Word) : (v.setSreg n w).atts = v.atts := rfl
@[simp] theorem Convoy.setSreg_wait (v : Convoy) (n : Nat) (w : Word) : (v.setSreg n w).wait = v.wait := rfl
@[simp] theorem Convoy.setSreg_after (v : Convoy) (n : Nat) (w : Word) : (v.setSreg n w).after = v.after := rfl
@[simp] theorem Convoy.setSreg_liveCount (v : Convoy) (n : Nat) (w : Word) : (v.setSreg n w).liveCount = v.liveCount := rfl
@[simp] theorem Convoy.setSreg_perf (v : Convoy) (n : Nat) (w : Word) : (v.setSreg n w).perf = v.perf := rfl
@[simp] theorem Convoy.setSreg_quad (v : Convoy) (n : Nat) (w : Word) : (v.setSreg n w).quad = v.quad := rfl
@[simp] theorem Convoy.setSreg_firstIssue (v : Convoy) (n : Nat) (w : Word) : (v.setSreg n w).firstIssue = v.firstIssue := rfl
@[simp] theorem Convoy.setSreg_ended (v : Convoy) (n : Nat) (w : Word) : (v.setSreg n w).ended = v.ended := rfl
@[simp] theorem Convoy.setSreg_relaxedSent (v : Convoy) (n : Nat) (w : Word) : (v.setSreg n w).relaxedSent = v.relaxedSent := rfl
@[simp] theorem Convoy.setSreg_lastClause (v : Convoy) (n : Nat) (w : Word) : (v.setSreg n w).lastClause = v.lastClause := rfl
@[simp] theorem Convoy.setSreg_yieldUntil (v : Convoy) (n : Nat) (w : Word) : (v.setSreg n w).yieldUntil = v.yieldUntil := rfl
@[simp] theorem Convoy.setSreg_boundary (v : Convoy) (n : Nat) (w : Word) : (v.setSreg n w).boundary = v.boundary := rfl
@[simp] theorem Convoy.setSreg_fencing (v : Convoy) (n : Nat) (w : Word) : (v.setSreg n w).fencing = v.fencing := rfl
@[simp] theorem Convoy.setSreg_arrived (v : Convoy) (n : Nat) (w : Word) : (v.setSreg n w).arrived = v.arrived := rfl
@[simp] theorem Convoy.setPort_lanes (v : Convoy) (n : Nat) (p : Port) : (v.setPort n p).lanes = v.lanes := rfl
@[simp] theorem Convoy.setPort_sregs (v : Convoy) (n : Nat) (p : Port) : (v.setPort n p).sregs = v.sregs := rfl
@[simp] theorem Convoy.setPort_loads (v : Convoy) (n : Nat) (p : Port) : (v.setPort n p).loads = v.loads := rfl
@[simp] theorem Convoy.setPort_stores (v : Convoy) (n : Nat) (p : Port) : (v.setPort n p).stores = v.stores := rfl
@[simp] theorem Convoy.setPort_copies (v : Convoy) (n : Nat) (p : Port) : (v.setPort n p).copies = v.copies := rfl
@[simp] theorem Convoy.setPort_tileOps (v : Convoy) (n : Nat) (p : Port) : (v.setPort n p).tileOps = v.tileOps := rfl
@[simp] theorem Convoy.setPort_ctdev (v : Convoy) (n : Nat) (p : Port) : (v.setPort n p).ctdev = v.ctdev := rfl
@[simp] theorem Convoy.setPort_ctsys (v : Convoy) (n : Nat) (p : Port) : (v.setPort n p).ctsys = v.ctsys := rfl
@[simp] theorem Convoy.setPort_stack (v : Convoy) (n : Nat) (p : Port) : (v.setPort n p).stack = v.stack := rfl
@[simp] theorem Convoy.setPort_traddr (v : Convoy) (n : Nat) (p : Port) : (v.setPort n p).traddr = v.traddr := rfl
@[simp] theorem Convoy.setPort_books (v : Convoy) (n : Nat) (p : Port) : (v.setPort n p).books = v.books := rfl
@[simp] theorem Convoy.setPort_atts (v : Convoy) (n : Nat) (p : Port) : (v.setPort n p).atts = v.atts := rfl
@[simp] theorem Convoy.setPort_wait (v : Convoy) (n : Nat) (p : Port) : (v.setPort n p).wait = v.wait := rfl
@[simp] theorem Convoy.setPort_after (v : Convoy) (n : Nat) (p : Port) : (v.setPort n p).after = v.after := rfl
@[simp] theorem Convoy.setPort_liveCount (v : Convoy) (n : Nat) (p : Port) : (v.setPort n p).liveCount = v.liveCount := rfl
@[simp] theorem Convoy.setPort_perf (v : Convoy) (n : Nat) (p : Port) : (v.setPort n p).perf = v.perf := rfl
@[simp] theorem Convoy.setPort_quad (v : Convoy) (n : Nat) (p : Port) : (v.setPort n p).quad = v.quad := rfl
@[simp] theorem Convoy.setPort_firstIssue (v : Convoy) (n : Nat) (p : Port) : (v.setPort n p).firstIssue = v.firstIssue := rfl
@[simp] theorem Convoy.setPort_ended (v : Convoy) (n : Nat) (p : Port) : (v.setPort n p).ended = v.ended := rfl
@[simp] theorem Convoy.setPort_relaxedSent (v : Convoy) (n : Nat) (p : Port) : (v.setPort n p).relaxedSent = v.relaxedSent := rfl
@[simp] theorem Convoy.setPort_lastClause (v : Convoy) (n : Nat) (p : Port) : (v.setPort n p).lastClause = v.lastClause := rfl
@[simp] theorem Convoy.setPort_yieldUntil (v : Convoy) (n : Nat) (p : Port) : (v.setPort n p).yieldUntil = v.yieldUntil := rfl
@[simp] theorem Convoy.setPort_boundary (v : Convoy) (n : Nat) (p : Port) : (v.setPort n p).boundary = v.boundary := rfl
@[simp] theorem Convoy.setPort_fencing (v : Convoy) (n : Nat) (p : Port) : (v.setPort n p).fencing = v.fencing := rfl
@[simp] theorem Convoy.setPort_arrived (v : Convoy) (n : Nat) (p : Port) : (v.setPort n p).arrived = v.arrived := rfl
@[simp] theorem Convoy.discard_lanes (v : Convoy) : (v.discard).lanes = v.lanes := rfl
@[simp] theorem Convoy.discard_sregs (v : Convoy) : (v.discard).sregs = v.sregs := rfl
@[simp] theorem Convoy.discard_loads (v : Convoy) : (v.discard).loads = v.loads := rfl
@[simp] theorem Convoy.discard_stores (v : Convoy) : (v.discard).stores = v.stores := rfl
@[simp] theorem Convoy.discard_copies (v : Convoy) : (v.discard).copies = v.copies := rfl
@[simp] theorem Convoy.discard_tileOps (v : Convoy) : (v.discard).tileOps = v.tileOps := rfl
@[simp] theorem Convoy.discard_ctdev (v : Convoy) : (v.discard).ctdev = v.ctdev := rfl
@[simp] theorem Convoy.discard_ctsys (v : Convoy) : (v.discard).ctsys = v.ctsys := rfl
@[simp] theorem Convoy.discard_stack (v : Convoy) : (v.discard).stack = v.stack := rfl
@[simp] theorem Convoy.discard_traddr (v : Convoy) : (v.discard).traddr = v.traddr := rfl
@[simp] theorem Convoy.discard_books (v : Convoy) : (v.discard).books = v.books := rfl
@[simp] theorem Convoy.discard_atts (v : Convoy) : (v.discard).atts = v.atts := rfl
@[simp] theorem Convoy.discard_wait (v : Convoy) : (v.discard).wait = v.wait := rfl
@[simp] theorem Convoy.discard_after (v : Convoy) : (v.discard).after = v.after := rfl
@[simp] theorem Convoy.discard_liveCount (v : Convoy) : (v.discard).liveCount = v.liveCount := rfl
@[simp] theorem Convoy.discard_perf (v : Convoy) : (v.discard).perf = v.perf := rfl
@[simp] theorem Convoy.discard_quad (v : Convoy) : (v.discard).quad = v.quad := rfl
@[simp] theorem Convoy.discard_firstIssue (v : Convoy) : (v.discard).firstIssue = v.firstIssue := rfl
@[simp] theorem Convoy.discard_ended (v : Convoy) : (v.discard).ended = v.ended := rfl
@[simp] theorem Convoy.discard_relaxedSent (v : Convoy) : (v.discard).relaxedSent = v.relaxedSent := rfl
@[simp] theorem Convoy.discard_lastClause (v : Convoy) : (v.discard).lastClause = v.lastClause := rfl
@[simp] theorem Convoy.discard_yieldUntil (v : Convoy) : (v.discard).yieldUntil = v.yieldUntil := rfl
@[simp] theorem Convoy.discard_boundary (v : Convoy) : (v.discard).boundary = v.boundary := rfl
@[simp] theorem Convoy.discard_fencing (v : Convoy) : (v.discard).fencing = v.fencing := rfl
@[simp] theorem Convoy.count_lanes (v : Convoy) (k n : Nat) : (v.count k n).lanes = v.lanes := rfl
@[simp] theorem Convoy.count_sregs (v : Convoy) (k n : Nat) : (v.count k n).sregs = v.sregs := rfl
@[simp] theorem Convoy.count_loads (v : Convoy) (k n : Nat) : (v.count k n).loads = v.loads := rfl
@[simp] theorem Convoy.count_stores (v : Convoy) (k n : Nat) : (v.count k n).stores = v.stores := rfl
@[simp] theorem Convoy.count_copies (v : Convoy) (k n : Nat) : (v.count k n).copies = v.copies := rfl
@[simp] theorem Convoy.count_tileOps (v : Convoy) (k n : Nat) : (v.count k n).tileOps = v.tileOps := rfl
@[simp] theorem Convoy.count_ctdev (v : Convoy) (k n : Nat) : (v.count k n).ctdev = v.ctdev := rfl
@[simp] theorem Convoy.count_ctsys (v : Convoy) (k n : Nat) : (v.count k n).ctsys = v.ctsys := rfl
@[simp] theorem Convoy.count_stack (v : Convoy) (k n : Nat) : (v.count k n).stack = v.stack := rfl
@[simp] theorem Convoy.count_traddr (v : Convoy) (k n : Nat) : (v.count k n).traddr = v.traddr := rfl
@[simp] theorem Convoy.count_ports (v : Convoy) (k n : Nat) : (v.count k n).ports = v.ports := rfl
@[simp] theorem Convoy.count_books (v : Convoy) (k n : Nat) : (v.count k n).books = v.books := rfl
@[simp] theorem Convoy.count_atts (v : Convoy) (k n : Nat) : (v.count k n).atts = v.atts := rfl
@[simp] theorem Convoy.count_wait (v : Convoy) (k n : Nat) : (v.count k n).wait = v.wait := rfl
@[simp] theorem Convoy.count_after (v : Convoy) (k n : Nat) : (v.count k n).after = v.after := rfl
@[simp] theorem Convoy.count_liveCount (v : Convoy) (k n : Nat) : (v.count k n).liveCount = v.liveCount := rfl
@[simp] theorem Convoy.count_quad (v : Convoy) (k n : Nat) : (v.count k n).quad = v.quad := rfl
@[simp] theorem Convoy.count_firstIssue (v : Convoy) (k n : Nat) : (v.count k n).firstIssue = v.firstIssue := rfl
@[simp] theorem Convoy.count_ended (v : Convoy) (k n : Nat) : (v.count k n).ended = v.ended := rfl
@[simp] theorem Convoy.count_relaxedSent (v : Convoy) (k n : Nat) : (v.count k n).relaxedSent = v.relaxedSent := rfl
@[simp] theorem Convoy.count_lastClause (v : Convoy) (k n : Nat) : (v.count k n).lastClause = v.lastClause := rfl
@[simp] theorem Convoy.count_yieldUntil (v : Convoy) (k n : Nat) : (v.count k n).yieldUntil = v.yieldUntil := rfl
@[simp] theorem Convoy.count_boundary (v : Convoy) (k n : Nat) : (v.count k n).boundary = v.boundary := rfl
@[simp] theorem Convoy.count_fencing (v : Convoy) (k n : Nat) : (v.count k n).fencing = v.fencing := rfl
@[simp] theorem Convoy.count_arrived (v : Convoy) (k n : Nat) : (v.count k n).arrived = v.arrived := rfl
@[simp] theorem Convoy.deschedule_lanes (v : Convoy) (x : Ctx) (k : WaitKind) (d : Option Nat) : (v.deschedule x k d).lanes = v.lanes := rfl
@[simp] theorem Convoy.deschedule_sregs (v : Convoy) (x : Ctx) (k : WaitKind) (d : Option Nat) : (v.deschedule x k d).sregs = v.sregs := rfl
@[simp] theorem Convoy.deschedule_loads (v : Convoy) (x : Ctx) (k : WaitKind) (d : Option Nat) : (v.deschedule x k d).loads = v.loads := rfl
@[simp] theorem Convoy.deschedule_stores (v : Convoy) (x : Ctx) (k : WaitKind) (d : Option Nat) : (v.deschedule x k d).stores = v.stores := rfl
@[simp] theorem Convoy.deschedule_copies (v : Convoy) (x : Ctx) (k : WaitKind) (d : Option Nat) : (v.deschedule x k d).copies = v.copies := rfl
@[simp] theorem Convoy.deschedule_tileOps (v : Convoy) (x : Ctx) (k : WaitKind) (d : Option Nat) : (v.deschedule x k d).tileOps = v.tileOps := rfl
@[simp] theorem Convoy.deschedule_ctdev (v : Convoy) (x : Ctx) (k : WaitKind) (d : Option Nat) : (v.deschedule x k d).ctdev = v.ctdev := rfl
@[simp] theorem Convoy.deschedule_ctsys (v : Convoy) (x : Ctx) (k : WaitKind) (d : Option Nat) : (v.deschedule x k d).ctsys = v.ctsys := rfl
@[simp] theorem Convoy.deschedule_stack (v : Convoy) (x : Ctx) (k : WaitKind) (d : Option Nat) : (v.deschedule x k d).stack = v.stack := rfl
@[simp] theorem Convoy.deschedule_traddr (v : Convoy) (x : Ctx) (k : WaitKind) (d : Option Nat) : (v.deschedule x k d).traddr = v.traddr := rfl
@[simp] theorem Convoy.deschedule_ports (v : Convoy) (x : Ctx) (k : WaitKind) (d : Option Nat) : (v.deschedule x k d).ports = v.ports := rfl
@[simp] theorem Convoy.deschedule_books (v : Convoy) (x : Ctx) (k : WaitKind) (d : Option Nat) : (v.deschedule x k d).books = v.books := rfl
@[simp] theorem Convoy.deschedule_atts (v : Convoy) (x : Ctx) (k : WaitKind) (d : Option Nat) : (v.deschedule x k d).atts = v.atts := rfl
@[simp] theorem Convoy.deschedule_after (v : Convoy) (x : Ctx) (k : WaitKind) (d : Option Nat) : (v.deschedule x k d).after = v.after := rfl
@[simp] theorem Convoy.deschedule_liveCount (v : Convoy) (x : Ctx) (k : WaitKind) (d : Option Nat) : (v.deschedule x k d).liveCount = v.liveCount := rfl
@[simp] theorem Convoy.deschedule_perf (v : Convoy) (x : Ctx) (k : WaitKind) (d : Option Nat) : (v.deschedule x k d).perf = v.perf := rfl
@[simp] theorem Convoy.deschedule_quad (v : Convoy) (x : Ctx) (k : WaitKind) (d : Option Nat) : (v.deschedule x k d).quad = v.quad := rfl
@[simp] theorem Convoy.deschedule_firstIssue (v : Convoy) (x : Ctx) (k : WaitKind) (d : Option Nat) : (v.deschedule x k d).firstIssue = v.firstIssue := rfl
@[simp] theorem Convoy.deschedule_ended (v : Convoy) (x : Ctx) (k : WaitKind) (d : Option Nat) : (v.deschedule x k d).ended = v.ended := rfl
@[simp] theorem Convoy.deschedule_relaxedSent (v : Convoy) (x : Ctx) (k : WaitKind) (d : Option Nat) : (v.deschedule x k d).relaxedSent = v.relaxedSent := rfl
@[simp] theorem Convoy.deschedule_lastClause (v : Convoy) (x : Ctx) (k : WaitKind) (d : Option Nat) : (v.deschedule x k d).lastClause = v.lastClause := rfl
@[simp] theorem Convoy.deschedule_yieldUntil (v : Convoy) (x : Ctx) (k : WaitKind) (d : Option Nat) : (v.deschedule x k d).yieldUntil = v.yieldUntil := rfl
@[simp] theorem Convoy.deschedule_boundary (v : Convoy) (x : Ctx) (k : WaitKind) (d : Option Nat) : (v.deschedule x k d).boundary = v.boundary := rfl
@[simp] theorem Convoy.deschedule_arrived (v : Convoy) (x : Ctx) (k : WaitKind) (d : Option Nat) : (v.deschedule x k d).arrived = v.arrived := rfl
@[simp] theorem Lane.setReg_pc (l : Lane) (n : Nat) (w : Word) : (l.setReg n w).pc = l.pc := rfl
@[simp] theorem Lane.setReg_live (l : Lane) (n : Nat) (w : Word) : (l.setReg n w).live = l.live := rfl
@[simp] theorem Lane.setReg_split (l : Lane) (n : Nat) (w : Word) : (l.setReg n w).split = l.split := rfl
@[simp] theorem Lane.setReg_lnk (l : Lane) (n : Nat) (w : Word) : (l.setReg n w).lnk = l.lnk := rfl
@[simp] theorem Lane.setReg_trpc (l : Lane) (n : Nat) (w : Word) : (l.setReg n w).trpc = l.trpc := rfl
@[simp] theorem Lane.setReg_trap (l : Lane) (n : Nat) (w : Word) : (l.setReg n w).trap = l.trap := rfl
@[simp] theorem Lane.setReg_fault (l : Lane) (n : Nat) (w : Word) : (l.setReg n w).fault = l.fault := rfl
@[simp] theorem Lane.setReg_preds (l : Lane) (n : Nat) (w : Word) : (l.setReg n w).preds = l.preds := rfl
@[simp] theorem Lane.setReg_wide (l : Lane) (n : Nat) (w : Word) : (l.setReg n w).wide = l.wide := rfl
@[simp] theorem Lane.setReg_mn (l : Lane) (n : Nat) (w : Word) : (l.setReg n w).mn = l.mn := rfl
@[simp] theorem Lane.setReg_tile (l : Lane) (n : Nat) (w : Word) : (l.setReg n w).tile = l.tile := rfl
@[simp] theorem Lane.setReg_tx (l : Lane) (n : Nat) (w : Word) : (l.setReg n w).tx = l.tx := rfl
@[simp] theorem Lane.setReg_ty (l : Lane) (n : Nat) (w : Word) : (l.setReg n w).ty = l.ty := rfl
@[simp] theorem Lane.setReg_exLo (l : Lane) (n : Nat) (w : Word) : (l.setReg n w).exLo = l.exLo := rfl
@[simp] theorem Lane.setReg_exHi (l : Lane) (n : Nat) (w : Word) : (l.setReg n w).exHi = l.exHi := rfl
@[simp] theorem Lane.setReg_eyLo (l : Lane) (n : Nat) (w : Word) : (l.setReg n w).eyLo = l.eyLo := rfl
@[simp] theorem Lane.setReg_eyHi (l : Lane) (n : Nat) (w : Word) : (l.setReg n w).eyHi = l.eyHi := rfl
@[simp] theorem Lane.setReg_edges (l : Lane) (n : Nat) (w : Word) : (l.setReg n w).edges = l.edges := rfl
@[simp] theorem Lane.setReg_fills (l : Lane) (n : Nat) (w : Word) : (l.setReg n w).fills = l.fills := rfl
@[simp] theorem State.dropClause_wall (s : State) (x : Ctx) : (s.dropClause x).wall = s.wall := rfl
@[simp] theorem State.releasePorts_wall (s : State) (col cv : Nat) : (s.releasePorts col cv).wall = s.wall := by unfold State.releasePorts; dsimp only; split <;> rfl
@[simp] theorem State.dropClause_agenda (s : State) (x : Ctx) : (s.dropClause x).agenda = s.agenda := rfl
@[simp] theorem State.releasePorts_agenda (s : State) (col cv : Nat) : (s.releasePorts col cv).agenda = s.agenda := by unfold State.releasePorts; dsimp only; split <;> rfl
@[simp] theorem State.dropClause_cur (s : State) (x : Ctx) : (s.dropClause x).cur = s.cur := rfl
@[simp] theorem State.releasePorts_cur (s : State) (col cv : Nat) : (s.releasePorts col cv).cur = s.cur := by unfold State.releasePorts; dsimp only; split <;> rfl
@[simp] theorem State.dropClause_fresh (s : State) (x : Ctx) : (s.dropClause x).fresh = s.fresh := rfl
@[simp] theorem State.releasePorts_fresh (s : State) (col cv : Nat) : (s.releasePorts col cv).fresh = s.fresh := by unfold State.releasePorts; dsimp only; split <;> rfl
@[simp] theorem State.dropClause_nextId (s : State) (x : Ctx) : (s.dropClause x).nextId = s.nextId := rfl
@[simp] theorem State.releasePorts_nextId (s : State) (col cv : Nat) : (s.releasePorts col cv).nextId = s.nextId := by unfold State.releasePorts; dsimp only; split <;> rfl
@[simp] theorem State.dropClause_store (s : State) (x : Ctx) : (s.dropClause x).store = s.store := rfl
@[simp] theorem State.releasePorts_store (s : State) (col cv : Nat) : (s.releasePorts col cv).store = s.store := by unfold State.releasePorts; dsimp only; split <;> rfl
@[simp] theorem State.dropClause_coh (s : State) (x : Ctx) : (s.dropClause x).coh = s.coh := rfl
@[simp] theorem State.releasePorts_coh (s : State) (col cv : Nat) : (s.releasePorts col cv).coh = s.coh := by unfold State.releasePorts; dsimp only; split <;> rfl
@[simp] theorem State.dropClause_ops (s : State) (x : Ctx) : (s.dropClause x).ops = s.ops := rfl
@[simp] theorem State.releasePorts_ops (s : State) (col cv : Nat) : (s.releasePorts col cv).ops = s.ops := by unfold State.releasePorts; dsimp only; split <;> rfl
@[simp] theorem State.dropClause_eng (s : State) (x : Ctx) : (s.dropClause x).eng = s.eng := rfl
@[simp] theorem State.releasePorts_eng (s : State) (col cv : Nat) : (s.releasePorts col cv).eng = s.eng := by unfold State.releasePorts; dsimp only; split <;> rfl
@[simp] theorem State.dropClause_launches (s : State) (x : Ctx) : (s.dropClause x).launches = s.launches := rfl
@[simp] theorem State.releasePorts_launches (s : State) (col cv : Nat) : (s.releasePorts col cv).launches = s.launches := by unfold State.releasePorts; dsimp only; split <;> rfl
@[simp] theorem State.dropClause_obj (s : State) (x : Ctx) : (s.dropClause x).obj = s.obj := rfl
@[simp] theorem State.releasePorts_obj (s : State) (col cv : Nat) : (s.releasePorts col cv).obj = s.obj := by unfold State.releasePorts; dsimp only; split <;> rfl
@[simp] theorem State.dropClause_recs (s : State) (x : Ctx) : (s.dropClause x).recs = s.recs := rfl
@[simp] theorem State.releasePorts_recs (s : State) (col cv : Nat) : (s.releasePorts col cv).recs = s.recs := by unfold State.releasePorts; dsimp only; split <;> rfl
@[simp] theorem State.dropClause_paging (s : State) (x : Ctx) : (s.dropClause x).paging = s.paging := rfl
@[simp] theorem State.releasePorts_paging (s : State) (col cv : Nat) : (s.releasePorts col cv).paging = s.paging := by unfold State.releasePorts; dsimp only; split <;> rfl
@[simp] theorem State.dropClause_calls (s : State) (x : Ctx) : (s.dropClause x).calls = s.calls := rfl
@[simp] theorem State.releasePorts_calls (s : State) (col cv : Nat) : (s.releasePorts col cv).calls = s.calls := by unfold State.releasePorts; dsimp only; split <;> rfl
@[simp] theorem State.dropClause_fw (s : State) (x : Ctx) : (s.dropClause x).fw = s.fw := rfl
@[simp] theorem State.releasePorts_fw (s : State) (col cv : Nat) : (s.releasePorts col cv).fw = s.fw := by unfold State.releasePorts; dsimp only; split <;> rfl
@[simp] theorem State.dropClause_issued (s : State) (x : Ctx) : (s.dropClause x).issued = s.issued := rfl
@[simp] theorem State.releasePorts_issued (s : State) (col cv : Nat) : (s.releasePorts col cv).issued = s.issued := by unfold State.releasePorts; dsimp only; split <;> rfl
@[simp] theorem State.dropClause_raised (s : State) (x : Ctx) : (s.dropClause x).raised = s.raised := rfl
@[simp] theorem State.releasePorts_raised (s : State) (col cv : Nat) : (s.releasePorts col cv).raised = s.raised := by unfold State.releasePorts; dsimp only; split <;> rfl
@[simp] theorem State.dropClause_reply (s : State) (x : Ctx) : (s.dropClause x).reply = s.reply := rfl
@[simp] theorem State.releasePorts_reply (s : State) (col cv : Nat) : (s.releasePorts col cv).reply = s.reply := by unfold State.releasePorts; dsimp only; split <;> rfl
@[simp] theorem Lane.setPred_pc (l : Lane) (n : Nat) (t : Tri) : (l.setPred n t).pc = l.pc := by unfold Lane.setPred; split <;> rfl
@[simp] theorem Lane.setPred_live (l : Lane) (n : Nat) (t : Tri) : (l.setPred n t).live = l.live := by unfold Lane.setPred; split <;> rfl
@[simp] theorem Lane.setPred_split (l : Lane) (n : Nat) (t : Tri) : (l.setPred n t).split = l.split := by unfold Lane.setPred; split <;> rfl
@[simp] theorem Lane.setPred_lnk (l : Lane) (n : Nat) (t : Tri) : (l.setPred n t).lnk = l.lnk := by unfold Lane.setPred; split <;> rfl
@[simp] theorem Lane.setPred_trpc (l : Lane) (n : Nat) (t : Tri) : (l.setPred n t).trpc = l.trpc := by unfold Lane.setPred; split <;> rfl
@[simp] theorem Lane.setPred_trap (l : Lane) (n : Nat) (t : Tri) : (l.setPred n t).trap = l.trap := by unfold Lane.setPred; split <;> rfl
@[simp] theorem Lane.setPred_fault (l : Lane) (n : Nat) (t : Tri) : (l.setPred n t).fault = l.fault := by unfold Lane.setPred; split <;> rfl
@[simp] theorem Lane.setPred_regs (l : Lane) (n : Nat) (t : Tri) : (l.setPred n t).regs = l.regs := by unfold Lane.setPred; split <;> rfl
@[simp] theorem Lane.setPred_wide (l : Lane) (n : Nat) (t : Tri) : (l.setPred n t).wide = l.wide := by unfold Lane.setPred; split <;> rfl
@[simp] theorem Lane.setPred_mn (l : Lane) (n : Nat) (t : Tri) : (l.setPred n t).mn = l.mn := by unfold Lane.setPred; split <;> rfl
@[simp] theorem Lane.setPred_tile (l : Lane) (n : Nat) (t : Tri) : (l.setPred n t).tile = l.tile := by unfold Lane.setPred; split <;> rfl
@[simp] theorem Lane.setPred_tx (l : Lane) (n : Nat) (t : Tri) : (l.setPred n t).tx = l.tx := by unfold Lane.setPred; split <;> rfl
@[simp] theorem Lane.setPred_ty (l : Lane) (n : Nat) (t : Tri) : (l.setPred n t).ty = l.ty := by unfold Lane.setPred; split <;> rfl
@[simp] theorem Lane.setPred_exLo (l : Lane) (n : Nat) (t : Tri) : (l.setPred n t).exLo = l.exLo := by unfold Lane.setPred; split <;> rfl
@[simp] theorem Lane.setPred_exHi (l : Lane) (n : Nat) (t : Tri) : (l.setPred n t).exHi = l.exHi := by unfold Lane.setPred; split <;> rfl
@[simp] theorem Lane.setPred_eyLo (l : Lane) (n : Nat) (t : Tri) : (l.setPred n t).eyLo = l.eyLo := by unfold Lane.setPred; split <;> rfl
@[simp] theorem Lane.setPred_eyHi (l : Lane) (n : Nat) (t : Tri) : (l.setPred n t).eyHi = l.eyHi := by unfold Lane.setPred; split <;> rfl
@[simp] theorem Lane.setPred_fills (l : Lane) (n : Nat) (t : Tri) : (l.setPred n t).fills = l.fills := by unfold Lane.setPred; split <;> rfl

end Sys2Proof.Machine
end

