-- ==== Sys2Proof/Tests/Slice0.lean ====
section
/-!
SUPPORT. Tests: words of every opcode decode and encode, refused codes and ill-formed terms, results of single steps worked out by hand
from the manual, and states that meet the hypotheses of the statements.
-/

namespace Sys2Proof.Tests

set_option Elab.async false

open Sys2Proof Sys2Proof.Machine

/-! ## Words -/

/-- An R-format instruction without guards, rounding or saturation. -/
def rw (a b c d e : Operand) (ty : Fmt) (subop ent : Nat) : RForm :=
  { h := plainHdr, a, b, c, d, e, ty, subop := BitVec.ofNat 6 subop, rnd := .rule, sat := false, ent := BitVec.ofNat 12 ent }

/-- The same with `.sat`. -/
def rwSat (a b c d e : Operand) (ty : Fmt) (subop ent : Nat) : RForm := { rw a b c d e ty subop ent with sat := true }

def iw (a b : Operand) (imm : Nat) : IForm :=
  { h := plainHdr, a, b, imm := BitVec.ofNat 32 imm, ty := .none, subop := 0, ent := 0 }

def mw (a b c : Operand) (off : Nat) (size : Size) (space : Space) (scope : Scope) (scale : Fin 5) (ty : Fmt) (ent : Nat) : MForm :=
  { h := plainHdr, a, b, c, off := BitVec.ofNat 16 off, size, space, scope, scale, ty, ent := BitVec.ofNat 11 ent }

def xw (clr isat : Bool) (urg tile : Nat) (b c d e : Operand) (slotA slotB km1 : Nat) (cven : Bool) (cvn variant : Nat) : XForm :=
  { h := plainHdr, clr, isat, urg := BitVec.ofNat 2 urg, tile := BitVec.ofNat 4 tile, b, c, d, e, slotA := BitVec.ofNat 3 slotA
    slotB := BitVec.ofNat 3 slotB, km1 := BitVec.ofNat 5 km1, cven, cvn := BitVec.ofNat 4 cvn, variant := BitVec.ofNat 11 variant }

def bw (a b c d : Operand) (tline tslot ent : Nat) : BForm :=
  { h := plainHdr, a, b, c, d, e := .none, tline := BitVec.ofNat 10 tline, tslot := BitVec.ofNat 3 tslot, ent := BitVec.ofNat 14 ent }

/-- Words of the integer family, packed by hand from the fields of R105 and R112 to R116 and the opcodes of R118. -/
def wordsInteger : List (IWord × Instr) := [
  (0x00010141BFFFDDC001C00000, .iadd (rw (.v 4) (.v 5) (.v 6) .none .none .n32 0 0)),
  (0x00410141BFFFDDC000C00000, .isub (rw (.v 4) (.v 5) (.v 6) .none .none .i32 0 0)),
  (0x00810141BFFFDDC001C00000, .imul (rw (.v 4) (.v 5) (.v 6) .none .none .n32 0 0)),
  (0x00C10141BFFFDDC000C00000, .imulh (rw (.v 4) (.v 5) (.v 6) .none .none .i32 0 0)),
  (0x0101014181FFDDC000C01000, .imad (rwSat (.v 4) (.v 5) (.v 6) (.v 7) .none .i32 0 0)),
  (0x014101823FFFDDC002000000, .iaddx (rw (.v 4) (.v 6) (.v 8) .none .none .n64 0 0)),
  (0x018101823FFFDDC001000000, .isubx (rw (.v 4) (.v 6) (.v 8) .none .none .i64 0 0)),
  (0x01C10141823FDDC002000000, .imadx (rw (.v 4) (.v 5) (.v 6) (.v 8) .none .n64 0 0)),
  (0x0201018140081DC000030000, .lea (mw (.v 4) (.v 6) (.v 5) 32 .b1 .global .none 3 .none 0)),
  (0x02410141BFFFDDC000C00000, .imin (rw (.v 4) (.v 5) (.v 6) .none .none .i32 0 0)),
  (0x02810141BFFFDDC001C00000, .imax (rw (.v 4) (.v 5) (.v 6) .none .none .n32 0 0)),
  (0x02C1017FFFFFDDC000C00000, .iabs (rw (.v 4) (.v 5) .none .none .none .i32 0 0)),
  (0x0301017FFFFFDDC000C01000, .ineg (rwSat (.v 4) (.v 5) .none .none .none .i32 0 0)),
  (0x03410141BFFFDDC000C00000, .idiv (rw (.v 4) (.v 5) (.v 6) .none .none .i32 0 0)),
  (0x03810141BFFFDDC001C00000, .irem (rw (.v 4) (.v 5) (.v 6) .none .none .n32 0 0)),
  (0x03C10141BFFFDDC001C0001F, .sadd (rw (.v 4) (.v 5) (.v 6) .none .none .n32 0 31)),
  (0x04010141BFFFDDC000C00003, .ssub (rw (.v 4) (.v 5) (.v 6) .none .none .i32 0 3)),
  (0x0441014181FFDDC000400001, .idp4 (rw (.v 4) (.v 5) (.v 6) (.v 7) .none .i8 0 1)),
  (0x0481014181FFDDC002400000, .idp8 (rw (.v 4) (.v 5) (.v 6) (.v 7) .none .i4 0 0)),
  (0x04C1014181FFDDC000800002, .idp2 (rw (.v 4) (.v 5) (.v 6) (.v 7) .none .i16 0 2)),
  (0x050101BFFFFFDDC001000000, .mov (rw (.v 4) (.v 6) .none .none .none .i64 0 0)),
  (0x0540FFC48D159DC003C00000, .movi (iw (.v 3) .none 0x12345678)),
  (0x058101B7AB6F9DC007780000, .movh (iw (.v 4) (.v 6) 0xDEADBEEF)),
  (0x05C10141B07FDDC000000000, .sel (rw (.v 4) (.v 5) (.v 6) (.p 1) .none .none 0 0))]

/-- Words of the logic family, packed by hand from the fields of R105 and R112 to R116 and the opcodes of R118. -/
def wordsLogic : List (IWord × Instr) := [
  (0x10010141BFFFDDC000000000, .band (rw (.v 4) (.v 5) (.v 6) .none .none .none 0 0)),
  (0x10410141BFFFDDC000000000, .bor (rw (.v 4) (.v 5) (.v 6) .none .none .none 0 0)),
  (0x10810141BFFFDDC000000000, .bxor (rw (.v 4) (.v 5) (.v 6) .none .none .none 0 0)),
  (0x10C101BFFFFFDDC001000000, .bnot (rw (.v 4) (.v 6) .none .none .none .i64 0 0)),
  (0x11010141BFFFDDC000000000, .bandn (rw (.v 4) (.v 5) (.v 6) .none .none .none 0 0)),
  (0x11410141BFFFDDC000000000, .shl (rw (.v 4) (.v 5) (.v 6) .none .none .none 0 0)),
  (0x1181017FFFFFDDC000000804, .shr (rw (.v 4) (.v 5) .none .none .none .none 0 2052)),
  (0x11C1017FFFFFDDC00000081F, .sar (rw (.v 4) (.v 5) .none .none .none .none 0 2079)),
  (0x12010141BFFFDDC000000000, .rot (rw (.v 4) (.v 5) (.v 6) .none .none .none 0 0)),
  (0x1241014181FFDDC000C00000, .bfx (rw (.v 4) (.v 5) (.v 6) (.v 7) .none .i32 0 0)),
  (0x1281014181C21DC000000000, .bfi (rw (.v 4) (.v 5) (.v 6) (.v 7) (.v 8) .none 0 0)),
  (0x12C1017FFFFFDDC000000000, .popc (rw (.v 4) (.v 5) .none .none .none .none 0 0)),
  (0x1301017FFFFFDDC000000000, .clz (rw (.v 4) (.v 5) .none .none .none .none 0 0)),
  (0x1341017FFFFFDDC000000000, .brev (rw (.v 4) (.v 5) .none .none .none .none 0 0)),
  (0x13B04141BFFFDDC000C20000, .icmp (rw (.p 1) (.v 5) (.v 6) .none .none .i32 2 0)),
  (0x13F070B1FFFFDDC000000000, .pand (rw (.p 1) (.p 2) (.p 7) .none .none .none 0 0)),
  (0x143070B0FFFFDDC000000000, .por (rw (.p 1) (.p 2) (.p 3) .none .none .none 0 0)),
  (0x147070B0FFFFDDC000000000, .pxor (rw (.p 1) (.p 2) (.p 3) .none .none .none 0 0)),
  (0x14B070BFFFFFDDC000000000, .pnot (rw (.p 1) (.p 2) .none .none .none .none 0 0)),
  (0x14F0017FFFFFDDC000000000, .pset (rw (.p 0) (.v 5) .none .none .none .none 0 0))]

/-- Words of the float family, packed by hand from the fields of R105 and R112 to R116 and the opcodes of R118. -/
def wordsFloat1 : List (IWord × Instr) := [
  (0x20010141BFFFDDC004000000, .fadd (rw (.v 4) (.v 5) (.v 6) .none .none .f32 0 0)),
  (0x20410141BFFFDDC004000000, .fsub (rw (.v 4) (.v 5) (.v 6) .none .none .f32 0 0)),
  (0x20810141BFFFDDC004006000, .fmul { rw (.v 4) (.v 5) (.v 6) .none .none .f32 0 0 with rnd := .ru }),
  (0x20C1014181FFDDC004000000, .ffma (rw (.v 4) (.v 5) (.v 6) (.v 7) .none .f32 0 0)),
  (0x21010141BFFFDDC004000000, .fmin (rw (.v 4) (.v 5) (.v 6) .none .none .f32 0 0)),
  (0x21410141BFFFDDC004000000, .fmax (rw (.v 4) (.v 5) (.v 6) .none .none .f32 0 0)),
  (0x2181017FFFFFDDC004000000, .fabs (rw (.v 4) (.v 5) .none .none .none .f32 0 0)),
  (0x21C1017FFFFFDDC004000000, .fneg (rw (.v 4) (.v 5) .none .none .none .f32 0 0)),
  (0x22304141BFFFDDC004070000, .fcmp (rw (.p 1) (.v 5) (.v 6) .none .none .f32 7 0)),
  (0x2241017FFFFFDDC004000000, .frcp (rw (.v 4) (.v 5) .none .none .none .f32 0 0)),
  (0x2281017FFFFFDDC004000000, .fsqrt (rw (.v 4) (.v 5) .none .none .none .f32 0 0)),
  (0x22C1017FFFFFDDC004000000, .frsq (rw (.v 4) (.v 5) .none .none .none .f32 0 0)),
  (0x2301017FFFFFDDC004800000, .fclass (rw (.v 4) (.v 5) .none .none .none .bf16 0 0)),
  (0x23410141BFFFDDC004400000, .hadd2 (rw (.v 4) (.v 5) (.v 6) .none .none .f16 0 0)),
  (0x23810141BFFFDDC004800000, .hmul2 (rw (.v 4) (.v 5) (.v 6) .none .none .bf16 0 0)),
  (0x23C1014181FFDDC004400000, .hfma2 (rw (.v 4) (.v 5) (.v 6) (.v 7) .none .f16 0 0)),
  (0x24010141BFFFDDC004000000, .fscale (rw (.v 4) (.v 5) (.v 6) .none .none .f32 0 0)),
  (0x2441017FFFFFDDC004010000, .fexpn (rw (.v 4) (.v 5) .none .none .none .f32 1 0)),
  (0x3001017FFFFFDDC004800110, .cvt (rw (.v 4) (.v 5) .none .none .none .bf16 0 272)),
  (0x3041017FFFFFDDC000C00010, .cvti (rw (.v 4) (.v 5) .none .none .none .i32 0 16)),
  (0x3081017FFFFFDDC004000003, .icvt (rw (.v 4) (.v 5) .none .none .none .f32 0 3)),
  (0x30C10141BFFFDDC000000002, .qnt (rw (.v 4) (.v 5) (.v 6) .none .none .none 0 2)),
  (0x31010141BFFFDDC000000002, .dqnt (rw (.v 4) (.v 5) (.v 6) .none .none .none 0 2)),
  (0x3141017FFFFFDDC004000000, .exp2 (rw (.v 4) (.v 5) .none .none .none .f32 0 0))]

/-- Words of the float family, packed by hand from the fields of R105 and R112 to R116 and the opcodes of R118. -/
def wordsFloat2 : List (IWord × Instr) := [
  (0x3181017FFFFFDDC004000000, .log2 (rw (.v 4) (.v 5) .none .none .none .f32 0 0)),
  (0x31C1017FFFFFDDC004000000, .sin (rw (.v 4) (.v 5) .none .none .none .f32 0 0)),
  (0x3201017FFFFFDDC004000000, .cos (rw (.v 4) (.v 5) .none .none .none .f32 0 0)),
  (0x3241017FFFFFDDC004000000, .tanh (rw (.v 4) (.v 5) .none .none .none .f32 0 0)),
  (0x3280BFFFFFFFDDC004000000, .smxi (rw (.v 2) .none .none .none .none .f32 0 0)),
  (0x32C080827FFFDDC004000000, .smxacc (rw (.v 2) (.v 2) (.v 9) .none .none .f32 0 0)),
  (0x330100827FFFDDC004000001, .smxnrm (rw (.v 4) (.v 2) (.v 9) .none .none .f32 0 1))]

/-- Words of the collective family, packed by hand from the fields of R105 and R112 to R116 and the opcodes of R118. -/
def wordsCollective : List (IWord × Instr) := [
  (0x4001307FFFFFDDC000020000, .vote (rw (.v 4) (.p 1) .none .none .none .none 2 0)),
  (0x40410141BFFFDDC000030000, .shfl (rw (.v 4) (.v 5) (.v 6) .none .none .none 3 0)),
  (0x4080C0BFFFFFDDC000C00000, .redadd (rw (.v 3) (.v 2) .none .none .none .i32 0 0)),
  (0x40C0C0BFFFFFDDC004000000, .redmax (rw (.v 3) (.v 2) .none .none .none .f32 0 0)),
  (0x4100C0BFFFFFDDC001C00000, .redmin (rw (.v 3) (.v 2) .none .none .none .n32 0 0)),
  (0x4140C0BFFFFFDDC000C10000, .scan (rw (.v 3) (.v 2) .none .none .none .i32 1 0)),
  (0x418100BFFFFFDDC000000000, .matchv (rw (.v 4) (.v 2) .none .none .none .none 0 0))]

/-- Words of the memory family, packed by hand from the fields of R105 and R112 to R116 and the opcodes of R118. -/
def wordsMemory : List (IWord × Instr) := [
  (0x5001210080041DC002020000, .ld (mw (.v 4) (.s 4) (.v 2) 16 .b4 .global .none 2 .none 0)),
  (0x5041213FC0001DC003000000, .st (mw (.v 4) (.s 4) .none 0 .b8 .global .none 0 .none 0)),
  (0x508100BFFFFC1DC002400000, .lds (mw (.v 4) (.v 2) .none 65520 .b4 .scratch .none 0 .none 0)),
  (0x50C220C080001DC004440000, .sts (mw (.v 8) (.s 3) (.v 2) 0 .b16 .scratch .none 4 .none 0)),
  (0x5101213FC0001DC001009000, .ldx (mw (.v 4) (.s 4) .none 0 .b2 .global .none 0 .bf16 0)),
  (0x514100BFC0001DC00040080A, .stx (mw (.v 4) (.v 2) .none 0 .b1 .scratch .none 0 .i8 10)),
  (0x5182213FC0001DC000000002, .ldb (mw (.v 8) (.s 4) .none 0 .b1 .global .none 0 .none 2)),
  (0x51FFE13FC0001DD000000000, .pf { mw .none (.s 4) .none 0 .b1 .global .none 0 .none 0 with h := { plainHdr with hint := .keep } }),
  (0x5232212180011DC000008000, .ldq (mw (.q 0) (.s 4) (.s 6) 4 .b1 .global .none 0 .f32 0)),
  (0x5272A12180009DC000003000, .stq (mw (.q 2) (.s 4) (.s 6) 2 .b1 .global .none 0 .n16 0)),
  (0x6001A10080041DC0021A3800, .atadd (mw (.v 6) (.s 4) (.v 2) 16 .b4 .global .dev 2 .n32 0)),
  (0x604180BFC0001DC002408000, .ataddf (mw (.v 6) (.v 2) .none 0 .b4 .scratch .none 0 .f32 0)),
  (0x608180BFC0001DC002501800, .atmin (mw (.v 6) (.v 2) .none 0 .b4 .scratch .col 0 .i32 0)),
  (0x60C1A13FC0001DC003004000, .atmax (mw (.v 6) (.s 4) .none 0 .b8 .global .none 0 .n64 0)),
  (0x610180BFC0001DC002400000, .atand (mw (.v 6) (.v 2) .none 0 .b4 .scratch .none 0 .none 0)),
  (0x614180BFC0001DC002400001, .ator (mw (.v 6) (.v 2) .none 0 .b4 .scratch .none 0 .none 1)),
  (0x618180BFC0001DC002400000, .atxor (mw (.v 6) (.v 2) .none 0 .b4 .scratch .none 0 .none 0)),
  (0x61C180BFC0001DC002400001, .atxch (mw (.v 6) (.v 2) .none 0 .b4 .scratch .none 0 .none 1)),
  (0x6202213FC0001DC003200000, .atcas (mw (.v 8) (.s 4) .none 0 .b8 .global .sys 0 .none 0)),
  (0x624180BFC0001DC002403800, .atinc (mw (.v 6) (.v 2) .none 0 .b4 .scratch .none 0 .n32 0))]

/-- Words of the sync family, packed by hand from the fields of R105 and R112 to R116 and the opcodes of R118. -/
def wordsSync : List (IWord × Instr) := [
  (0x703FFFFFFFFFDDC000030000, .fence (rw .none .none .none .none .none .none 3 0)),
  (0x706220FFC0001DC004400000, .bari (mw (.s 8) (.s 3) .none 0 .b16 .scratch .none 0 .none 0)),
  (0x70BFE0FFC0041DC004400000, .bara (mw .none (.s 3) .none 16 .b16 .scratch .none 0 .none 0)),
  (0x70F060FFC0001DC0044000C0, .barw (mw (.p 1) (.s 3) .none 0 .b16 .scratch .none 0 .none 192)),
  (0x713FE0E080001DC004400100, .baraw (mw .none (.s 3) (.s 2) 0 .b16 .scratch .none 0 .none 256)),
  (0x717020FFC0001DC002400143, .waita (mw (.p 0) (.s 3) .none 0 .b4 .scratch .none 0 .none 323)),
  (0x71BFFFCFCFCFDDC001F80000, .waitc (iw .none .none 0x3F3F3F3F)),
  (0x71FFFFFFFFFFDDC000000005, .sign (rw .none .none .none .none .none .none 0 5)),
  (0x723FFFC000001DC003200000, .nap (iw .none .none 0x64))]

/-- Words of the matrix family, packed by hand from the fields of R105 and R112 to R116 and the opcodes of R118. -/
def wordsMatrix : List (IWord × Instr) := [
  (0x802022A2FFFFDDC000200000, .mma (xw true false 0 0 (.s 10) (.s 11) .none .none 0 1 0 false 0 0)),
  (0x8044E2A2E3235DC0025FC801, .mmat (xw false false 1 3 (.s 10) (.s 11) (.s 12) (.s 13) 2 2 31 true 9 1)),
  (0x808022A2FFFFDDC001000050, .plst (xw false false 0 0 (.s 10) (.s 11) .none .none 1 0 0 false 0 80)),
  (0x80CBFFFFFFFFDDC000000000, .acz (xw false false 2 15 .none .none .none .none 0 0 0 false 0 0)),
  (0x810122A2FFFFDDC000000000, .acld (xw false false 0 4 (.s 10) (.s 11) .none .none 0 0 0 false 0 0)),
  (0x814122BFFFFFDDC000000002, .acst (xw false false 0 4 (.s 10) .none .none .none 0 0 0 false 0 2)),
  (0x818122BFFFFFDDC0000007F0, .acrd (xw false false 0 4 (.s 10) .none .none .none 0 0 0 false 0 2032)),
  (0x81CD22BFFFFFDDC000000060, .acwr (xw false false 3 4 (.s 10) .none .none .none 0 0 0 false 0 96)),
  (0x82003FFFFFFFDDC003000000, .cbld (xw false false 0 0 .none .none .none .none 3 0 0 false 0 0)),
  (0x82413FFFFFFFDDC000020000, .ckrd (rw (.v 4) .none .none .none .none .none 2 0))]

/-- Words of the copy family, packed by hand from the fields of R105 and R112 to R116 and the opcodes of R118. -/
def wordsCopy : List (IWord × Instr) := [
  (0x90223FFFC0001DD800000001, .cpy { mw (.s 8) .none .none 0 .b1 .global .none 0 .none 1 with h := { plainHdr with hint := .long } }),
  (0x9062212180001DC000000002, .cpy2 (mw (.s 8) (.s 4) (.s 6) 0 .b1 .global .none 0 .none 2)),
  (0x90A2213FC0001DC000009002, .cpyp (mw (.s 8) (.s 4) .none 0 .b1 .global .none 0 .bf16 2)),
  (0x90FFE13FC0001DC000400000, .cpyq (mw .none (.s 4) .none 0 .b1 .scratch .none 0 .none 0)),
  (0x9101213FC0001DC003000001, .qrd (mw (.v 4) (.s 4) .none 0 .b8 .global .none 0 .none 1)),
  (0x9141213FC0001DC003000000, .qack (mw (.v 4) (.s 4) .none 0 .b8 .global .none 0 .none 0)),
  (0x91A1218080001DC000000002, .qwr (mw (.s 4) (.s 6) (.v 2) 0 .b1 .global .none 0 .none 2)),
  (0x91E101BFC0021DC000400007, .emit (mw (.s 4) (.v 6) .none 8 .b1 .scratch .none 0 .none 7))]

/-- Words of the branch family, packed by hand from the fields of R105 and R112 to R116 and the opcodes of R118. -/
def wordsBranch : List (IWord × Instr) := [
  (0xA03FFFFFFFFFDDC000040000, .bra (bw .none .none .none .none 2 0 0)),
  (0xA07FE13FC17FDDC000000003, .brx (bw .none (.s 4) .none (.v 5) 0 0 3)),
  (0xA0BFFFFFFFFFDDC007FF0000, .call (bw .none .none .none .none 1023 4 0)),
  (0xA0FFFFFFFFFFDDC000000000, .ret (bw .none .none .none .none 0 0 0)),
  (0xA13FE13FFFFFDDC00002C000, .loop (bw .none (.s 4) .none .none 1 3 0)),
  (0xA17FFFFFFFFFDDC000000000, .exit (bw .none .none .none .none 0 0 0)),
  (0xA1BFFFFFFFFFDDC000000000, .yield (bw .none .none .none .none 0 0 0)),
  (0xA1FFFFFFFFFFDDC0000000AB, .trap (bw .none .none .none .none 0 0 171)),
  (0xA23FFFFFFFFFDDC000000000, .nop (bw .none .none .none .none 0 0 0)),
  (0xA27FFFFFFFFFDDC000000001, .bkpt (bw .none .none .none .none 0 0 1))]

/-- Words of the overlay family, packed by hand from the fields of R105 and R112 to R116 and the opcodes of R118. -/
def wordsOverlay : List (IWord × Instr) := [
  (0xB03FE1A1FFFFDDC000000000, .ovl (bw .none (.s 6) (.s 7) .none 0 0 0)),
  (0xB06261BFFFFFDDC000000000, .ovlq (bw (.s 9) (.s 6) .none .none 0 0 0)),
  (0xB0BFE1BFFFFFDDC000000000, .ovlpin (bw .none (.s 6) .none .none 0 0 0)),
  (0xB0FFE1BFFFFFDDC000000000, .ovlrel (bw .none (.s 6) .none .none 0 0 0)),
  (0xB13FE1BFFFFFDDC000000000, .ovlev (bw .none (.s 6) .none .none 0 0 0)),
  (0xB17FE1BFFFFFDDC000080000, .callo (bw .none (.s 6) .none .none 4 0 0)),
  (0xB1BFFFFFFFFFDDC000000000, .reto (bw .none .none .none .none 0 0 0))]

/-- Words of the bounds family, packed by hand from the fields of R105 and R112 to R116 and the opcodes of R118. -/
def wordsBounds : List (IWord × Instr) := [
  (0xC021A12200001DC001008800, .bsum (mw (.s 6) (.s 4) (.s 8) 0 .b2 .global .none 0 .f16 0)),
  (0xC043212200001DC002000000, .fill (mw (.v 12) (.s 4) (.s 8) 0 .b4 .global .none 0 .none 0)),
  (0xC0BFFFFFFFFFDDC000000000, .defer (bw .none .none .none .none 0 0 0)),
  (0xC0FFFFFFFFFFDDC000000000, .split (bw .none .none .none .none 0 0 0)),
  (0xC10FFFFFFFFFDDC000000000, .widen (rw (.v 63) .none .none .none .none .none 0 0)),
  (0xC17FFFFFFFFFDDC000000000, .bdone (bw .none .none .none .none 0 0 0))]

/-- Words of the system family, packed by hand from the fields of R105 and R112 to R116 and the opcodes of R118. -/
def wordsSystem : List (IWord × Instr) := [
  (0xD0013FFFFFFFDDC000050007, .movs (rw (.v 4) .none .none .none .none .none 5 7)),
  (0xD07FC17FFFFFDDC000010000, .movc (rw .none (.v 5) .none .none .none .none 1 0)),
  (0xD0813FFFFFFFDDC000000000, .clk (rw (.v 4) .none .none .none .none .none 0 0)),
  (0xD0C13FFFFFFFDDC000050000, .perf (rw (.v 4) .none .none .none .none .none 5 0)),
  (0xD122610000001DC000180000, .fwcall (iw (.s 9) (.s 4) 0x3)),
  (0xD17FFFFFFFFFDDC000000001, .trapret (bw .none .none .none .none 0 0 1))]

/-- The word stands for the instruction: it decodes to it, the encoder gives it back, and the instruction is well-formed. -/
def stands (p : IWord × Instr) : Bool :=
  (match decode p.1 with
    | .ok i => i == p.2
    | .error _ => false) && encode p.2 == some p.1 && p.2.wellFormed

theorem test_wordsInteger : wordsInteger.all stands = true := by decide +kernel
theorem test_wordsLogic : wordsLogic.all stands = true := by decide +kernel
theorem test_wordsFloat1 : wordsFloat1.all stands = true := by decide +kernel
theorem test_wordsFloat2 : wordsFloat2.all stands = true := by decide +kernel
theorem test_wordsCollective : wordsCollective.all stands = true := by decide +kernel
theorem test_wordsMemory : wordsMemory.all stands = true := by decide +kernel
theorem test_wordsSync : wordsSync.all stands = true := by decide +kernel
theorem test_wordsMatrix : wordsMatrix.all stands = true := by decide +kernel
theorem test_wordsCopy : wordsCopy.all stands = true := by decide +kernel
theorem test_wordsBranch : wordsBranch.all stands = true := by decide +kernel
theorem test_wordsOverlay : wordsOverlay.all stands = true := by decide +kernel
theorem test_wordsBounds : wordsBounds.all stands = true := by decide +kernel
theorem test_wordsSystem : wordsSystem.all stands = true := by decide +kernel

/-- The word is refused with this fault. -/
def refusedWith (e : DecodeError) (w : IWord) : Bool :=
  match decode w with
  | .error d => d == e
  | .ok _ => false

theorem test_refused_codes : [
    0x20013301BFFFDDC004000000 /- a source code of 0xCC -/,
    0x20013CC1BFFFDDC004000000 /- a source code of 0xF3 -/,
    0x20010177FFFFDDC004000000 /- the special code 0xDF -/,
    0x20010141BFFFDDC003000000 /- TYPE 12 -/,
    0x00010141BFFFDDC007C00000 /- TYPE 31 -/,
    0x20010141BFFFDDC00400A000 /- RND 5 -/,
    0x5001213FC0001DF002000000 /- HINT 6 -/,
    0x5001213FC0001DC005000000 /- SIZE 5 -/,
    0x5081017FC0001DC002800000 /- SPACE 2 -/,
    0x6001213FC0001DC002283800 /- SCOPE 5 -/,
    0x5001213FC0001DC002050000 /- SCALE 5 -/,
    0x20013281BFFFDDC004000000 /- q2 as a source -/,
    0x13F1F070BFFFDDC000000000 /- p7 as a destination -/,
    0x014101C23FFFDDC002000000 /- an odd pair -/,
    0x2001014181FFDDC004000000 /- a field that is not used -/,
    0x20210161BFFFDDC004000000 /- a lane source of a uniform destination -/,
    0x802002A2FFFFDDC000200000 /- a lane register where MMA takes uniform ones -/,
    0x3001017FFFFFDDC00480000C /- FROM 12 -/].all (refusedWith .operandReserved) = true := by decide +kernel

/-- R116: a fixed target in slot 5 to 7, whatever the guards. -/
theorem test_refused_targets : [0xB17FE1BFFFFFDDC000094000, 0xA03FFFFFFFFFFDC000018000, 0xA13FE13FFFFFDDC00001C000].all
    (refusedWith .branchTarget) = true := by decide +kernel

/-- R119: opcodes beside each group of R118 are unassigned, whatever the other bits. -/
theorem test_unassigned : [0x018, 0x03F, 0x054, 0x092, 0x0CD, 0x107, 0x14A, 0x18A, 0x1C9, 0x20A, 0x248, 0x28A, 0x2C7, 0x306, 0x346, 0x380, 0x3FF].all
    (fun n => let w : IWord := BitVec.ofNat 96 (n * 2 ^ 86 + 12345); stands (w, .unassignedOpcode w)) = true := by decide +kernel

/-- R107: LIVE and CE are read as written; R108: a hint. -/
theorem test_common_fields : stands (0x5001213FC0002C26AA000000, .ld { mw (.v 4) (.s 4) .none 0 .b4 .global .none 0 .none 0 with
    h := { g1 := ⟨true, 3⟩, g2 := ⟨false, 0⟩, hint := .evict, ce := true, live := 0x55 } }) = true := by decide +kernel

/-! ## Ill-formed terms -/

/-- One ill-formed term for each check of an operand field (R109, R111). -/
theorem test_illformed_operands : [
    Instr.iadd (rw (.sp .lane) (.v 5) (.v 6) .none .none .n32 0 0),
    .iadd (rw (.q 0) (.v 5) (.v 6) .none .none .n32 0 0),
    .iadd (rw (.v 4) (.q 3) (.v 6) .none .none .n32 0 0),
    .iadd (rw (.v 4) (.p 1) (.v 6) .none .none .n32 0 0),
    .iadd (rw (.v 4) (.v 5) (.v 6) (.v 7) .none .n32 0 0),
    .iadd (rw (.s 4) (.sp .lane) (.s 6) .none .none .n32 0 0),
    .iaddx (rw (.v 5) (.v 6) (.v 8) .none .none .n64 0 0),
    .iaddx (rw (.v 4) (.sp .clklo) (.v 8) .none .none .n64 0 0),
    .icmp (rw (.p 7) (.v 5) (.v 6) .none .none .i32 0 0),
    .sel (rw (.v 4) (.v 5) (.v 6) .none .none .none 0 0),
    .smxi (rw (.s 2) .none .none .none .none .f32 0 0),
    .vote (rw (.v 4) (.v 5) .none .none .none .none 3 0),
    .mma (xw true false 0 0 .none (.s 11) .none .none 0 0 0 false 0 0),
    .fill (mw (.v 12) (.s 4) .none 0 .b4 .global .none 0 .none 0),
    .widen (rw (.v 64) .none .none .none .none .none 0 0),
    .ldq (mw (.q 2) (.s 4) (.s 6) 4 .b1 .global .none 0 .f32 0),
    .stq (mw (.q 1) (.s 4) (.s 6) 4 .b1 .global .none 0 .f32 0),
    .st (mw (.v 6) (.s 4) .none 0 .b16 .global .none 0 .none 0),
    .cpy (mw (.s 4) .none .none 0 .b1 .global .none 0 .none 0),
    .qrd (mw (.s 4) (.s 4) .none 0 .b8 .global .none 0 .none 0),
    .fwcall (iw (.v 4) .none 0),
    .movc (rw .none (.s 4) .none .none .none .none 0 0)].all (fun i => !i.wellFormed) = true := by decide +kernel

/-- One ill-formed term for each check of modifier fields (R112 to R117 and the entries). -/
theorem test_illformed_fields : [
    Instr.iadd (rw (.v 4) (.v 5) (.v 6) .none .none .i64 0 0),
    .iadd (rw (.v 4) (.v 5) (.v 6) .none .none .n32 1 0),
    .iadd (rw (.v 4) (.v 5) (.v 6) .none .none .n32 0 1),
    .iadd { rw (.v 4) (.v 5) (.v 6) .none .none .n32 0 0 with rnd := .rz },
    .imin (rwSat (.v 4) (.v 5) (.v 6) .none .none .n32 0 0),
    .iadd { rw (.v 4) (.v 5) (.v 6) .none .none .n32 0 0 with h := { plainHdr with hint := .keep } },
    .iabs (rw (.v 4) (.v 5) .none .none .none .n32 0 0),
    .shl (rw (.v 4) (.v 5) (.v 6) .none .none .none 0 0x804),
    .shl (rw (.v 4) (.v 5) (.v 6) .none .none .none 0 4),
    .shfl (rw (.v 4) (.v 5) (.v 6) .none .none .none 0 (6 * 64)),
    .icmp (rw (.p 1) (.v 5) (.v 6) .none .none .i32 6 0),
    .cvt (rw (.v 4) (.v 5) .none .none .none .bf16 0 0x210),
    .cvt (rw (.v 4) (.v 5) .none .none .none .bf16 0 0x030),
    .icvt (rw (.v 4) (.v 5) .none .none .none .f32 0 0x803),
    .redadd (rwSat (.v 3) (.v 2) .none .none .none .f32 0 0),
    .scan (rwSat (.v 3) (.v 2) .none .none .none .i32 2 0),
    .ld (mw (.v 4) (.s 4) .none 0 .b4 .scratch .none 0 .none 0),
    .ld (mw (.v 4) (.s 4) .none 0 .b4 .global .none 0 .i16 0),
    .ld (mw (.v 4) (.s 4) .none 0 .b4 .global .dev 0 .none 0),
    .lds { mw (.v 4) (.s 4) .none 0 .b4 .scratch .none 0 .none 0 with h := { plainHdr with hint := .stream } },
    .ldx (mw (.v 4) (.s 4) .none 0 .b1 .global .none 0 .f16 0),
    .ldx (mw (.v 4) (.s 4) .none 0 .b4 .global .none 0 .f32 0),
    .stx (mw (.v 4) (.s 4) .none 0 .b2 .global .none 0 .f16 5),
    .ldb (mw (.v 4) (.s 4) .none 0 .b1 .global .none 1 .none 0),
    .atadd (mw (.v 4) (.s 4) .none 0 .b8 .global .none 0 .n32 0),
    .atadd (mw (.v 4) (.s 4) .none 0 .b4 .global .none 0 .n32 2),
    .atadd (mw (.v 4) (.s 4) .none 0 .b4 .global .col 0 .n32 0),
    .atadd (mw (.v 4) (.s 4) .none 0 .b4 .scratch .sys 0 .n32 0),
    .fence (rw .none .none .none .none .none .none 0 0),
    .barw (mw (.p 1) (.s 3) .none 0 .b16 .scratch .none 0 .none (7 * 32)),
    .waita (mw (.p 1) (.s 3) .none 0 .b4 .scratch .none 0 .none 4),
    .waitc (iw .none .none 0x40),
    .mma (xw true false 0 0 (.s 10) (.s 11) .none .none 0 1 0 false 3 0),
    .mma (xw true false 0 0 (.s 10) (.s 11) .none .none 0 1 0 false 0 1),
    .acld (xw true false 0 4 (.s 10) (.s 11) .none .none 0 0 0 false 0 0),
    .acrd (xw false false 1 4 (.s 10) .none .none .none 0 0 0 false 0 0),
    .plst (xw false false 0 1 (.s 10) (.s 11) .none .none 0 0 0 false 0 0),
    .acz (xw false false 0 1 .none .none .none .none 1 0 0 false 0 0),
    .acst (xw false false 0 4 (.s 10) .none .none .none 0 0 0 false 0 3),
    .cpy (mw (.s 8) .none .none 4 .b1 .global .none 0 .none 0),
    .cpyp (mw (.s 8) (.s 4) .none 0 .b1 .global .none 0 .bf16 0),
    .qack (mw (.v 4) (.s 4) .none 0 .b8 .global .none 0 .none 1),
    .bsum (mw (.s 6) (.s 4) (.s 8) 0 .b4 .global .none 0 .f16 0),
    .ret (bw .none .none .none .none 1 0 0),
    .bra (bw .none .none .none .none 0 0 1),
    .bra (bw .none .none .none .none 0 5 0),
    .movs (rw (.s 4) .none .none .none .none .none 2 0),
    .movs (rw (.v 4) .none .none .none .none .none 4 1),
    .fwcall (iw (.s 9) .none 0x10000)].all (fun i => !i.wellFormed) = true := by decide +kernel

/-! ## Single steps, their results worked out by hand from the manual's rules -/

/-- The registers hold these values in every lane of the convoy. -/
def withRegs (rs : List (Nat × Nat)) (v : Convoy) : Convoy :=
  rs.foldl (fun v r => v.onLanes (List.range 16) fun _ l => l.setReg r.1 (BitVec.ofNat 32 r.2)) v

/-- A column of one convoy with 16 lanes at the start of its route, its group named, the convoy as `f` makes it. -/
def opened (f : Convoy → Convoy := id) : State :=
  let s := State.reset.place 0
  { s with agenda := [], cur := some ⟨0, 0, false, none, none⟩, cols := s.cols.map fun c => { c with cvs := c.cvs.map f } }

/-- The convoy after the instruction. -/
def after (i : Instr) (s : State) : Option Convoy :=
  match exec i s with
  | .next t => t.convoy? 0 0
  | _ => none

/-- With these registers before, the instruction leaves these registers in lane 3. -/
def gives (p : Instr × List (Nat × Nat) × List (Nat × Nat)) : Bool :=
  match after p.1 (opened (withRegs p.2.1)) with
  | some v => p.2.2.all fun r => ((v.lane 3).reg r.1).toNat == r.2
  | none => false

def two (ty : Fmt) : RForm := rw (.v 4) (.v 5) (.v 6) .none .none ty 0 0
def one (ty : Fmt) : RForm := rw (.v 4) (.v 5) .none .none .none ty 0 0
def three (ty : Fmt) (ent : Nat := 0) : RForm := rw (.v 4) (.v 5) (.v 6) (.v 7) .none ty 0 ent

/-- R124 to R128. -/
theorem test_integer_results : [
    (Instr.iadd (two .n32), [(5, 0xFFFFFFFF), (6, 3)], [(4, 2)]),
    (.iadd { two .i32 with sat := true }, [(5, 0x7FFFFFFF), (6, 1)], [(4, 0x7FFFFFFF)]),
    (.isub (two .n32), [(5, 0), (6, 1)], [(4, 0xFFFFFFFF)]),
    (.isub { two .n32 with sat := true }, [(5, 0), (6, 1)], [(4, 0)]),
    (.imul (two .i32), [(5, 0xFFFFFFFD), (6, 5)], [(4, 0xFFFFFFF1)]),
    (.imulh (two .n32), [(5, 0xFFFFFFFF), (6, 0xFFFFFFFF)], [(4, 0xFFFFFFFE)]),
    (.imulh (two .i32), [(5, 0xFFFFFFFF), (6, 1)], [(4, 0xFFFFFFFF)]),
    (.imad (three .n32), [(5, 7), (6, 6), (7, 0xFFFFFFFF)], [(4, 41)]),
    (.iaddx (rw (.v 4) (.v 6) (.v 8) .none .none .n64 0 0), [(6, 0xFFFFFFFF), (7, 0), (8, 1), (9, 5)], [(4, 0), (5, 6)]),
    (.isubx (rw (.v 4) (.v 6) (.v 8) .none .none .i64 0 0), [(6, 0), (7, 1), (8, 1), (9, 0)], [(4, 0xFFFFFFFF), (5, 0)]),
    (.imadx (rw (.v 4) (.v 6) (.v 7) (.v 8) .none .i64 0 0), [(6, 0xFFFFFFFF), (7, 2), (8, 1), (9, 0)], [(4, 0xFFFFFFFF), (5, 0xFFFFFFFF)]),
    (.imin (two .i32), [(5, 0xFFFFFFFF), (6, 1)], [(4, 0xFFFFFFFF)]),
    (.imax (two .n32), [(5, 0xFFFFFFFF), (6, 1)], [(4, 0xFFFFFFFF)]),
    (.iabs (one .i32), [(5, 0x80000000)], [(4, 0x80000000)]),
    (.ineg { one .i32 with sat := true }, [(5, 0x80000000)], [(4, 0x7FFFFFFF)]),
    (.idiv (two .i32), [(5, 0xFFFFFFF9), (6, 2)], [(4, 0xFFFFFFFD)]),
    (.idiv (two .n32), [(5, 9), (6, 0)], [(4, 0xFFFFFFFF)]),
    (.irem (two .i32), [(5, 0xFFFFFFF9), (6, 2)], [(4, 0xFFFFFFFF)]),
    (.irem (two .n32), [(5, 9), (6, 0)], [(4, 9)]),
    (.sadd { two .n32 with ent := 31 }, [(5, 1), (6, 3)], [(4, 0x80000001)]),
    (.ssub { two .i32 with ent := 2 }, [(5, 1), (6, 3)], [(4, 0xFFFFFFF5)]),
    (.idp4 (three .i8 1), [(5, 0x000000FF), (6, 0x000000FF), (7, 1)], [(4, 0xFFFFFF02)]),
    (.idp8 (three .i4), [(5, 0x000000F1), (6, 0x00000022), (7, 0)], [(4, 0)]),
    (.idp2 (three .i16 3), [(5, 0xFFFF0001), (6, 0x00010001), (7, 0)], [(4, 0x00010000)]),
    (.lea (mw (.v 4) (.v 6) (.v 5) 0xFFFF .b1 .global .none 3 .none 0), [(5, 0xFFFFFFFF), (6, 0), (7, 1)], [(4, 0xFFFFFFF7), (5, 0)])].all
    gives = true := by decide +kernel

/-- R129 to R134. -/
theorem test_logic_results : [
    (Instr.mov (rw (.v 4) (.v 6) .none .none .none .i64 0 0), [(6, 1), (7, 2)], [(4, 1), (5, 2)]),
    (.movi (iw (.v 4) .none 0x12345678), [], [(4, 0x12345678)]),
    (.movh (iw (.v 4) (.v 6) 0xDEADBEEF), [(6, 7)], [(4, 7), (5, 0xDEADBEEF)]),
    (.sel (rw (.v 4) (.v 5) (.v 6) (.p 7) .none .none 0 0), [(5, 1), (6, 2)], [(4, 1)]),
    (.sel (rw (.v 4) (.v 5) (.v 6) (.p 1) .none .none 0 0), [(5, 1), (6, 2)], [(4, 2)]),
    (.bandn (two .none), [(5, 0xFF), (6, 0xF)], [(4, 0xF0)]),
    (.bxor (two .none), [(5, 0xFF), (6, 0xF)], [(4, 0xF0)]),
    (.bnot (one .none), [(5, 0xF)], [(4, 0xFFFFFFF0)]),
    (.shl (two .none), [(5, 1), (6, 32)], [(4, 0)]),
    (.shl (two .none), [(5, 3), (6, 31)], [(4, 0x80000000)]),
    (.shr (rw (.v 4) (.v 5) .none .none .none .none 0 0x804), [(5, 0xF0)], [(4, 0xF)]),
    (.sar (two .none), [(5, 0x80000000), (6, 40)], [(4, 0xFFFFFFFF)]),
    (.rot (two .none), [(5, 0x80000001), (6, 33)], [(4, 3)]),
    (.bfx (three .i32), [(5, 0x80000000), (6, 28), (7, 9)], [(4, 0xFFFFFFF8)]),
    (.bfi (rw (.v 4) (.v 5) (.v 6) (.v 7) (.v 8) .none 0 0), [(5, 0), (6, 0xFF), (7, 4), (8, 4)], [(4, 0xF0)]),
    (.popc (one .none), [(5, 0xFF000001)], [(4, 9)]),
    (.clz (one .none), [(5, 0)], [(4, 32)]),
    (.clz (one .none), [(5, 0x00800000)], [(4, 8)]),
    (.brev (one .none), [(5, 0x00000003)], [(4, 0xC0000000)])].all gives = true := by decide +kernel

/-- R148 to R160: values that the manual or exact arithmetic fixes. -/
theorem test_float_results : [
    (Instr.fadd (two .f32), [(5, 0x3F800000), (6, 0x40000000)], [(4, 0x40400000)]),
    (.fadd { two .f32 with rnd := .ru }, [(5, 0x3F800000), (6, 0x30000000)], [(4, 0x3F800001)]),
    (.fsub (two .f32), [(5, 0x3F800000), (6, 0x3F800000)], [(4, 0)]),
    (.fmul (two .f32), [(5, 0x40400000), (6, 0x3F000000)], [(4, 0x3FC00000)]),
    (.fmul (two .f32), [(5, 0x7F800000), (6, 0)], [(4, 0x7FC00000)]),
    (.ffma (three .f32), [(5, 0x40400000), (6, 0x40400000), (7, 0xBF800000)], [(4, 0x41000000)]),
    (.fmin (two .f32), [(5, 0x80000000), (6, 0)], [(4, 0x80000000)]),
    (.fmax (two .f32), [(5, 0x7FC00000), (6, 0x3F800000)], [(4, 0x3F800000)]),
    (.fabs (one .f32), [(5, 0xBF800000)], [(4, 0x3F800000)]),
    (.fneg (one .f32), [(5, 0)], [(4, 0x80000000)]),
    (.frcp (one .f32), [(5, 0x40000000)], [(4, 0x3F000000)]),
    (.fsqrt (one .f32), [(5, 0x40800000)], [(4, 0x40000000)]),
    (.frsq (one .f32), [(5, 0x80000000)], [(4, 0xFF800000)]),
    (.fscale (two .f32), [(5, 0x3F800000), (6, 0xFFFFFFFF)], [(4, 0x3F000000)]),
    (.fexpn (one .f32), [(5, 0x41000000)], [(4, 3)]),
    (.hadd2 (two .f16), [(5, 0x3C003C00), (6, 0x40003C00)], [(4, 0x42004000)]),
    (.hmul2 (two .bf16), [(5, 0x3F804000), (6, 0x40004000)], [(4, 0x40004080)]),
    (.cvt (rw (.v 4) (.v 5) .none .none .none .bf16 0 0x110), [(4, 0x11112222), (5, 0x3F800000)], [(4, 0x3F802222)]),
    (.cvti (rw (.v 4) (.v 5) .none .none .none .i32 0 0x10), [(5, 0xC0200000)], [(4, 0xFFFFFFFE)]),
    (.icvt (rw (.v 4) (.v 5) .none .none .none .f32 0 0x03), [(5, 0xFFFFFFFF)], [(4, 0xBF800000)]),
    (.exp2 (one .f32), [(5, 0x40400000)], [(4, 0x41000000)]),
    (.log2 (one .f32), [(5, 0x41000000)], [(4, 0x40400000)]),
    (.sin (one .f32), [(5, 0x7F800000)], [(4, 0x7FC00000)]),
    (.cos (one .f32), [(5, 0)], [(4, 0x3F800000)]),
    (.tanh (one .f32), [(5, 0xFF800000)], [(4, 0xBF800000)]),
    (.smxi (rw (.v 4) .none .none .none .none .f32 0 0), [(4, 1), (5, 1)], [(4, 0x80000000), (5, 0)])].all gives = true := by
  decide +kernel

/-- R139 to R144, with a different value in each lane: lane l of v5 holds l, and v6 holds 1. -/
theorem test_collective_results :
    let s := opened fun v => v.onLanes (List.range 16) fun i l => (l.setReg 5 (BitVec.ofNat 32 i)).setReg 6 1
    let r (i : Instr) (lane n : Nat) : Nat := ((after i s).map fun v => ((v.lane lane).reg n).toNat).getD 99
    r (.redadd (one .i32)) 7 4 = 120 ∧ r (.redmax (one .n32)) 7 4 = 15 ∧ r (.scan (one .n32)) 3 4 = 6 ∧
    r (.scan { one .n32 with subop := 1 }) 3 4 = 3 ∧ r (.shfl { two .none with subop := 3 }) 6 4 = 7 ∧
    r (.shfl { two .none with subop := 1 }) 0 4 = 0 ∧ r (.shfl { two .none with subop := 2 }) 15 4 = 15 ∧
    r (.matchv (rw (.v 4) (.v 5) .none .none .none .none 0 0)) 9 4 = 2 ^ 9 ∧
    r (.vote (rw (.v 4) (.p 7) .none .none .none .none 2 0)) 0 4 = 0xFFFF ∧
    r (.vote (rw (.v 4) (.p 7) .none .none .none .none 3 0)) 5 4 = 16 := by decide +kernel

/-- R135 to R137, R150: predicates. -/
theorem test_predicates :
    let s := opened fun v => withRegs [(5, 0xFFFFFFFF), (6, 1)] (v.onLanes (List.range 8) fun _ l => l.setPred 2 .yes)
    let r (i : Instr) (lane n : Nat) : Option Tri := (after i s).map fun v => (v.lane lane).pred n
    r (.icmp (rw (.p 1) (.v 5) (.v 6) .none .none .i32 2 0)) 3 1 = some .yes ∧
    r (.icmp (rw (.p 1) (.v 5) (.v 6) .none .none .n32 2 0)) 3 1 = some .no ∧
    r (.fcmp (rw (.p 1) (.v 5) (.v 6) .none .none .f32 6 0)) 3 1 = some .yes ∧
    r (.pset (rw (.p 0) (.v 6) .none .none .none .none 0 0)) 3 0 = some .yes ∧
    r (.pand (rw (.p 1) (.p 2) (.p 7) .none .none .none 0 0)) 3 1 = some .yes ∧
    r (.pand (rw (.p 1) (.p 2) (.p 7) .none .none .none 0 0)) 9 1 = some .no ∧
    r (.pxor (rw (.p 1) (.p 2) (.p 7) .none .none .none 0 0)) 3 1 = some .no ∧
    r (.pnot (rw (.p 1) (.p 2) .none .none .none .none 0 0)) 9 1 = some .yes := by decide +kernel

/-- R106: a guard decides lane by lane; the other lanes keep the register. -/
theorem test_guard :
    let s := opened fun v => withRegs [(4, 9)] (v.onLanes [2] fun _ l => l.setPred 1 .yes)
    let i : Instr := .movi { iw (.v 4) .none 5 with h := { plainHdr with g1 := ⟨false, 1⟩ } }
    ((after i s).map fun v => (((v.lane 2).reg 4).toNat, ((v.lane 3).reg 4).toNat)) = some (5, 9) := by decide +kernel

/-- R15, R103: a step fetches the word at the program counter, runs it and goes on to the next slot. -/
theorem test_step :
    let s := State.reset.withFetchWord 96 0x0540FFC48D159DC003C00000
    (match step s with
      | .next t => (t.convoy? 0 0).map fun v => (((v.lane 15).reg 3).toNat, (v.lane 15).pc)
      | _ => none) = some (0x12345678, 1) := by decide +kernel

/-! ## Ciphers against the standards' own examples -/

/-- FIPS 180-4: SHA-512 of the three bytes "abc" begins ddaf35a193617aba. -/
theorem test_sha512 : (sha512 [0x61, 0x62, 0x63]).take 8 = [0xDD, 0xAF, 0x35, 0xA1, 0x93, 0x61, 0x7A, 0xBA] := by decide +kernel
/-- FIPS 197: the S-box of 53, the columns example, and its inverse. -/
theorem test_aes_parts : aesSub 0x53 = 0xED ∧ aesUnsub 0xED = 0x53 := by decide +kernel
/-- RFC 7748 section 6.1: the public key of the first private key. -/
theorem test_x25519 : x25519Public 0x2A2CB91DA5FB77B12A99C0EB872F4CDF4566B25172C1163C7DA518730A6D0777 =
    0x6A4E9BAA8EA9A4EBF41A38260D3ABF0D5AF73EB4DC7D8B7454A7308909F02085 := by decide +kernel
/-- RFC 8032 section 7.1, test 1: the public key of the first secret key. -/
theorem test_ed25519 : ed25519Public (bytesOf 32 0x607FAE1C03AC3B701969327B69C54944C42CEC92F44A84BA605AFDEF9DB1619D) =
    bytesOf 32 0x1A5107F7681A02AF2523A6DAF372E10E3A0764C9D3FE4BD5B70AB18201985AD7 := by decide +kernel
/-- R328, R329: one changed sector of a group is restored; two are lost, and both are named. -/
theorem test_sector_repair :
    (match checkGroup (fun j => if j = 3 then 5 else 0) 3 with
      | .corrected x => x == 0
      | _ => false) = true ∧
    (match checkGroup (fun j => if j = 3 ∨ j = 7 then 5 else 0) 3 with
      | .lost js => js == [3, 7]
      | _ => false) = true := by decide +kernel

/-! ## States that meet the hypotheses of the statements -/

/-- Uniform registers set. -/
def withSregs (rs : List (Nat × Nat)) (v : Convoy) : Convoy := rs.foldl (fun v r => v.setSreg r.1 (BitVec.ofNat 32 r.2)) v

/-- A column with a format in slots 0 to 3, 64 KiB of device memory at virtual address 0x10000, and 0x10000 in s4:s5 and v4:v5. -/
def ready (f : Convoy → Convoy := id) : State :=
  let s := opened fun v => f (withSregs [(4, 0x10000)] (withRegs [(4, 0x10000)] v))
  { s with
    obj := { s.obj with routes := s.obj.routes.map fun r => { r with slots := [(0xF012, 0), (0xF012, 0), (0x7733, 0), (0x3018, 0x10000)] ++ List.replicate 4 (0, 0) } }
    coh := { s.coh with tlb := [{ core := 0, quad := none, part := 0, ctx := 0, va := 0x10000, s := 4, leaf := 0x200433, ends := 1000 }] } }

/-- `Issues` as a test, with what the context must meet. -/
def meets (i : Instr) (s : State) (p : Ctx → Bool) : Bool :=
  match s.ctx (hdrOf i) with
  | some x => (x.refuses i).isNone && !s.notReady x i && !s.poisonedReg x i && match x.popAll (portsOf i false) with
    | .ok y => p y
    | .error _ => false
  | none => false

/-- A passed test is a witness. -/
theorem meets_sound {i : Instr} {s : State} {p : Ctx → Bool} (h : meets i s p = true) : ∃ x y, Issues i s x y ∧ p y = true := by
  unfold meets at h
  split at h
  · next x hx =>
    simp only [Bool.and_eq_true, Bool.not_eq_true', Option.isNone_iff_eq_none] at h
    obtain ⟨⟨⟨h1, h2⟩, h3⟩, h4⟩ := h
    split at h4
    · next y hy => exact ⟨x, y, ⟨hx, h1, h2, h3, hy⟩, h4⟩
    · cases h4
  · cases h

/-- `Plain`, and every lane of the convoy active. -/
def plain (y : Ctx) : Bool := !y.bounds && y.und.isEmpty && y.act.length == 16

def isOk {ε α : Type} : Except ε α → Bool
  | .ok _ => true
  | .error _ => false

/-- Every word of the tables issues in element mode with all lanes active: the hypotheses of IntegerArithmetic, Addresses, DotProducts,
Moves, LogicAndFields, ComparesAndPredicates, FloatArithmetic, Conversions, SpecialFunctions, Collectives, StateReads and PF. -/
theorem witness_Integer : (wordsInteger.all fun p => meets p.2 ready plain) = true := by decide +kernel
theorem witness_Logic : (wordsLogic.all fun p => meets p.2 ready plain) = true := by decide +kernel
theorem witness_Float : ((wordsFloat1 ++ wordsFloat2).all fun p => meets p.2 ready plain) = true := by decide +kernel
theorem witness_Collective : (wordsCollective.all fun p => meets p.2 ready plain) = true := by decide +kernel
theorem witness_Memory : (wordsMemory.all fun p => meets p.2 ready plain) = true := by decide +kernel
theorem witness_Sync : (wordsSync.all fun p => meets p.2 ready plain) = true := by decide +kernel
theorem witness_Matrix : (wordsMatrix.all fun p => meets p.2 ready plain) = true := by decide +kernel
theorem witness_Copy : (wordsCopy.all fun p => meets p.2 ready plain) = true := by decide +kernel
theorem witness_Branch : (wordsBranch.all fun p => meets p.2 ready plain) = true := by decide +kernel
theorem witness_Overlay : (wordsOverlay.all fun p => meets p.2 ready plain) = true := by decide +kernel
theorem witness_Bounds : (wordsBounds.all fun p => meets p.2 ready plain) = true := by decide +kernel
theorem witness_System : (wordsSystem.all fun p => meets p.2 ready plain) = true := by decide +kernel

/-- The same read as a proposition: FADD issues in element mode with every lane active. -/
theorem witness_FloatArithmetic : ∃ s x y, Issues (.fadd (two .f32)) s x y ∧ Plain y := by
  obtain ⟨x, y, h, p⟩ := meets_sound (i := .fadd (two .f32)) (s := ready) (p := plain) (by decide +kernel)
  simp only [plain, Bool.and_eq_true, Bool.not_eq_true', List.isEmpty_iff] at p
  exact ⟨ready, x, y, h, p.1.1, p.1.2⟩

/-- The column runs as a bounds-pass column. -/
def bounded (f : Convoy → Convoy := id) : State := { ready f with cols := (ready f).cols.map fun c => { c with bmode := true } }

/-- R245, R248: with a result in a bounds pass; R137: operand intervals [1, 2] and [3, 4] that hold 1 and 4, whose results overflow nothing. -/
theorem witness_Intervals :
    meets (.iadd (two .i32)) bounded (fun y => (resultOf y (.iadd (two .i32))).isSome && y.bounds) = true ∧
    (let f := two .i32
     let op := (addAlu f).eval [⟨1, 2, false, false⟩, ⟨3, 4, false, false⟩]
     op.wide = false ∧ readInt 32 true op.lo ≤ 5 ∧ 5 ≤ readInt 32 true op.hi) := by decide +kernel

/-- A stream bound to a port. -/
def port : Port := { base := 0x10000, count := 20, stride := 4, ty := .f32, hint := .default, pos := 0, buf := [] }

/-- An operation of the convoy still on its way. -/
def op (kind : OpKind) (pieces : List Piece) : Op :=
  { id := 50, col := 0, cv := 0, quad := 0, pc := 0, kind, hint := .default, lease := 512, lanes := [0], pieces, vals := [], aux := [], comp := 0,
    issued := 0, seq := 50, csys := 0, recalled := false }

def piece : Piece := { grp := 0, lane := 0, loc := .dev, addr := 0x200000, n := 4, off := 0, va := 0x10000 }

/-- The instructions that read state, with port 2 as their destination. -/
def readsToPort : List Instr :=
  let r (sub : Nat) : RForm := rw (.q 2) .none .none .none .none .none sub 0
  [.movs (r 9), .perf (r 2), .ckrd (r 0), .ckrd (r 2), .ovlq (bw (.q 2) (.s 5) .none .none 0 0 0)]

/-- LDQ and STQ bind; a push under the old binding stalls STQ; a result goes to a bound port with room, one to a port whose elements lie
where nothing translates; reads of state too. -/
theorem witness_Ports :
    let ldq : MForm := mw (.q 0) (.s 4) (.s 6) 4 .b1 .global .none 0 .f32 0
    let stq : MForm := mw (.q 2) (.s 4) (.s 6) 4 .b1 .global .none 0 .f32 0
    let waits : State := { ready with ops := [op (.push 2 .f32 none) [piece]] }
    let bound := ready fun v => v.setPort 2 port
    let far := ready fun v => v.setPort 2 { port with base := 0x900000 }
    let pushes (s : State) (y : Ctx) : Bool := isOk ((s.begun y).push y 2 (some fun l => l) none)
    (readsToPort.all fun i => meets i bound (fun y => plain y && y.v.tileOps == 0 && pushes bound y) &&
      meets i far fun y => plain y && !pushes far y) = true ∧
    meets (.iadd (rw (.q 2) (.v 5) (.v 6) .none .none .n32 0 0)) far (fun y => plain y && !pushes far y) = true ∧
    meets (.ldq ldq) ready plain = true ∧
    meets (.stq stq) ready (fun y => plain y && !(ready.begun y).pushesPending y) = true ∧
    meets (.stq stq) waits (fun y => plain y && (waits.begun y).pushesPending y) = true ∧
    meets (.iadd (rw (.q 2) (.v 5) (.v 6) .none .none .n32 0 0)) bound (fun y => isOk ((bound.begun y).push y 2 (some fun l => l) none) &&
      isOk (bound.resolve y .global .write anyLoc ((y.act.zipIdx.filter fun le => le.2 < 20).flatMap fun le => wants le.1 (port.addr le.2) port.bytes))) = true := by
  decide +kernel

/-- Loads that translate and one that does not, to registers and to a write port; LDB through a block format. -/
theorem witness_Loads :
    let ld : MForm := mw (.v 6) (.s 4) .none 0x10 .b4 .global .none 0 .none 0
    let lds : MForm := mw (.v 6) (.v 5) .none 0 .b4 .scratch .none 0 .none 0
    let ldb : MForm := mw (.v 8) (.s 4) .none 0 .b1 .global .none 0 .none 34
    let far : MForm := mw (.v 6) (.s 6) .none 0 .b4 .global .none 0 .none 0
    let pf : MForm := { mw .none (.s 4) .none 0 .b1 .global .none 0 .none 0 with h := { plainHdr with g1 := ⟨false, 1⟩ } }
    let one_ := ready fun v => v.onLanes [2] fun _ l => l.setPred 1 .yes
    let got (space : Space) (f : MForm) (y : Ctx) : Bool :=
      isOk ((ready.begun y).resolve y space .read anyLoc (y.act.flatMap fun l => wants l (y.ea f l) f.size.bytes))
    let bound := ready fun v => v.setPort 2 port
    let off := ready fun v => v.setPort 2 { port with base := 0x900000 }
    let feeds (s : State) (space : Space) (conv : LoadConv) (f : MForm) (y : Ctx) : Bool := plain y &&
      match (s.begun y).resolve y space .read anyLoc (y.act.flatMap fun l => wants l (y.ea f l) f.size.bytes) with
      | .error _ => false
      | .ok (ps, u) =>
        let v := { y.v with loads := y.v.loads + 1 }
        isOk (((u.put y v).addOp y (.load conv f.a) f.h.hint y.act (groupPieces false ps) (y.act.map fun l => (l, 0)) []).push { y with v } 2 none
          (some u.nextId))
    let toPort (f : MForm) : MForm := { f with a := .q 2 }
    meets (.ld (toPort ld)) bound (feeds bound .global (.plain 4 false) (toPort ld)) = true ∧
    meets (.ld (toPort ld)) off (fun y => plain y && !feeds off .global (.plain 4 false) (toPort ld) y) = true ∧
    meets (.lds (toPort lds)) bound (feeds bound .scratch (.plain 4 false) (toPort lds)) = true ∧
    meets (.ldx { toPort ld with ty := .bf16, size := .b2 }) bound (feeds bound .global (.widen .bf16) { toPort ld with size := .b2 }) = true ∧
    meets (.ld (toPort far)) bound (fun y => plain y && !got .global far y) = true ∧
    meets (.ld ld) ready (fun y => plain y && got .global ld y) = true ∧
    meets (.ld far) ready (fun y => plain y && !got .global far y) = true ∧
    meets (.lds lds) ready (fun y => plain y && got .scratch lds y) = true ∧
    meets (.pf pf) one_ (fun y => !y.bounds && y.und.isEmpty && y.act == [2] &&
      match (one_.begun y).translate y.via y.c.part y.r.ctx (some y.c.epoch) (y.ea pf 2).toNat .read with
      | .ok (⟨.dev, pa⟩, t) => (t.l1Hit 0 y.v.quad (lineOf pa) (y.v.firstIssue.getD 0)).isNone &&
          ((t.checkBytes 0 .dev (64 * lineOf pa) 64).grant (lineOf pa) (.l1 y.v.quad) (y.lease .default)).isSome
      | _ => false) = true ∧
    meets (.ldx { ld with ty := .bf16, size := .b2 }) ready (fun y => plain y && got .global { ld with size := .b2 } y) = true ∧
    meets (.ldb ldb) ready (fun y => plain y && match y.fslot (slotOf ldb.ent.toNat) ldbFmts with
      | some q => isOk ((ready.begun y).resolve y .global .read anyLoc (y.act.flatMap (y.blockWants ldb q)))
      | none => false) = true := by decide +kernel

/-- Loads in a bounds pass without a summary. -/
theorem witness_BoundsLoads :
    let ld : MForm := mw (.v 6) (.s 4) .none 0x10 .b4 .global .none 0 .none 0
    let in_ (y : Ctx) : Bool := y.bounds && y.und.isEmpty && y.act.length == 16 && y.act.all fun l => (y.summaryFor ld false (y.eaRange ld l)).isNone
    meets (.ld ld) bounded in_ = true ∧
    meets (.ldx { ld with ty := .bf16, size := .b2 }) bounded in_ = true ∧
    meets (.lds (mw (.v 6) (.v 5) .none 0 .b4 .scratch .none 0 .none 0)) bounded in_ = true ∧
    meets (.ldx (mw (.v 6) (.v 5) .none 0 .b1 .scratch .none 0 .i8 0)) bounded in_ = true ∧
    meets (.ldb (mw (.v 8) (.s 4) .none 0 .b1 .global .none 0 .none 2)) bounded in_ = true := by decide +kernel

/-- Stores that translate and one that does not. -/
theorem witness_Stores :
    let st : MForm := mw (.v 6) (.s 4) .none 0x10 .b4 .global .none 0 .none 0
    let sts : MForm := mw (.v 6) (.v 5) .none 0 .b4 .scratch .none 0 .none 0
    let got (space : Space) (f : MForm) (y : Ctx) : Bool :=
      isOk ((ready.begun y).resolve y space .write anyLoc (y.act.flatMap fun l => wants l (y.ea f l) f.size.bytes))
    meets (.st st) ready (fun y => plain y && got .global st y) = true ∧
    meets (.st { st with b := .s 6 }) ready (fun y => plain y && !got .global { st with b := .s 6 } y) = true ∧
    meets (.sts sts) ready (fun y => plain y && got .scratch sts y) = true ∧
    meets (.stx { sts with ty := .i8, size := .b1 }) ready (fun y => plain y && got .scratch { sts with size := .b1 } y) = true ∧
    meets (.fill (mw (.v 12) (.s 4) (.s 8) 0 .b4 .global .none 0 .none 0)) ready (fun y => plain y &&
      isOk ((ready.begun y).resolve y .global .write anyLoc (y.act.flatMap fun l => wants l (y.uni (.s 4) 2 : Nat) 4))) = true := by decide +kernel

/-- Atomics at aligned addresses, at one that is not, and one in host memory. -/
theorem witness_Atomics :
    let at_ : MForm := mw (.v 6) (.s 4) .none 0x10 .b4 .global .none 0 .n32 0
    let odd : MForm := { at_ with off := 0x12 }
    let host : State := { ready with coh := { ready.coh with tlb := ready.coh.tlb.map fun t => { t with leaf := 0x200437 } }, fw := { ready.fw with atomicEn := [0] } }
    let sys : MForm := { at_ with scope := .sys }
    let ws (f : MForm) (y : Ctx) : List Want := y.act.map fun l => ⟨l, y.ea f l, 4, 0⟩
    meets (.atadd at_) ready (fun y => plain y && ((ready.begun y).hostAtomic? y).isNone && y.act.all (fun l => y.ea at_ l % 4 == 0) &&
      isOk ((ready.begun y).resolve y .global .atomic (atomicDeny 0 false false) (ws at_ y))) = true ∧
    meets (.atadd odd) ready (fun y => plain y && y.act.all fun l => y.ea odd l % 4 != 0) = true ∧
    meets (.atadd sys) host (fun y => plain y && match (host.begun y).resolve y .global .atomic (atomicDeny 0 true true) (ws sys y) with
      | .ok (ps, _) => ps.any fun p => p.loc == .host false
      | .error _ => false) = true := by decide +kernel

/-- CPY, CPY2, CPYP and CPYQ with good packets, and one with a bad packet and one at an odd offset; all of them behind a store on its way. -/
theorem witness_Copies :
    let s := ready (withSregs [(8, 0x10000), (10, 0x10400), (12, 256), (20, 2), (22, 512), (23, 512), (26, 0x10400), (28, 64)])
    let p : Packet := { op := 0, flags := 0, fmt := 0, hint := 0, len := 256, rows := 1, src := 0x10400, dst := 0x10000, sstride := 0, dstride := 0,
                        cwoff := 0, cwval := 0, task := 0, tmo := 0, zero := true }
    let rows (p : Packet) (y : Ctx) : Bool := !p.bad && (s.begun y).drained 0 0 && match (s.begun y).probeRows (y.side (p.flag 0)) .read p.srcRows with
      | .ok u => isOk (u.probeRows (y.side (p.flag 1)) .write p.dstRows)
      | .error _ => false
    let cpy : MForm := mw (.s 8) .none .none 0 .b1 .global .none 0 .none 0
    let bad := ready (withSregs [(14, 0x80000000)])
    let far := ready (withSregs [(20, 32)])
    let cpyq : MForm := mw .none (.s 20) .none 0 .b1 .scratch .none 0 .none 0
    let low := ready (withSregs [(20, 64)])
    let out := { ready with ops := [op .store [piece]] }
    meets (.cpy cpy) s (fun y => plain y && rows p y && s.copyPlaces y.core < 64) = true ∧
    meets (.cpy2 { cpy with b := .s 20, c := .s 22 }) s (fun y => plain y && rows { p with op := 1, rows := 2, sstride := 512, dstride := 512 } y) = true ∧
    meets (.cpyp { cpy with a := .s 24, b := .s 22, ty := .n8, ent := 2 }) s (fun y => plain y &&
      rows { p with op := 2, flags := 2, fmt := 5, dst := 0, len := 64, rows := 64, sstride := 512 } y) = true ∧
    meets (.cpy cpy) bad (fun y => (bad.begun y).drained 0 0 && { p with len := 0, src := 0, dst := 0, cwval := 0x80000000 }.bad) = true ∧
    meets (.cpyq cpyq) far (fun y => (far.begun y).drained 0 0 && y.uni cpyq.b % 64 != 0) = true ∧
    ([Instr.cpy cpy, .cpy2 { cpy with b := .s 20, c := .s 22 }, .cpyp { cpy with b := .s 22, ty := .n8, ent := 2 }, .cpyq cpyq].all fun i => meets i out fun y => !(out.begun y).drained 0 0) = true ∧
    meets (.cpyq cpyq) low (fun y => y.uni cpyq.b % 64 == 0 && y.uni cpyq.b + 64 ≤ spadSize y.c.banks) = true := by decide +kernel

/-- Messages 0 to n - 1 of a queue, none reserved. -/
def messages (n : Nat) : List Msg := (List.range n).map fun k => { k, at_ := 0, reserved := false, app := k, ready := 0 }

/-- Queue 5, of 32 places. -/
def theQueue (n : Nat) : Queue :=
  { id := 9, part := 0, slot := 3, ctx := 0, qnum := 5, msize := 16, cap := 32, leneff := 32, ring := 0x10000, isOpen := true, next := n
    msgs := messages n }

/-- Queue 5 with n messages, 0 to n - 1, of 32 places, and 5 in s6. -/
def queued (n : Nat) (held : List Held := []) (f : Convoy → Convoy := id) : State :=
  let s := ready fun v => f (withSregs [(6, 5)] v)
  { s with
    obj := { s.obj with queues := [theQueue n] }
    cols := s.cols.map fun c => { c with held } }

/-- QRD with messages for all, with too few, of slots that do not translate, with a closed and an absent queue; QACK of held and unheld addresses, and before a load
returned. -/
theorem witness_QueueReads :
    let qrd : MForm := mw (.v 8) (.s 6) .none 0 .b8 .global .none 0 .none 0
    let qack : MForm := mw (.v 8) (.s 6) .none 0 .b8 .global .none 0 .none 0
    let h : Held := { q := 5, qid := 9, k := 0, addr := 0x10000 }
    let names (v : Convoy) : Convoy := v.onLanes [3] fun _ l => l.setReg 8 0x10000
    let loading := { queued 16 [h] names with ops := [op (.load (.plain 4 false) (.v 1)) [piece]] }
    let away := { queued 16 with obj := { (queued 16).obj with queues := [{ theQueue 16 with ring := 0x900000 }] } }
    let shut := { queued 15 with obj := { (queued 15).obj with queues := [{ theQueue 15 with isOpen := false }] } }
    let reads (s : State) (y : Ctx) : Bool := plain y && s.obj.queues.all fun q =>
      isOk (y.slotsRead (s.begun y) (some q) ((q.msgs.filter fun m => !m.reserved && decide (m.at_ ≤ s.now)).take y.act.length))
    let free (s : State) : Nat := (s.obj.queues.flatMap fun q => q.msgs.filter fun m => !m.reserved && m.at_ ≤ s.now).length
    meets (.qrd qrd) (queued 16) (fun y => plain y && y.uni qrd.b == 5 && !(queued 16).feedsRoute 0 5 && y.act.length ≤ free (queued 16)) = true ∧
    meets (.qrd qrd) (queued 15) (fun y => plain y && y.uni qrd.b == 5 && free (queued 15) < y.act.length) = true ∧
    meets (.qrd qrd) (queued 16) (reads (queued 16)) = true ∧ meets (.qrd qrd) away (fun y => plain y && !reads away y) = true ∧
    meets (.qrd qrd) shut (fun y => plain y && (shut.queue? 0 5).all fun q => !q.isOpen && !q.msgs.isEmpty) = true ∧
    meets (.qrd { qrd with b := .s 7 }) (queued 16) (fun y => plain y && (queued 16).feedsRoute 0 (y.uni (.s 7))) = true ∧
    meets (.qack qack) (queued 16 [h] names) (fun y => plain y && y.act.all fun l => y.src l qack.a 2 == 0 || y.src l qack.a 2 == 0x10000) = true ∧
    meets (.qack qack) (queued 16 [] names) (fun y => plain y && y.c.held.isEmpty && y.src 3 qack.a 2 == 0x10000) = true ∧
    meets (.qack qack) loading (fun y => plain y && y.uni qack.b == 5) = true := by decide +kernel

/-- QWR with and without room, with messages that are still to be published, and to a queue that is absent; EMIT to the route itself, which batches from queue 0. -/
theorem witness_QueueWrites :
    let qwr : MForm := mw (.s 6) (.s 4) .none 0 .b1 .global .none 0 .none 2
    let ok (s : State) (n : Nat) (y : Ctx) : Bool := plain y && match (s.begun y).appendTarget 0 false 5 with
      | some q => q.hasRoom y.act.length == (n ≤ 16) && isOk ((s.begun y).probeRows (y.side false) .read [(0x10000, 16)])
      | none => false
    let fed := { queued 0 with obj := { (queued 0).obj with queues := (queued 0).obj.queues.map fun q => { q with qnum := 0 } } }
    let late := { queued 17 with obj := { (queued 17).obj with queues := [{ theQueue 17 with msgs := (messages 17).map fun m => { m with at_ := 9, ready := 9 } }] } }
    meets (.qwr qwr) late (fun y => plain y && match (late.begun y).appendTarget 0 false 5 with
      | some q => !q.hasRoom y.act.length && !q.full 0 y.act.length
      | none => false) = true ∧
    meets (.qwr qwr) (queued 16) (ok (queued 16) 16) = true ∧ meets (.qwr qwr) (queued 17) (ok (queued 17) 17) = true ∧
    meets (.qwr { qwr with ent := 7 }) (queued 17) (ok (queued 17) 17) = true ∧
    meets (.qwr qwr) fed (fun y => plain y && ((fed.begun y).appendTarget 0 false 5).isNone) = true ∧
    meets (.emit { qwr with a := .s 7 }) fed (fun y => plain y && ((fed.begun y).appendTarget 0 true 0).isSome) = true := by decide +kernel

/-- A barrier object in the first 16 bytes of the scratchpad. -/
def withBarrier (b : Barrier) (f : Convoy → Convoy := id) : State :=
  match (ready f).ctx plainHdr with
  | some x => (ready f).setBarrier x 0 b
  | none => ready f

/-- BARI, BARA, BARW, BARAW and WAITA where they arm, count, turn, wait, go on and are refused; SIGN where it signs, stalls and waits. -/
theorem witness_BarriersAndSigning :
    let b : Barrier := { exp := 32, pend := 32, phase := 0, ovr := false, armed := true, res := 0, waiters := 0, lastn := 0, lastcv := 0, tchg := 0 }
    let bar : MForm := mw .none (.s 7) .none 0 .b16 .scratch .none 0 .none 0
    let good (s : State) (n : Nat) (y : Ctx) : Bool := plain y && (y.ea bar 0).toNat == 0 && match (s.begun y).resolve1 y .scratch .read anyLoc ⟨0, 0, n, 0⟩ with
      | .ok (p, _) => !(s.begun y).earlierPending 0 0 (s.begun y).nextId p && !(s.begun y).tileTransfers 0 0 (s.begun y).nextId p true &&
          !(s.begun y).owned p && !(s.begun y).poisoned p && (s.begun y).fenceDev y && spadByte y.c.banks 0 == some p.addr
      | .error _ => false
    let two_ := withSregs [(20, 2)]
    let late := withSregs [(20, 1)]
    let w : MForm := { bar with ent := BitVec.ofNat 11 (20 * 32) }
    let n (s : State) (y : Ctx) : Nat := (s.barrier y 0).phase
    let out := { ready with ops := [op .store [piece]] }
    let sign3 := rw .none .none .none .none .none .none 0 3
    let signed := { ready with cols := ready.cols.map fun c => c.setCvreg 3 { (c.cvreg 3) with signers := [0] } }
    meets (.bari { bar with a := .s 20 }) (ready two_) (fun y => good (ready two_) 16 y && y.uni (.s 20) == 2) = true ∧
    meets (.bari { bar with a := .s 21 }) (ready two_) (fun y => good (ready two_) 16 y && y.uni (.s 21) == 0) = true ∧
    meets (.bara bar) (withBarrier b) (fun y => good (withBarrier b) 16 y && (withBarrier b).barrier y 0 == b) = true ∧
    meets (.bara bar) (withBarrier { b with pend := 16 }) (fun y => good (withBarrier { b with pend := 16 }) 16 y) = true ∧
    meets (.bara bar) (withBarrier { b with pend := 15 }) (fun y => good (withBarrier { b with pend := 15 }) 16 y) = true ∧
    meets (.barw w) (withBarrier b) (fun y => good (withBarrier b) 16 y && n (withBarrier b) y == (y.v.sreg 20).toNat % 16) = true ∧
    meets (.barw w) (withBarrier b late) (fun y => good (withBarrier b late) 16 y && n (withBarrier b late) y != (y.v.sreg 20).toNat % 16) = true ∧
    meets (.baraw w) (withBarrier { b with pend := 16 }) (fun y => good (withBarrier { b with pend := 16 }) 16 y) = true ∧
    meets (.waita { w with size := .b4, ent := BitVec.ofNat 11 (20 * 32) }) (ready late) (fun y => good (ready late) 4 y && (ready late).spadNum y.c.banks 0 4 != 1) = true ∧
    meets (.waita { w with size := .b4, ent := BitVec.ofNat 11 (20 * 32 + 3) }) (ready late) (fun y => good (ready late) 4 y) = true ∧
    meets (.bara bar) ready (fun y => good ready 16 y && !(ready.barrier y 0).armed) = true ∧
    meets (.baraw w) ready (fun y => good ready 16 y && !(ready.barrier y 0).armed) = true ∧
    meets (.baraw w) (withBarrier { b with pend := 15 }) (fun y => good (withBarrier { b with pend := 15 }) 16 y && y.act.length == 16) = true ∧
    meets (.bara { bar with a := .s 21 }) (withBarrier b) (fun y => good (withBarrier b) 16 y && y.uni (.s 21) == 0) = true ∧
    meets (.baraw w) out (fun y => plain y && !(out.begun y).fenceDev y) = true ∧
    meets (.bara bar) out (fun y => plain y && !(out.begun y).fenceDev y) = true ∧
    meets (.sign sign3) ready (fun y => plain y && (ready.begun y).fenceSign y && !(ready.begun y).roundFull y 3 false && !(y.c.cvreg 3).signers.contains 0) = true ∧
    meets (.sign sign3) out (fun y => plain y && !(out.begun y).fenceSign y) = true ∧
    meets (.sign sign3) signed (fun y => plain y && (signed.begun y).fenceSign y && (y.c.cvreg 3).signers.contains 0) = true := by
  decide +kernel

/-- FENCE, WAITC and NAP where they wait and where they do not. -/
theorem witness_FencesAndWaits :
    let out := { ready (fun v => { v with loads := 1 }) with ops := [op .store [piece]] }
    let relaxed := ready fun v => { v with relaxedSent := true }
    let fence (k : Nat) : Instr := .fence (rw .none .none .none .none .none .none k 0)
    meets (fence 3) ready (fun y => plain y && y.v.ctdev ≤ ready.now) = true ∧
    meets (fence 1) out (fun y => plain y && !out.ops.all (·.pieces.isEmpty)) = true ∧
    meets (fence 4) relaxed (fun y => plain y && y.v.relaxedSent && y.v.ctdev ≤ relaxed.now) = true ∧
    meets (.waitc (iw .none .none 0)) ready (fun y => plain y && y.v.loads ≤ 0) = true ∧
    meets (.waitc (iw .none .none 0)) out (fun y => plain y && !(y.v.loads ≤ 0)) = true ∧
    meets (.nap (iw .none .none 0)) ready plain = true ∧ meets (.nap (iw .none .none 5)) ready plain = true := by decide +kernel

/-- Branches to slot 0 of line 0, a branch target, and to one that is none; BRX through a table of halfwords. -/
theorem witness_Branches :
    let bra := bw .none .none .none .none 0 0 0
    let off := bw .none .none .none .none 7 0 0
    let s := ready (withSregs [(20, 2), (21, 1)])
    let to_ (f : BForm) (y : Ctx) : Bool := s.targetOk y.core y.c.part y.c.prog (mkPc (pcHandle y.pc) f.tline.toNat f.tslot.toNat)
    meets (.bra bra) s (fun y => plain y && to_ bra y) = true ∧ meets (.bra off) s (fun y => plain y && !to_ off y) = true ∧
    meets (.call bra) s (fun y => plain y && to_ bra y) = true ∧
    meets (.ret bra) s (fun y => plain y && y.act.all fun l => s.targetOk y.core y.c.part y.c.prog (y.v.lane l).lnk &&
      pcHandle (y.v.lane l).lnk == pcHandle y.pc) = true ∧
    meets (.loop { bra with b := .s 20 }) s (fun y => plain y && to_ bra y && y.v.sreg 20 - 1 != 0) = true ∧
    meets (.loop { bra with b := .s 21 }) s (fun y => plain y && y.v.sreg 21 - 1 == 0) = true ∧
    meets (.brx { bra with b := .s 7, d := .v 7, ent := 0 }) s (fun y => plain y && y.uni (.s 7) % 2 == 0 && s.spadNum y.c.banks 0 2 == 0 &&
      y.act.all fun l => y.src l (.v 7) == 0) = true := by decide +kernel

/-- A handler in the resident overlay, and none; TRAPRET with lanes in trap mode; a lane already in the handler. -/
theorem witness_TrapsAndKills :
    let s := ready
    let handled := { s with obj := { s.obj with routes := s.obj.routes.map fun r => { r with words := [0x2F1000, 0, 0, 0, 0, 0] } } }
    let leaving : State := { s with cols := s.cols.map fun c => { c with phase := .stopping } }
    let inTrap := ready fun v => v.onLanes (List.range 16) fun _ l => { l with trap := true, fault := 5 }
    (handled.cols.any fun c => match handled.route? c.part c.prog with
      | some r => r.trapen && (handled.res 0 c.part c.prog (pcHandle r.trappc)).st == .resident && handled.targetOk 0 c.part c.prog r.trappc &&
          !c.dying && c.cvs.all fun v => v.lanes.all fun l => l.live && !l.trap
      | none => false) = true ∧
    (leaving.cols.any fun c => !c.killed && c.beingSaved && match leaving.route? c.part c.prog with
      | some r => !r.trapen
      | none => false) = true ∧
    (s.cols.any fun c => !c.killed && match s.route? c.part c.prog with
      | some r => !r.trapen
      | none => false) = true ∧
    meets (.trap (bw .none .none .none .none 0 0 1)) handled plain = true ∧ meets (.bkpt (bw .none .none .none .none 0 0 1)) handled (fun y => plain y && y.r.trapen) = true ∧
    meets (.bkpt (bw .none .none .none .none 0 0 1)) s (fun y => plain y && !y.r.trapen) = true ∧
    meets (.trapret (bw .none .none .none .none 0 0 0)) inTrap (fun y => plain y && y.act.all fun l => (y.v.lane l).trap &&
      inTrap.targetOk y.core y.c.part y.c.prog (y.v.lane l).trpc) = true := by decide +kernel

/-- The overlays of the route in another state, or its directory with an automatic second entry. -/
def overlaid (st : ResSt) (auto : Bool := false) (f : Convoy → Convoy := id) : State :=
  let s := ready f
  { s with eng := { s.eng with res := s.eng.res.map fun r => { r with st } }
           obj := { s.obj with routes := s.obj.routes.map fun r => { r with dir := (r.dir.map fun d => { d with image := 0x10000 }) ++ [{ handle := 1, image := 0x10000, auto, share := false, nbm1 := 0, digest := 0 }] } } }

/-- CALLO and RETO with a resident, a loading, an absent and an unregistered overlay, and with full and empty stacks. -/
theorem witness_OverlayCalls :
    let callo : BForm := bw .none (.s 20) .none .none 0 0 0
    let h1 := withSregs [(20, 1)]
    let h2 := withSregs [(20, 2)]
    let st (s : State) (y : Ctx) (h : Nat) : ResSt := (s.res y.core y.c.part y.c.prog h).st
    let deep (v : Convoy) : Convoy := { v with stack := List.replicate 8 0 }
    meets (.callo { callo with b := .s 7 }) ready (fun y => plain y && (y.r.dirEntry 0).isSome && st ready y 0 == .resident && y.v.stack.length < 8 && ready.targetOk y.core y.c.part y.c.prog 0) = true ∧
    meets (.callo callo) (overlaid .loading) (fun y => plain y && st (overlaid .loading) y 0 == .loading) = true ∧
    meets (.callo callo) (overlaid .resident false h1) (fun y => plain y && (y.r.dirEntry 1).any (!·.auto) && st (overlaid .resident false h1) y 1 == .absent) = true ∧
    meets (.callo callo) (overlaid .resident true h1) (fun y => plain y && match y.r.dirEntry 1 with
      | some d => d.auto && (((overlaid .resident true h1).begun y).probeImage y d).isNone
      | none => false) = true ∧
    meets (.callo callo) (ready h2) (fun y => plain y && (y.r.dirEntry 2).isNone) = true ∧
    meets (.callo callo) (ready deep) (fun y => plain y && 8 ≤ y.v.stack.length) = true ∧
    meets (.reto (bw .none .none .none .none 0 0 0)) ready (fun y => plain y && y.v.stack.isEmpty) = true ∧
    meets (.reto (bw .none .none .none .none 0 0 0)) (ready deep) (fun y => plain y && !y.v.stack.isEmpty && (ready deep).targetOk y.core y.c.part y.c.prog 0) = true := by
  decide +kernel

/-- OVL of a resident, a loading and an absent overlay; the token instructions. -/
theorem witness_OverlayRequests :
    let ovl : BForm := bw .none (.s 20) .none .none 0 0 0
    let h1 := withSregs [(20, 1)]
    let here := overlaid .resident
    let t (s : State) (y : Ctx) : State := ((s.begun y).forbidRollback y.cur.col).onConvoy y.cur.col y.cur.cv fun v => { v with copies := v.copies + 1 }
    let answer (s : State) (y : Ctx) (h : Nat) : Option LoadAnswer := (y.r.dirEntry h).map fun d => ((t s y).load y.core y.c.part y.c.prog h d).2
    meets (.ovl { ovl with b := .s 7 }) here (fun y => plain y && (y.r.dirEntry 0).any (fun d => ((here.begun y).probeImage y d).isNone) &&
      answer here y 0 == some .resident) = true ∧
    meets (.ovl ovl) (overlaid .resident true h1) (fun y => plain y && (y.r.dirEntry 1).any (fun d => ((here.begun y).probeImage y d).isNone) && answer (overlaid .resident true h1) y 1 == some .loading) = true ∧
    meets (.ovlpin ovl) ready plain = true ∧ meets (.ovlrel ovl) ready plain = true ∧ meets (.ovlev ovl) ready plain = true := by decide +kernel

/-- An entry of quadrant 0's reservation table. -/
def entry : MxEntry :=
  { id := 90, quad := 0, col := 0, cv := 0, signers := [(0, 0)], tile := 1, urg := 0, work := .acz, left := 1, chunks := [], busy := 0, recalled := false }

/-- The state with its routes changed. -/
def withRoute (f : Route → Route) (s : State) : State := { s with obj := { s.obj with routes := s.obj.routes.map f } }

/-- MMA and MMAT with their operands inside the scratchpad, on a convergence register and on one signed already; the transfers, ACWR, PLST and
CBLD. -/
theorem witness_MatrixPosts :
    let s := ready (withSregs [(10, 0x1000), (11, 0x4000), (12, 0), (13, 0)])
    let mma := xw true false 0 0 (.s 10) (.s 11) .none .none 0 1 0 false 0 0
    let conv := xw true false 0 0 (.s 10) (.s 11) .none .none 0 1 0 true 9 0
    let signed := { s with cols := s.cols.map fun c => c.setCvreg 9 { (c.cvreg 9) with signers := [0] } }
    let full := { s with eng := { s.eng with mx := List.replicate 16 entry } }
    let fits (s : State) (f : XForm) (y : Ctx) : Bool := plain y && (probeRanges y.c.banks 1 (y.mmaRanges f)).isNone && !y.bookPending f &&
      (s.begun y).fenceDev y && s.ops.isEmpty && s.eng.mx.all fun e => e.work.rows.isNone
    let tile := xw false false 0 4 (.s 10) .none .none .none 0 0 0 false 0 0
    let plst := xw false false 0 0 (.s 10) (.s 12) .none .none 1 0 0 false 0 (6 * 16)
    let cbld := xw false false 0 0 .none .none .none .none 3 0 0 false 0 0
    meets (.mma mma) s (fits s mma) = true ∧ meets (.mmat mma) s (fits s mma) = true ∧
    meets (.mma mma) full (fun y => fits full mma y && 16 ≤ (full.eng.mx.filter (·.quad == y.v.quad)).length) = true ∧
    meets (.mma conv) s (fun y => fits s conv y && !(s.begun y).roundFull y 9 true && !(y.c.cvreg 9).signers.contains 0) = true ∧
    meets (.mma conv) full (fun y => fits full conv y && (full.begun y).roundFull y 9 true) = true ∧
    meets (.mma conv) signed (fun y => fits signed conv y && (y.c.cvreg 9).signers.contains 0) = true ∧
    meets (.acld tile) s (fun y => plain y && (probeRanges y.c.banks 1 ((List.range 64).map fun r => (0x1000 + r * 256, 256, 1))).isNone) = true ∧
    meets (.acst tile) s (fun y => plain y && (probeRanges y.c.banks 2 ((List.range 64).map fun r => (0x1000 + r * 256, 256, 1))).isNone) = true ∧
    meets (.acz { tile with b := .none }) s plain = true ∧ meets (.acwr { tile with variant := 6 * 16 }) s plain = true ∧
    meets (.plst plst) s (fun y => plain y && (y.fslot 1 Fmt.plane).isSome && y.uni (.s 10) % 512 == 0 &&
      isOk ((s.begun y).resolve y .scratch .write anyLoc [⟨0, 0x1000, 8, 0⟩])) = true ∧
    meets (.cbld cbld) s (fun y => plain y && match y.fslot 3 [.cb4] with
      | some q => isOk ((s.begun y).resolve y .global .read anyLoc [⟨0, (q.cbaddr : Int), 32, 0⟩])
      | none => false) = true := by decide +kernel

/-- A pending fill of a float at 0x10000. -/
def toFill : Fill := { base := 0x10000, off := 0, rs := 0, value := 7, size := 4, hint := .default }

/-- The bounds instructions in a bounds pass, FILL where half of the lanes hold four already, BDONE and EXIT with fills; R258: WIDEN of a register and of a predicate. -/
theorem witness_BoundsInstructions :
    let tile : Tile := { depth := 0, index := 0, x := 0, y := 0, sx := 1, sy := 1 }
    let s := bounded fun v => v.onLanes (List.range 16) fun _ l => { l with tile := some tile }
    let odd := bounded (withSregs [(20, 4)])
    let in_ (y : Ctx) : Bool := y.bounds && y.und.isEmpty && y.act.length == 16
    let bsum : MForm := mw (.s 22) (.s 4) (.s 7) 0 .b2 .global .none 0 .f16 0
    let fill : MForm := mw (.v 12) (.s 4) (.s 7) 0 .b4 .global .none 0 .none 0
    meets (.bsum bsum) s (fun y => in_ y && y.uni bsum.a 2 % 8 == 0) = true ∧
    meets (.bsum { bsum with a := .s 20 }) odd (fun y => in_ y && y.uni (.s 20) 2 % 8 != 0) = true ∧
    let four := bounded fun v => v.onLanes (List.range 16) fun k l => { l with tile := some tile, fills := if k < 8 then List.replicate 4 toFill else [toFill] }
    let fits (s : State) (y : Ctx) : Bool := y.act.all fun l => isOk ((s.begun y).resolve y .global .write anyLoc (fillWants l toFill (y.r.range tile)))
    meets (.fill fill) four (fun y => in_ y && (y.act.filter fun l => 4 ≤ (y.v.lane l).fills.length) == List.range 8 && fits four y) = true ∧
    ([Instr.bdone (bw .none .none .none .none 0 0 0), .exit (bw .none .none .none .none 0 0 0)].all fun i => meets i four fun y => in_ y && fits four y) = true ∧
    meets (.fill fill) s (fun y => in_ y && y.act.all (fun l => (y.read l fill.a 1).isPoint && !(y.read l fill.a 1).mn && (y.v.lane l).fills.length < 4)) = true ∧
    meets (.widen (rw (.v 5) .none .none .none .none .none 0 0)) s in_ = true ∧ meets (.widen (rw (.p 5) .none .none .none .none .none 0 0)) s in_ = true ∧
    meets (.defer (bw .none .none .none .none 0 0 0)) s in_ = true ∧ meets (.split (bw .none .none .none .none 0 0 0)) s in_ = true ∧
    meets (.bdone (bw .none .none .none .none 0 0 0)) s in_ = true ∧ meets (.exit (bw .none .none .none .none 0 0 0)) s in_ = true := by decide +kernel

/-- R241: a tile that may be quartered; R251: back-edges at each of the counts that a clause names. -/
theorem witness_BoundsPasses :
    let t : Tile := { depth := 0, index := 0, x := 0, y := 0, sx := 32, sy := 32 }
    let r := { placedRoute 0 with words := [0, 0, 0xD055, 0, 0, 0] }
    let l (n k : Nat) : Lane := { Lane.zero with edges := (List.range n).map fun i => { pc := BitVec.ofNat 25 i, count := k, regs := [5], preds := [1] } }
    r.mayQuarter t = true ∧ r.twod = true ∧ ((l 3 1).edges.find? (·.pc == 8)).isNone ∧ ((l 4 1).backEdge 8).isNone ∧ ((l 3 1).backEdge 8).isSome ∧
    ((l 3 3).backEdge 0).isSome ∧ ((l 3 4).backEdge 0).isSome ∧ ((l 3 5).backEdge 0).isSome ∧ ((l 3 16).backEdge 0).isNone := by decide +kernel

/-- FWCALL while earlier accesses are out and when they are done; an unassigned opcode; a line to be read again. -/
theorem witness_FirmwareCallsAndFetch :
    let out := { ready with ops := [op .store [piece]] }
    let call : Instr := .fwcall (iw (.s 9) (.s 4) 3)
    let lined := withRoute (fun r => { r with dir := r.dir.map fun d => { d with image := 0x10000 } }) ready
    meets call ready (fun y => plain y && (ready.begun y).fenceDev y) = true ∧ meets call out (fun y => plain y && !(out.begun y).fenceDev y) = true ∧
    (ready.ctx plainHdr).isSome ∧
    ((lined.ctx plainHdr).any fun x => (lined.lineFor x.core x.c.part x.c.prog x.pc).isSome &&
      (x.r.dirEntry (pcHandle x.pc)).any fun d => (lined.vaBytes ⟨x.core, none⟩ x.c.part x.r.ctx (d.image + 64 * pcLine x.pc) 64).isSome) = true := by
  decide +kernel

/-- R120: each check is the first that fails for some instruction. -/
theorem witness_CheckOrder :
    let refused (i : Instr) (s : State) (c : BitVec 16) : Bool := match s.ctx (hdrOf i) with
      | some x => x.refuses i == some c
      | none => false
    let few := withRoute (fun r => { r with words := [0, 0, 0, 0, 0, 0] }) ready
    let broken := withRoute (fun r => { r with slots := [(0x180000, 0)] }) ready
    let split := ready fun v => v.onLanes [3] fun _ l => { l with pc := 8 }
    let waits := { ready with ops := [op (.load (.plain 4 false) (.v 5)) [piece]] }
    let poisoned := { ready with coh := { ready.coh with poison := [.reg 0 0 3 5] } }
    let flipped := { ready with coh := { ready.coh with poison := [.weak (.reg 0 0 1 5)] } }
    let add := Instr.iadd (two .n32)
    refused (.iadd (rw (.v 4) (.v 5) (.v 6) (.v 7) .none .n32 0 0)) ready cOperand = true ∧
    refused (.iadd (rw (.v 9) (.v 5) (.v 6) .none .none .n32 0 0)) few cOperand = true ∧
    refused (.bra (bw .none .none .none .none 0 5 0)) ready cBranch = true ∧
    refused (.cpy (mw (.s 8) .none .none 0 .b1 .global .none 0 .none 0)) bounded cBounds = true ∧
    refused (.dqnt (rw (.v 4) (.v 5) (.v 6) .none .none .none 0 0)) broken cSlot = true ∧
    refused (.cpy (mw (.s 8) .none .none 0 .b1 .global .none 0 .none 0)) split cPartial = true ∧
    (match waits.ctx (hdrOf add) with
      | some x => (x.refuses add).isNone && waits.notReady x add
      | none => false) = true ∧
    (match poisoned.ctx (hdrOf add) with
      | some x => (x.refuses add).isNone && !poisoned.notReady x add && poisoned.poisonedReg x add && !poisoned.unreadReg x add
      | none => false) = true ∧
    (match flipped.ctx (hdrOf add) with
      | some x => (x.refuses add).isNone && !flipped.notReady x add && flipped.poisonedReg x add && flipped.unreadReg x add
      | none => false) = true := by decide +kernel

/-- No lane is active: both guards name a false predicate. -/
theorem witness_InactiveGroups :
    let never (i : MForm) : MForm := { i with h := { plainHdr with g1 := ⟨false, 3⟩ } }
    let none_ (y : Ctx) : Bool := !y.bounds && y.und.isEmpty && y.act.isEmpty
    meets (.ld (never (mw (.v 6) (.s 4) .none 0 .b4 .global .none 0 .none 0))) ready none_ = true ∧
    meets (.ldq (never (mw (.q 0) (.s 4) (.s 6) 4 .b1 .global .none 0 .f32 0))) ready none_ = true ∧
    meets (.qwr (never (mw (.s 6) (.s 4) .none 0 .b1 .global .none 0 .none 2))) ready none_ = true ∧
    meets (.fence { rw .none .none .none .none .none .none 3 0 with h := { plainHdr with g2 := ⟨true, 7⟩ } }) ready none_ = true := by decide +kernel

/-! ## Device steps -/

/-- The device step gives a next state that passes the test. -/
def does (i : Instr) (s : State) (p : State → Bool) : Bool :=
  match exec i s with
  | .next t => p t
  | _ => false

/-- A convoy that waits. -/
def waiting (kind : WaitKind) (met : Bool) (deadline : Option Nat) : State :=
  ready fun v => { v with wait := some { kind, pc := 0, group := List.range 16, active := List.range 16, deadline, err := none, met, since := none } }

/-- Waits of each kind, over and not over, and the steps that end them. -/
theorem witness_Wakes :
    let bar := WaitKind.barrier 0 0 (some 1)
    let ok (s : State) : Bool := match s.wakeCtx 0 0 with
      | some (x, w) => w.group.any fun l => (x.v.lane l).live
      | none => false
    let p1 (b : Tri) (t : State) : Bool := (t.convoy? 0 0).any fun v => v.wait.isNone && (v.lane 3).pred 1 == b && (v.lane 3).pc == 1
    let over_ (t : State) : Bool := (t.convoy? 0 0).any fun v => v.wait.isNone
    let page : PageReq := { part := 0, ctx := 0, page := 16, entry := 0, ready := none }
    ok (waiting bar true none) = true ∧ does (.convoyWake 0 0) (waiting bar true none) (p1 .yes) = true ∧
    does (.convoyWake 0 0) (waiting bar false none) (fun t => !over_ t) = true ∧
    does (.waitBoundExpiry 0 0) (waiting bar false (some 0)) (p1 .no) = true ∧
    does (.waitBoundExpiry 0 0) (waiting bar false (some 1)) (fun t => !over_ t) = true ∧
    does (.convoyWake 0 0) (waiting (.waita 0 0 7 (some 1)) true none) (p1 .yes) = true ∧
    does (.waitBoundExpiry 0 0) (waiting (.waita 0 0 7 (some 1)) false (some 0)) (p1 .no) = true ∧
    does (.napExpiry 0 0) (waiting .nap false (some 0)) over_ = true ∧ does (.napExpiry 0 0) (waiting .nap false (some 1)) (fun t => !over_ t) = true ∧
    does (.convoyWake 0 0) (waiting (.waitc 0 0 0 0) false none) over_ = true ∧
    does (.fwcallAnswer 0 0) (waiting (.fwcall 1 none (.s 9) (some 4)) false none) (fun t => (t.convoy? 0 0).any fun v => v.sreg 9 == 4) = true ∧
    does (.fwcallAnswer 0 0) { waiting (.fwcall 0 none (.s 9) none) false none with calls := [(0, 0, 0)] } over_ = true ∧
    does (.fwcallAnswer 0 0) { waiting (.fwcall 9 none (.s 9) none) false none with calls := [(0, 0, 0)] } (fun t => (t.convoy? 0 0).any fun v => v.sreg 9 == 0xFFFFFFFF) = true ∧
    does (.fwcallAnswer 0 0) (waiting (.fwcall 9 none (.s 9) none) false none) (fun t => !over_ t) = true ∧
    does (.replay 0 0) { waiting (.replay 0 16) false none with paging := [page] } (fun t => !over_ t) = true ∧
    does (.replay 0 0) (waiting (.replay 0 16) false none) over_ = true := by decide +kernel

/-- An operation on its way in `ready`, with 0x44332211 at physical address 0x200000. -/
def under (o : Op) (f : Convoy → Convoy := id) : State :=
  let s := ready f
  { s with ops := [o], store := { s.store with dev := [(0x200000, 0x11), (0x200001, 0x22), (0x200002, 0x33), (0x200003, 0x44)] } }

/-- Loads, stores, pushes and atomics performed, acknowledged and failed. -/
theorem witness_AccessesPerformed :
    let load := { op (.load (.plain 4 false) (.v 20)) [piece] with vals := [(0, 0)] }
    let store := { op .store [piece] with vals := [(0, 0x55667788)] }
    let atomic := { op (.atomic 0 .n32 4 (some (.v 20))) [piece] with aux := [(0, 1, 0)] }
    let hosted := { atomic with pieces := [{ piece with loc := .host false }], lease := 0 }
    let posted := { op .posted [{ piece with loc := .host false }] with vals := [(0, 0x55667788)] }
    let sending := { store with pieces := [{ piece with loc := .host false }] }
    let sent : State := { under sending fun v => { v with stores := 1 } with nextId := 60 }
    let counted (v : Convoy) : Convoy := { v with loads := 1, stores := 1, tileOps := 1 }
    let ok (s : State) (o : Op) : Bool := s.op? 50 == some o && s.coh.poison.isEmpty && s.coh.flips.isEmpty && s.store.wf && s.coh.l1.isEmpty
    let dev (t : State) : Nat := t.devNum 0x200000 4
    ok (under load counted) load = true ∧ (under load counted).mayPerform load piece false = true ∧
    (under load counted).copyFor load piece false = none ∧ (under load counted).copyFor load piece true = none ∧
    (under load counted).owned piece = false ∧ ((under load counted).convoy? 0 0).any (·.arrived.isEmpty) = true ∧
    ok sent sending = true ∧ sent.mayPerform sending { piece with loc := .host false } true = true ∧
    does (.storeArrival 50 0) sent (fun t => t.ops.getLast?.any fun q => q.kind == .posted && q.seq == 50) = true ∧
    (under hosted counted).mayPerform hosted { piece with loc := .host false } true = true ∧ (under hosted counted).hostWrites hosted false = false ∧
    does (.loadReturn 50 0 false) (under load counted) (fun t => (t.convoy? 0 0).any fun v => (v.lane 0).reg 20 == 0x44332211 && v.loads == 0) = true ∧
    (under store counted).mayPerform store piece true = true ∧ does (.storeArrival 50 0) (under store counted) (fun t => dev t == 0x55667788) = true ∧
    does (.pushPerform 50 0) (under { store with kind := .push 2 .n32 none } counted) (fun t => dev t == 0x55667788) = true ∧
    does (.storeArrival 50 0) (under atomic counted) (fun t => dev t == 0x44332212 && (t.convoy? 0 0).any fun v => (v.lane 0).reg 20 == 0x44332211) = true ∧
    hosted.hostHead = some { piece with loc := .host false } ∧
    does (.hostAtomicCompletion 50 .success) (under hosted counted) (fun t => Memory.read t.store.host 0x200000 == 1) = true ∧
    does (.hostAtomicCompletion 50 .unsupported) (under hosted counted) (fun t => t.op? 50 == none) = true ∧
    does (.completionTimeout 50) { under hosted counted with wall := 50000000 } (fun t => t.op? 50 == none) = true ∧
    (under posted counted).postedTurn posted = true ∧ does (.storeArrival 50 0) (under posted counted) (fun t => Memory.read t.store.host 0x200000 == 0x88) = true ∧
    does (.storeAck 50) (under { store with pieces := [], comp := 7 } counted) (fun t => (t.convoy? 0 0).any fun v => v.stores == 0 && v.ctdev == 7) = true ∧
    does (.storeAck 50) (under { store with kind := .append, pieces := [] } counted) (fun t => t.op? 50 == none) = true ∧
    does (.plstMergeComplete 50) (under { store with kind := .plst, pieces := [] } counted) (fun t => (t.convoy? 0 0).any fun v => v.tileOps == 0) = true ∧
    does (.codebookReady 50) (under { op (.codebook 3) [{ piece with n := 32 }] with vals := [(0, 0)] } counted) (fun t => (t.convoy? 0 0).any fun v =>
      (v.books.lookup 3).any fun b => b.ready && b.table.head? == some 0x2211) = true := by decide +kernel

/-- A bound read port with an element that nobody has fetched. -/
theorem witness_ReadAhead :
    let o := op .store []
    let s := under o fun v => v.setPort 0 port
    ((s.convoy? 0 0).bind fun v => (v.port? 0).bind Port.nextFetch) = some 0 ∧
    does (.readAheadFetch 0 0 0) s (fun t => (t.convoy? 0 0).any fun v => (v.port? 0).any fun p => p.buf == [(0, .value 0x44332211)]) = true := by decide +kernel

/-- A copy of 64 bytes from 0x10040 to 0x10000, its source read, its destination line still to be written. -/
def job : CopyJob :=
  { id := 70, src := .cv 0 0 0, part := 0, prog := 0, ctx := 0, epoch := none, quad := 0, colid := 0, route := 0, lease := 512, op := 0, flags := 4, fmt := 0,
    hint := 0, len := 64, rows := 1, srcAddr := 0x10040, dstAddr := 0x10000, sstride := 0, dstride := 0, cwoff := 8, cwval := 77, task := 0, tmo := 0,
    issued := 0, banks := [0], pend := [{ va := 0x10000, loc := .dev, line := 0x8000 }], srcLines := [], toRead := [], got := [(0x10040, 9)], begun := true, shards := 0,
    fromPeer := false, accepted := [] }

def copying (j : CopyJob) (f : Convoy → Convoy := fun v => { v with copies := 1 }) : State := { ready f with eng := { (ready f).eng with jobs := [j] } }

/-- A line granted, one under a lease, the end of a copy, and one whose destination does not translate. -/
theorem witness_CopyEngine :
    let l : CopyLine := { va := 0x10000, loc := .dev, line := 0x8000 }
    let leased := { copying job with coh := { (copying job).coh with leases := [{ line := 0x8000, holder := .l1 1, ends := 9 }] } }
    let ended := { job with pend := [] }
    let lost := { job with pend := [{ l with va := 0x90000 }], dstAddr := 0x90000 }
    (copying job).mayBegin job = true ∧ (copying job).hostHeld job l [] = false ∧ (copying job).lineClaimed job l = false ∧ (copying job).leasesOver l = true ∧
    (match (copying job).sideByte ((copying job).dstSide job) .write 0x10000 with
      | .ok p => p == ⟨.dev, 0x200000⟩
      | .error _ => false) = true ∧
    does (.ownershipGrant 70 0) (copying job) (fun t => Memory.read t.store.dev 0x200000 == 9 && (t.job? 70).any fun q => q.pend.isEmpty) = true ∧
    leased.leasesOver l = false ∧ does (.ownershipGrant 70 0) leased (· == leased) = true ∧
    does (.copyCompletion 70) (copying ended) (fun t => t.job? 70 == none && t.spadNum [0] 8 4 == 77 && (t.convoy? 0 0).any fun v => v.copies == 0) = true ∧
    does (.copyCompletion 70) (copying job) (· == copying job) = true ∧
    ((copying lost).copyTrouble lost).isSome ∧
    does (.copyFailure 70) (copying lost) (fun t => t.job? 70 == none && t.spadNum [0] 8 4 == 0x8000004D) = true := by decide +kernel

def mxd (es : List MxEntry) (f : Convoy → Convoy := fun v => { v with tileOps := 1 }) : State := { ready f with eng := { (ready f).eng with mx := es } }

/-- A clause in progress. -/
def hold : PortHold := { quad := 0, col := 0, cv := 0, pc := 0, start := 0, len := 0 }

/-- ACZ, ACLD, ACST and ACWR taken by the free engine; the more urgent of two; a drain before its time; a fault at a clause boundary. -/
theorem witness_MatrixEngine :
    let urgent := { entry with id := 91, tile := 2, urg := 2 }
    let wr := { entry with work := .acwr [(3, 5)] }
    let mma := { entry with left := 0, work := .mma false (xw true false 0 1 (.s 10) (.s 11) .none .none 0 1 0 false 0 0) 0 0 0 0 [] }
    let over_ : State := { mxd [mma] with wall := 32 }
    let route := (ready.route? 0 0).getD (placedRoute 0)
    let off (cols : Bool) : List Nat := (List.range 64).filter (mma.mismatches route false (xw true false 0 1 (.s 10) (.s 11) .none .none 0 1 0 false 0 0) [] [] [] cols)
    let faulty := mxd [] fun v => { v with tileOps := 1, boundary := [(cChecksum, 0)] }
    let held := { faulty with holds := [hold] }
    (mxd [entry]).mxEligible 0 entry = true ∧ (mxd [entry, urgent]).mxEligible 0 urgent = true ∧ ((mxd [entry, urgent]).eng.mx.map (·.id)).Nodup ∧
    does (.matrixPassGrant 0) (mxd [entry, urgent]) (fun t => (t.eng.mx.find? (·.id == 91)).any (·.left == 0)) = true ∧
    does (.matrixPassGrant 0) (mxd [{ entry with busy := 9 }]) (· == mxd [{ entry with busy := 9 }]) = true ∧
    off false = [] ∧ off true = [] ∧ does (.matrixDrain 0 90 [] []) over_ (fun t => t.eng.mx.isEmpty && (t.convoy? 0 0).any (·.tileOps == 0)) = true ∧
    does (.matrixPassGrant 0) (mxd [wr]) (fun t => t.tileWord 0 1 3 == 5) = true ∧
    does (.matrixPassGrant 0) (mxd [{ entry with work := .acld 0 256 }]) (fun t => (t.eng.mx.head?).any fun e => e.left == 0) = true ∧
    does (.matrixDrain 0 90 [] []) (mxd [mma]) (· == mxd [mma]) = true ∧ (mxd [mma]).store.wf = true ∧
    ((mxd [mma]).eng.mx.find? fun m => m.id == 90 && m.quad == 0) = some mma ∧
    held.holds ≠ [] ∧
    does (.checksumFaultDelivery 0 0) { faulty with holds := [] } (fun t => (t.column? 0).any (·.killed)) = true ∧
    does (.checksumFaultDelivery 0 0) held (fun t => (t.column? 0).any (!·.killed)) = true := by decide +kernel

/-- The overlay of `ready` in loading, with this image and digest; its end asked for or not, with a column that refers to it or without. -/
def loadingOverlay (image digest : Nat) (evpend idle : Bool := false) : State :=
  let s := withRoute (fun r => { r with dir := r.dir.map fun d => { d with image, digest } }) ready
  { s with eng := { s.eng with res := s.eng.res.map fun r => { r with st := .loading, evpend } }, cols := if idle then [] else s.cols }

/-- An image that does not translate. -/
theorem witness_OverlayLoads :
    (((loadingOverlay 0x900000 0).loading? 0 0 0 0).any fun x => match (loadingOverlay 0x900000 0).imageOf 0 0 x.2.1 x.2.2 with
      | .bad c _ => c == cTranslation
      | .bytes _ => false) = true ∧
    does (.overlayLoadFail 0 0 0 0) (loadingOverlay 0x900000 0) (fun t => (t.res 0 0 0 0).st == .absent) = true ∧
    does (.overlayLoadEnd 0 0 0 0) (loadingOverlay 0x900000 0) (fun t => (t.res 0 0 0 0).st == .loading) = true := by decide +kernel

/-- An image of zeros reads as zeros where every byte translates to one. -/
theorem readVa_zeros {s : State} {core part ctx : Nat} : ∀ {n va : Nat},
    ((List.range' va n).all fun a => match s.translate ⟨core, none⟩ part ctx none a .read with
      | .ok (t, _) => !s.readsBad part t && s.peek t.loc t.pa == 0
      | .error _ => false) = true → s.readVa ⟨core, none⟩ part ctx va n = .bytes (List.replicate n 0)
  | 0, _, _ => rfl
  | n + 1, va, h => by
    rw [List.range'_succ, List.all_cons, Bool.and_eq_true] at h
    have ih := readVa_zeros (n := n) h.2
    unfold State.readVa
    revert h
    cases s.translate ⟨core, none⟩ part ctx none va .read with
    | error c => simp
    | ok p =>
      intro h
      have hp := h.1
      simp only [Bool.and_eq_true, Bool.not_eq_true', beq_iff_eq] at hp
      simp [hp.1, hp.2, ih, List.replicate_succ]

/-- An image of zeros with the digest registered. -/
def zeroImage (evpend idle : Bool) : State := loadingOverlay 0x10000 (digestNum (List.replicate 4096 0)) evpend idle

theorem zeroImage_reads : ∀ e i, ((List.range' 0x10000 4096).all fun a => match (zeroImage e i).translate ⟨0, none⟩ 0 0 none a .read with
      | .ok (t, _) => !(zeroImage e i).readsBad 0 t && (zeroImage e i).peek t.loc t.pa == 0
      | .error _ => false) = true := by decide +kernel

theorem imageOf_bytes {s : State} {core part : Nat} {r : Route} {d : DirEntry} {bs : List Byte}
    (h : s.readVa ⟨core, none⟩ part r.ctx d.image d.bytes = .bytes bs) (hd : d.digest = digestNum bs) : s.imageOf core part r d = .bytes bs := by
  unfold State.imageOf
  rw [h]
  exact if_pos hd.symm

theorem loadingOverlay_loads (g : Nat) (e i : Bool) : ∃ r q d, (loadingOverlay 0x10000 g e i).loading? 0 0 0 0 = some (r, q, d) ∧
    r.evpend = e ∧ q.ctx = 0 ∧ d.image = 0x10000 ∧ d.nbm1 = 0 ∧ d.digest = g :=
  ⟨_, _, _, rfl, rfl, rfl, rfl, rfl, rfl⟩

theorem zeroImage_refs : ∀ e i, decide ((zeroImage e i).refs 0 0 0 0 = 0 ∧ (zeroImage e i).tokens 0 0 0 0 = 0) = i ∧
    ((zeroImage e i).eng.res.all fun x => x.bays.all (· < 128) && decide x.bays.Nodup) = true ∧ Memory.wf (zeroImage e i).store.istore = true := by
  decide +kernel

/-- An image with the digest registered, its end asked for or not, referred to or idle. -/
theorem witness_OverlayLoads_resident (e i : Bool) : ∃ r q d, (zeroImage e i).loading? 0 0 0 0 = some (r, q, d) ∧ r.evpend = e ∧
    ∃ bs, (zeroImage e i).imageOf 0 0 q d = .bytes bs := by
  obtain ⟨r, q, d, h, he, hc, hi, hb, hd⟩ := loadingOverlay_loads (digestNum (List.replicate 4096 0)) e i
  refine ⟨r, q, d, h, he, _, imageOf_bytes ?_ hd⟩
  rw [hc, hi, DirEntry.bytes, hb]
  exact readVa_zeros (zeroImage_reads e i)

/-- A route in batch mode on queue 5 with threshold 3, or in task mode, its overlay resident and nothing launched. -/
def dispatching (taskMode : Bool) (n : Nat) : State :=
  let s := queued n
  let w0 : DWord := if taskMode then 0x2F0400 else 0x2F0000
  withRoute (fun r => { r with words := [w0, 0, 0, 0, if taskMode then 0 else 0x30005, 0] }) { s with
    cols := []
    holds := []
    fw := { s.fw with svc := .full }
    obj := { s.obj with
      accts := [{ part := 0, acct := 0, slot := 9, rate := 1, depth := 5, level := 100 }]
      tasks := if taskMode then [{ part := 0, task := 4, prog := 0, counter := 0, arg := 0x10000, since := 0 }] else [] } }

/-- Every route may be placed on quadrant 0, its ENTRY overlay resident. -/
def placeable (bmode : Bool) (s : State) : Bool :=
  s.obj.routes.all fun r => s.mayPlace r bmode 0 [0] && (r.dirEntry (pcHandle r.entry)).isSome &&
    (r.coresAt 0).all fun k => (s.res k r.part r.slot (pcHandle r.entry)).st == .resident

/-- Batches with enough and too few records, a task, a launch of a bounds route. -/
theorem witness_Launches :
    let s := dispatching false 3
    let late := withRoute (fun r => { r with words := [0x2F0000, 0, 0, 0, 0x100030005 + 4 * 2 ^ 16, 0] }) { s with wall := 1 }
    let started (t : State) (n : Nat) : Bool := (t.cols.getLast?).any fun c => c.phase == .running && c.cvs.all fun v =>
      (v.lanes.filter (·.live)).length == n && v.lanes.all fun l => l.pc == 0 || !l.live
    placeable false s = true ∧ placeable false (dispatching true 0) = true ∧
    (s.obj.routes.all fun r => !r.taskMode && r.waiting.isNone && (match s.decideBatch r with
      | some (t, b) => b.n == 3 && t.mayPlace r r.bounds 0 [0]
      | none => false)) = true ∧
    does (.batchLaunch 0 0 0 [0]) s (fun t => started t 3) = true ∧
    does (.batchLaunch 0 0 0 [0]) (dispatching false 2) (· == dispatching false 2) = true ∧
    does (.taskLaunch 0 4 0 [0]) (dispatching true 0) (fun t => started t 16 && (t.task? 0 4).isNone) = true ∧
    (late.obj.routes.all fun r => (late.queue? 0 5).any fun q => r.overdue q late.now) = true ∧
    does (.coalescingTimeout 0 0) late (fun t => (t.route? 0 0).any (·.due)) = true := by decide +kernel

/-- A launch of a bounds route with tiles and with elements still to run: the first columns, the second of a round, a later round and a later
element column. -/
theorem witness_BoundsLaunches :
    let tile : Tile := { depth := 0, index := 0, x := 0, y := 0, sx := 8, sy := 1 }
    let l : Launch := { id := 40, part := 0, prog := 0, task := 4, arg := 0, batch := none, msize := 0, epoch := 0, tiles := [tile], launched := 0, quarters := [],
                        deferred := [], round := 0, element := false, killed := false, since := 0 }
    let s0 := dispatching true 0
    let s (l : Launch) : State := { withRoute (fun r => { r with words := [0x070C00, 0, 0x3, 0x100000010, 0, 0] }) s0 with launches := [l] }
    let done_ := { l with launched := 1, deferred := [(0, 0, tile)] }
    let split := { l with launched := 1, quarters := [(0, { tile with depth := 1, sx := 4 }), (0, { tile with depth := 1, x := 4, sx := 4 })] }
    let more := { l with tiles := List.replicate 17 tile, launched := 1 }
    let rest := { l with launched := 1, element := true, deferred := List.replicate 3 (0, 0, tile) }
    let live (t : State) (n : Nat) : Bool := (t.cols.getLast?).any fun c => c.cvs.all fun v => (v.lanes.filter (·.live)).length == n
    placeable true (s l) = true ∧ placeable false (s done_) = true ∧ (s done_).launchRuns 40 = false ∧
    does (.boundsRoundLaunch 40 0 [0]) (s l) (fun t => live t 1) = true ∧
    does (.elementPassLaunch 40 0 [0]) (s done_) (fun t => live t 8) = true ∧
    placeable true (s split) = true ∧ (s split).launchRuns 40 = false ∧
    does (.boundsRoundLaunch 40 0 [0]) (s split) (fun t => live t 2 && (t.launch? 40).any fun q => q.round == 1 && q.launched == 1 && q.tiles.length == 2) = true ∧
    placeable true (s more) = true ∧ does (.boundsRoundLaunch 40 0 [0]) (s more) (fun t => live t 1 && (t.launch? 40).any (·.launched == 2)) = true ∧
    placeable false (s rest) = true ∧ does (.elementPassLaunch 40 0 [0]) (s rest) (fun t => live t 8 && (t.launch? 40).any (·.launched == 2)) = true ∧
    does (.boundsRoundLaunch 40 0 [0]) (s done_) (· == s done_) = true ∧ does (.elementPassLaunch 40 0 [0]) (s split) (· == s split) = true := by decide +kernel

/-- An end with every lane over and one that is not yet; a batch given back; a refill that is due; a cycle to charge for a convoy that has
issued; a slice end with a running column of a dry account. -/
theorem witness_EndsAndAccounts :
    let ends (b : Option Batch) : State :=
      let s := opened fun v => { v with ended := true }
      { s with cols := s.cols.map (fun c => { c with batch := b }), obj := { s.obj with queues := [theQueue 4] } }
    let account : Account := { part := 0, acct := 0, slot := 9, rate := 1, depth := 5, level := 100 }
    let due := { opened with wall := 1000000, obj := { opened.obj with accts := [account] } }
    let poor := { opened with obj := { opened.obj with accts := [{ account with level := 0 }] } }
    let due0 := { (opened fun v => { v with ended := true }) with holds := [] }
    let idle := { due0 with obj := due.obj }
    let turn : Issued :=
      { quad := 0, col := 0, cv := 0, part := 0, prog := 7, stalled := false, pairOk := false, needs := [], uses := [], sets := [], mate := none }
    does (.columnEnd 0) opened (· == opened) = true ∧
    does (.columnEnd 0) (ends (some { qid := 9, k0 := 0, n := 3, epoch := 0, addr := 0x10000, msize := 16 })) (fun t => t.cols.isEmpty &&
      (t.queueId? 9).any fun q => q.msgs.length == 1) = true ∧
    does .accountRefill due (fun t => (t.account? 0 0).any (·.level == 1100)) = true ∧ does .accountRefill State.reset (· == State.reset) = true ∧
    opened.mayIssue 0 = true ∧ does (.cycleCharge 0) opened (· == opened) = true ∧
    idle.mayIssue 0 = false ∧ idle.payer 0 = some (0, 0) ∧ ({ idle with issued := [turn] }).payer 0 = some (0, 7) ∧
    does (.cycleCharge 0) idle (fun t => (t.account? 0 0).any (·.level == 99) && t.fw.charged == [0]) = true ∧
    (poor.cols.map (·.id)).Nodup ∧ ((poor.part? 0).any fun p => p.quadsOf 0 != []) = true ∧ poor.dry 0 0 = true ∧
    (poor.cols.all fun c => poor.usesCore c 0) = true ∧
    does (.sliceEnd 0) poor (fun t => t.cols.all fun c => c.phase == .stopping) = true := by decide +kernel

/-- A convoy that waits, with no live registers. -/
def atWait (v : Convoy) : Convoy :=
  { v with liveCount := 0
           wait := some { kind := .nap, pc := 0, group := List.range 16, active := List.range 16, deadline := none, err := none, met := false, since := none } }

/-- Batches ready to be launched, and one column of the route, in a phase; its frames lie in a 16 MiB page. -/
def crowded (phase : ColPhase) (f : Column → Column := id) : State :=
  let s := dispatching false 3
  { withRoute (fun r => { r with words := [0x2F0000, 0, 0, 0, 0x30005, 0x1000000], deadline := some 4 }) s with
    cols := [f { placedColumn 0 0 with phase, cvs := placedColumn 0 0 |>.cvs.map atWait }]
    coh := { s.coh with tlb := [{ core := 0, quad := none, part := 0, ctx := 0, va := 0x1000000, s := 12, leaf := 0x2000C33, ends := 1000 }] } }

/-- Room asked for with every column waiting, and not when one runs on; a save that may begin, one held up, one that ends; a resumption
with the banks in place and with others; a deadline before and after. -/
theorem witness_Preemption :
    let s := crowded .running
    let busy := crowded .running fun c => { c with cvs := c.cvs.map fun v => { v with wait := none } }
    let stop := crowded .stopping
    let held := crowded .stopping fun c => { c with cvs := c.cvs.map fun v => { v with loads := 1 } }
    let saving := crowded (.saving 0 7)
    let doomed := { crowded (.saving 0 7) (fun c => { c with doomed := true }) with wall := 7 }
    let saved (out : Bool) := crowded (.saved 0) fun c => { c with banksOut := out, tilesOut := false }
    let victims (s : State) : Option (List Nat) := (s.route? 0 0).bind fun r => (s.readyLaunches r).head?.bind fun b =>
      s.victims { route := r, bmode := b.1, saved := none, rank := s.rankOf r b.2 } 0 ((s.runners 0 [0]).filter Column.descheduled) 2
    let fits (s : State) : Bool := (s.route? 0 0).all fun r => (s.readyLaunches r).head?.all fun b =>
      s.waiterFits { route := r, bmode := b.1, saved := none, rank := s.rankOf r b.2 } 0
    let comes (out : Bool) : Bool := let s := saved out; (s.route? 0 0).any fun r => s.cols.all fun k =>
      !s.dry 0 r.acct && s.quadsOk 0 r k.bmode 0 [0] (some k.id) && s.quadsKept k [0] && k.cvs.length == r.nconv &&
      (if k.banksOut then s.banksFor 0 r 0 else some k.banks) == some [0] && s.keepsRooms (s.placeBack r k 0 [0] [0]) 0 (.column k.id)
    let back := crowded (.resuming 0 [0])
    s.allWait [0] = true ∧ busy.allWait [0] = false ∧ fits s = false ∧ victims s = some [0] ∧
    does (.preemptForRoom 0 0 0) s (fun t => t.cols.all fun c => c.phase == .stopping) = true ∧
    does (.preemptForRoom 0 0 0) busy (· == busy) = true ∧
    stop.freeFrame 0 0 = some 0 ∧ ((stop.route? 0 0).any fun r => stop.cols.all fun k =>
      isOk (stop.writeParts 0 r (r.frameVa 0) (stop.saveParts r k))) = true ∧
    does (.preemptionSave 0) held (· == held) = true ∧ does (.preemptionSave 0) saving (· == saving) = true ∧
    does (.preemptionSave 0) { saving with wall := 7 } (fun t => t.cols.all fun c => c.phase == .saved 0) = true ∧
    does (.preemptionSave 0) doomed (fun t => t.cols.all (·.killed)) = true ∧
    does (.resumption 0 0 [0]) back (fun t => t.cols.all fun c => c.phase == .running && c.cvs.all fun v => v.lanes.length == 16) = true ∧
    comes false = true ∧ comes true = true ∧ ((back.route? 0 0).any fun r => back.cols.all fun k =>
      isOk (back.supply 0 r.part r.ctx .read (rangePages (r.frameVa 0) (back.resumeRanges r k)))) = true ∧ does (.drainDeadline 0 0) s (· == s) = true ∧
    does (.drainDeadline 0 0) { s with wall := 4 } (fun t => t.cols.all (·.killed)) = true := by decide +kernel

/-- A saved column on the one bank that the launch needs: the seven others of the partition are taken. -/
def wantsBank : State :=
  let s := crowded (.saved 0) fun c => { c with tilesOut := true }
  { s with cols := s.cols ++ [{ placedColumn 1 0 with banks := [1, 2, 3, 4, 5, 6, 7], cvs := [], phase := .saving 1 900 }] }

/-- Parts whose pages are supplied can be written. -/
theorem writeParts_isOk {s t : State} {core va : Nat} {r : Route} {ps : List Part} (h : s.supply core r.part r.ctx .write (rangePages va (ps.map fun p => (p.1, p.2.length))) = .ok t) :
    ∃ u n, s.writeParts core r va ps = .ok (u, n) := by
  unfold State.writeParts
  rw [h]
  exact ⟨_, _, rfl⟩

/-- R71: the bank is wanted, no engine is at work, and its pages are supplied. -/
theorem witness_TileBankSave :
    let s := wantsBank
    (s.route? 0 0).any (fun r => (s.column? 0).any fun k => s.enginesDone k && s.roomWanted k (r.coresAt 0) == (true, false) &&
      isOk (s.supply 0 r.part r.ctx .write (rangePages (r.frameVa 0)
        ((s.bankParts r k ++ [(0x20, bytesOf 4 (s.cflags { k with banksOut := true, tilesOut := true }))]).map fun (p : Part) => (p.1, p.2.length))))) = true := by
  decide +kernel

/-- A CRC-32C taken 32 bytes at a time. -/
theorem crc_chunk {bs : List Byte} {c d e : Nat} (h : (bs.take 32).foldl crcByte c = d) (g : (bs.drop 32).foldl crcByte d = e) :
    bs.foldl crcByte c = e := by
  rw [← List.take_append_drop 32 bs, List.foldl_append, h, g]

/-- The bytes that CSUM covers, without the trailer: a header of kind PARTITION, PRESENT, with writer 7 and BASE 0, and zeros. -/
def covered : List Byte := bytesOf 8 0x700010001 ++ List.replicate 472 0

theorem crc_covered : covered.foldl crcByte 0xFFFFFFFF = 0x58943E47 :=
  crc_chunk (d := 0x3D2F7208) (by decide +kernel) <| crc_chunk (d := 0xC907FB4C) (by decide +kernel) <| crc_chunk (d := 0x3F1D02BE) (by decide +kernel) <| crc_chunk (d := 0x555BF7D0) (by decide +kernel) <| crc_chunk (d := 0xD26C6D8D) (by decide +kernel) <|
  crc_chunk (d := 0x4C00E57A) (by decide +kernel) <| crc_chunk (d := 0x9AA4B2B4) (by decide +kernel) <| crc_chunk (d := 0xBDB29DC5) (by decide +kernel) <| crc_chunk (d := 0x58719C03) (by decide +kernel) <| crc_chunk (d := 0x3E17F3FA) (by decide +kernel) <|
  crc_chunk (d := 0x8885A86B) (by decide +kernel) <| crc_chunk (d := 0x710EB806) (by decide +kernel) <| crc_chunk (d := 0xADFAA042) (by decide +kernel) <| crc_chunk (d := 0x298922B5) (by decide +kernel) <| crc_chunk (d := 0x58943E47) (by decide +kernel) <|
  by decide +kernel

theorem crc_of {n k : Nat} (h : (bytesOf 12 n).foldl crcByte 0x58943E47 ^^^ 0xFFFFFFFF = k) : k = crc32c (covered ++ bytesOf 12 n) := by
  unfold crc32c
  rw [List.foldl_append, crc_covered, h]

/-- The physical function's record slot 0 with a version whose CSUM is sum: the header, and the half with an all-zero body and its trailer. -/
def published (ver sum : Nat) : State :=
  let a := 0x1800000
  let half := a + if ver % 2 = 0 then 0x40 else 0x220
  let m := Memory.writeNum (Memory.writeNum (Memory.writeNum ([] : Memory) a 8 0x700010001) (a + 0x10) 8 ver) (half + 0x1D0) 12 (7 * 2 ^ 64 + ver)
  { State.reset with fw := { State.reset.fw with svc := .full }, store := { State.reset.store with pf := Memory.writeNum m (half + 0x1DC) 4 sum } }

def first : State := published 1 0xDA9E4641
def stray : State := published 5 0x1F591681

/-- The half of slot 0 that VERSION names. -/
def half (s : State) : List Byte :=
  Memory.bytes s.store.pf (0x1800000 + 1024 * 0 + if numberOf (Memory.bytes s.store.pf (0x1800000 + 1024 * 0 + 0x10) 8) % 2 = 0 then 0x40 else 0x220) 0x1E0

/-- R290: VER, TWRITER and CSUM agree. -/
theorem whole_of {s : State} {bs : List Byte} {k : Nat}
    (h : (numberOf (((half s).drop 0x1D0).take 8) == numberOf (Memory.bytes s.store.pf (0x1800000 + 1024 * 0 + 0x10) 8) &&
      numberOf (((half s).drop 0x1D8).take 4) == numberOf (Memory.bytes s.store.pf (0x1800000 + 1024 * 0 + 4) 4)) = true)
    (hk : numberOf (((half s).drop 0x1DC).take 4) = k) (hc : k = crc32c bs)
    (hb : Memory.bytes s.store.pf (0x1800000 + 1024 * 0 + 0) 8 ++ Memory.bytes s.store.pf (0x1800000 + 1024 * 0 + 0x18) 8 ++ (half s).take 0x1DC = bs) :
    (s.snapshot 0 0).whole = true := by
  simp only [State.snapshot, State.dsrBase, beq_self_eq_true, if_true]
  rw [Bool.and_eq_true, beq_iff_eq]
  unfold half at h hk hb
  exact ⟨h, hk.trans (hc.trans (congrArg crc32c hb.symm))⟩

theorem first_whole : (first.snapshot 0 0).whole = true :=
  whole_of (by decide +kernel) (by decide +kernel) (crc_of (n := 7 * 2 ^ 64 + 1) (k := 0xDA9E4641) (by decide +kernel)) (by decide +kernel)

theorem stray_whole : (stray.snapshot 0 0).whole = true :=
  whole_of (by decide +kernel) (by decide +kernel) (crc_of (n := 7 * 2 ^ 64 + 5) (k := 0x1F591681) (by decide +kernel)) (by decide +kernel)

/-- A version with a body. -/
def version (kind pres : Nat) (body : List Byte) : Version := { ver := 1, kind, pres, flags := 0, writer := 7, base := 0, body }

def withRec (r : Rec) (s : State) : State := { s with recs := [r] }

/-- Scans: nothing new, a first version, the next one of a frozen record, one out of order, and that judged already. -/
theorem witness_Scans :
    let idle : State := { State.reset with fw := { State.reset.fw with svc := .full } }
    let frozen := withRec { Rec.fresh 0 0 with frozen := true } stray
    let judged := withRec { Rec.fresh 0 0 with judged := [5], accepted := 2 } stray
    let up (s : State) : Bool := s.fnUp 0 && !s.partLeaving 0
    up idle = true ∧ (idle.snapshot 0 0).v.ver = (idle.recOf 0 0).accepted ∧ does (.surveyorScan 0 0) idle (· == idle) = true ∧
    up first = true ∧ (first.recOf 0 0).accepted = 0 ∧ (first.snapshot 0 0).v.ver = 1 ∧ (first.snapshot 0 0).v.base = 0 ∧
    up frozen = true ∧ (frozen.recOf 0 0).frozen = true ∧ (frozen.snapshot 0 0).v.ver = 5 ∧ (frozen.recOf 0 0).accepted = (frozen.snapshot 0 0).v.base ∧
    up stray = true ∧ (stray.snapshot 0 0).v.base + 1 ≠ (stray.snapshot 0 0).v.ver ∧ (stray.recOf 0 0).frozen = false ∧ (stray.recOf 0 0).judged = [] ∧
    (judged.snapshot 0 0).v.ver ∈ (judged.recOf 0 0).judged := by decide +kernel

/-- Steps that may start and that may not; ones that apply, with entry stores to come, done and none, or fail; ones that drain. -/
theorem witness_Reconciliation :
    let s : State := { opened with fw := { opened.fw with svc := .full } }
    let body (n : Nat) : List Byte := Memory.bytes (Memory.writeNum (Memory.writeNum (Memory.writeNum ([] : Memory) 0x10 8 0x1000000) 0x28 4 64) 0x30 8 n) 0 0x1D0
    let acct := version 7 1 (bytesOf 464 0x0900000005)
    let gone := version 7 2 (bytesOf 464 0x0900000005)
    let starts (v : Version) : Bool :=
      let t := (withRec { Rec.fresh 1 4 with accepted := 1, waiting := [(v, false)] } s)
      let u := { t with recs := { Rec.fresh 0 0 with st := .converged, present := true, converged := 1, eff := some (version 1 1 (body 1)) } :: t.recs }
      u.reconciles 1 && (u.writeBlocked 1).placeFree 1 && (match (u.writeBlocked 1).firstEligible 1 with
        | some (r, v) => r.slot == 4 && !(u.writeBlocked 1).bodyBad r v
        | none => false) && does (.reconcileStepStart 1) u (fun t => (t.recOf 1 4).st == if v.wants then .applying else .draining)
    let running (fn : Nat) (v : Version) (st : RecSt) (due : Option Nat) : State := withRec { Rec.fresh fn 4 with st, acc := some v, due } s
    let clash := { running 0 (version 1 1 ((body 1).set 0 5)) .applying none with obj := { s.obj with parts := [placedPart 0] } }
    let route := version 5 2 []
    let change := withRec { Rec.fresh 1 0 with st := .draining, acc := some (version 5 1 []), present := true, eff := some (version 5 1 []) } { s with cols := [] }
    s.reconciles 1 = false ∧ does (.reconcileStepStart 1) s (· == s) = true ∧ starts acct = true ∧ starts gone = true ∧
    does (.applyingEnd 1 4) (running 1 acct .applying (some 9)) (· == running 1 acct .applying (some 9)) = true ∧
    does (.applyingEnd 1 4) (running 1 acct .applying (some 0)) (fun t => (t.recOf 1 4).st == .converged) = true ∧
    does (.applyingEnd 1 4) (running 1 acct .applying none) (fun t => (t.recOf 1 4).st == .converged && (t.account? 0 5).isSome) = true ∧
    ((clash.rec? 0 4).any fun r => r.acc.any fun v => match clash.make r v with
      | .bad _ c => c == mNoResource
      | .good _ _ => false) = true ∧
    does (.applyingEnd 0 4) clash (fun t => (t.recOf 0 4).st == .failed) = true ∧
    does (.drainingEnd 1 0) (withRec { Rec.fresh 1 0 with st := .draining, acc := some route, present := true, eff := some (version 5 1 []) } s) (fun t => (t.recOf 1 0).st == .draining) = true ∧
    does (.drainingEnd 1 0) change (fun t => (t.recOf 1 0).st == .applying) = true ∧
    does (.drainingEnd 1 4) (running 1 gone .draining none) (fun t => (t.recOf 1 4).st == .converged && !(t.recOf 1 4).present) = true ∧
    (match s.makeAccount 0 4 acct with
      | .good t _ => (t.account? 0 5).any fun a => a.level == 0 && a.rate == 9
      | .bad _ _ => false) = true := by decide +kernel

/-- A context with its tables: a leaf of 2 MiB at virtual address 0, and a mapping over it. -/
def paged (leaf : Bool) (q : PageReq) : State :=
  let s := opened fun v => { v with wait := some { kind := .replay 0 q.page, pc := 0, group := [3], active := [3], deadline := none, err := none, met := false, since := none } }
  let tables := if leaf then [(0x1000, 0x2001), (0x2000, 0x3001), (0x3000, 0x4001), (0x4000, 0x200933)] else []
  { s with
    coh := { s.coh with leases := [], tlb := [] }
    store := { s.store with dev := tables.foldl (fun m e => Memory.writeNum m e.1 8 e.2) s.store.dev }
    obj := { s.obj with
      ctxs := [{ part := 0, slot := 0, ptroot := 0x1000, prot := false, keyref := 0, key := none, epoch := 0 }]
      maps := [{ part := 0, slot := 3, ctx := 0, va := 0, size := 0x200000, back := 0, psize := 9, attr := 8 }] }
    paging := [q] }

/-- A walk that finds a leaf; requests whose stores are on their way or done, whose leaf stands, whose page cannot be given, and whose
address no mapping holds. -/
theorem witness_Paging :
    let q : PageReq := { part := 0, ctx := 0, page := 5, entry := 0, ready := none }
    let s := paged true q
    let later := paged true { q with ready := some 9 }
    let poor := paged false q
    let out := paged false { q with page := 0x900 }
    (s.oldWeights 0 0 none 0x5000).isNone ∧ s.tlbHit ⟨0, none⟩ 0 0 0x5000 = none ∧ isOk (s.walk 0x5000 0x1000 4) = true ∧
    does (.pageWalk 0 0 0 0x5000) s (fun t => (t.tlbHit ⟨0, none⟩ 0 0 0x5000).any fun x => x.ends == 16384) = true ∧
    does (.pagingAnswer 0 0 5) later (· == later) = true ∧ does (.pagingAnswer 0 0 5) { later with wall := 9 } (fun t => t.paging.isEmpty) = true ∧
    (match s.serve 0 0 0x5000 with
      | .written _ _ => true
      | _ => false) = true ∧
    does (.pagingAnswer 0 0 5) s (fun t => t.paging.all fun r => r.ready == some 0) = true ∧
    (match poor.serve 0 0 0x5000 with
      | .exhausted _ => true
      | _ => false) = true ∧
    (match out.serve 0 0 0x900000 with
      | .unmapped => true
      | _ => false) = true ∧
    does (.pagingAnswer 0 0 5) poor (fun t => t.paging.isEmpty && t.cols.all (·.killed)) = true := by decide +kernel

/-- A mailbox of a function with a request: CODE, and a payload of n bytes. -/
def asked (fn code n x : Nat) (s : State) : State :=
  let req := bytesOf 2 code ++ bytesOf 2 n ++ bytesOf 4 0xABCD ++ bytesOf n x
  { s with fw := { s.fw with svc := .full, boxes := [{ fn, ovr := false, done := false, busy := true, area := [], resp := [], req, stamp := 1 }] } }

/-- The answer of a mailbox has this status. -/
def replied (fn status : Nat) (t : State) : Bool := (t.box fn).done && !(t.box fn).busy && fieldOf (t.box fn).resp 0 4 == status

/-- Blocks of TASK_ARM and TASK_SIGNAL of every status; FWCALLs with a block that can be read and one that cannot; and by mailbox. -/
theorem witness_TaskServices :
    let s := dispatching true 0
    let arm (task prog count : Nat) : List Byte := bytesOf 24 (task + prog * 2 ^ 32 + count * 2 ^ 64)
    let idle := { s with obj := { s.obj with tasks := [{ part := 0, task := 4, prog := 0, counter := 0, arg := 0, since := 0 }] } }
    let two := { s with obj := { s.obj with tasks := [{ part := 0, task := 4, prog := 0, counter := 2, arg := 0, since := 0 }] } }
    let call (svc : Nat) (block : DWord) : State :=
      let w : WaitRec := { kind := .fwcall svc (some block) .none none, pc := 0, group := [3], active := [3], deadline := none, err := none, met := false, since := none }
      let c := { placedColumn 0 0 with cvs := (placedColumn 0 0).cvs.map fun v => { v with wait := some w } }
      { s with cols := [c], calls := [(0, 0, 0)] }
    let answers (i : Instr) (s : State) (n : Nat) : Bool := does i s fun t => (t.convoy? 0 0).any fun v => v.wait.any fun w => match w.kind with
      | .fwcall _ _ _ (some x) => x.toNat == n
      | _ => false
    (s.armTask 0 (arm 5 0 0)).2 = 1 ∧ (s.armTask 0 (arm 4 0 1)).2 = 2 ∧ (s.armTask 0 (arm 5 0 3)).2 = 0 ∧ s.taskRoute 0 0 = true ∧
    (s.signalTask 0 (bytesOf 8 4096)).2 = 1 ∧ (s.signalTask 0 (bytesOf 8 9)).2 = 3 ∧ (idle.signalTask 0 (bytesOf 8 4)).2 = 4 ∧
    (two.signalTask 0 (bytesOf 8 4)).2 = 0 ∧
    answers (.taskArm 0) (call 1 0x10000) 1 = true ∧ answers (.taskSignal 0) (call 2 0x10000) 3 = true ∧ answers (.acctRead 0) (call 3 0x10000) 0 = true ∧
    does (.acctRead 0) (call 3 0x10000) (fun t => t.devNum 0x200008 8 == 100) = true ∧
    answers (.taskSignal 0) (call 2 0x900000) 1 = true ∧ (call 1 0x10000).dropDead = call 1 0x10000 ∧
    ((asked 1 1 24 (5 + 3 * 2 ^ 64) s).request? 1).isSome ∧ does (.mailboxTaskArm 0) (asked 1 1 24 (5 + 3 * 2 ^ 64) s) (replied 1 0) = true ∧
    does (.mailboxTaskSignal 0) (asked 1 2 8 4 two) (replied 1 0) = true := by decide +kernel

/-- Every request with a payload that serves, with one that does not, and with one that is a byte too short. -/
theorem witness_MailboxServices :
    let s := opened
    let keyed := { s with obj := { s.obj with ctxs := [{ part := 0, slot := 6, ptroot := 0x1000, prot := true, keyref := 0, key := some 3, epoch := 0 }] } }
    let used := withRec { Rec.fresh 1 0 with st := .converged, present := true, eff := some (version 5 1 (bytesOf 464 (6 * 2 ^ 2048))) } keyed
    let leaving := withRec { Rec.fresh 0 0 with st := .draining, present := true, eff := some (version 1 1 []) } s
    let sent := { s with fw := { s.fw with migs := [{ part := 0, ephemeral := [], wrapped := some (6, []), message := [] }] } }
    does (.allowSet 0) (asked 1 0x10 64 77 s) (fun t => replied 1 0 t && t.fw.allow.lookup 0 == some 77) = true ∧
    does (.allowSet 0) (asked 1 0x10 63 77 s) (replied 1 1) = true ∧
    (asked 1 0x11 16 0x5000 s).part? 0 = some (placedPart 0) ∧ ((asked 0 0x11 16 9 s).request? 0).isSome ∧
    does (.report 0) (asked 0 0x11 16 9 s) (replied 0 1) = true ∧
    (asked 1 0x11 16 0x5000 s).partLeaving 1 = false ∧ (asked 1 0x11 16 0x5000 s).reportAhead 0 1 = false ∧
    (asked 1 0x11 16 0x5000 s).store.wf = true ∧ ((asked 0 0x11 16 0 s).reportAhead 0 2 = true) ∧ leaving.partLeaving 1 = true ∧
    does (.report 1) (asked 1 0x11 16 0x5000 leaving) (replied 1 2) = true ∧
    ((asked 0 0x104 8 0x5000 s).request? 0).isSome ∧
    does .sliceSet (asked 0 0x102 8 1000 s) (fun t => replied 0 0 t && t.fw.slice == 1000) = true ∧
    does .sliceSet (asked 0 0x102 8 999 s) (replied 0 1) = true ∧
    does .pubkeySet (asked 0 0x103 33 63 s) (fun t => replied 0 0 t && t.fw.pubkeys.length == 1) = true ∧
    does .pubkeySet (asked 0 0x103 33 64 s) (replied 0 1) = true ∧
    ([(Instr.report 0, 0, 0x11, 16), (.report 1, 1, 0x11, 16), (.migWrap 0, 1, 0x21, 164), (.fwWrite, 0, 0x100, 8), (.sliceSet, 0, 0x102, 4),
      (.pubkeySet, 0, 0x103, 33), (.bboxRead, 0, 0x104, 8)].all fun p => codeFor? p.2.1 p.2.2.1 &&
      does p.1 (asked p.2.1 p.2.2.1 (p.2.2.2 - 1) 0 s) (replied p.2.1 1)) = true ∧
    does (.mailboxUnknownCode 1) (asked 1 3 0 0 s) (replied 1 0xFFFFFFFF) = true ∧
    ((asked 1 0x20 0 0 s).request? 1).any (·.code == 0x20) = true ∧
    does (.migWrap 0) (asked 1 0x21 164 6 s) (replied 1 1) = true ∧ used.mayMigrate 0 6 = false ∧
    does (.migWrap 0) (asked 1 0x21 164 6 used) (replied 1 2) = true ∧
    ((asked 1 0x21 164 6 keyed).ctx? 0 6).any (·.key == some 3) = true ∧ keyed.mayMigrate 0 6 = true ∧
    does (.migResult 0) (asked 1 0x22 8 0 s) (replied 1 2) = true ∧ (sent.mig 0).wrapped = some (6, []) := by decide +kernel

/-- An encoding that is no point verifies under no key. -/
theorem notVerified (key msg : List Byte) : ed25519Verify key msg (List.replicate 64 0xFF) = false := by
  have h : edDecode (numberOf ((List.replicate 64 (0xFF : Byte)).take 32)) = none := by decide +kernel
  unfold ed25519Verify
  rw [h]
  cases edDecode (numberOf (key.take 32)) <;> rfl

/-- An offer and a result whose signatures verify under no key. -/
theorem witness_refusedMigration : offerOk (List.replicate 160 0xFF) = false ∧ ∀ e, migrationResult e (List.replicate 64 0xFF) = none := by
  have h : ∀ e m, ((Config.certifiedKey e).any fun key => ed25519Verify key m (List.replicate 64 0xFF)) = false := fun e m => by
    cases Config.certifiedKey e with
    | none => rfl
    | some k => exact notVerified k m
  exact ⟨h _ _, fun e => by unfold migrationResult; exact if_pos (by rw [show (List.replicate 64 (0xFF : Byte)).drop _ = List.replicate 64 0xFF from rfl, h]; rfl)⟩

def atService (svc : Svc) (s : State) : State := { s with fw := { s.fw with svc } }

/-- The parts of a boot: writes into the carve-out while the ROM runs and later, a start without an image and one too late, training, the
switch to full service, and a warm reset with no memory protected. -/
theorem witness_Boot :
    let rom (code n x : Nat) : State := atService .rom (asked 0 code n x State.reset)
    let locked := { rom 0x100 12 (0x55 * 2 ^ 64 + 8) with fw := { (rom 0x100 12 (0x55 * 2 ^ 64 + 8)).fw with carve := 1 } }
    let reduced := atService .reduced opened
    let tried (n : Nat) := { reduced with fw := { reduced.fw with channels := [{ n := 3, tries := n, trained := false }] } }
    let trained := { reduced with fw := { reduced.fw with channels := (List.range 32).map fun n => { n, tries := 1, trained := true } }, holds := [] }
    let held := { trained with holds := [hold] }
    ((rom 0x100 12 (0x55 * 2 ^ 64 + 8)).request? 0).isSome ∧ Memory.wf (rom 0x100 12 (0x55 * 2 ^ 64 + 8)).store.dev = true ∧
    does .fwWrite (rom 0x100 12 (0x55 * 2 ^ 64 + 8)) (fun t => replied 0 0 t && Memory.bytes t.store.dev 8 4 == bytesOf 4 0x55) = true ∧
    does .fwWrite (asked 0 0x100 12 8 State.reset) (replied 0 2) = true ∧ does .fwWrite locked (replied 0 2) = true ∧
    (rom 0x101 0 0).bootCheck = 1 ∧ does .fwStart (rom 0x101 0 0) (fun t => t.fw.booterr == 1 && t.fw.svc == .rom) = true ∧
    does .fwStart (asked 0 0x101 0 0 State.reset) (replied 0 2) = true ∧
    does (.channelTraining 3 false) (tried 4) (· == tried 4) = true ∧
    does (.channelTraining 3 false) (tried 3) (fun t => t.fw.chfail == 8) = true ∧
    does (.channelTraining 3 true) (tried 1) (fun t => (t.channel 3).trained && t.fw.chfail == 0) = true ∧
    (List.range 32).all (fun n => (trained.channel n).trained) = true ∧
    (trained.obj.parts.all fun p => decide (0x200000 < p.msrpa) || decide (p.msrpa + 64 + 32 * p.mslen ≤ 0x200000)) = true ∧ trained.store.wf = true ∧
    (trained.fw.posts.all fun q => decide (0x200000 < q.base) || decide (q.base + 8 ≤ 0x200000)) = true ∧
    does .fullServiceSwitch trained (fun t => t.fw.svc == .full) = true ∧ does .fullServiceSwitch held (· == held) = true ∧
    reduced.fw.carve.getLsbD 0 = false ∧ reduced.store.wf = true ∧ (reduced.obj.ctxs.all fun c => c.key.isNone) = true ∧
    does (.warmReset 1) reduced (fun t => t.fw.svc == .rom && t.cols.isEmpty) = true := by decide +kernel

/-- The module with partition 0, whose control area begins at 16 MiB and whose memory lies at 64 MiB. -/
def hosted : State :=
  let s := atService .full State.reset
  { s with obj := { s.obj with parts := [{ placedPart 0 with dsrpa := 0x1000000, membase := 0x4000000, memsize := 0x200000 }] } }

/-- A doorbell; carve-out writes; MBCTL; a counter slot; BAR2 reads and writes; an AtomicOp on VERSION; a ring's packet with and without its
mark. -/
theorem witness_HostInterface :
    let s := hosted
    let locked := { s with fw := { s.fw with carve := 0x4000001 } }
    let allowed := { s with fw := { s.fw with allow := [(0, 1)] } }
    let marked := { s with store := { s.store with dev := Memory.write (Memory.write s.store.dev 0x147007F 1) 0x1470041 32 } }
    let busy := asked 1 0x10 64 0 s
    s.fnUp 1 = true ∧ s.partLeaving 1 = false ∧ s.fw.svc ≠ .rom ∧
    does (.registerWrite 0 0x100 (bytesOf 8 9)) s (· == s) = true ∧
    does (.carveOutWrite 0x4000001) s (fun t => t.fw.carve == 0x4000001) = true ∧ does (.carveOutWrite 0) locked (fun t => t.fw.carve == 0x4000001) = true ∧
    does (.registerWrite 1 0x1000 (bytesOf 4 1)) s (fun t => (t.box 1).busy && !(t.box 1).ovr) = true ∧
    does (.registerWrite 1 0x1000 (bytesOf 4 1)) busy (fun t => (t.box 1).busy && (t.box 1).ovr) = true ∧
    Memory.wf (s.box 1).area = true ∧ does (.registerWrite 1 0x1008 [7, 8]) s (fun t => Memory.bytes (t.box 1).area 8 2 == [7, 8]) = true ∧
    does (.registerWrite 1 deviceControl2 (bytesOf 2 64)) s (fun t => t.fw.atomicEn == [0]) = true ∧
    s.allowed 0 0 0 = false ∧ allowed.allowed 0 0 0 = true ∧ does (.counterSlotRead 0 16) allowed (fun t => t.reply.length == 16) = true ∧
    does (.counterSlotRead 0 16) s (fun t => t.reply == bytesOf 8 0 ++ bytesOf 4 1 ++ bytesOf 4 0) = true ∧
    ((s.part? 0).any fun p => p.bar2 0x1000010 == some 0x4000010) = true ∧ s.granuleTag 0x4000010 = none ∧
    s.inCarveOut 0x4000010 = false ∧ locked.inCarveOut 0x4000010 = true ∧ s.inAst 0x4000010 = false ∧ s.store.wf = true ∧
    does (.bar2Access 0 0x1000010 1 none) locked (fun t => t.reply == [0xFF]) = true ∧
    does (.bar2Access 0 0x1000010 1 (some [9])) s (fun t => Memory.read t.store.dev 0x4000010 == 9) = true ∧
    does (.bar2Access 0 0x1000010 1 (some [9])) locked (fun t => Memory.read t.store.dev 0x4000010 == 0) = true ∧
    isPfVersion 0x1800010 = true ∧ does (.hostAtomicopCompleter 0 0 0x1800010 8 .cas 0 5) s (fun t => Memory.num t.store.pf 0x1800010 8 == 5) = true ∧
    ((s.part? 0).any fun p => p.copyRing false == 0x1470000) = true ∧
    does (.copyRingTake 0 false) s (· == s) = true ∧ (Packet.of (marked.devNum 0x1470040 64) true).bad = true ∧
    does (.copyRingTake 0 false) marked (fun t => t.devNum 0x1470008 8 == 1 && t.eng.jobs.isEmpty) = true := by decide +kernel

/-- A whole packet in the host ring's first slot: 64 bytes from 0x10400 to 0x10000, in the one context of the partition. -/
def ringed : State :=
  let packet := 64 * 2 ^ 32 + 2 ^ 64 + 0x10400 * 2 ^ 128 + 0x10000 * 2 ^ 192 + 2 ^ 504
  { hosted with
    store := { hosted.store with dev := Memory.writeNum hosted.store.dev 0x1470040 64 packet }
    coh := { hosted.coh with tlb := [{ core := 0x3FFF, quad := none, part := 0, ctx := 2, va := 0x10000, s := 4, leaf := 0x200433, ends := 1000 }] }
    obj := { hosted.obj with ctxs := [{ part := 0, slot := 2, ptroot := 0x1000, prot := false, keyref := 0, key := none, epoch := 0 }] } }

/-- Where a partition has one context, a ring's packets use it. -/
theorem ringContext_one {s : State} {part : Nat} {c : Context} (h : s.obj.ctxs.filter (·.part == part) = [c]) :
    (s.ringContext part).1 = some c.slot := by
  simp [State.ringContext, h, Nat.mod_one]

/-- R311: both sides of the packet can be reached. -/
theorem witness_RingPacket :
    let q := Packet.of (ringed.devNum 0x1470040 64) true
    let u : State := { ringed with fresh := ringed.fresh + 2 }
    let side : Side := { via := ⟨coreOf 0xFFFF, none⟩, part := 0, ctx := 2, epoch := none, scratch := false, banks := [] }
    (ringed.ringContext 0).1 = some 2 ∧ (ringed.ringContext 0).2.2 = u ∧ ringed.devNum 0x147007F 1 = 1 ∧ q.flags = 0 ∧ q.bad = false ∧
    q.empty = false ∧ ringed.coh.poison = [] ∧ ringed.coh.flips = [] ∧ (match u.probeRows side .read q.srcRows with
      | .ok w => isOk (w.probeRows side .write q.dstRows)
      | .error _ => false) = true :=
  ⟨ringContext_one (c := { part := 0, slot := 2, ptroot := 0x1000, prot := false, keyref := 0, key := none, epoch := 0 }) rfl, rfl, by decide +kernel, by decide +kernel, by decide +kernel, by decide +kernel, rfl, rfl, by decide +kernel⟩

/-- A copy of 64 bytes from a peer, in one shard. -/
def fetched (tmo : Nat) : CopyJob :=
  { job with src := .ring true, flags := 0, begun := false, pend := [], got := [], shards := 1, fromPeer := true, tmo }

/-- A causeway up, silent, down and to be tried again; a shard whole, damaged and late; a peer's load, store and atomic. -/
theorem witness_Causeways :
    let link (up : Bool) (wall : DWord) : State :=
      { hosted with wall, fw := { hosted.fw with links := [{ n := 2, up, lastAck := 0, retryAt := 500 }] } }
    let onLink := { opened with wall := 1000000, fw := (link true 0).fw, ops := [op .store [{ piece with loc := .peer 2 }]] }
    let at_ (tmo : Nat) (wall : DWord) : State := { copying (fetched tmo) with wall }
    let data : List Byte := List.replicate 64 3
    does (.linkDown 2) (link true 999999) (· == link true 999999) = true ∧ does (.linkDown 2) (link false 0) (· == link false 0) = true ∧
    does (.linkDown 2) (link true 1000000) (fun t => !(t.link 2).up && (t.link 2).retryAt == 11000000) = true ∧
    does (.linkDown 2) onLink (fun t => t.cols.all (·.killed)) = true ∧ (onLink.cols.map (·.id)).Nodup ∧
    does (.linkRetrain 2) (link false 499) (· == link false 499) = true ∧ does (.linkRetrain 18) (link false 600) (· == link false 600) = true ∧
    does (.linkRetrain 2) (link false 500) (fun t => (t.link 2).retryAt == 10000500) = true ∧
    does (.linkUp 2) (link false 600) (fun t => (t.link 2).up && (t.link 2).lastAck == 600) = true ∧
    does (.linkUp 17) (link true 0) (fun t => (t.link 17).up) = true ∧ does (.linkUp 18) (link true 0) (· == link true 0) = true ∧
    (at_ 0 0).job? 70 = some (fetched 0) ∧ (at_ 0 0).mayBegin (fetched 0) = true ∧ ((fetched 0).packet.shardBytes 0).length = 64 ∧
    (fetched 0).missing = some 0 ∧
    does (.shardArrival 70 1 data 0) (at_ 0 0) (· == at_ 0 0) = true ∧
    does (.shardTimeout 70) (at_ 1 1000) (fun t => (t.job? 70).isNone) = true ∧ does (.shardTimeout 70) (at_ 1 999) (· == at_ 1 999) = true ∧
    does (.shardTimeout 70) (at_ 0 9999) (· == at_ 0 9999) = true ∧
    (link true 0).linkUp 2 = true ∧ (link false 0).linkUp 2 = false ∧ (link true 0).coh.flips = [] ∧ (link true 0).coh.poison = [] ∧
    (link true 0).store.wf = true ∧ (List.range 8).all (fun i => !(link true 0).inCarveOut (0x4000000 + i) && !(link true 0).inAst (0x4000000 + i)) = true ∧
    does (.peerAccessRequest 2 (.load 0x4000000 4)) (link true 0) (fun t => t.reply == bytesOf 4 0) = true ∧
    does (.peerAccessRequest 2 (.store 0x4000000 [1, 2])) (link true 0) (fun t => t.peekBytes .dev 0x4000000 2 == [1, 2]) = true ∧
    does (.peerAccessRequest 2 (.atomic 0 .n32 0x4000000 4 7 0)) (link true 0) (fun t => t.devNum 0x4000000 4 == 7) = true := by decide +kernel

/-- Two shards: one whose CRC-32C agrees, and one byte of it changed. -/
theorem witness_Shards :
    let data : List Byte := List.replicate 64 3
    crc32c data = 0x7A9A9D9A ∧ crc32c (data.set 63 2) ≠ 0x7A9A9D9A := by decide +kernel

/-- Requests in each state of the responder, in order and out of order. -/
theorem witness_Attestation :
    let s (st : SpdmSt) : State := { State.reset with fw := { State.reset.fw with svc := .full, spdm := st, transcripts := { Transcripts.empty with vca := Transcripts.empty.vca.add [1] } } }
    let req (code : Nat) : List Byte := [0x12, BitVec.ofNat 8 code, 0, 3]
    let refuses (i : List Byte → Instr) (code : Nat) : Bool :=
      does (i (req code)) (s .initial) fun t => t.fw.spdm == .initial && t.fw.transcripts == Transcripts.empty && t.reply == [0x12, 0x7F, 4, 0]
    fieldOf (req 0x84) 1 1 = 0x84 ∧ (s .initial).fw.svc ≠ .rom ∧
    does (.getVersion (req 0x84)) (s .negotiated) (fun t => t.fw.spdm == .versioned) = true ∧
    does (.getCapabilities (req 0xE1)) (s .versioned) (fun t => t.fw.spdm == .capable) = true ∧
    does (.negotiateAlgorithms (req 0xE3)) (s .capable) (fun t => t.fw.spdm == .negotiated) = true ∧
    does (.getCertificate (req 0x82)) (s .negotiated) (fun t => t.fw.spdm == .negotiated) = true ∧
    does (.challenge (req 0x83)) (s .negotiated) (fun t => t.fw.spdm == .negotiated) = true ∧
    does (.getMeasurements (req 0xE0)) (s .negotiated) (fun t => t.fw.spdm == .negotiated) = true ∧
    [0x84, 0xE1, 0xE3, 0x83, 0xE0].all (fun n => spdmNames (req n)) = true ∧ spdmNames [0x12, 0x82, 1, 0] = false ∧
    does (.getCertificate [0x12, 0x82, 1, 0]) (s .negotiated) (fun t => t.reply == [0x12, 0x7F, 1, 0]) = true ∧
    fieldOf (req 0xE0) 3 1 = 2 + 1 ∧ ((s .negotiated).measurement 2).length = 64 ∧
    refuses .getCapabilities 0xE1 = true ∧ refuses .negotiateAlgorithms 0xE3 = true ∧ refuses .getCertificate 0x82 = true ∧
    refuses .challenge 0x83 = true ∧ refuses .getMeasurements 0xE0 = true ∧ refuses .attestSequence 0xE1 = true ∧
    does (.spdmUnsupportedRequest (req 0x85)) (s .capable) (fun t => t.reply == [0x12, 0x7F, 7, 0] && t.fw.spdm == .capable) = true := by decide +kernel

/-- What the candidate fetches: a word that decodes, a reserved code, a fixed target in slot 5, a line with bad parity, a lost overlay. -/
theorem witness_StepRunsDecoded :
    let s (w : Nat) : State := State.reset.withFetchWord 96 w
    let seen (s : State) (p : State → Ctx → Bool) : Bool := match s.agenda with
      | .issue q port :: rest => match { s with agenda := rest }.candidate q port with
        | some cur => match { s with agenda := rest, cur := some cur }.ctx plainHdr with
          | some x => p { s with agenda := rest } x
          | none => false
        | none => false
      | _ => false
    let word (s : State) (p : Except DecodeError Instr → Bool) : Bool := seen s fun u x => match u.fetch x.core x.c.part x.c.prog x.pc with
      | .word w => p (decode w)
      | _ => false
    let movi := s 0x0540FFC48D159DC003C00000
    let flipped := { movi with store := { movi.store with istore := Memory.writeNum movi.store.istore 4 1 1 } }
    let lost := { movi with eng := { movi.eng with res := [] } }
    word movi (fun r => match r with
      | .ok i => seen movi fun u x => !u.conflicts x i
      | _ => false) = true ∧
    word (s 0x20013301BFFFDDC004000000) (fun r => match r with
      | .error .operandReserved => true
      | _ => false) = true ∧
    word (s 0xB17FE1BFFFFFDDC000094000) (fun r => match r with
      | .error .branchTarget => true
      | _ => false) = true ∧
    (seen flipped fun u x => match u.fetch x.core x.c.part x.c.prog x.pc with
      | .parity => true
      | _ => false) = true ∧
    (seen lost fun u x => match u.fetch x.core x.c.part x.c.prog x.pc with
      | .fault _ => true
      | _ => false) = true ∧ isDeviceStep (.linkUp 2) = true := by decide +kernel

/-- A step of a run, a device step and a cycle's end each give a next state, with the memory's form kept. -/
theorem witness_Steps :
    let s := State.reset.withFetchWord 96 0x0540FFC48D159DC003C00000
    s.store.wf = true ∧
    (match step s with
      | .next t => t.store.wf && (t.convoy? 0 0).any fun v => (v.lane 3).reg 3 == 0x12345678
      | _ => false) = true ∧
    (match step { State.reset with agenda := [.tick] } with
      | .next t => t.wall == 1
      | _ => false) = true := by decide +kernel

end Sys2Proof.Tests
end

section
/-!
PROOFS. What a part of a step keeps.

`s.Keeps t`: on its way from `s` to `t` the module has not moved the wall clock (R2, R77, R363) nor the model's agenda, and every memory
that was in its canonical form is so. Every operation of the model keeps this of the state that it is given, but for the end of a cycle
and a cold reset: the lemmas below say so once for each operation, in the order of the model. `State.Keeps.kill`, applied as
`h.kill` to `h : s.Keeps t`, is the one of `State.kill`; a chain of operations is a chain of such lemmas. `execAcrd_tries` says it of
an instruction, which answers a next state where a group issues it, and `execColumnEnd_runs` of a device step, which always does.
-/

namespace Sys2Proof.Machine

section
-- one proof after another: side by side, these many hold more threads than the memory of a check has room for
set_option Elab.async false

structure State.Keeps (s t : State) : Prop where
  wall : t.wall = s.wall
  agenda : t.agenda = s.agenda
  wf : s.store.wf = true → t.store.wf = true

variable {s t u : State}

theorem State.Keeps.refl (s : State) : s.Keeps s := ⟨rfl, rfl, id⟩

theorem State.Keeps.trans (h : s.Keeps t) (h' : t.Keeps u) : s.Keeps u :=
  ⟨h'.wall.trans h.wall, h'.agenda.trans h.agenda, fun hs => h'.wf (h.wf hs)⟩

/-- A change of fields other than the clock, the agenda and the memories. -/
theorem State.Keeps.set (h : s.Keeps t) (hw : u.wall = t.wall := by exact rfl) (ha : u.agenda = t.agenda := by exact rfl)
    (hm : u.store = t.store := by exact rfl) : s.Keeps u := h.trans ⟨hw, ha, fun h => hm ▸ h⟩

/-- A change of memories that keeps their form. -/
theorem State.Keeps.setStore (h : s.Keeps t) (hm : t.store.wf = true → u.store.wf = true) (hw : u.wall = t.wall := by exact rfl)
    (ha : u.agenda = t.agenda := by exact rfl) : s.Keeps u := h.trans ⟨hw, ha, hm⟩

/-- A change that only a reader of memory makes. -/
theorem State.Keeps.reads (h : s.Keeps t) (hr : t.ReadsTo u) : s.Keeps u := by
  rw [hr]
  exact h.set

/-- A list of operations done one after another. -/
theorem State.Keeps.foldl {α : Type} {f : State → α → State} {l : List α} (h : s.Keeps t)
    (hf : ∀ {t}, s.Keeps t → ∀ a, s.Keeps (f t a)) : s.Keeps (l.foldl f t) := List.foldlRecOn l f h fun _ ht a _ => hf ht a

/-- The same where a value is carried along, as the latest completion time is. -/
theorem State.Keeps.foldl_fst {α β : Type} {f : State × β → α → State × β} {l : List α} {r : State × β} (h : s.Keeps r.1)
    (hf : ∀ {r}, s.Keeps r.1 → ∀ a, s.Keeps (f r a).1) : s.Keeps (l.foldl f r).1 :=
  List.foldlRecOn (motive := fun r => s.Keeps r.1) l f h fun _ hr a _ => hf hr a

/-! The same for what an operation answers, whose every state counts. -/

def Effect.Keeps (s : State) : Effect → Prop
  | .next t | .jump t _ | .last t | .stall t | .wait t _ _ | .fault t _ _ => s.Keeps t

def Arrival.Keeps (s : State) : Arrival → Prop
  | .counted t _ | .overrun t => s.Keeps t

def Signing.Keeps (s : State) : Signing → Prop
  | .signed t => s.Keeps t
  | .again | .differs => True

def PageFound.Keeps (s : State) : PageFound → Prop
  | .written t _ | .exhausted t | .badImage t _ => s.Keeps t
  | .unmapped => True

def KeyFound.Keeps (s : State) : KeyFound → Prop
  | .key _ t | .none _ t => s.Keeps t

def Made.Keeps (s : State) : Made → Prop
  | .good t _ | .bad t _ => s.Keeps t

def Probed.Keeps (s : State) : Probed → Prop
  | .ok t | .malformed t | .noRoom t => s.Keeps t

def Placing.Keeps (s : State) : Placing → Prop
  | .go t _ | .hold t => s.Keeps t

/-- A device step answers a next state that keeps this. -/
def State.Runs (s : State) (o : Host.Outcome State Fault Refusal) : Prop := ∃ t, o = .next t ∧ s.Keeps t

/-- So does the meaning of an instruction, where a group issues it. -/
def State.Tries (s : State) (o : Host.Outcome State Fault Refusal) : Prop :=
  s.Runs o ∨ s.ctx plainHdr = none ∧ o = .fault .noIssuingGroup

/-- What holds of the answer of a part of an instruction holds of the next state that it gives. -/
theorem Effect.Keeps.next {e : Effect} (he : Effect.Keeps s e) (hr : e = .next u) : s.Keeps u := by
  subst hr; exact he

theorem State.Keeps.runs (h : s.Keeps t) : s.Runs (.next t) := ⟨t, rfl, h⟩

/-! ### Memories in their form -/

theorem wf_istore {m : Store} {i : Memory} (h : m.wf = true) (hi : Memory.wf m.istore = true → Memory.wf i = true) :
    ({ m with istore := i } : Store).wf = true := by
  rw [store_wf_iff] at h ⊢
  obtain ⟨hdev, hhost, hpeer, hspad, histore, hrest⟩ := h
  exact ⟨hdev, hhost, hpeer, hspad, hi histore, hrest⟩

theorem wf_spad {m : Store} {p : Memory} (h : m.wf = true) (hp : Memory.wf m.spad = true → Memory.wf p = true) :
    ({ m with spad := p } : Store).wf = true := by
  rw [store_wf_iff] at h ⊢
  obtain ⟨hdev, hhost, hpeer, hspad, hrest⟩ := h
  exact ⟨hdev, hhost, hpeer, hp hspad, hrest⟩

theorem wf_pf {m : Store} {p : Memory} (h : m.wf = true) (hp : Memory.wf m.pf = true → Memory.wf p = true) :
    ({ m with pf := p } : Store).wf = true := by
  rw [store_wf_iff] at h ⊢
  obtain ⟨hdev, hhost, hpeer, hspad, histore, hpf, hrest⟩ := h
  exact ⟨hdev, hhost, hpeer, hspad, histore, hp hpf, hrest⟩

theorem wf_tiles {m : Store} {ts : List (Nat × Word)} (h : m.wf = true)
    (ht : canonical (0 : Word) m.tiles = true → canonical (0 : Word) ts = true) : ({ m with tiles := ts } : Store).wf = true := by
  rw [store_wf_iff] at h ⊢
  obtain ⟨hdev, hhost, hpeer, hspad, histore, hpf, hfwmem, htiles, hcksum⟩ := h
  exact ⟨hdev, hhost, hpeer, hspad, histore, hpf, hfwmem, ht htiles, hcksum⟩

theorem wf_copyLine {m : Memory} (h : Memory.wf m = true) (a : Nat) (line : List Byte) (gen : Nat) :
    Memory.wf (copyLine m a line gen) = true := wf_writeBytes (wf_writeNum h _ _ _) _ _

/-! ### Memories, leases and walks -/

theorem State.Keeps.onColumn (h : s.Keeps t) {id : Nat} {f : Column → Column} : s.Keeps (t.onColumn id f) := by
  dsimp only [State.onColumn]
  exact h.set

theorem State.Keeps.onConvoy (h : s.Keeps t) {col cv : Nat} {f : Convoy → Convoy} : s.Keeps (t.onConvoy col cv f) := h.onColumn

theorem State.Keeps.free (h : s.Keeps t) {r : Nat × State} (hr : t.free = r) : s.Keeps r.2 := by
  subst hr
  dsimp only [State.free]
  exact h.set

theorem State.Keeps.spadWrite (h : s.Keeps t) {banks : List Nat} {off : Nat} {bs : List Byte} : s.Keeps (t.spadWrite banks off bs) :=
  h.setStore fun hm => spadWrite_wf hm banks off bs

theorem State.Keeps.spadWriteNum (h : s.Keeps t) {banks : List Nat} {off n x : Nat} :
    s.Keeps (t.spadWriteNum banks off n x) := h.spadWrite

theorem State.Keeps.grant (h : s.Keeps t) {line ends : Nat} {holder : Holder} (hr : t.grant line holder ends = some u) : s.Keeps u :=
  h.reads (grant_reads hr)

/-- A lease taken where it can be. -/
theorem State.Keeps.tryGrant (h : s.Keeps t) {line ends : Nat} {holder : Holder} : s.Keeps ((t.grant line holder ends).getD t) := by
  cases hr : t.grant line holder ends with
  | none => exact h
  | some u => exact h.grant hr

theorem State.Keeps.devWrite (h : s.Keeps t) {own : Option Nat} {pa : Nat} {bs : List Byte} {r : State × Nat}
    (hr : t.devWrite own pa bs = r) : s.Keeps r.1 := by
  subst hr
  exact h.setStore fun hm => devWrite_wf hm own pa bs

theorem State.Keeps.devWriteNum (h : s.Keeps t) {pa n x : Nat} : s.Keeps (t.devWriteNum pa n x) := h.devWrite rfl

theorem State.Keeps.zeroDev (h : s.Keeps t) {pa n : Nat} : s.Keeps (t.zeroDev pa n) := h.setStore fun hm => zeroDev_wf hm pa n

theorem State.Keeps.meter (h : s.Keeps t) {part acct k n : Nat} : s.Keeps (t.meter part acct k n) := by
  dsimp only [State.meter]
  exact h.set

theorem State.Keeps.meterCol (h : s.Keeps t) {col k n : Nat} : s.Keeps (t.meterCol col k n) := by
  dsimp only [State.meterCol]
  split
  exacts [h.meter, h]

theorem State.Keeps.meterLoc (h : s.Keeps t) {col : Nat} {loc : Loc} {n : Nat} : s.Keeps (t.meterLoc col loc n) := by
  dsimp only [State.meterLoc]
  split
  exacts [h.meterCol, h.meterCol, h]

theorem State.Keeps.blackBox (h : s.Keeps t) {event part unit_ addr detail : Nat} :
    s.Keeps (t.blackBox event part unit_ addr detail) := by
  dsimp only [State.blackBox]
  exact h.set

theorem State.Keeps.sendMsix (h : s.Keeps t) {fn vector : Nat} : s.Keeps (t.sendMsix fn vector) := by
  dsimp only [State.sendMsix]
  exact h.set

theorem State.Keeps.readEcc (h : s.Keeps t) {part : Nat} {w : EccWord} : s.Keeps (t.readEcc part w) := by
  dsimp only [State.readEcc]
  split
  · exact (h.set.free rfl).blackBox
  · split
    exacts [(h.set.free rfl).blackBox, h]

theorem State.Keeps.readEccs (h : s.Keeps t) {part : Nat} {covers : EccWord → Bool} : s.Keeps (t.readEccs part covers) :=
  h.foldl (fun ht _ => ht.readEcc)

theorem State.Keeps.strike (h : s.Keeps t) {a : Upset} : s.Keeps (t.strike a) := by
  dsimp only [State.strike]
  split
  · exact h.set
  · split
    exacts [h, h.set]
  · exact h.setStore fun hm => wf_istore hm fun hi => wf_write hi _ _

theorem State.Keeps.checkSector (h : s.Keeps t) {part line : Nat} : s.Keeps (t.checkSector part line) := by
  dsimp only [State.checkSector]
  split
  · exact h
  · split
    exacts [h, h.set.blackBox, h.set.blackBox]

theorem State.Keeps.checkBytes (h : s.Keeps t) {part : Nat} {loc : Loc} {a n : Nat} : s.Keeps (t.checkBytes part loc a n) := by
  dsimp only [State.checkBytes]
  split
  exacts [(h.foldl (fun ht _ => ht.checkSector)).readEccs, h.readEccs]

theorem State.Keeps.ramWrite (h : s.Keeps t) {pf : Bool} {a : Nat} {bs : List Byte} {r : State × Nat} (hr : t.ramWrite pf a bs = r) :
    s.Keeps r.1 := by
  subst hr
  cases pf
  exacts [h.devWrite rfl, h.setStore fun hm => ramWrite_wf hm true a bs]

theorem State.Keeps.ramWriteNum (h : s.Keeps t) {pf : Bool} {a n x : Nat} : s.Keeps (t.ramWriteNum pf a n x) := h.ramWrite rfl

theorem State.Keeps.flushPosts (h : s.Keeps t) : s.Keeps t.flushPosts := by
  dsimp only [State.flushPosts]
  exact (h.foldl (fun ht _ => ht.ramWriteNum)).set

theorem State.Keeps.ringWrite (h : s.Keeps t) {pf : Bool} {part base n : Nat} {entry : List Byte} :
    s.Keeps (t.ringWrite pf part base n entry) := by
  dsimp only [State.ringWrite]
  split
  exacts [h.ramWriteNum.blackBox, ((h.ramWrite rfl).set).flushPosts]

theorem State.Keeps.faultEntry (h : s.Keeps t) {part : Nat} {e : FaultEntry} : s.Keeps (t.faultEntry part e) := by
  dsimp only [State.faultEntry]
  split
  exacts [h.ringWrite, h]

theorem State.Keeps.amendEntry (h : s.Keeps t) {part entry off n x : Nat} : s.Keeps (t.amendEntry part entry off n x) := by
  dsimp only [State.amendEntry]
  split
  · exact h
  · split
    exacts [h, h.devWriteNum]

theorem State.Keeps.checkWalk (h : s.Keeps t) {part va ptroot : Nat} : s.Keeps (t.checkWalk part va ptroot) :=
  h.foldl (fun ht _ => ht.checkBytes)

theorem State.Keeps.keepEntry (h : s.Keeps t) {e : TlbEntry} : s.Keeps (t.keepEntry e) := by
  dsimp only [State.keepEntry]
  exact h.set

theorem State.Keeps.keepNear (h : s.Keeps t) {b : Via} {e : TlbEntry} : s.Keeps (t.keepNear b e) := by
  dsimp only [State.keepNear]
  split
  exacts [h, h.keepEntry]

theorem State.Keeps.leaseWalk (h : s.Keeps t) {core ends : Nat} {entries : List Nat} {r : State × Bool}
    (hr : t.leaseWalk core ends entries = r) : s.Keeps r.1 := hr ▸ h.reads (leaseWalk_reads t core ends entries)

theorem State.Keeps.leafFor (h : s.Keeps t) {b : Via} {part ctx va : Nat} {epoch : Option Nat} {l : Leaf}
    (hr : t.leafFor b part ctx epoch va = .ok (l, u)) : s.Keeps u := h.reads (leafFor_reads hr)

theorem State.Keeps.touched (h : s.Keeps t) {b : Via} {part ctx : Nat} {epoch : Option Nat} {va : Nat} :
    s.Keeps (t.touched b part ctx epoch va) := by
  dsimp only [State.touched]
  split
  · exact h
  · split
    next hr1 => exact h.leafFor hr1
    · split
      exacts [h.checkWalk.leaseWalk rfl, h]

theorem State.Keeps.translate (h : s.Keeps t) {b : Via} {part ctx va : Nat} {epoch : Option Nat} {perm : Perm} {z : Trans}
    (hr : t.translate b part ctx epoch va perm = .ok (z, u)) : s.Keeps u := h.reads (translate_reads hr)

theorem State.Keeps.poke (h : s.Keeps t) {own : Option Nat} {loc : Loc} {a : Nat} {bs : List Byte} {r : State × Nat}
    (hr : t.poke own loc a bs = r) : s.Keeps r.1 := by
  subst hr
  cases loc <;> exact h.setStore fun hm => poke_wf hm own _ a bs

theorem State.Keeps.rangeRead (h : s.Keeps t) {b : Via} {part ctx va n : Nat} {own : Option (Holder × Nat)} :
    s.Keeps (t.rangeRead b part ctx own va n) := by
  induction n generalizing t va own with
  | zero => exact h
  | succ n ih =>
    dsimp only [State.rangeRead]
    split
    · exact h.touched
    · split <;> split
      exacts [h.touched.checkBytes.tryGrant, h.touched.checkBytes, ih h.touched.checkBytes.tryGrant, ih h.touched.checkBytes]

theorem State.Keeps.ringBytes (h : s.Keeps t) {core part ctx va : Nat} {bs : List Byte} {r : State × Nat}
    (hr : t.ringBytes core part ctx va bs = r) : s.Keeps r.1 := by
  subst hr
  induction bs generalizing t va with
  | nil => exact h
  | cons b bs ih =>
    dsimp only [State.ringBytes]
    split
    next hr => exact ih ((h.translate hr).poke rfl)
    · exact ih h

/-! ### Residency -/

theorem State.Keeps.setRes (h : s.Keeps t) {r : Residency} : s.Keeps (t.setRes r) := by
  dsimp only [State.setRes]
  exact h.set

theorem State.Keeps.handOver (h : s.Keeps t) {r : Residency} : s.Keeps (t.handOver r) := by
  dsimp only [State.handOver]
  split
  · split
    exacts [h.setRes, h]
  · exact h

theorem State.Keeps.dropOverlay (h : s.Keeps t) {r : Residency} : s.Keeps (t.dropOverlay r) :=
  h.setRes.handOver.setStore fun hm => wf_istore hm (canonical_filter _)

theorem State.Keeps.settle (h : s.Keeps t) : s.Keeps t.settle := by
  dsimp only [State.settle]
  refine h.foldl (fun ht _ => ?_)
  split
  exacts [ht.dropOverlay, ht]

theorem State.Keeps.seekRoom (h : s.Keeps t) {core part b : Nat} {share : Bool} (hr : t.seekRoom core part b share = some u) :
    s.Keeps u := by
  dsimp only [State.seekRoom] at hr
  split at hr
  · cases hr
    exact h
  · split at hr <;> cases hr
    refine h.foldl fun ht _ => ?_
    split
    exacts [ht, ht.dropOverlay]

theorem State.Keeps.load (h : s.Keeps t) {core part prog handle : Nat} {d : DirEntry} {r : State × LoadAnswer}
    (hr : t.load core part prog handle d = r) : s.Keeps r.1 := by
  subst hr
  dsimp only [State.load]
  split
  · exact h
  · exact h.setRes
  · exact h
  · split
    · split
      next hr2 => exact (h.seekRoom hr2).setRes
      · exact h
    · split
      · exact h
      next hr2 => exact (h.seekRoom hr2).setRes

theorem State.Keeps.evict (h : s.Keeps t) {core part prog handle : Nat} : s.Keeps (t.evict core part prog handle) := by
  dsimp only [State.evict]
  split
  exacts [h.setRes.settle, h.setRes, h]

theorem State.Keeps.addWaiter (h : s.Keeps t) {core part prog handle : Nat} {w : OvlWaiter} :
    s.Keeps (t.addWaiter core part prog handle w) := by
  dsimp only [State.addWaiter]
  exact h.setRes

theorem State.Keeps.copyImage (h : s.Keeps t) {r : Residency} {image : List Byte} : s.Keeps (t.copyImage r image) := by
  refine h.setStore fun hm => wf_istore hm (canonical_foldl _ (fun m n hc => ?_) _)
  split
  exacts [wf_copyLine hc _ _ _, hc]

theorem State.Keeps.engineWord (h : s.Keeps t) {byte : Option Nat} {x : Nat} : s.Keeps (t.engineWord byte x) := by
  dsimp only [State.engineWord]
  split
  exacts [h.poke rfl, h]

theorem State.Keeps.answerOvl (h : s.Keeps t) {w : OvlWaiter} {word : Nat} : s.Keeps (t.answerOvl w word) := h.engineWord.onConvoy

/-! ### Accesses of a group -/

theorem State.Keeps.resolve (h : s.Keeps t) {x : Ctx} {space : Space} {perm : Perm} {deny : Loc → Option (BitVec 16)} {ws : List Want}
    {ps : List Piece} (hr : t.resolve x space perm deny ws = .ok (ps, u)) : s.Keeps u := h.reads (resolve_reads hr)

theorem State.Keeps.addOp (h : s.Keeps t) {x : Ctx} {kind : OpKind} {hint : Hint} {lanes : List Nat} {pieces : List Piece}
    {vals : List (Nat × Nat)} {aux : List (Nat × Nat × Nat)} : s.Keeps (t.addOp x kind hint lanes pieces vals aux) := by
  dsimp only [State.addOp]
  exact h.set

theorem State.Keeps.put (h : s.Keeps t) {x : Ctx} {v : Convoy} : s.Keeps (t.put x v) := h.onConvoy

theorem State.Keeps.push (h : s.Keeps t) {x : Ctx} {q : Nat} {vals : Option (Nat → Nat)} {feed : Option Nat} {v : Convoy}
    (hr : t.push x q vals feed = .ok (u, v)) : s.Keeps u := by
  dsimp only [State.push] at hr
  split at hr
  · cases hr
    exact h
  · split at hr
    · cases hr
    next hres =>
      cases hr
      exact (h.resolve hres).foldl fun ht _ => ht.addOp

/-! ### Shared operations -/

theorem State.Keeps.report (h : s.Keeps t) {c : Column} {quad : Nat} {code : BitVec 16} {addr : DWord} {access service : Nat} :
    s.Keeps (t.report c quad code addr access service) :=
  h.faultEntry

theorem State.Keeps.post (h : s.Keeps t) {quad col cv : Nat} {signers : List (Nat × PC)} {tile urg : Nat} {work : MxWork} :
    s.Keeps (t.post quad col cv signers tile urg work) := by
  dsimp only [State.post]
  exact h.meterCol.set

theorem State.Keeps.forbidRollback (h : s.Keeps t) {col : Nat} : s.Keeps (t.forbidRollback col) := h.onColumn

theorem State.Keeps.complete (h : s.Keeps t) {col n : Nat} : s.Keeps (t.complete col n) := by
  dsimp only [State.complete]
  split
  · exact h
  · split
    · exact h
    · split
      · split
        exacts [h, h.onColumn.post.forbidRollback]
      · exact h.onColumn

theorem State.Keeps.completeRounds (h : s.Keeps t) :
    s.Keeps t.completeRounds := h.foldl (fun ht _ => ht.foldl (fun ht1 _ => ht1.complete))

theorem State.Keeps.checkEnd (h : s.Keeps t) {col cv : Nat} : s.Keeps (t.checkEnd col cv) := by
  dsimp only [State.checkEnd]
  split
  · exact h
  · split
    exacts [h.onConvoy.settle.foldl (fun ht _ => ht.complete), h]

theorem State.Keeps.releaseFrame (h : s.Keeps t) {c : Column} : s.Keeps (t.releaseFrame c) := by
  dsimp only [State.releaseFrame]
  split
  exacts [h.ringBytes rfl, h.ringBytes rfl, h.ringBytes rfl, h]

theorem State.Keeps.killNow (h : s.Keeps t) {c : Column} : s.Keeps (t.killNow c) := by
  unfold State.killNow
  extract_lets _ u
  exact (h.releaseFrame.meterCol.onColumn : s.Keeps u).set.settle

theorem State.Keeps.kill (h : s.Keeps t) {col : Nat} : s.Keeps (t.kill col) := by
  dsimp only [State.kill]
  split
  · exact h
  · split
    · exact h
    · split
      exacts [h.onColumn, h.killNow]

theorem State.Keeps.releasePorts (h : s.Keeps t) {col cv : Nat} : s.Keeps (t.releasePorts col cv) := by
  unfold State.releasePorts
  extract_lets own u
  have hu : s.Keeps u := by
    dsimp only [u]
    split
    exacts [h.onConvoy, h]
  exact hu.set

theorem State.Keeps.logUndo (h : s.Keeps t) {col quad key bytes : Nat} : s.Keeps (t.logUndo col quad key bytes) := h.onColumn

theorem State.Keeps.logRegs (h : s.Keeps t) {col cv : Nat} {rs : List Nat} : s.Keeps (t.logRegs col cv rs) := by
  dsimp only [State.logRegs]
  split
  exacts [h, h.foldl (fun ht _ => ht.logUndo)]

theorem State.Keeps.logSpad (h : s.Keeps t) {col quad pa n : Nat} : s.Keeps (t.logSpad col quad pa n) := h.foldl (fun ht _ => ht.logUndo)

theorem State.Keeps.setSpadImage (h : s.Keeps t) {banks : List Nat} {image : List Host.Cell} : s.Keeps (t.setSpadImage banks image) := by
  refine h.setStore fun hm => wf_spad hm fun hp => canonical_foldl _ (fun m c hc => ?_) _ (canonical_filter _ hp)
  split
  exacts [wf_write hc _ _, hc]

theorem State.Keeps.takeCheckpoint (h : s.Keeps t) {col : Nat} {resumed : List Convoy} : s.Keeps (t.takeCheckpoint col resumed) :=
  h.onColumn

theorem State.Keeps.consume (h : s.Keeps t) {col quad : Nat} {addr : DWord} {access : Nat} :
    s.Keeps (t.consume col quad addr access) := by
  unfold State.consume
  split
  · exact h
  · split
    · exact h.report.kill
    · extract_lets _ u _
      exact (h.setSpadImage.onColumn : s.Keeps u).set.report.blackBox.settle

theorem State.Keeps.enterTrap (h : s.Keeps t) {col cv : Nat} {codes : List (Nat × BitVec 16)} {addr : DWord} :
    s.Keeps (t.enterTrap col cv codes addr) := by
  dsimp only [State.enterTrap]
  split
  · split
    · exact h
    · split
      exacts [h.onConvoy.settle, h.report.kill]
  · exact h

theorem State.Keeps.requestPage (h : s.Keeps t) {c : Column} {quad ctx : Nat} {addr : DWord} {access : Nat} :
    s.Keeps (t.requestPage c quad ctx addr access) := by
  dsimp only [State.requestPage]
  split
  exacts [h.amendEntry, h.report.set]

theorem State.Keeps.startTrap (h : s.Keeps t) {col cv : Nat} {codes : List (Nat × BitVec 16)} {addr : DWord} :
    s.Keeps (t.startTrap col cv codes addr) := by
  dsimp only [State.startTrap]
  split
  · split
    · exact h
    · split
      · exact h.enterTrap
      · exact h.releasePorts.onConvoy
      · exact h.releasePorts.onConvoy
      · split
        · exact h.report.kill
        · split
          · split
            exacts [h.touched.requestPage.releasePorts.onConvoy, h.report.kill]
          · split
            next hr5 => exact (h.load hr5).enterTrap
            next hr5 => exact ((h.load hr5).releasePorts).onConvoy
            next hr5 => exact ((h.load hr5).report).kill
  · exact h

theorem State.Keeps.pageFault (h : s.Keeps t) {col cv : Nat} {pc : PC} {group : List Nat} {addr : DWord} {access : Nat} :
    s.Keeps (t.pageFault col cv pc group addr access) := by
  dsimp only [State.pageFault]
  split
  · split
    · split
      exacts [h.requestPage, h.releasePorts.onConvoy.requestPage]
    · exact h
  · exact h

theorem State.Keeps.signal (h : s.Keeps t) {col cv : Nat} {pc : PC} {F : List Nat} {code : BitVec 16} {addr : DWord} {access : Nat} :
    s.Keeps (t.signal col cv pc F code addr access) := by
  dsimp only [State.signal]
  split
  · split
    · exact h.pageFault
    · split
      · exact h.consume
      · split
        exacts [h.report.startTrap, h.report.kill]
  · exact h

theorem State.Keeps.deliver (h : s.Keeps t) {col cv : Nat} {rs : List Raised} : s.Keeps (t.deliver col cv rs) := by
  have hrun {c : Column} {v : Convoy} {handled : Raised → Bool} : s.Keeps (rs.foldl (fun t r =>
      if ((t.column? col).map (·.dying)).getD true then t
      else if handled r then t.report c v.quad r.code r.addr r.access 0
      else t.signal col cv r.pc r.lanes r.code r.addr r.access) t) := by
    refine h.foldl fun ht _ => ?_
    split_ifs
    exacts [ht, ht.report, ht.signal]
  dsimp only [State.deliver]
  split
  · split
    · exact hrun
    · split
      exacts [hrun, hrun.startTrap]
  · exact h

theorem State.Keeps.deliverAll (h : s.Keeps t) : s.Keeps t.deliverAll := by
  dsimp only [State.deliverAll]
  exact h.set.foldl (fun ht _ => ht.deliver)

theorem State.Keeps.performFills (h : s.Keeps t) {x : Ctx} {lane : Nat} {fills : List Fill} {g : Nat × Nat × Nat × Nat} :
    s.Keeps (t.performFills x lane fills g) := by
  dsimp only [State.performFills]
  refine h.foldl (fun ht _ => ?_)
  split
  · exact ht
  next hr => exact ((ht.resolve hr).foldl (fun ht1 _ => ht1.addOp)).onConvoy

theorem State.Keeps.tileEnd (h : s.Keeps t) {x : Ctx} {lane : Nat} {o : TileOut} : s.Keeps (t.tileEnd x lane o) := by
  dsimp only [State.tileEnd]
  split
  · exact h
  · split
    · exact h.onConvoy
    · split
      · exact h.performFills.onConvoy
      · split <;> exact h.set.onConvoy
      · exact h.set.onConvoy

theorem State.Keeps.tileEnds (h : s.Keeps t) {x : Ctx} {lanes : List Nat} {o : TileOut} : s.Keeps (t.tileEnds x lanes o) := by
  dsimp only [State.tileEnds]
  split
  exacts [h, (h.foldl (fun ht _ => ht.tileEnd)).settle]

theorem State.Keeps.pruneHolds (h : s.Keeps t) : s.Keeps t.pruneHolds := by
  dsimp only [State.pruneHolds]
  exact h.set

theorem State.Keeps.stepClause (h : s.Keeps t) {x : Ctx} {final : Bool} : s.Keeps (t.stepClause x final) := by
  unfold State.stepClause
  extract_lets _ _ u
  exact (h.onConvoy : s.Keeps u).set

theorem State.Keeps.keepClause (h : s.Keeps t) {x : Ctx} : s.Keeps (t.keepClause x) := by
  unfold State.keepClause
  extract_lets u
  exact (h.onConvoy : s.Keeps u).set

theorem State.Keeps.dropClause (h : s.Keeps t) {x : Ctx} : s.Keeps (t.dropClause x) := by
  unfold State.dropClause
  extract_lets u
  exact (h.onConvoy : s.Keeps u).set

theorem State.Keeps.fail (h : s.Keeps t) {x : Ctx} {code : BitVec 16} {addr : Nat} {access : optParam Nat 0} :
    Effect.Keeps s (x.fail t code addr access) :=
  h

theorem State.Keeps.readsPoison (h : s.Keeps t) {x : Ctx} {ps : List Piece} {addr access : Nat} :
    Effect.Keeps s (x.readsPoison t ps addr access) := by
  dsimp only [Ctx.readsPoison]
  split
  exacts [h.foldl (fun ht _ => ht.checkBytes), h.fail]

theorem State.Keeps.branch (h : s.Keeps t) {x : Ctx} {taken : List (Nat × PC)} (hu : s.Keeps u) :
    Effect.Keeps s (x.branch t taken u) := by
  dsimp only [Ctx.branch]
  split
  exacts [h.fail, hu]

theorem State.Keeps.backEdges (h : s.Keeps t) {x : Ctx} {taken : List (Nat × PC)} : s.Keeps (t.backEdges x taken) := by
  dsimp only [State.backEdges]
  split
  · exact h
  · refine h.foldl (fun ht _ => ?_)
    split
    · split
      exacts [ht.onConvoy, ht.tileEnd]
    · exact ht

theorem State.Keeps.moveGroup (h : s.Keeps t) {x : Ctx} {taken : List (Nat × PC)} {branch : Bool} :
    s.Keeps (t.moveGroup x taken branch) :=
  h.backEdges.onConvoy.checkEnd

theorem State.Keeps.closeIssue (h : s.Keeps t) {x : Ctx} {i : Instr} {stalled pairOk : Bool} :
    s.Keeps (t.closeIssue x i stalled pairOk) := by
  dsimp only [State.closeIssue]
  exact h.set

theorem State.Keeps.walkFault (h : s.Keeps t) {x : Ctx} {b : Bad} : s.Keeps (t.walkFault x b) := by
  dsimp only [State.walkFault]
  split
  · split
    exacts [h.touched, h]
  · exact h

theorem State.Keeps.raise (h : s.Keeps t) {x : Ctx} {F : List Nat} {b : Bad} : s.Keeps (t.raise x F b) := by
  dsimp only [State.raise]
  split
  exacts [h.walkFault.set, h.walkFault.signal]

theorem State.Keeps.unpop (h : s.Keeps t) {x : Ctx} : s.Keeps (t.unpop x) := h.onConvoy

theorem State.Keeps.conclude {x : Ctx} {i : Instr} {e : Effect} (he : Effect.Keeps s e) : s.Keeps (x.conclude i t e) := by
  cases e with
  | next v => exact State.Keeps.closeIssue (State.Keeps.moveGroup (State.Keeps.stepClause he))
  | jump v taken => exact State.Keeps.settle (State.Keeps.closeIssue (State.Keeps.moveGroup (State.Keeps.stepClause he)))
  | last v => exact State.Keeps.closeIssue (State.Keeps.moveGroup (State.Keeps.stepClause he))
  | stall v => exact State.Keeps.closeIssue (State.Keeps.keepClause (State.Keeps.unpop he))
  | wait v kind deadline => exact State.Keeps.closeIssue (State.Keeps.releasePorts (State.Keeps.onConvoy (State.Keeps.stepClause he)))
  | fault v F b => exact State.Keeps.closeIssue (State.Keeps.raise (State.Keeps.dropClause (State.Keeps.unpop he)))

theorem State.Keeps.popFails (h : s.Keeps t) {x : Ctx} {i : Instr} {body : Ctx → State → Effect} :
    Effect.Keeps s (x.popFails i t body) := by
  dsimp only [Ctx.popFails]
  split
  · exact h
  · exact h
  · split <;> exact h

theorem State.Keeps.run (h : s.Keeps t) {x : Ctx} {i : Instr} {body : Ctx → State → Effect}
    (hb : ∀ y t, s.Keeps t → Effect.Keeps s (body y t)) : Effect.Keeps s (x.run i t body) := by
  dsimp only [Ctx.run]
  split
  · exact h.fail
  · split
    · exact h
    · split
      · split
        exacts [h.readEccs, h.fail]
      · split
        exacts [h, h.popFails, hb _ _ h.put]

theorem ctx_none_iff (s : State) (hd : Hdr) : s.ctx hd = none ↔ s.ctx plainHdr = none := by
  simp only [State.ctx, Option.bind_eq_bind, Option.bind_eq_none_iff, Option.pure_def, reduceCtorEq]

/-- R120: an instruction's issue keeps what its own effect keeps. -/
theorem issue_tries {i : Instr} {hd : Hdr} {body : Ctx → State → Effect} (hb : ∀ y t, s.Keeps t → Effect.Keeps s (body y t)) :
    s.Tries (issue i hd body s) := by
  dsimp only [issue]
  split
  next hx => exact .inr ⟨(ctx_none_iff s hd).mp hx, rfl⟩
  · exact .inl (State.Keeps.conclude ((State.Keeps.refl s).run hb)).runs

theorem State.Keeps.putRegs (h : s.Keeps t) {x : Ctx} {o : Operand} {k : Nat} {v : Convoy} : s.Keeps (t.putRegs x o k v) := by
  unfold State.putRegs
  extract_lets _ u
  exact (h.logRegs.put : s.Keeps u).set

theorem State.Keeps.retire (h : s.Keeps t) {x : Ctx} {o : Operand} {k : Nat} {kind : ResKind} {val : Nat → IVal} :
    Effect.Keeps s (x.retire t o k kind val) := by
  dsimp only [Ctx.retire]
  split
  · split
    · exact h
    next hr1 => exact (h.push hr1).put
  · exact h.putRegs.tileEnds
  · exact h.putRegs

theorem issueAlu_tries {i : Instr} {h' : Hdr} {a : Operand} {k : Nat} {srcs : List (Operand × Nat)} {op : Alu} :
    s.Tries (issueAlu i h' a k srcs op s) :=
  issue_tries fun _ _ h => h.retire

theorem issuePred_tries {i : Instr} {h' : Hdr} {a : Operand} {val : Ctx → Nat → Tri} : s.Tries (issuePred i h' a val s) :=
  issue_tries fun _ _ h => h.put

theorem State.Keeps.settleUnd (h : s.Keeps t) {x : Ctx} : s.Keeps (x.settleUnd t) := h.tileEnds

theorem State.Keeps.retireU (h : s.Keeps t) {x : Ctx} {o : Operand} {k : Nat} {val : Nat → IVal} :
    Effect.Keeps s (x.retireU t o k val) := by
  have hret : Effect.Keeps s ({ x with und := [] }.retire t o k (.bits (k == 2) false) val) := h.retire
  dsimp only [Ctx.retireU]
  split
  next hn => exact State.Keeps.settleUnd (hn ▸ hret : Effect.Keeps s (.next _))
  · exact hret

theorem State.Keeps.notice (h : s.Keeps t) : s.Keeps t.notice := by
  dsimp only [State.notice]
  exact h.set

/-! ### Control flow -/

theorem execBra_tries {f : BForm} : s.Tries (execBra f s) := issue_tries fun _ _ h => h.branch h.settleUnd

theorem execBrx_tries {f : BForm} : s.Tries (execBrx f s) := by
  dsimp only [execBrx]
  refine issue_tries fun y t h => ?_
  split
  · exact h.fail
  · split
    · exact h
    · split
      · exact h
      · split
        exacts [h.readsPoison, h.branch h.tileEnds]

theorem execCall_tries {f : BForm} : s.Tries (execCall f s) := issue_tries fun _ _ h => h.branch h.put.settleUnd

theorem execRet_tries {f : BForm} : s.Tries (execRet f s) := by
  dsimp only [execRet]
  refine issue_tries fun y t h => ?_
  split
  exacts [h.branch h.settleUnd, h.fail]

theorem execLoop_tries {f : BForm} : s.Tries (execLoop f s) := by
  dsimp only [execLoop]
  refine issue_tries fun y t h => ?_
  split
  exacts [h.settleUnd, h.branch h.put.settleUnd]

theorem State.Keeps.exitLanes (h : s.Keeps t) {x : Ctx} : s.Keeps (x.exitLanes t) := by
  dsimp only [Ctx.exitLanes]
  split
  exacts [h.tileEnds, h.onConvoy]

theorem execExit_tries {f : BForm} : s.Tries (execExit f s) := by
  dsimp only [execExit]
  exact issue_tries fun y t h => h.exitLanes.settleUnd

theorem execYield_tries {f : BForm} : s.Tries (execYield f s) := by
  dsimp only [execYield]
  exact issue_tries fun y t h => h.put.settleUnd

theorem execTrap_tries {f : BForm} : s.Tries (execTrap f s) := by
  dsimp only [execTrap]
  refine issue_tries fun y t h => ?_
  split <;> exact h.settleUnd

theorem execNop_tries {f : BForm} : s.Tries (execNop f s) := by
  dsimp only [execNop]
  exact issue_tries fun y t h => h.settleUnd

theorem execBkpt_tries {f : BForm} : s.Tries (execBkpt f s) := by
  dsimp only [execBkpt]
  refine issue_tries fun y t h => ?_
  split <;> exact h.settleUnd

theorem execTrapret_tries {f : BForm} : s.Tries (execTrapret f s) := issue_tries fun _ _ h => h.branch h.put.settleUnd

theorem State.Keeps.callInto (h : s.Keeps t) {x : Ctx} {h' : Nat} {d : DirEntry} {target : PC} :
    Effect.Keeps s (x.callInto t h' d target) := by
  dsimp only [Ctx.callInto]
  split
  · exact h.branch h.setRes.onConvoy
  · exact h
  · exact h
  · split
    · exact h.fail
    · split
      next hr => exact (h.load hr).branch (h.load hr).setRes.onConvoy
      next hr => exact h.load hr
      · exact h.fail

theorem execCallo_tries {f : BForm} : s.Tries (execCallo f s) := by
  dsimp only [execCallo]
  refine issue_tries fun y t h => ?_
  split
  · exact h.settleUnd.fail
  · split
    · exact h.settleUnd
    · split
      · exact h.settleUnd.fail
      · split
        exacts [h.settleUnd, h.settleUnd.callInto]

theorem execReto_tries {f : BForm} : s.Tries (execReto f s) := by
  dsimp only [execReto]
  refine issue_tries fun y t h => ?_
  split
  · exact h.settleUnd.fail
  · split
    exacts [h.settleUnd, h.settleUnd.branch h.settleUnd.onConvoy]

/-! ### Overlay instructions -/

theorem State.Keeps.ovlFailure (h : s.Keeps t) {part route quad colid : Nat} {code : BitVec 16} {addr : Nat} :
    s.Keeps (t.ovlFailure part route quad colid code addr) :=
  h.faultEntry

theorem execOvl_tries {f : BForm} : s.Tries (execOvl f s) := by
  dsimp only [execOvl]
  refine issue_tries fun y t h => ?_
  split
  · exact h
  · split
    · exact h.fail
    · split
      · exact h.fail
      · split
        · exact h
        · split
          next hr4 => exact ((h.forbidRollback.onConvoy.load hr4).answerOvl).notice
          next hr4 => exact (h.forbidRollback.onConvoy.load hr4).addWaiter
          next hr4 => exact (((h.forbidRollback.onConvoy.load hr4).answerOvl).ovlFailure).notice

theorem execOvlq_tries {f : BForm} : s.Tries (execOvlq f s) := issue_tries fun _ _ h => h.retireU

theorem execOvlpin_tries {f : BForm} : s.Tries (execOvlpin f s) := by
  dsimp only [execOvlpin]
  refine issue_tries fun y t h => ?_
  split
  · exact h
  · split
    exacts [h.fail, h.forbidRollback.onColumn]

theorem execOvlrel_tries {f : BForm} : s.Tries (execOvlrel f s) := by
  dsimp only [execOvlrel]
  refine issue_tries fun y t h => ?_
  split
  · exact h
  · split
    exacts [h.fail, h.forbidRollback.onColumn.settle]

theorem execOvlev_tries {f : BForm} : s.Tries (execOvlev f s) := by
  dsimp only [execOvlev]
  refine issue_tries fun y t h => ?_
  split
  · exact h
  · split
    exacts [h.fail, h.forbidRollback.evict]

/-! ### System instructions -/

theorem execMovs_tries {f : RForm} : s.Tries (execMovs f s) := issue_tries fun _ _ h => h.retire

theorem execMovc_tries {f : RForm} : s.Tries (execMovc f s) := issue_tries fun _ _ h => h.put.tileEnds

theorem execClk_tries {f : RForm} : s.Tries (execClk f s) := issue_tries fun _ _ h => h.retire

theorem execPerf_tries {f : RForm} : s.Tries (execPerf f s) := issue_tries fun _ _ h => h.retire

theorem execFwcall_tries {f : IForm} : s.Tries (execFwcall f s) := by
  dsimp only [execFwcall]
  refine issue_tries fun y t h => ?_
  split
  · exact h
  · split
    exacts [h, h.set.forbidRollback]

theorem State.Keeps.sendZeroRead (h : s.Keeps t) {x : Ctx} : s.Keeps (t.sendZeroRead x) := h.addOp

theorem State.Keeps.fenceWaits (h : s.Keeps t) {x : Ctx} : Effect.Keeps s (x.fenceWaits t) := by
  dsimp only [Ctx.fenceWaits]
  split
  exacts [h, h.onConvoy]

theorem execFence_tries {f : RForm} : s.Tries (execFence f s) := by
  dsimp only [execFence]
  refine issue_tries fun y t h => ?_
  split
  · exact h
  · split
    · exact h.fenceWaits
    · split
      exacts [h.sendZeroRead.fenceWaits, h.put]

theorem execWaitc_tries {f : IForm} : s.Tries (execWaitc f s) := by
  dsimp only [execWaitc]
  refine issue_tries fun y t h => ?_
  split <;> exact h

theorem execNap_tries {f : IForm} : s.Tries (execNap f s) := by
  dsimp only [execNap]
  refine issue_tries fun y t h => ?_
  split <;> exact h

theorem execUnassignedOpcode_tries {w : IWord} : s.Tries (execUnassignedOpcode w s) := by
  dsimp only [execUnassignedOpcode]
  split
  next hx => exact .inr ⟨hx, rfl⟩
  · exact .inl (State.Keeps.conclude (State.Keeps.refl s).fail).runs

theorem State.Keeps.reloadLine (h : s.Keeps t) {x : Ctx} : s.Keeps (t.reloadLine x) := by
  unfold State.reloadLine
  split
  · extract_lets _ u _ w
    have hu : s.Keeps u := h.blackBox.rangeRead
    have hw : s.Keeps w := by
      dsimp only [w]
      split
      · exact hu.setStore fun hm => wf_istore hm fun hi => wf_copyLine hi _ _ _
      · exact hu
    split
    exacts [hw.report.kill, hw]
  · exact h

theorem execFetchParityRetry_tries : s.Tries (execFetchParityRetry s) := by
  dsimp only [execFetchParityRetry]
  split
  next hx => exact .inr ⟨hx, rfl⟩
  · exact .inl ((State.Keeps.refl s).reloadLine.set.runs)

/-! ### Barriers and convergence -/

theorem State.Keeps.setBarrier (h : s.Keeps t) {x : Ctx} {off : Nat} {b : Barrier} : s.Keeps (t.setBarrier x off b) := by
  dsimp only [State.setBarrier]
  split
  exacts [h.logSpad.spadWriteNum.notice, h.spadWriteNum.notice]

theorem State.Keeps.onObject (h : s.Keeps t) {x : Ctx} {f : MForm} {n access : Nat} {go : Nat → Effect}
    (hgo : ∀ off, Effect.Keeps s (go off)) : Effect.Keeps s (x.onObject t f n access go) := by
  dsimp only [Ctx.onObject]
  split
  · exact h
  · split
    · exact h.fail
    · split
      · exact h
      · split
        · exact h
        · split
          exacts [h.readsPoison, hgo _]

theorem execBari_tries {f : MForm} : s.Tries (execBari f s) := by
  refine issue_tries fun y t h => h.onObject fun off => ?_
  dsimp only
  split
  exacts [h.fail, h.setBarrier]

theorem State.Keeps.arriveAt (h : s.Keeps t) {x : Ctx} {off : Nat} {b : Barrier} : s.Keeps (t.arriveAt x off b) := by
  dsimp only [State.arriveAt]
  exact h.setBarrier.onConvoy

theorem State.Keeps.arrive (h : s.Keeps t) {x : Ctx} {off c : Nat} {r : Arrival} (hr : x.arrive t off c = r) : Arrival.Keeps s r := by
  subst hr
  dsimp only [Ctx.arrive]
  split
  · exact h
  · split
    · exact h.arriveAt
    · split <;> exact h.arriveAt

theorem execBara_tries {f : MForm} : s.Tries (execBara f s) := by
  refine issue_tries fun y t h => h.onObject fun off => ?_
  split
  · exact h
  · split
    next hr => exact h.arrive hr
    next hr => exact h.arrive hr

theorem State.Keeps.checkpointAt (h : s.Keeps t) {x : Ctx} {off : Nat} {dst : Option (BitVec 3)} :
    s.Keeps (t.checkpointAt x off dst) := by
  dsimp only [State.checkpointAt]
  split
  · exact h
  · split
    exacts [h, h.takeCheckpoint]

theorem State.Keeps.returnNow (h : s.Keeps t) {x : Ctx} {dst : Option (BitVec 3)} : Effect.Keeps s (x.returnNow t dst) := h.onConvoy

theorem State.Keeps.waitPhase (h : s.Keeps t) {x : Ctx} {off ph : Nat} {dst : Option (BitVec 3)} {w : Nat} :
    Effect.Keeps s (x.waitPhase t off ph dst w) := by
  dsimp only [Ctx.waitPhase]
  exact h.setBarrier

theorem execBarw_tries {f : MForm} : s.Tries (execBarw f s) := by
  refine issue_tries fun y t h => h.onObject fun off => ?_
  dsimp only
  split
  exacts [h.returnNow, h.waitPhase]

theorem execBaraw_tries {f : MForm} : s.Tries (execBaraw f s) := by
  refine issue_tries fun y t h => h.onObject fun off => ?_
  dsimp only
  split
  · exact h
  · split
    next hr => exact h.arrive hr
    next hr => exact (State.Keeps.checkpointAt (h.arrive hr)).returnNow
    next hr => exact State.Keeps.waitPhase (h.arrive hr)

theorem execWaita_tries {f : MForm} : s.Tries (execWaita f s) := by
  refine issue_tries fun y t h => h.onObject fun off => ?_
  dsimp only
  split
  exacts [h.returnNow, h]

theorem State.Keeps.sign (h : s.Keeps t) {x : Ctx} {n : Nat} {work : Option MxWork} {r : Signing} (hr : t.sign x n work = r) :
    Signing.Keeps s r := by
  subst hr
  unfold State.sign
  split
  · trivial
  · extract_lets _ _ _ _ _ u w
    have hw : s.Keeps w := by
      dsimp only [w]
      split
      exacts [h.onColumn.onConvoy, h.onColumn]
    split
    · trivial
    · split
      exacts [trivial, hw.complete]

theorem execSign_tries {f : RForm} : s.Tries (execSign f s) := by
  dsimp only [execSign]
  refine issue_tries fun y t h => ?_
  split
  · exact h
  · split
    · exact h
    · split
      next hr2 => exact (h.sign hr2).onConvoy
      · exact h

/-! ### The matrix group at issue -/

theorem State.Keeps.postOwn (h : s.Keeps t) {x : Ctx} {tile urg : Nat} {work : MxWork} : s.Keeps (x.postOwn t tile urg work) :=
  h.post.onConvoy.forbidRollback

theorem State.Keeps.startMma (h : s.Keeps t) {x : Ctx} {tri : Bool} {f : XForm} : Effect.Keeps s (x.startMma t tri f) := by
  dsimp only [Ctx.startMma]
  split
  · exact h
  · split
    · split
      · exact h
      · split
        next hr3 => exact h.sign hr3
        · exact h.fail
        · exact h
    · split
      exacts [h, h.postOwn]

theorem execMma_tries {f : XForm} : s.Tries (execMma f s) := issue_tries fun _ _ h => h.startMma

theorem execMmat_tries {f : XForm} : s.Tries (execMmat f s) := issue_tries fun _ _ h => h.startMma

theorem execPlst_tries {f : XForm} : s.Tries (execPlst f s) := by
  dsimp only [execPlst]
  refine issue_tries fun y t h => ?_
  split
  · exact h.fail
  · split
    · exact h
    · split
      · exact h.fail
      · split
        · exact h
        next hr3 => exact ((h.resolve hr3).addOp).put

theorem State.Keeps.startTile (h : s.Keeps t) {x : Ctx} {f : XForm} {work : MxWork} : Effect.Keeps s (x.startTile t f work) := by
  dsimp only [Ctx.startTile]
  split
  · exact h
  · split
    exacts [h, h.postOwn]

theorem execAcz_tries {f : XForm} : s.Tries (execAcz f s) := issue_tries fun _ _ h => h.startTile

theorem State.Keeps.startTransfer (h : s.Keeps t) {x : Ctx} {f : XForm} {e access : Nat} {work : Nat → Nat → MxWork} :
    Effect.Keeps s (x.startTransfer t f e access work) := by
  dsimp only [Ctx.startTransfer]
  split
  · exact h
  · split
    · exact h
    · split
      exacts [h, h.startTile]

theorem execAcld_tries {f : XForm} : s.Tries (execAcld f s) := issue_tries fun _ _ h => h.startTransfer

theorem execAcst_tries {f : XForm} : s.Tries (execAcst f s) := issue_tries fun _ _ h => h.startTransfer

theorem State.Keeps.passAcc (h : s.Keeps t) {x : Ctx} {f : XForm} : s.Keeps (t.passAcc x f) := by
  dsimp only [State.passAcc]
  exact h.set

theorem execAcrd_tries {f : XForm} : s.Tries (execAcrd f s) := by
  dsimp only [execAcrd]
  refine issue_tries fun y t h => ?_
  split
  · exact h
  · split
    · exact h.readEccs
    · split
      next hr => exact (h.retire.next hr).passAcc
      · exact h.retire

theorem execAcwr_tries {f : XForm} : s.Tries (execAcwr f s) := issue_tries fun _ _ h => h.startTile

theorem execCbld_tries {f : XForm} : s.Tries (execCbld f s) := by
  dsimp only [execCbld]
  refine issue_tries fun y t h => ?_
  split
  · exact h.fail
  · split
    · exact h
    · split
      · exact h
      next hr2 => exact (((h.resolve hr2).put).addOp).forbidRollback

theorem State.Keeps.setCksum (h : s.Keeps t) {quad k : Nat} {w : Word} : s.Keeps (t.setCksum quad k w) :=
  h.setStore fun hm => setCksum_wf hm quad k w

theorem execCkrd_tries {f : RForm} : s.Tries (execCkrd f s) := by
  dsimp only [execCkrd]
  refine issue_tries fun y t h => ?_
  split
  · exact h
  · split
    next hr =>
      have hu := h.retire.next hr
      split
      exacts [hu.setCksum.setCksum, hu]
    · exact h.retire

/-! ### Copies -/

theorem State.Keeps.sideTouch (h : s.Keeps t) {d : Side} {a : Nat} : s.Keeps (t.sideTouch d a) := by
  dsimp only [State.sideTouch]
  split
  exacts [h, h.touched]

theorem State.Keeps.probeRows (h : s.Keeps t) {d : Side} {perm : Perm} {rows : List (Int × Nat)}
    (hr : t.probeRows d perm rows = .ok u) : s.Keeps u := h.reads (probeRows_reads hr)

theorem State.Keeps.taskDecrement (h : s.Keeps t) {part task : Nat} : s.Keeps (t.taskDecrement part task) := by
  dsimp only [State.taskDecrement]
  exact h.set

theorem State.Keeps.completionWord (h : s.Keeps t) {j : CopyJob} {value : Word} : s.Keeps (t.completionWord j value) := by
  dsimp only [State.completionWord]
  split
  exacts [h.spadWriteNum.notice, h]

theorem State.Keeps.copyDone (h : s.Keeps t) {j : CopyJob} : s.Keeps (t.copyDone j) := by
  dsimp only [State.copyDone]
  split
  exacts [h.onConvoy, h]

theorem State.Keeps.finishCopy (h : s.Keeps t) {j : CopyJob} : s.Keeps (t.finishCopy j) := by
  unfold State.finishCopy
  extract_lets _ u w
  have hu : s.Keeps u := by
    dsimp only [u]
    split
    exacts [h.completionWord.meterCol, h.completionWord]
  have hw : s.Keeps w := by
    dsimp only [w]
    split
    exacts [hu.taskDecrement, hu]
  exact hw.set.copyDone

theorem State.Keeps.failCopy (h : s.Keeps t) {j : CopyJob} {code : BitVec 16} {addr access : Nat} :
    s.Keeps (t.failCopy j code addr access) := by
  dsimp only [State.failCopy]
  exact h.completionWord.faultEntry.set.copyDone

theorem State.Keeps.startCopy (h : s.Keeps t) {x : Ctx} {p : Packet} : Effect.Keeps s (x.startCopy t p) := by
  unfold Ctx.startCopy
  split
  · exact h.fail
  · extract_lets bad cw
    clear_value cw
    split
    · exact h
    next hr1 =>
      split
      · exact h
      next hr2 =>
        split
        · exact h
        · extract_lets _ _ _ _ u
          have hu : s.Keeps u := ((h.probeRows hr1).probeRows hr2).forbidRollback.put
          split
          · exact hu.finishCopy
          · split
            exacts [h, hu.set]

theorem State.Keeps.issueCopy (h : s.Keeps t) {x : Ctx} {p : Packet} : Effect.Keeps s (x.issueCopy t p) := by
  dsimp only [Ctx.issueCopy]
  split
  exacts [h, h.startCopy]

theorem execCpy_tries {f : MForm} : s.Tries (execCpy f s) := issue_tries fun _ _ h => h.issueCopy

theorem execCpy2_tries {f : MForm} : s.Tries (execCpy2 f s) := issue_tries fun _ _ h => h.issueCopy

theorem execCpyp_tries {f : MForm} : s.Tries (execCpyp f s) := issue_tries fun _ _ h => h.issueCopy

theorem execCpyq_tries {f : MForm} : s.Tries (execCpyq f s) := by
  dsimp only [execCpyq]
  refine issue_tries fun y t h => ?_
  split
  · exact h
  · split
    · exact h.fail
    · split
      · exact h.fail
      · split
        exacts [h.readsPoison, h.startCopy]

theorem State.Keeps.readLine (h : s.Keeps t) {j : CopyJob} {l : CopyLine} (hr : t.readLine j l = .ok u) : s.Keeps u := by
  unfold State.readLine at hr
  extract_lets at hr
  split at hr
  · cases hr
  · extract_lets _ v w _ at hr
    have hv : s.Keeps v := by
      dsimp only [v]
      split
      exacts [h.sideTouch.checkBytes.meterLoc, h.sideTouch.checkBytes]
    have hw : s.Keeps w := by
      dsimp only [w]
      split
      exacts [hv.tryGrant, hv]
    split at hr <;> cases hr
    exact hw.set

theorem State.Keeps.readLines (h : s.Keeps t) {j : CopyJob} {ls : List CopyLine} (hr : t.readLines j ls = .ok u) : s.Keeps u := by
  induction ls generalizing t with
  | nil =>
    cases hr
    exact h
  | cons l ls ih =>
    rw [State.readLines] at hr
    split at hr
    · cases hr
    next hl => exact ih (h.readLine hl) hr

theorem State.Keeps.writeLine (h : s.Keeps t) {j : CopyJob} {l : CopyLine} (hr : t.writeLine j l = .ok u) : s.Keeps u := by
  dsimp only [State.writeLine] at hr
  split at hr
  · cases hr
  · split at hr <;> cases hr
    · exact (h.sideTouch.meterLoc.foldl fun ht _ => ht.poke rfl).set.notice
    · exact (h.sideTouch.foldl fun ht _ => ht.poke rfl).set.notice

theorem State.Keeps.grantLine (h : s.Keeps t) {j : CopyJob} {l : CopyLine} (hr : t.grantLine j l = .ok u) : s.Keeps u := by
  unfold State.grantLine at hr
  extract_lets at hr
  split_ifs at hr
  · cases hr
    exact h
  · split at hr
    · cases hr
    next hls =>
      split at hr
      · cases hr
        exact h.readLines hls
      · split_ifs at hr
        · cases hr
          exact h.readLines hls
        · exact (h.readLines hls).writeLine hr

theorem execOwnershipGrant_runs (h : s.Keeps t) {job line : Nat} : s.Runs (execOwnershipGrant job line t) := by
  dsimp only [execOwnershipGrant]
  split
  · exact h.runs
  · split
    · exact h.runs
    · split
      · exact h.runs
      · split
        next hr3 => exact (h.grantLine hr3).runs
        · exact h.runs

theorem execCopyCompletion_runs (h : s.Keeps t) {job : Nat} : s.Runs (execCopyCompletion job t) := by
  dsimp only [execCopyCompletion]
  split
  · exact h.runs
  · split
    exacts [h.finishCopy.runs, h.runs]

theorem execCopyFailure_runs (h : s.Keeps t) {job : Nat} : s.Runs (execCopyFailure job t) := by
  dsimp only [execCopyFailure]
  split
  · exact h.runs
  · split
    · exact h.runs
    · split
      exacts [(((h.foldl (fun ht _ => ht.checkBytes)).sideTouch).failCopy).runs, h.runs]

/-! ### Queues -/

theorem State.Keeps.onQueue (h : s.Keeps t) {id : Nat} {f : Queue → Queue} : s.Keeps (t.onQueue id f) := by
  dsimp only [State.onQueue]
  exact h.set

theorem State.Keeps.requeue (h : s.Keeps t) {id : Nat} {f : Queue → Queue} : s.Keeps (t.requeue id f) := by
  unfold State.requeue
  extract_lets u
  have hu : s.Keeps u := h.onQueue
  split
  exacts [hu, hu.set]

theorem State.Keeps.checkRange (h : s.Keeps t) {d : Side} {ea n : Nat} : s.Keeps (t.checkRange d ea n) :=
  h.foldl (fun ht _ => ht.checkBytes)

theorem State.Keeps.meterRange (h : s.Keeps t) {col : Nat} {d : Side} {ea n : Nat} {perm : optParam Perm Perm.read} :
    s.Keeps (t.meterRange col d ea n perm) :=
  h.foldl (fun ht _ => ht.meterLoc)

theorem State.Keeps.qrdGive (h : s.Keeps t) {x : Ctx} {a : Operand} {qnum : Nat} {q : Option Queue} {ms : List Msg} :
    s.Keeps (x.qrdGive t a qnum q ms) := by
  dsimp only [Ctx.qrdGive]
  split
  · exact h.putRegs.forbidRollback
  · split
    exacts [h.putRegs.forbidRollback, h.putRegs.forbidRollback.onQueue.onConvoy.onColumn]

theorem State.Keeps.slotsRead (h : s.Keeps t) {x : Ctx} {q : Option Queue} {ms : List Msg} :
    (∀ u, x.slotsRead t q ms = .ok u → s.Keeps u) ∧ ∀ b u, x.slotsRead t q ms = .error (b, u) → s.Keeps u := by
  have hrun {w : State} {r : Queue} (hw : s.Keeps w) :
      s.Keeps (ms.foldl (fun (u : State) m => u.checkRange (x.side false) (r.slotVa m.k) r.msize) w) := hw.foldl fun ht _ => ht.checkRange
  constructor
  · intro u hr
    dsimp only [Ctx.slotsRead] at hr
    split at hr
    · cases hr
      exact h
    · split at hr
      · cases hr
      next hp =>
        split at hr <;> cases hr
        exact hrun (h.probeRows hp)
  · intro b u hr
    dsimp only [Ctx.slotsRead] at hr
    split at hr
    · cases hr
    · split at hr
      · cases hr
        exact h
      next hp =>
        split at hr <;> cases hr
        exact hrun (h.probeRows hp)

theorem State.Keeps.qrdTake (h : s.Keeps t) {x : Ctx} {a : Operand} {qnum : Nat} {q : Option Queue} {ms : List Msg} {last : Bool} :
    Effect.Keeps s (x.qrdTake t a qnum q ms last) := by
  dsimp only [Ctx.qrdTake]
  split
  next hr => exact h.slotsRead.2 _ _ hr
  next hr => split <;> exact (h.slotsRead.1 _ hr).qrdGive

theorem execQrd_tries {f : MForm} : s.Tries (execQrd f s) := by
  dsimp only [execQrd]
  refine issue_tries fun y t h => ?_
  split
  · exact h
  · split
    · exact h.fail
    · split
      exacts [h.forbidRollback, h.qrdTake]

theorem State.Keeps.release (h : s.Keeps t) {col qnum : Nat} {addr : DWord} : s.Keeps (t.release col qnum addr) := by
  dsimp only [State.release]
  split
  · exact h
  · split
    exacts [h, h.requeue.onColumn]

theorem execQack_tries {f : MForm} : s.Tries (execQack f s) := by
  dsimp only [execQack]
  refine issue_tries fun y t h => ?_
  split
  · exact h
  · split
    · exact h.fail
    · split
      · exact h
      · split
        · exact h.fail
        · refine (h.foldl (fun ht _ => ?_)).forbidRollback
          split
          exacts [ht, ht.release]

theorem State.Keeps.append (h : s.Keeps t) {q : Queue} {core : Nat} {messages : List (List Byte)} {r : State × Nat}
    (hr : t.append q core messages = r) : s.Keeps r.1 := by
  subst hr
  refine State.Keeps.onQueue (State.Keeps.foldl_fst (r := (t, t.now)) h fun {r} hr _ => ?_)
  dsimp only
  exact hr.ringBytes rfl

theorem State.Keeps.appendAll (h : s.Keeps t) {x : Ctx} {q : Queue} {space : Space} {srcs : List (Nat × Nat)} :
    s.Keeps (x.appendAll t q space srcs) := by
  dsimp only [Ctx.appendAll]
  exact ((((h.foldl (fun ht _ => ht.meterRange.meterRange)).append rfl).set).onConvoy).forbidRollback

theorem State.Keeps.startAppend (h : s.Keeps t) {x : Ctx} {f : MForm} {emit : Bool} : Effect.Keeps s (x.startAppend t f emit) := by
  dsimp only [Ctx.startAppend]
  split
  · exact h
  · split
    · exact h.fail
    · split
      · exact h.fail
      · split
        · exact h
        next hr3 =>
          split
          · exact h.probeRows hr3
          · split
            · exact ((h.probeRows hr3).foldl (fun ht _ => ht.checkRange)).fail
            · split
              · exact (h.probeRows hr3).foldl (fun ht _ => ht.checkRange)
              · split
                · split
                  · exact (((h.probeRows hr3).foldl (fun ht _ => ht.checkRange)).appendAll).onConvoy
                  · exact ((h.probeRows hr3).foldl (fun ht _ => ht.checkRange)).appendAll
                · split
                  · exact (h.probeRows hr3).foldl (fun ht _ => ht.checkRange)
                  · split
                    · exact ((h.probeRows hr3).foldl (fun ht _ => ht.checkRange)).onConvoy
                    · exact (h.probeRows hr3).foldl (fun ht _ => ht.checkRange)

theorem execQwr_tries {f : MForm} : s.Tries (execQwr f s) := issue_tries fun _ _ h => h.startAppend

theorem execEmit_tries {f : MForm} : s.Tries (execEmit f s) := issue_tries fun _ _ h => h.startAppend

/-! ### The dispatcher -/

theorem State.Keeps.markEntry (h : s.Keeps t) {core part prog handle : Nat} : s.Keeps (t.markEntry core part prog handle) := by
  dsimp only [State.markEntry]
  exact h.setRes

theorem State.Keeps.entryLoads (h : s.Keeps t) {r : Route} {cores : List Nat} {a : State × LoadAnswer}
    (hr : t.entryLoads r cores = a) : s.Keeps a.1 := by
  subst hr
  induction cores generalizing t with
  | nil => exact h
  | cons core rest ih =>
    unfold State.entryLoads
    extract_lets
    split
    · exact h
    · split
      · exact h
      next hl =>
        have hu := h.load hl
        extract_lets w
        have hw : s.Keeps w := by
          dsimp only [w]
          split
          exacts [State.Keeps.markEntry hu, hu]
        split
        next he => exact (congrArg (fun p => s.Keeps p.1) he).mp (ih hw)
        · exact ih hw

theorem State.Keeps.noBayEntry (h : s.Keeps t) {r : Route} {bmode : Bool} : s.Keeps (t.noBayEntry r bmode) := by
  dsimp only [State.noBayEntry]
  split
  exacts [h, h.faultEntry.set]

theorem State.Keeps.takeQuads (h : s.Keeps t) {quads : List Nat} {self : optParam (Option Nat) none} :
    s.Keeps (t.takeQuads quads self) := by
  dsimp only [State.takeQuads]
  exact h.set

theorem State.Keeps.takeRoom (h : s.Keeps t) {part : Nat} {who : Who} : s.Keeps (t.takeRoom part who) := by
  dsimp only [State.takeRoom]
  exact h.set

theorem State.Keeps.newColumn (h : s.Keeps t) {r : Route} {p : Spot} {a : Start} : s.Keeps (t.newColumn r p a) := by
  unfold State.newColumn
  extract_lets _ _ u v
  have hu : s.Keeps u := by
    dsimp only [u]
    split
    exacts [h.takeQuads.foldl fun ht _ => ht.setCksum.setCksum, h.takeQuads]
  exact (hu.meter.takeRoom : s.Keeps v).set

theorem State.Keeps.capture (h : s.Keeps t) {part ctx : Nat} : s.Keeps (t.capture part ctx) := by
  dsimp only [State.capture]
  exact h.set

theorem State.Keeps.reserveBatch (h : s.Keeps t) {b : Batch} {on : Bool} : s.Keeps (t.reserveBatch b on) := h.onQueue

theorem State.Keeps.releaseBatch (h : s.Keeps t) {b : Batch} : s.Keeps (t.releaseBatch b) := h.requeue

theorem State.Keeps.decideBatch (h : s.Keeps t) {r : Route} {b : Batch} (hr : t.decideBatch r = some (u, b)) : s.Keeps u := by
  unfold State.decideBatch at hr
  split at hr
  · cases hr
    exact h
  · split at hr
    · cases hr
    · split_ifs at hr
      extract_lets _ v at hr
      simp only [Option.some.injEq, Prod.mk.injEq] at hr
      obtain ⟨rfl, -⟩ := hr
      exact (h.capture.reserveBatch : s.Keeps v).set

theorem State.Keeps.startBounds (h : s.Keeps t) {r : Route} {p : Spot} {task : Word} {arg : DWord} {batch : Option Batch}
    {msize epoch : Nat} {regs : List (Nat × Word)} : s.Keeps (t.startBounds r p task arg batch msize epoch regs) := by
  dsimp only [State.startBounds]
  exact h.set.newColumn

theorem State.Keeps.startBatch (h : s.Keeps t) {r : Route} {p : Spot} {b : Batch} : s.Keeps (t.startBatch r p b) := by
  dsimp only [State.startBatch]
  split
  exacts [h.set.startBounds, h.set.newColumn]

theorem State.Keeps.freeTask (h : s.Keeps t) {part task : Nat} : s.Keeps (t.freeTask part task) := by
  dsimp only [State.freeTask]
  exact h.set

theorem State.Keeps.onLaunch (h : s.Keeps t) {id : Nat} {f : Launch → Launch} : s.Keeps (t.onLaunch id f) := by
  dsimp only [State.onLaunch]
  exact h.set

theorem State.Keeps.endLaunch (h : s.Keeps t) {id : Nat} : s.Keeps (t.endLaunch id) := by
  dsimp only [State.endLaunch]
  split
  · exact h
  · split
    · exact h.set
    · split
      · split
        · exact h
        · split
          exacts [h.set.releaseBatch, h.set]
      · split
        · exact h
        · split
          exacts [h.set.releaseBatch, h.set]

theorem State.Keeps.freeBacking (h : s.Keeps t) {pas : List Nat} : s.Keeps (t.freeBacking pas) := by
  unfold State.freeBacking
  extract_lets _ u
  have hu : s.Keeps u := h.foldl fun {t} ht pa => (ht.zeroDev : s.Keeps (t.zeroDev pa 4096)).set
  exact hu.set

theorem State.Keeps.dropGens (h : s.Keeps t) : s.Keeps t.dropGens := by
  dsimp only [State.dropGens]
  exact h.foldl (fun ht _ => ht.set.freeBacking)

theorem execColumnEnd_runs (h : s.Keeps t) {col : Nat} : s.Runs (execColumnEnd col t) := by
  dsimp only [execColumnEnd]
  split
  · exact h.runs
  · split
    · exact h.runs
    · split
      · exact h.set.endLaunch.settle.dropGens.runs
      · exact h.set.releaseBatch.settle.dropGens.runs
      · exact h.set.settle.dropGens.runs

/-! ### Records -/

theorem State.Keeps.putRec (h : s.Keeps t) {r : Rec} : s.Keeps (t.putRec r) := by
  dsimp only [State.putRec]
  exact h.set.ramWrite rfl

theorem State.Keeps.syncAst (h : s.Keeps t) : s.Keeps t.syncAst := by
  dsimp only [State.syncAst]
  refine h.foldl (fun ht _ => ?_)
  split
  exacts [ht.putRec, ht]

theorem State.Keeps.milestone (h : s.Keeps t) {fn recid outcome kind version discard writer : Nat} :
    s.Keeps (t.milestone fn recid outcome kind version discard writer) :=
  h.ringWrite

theorem State.Keeps.outcome (h : s.Keeps t) {r : Rec} {outcome : Nat} {v : Version} {discard : Nat} :
    s.Keeps (t.outcome r outcome v discard) :=
  h.putRec.milestone

theorem State.Keeps.note (h : s.Keeps t) {r : Rec} {outcome : Nat} {v : Version} : s.Keeps (t.note r outcome v) := h.putRec.milestone

theorem State.Keeps.deviceMilestone (h : s.Keeps t) {fn outcome : Nat} : s.Keeps (t.deviceMilestone fn outcome) := h.milestone

theorem State.Keeps.fnFault (h : s.Keeps t) {fn : Nat} {e : FaultEntry} : s.Keeps (t.fnFault fn e) := by
  dsimp only [State.fnFault]
  split
  exacts [h.ringWrite, h]

theorem State.Keeps.recordFault (h : s.Keeps t) {fn : Nat} {code : BitVec 16} {writer : Nat} : s.Keeps (t.recordFault fn code writer) :=
  h.fnFault

/-! ### Keys -/

theorem State.Keeps.putRaw (h : s.Keeps t) {line x : Nat} : s.Keeps (t.putRaw line x) := h.devWriteNum

theorem State.Keeps.rekeyed (h : s.Keeps t) {old : State} {lines : List Nat} : s.Keeps (t.rekeyed old lines) :=
  h.foldl (fun ht _ => ht.putRaw)

theorem State.Keeps.setKey (h : s.Keeps t) {part ctx : Nat} {key : Option Nat} : s.Keeps (t.setKey part ctx key) := by
  dsimp only [State.setKey]
  exact h.set.rekeyed

theorem State.Keeps.addPage (h : s.Keeps t) {g : Page} : s.Keeps (t.addPage g) := by
  dsimp only [State.addPage]
  split
  · exact h.set
  · split
    exacts [h.set, h.set.rekeyed]

/-! ### Paging -/

theorem State.Keeps.takePage (h : s.Keeps t) {part size : Nat} {data : Option Nat} {r : Nat × State}
    (hr : t.takePage part data size = some r) : s.Keeps r.2 := by
  simp only [State.takePage, Option.bind_eq_some_iff, Option.map_eq_some_iff] at hr
  obtain ⟨p, -, pa, -, rfl⟩ := hr
  exact (h.free rfl).zeroDev

theorem State.Keeps.onSet (h : s.Keeps t) {part slot : Nat} {f : WeightSet → WeightSet} : s.Keeps (t.onSet part slot f) := by
  dsimp only [State.onSet]
  exact h.set

theorem State.Keeps.makeTable (h : s.Keeps t) {part ctx va table level n : Nat} {r : Nat × State × Nat}
    (hr : t.makeTable part ctx va table level n = some r) : s.Keeps r.2.1 := by
  induction n generalizing t table level r with
  | zero =>
    cases hr
    exact h
  | succ n ih =>
    dsimp only [State.makeTable] at hr
    split at hr
    · exact ih h hr
    · split at hr
      · cases hr
      next hp =>
        obtain ⟨q, hq, rfl⟩ := Option.map_eq_some_iff.mp hr
        refine ih (r := q) ?_ hq
        exact ((h.takePage hp).addPage).devWrite rfl

theorem State.Keeps.writeSlots (h : s.Keeps t) {entry : Nat} {slots : List Nat} {r : State × Nat} (hr : t.writeSlots entry slots = r) :
    s.Keeps r.1 := by
  subst hr
  refine State.Keeps.foldl_fst (r := (t, t.now)) h fun {r} hr _ => ?_
  dsimp only
  exact hr.devWrite rfl

theorem State.Keeps.writeLeaf (h : s.Keeps t) {part ctx va : Nat} {l : Leaf} {r : State × Nat}
    (hr : t.writeLeaf part ctx va l = some r) : s.Keeps r.1 := by
  simp only [State.writeLeaf, Option.bind_eq_some_iff, Option.map_eq_some_iff] at hr
  obtain ⟨c, -, q, hq, rfl⟩ := hr
  dsimp only
  exact (h.makeTable hq).writeSlots rfl

theorem State.Keeps.clearLeaf (h : s.Keeps t) {part ctx va size : Nat} {r : State × Nat} (hr : t.clearLeaf part ctx va size = r) :
    s.Keeps r.1 := by
  subst hr
  dsimp only [State.clearLeaf]
  split
  exacts [h.writeSlots rfl, h]

theorem State.Keeps.mapPage (h : s.Keeps t) {g : Page} {l : Leaf} {r : State × Nat} (hr : t.mapPage g l = some r) : s.Keeps r.1 := by
  obtain ⟨w, hw, rfl⟩ := Option.map_eq_some_iff.mp hr
  exact (h.writeLeaf hw).addPage

theorem State.Keeps.unmapPages (h : s.Keeps t) {gs : List Page} {r : State × Nat} (hr : t.unmapPages gs = r) : s.Keeps r.1 :=
  hr ▸ State.Keeps.foldl_fst h fun hr _ => (hr.clearLeaf rfl).set

theorem State.Keeps.freeUp (h : s.Keeps t) {gs : List Page} : s.Keeps (t.freeUp gs) := by
  refine h.foldl fun {t} ht _ => ?_
  extract_lets _ u
  have hu : s.Keeps u := ht.set
  split_ifs
  exacts [hu.zeroDev, hu.zeroDev.addPage, hu.addPage, hu]

theorem State.Keeps.mapBacked (h : s.Keeps t) {m : Mapping} {va : Nat} {r : State × Nat} (hr : t.mapBacked m va = some r) :
    s.Keeps r.1 := by
  dsimp only [State.mapBacked] at hr
  split at hr
  · obtain ⟨q, hq, hr⟩ := Option.bind_eq_some_iff.mp hr
    exact (h.takePage hq).mapPage hr
  · exact h.mapPage hr

theorem State.Keeps.readsThrough (h : s.Keeps t) {part ctx va n : Nat} : s.Keeps (t.readsThrough part ctx va n) := h.rangeRead

theorem State.Keeps.backPages (h : s.Keeps t) {w : WeightSet} {ps : List (Nat × List Byte)} {r : State × List (Nat × Nat)}
    (hr : t.backPages w ps = some r) : s.Keeps r.1 := by
  induction ps generalizing t r with
  | nil =>
    cases hr
    exact h
  | cons p ps ih =>
    rw [State.backPages] at hr
    split at hr
    · cases hr
    next hp =>
      obtain ⟨q, hq, rfl⟩ := Option.map_eq_some_iff.mp hr
      refine ih (r := q) ?_ hq
      exact ((h.takePage hp).addPage).devWrite rfl

theorem State.Keeps.backWeights (h : s.Keeps t) {w : WeightSet} {bs : List Byte} {r : State × List (Nat × Nat)}
    (hr : t.backWeights w bs = some r) : s.Keeps r.1 := by
  dsimp only [State.backWeights] at hr
  split at hr
  · split at hr
    · cases hr
      exact h
    · exact h.backPages hr
  · simp only [Option.bind_eq_some_iff, Option.map_eq_some_iff] at hr
    obtain ⟨g, -, q, hq, rfl⟩ := hr
    exact h.backPages (r := q) hq
  · exact h.backPages hr

theorem State.Keeps.showWeights (h : s.Keeps t) {w : WeightSet} {ps : List (Nat × Nat)} {r : State × Nat}
    (hr : t.showWeights w ps = some r) : s.Keeps r.1 := by
  induction ps generalizing t r with
  | nil =>
    cases hr
    exact h
  | cons p ps ih =>
    rw [State.showWeights] at hr
    split at hr
    · cases hr
    next hl =>
      obtain ⟨q, hq, rfl⟩ := Option.map_eq_some_iff.mp hr
      exact ih (r := q) (h.writeLeaf hl) hq

theorem State.Keeps.evictSet (h : s.Keeps t) {w : WeightSet} : s.Keeps (t.evictSet w) := by
  dsimp only [State.evictSet]
  split
  · exact h
  · split
    · exact (((h.foldl (fun ht _ => ht.clearLeaf rfl)).onSet).freeBacking).note
    · exact ((h.foldl (fun ht _ => ht.clearLeaf rfl)).onSet).freeBacking

/-- Work with evictions made for it: its answer is as the work leaves it, and where it cannot be done only evictions have happened. -/
theorem State.Keeps.withRoom {α : Type} {P : α → Prop} (h : s.Keeps t) {part n : Nat} {work : State → Option α}
    (hw : ∀ t r, s.Keeps t → work t = some r → P r) :
    (∀ r, State.withRoom part work n t = .ok r → P r) ∧ ∀ u, State.withRoom part work n t = .error u → s.Keeps u := by
  induction n generalizing t with
  | zero =>
    rw [State.withRoom]
    split
    next hr => exact ⟨fun r he => by cases he; exact hw t _ h hr, fun u he => by cases he⟩
    · exact ⟨fun r he => (by cases he), fun u he => by cases he; exact h⟩
  | succ n ih =>
    rw [State.withRoom]
    split
    next hr => exact ⟨fun r he => by cases he; exact hw t _ h hr, fun u he => by cases he⟩
    · split
      · exact ih h.evictSet
      · exact ⟨fun r he => (by cases he), fun u he => by cases he; exact h⟩

theorem State.Keeps.makeRoom {α : Type} {P : α → Prop} (h : s.Keeps t) {part : Nat} {work : State → Option α}
    (hw : ∀ t r, s.Keeps t → work t = some r → P r) :
    (∀ r, t.makeRoom part work = .ok r → P r) ∧ ∀ u, t.makeRoom part work = .error u → s.Keeps u := h.withRoom hw

theorem State.Keeps.readySet (h : s.Keeps t) {w : WeightSet} {t' : Nat} : s.Keeps (t.readySet w t') := by
  dsimp only [State.readySet]
  exact h.set

/-- Weights backed and shown keep what they are made from. -/
theorem State.Keeps.backAndShow {α : Type} (h : s.Keeps t) {w : WeightSet} {bs : List Byte}
    {f : State × List (Nat × Nat) → State × Nat → α} {r : State × α}
    (hr : ((t.backWeights w bs).bind fun r => (r.1.showWeights w r.2).map fun q => (q.1, f r q)) = some r) : s.Keeps r.1 := by
  obtain ⟨b, hb, hr⟩ := Option.bind_eq_some_iff.mp hr
  obtain ⟨q, hq, rfl⟩ := Option.map_eq_some_iff.mp hr
  exact State.Keeps.showWeights (r := q) (h.backWeights hb) hq

theorem State.Keeps.reloadSet (h : s.Keeps t) {w : WeightSet} {r : PageFound} (hr : t.reloadSet w = r) : PageFound.Keeps s r := by
  subst hr
  dsimp only [State.reloadSet]
  split
  · exact h.readsThrough
  · split
    next hr => exact (h.readsThrough.makeRoom (P := fun r => s.Keeps r.1) fun _ _ ht hr => ht.backAndShow hr).2 _ hr
    next hr =>
      have hu := (h.readsThrough.makeRoom (P := fun r => s.Keeps r.1) fun _ _ ht hr => ht.backAndShow hr).1 _ hr
      split
      · exact State.Keeps.note (State.Keeps.readySet (State.Keeps.onSet hu))
      · exact State.Keeps.readySet (State.Keeps.onSet hu)

theorem State.Keeps.serve (h : s.Keeps t) {part ctx va : Nat} {r : PageFound} (hr : t.serve part ctx va = r) : PageFound.Keeps s r := by
  subst hr
  dsimp only [State.serve]
  split
  · split
    exacts [h.reloadSet rfl, trivial]
  · split
    · trivial
    · split
      · exact h
      · have hroom {m} := h.makeRoom (part := part) (work := fun t => t.mapBacked m va) (P := fun r => s.Keeps r.1) fun _ _ ht hr => ht.mapBacked hr
        split
        next hr => exact hroom.1 _ hr
        next hr => exact hroom.2 _ hr

theorem State.Keeps.pagingKill (h : s.Keeps t) {q : PageReq} : s.Keeps (t.pagingKill q) := by
  dsimp only [State.pagingKill]
  exact h.amendEntry.set.foldl (fun ht _ => ht.kill)

theorem State.Keeps.setFailed (h : s.Keeps t) {w : WeightSet} : s.Keeps (t.setFailed w) := by
  dsimp only [State.setFailed]
  split
  exacts [h.note, h]

theorem execPagingAnswer_runs (h : s.Keeps t) {part ctx page : Nat} : s.Runs (execPagingAnswer part ctx page t) := by
  dsimp only [execPagingAnswer]
  split
  · exact h.runs
  · split
    · split
      exacts [h.amendEntry.set.runs, h.runs]
    · split
      next hr2 => exact ((h.serve hr2).set).runs
      next hr2 => exact ((h.serve hr2).pagingKill).runs
      · exact h.pagingKill.runs
      next hr2 => exact (((h.serve hr2).pagingKill).setFailed).runs

theorem execPageWalk_runs (h : s.Keeps t) {core part ctx va : Nat} : s.Runs (execPageWalk core part ctx va t) := by
  dsimp only [execPageWalk]
  split
  next hr => exact (h.leafFor hr).runs
  · exact h.touched.runs

/-! ### What issues -/

theorem State.Keeps.faultAt (h : s.Keeps t) {x : Ctx} {code : BitVec 16} : s.Keeps (x.faultAt t code) := State.Keeps.conclude h.fail

theorem State.Keeps.joinGroups (h : s.Keeps t) : s.Keeps t.joinGroups := by
  dsimp only [State.joinGroups]
  refine h.foldl (fun ht _ => ?_)
  split
  · split
    exacts [ht, ht.onConvoy]
  · exact ht

/-! ### Accounts and slices -/

theorem State.Keeps.refill (h : s.Keeps t) : s.Keeps t.refill := by
  dsimp only [State.refill]
  exact h.set

theorem execAccountRefill_runs (h : s.Keeps t) : s.Runs (execAccountRefill t) := by
  dsimp only [execAccountRefill]
  split
  exacts [h.refill.runs, h.runs]

theorem State.Keeps.charge (h : s.Keeps t) {quad : Nat} : s.Keeps (t.charge quad) := by
  dsimp only [State.charge]
  split
  exacts [h.set, h.set.meter]

theorem execCycleCharge_runs (h : s.Keeps t) {quad : Nat} : s.Runs (execCycleCharge quad t) := by
  dsimp only [execCycleCharge]
  split
  exacts [h.runs, h.charge.runs]

theorem State.Keeps.chargeRest (h : s.Keeps t) : s.Keeps t.chargeRest := by
  dsimp only [State.chargeRest]
  exact (h.foldl (fun ht _ => ht.charge)).set

theorem State.Keeps.without (h : s.Keeps t) {ids : List Nat} : s.Keeps (t.without ids) := by
  dsimp only [State.without]
  exact h.set

theorem State.Keeps.launchedAt (h : s.Keeps t) {r : Route} {bmode : Bool} {core : Nat} {quads : List Nat} :
    s.Keeps (t.launchedAt r bmode core quads) :=
  h.newColumn

theorem State.Keeps.putBack (h : s.Keeps t) {id frame : Nat} {quads banks : List Nat} : s.Keeps (t.putBack id frame quads banks) :=
  h.onColumn

theorem State.Keeps.reserveRoom (h : s.Keeps t) {part core : Nat} {who : Who} {slice : Bool} :
    s.Keeps (t.reserveRoom part core who slice) := by
  dsimp only [State.reserveRoom]
  split
  exacts [h, h.set]

theorem State.Keeps.stopColumns (h : s.Keeps t) {ids : List Nat} : s.Keeps (t.stopColumns ids) := by
  dsimp only [State.stopColumns]
  exact h.set

theorem State.Keeps.serveWaiters (h : s.Keeps t) {v : State} {part core : Nat} {ws : List Waiter} {ks : List Column} :
    s.Keeps (v.serveWaiters part core ws ks t) := by
  induction ws generalizing t v ks with
  | nil => exact h
  | cons w ws ih =>
    dsimp only [State.serveWaiters]
    split
    · exact h
    · split
      · exact h
      · split
        exacts [h, ih h.stopColumns.reserveRoom]

theorem State.Keeps.stopDry (h : s.Keeps t) {part core : Nat} : s.Keeps (t.stopDry part core) := by
  dsimp only [State.stopDry]
  refine h.foldl (fun ht _ => ?_)
  split
  exacts [ht.stopColumns, ht]

theorem State.Keeps.slicePart (h : s.Keeps t) {core part : Nat} : s.Keeps (t.slicePart core part) := h.stopDry.set.serveWaiters

theorem State.Keeps.endSlice (h : s.Keeps t) {core : Nat} : s.Keeps (t.endSlice core) := by
  dsimp only [State.endSlice]
  exact h.set.foldl (fun ht _ => ht.slicePart)

theorem execSliceEnd_runs (h : s.Keeps t) {core : Nat} : s.Runs (execSliceEnd core t) := h.endSlice.runs

theorem execPreemptForRoom_runs (h : s.Keeps t) {part prog core : Nat} : s.Runs (execPreemptForRoom part prog core t) := by
  dsimp only [execPreemptForRoom]
  split
  · exact h.runs
  · split
    · exact h.runs
    · split
      · exact h.runs
      · split
        exacts [h.stopColumns.reserveRoom.runs, h.runs]

/-! ### Frames of pre-empted columns -/

theorem State.Keeps.supply (h : s.Keeps t) {core part ctx : Nat} {perm : Perm} {as_ : List Nat} :
    (∀ u, t.supply core part ctx perm as_ = .ok u → s.Keeps u) ∧ ∀ e, t.supply core part ctx perm as_ = .error e → s.Keeps e.2 := by
  induction as_ generalizing t with
  | nil => exact ⟨fun u hr => by cases hr; exact h, fun e hr => by cases hr⟩
  | cons a as_ ih =>
    rw [State.supply]
    split
    next ht => exact ih (h.translate ht)
    · split
      · exact ⟨fun u hr => (by cases hr), fun e hr => by cases hr; exact h⟩
      · split
        next hs =>
          split
          next ht => exact ih (State.Keeps.translate (h.serve hs) ht)
          · exact ⟨fun u hr => (by cases hr), fun e hr => by cases hr; exact h.serve hs⟩
        · exact ⟨fun u hr => (by cases hr), fun e hr => by cases hr; exact h⟩
        next hs => exact ⟨fun u hr => (by cases hr), fun e hr => by cases hr; exact h.serve hs⟩
        next hs => exact ⟨fun u hr => (by cases hr), fun e hr => by cases hr; exact h.serve hs⟩

theorem State.Keeps.writeParts (h : s.Keeps t) {core va : Nat} {r : Route} {ps : List Part} :
    (∀ q, t.writeParts core r va ps = .ok q → s.Keeps q.1) ∧ ∀ e, t.writeParts core r va ps = .error e → s.Keeps e.2 := by
  rw [State.writeParts]
  split
  next he => exact ⟨fun q hr => (by cases hr), fun e hr => by cases hr; exact h.supply.2 _ he⟩
  next v hs =>
    refine ⟨fun q hr => ?_, fun e hr => by cases hr⟩
    cases hr
    refine State.Keeps.foldl_fst (r := (v, v.now)) (h.supply.1 _ hs) fun {r} hr _ => ?_
    dsimp only
    exact hr.ringBytes rfl

theorem State.Keeps.killSaved (h : s.Keeps t) {col : Nat} : s.Keeps (t.killSaved col) := by
  dsimp only [State.killSaved]
  split
  exacts [h.killNow.onColumn, h]

theorem State.Keeps.saveFails (h : s.Keeps t) {k : Column} {addr : Nat} : s.Keeps (t.saveFails k addr) := h.report.killSaved

theorem State.Keeps.saveEnds (h : s.Keeps t) {r : Route} {k : Column} {f : Nat} : s.Keeps (t.saveEnds r k f) := by
  dsimp only [State.saveEnds]
  split
  exacts [h.killSaved, (((h.ringBytes rfl).ringBytes rfl).onColumn).meterCol]

theorem State.Keeps.beginSave (h : s.Keeps t) {r : Route} {k0 : Column} : s.Keeps (t.beginSave r k0) := by
  unfold State.beginSave
  extract_lets u
  have hu : s.Keeps u := h.foldl fun ht _ => ht.releasePorts
  clear_value u
  split
  · exact hu
  next k _ =>
    -- named, so that the kernel does not run the save when it reduces the match around it
    obtain ⟨save, hsave⟩ : ∃ save, save = u.writeParts k.core r := ⟨_, rfl⟩
    rw [← hsave]
    split
    · split
      exacts [hu.killSaved, hu.onColumn]
    · split
      next hr => exact State.Keeps.saveFails (hu.writeParts.2 _ (hsave ▸ hr))
      next hr => exact State.Keeps.onColumn (hu.writeParts.1 _ (hsave ▸ hr))

theorem execPreemptionSave_runs (h : s.Keeps t) {col : Nat} : s.Runs (execPreemptionSave col t) := by
  dsimp only [execPreemptionSave]
  split
  · exact h.runs
  · split
    · exact h.runs
    · split
      · split
        exacts [h.runs, h.beginSave.runs]
      · split
        exacts [h.saveEnds.runs, h.runs]
      · exact h.runs

theorem State.Keeps.carryOut (h : s.Keeps t) {r : Route} {core va : Nat} {ps : List (PoisonAt × Nat)} :
    s.Keeps (t.carryOut r core va ps) := by
  dsimp only [State.carryOut]
  exact h.set

theorem State.Keeps.carryBack (h : s.Keeps t) {r : Route} {core va : Nat} {ps : List (PoisonAt × Nat)} :
    s.Keeps (t.carryBack r core va ps) := by
  dsimp only [State.carryBack]
  split
  exacts [h, h.set]

theorem execTileBankSave_runs (h : s.Keeps t) {col : Nat} : s.Runs (execTileBankSave col t) := by
  dsimp only [execTileBankSave]
  split
  · exact h.runs
  · split
    · split
      · exact h.runs
      · split
        next hr => exact (State.Keeps.saveFails (h.writeParts.2 _ hr)).runs
        next hr => exact (State.Keeps.onColumn (State.Keeps.carryOut (h.writeParts.1 _ hr))).runs
    · exact h.runs

theorem State.Keeps.readBanks (h : s.Keeps t) {r : Route} {k : Column} {f : Nat} {banks : List Nat} :
    s.Keeps (t.readBanks r k f banks) := by
  dsimp only [State.readBanks]
  split
  exacts [h, h.spadWrite.carryBack]

theorem State.Keeps.moveTiles (h : s.Keeps t) {ps : List (Nat × Nat)} : s.Keeps (t.moveTiles ps) := by
  refine State.Keeps.foldl (h.setStore fun hm => wf_tiles hm fun ht => ?_) fun ht _ => ht.setCksum.setCksum
  exact canonical_foldl _ (fun m e hc => canonical_insertD hc _ _) _ (canonical_filter _ ht)

theorem State.Keeps.readTiles (h : s.Keeps t) {r : Route} {k : Column} {f : Nat} {was : List Nat} : s.Keeps (t.readTiles r k f was) := by
  unfold State.readTiles
  split
  · exact h
  · refine h.foldl fun {t} ht p => ?_
    extract_lets
    refine State.Keeps.carryBack (State.Keeps.setCksum (State.Keeps.setCksum ?_))
    exact ht.setStore fun hm => wf_tiles hm fun hc => canonical_foldl _ (fun m e hc => canonical_insertD hc _ _) _ hc

theorem State.Keeps.bringOverlays (h : s.Keeps t) {r : Route} {core : Nat} {hs : List Nat} (hr : t.bringOverlays r core hs = .ok u) :
    s.Keeps u := by
  induction hs generalizing t with
  | nil =>
    cases hr
    exact h
  | cons k hs ih =>
    have hload (hr : (match r.dirEntry k with
        | none => .error cAbsent
        | some d => match t.load core r.part r.slot k d with
          | (_, .noBay) => .error cNoBay
          | (v, _) => v.bringOverlays r core hs : Except (BitVec 16) State) = .ok u) : s.Keeps u := by
      split at hr
      · cases hr
      · split at hr
        · cases hr
        next hl => exact ih (h.load hl) hr
    rw [State.bringOverlays] at hr
    split at hr
    exacts [hload hr, hload hr, ih h hr]

theorem State.Keeps.comeBack (h : s.Keeps t) {r : Route} {k : Column} {cv oldCore : Nat} : s.Keeps (t.comeBack r k cv oldCore) := by
  dsimp only [State.comeBack]
  split
  · exact h
  · split
    · exact h
    · split
      · exact h.report.kill
      next hr2 =>
        split
        exacts [h.bringOverlays hr2, (h.bringOverlays hr2).onConvoy]

theorem State.Keeps.placeBack (h : s.Keeps t) {r : Route} {k : Column} {f : Nat} {quads banks : List Nat} :
    s.Keeps (t.placeBack r k f quads banks) := by
  dsimp only [State.placeBack]
  split
  · exact (h.moveTiles.takeQuads.putBack.ringBytes rfl).takeRoom
  · exact (h.takeQuads.putBack.ringBytes rfl).takeRoom

theorem State.Keeps.resume (h : s.Keeps t) {r : Route} {k : Column} {f : Nat} {was : List Nat} : s.Keeps (t.resume r k f was) := by
  dsimp only [State.resume]
  exact (((h.readBanks.readTiles.onColumn.ringBytes rfl).foldl (fun ht _ => ht.comeBack)).settle).notice

theorem execResumption_runs (h : s.Keeps t) {col core : Nat} {quads : List Nat} : s.Runs (execResumption col core quads t) := by
  dsimp only [execResumption]
  split
  · exact h.runs
  · split
    · split
      · exact h.runs
      · split
        · exact h.runs
        · split
          exacts [h.placeBack.runs, h.runs]
    · split
      · exact h.runs
      · split
        next hr => exact (State.Keeps.resume (h.supply.1 _ hr)).runs
        next hr => exact (State.Keeps.saveFails (h.supply.2 _ hr)).runs
    · exact h.runs

theorem execDrainDeadline_runs (h : s.Keeps t) {part prog : Nat} : s.Runs (execDrainDeadline part prog t) :=
  (h.foldl (fun ht _ => ht.kill)).runs

/-! ### Reports -/

theorem State.Keeps.makeReport (h : s.Keeps t) {p : Partition} {r : List Byte × State} (hr : t.makeReport p = r) : s.Keeps r.2 := by
  subst hr
  dsimp only [State.makeReport]
  exact h.set

theorem State.Keeps.startChain (h : s.Keeps t) {part : Nat} : s.Keeps (t.startChain part) := by
  dsimp only [State.startChain]
  split
  exacts [h, h.set]

theorem State.Keeps.endChain (h : s.Keeps t) {part : Nat} : s.Keeps (t.endChain part) := by
  dsimp only [State.endChain]
  exact h.set

/-! ### Ends of waits -/

theorem State.Keeps.resumeWith {x : Ctx} {e : Effect} (he : Effect.Keeps s e) : s.Keeps (x.resumeWith e) := by
  cases e with
  | next v => exact State.Keeps.moveGroup he
  | jump v taken => exact State.Keeps.settle (State.Keeps.moveGroup he)
  | last v => exact State.Keeps.moveGroup he
  | stall v => exact he
  | wait v kind deadline => exact State.Keeps.onConvoy he
  | fault v F b => exact State.Keeps.signal he

theorem State.Keeps.resumeNext (h : s.Keeps t) {x : Ctx} : s.Keeps (x.resumeWith (.next t)) := State.Keeps.resumeWith (e := .next t) h

theorem State.Keeps.waitReturns (h : s.Keeps t) {x : Ctx} {dst : Option (BitVec 3)} {b : Bool} : s.Keeps (x.waitReturns t dst b) :=
  h.onConvoy.checkEnd

theorem State.Keeps.awaitOverlays (h : s.Keeps t) {x : Ctx} {handles : List Nat} {err : Option (BitVec 16)} :
    s.Keeps (x.awaitOverlays t handles err) := by
  dsimp only [Ctx.awaitOverlays]
  split
  · exact h.report.kill
  · split
    · exact h.onConvoy.settle.notice
    · split
      · exact h
      · split
        · exact h.report.kill
        · split
          · exact h.report.kill
          next hr4 => exact h.load hr4

theorem execConvoyWake_runs (h : s.Keeps t) {col cv : Nat} : s.Runs (execConvoyWake col cv t) := by
  dsimp only [execConvoyWake]
  split
  · exact h.runs
  next x w _ =>
    have hp : s.Keeps (t.put x x.v) := h.put
    split
    · split
      exacts [h.waitReturns.runs, h.runs]
    · split
      exacts [h.waitReturns.runs, h.runs]
    · split
      exacts [h.runs, (State.Keeps.resumeWith hp.qrdTake).runs]
    · split
      exacts [(State.Keeps.resumeWith hp.fail).runs, (State.Keeps.resumeWith hp.fail).runs, (State.Keeps.resumeWith hp.callInto).runs]
    · exact h.awaitOverlays.runs
    · split
      · exact h.report.kill.runs
      · split
        exacts [h.runs, hp.startTrap.runs]
    · split
      exacts [hp.resumeNext.runs, h.runs]
    · split
      · exact (State.Keeps.resumeWith hp.fail).runs
      · split
        exacts [hp.appendAll.resumeNext.runs, h.runs]
    · split
      · exact h.runs
      · split
        next hs =>
          have hu := hp.sign hs
          split
          exacts [(State.Keeps.resumeNext hu).runs, (State.Keeps.resumeNext (State.Keeps.onConvoy hu)).runs]
        · exact (State.Keeps.resumeWith hp.fail).runs
        · exact h.runs
    · exact h.runs
    · exact h.runs
    · exact h.runs

theorem execWaitBoundExpiry_runs (h : s.Keeps t) {col cv : Nat} : s.Runs (execWaitBoundExpiry col cv t) := by
  dsimp only [execWaitBoundExpiry]
  split
  · exact h.runs
  · split
    · exact h.runs
    · split
      exacts [h.setBarrier.waitReturns.runs, h.waitReturns.runs, h.runs]

theorem execNapExpiry_runs (h : s.Keeps t) {col cv : Nat} : s.Runs (execNapExpiry col cv t) := by
  dsimp only [execNapExpiry]
  split
  · exact h.runs
  · split
    exacts [h.put.resumeNext.runs, h.runs]

theorem State.Keeps.dropCall (h : s.Keeps t) {part col cv : Nat} : s.Keeps (t.dropCall part col cv) := by
  dsimp only [State.dropCall]
  exact h.set

theorem State.Keeps.answerCall (h : s.Keeps t) {part col cv status : Nat} : s.Keeps (t.answerCall part col cv status) :=
  h.dropCall.onConvoy

theorem State.Keeps.answerAway (h : s.Keeps t) {col cv : Nat} : s.Keeps (t.answerAway col cv) := by
  dsimp only [State.answerAway]
  split
  · split
    · split
      exacts [h.answerCall, h]
    · exact h
  · exact h

theorem execFwcallAnswer_runs (h : s.Keeps t) {col cv : Nat} : s.Runs (execFwcallAnswer col cv t) := by
  dsimp only [execFwcallAnswer]
  split
  · exact h.answerAway.runs
  · split
    · split
      exacts [h.runs, h.dropCall.put.resumeNext.runs]
    · exact h.runs

theorem execReplay_runs (h : s.Keeps t) {col cv : Nat} : s.Runs (execReplay col cv t) := by
  dsimp only [execReplay]
  split
  · exact h.runs
  · split
    · split
      exacts [h.runs, h.put.runs]
    · exact h.runs

theorem execChecksumFaultDelivery_runs (h : s.Keeps t) {col cv : Nat} : s.Runs (execChecksumFaultDelivery col cv t) := by
  dsimp only [execChecksumFaultDelivery]
  split
  · split
    · split
      exacts [h.runs, h.onConvoy.signal.runs]
    · exact h.runs
  · exact h.runs

/-! ### Firmware services -/

theorem State.Keeps.armTask (h : s.Keeps t) {part : Nat} {b : List Byte} {r : State × Nat} (hr : t.armTask part b = r) : s.Keeps r.1 := by
  subst hr
  dsimp only [State.armTask]
  split
  · exact h
  · split
    exacts [h, h.set]

theorem State.Keeps.signalTask (h : s.Keeps t) {part : Nat} {b : List Byte} {r : State × Nat} (hr : t.signalTask part b = r) :
    s.Keeps r.1 := by
  subst hr
  dsimp only [State.signalTask]
  split
  · exact h
  · split
    · exact h
    · split
      exacts [h, h.taskDecrement]

theorem State.Keeps.levelOf (h : s.Keeps t) {part acct : Nat} {r : Nat × State} (hr : t.levelOf part acct = some r) : s.Keeps r.2 := by
  dsimp only [State.levelOf] at hr
  split at hr
  · cases hr
    exact h
  · split at hr <;> cases hr
    dsimp only
    exact h.free rfl

theorem State.Keeps.dropDead (h : s.Keeps t) : s.Keeps t.dropDead := by
  dsimp only [State.dropDead]
  exact h.set

theorem State.Keeps.blockReady (h : s.Keeps t) {r : Route} {block : Option DWord} {off n : Nat} {perm : Perm}
    (hr : t.blockReady r block off n perm = some u) : s.Keeps u := by
  obtain ⟨b, -, hr⟩ := Option.bind_eq_some_iff.mp hr
  split at hr <;> cases hr
  next hs => exact h.supply.1 _ hs

theorem State.Keeps.readBlock (h : s.Keeps t) {r : Route} {block : Option DWord} {n : Nat} {q : List Byte × State}
    (hr : t.readBlock r block n = some q) : s.Keeps q.2 := by
  obtain ⟨v, hv, rfl⟩ := Option.map_eq_some_iff.mp hr
  exact h.blockReady hv

theorem State.Keeps.serveCall (h : s.Keeps t) {part svc n : Nat} {run : State → List Byte → State × Nat}
    (hrun : ∀ {t bs}, s.Keeps t → s.Keeps (run t bs).1) : s.Keeps (t.serveCall part svc n run) := by
  dsimp only [State.serveCall]
  split
  · exact h.dropDead
  · split
    · exact h.dropDead.answerCall
    next hb => exact (hrun (h.dropDead.readBlock hb)).answerCall

theorem execTaskArm_runs (h : s.Keeps t) {part : Nat} : s.Runs (execTaskArm part t) := (h.serveCall fun ht => ht.armTask rfl).runs

theorem execTaskSignal_runs (h : s.Keeps t) {part : Nat} :
    s.Runs (execTaskSignal part t) := (h.serveCall fun ht => ht.signalTask rfl).runs

theorem State.Keeps.readAcct (h : s.Keeps t) {part : Nat} {r : Route} {block : Option DWord} {b : List Byte} {q : State × Nat}
    (hr : t.readAcct part r block b = q) : s.Keeps q.1 := by
  subst hr
  dsimp only [State.readAcct]
  split
  · exact h
  · split
    · exact h
    next hl =>
      split
      · exact h
      next hb =>
        dsimp only
        exact (State.Keeps.blockReady (h.levelOf hl) hb).ringBytes rfl

theorem execAcctRead_runs (h : s.Keeps t) {part : Nat} : s.Runs (execAcctRead part t) := by
  dsimp only [execAcctRead]
  split
  · exact h.dropDead.runs
  · split
    · exact h.dropDead.answerCall.runs
    next hr1 =>
      split
      · exact h.dropDead.answerCall.runs
      next hr2 => exact (((h.dropDead.readBlock hr1).readAcct hr2).answerCall).runs

theorem State.Keeps.setBox (h : s.Keeps t) {b : Mailbox} : s.Keeps (t.setBox b) := by
  dsimp only [State.setBox]
  exact h.set

theorem State.Keeps.respond (h : s.Keeps t) {fn status : Nat} {payload : List Byte} : s.Keeps (t.respond fn status payload) := by
  dsimp only [State.respond]
  exact h.setBox.sendMsix

theorem State.Keeps.serveBox (h : s.Keeps t) {fn code n : Nat} {run : State → List Byte → State}
    (hrun : ∀ bs, s.Keeps (run t bs)) : s.Keeps (t.serveBox fn code n run) := by
  dsimp only [State.serveBox]
  split
  · exact h
  · split
    · exact h
    · split
      exacts [h.respond, hrun _]

theorem State.Keeps.needsRoot (h : s.Keeps t) {run : State → State} (hrun : s.Keeps (run t)) : s.Keeps (t.needsRoot run) := by
  dsimp only [State.needsRoot]
  split
  exacts [h.respond, hrun]

theorem execMailboxTaskArm_runs (h : s.Keeps t) {part : Nat} : s.Runs (execMailboxTaskArm part t) :=
  (h.serveBox fun _ => (h.armTask rfl).respond).runs

theorem execMailboxTaskSignal_runs (h : s.Keeps t) {part : Nat} : s.Runs (execMailboxTaskSignal part t) :=
  (h.serveBox fun _ => (h.signalTask rfl).respond).runs

theorem execAllowSet_runs (h : s.Keeps t) {part : Nat} : s.Runs (execAllowSet part t) :=
  (h.serveBox fun _ => (h.set : s.Keeps { t with fw := _ }).respond).runs

theorem execMailboxUnknownCode_runs (h : s.Keeps t) {fn : Nat} : s.Runs (execMailboxUnknownCode fn t) := by
  dsimp only [execMailboxUnknownCode]
  split
  · exact h.runs
  · split
    exacts [h.runs, h.respond.runs]

theorem State.Keeps.hostWrite (h : s.Keeps t) {addr : Nat} {bs : List Byte} : s.Keeps (t.hostWrite addr bs) := h.poke rfl

theorem execReport_runs (h : s.Keeps t) {fn : Nat} : s.Runs (execReport fn t) := by
  refine (h.serveBox fun b => ?_).runs
  extract_lets part run
  have hrun : s.Keeps (run t) := by
    dsimp only [run]
    split
    · exact h.respond
    · split_ifs
      exacts [h.respond, h, (h.makeReport rfl).hostWrite.respond]
  split
  exacts [h.needsRoot hrun, hrun]

theorem execBboxRead_runs (h : s.Keeps t) : s.Runs (execBboxRead t) :=
  (h.serveBox fun _ => h.needsRoot h.hostWrite.respond).runs

theorem State.Keeps.extend (h : s.Keeps t) {n : Nat} {d : List Byte} : s.Keeps (t.extend n d) := by
  dsimp only [State.extend]
  exact h.set

theorem State.Keeps.measureConfig (h : s.Keeps t) : s.Keeps t.measureConfig := h.extend

theorem execSliceSet_runs (h : s.Keeps t) : s.Runs (execSliceSet t) := by
  refine (h.serveBox fun b => h.needsRoot ?_).runs
  dsimp only
  split
  exacts [h.respond, (h.set : s.Keeps { t with fw := _ }).measureConfig.respond]

theorem execPubkeySet_runs (h : s.Keeps t) : s.Runs (execPubkeySet t) := by
  refine (h.serveBox fun b => h.needsRoot ?_).runs
  dsimp only
  split
  exacts [h.respond, (h.set : s.Keeps { t with fw := _ }).measureConfig.respond]

/-! ### The root core as a responder -/

theorem State.Keeps.spdmAccept (h : s.Keeps t) {req : List Byte} : s.Keeps (t.spdmAccept req) := by
  dsimp only [State.spdmAccept]
  split
  exacts [h.set, (h.free rfl).set]

theorem State.Keeps.spdmRefuse (h : s.Keeps t) : s.Keeps t.spdmRefuse := by
  dsimp only [State.spdmRefuse]
  exact h.set.fnFault

theorem State.Keeps.spdmRequest (h : s.Keeps t) {code : Nat} {req : List Byte} : s.Keeps (t.spdmRequest code req) := by
  dsimp only [State.spdmRequest]
  split
  · exact h
  · split
    exacts [h.spdmAccept, h.spdmRefuse]

theorem execGetVersion_runs (h : s.Keeps t) {req : List Byte} : s.Runs (execGetVersion req t) := h.spdmRequest.runs

theorem execGetCapabilities_runs (h : s.Keeps t) {req : List Byte} : s.Runs (execGetCapabilities req t) := h.spdmRequest.runs

theorem execNegotiateAlgorithms_runs (h : s.Keeps t) {req : List Byte} : s.Runs (execNegotiateAlgorithms req t) :=
  h.spdmRequest.runs

theorem execGetCertificate_runs (h : s.Keeps t) {req : List Byte} : s.Runs (execGetCertificate req t) := h.spdmRequest.runs

theorem execChallenge_runs (h : s.Keeps t) {req : List Byte} : s.Runs (execChallenge req t) := h.spdmRequest.runs

theorem execGetMeasurements_runs (h : s.Keeps t) {req : List Byte} : s.Runs (execGetMeasurements req t) := h.spdmRequest.runs

theorem execSpdmUnsupportedRequest_runs (h : s.Keeps t) {req : List Byte} : s.Runs (execSpdmUnsupportedRequest req t) := by
  dsimp only [execSpdmUnsupportedRequest]
  split
  exacts [h.runs, h.set.runs]

theorem execAttestSequence_runs (h : s.Keeps t) {req : List Byte} : s.Runs (execAttestSequence req t) := by
  dsimp only [execAttestSequence]
  split
  exacts [h.runs, h.spdmRefuse.runs]

/-! ### Boot and resets -/

theorem execFwWrite_runs (h : s.Keeps t) : s.Runs (execFwWrite t) := by
  refine (h.serveBox fun b => ?_).runs
  dsimp only
  split
  · exact h.respond
  · split
    exacts [h.respond, (h.devWrite rfl).respond]

theorem State.Keeps.measureRom (h : s.Keeps t) : s.Keeps t.measureRom := by
  dsimp only [State.measureRom]
  split
  exacts [h, h.extend]

theorem State.Keeps.startRoot (h : s.Keeps t) : s.Keeps t.startRoot := by
  unfold State.startRoot
  extract_lets _ u _ fw
  have hu : s.Keeps u := h.extend.extend
  exact (hu.set : s.Keeps { u with fw }).blackBox.measureConfig

theorem State.Keeps.boot (h : s.Keeps t) : s.Keeps t.boot := by
  dsimp only [State.boot]
  split
  exacts [h.measureRom.startRoot, h.measureRom.set]

theorem execFwStart_runs (h : s.Keeps t) : s.Runs (execFwStart t) := by
  refine (h.serveBox fun b => ?_).runs
  split
  exacts [h.respond, h.boot.respond]

theorem execChannelTraining_runs (h : s.Keeps t) {channel : Nat} {ok : Bool} : s.Runs (execChannelTraining channel ok t) := by
  dsimp only [execChannelTraining]
  split
  exacts [h.runs, h.set.runs]

theorem execFullServiceSwitch_runs (h : s.Keeps t) : s.Runs (execFullServiceSwitch t) := by
  dsimp only [execFullServiceSwitch]
  split
  exacts [h.runs, ((h.set.foldl (fun ht _ => ht.deviceMilestone)).blackBox).runs]

theorem State.Keeps.sealAll (h : s.Keeps t) : s.Keeps t.sealAll := by
  dsimp only [State.sealAll]
  exact h.foldl (fun ht _ => ht.setKey)

/-- R367: the memories that a warm reset keeps are in their form as they were. -/
theorem keptStore_wf (h : t.store.wf = true) : t.keptStore.wf = true := by
  rw [store_wf_iff] at h ⊢
  obtain ⟨hdev, hhost, hpeer, -, -, hpf, hfwmem, -, -⟩ := h
  exact ⟨canonical_filter _ hdev, hhost, hpeer, rfl, rfl, canonical_filter _ hpf, hfwmem, rfl, rfl⟩

theorem execWarmReset_runs (h : s.Keeps t) {cause : Nat} : s.Runs (execWarmReset cause t) := by
  unfold execWarmReset
  extract_lets _ _ _ u v
  have hu : s.Keeps u := h.setStore (u := u) fun hm => keptStore_wf ((State.Keeps.refl t).sealAll.wf hm)
  exact (hu.blackBox : s.Keeps v).boot.runs

/-! ### Loads, stores and atomics at issue -/

theorem State.Keeps.startLoad (h : s.Keeps t) {x : Ctx} {space : Space} {hint : Hint} {conv : LoadConv} {a : Operand}
    {lanes : List Nat} {ws : List Want} : Effect.Keeps s (x.startLoad t space hint conv a lanes ws) := by
  dsimp only [Ctx.startLoad]
  split
  · exact h
  next hr =>
    split
    · exact h.resolve hr
    · split
      · split
        · exact h
        next hr3 => exact ((((h.resolve hr).put).addOp).push hr3).put
      · exact ((h.resolve hr).put).addOp

theorem State.Keeps.loadUniform (h : s.Keeps t) {x : Ctx} : s.Keeps (x.loadUniform t) := h.tileEnds

theorem State.Keeps.feed (h : s.Keeps t) {f : MForm} {ldx : Bool} {x : Ctx} {ps : List Piece} {fed : List Nat} :
    s.Keeps (Ctx.boundsLoad.feed f ldx t x ps fed) := by
  dsimp only [Ctx.boundsLoad.feed]
  split
  exacts [h, h.addOp.onConvoy]

theorem State.Keeps.boundsLoad (h : s.Keeps t) {x : Ctx} {f : MForm} {ldx : Bool} {k : Nat} {kind : ResKind} {known : Option IVal} :
    Effect.Keeps s (x.boundsLoad t f ldx k kind known) := by
  unfold Ctx.boundsLoad
  extract_lets
  split
  · exact h
  next u hr =>
    have hu := h.resolve hr
    extract_lets w
    have hw : s.Keeps w := by
      dsimp only [w]
      split
      exacts [hu, hu.logRegs.put]
    split
    · split
      exacts [hu.loadUniform, hu.feed.settleUnd]
    · exact hw.feed

theorem execLd_tries {f : MForm} : s.Tries (execLd f s) := by
  dsimp only [execLd]
  refine issue_tries fun y t h => ?_
  split
  exacts [h.boundsLoad, h.startLoad]

theorem execLds_tries {f : MForm} : s.Tries (execLds f s) := by
  dsimp only [execLds]
  refine issue_tries fun y t h => ?_
  split
  exacts [h.boundsLoad, h.startLoad]

theorem execLdx_tries {f : MForm} : s.Tries (execLdx f s) := by
  dsimp only [execLdx]
  refine issue_tries fun y t h => ?_
  split
  exacts [h.boundsLoad, h.startLoad]

theorem execLdb_tries {f : MForm} : s.Tries (execLdb f s) := by
  dsimp only [execLdb]
  refine issue_tries fun y t h => ?_
  split
  · exact h.fail
  · split
    exacts [h.boundsLoad, h.startLoad]

theorem State.Keeps.fetchLine (h : s.Keeps t) {col quad line lease : Nat} {hint : Hint} :
    s.Keeps (t.fetchLine col quad line lease hint) := by
  dsimp only [State.fetchLine]
  split
  · exact h
  next hr =>
    split
    exacts [h.grant hr, (h.grant hr).set]

theorem execPf_tries {f : MForm} : s.Tries (execPf f s) := by
  dsimp only [execPf]
  refine issue_tries fun y t h => ?_
  split
  · exact h
  · refine h.foldl (fun ht _ => ?_)
    split
    · exact ht
    · split
      next hr2 =>
        split
        exacts [ht.translate hr2, (((ht.translate hr2).checkBytes).fetchLine).onConvoy]
      · exact ht

theorem State.Keeps.startStore (h : s.Keeps t) {x : Ctx} {f : MForm} {val : Nat → Nat} : Effect.Keeps s (x.startStore t f val) := by
  dsimp only [Ctx.startStore]
  split
  · exact h
  next hr =>
    split
    exacts [h.resolve hr, ((h.resolve hr).addOp).put]

theorem execSt_tries {f : MForm} : s.Tries (execSt f s) := issue_tries fun _ _ h => h.startStore

theorem execSts_tries {f : MForm} : s.Tries (execSts f s) := issue_tries fun _ _ h => h.startStore

theorem execStx_tries {f : MForm} : s.Tries (execStx f s) := issue_tries fun _ _ h => h.startStore

theorem State.Keeps.bind (h : s.Keeps t) {x : Ctx} {f : MForm} : Effect.Keeps s (x.bind t f) := by
  dsimp only [Ctx.bind]
  split
  · split
    exacts [h, h.put]
  · exact h

theorem execLdq_tries {f : MForm} : s.Tries (execLdq f s) := issue_tries fun _ _ h => h.bind

theorem execStq_tries {f : MForm} : s.Tries (execStq f s) := by
  dsimp only [execStq]
  refine issue_tries fun y t h => ?_
  split
  exacts [h, h.bind]

theorem State.Keeps.startAtomic (h : s.Keeps t) {x : Ctx} {f : MForm} {k : Nat} : Effect.Keeps s (x.startAtomic t f k) := by
  unfold Ctx.startAtomic
  split
  · split
    exacts [h.set, h]
  · extract_lets n
    split
    · exact h
    · split
      · exact h
      next u hr =>
        have hu := h.resolve hr
        extract_lets w
        have hw : s.Keeps w := hu.addOp.put
        split
        · exact hu
        · split
          exacts [hw.set, hw]

theorem execAtadd_tries {f : MForm} : s.Tries (execAtadd f s) := issue_tries fun _ _ h => h.startAtomic

theorem execAtaddf_tries {f : MForm} : s.Tries (execAtaddf f s) := issue_tries fun _ _ h => h.startAtomic

theorem execAtmin_tries {f : MForm} : s.Tries (execAtmin f s) := issue_tries fun _ _ h => h.startAtomic

theorem execAtmax_tries {f : MForm} : s.Tries (execAtmax f s) := issue_tries fun _ _ h => h.startAtomic

theorem execAtand_tries {f : MForm} : s.Tries (execAtand f s) := issue_tries fun _ _ h => h.startAtomic

theorem execAtor_tries {f : MForm} : s.Tries (execAtor f s) := issue_tries fun _ _ h => h.startAtomic

theorem execAtxor_tries {f : MForm} : s.Tries (execAtxor f s) := issue_tries fun _ _ h => h.startAtomic

theorem execAtxch_tries {f : MForm} : s.Tries (execAtxch f s) := issue_tries fun _ _ h => h.startAtomic

theorem execAtcas_tries {f : MForm} : s.Tries (execAtcas f s) := issue_tries fun _ _ h => h.startAtomic

theorem execAtinc_tries {f : MForm} : s.Tries (execAtinc f s) := issue_tries fun _ _ h => h.startAtomic

/-! ### Pending operations performed -/

theorem State.Keeps.onOp (h : s.Keeps t) {id : Nat} {f : Op → Op} : s.Keeps (t.onOp id f) := by
  dsimp only [State.onOp]
  exact h.set

theorem State.Keeps.dropOp (h : s.Keeps t) {id : Nat} : s.Keeps (t.dropOp id) := by
  dsimp only [State.dropOp]
  exact h.set

theorem State.Keeps.onIssuer (h : s.Keeps t) {o : Op} {f : Convoy → Convoy} : s.Keeps (t.onIssuer o f) := h.onConvoy

theorem State.Keeps.takeTime (h : s.Keeps t) {o : Op} {t' : Nat} : s.Keeps (t.takeTime o t') := h.onIssuer

theorem State.Keeps.readPiece (h : s.Keeps t) {o : Op} {p : Piece} {evicted again : Bool} {r : List Byte × Nat × State}
    (hr : t.readPiece o p evicted again = r) : s.Keeps r.2.2 := by
  subst hr
  dsimp only [State.readPiece]
  split
  · split
    · exact h
    · dsimp only
      split
      exacts [h, h.fetchLine.onIssuer]
  · split
    exacts [h, h.onIssuer]
  · exact h

theorem State.Keeps.checkPieces (h : s.Keeps t) {o : Op} {ps : List Piece} {evicted : Bool} : s.Keeps (t.checkPieces o ps evicted) :=
  h.foldl (fun ht _ => ht.checkBytes)

theorem State.Keeps.meterPieces (h : s.Keeps t) {o : Op} {ps : List Piece} : s.Keeps (t.meterPieces o ps) :=
  h.foldl (fun ht _ => ht.meterLoc)

theorem State.Keeps.ackNow (h : s.Keeps t) {o : Op} {l : Loc} : s.Keeps (t.ackNow o l) := by
  dsimp only [State.ackNow]
  split
  exacts [h.onIssuer, h]

theorem State.Keeps.readPieces (h : s.Keeps t) {id : Nat} {evicted : Bool} {ps : List Piece} : s.Keeps (t.readPieces id evicted ps) := by
  dsimp only [State.readPieces]
  refine h.foldl (fun ht _ => ?_)
  split
  exacts [ht, (((ht.readPiece rfl).onOp).takeTime).ackNow]

theorem State.Keeps.writeLanes (h : s.Keeps t) {o : Op} {dst : Operand} {k : Nat} {bounds : Bool} {f : Nat → Lane → Lane} :
    s.Keeps (t.writeLanes o dst k bounds f) := by
  unfold State.writeLanes
  extract_lets _ u
  exact (h.logRegs.onIssuer : s.Keeps u).set

theorem State.Keeps.finishLoad (h : s.Keeps t) {o : Op} {conv : LoadConv} {dst : Operand} : s.Keeps (t.finishLoad o conv dst) := by
  dsimp only [State.finishLoad]
  split
  · split
    · exact h.writeLanes
    · split
      · exact h.onIssuer
      · split
        exacts [h.tileEnds.pruneHolds.checkEnd, h]
    · exact h
  · split
    exacts [h.writeLanes, h.onIssuer, h.set, h]

theorem State.Keeps.acked (h : s.Keeps t) {links : List Nat} : s.Keeps (t.acked links) := by
  dsimp only [State.acked]
  split
  exacts [h, h.set]

theorem execLoadReturn_runs (h : s.Keeps t) {op grp : Nat} {evicted : Bool} : s.Runs (execLoadReturn op grp evicted t) := by
  dsimp only [execLoadReturn]
  split
  · exact h.runs
  · split
    · split
      exacts [h.runs, h.dropOp.onIssuer.runs]
    · split
      · exact h.runs
      · split
        · exact h.checkPieces.meterPieces.acked.dropOp.onIssuer.consume.runs
        · split
          · split
            · exact h.checkPieces.meterPieces.acked.readPieces.onOp.dropOp.finishLoad.onIssuer.settle.runs
            · exact h.checkPieces.meterPieces.acked.readPieces.onOp.runs
          · exact h.checkPieces.meterPieces.acked.readPieces.onOp.runs
    · exact h.runs

theorem execCodebookReady_runs (h : s.Keeps t) {op : Nat} : s.Runs (execCodebookReady op t) := by
  dsimp only [execCodebookReady]
  split
  · exact h.runs
  · split
    · split
      · exact h.runs
      · split
        · exact h.checkPieces.meterPieces.acked.dropOp.onIssuer.consume.runs
        · exact h.checkPieces.meterPieces.acked.readPieces.dropOp.onIssuer.runs
    · exact h.runs

theorem State.Keeps.arrived (h : s.Keeps t) {o : Op} {l : Loc} : s.Keeps (t.arrived o l) := by
  dsimp only [State.arrived]
  split
  exacts [h, h.forbidRollback]

theorem State.Keeps.storeBytes (h : s.Keeps t) {o : Op} {p : Piece} {bs : List Byte} : s.Keeps (t.storeBytes o p bs) := by
  dsimp only [State.storeBytes]
  split
  exacts [(((h.logSpad.poke rfl).onOp).arrived).notice, ((h.poke rfl).onOp).arrived]

theorem State.Keeps.postHost (h : s.Keeps t) {o : Op} {ps : List Piece} : s.Keeps (t.postHost o ps) := by
  dsimp only [State.postHost]
  exact h.set.onOp.forbidRollback

theorem State.Keeps.mergeWrites (h : s.Keeps t) {o : Op} {ps : List Piece} : s.Keeps (t.mergeWrites o ps) := by
  dsimp only [State.mergeWrites]
  split
  exacts [h, h.foldl (fun ht _ => ht.foldl (fun ht1 _ => ht1.poke rfl))]

theorem State.Keeps.storePieces (h : s.Keeps t) {o : Op} {ps : List Piece} : s.Keeps (t.storePieces o ps) := by
  dsimp only [State.storePieces]
  split
  · exact (h.checkPieces.meterPieces.foldl (fun ht _ => ht.storeBytes)).mergeWrites
  · exact ((h.checkPieces.meterPieces.foldl (fun ht _ => ht.storeBytes)).mergeWrites).postHost

theorem State.Keeps.atomicPiece (h : s.Keeps t) {o : Op} {k : Nat} {ty : Fmt} {dst : Option Operand} {p : Piece} :
    s.Keeps (t.atomicPiece o k ty dst p) := by
  dsimp only [State.atomicPiece]
  split
  · exact h.checkPieces.meterPieces.storeBytes.onOp.writeLanes
  · exact h.checkPieces.meterPieces.storeBytes.onOp.onIssuer
  · exact h.checkPieces.meterPieces.storeBytes.onOp

theorem State.Keeps.mergePieces (h : s.Keeps t) {o : Op} {ps : List Piece} : s.Keeps (t.mergePieces o ps) := by
  dsimp only [State.mergePieces]
  split
  exacts [h, h.storeBytes.set]

theorem State.Keeps.donePieces (h : s.Keeps t) {id : Nat} {ps : List Piece} : s.Keeps (t.donePieces id ps) := h.onOp

theorem State.Keeps.performPosted (h : s.Keeps t) {o : Op} : s.Keeps (t.performPosted o) := (h.foldl (fun ht _ => ht.poke rfl)).dropOp

theorem State.Keeps.flushPosted (h : s.Keeps t) : s.Keeps t.flushPosted := h.foldl (fun ht _ => ht.performPosted)

theorem State.Keeps.closeWaited (h : s.Keeps t) {id : Nat} : s.Keeps (t.closeWaited id) := by
  dsimp only [State.closeWaited]
  split
  · split
    exacts [h.onIssuer, h]
  · exact h

theorem execStoreArrival_runs (h : s.Keeps t) {op grp : Nat} : s.Runs (execStoreArrival op grp t) := by
  dsimp only [execStoreArrival]
  split
  · exact h.runs
  · split
    · split
      exacts [h.storePieces.donePieces.runs, h.runs]
    · split
      · split
        · split
          · exact h.runs
          · split
            exacts [h.checkPieces.dropOp.onIssuer.consume.runs, h.atomicPiece.donePieces.closeWaited.runs]
        · split
          · exact h.runs
          · split
            exacts [h.checkPieces.dropOp.onIssuer.consume.runs, h.atomicPiece.donePieces.closeWaited.runs]
      · exact h.runs
    · split
      exacts [h.mergePieces.donePieces.runs, h.runs]
    · split
      exacts [h.performPosted.runs, h.runs]
    · exact h.runs

theorem execStoreAck_runs (h : s.Keeps t) {op : Nat} : s.Runs (execStoreAck op t) := by
  dsimp only [execStoreAck]
  split
  · exact h.runs
  · split
    · split
      exacts [h.acked.dropOp.onIssuer.runs, h.runs]
    · split
      exacts [h.acked.dropOp.onIssuer.runs, h.runs]
    · split
      exacts [h.acked.dropOp.onIssuer.runs, h.runs]
    · split
      exacts [h.acked.dropOp.onIssuer.runs, h.runs]
    · split
      exacts [h.acked.dropOp.onIssuer.runs, h.runs]

theorem execPushPerform_runs (h : s.Keeps t) {op grp : Nat} : s.Runs (execPushPerform op grp t) := by
  dsimp only [execPushPerform]
  split
  · exact h.runs
  · split
    · split
      exacts [h.storePieces.donePieces.runs, h.runs]
    · exact h.runs

theorem execPlstMergeComplete_runs (h : s.Keeps t) {op : Nat} : s.Runs (execPlstMergeComplete op t) := by
  dsimp only [execPlstMergeComplete]
  split
  · exact h.runs
  · split
    exacts [h.dropOp.onIssuer.runs, h.runs]

theorem State.Keeps.failAtomic (h : s.Keeps t) {o : Op} {p : Piece} {code : BitVec 16} : s.Keeps (t.failAtomic o p code) := by
  dsimp only [State.failAtomic]
  split
  exacts [h, h.set.dropOp.onIssuer.signal]

theorem execHostAtomicCompletion_runs (h : s.Keeps t) {op : Nat} {reply : HostReply} : s.Runs (execHostAtomicCompletion op reply t) := by
  dsimp only [execHostAtomicCompletion]
  split
  · exact h.runs
  · split
    · split
      · exact h.runs
      · split
        exacts [h.atomicPiece.onOp.donePieces.closeWaited.runs, h.failAtomic.runs, h.failAtomic.runs]
    · exact h.runs

theorem execCompletionTimeout_runs (h : s.Keeps t) {op : Nat} : s.Runs (execCompletionTimeout op t) := by
  dsimp only [execCompletionTimeout]
  split
  · exact h.runs
  · split
    · split
      exacts [h.failAtomic.runs, h.runs]
    · exact h.runs

theorem State.Keeps.fetchElement (h : s.Keeps t) {x : Ctx} {p : Port} {e : Nat} {r : Fetching} (hr : t.fetchElement x p e = some r) :
    s.Keeps r.state := by
  unfold State.fetchElement at hr
  split at hr
  · cases hr
    exact h
  next hres =>
    split at hr
    · cases hr
    · extract_lets v _ _ w at hr
      have hv : s.Keeps v := ((h.resolve hres).foldl fun ht _ => ht.checkBytes.meterLoc).acked
      have hw : s.Keeps w := hv.foldl fun ht _ => by
        split
        exacts [ht.tryGrant, ht]
      split at hr <;> cases hr
      exacts [hv, hw]

theorem execReadAheadFetch_runs (h : s.Keeps t) {col cv port : Nat} : s.Runs (execReadAheadFetch col cv port t) := by
  dsimp only [Machine.execReadAheadFetch]
  split
  · exact h.runs
  · split
    · exact h.runs
    · split
      · exact h.runs
      · split
        · exact h.runs
        next hf => exact (h.fetchElement hf).onConvoy.runs

/-! ### The Surveyor -/

theorem State.Keeps.failed (h : s.Keeps t) {r : Rec} {code : Nat} {v : Version} : s.Keeps (t.failed r code v) := by
  dsimp only [State.failed]
  split
  exacts [h.outcome.recordFault, h.outcome]

theorem State.Keeps.converged (h : s.Keeps t) {r : Rec} {v : Version} {killed : Nat} : s.Keeps (t.converged r v killed) := h.outcome

theorem State.Keeps.deleted (h : s.Keeps t) {r : Rec} {v : Version} {discard : Nat} : s.Keeps (t.deleted r v discard) := h.outcome

theorem State.Keeps.supersede (h : s.Keeps t) {fn slot : Nat} {vs : List Version} : s.Keeps (t.supersede fn slot vs) :=
  h.foldl (fun ht _ => ht.note)

theorem State.Keeps.giveBack (h : s.Keeps t) {r : Rec} : s.Keeps (t.giveBack r) := by
  dsimp only [State.giveBack]
  exact h.set

theorem State.Keeps.enter (h : s.Keeps t) {fn slot : Nat} {x : Version × Bool} : s.Keeps (t.enter fn slot x) := by
  dsimp only [State.enter]
  split
  · split
    exacts [h.supersede.failed.giveBack, h.supersede.failed.giveBack.putRec]
  · split
    exacts [h.supersede.requeue.converged, h.supersede.putRec]

theorem State.Keeps.stepEnd (h : s.Keeps t) {fn slot : Nat} : s.Keeps (t.stepEnd fn slot) := by
  dsimp only [State.stepEnd]
  split
  exacts [h.foldl (fun ht _ => ht.enter), h.putRec.foldl (fun ht _ => ht.enter)]

theorem State.Keeps.stopRoute (h : s.Keeps t) {part slot : Nat} : s.Keeps (t.stopRoute part slot) := by
  unfold State.stopRoute
  split
  · exact h
  · extract_lets u _ v
    have hu : s.Keeps u := by
      dsimp only [u]
      split
      exacts [h.reserveBatch, h]
    exact (hu.set : s.Keeps v).foldl fun ht _ => ht.endLaunch

theorem State.Keeps.acceptEffects (h : s.Keeps t) {r : Rec} {v : Version} {p : State × Rec} (hr : t.acceptEffects r v = p) :
    s.Keeps p.1 := by
  subst hr
  dsimp only [State.acceptEffects]
  split
  · split
    · exact h.set
    · split
      · exact h
      · dsimp only
        split
        exacts [h.requeue, h]
  · exact h.stopRoute
  · exact h

theorem State.Keeps.accept (h : s.Keeps t) {r : Rec} {p : Snapshot} : s.Keeps (t.accept r p) := by
  unfold State.accept
  extract_lets v bad e r
  have he : s.Keeps e.1 := by
    dsimp only [e]
    split
    exacts [h, h.acceptEffects rfl]
  split
  exacts [he.putRec, he.putRec.enter]

theorem State.Keeps.judge (h : s.Keeps t) {fn slot : Nat} : s.Keeps (t.judge fn slot) := by
  dsimp only [State.judge]
  split
  · exact h
  · split
    · split
      · exact h.accept
      · split
        exacts [h, h.recordFault.note]
    · split
      · exact h.accept
      · split
        exacts [h, h.recordFault.note]

theorem execSurveyorScan_runs (h : s.Keeps t) {fn slot : Nat} : s.Runs (execSurveyorScan fn slot t) := by
  dsimp only [execSurveyorScan]
  split
  exacts [h.judge.runs, h.runs]

/-! ### BAR0 and BAR2 -/

theorem State.Keeps.barStore (h : s.Keeps t) {pa : Nat} {b : Byte} : s.Keeps (t.barStore pa b) := by
  dsimp only [State.barStore]
  split
  · exact h
  · split
    exacts [h.putRaw, h.devWrite rfl]

theorem State.Keeps.scanAll (h : s.Keeps t) {fn : Nat} : s.Keeps (t.scanAll fn) := by
  dsimp only [State.scanAll]
  split
  exacts [h.foldl (fun ht _ => ht.judge), h]

theorem execDbell_runs (h : s.Keeps t) {fn : Nat} : s.Runs (execDbell fn t) := h.scanAll.runs

theorem State.Keeps.writeCarve (h : s.Keeps t) {value : DWord} : s.Keeps (t.writeCarve value) := by
  dsimp only [State.writeCarve]
  exact h.set

theorem execCarveOutWrite_runs (h : s.Keeps t) {value : DWord} : s.Runs (execCarveOutWrite value t) := h.writeCarve.runs

theorem State.Keeps.writeMailbox (h : s.Keeps t) {fn x : Nat} : s.Keeps (t.writeMailbox fn x) := by
  unfold State.writeMailbox
  extract_lets _ c u
  split
  exacts [h.setBox, (h.setBox : s.Keeps u).set]

theorem State.Keeps.writeReg1 (h : s.Keeps t) {fn off : Nat} {b : Byte} : s.Keeps (t.writeReg1 fn off b) := by
  dsimp only [State.writeReg1]
  split
  exacts [h.setBox, h.ramWrite rfl, h.barStore, h]

theorem execRegisterWrite_runs (h : s.Keeps t) {fn off : Nat} {data : List Byte} : s.Runs (execRegisterWrite fn off data t) := by
  dsimp only [execRegisterWrite]
  split
  · split
    exacts [h.runs, h.set.runs]
  · split
    · exact h.scanAll.runs
    · split
      exacts [h.writeMailbox.runs, h.runs]
    · exact (h.foldl (fun ht _ => ht.writeReg1)).runs

theorem State.Keeps.denyRead (h : s.Keeps t) {part slotOff : Nat} : s.Keeps (t.denyRead part slotOff) := by
  unfold State.denyRead
  split
  · exact h
  · extract_lets _ _ _ u
    have hu : s.Keeps u := h.ringWrite
    clear_value u
    split
    · exact h.devWriteNum
    · split
      exacts [hu, hu.set]

theorem State.Keeps.counterSlot (h : s.Keeps t) {off : Nat} {r : List Byte × State} (hr : t.counterSlot off = r) : s.Keeps r.2 := by
  subst hr
  dsimp only [State.counterSlot]
  split
  · exact h
  · split
    exacts [h, h.denyRead]

theorem State.Keeps.counterSlots (h : s.Keeps t) {slot n : Nat} {r : List Byte × State} (hr : t.counterSlots slot n = r) :
    s.Keeps r.2 := by
  subst hr
  induction n generalizing t slot with
  | zero => exact h
  | succ n ih => exact ih (h.counterSlot rfl)

theorem State.Keeps.counterBytes (h : s.Keeps t) {off len : Nat} {r : List Byte × State} (hr : t.counterBytes off len = r) :
    s.Keeps r.2 := by
  subst hr
  dsimp only [State.counterBytes]
  exact h.counterSlots rfl

theorem execCounterSlotRead_runs (h : s.Keeps t) {off len : Nat} : s.Runs (execCounterSlotRead off len t) := by
  dsimp only [execCounterSlotRead]
  split
  exacts [h.set.runs, ((h.counterBytes rfl).set).runs]

/-- Whatever the host is answered. -/
theorem State.Keeps.setReply (h : s.Keeps t) {bs : List Byte} : s.Keeps { t with reply := bs } := h.set

theorem State.Keeps.bar0Read (h : s.Keeps t) {fn off len : Nat} : s.Keeps (t.bar0Read fn off len) := by
  unfold State.bar0Read
  extract_lets u r v
  have hu : s.Keeps u := h.flushPosted
  have hv : s.Keeps v := hu.counterBytes rfl
  split
  exacts [hv.setReply, hu.setReply]

theorem State.Keeps.barFault (h : s.Keeps t) {part off access : Nat} : s.Keeps (t.barFault part off access) := h.faultEntry

theorem State.Keeps.barWrite (h : s.Keeps t) {p : Partition} {off : Nat} {bs : List Byte} : s.Keeps (t.barWrite p off bs) := by
  dsimp only [State.barWrite]
  refine h.foldl (fun ht _ => ?_)
  split
  exacts [ht.barStore, ht]

theorem execBar2Access_runs (h : s.Keeps t) {part off len : Nat} {write : Option (List Byte)} :
    s.Runs (execBar2Access part off len write t) := by
  unfold execBar2Access
  extract_lets u
  have hu : s.Keeps u := by
    dsimp only [u]
    split
    exacts [h, h.flushPosted]
  clear_value u
  split
  · split
    exacts [hu.runs, hu.set.runs]
  · split
    · extract_lets v
      have hv : s.Keeps v := hu.barWrite
      split
      exacts [hv.barFault.runs, hv.runs]
    · extract_lets v w
      have hv : s.Keeps v := by
        dsimp only [v]
        split
        exacts [hu.checkBytes, hu]
      have hw : s.Keeps w := hv.set
      split
      exacts [hw.barFault.runs, hw.runs]

theorem execHostAtomicopCompleter_runs (h : s.Keeps t) {fn bar off size x y : Nat} {kind : HostAtomicKind} :
    s.Runs (execHostAtomicopCompleter fn bar off size kind x y t) := by
  unfold execHostAtomicopCompleter
  extract_lets u
  have hu : s.Keeps u := h.flushPosted
  clear_value u
  split
  · split
    · exact hu.set.runs
    next p _ =>
      extract_lets v
      have hv : s.Keeps v := by
        dsimp only [v]
        split
        exacts [hu.checkBytes, hu]
      split
      exacts [(hv.set : s.Keeps { v with reply := _ }).barFault.runs, (hv.set : s.Keeps { v with reply := _ }).barWrite.runs]
  · split
    · refine (hu.setStore fun hm => ?_).runs
      exact wf_pf hm fun hp => wf_writeNum hp _ _ _
    · exact hu.set.runs

/-! ### Bounds instructions -/

theorem execBsum_tries {f : MForm} : s.Tries (execBsum f s) := by
  dsimp only [execBsum]
  refine issue_tries fun y t h => ?_
  split
  · exact h.settleUnd
  · split
    exacts [h.fail, h.put.settleUnd]

theorem State.Keeps.fillElements (h : s.Keeps t) {x : Ctx} {f : MForm} : Effect.Keeps s (x.fillElements t f) := by
  dsimp only [Ctx.fillElements]
  split
  · exact h
  next hr =>
    split
    exacts [h.resolve hr, ((h.resolve hr).addOp).put]

theorem State.Keeps.fillTiles (h : s.Keeps t) {x : Ctx} {f : MForm} : Effect.Keeps s (x.fillTiles t f) := by
  dsimp only [Ctx.fillTiles]
  split
  · exact h
  next hr => exact (((h.resolve hr).put).tileEnds).settleUnd

theorem execFill_tries {f : MForm} : s.Tries (execFill f s) := by
  dsimp only [execFill]
  refine issue_tries fun y t h => ?_
  split
  exacts [h.fillTiles, h.fillElements]

theorem execDefer_tries {f : BForm} : s.Tries (execDefer f s) := by
  dsimp only [execDefer]
  refine issue_tries fun y t h => ?_
  split
  exacts [h.tileEnds, h]

theorem execSplit_tries {f : BForm} : s.Tries (execSplit f s) := by
  dsimp only [execSplit]
  refine issue_tries fun y t h => ?_
  split
  exacts [h.tileEnds, h]

theorem execWiden_tries {f : RForm} : s.Tries (execWiden f s) := by
  dsimp only [execWiden]
  refine issue_tries fun y t h => ?_
  split
  · exact h
  · split
    exacts [h.putRegs, h.put, h]

theorem execBdone_tries {f : BForm} : s.Tries (execBdone f s) := by
  dsimp only [execBdone]
  refine issue_tries fun y t h => ?_
  split
  exacts [h.tileEnds.settleUnd, h.onConvoy]

/-! ### Convoy collectives -/

theorem State.Keeps.collect (h : s.Keeps t) {x : Ctx} {o : Operand} {k : Nat} {kind : ResKind} {val : Nat → IVal} :
    Effect.Keeps s (x.collect t o k kind val) :=
  h.putRegs.tileEnds

theorem execVote_tries {f : RForm} : s.Tries (execVote f s) := by
  dsimp only [execVote]
  refine issue_tries fun y t h => ?_
  split
  exacts [h.put.tileEnds, h.put.tileEnds, h.collect, h.collect]

theorem execShfl_tries {f : RForm} : s.Tries (execShfl f s) := issue_tries fun _ _ h => h.collect

theorem execReduce_tries {i : Instr} {f : RForm} {op : RedOp} : s.Tries (execReduce i f op s) := issue_tries fun _ _ h => h.collect

theorem execScan_tries {f : RForm} : s.Tries (execScan f s) := issue_tries fun _ _ h => h.collect

theorem execMatchv_tries {f : RForm} : s.Tries (execMatchv f s) := issue_tries fun _ _ h => h.collect

/-! ### Overlay loads -/

theorem State.Keeps.imageRead (h : s.Keeps t) {core part : Nat} {r : Route} {d : DirEntry} : s.Keeps (t.imageRead core part r d) :=
  h.rangeRead

theorem State.Keeps.failWaits (h : s.Keeps t) {r : Residency} {code : BitVec 16} : s.Keeps (t.failWaits r code) := by
  dsimp only [State.failWaits]
  exact h.set

theorem State.Keeps.answerWaiter (h : s.Keeps t) {r : Residency} {w : OvlWaiter} {failed : Option (BitVec 16 × Nat)} :
    s.Keeps (t.answerWaiter r w failed) := by
  dsimp only [State.answerWaiter]
  split
  · exact h.answerOvl
  · split
    exacts [h.answerOvl.ovlFailure, h.answerOvl]

theorem State.Keeps.unusableImage (h : s.Keeps t) {r : Residency} {code : BitVec 16} : s.Keeps (t.unusableImage r code) := by
  dsimp only [State.unusableImage]
  split
  · exact h
  · split
    · exact h
    · split
      exacts [h.reserveBatch.faultEntry.set, h.faultEntry.set]

theorem State.Keeps.loadedWell (h : s.Keeps t) {r : Residency} : s.Keeps (t.loadedWell r) := by
  dsimp only [State.loadedWell]
  exact h.setRes.foldl (fun ht _ => ht.answerWaiter)

theorem State.Keeps.loadFailed (h : s.Keeps t) {code : BitVec 16} {off : Nat} {r : Residency} : s.Keeps (t.loadFailed code off r) :=
  h.unusableImage.dropOverlay.failWaits.foldl (fun ht _ => ht.answerWaiter)

theorem execOverlayLoadEnd_runs (h : s.Keeps t) {core part prog handle : Nat} : s.Runs (execOverlayLoadEnd core part prog handle t) := by
  dsimp only [execOverlayLoadEnd]
  split
  · exact h.runs
  · split
    exacts [(((h.imageRead.copyImage.foldl (fun ht _ => ht.loadedWell)).settle).notice).runs, h.runs]

theorem execOverlayLoadFail_runs (h : s.Keeps t) {core part prog handle : Nat} :
    s.Runs (execOverlayLoadFail core part prog handle t) := by
  dsimp only [execOverlayLoadFail]
  split
  · exact h.runs
  · split
    exacts [h.runs, (((h.imageRead.foldl (fun ht _ => ht.loadFailed)).settle).notice).runs]

/-! ### Steps that end in APPLYING -/

theorem State.Keeps.drawWorld (h : s.Keeps t) {world : Nat} : s.Keeps (t.drawWorld world) := by
  dsimp only [State.drawWorld]
  split
  exacts [h, (h.free rfl).set]

theorem State.Keeps.makePartition (h : s.Keeps t) {v : Version} {r : Made} (hr : t.makePartition v = r) : Made.Keeps s r := by
  subst hr
  dsimp only [State.makePartition]
  split
  · exact h
  · split
    exacts [h.set, h.set.startChain.drawWorld]

theorem State.Keeps.unwrap (h : s.Keeps t) {part pa : Nat} {r : Option Nat × State} (hr : t.unwrap part pa = r) : s.Keeps r.2 := by
  subst hr
  dsimp only [State.unwrap]
  exact h.set

theorem State.Keeps.contextKey (h : s.Keeps t) {part keyref : Nat} {r : KeyFound} (hr : t.contextKey part keyref = r) :
    KeyFound.Keeps s r := by
  subst hr
  dsimp only [State.contextKey]
  split
  · exact h
  · split
    · exact h.free rfl
    · split
      next hr2 => exact h.unwrap hr2
      next hr2 => exact h.unwrap hr2

theorem State.Keeps.newContext (h : s.Keeps t) {part slot : Nat} {v : Version} {r : Made} (hr : t.newContext part slot v = r) :
    Made.Keeps s r := by
  subst hr
  dsimp only [State.newContext]
  split
  · exact h.set
  · split
    next hr1 => exact ((h.contextKey hr1).set).setKey
    next hr1 => exact h.contextKey hr1

theorem State.Keeps.rewrite (h : s.Keeps t) {gs : List Page} {r : State × Nat} (hr : t.rewrite gs = some r) : s.Keeps r.1 := by
  induction gs generalizing t r with
  | nil =>
    cases hr
    exact h
  | cons g gs ih =>
    rw [State.rewrite] at hr
    split at hr
    · exact ih h hr
    · split at hr
      · cases hr
      next hl =>
        obtain ⟨q, hq, rfl⟩ := Option.map_eq_some_iff.mp hr
        exact ih (r := q) (h.writeLeaf hl) hq

theorem State.Keeps.showAll (h : s.Keeps t) {ws : List WeightSet} {r : State × Nat} (hr : t.showAll ws = some r) : s.Keeps r.1 := by
  induction ws generalizing t r with
  | nil =>
    cases hr
    exact h
  | cons w ws ih =>
    rw [State.showAll] at hr
    split at hr
    · cases hr
    next hw =>
      obtain ⟨q, hq, rfl⟩ := Option.map_eq_some_iff.mp hr
      exact ih (r := q) (h.showWeights hw) hq

theorem State.Keeps.dropTlb (h : s.Keeps t) {part ctx : Nat} : s.Keeps (t.dropTlb part ctx) := by
  dsimp only [State.dropTlb]
  exact h.set

/-- Leaves written again and weights shown again keep what they are made from. -/
theorem State.Keeps.rewriteAndShow (h : s.Keeps t) {gs : List Page} {ws : List WeightSet} {r : State × Nat}
    (hr : ((t.rewrite gs).bind fun r => (r.1.showAll ws).map fun q => (q.1, max r.2 q.2)) = some r) : s.Keeps r.1 := by
  obtain ⟨b, hb, hr⟩ := Option.bind_eq_some_iff.mp hr
  obtain ⟨q, hq, rfl⟩ := Option.map_eq_some_iff.mp hr
  exact State.Keeps.showAll (r := q) (h.rewrite hb) hq

theorem State.Keeps.moveContext (h : s.Keeps t) {part slot root : Nat} {r : Made} (hr : t.moveContext part slot root = r) :
    Made.Keeps s r := by
  subst hr
  unfold State.moveContext
  extract_lets _ tables set
  have hset {t} (ht : s.Keeps t) : s.Keeps (set t) := ht.set
  split
  · exact h
  · split
    next hr => exact (h.makeRoom (P := fun r => s.Keeps r.1) fun _ _ ht hr => (hset ht).rewriteAndShow hr).2 _ hr
    next hr =>
      have hu := (h.makeRoom (P := fun r => s.Keeps r.1) fun _ _ ht hr => (hset ht).rewriteAndShow hr).1 _ hr
      exact (State.Keeps.freeUp hu).dropTlb

theorem State.Keeps.mapRange (h : s.Keeps t) {m : Mapping} {ks : List Nat} {r : State × Nat} (hr : t.mapRange m ks = some r) :
    s.Keeps r.1 := by
  induction ks generalizing t r with
  | nil =>
    cases hr
    exact h
  | cons k ks ih =>
    rw [State.mapRange] at hr
    split at hr
    · cases hr
    next hm =>
      obtain ⟨q, hq, rfl⟩ := Option.map_eq_some_iff.mp hr
      exact ih (r := q) (h.mapBacked hm) hq

/-- Leaves written again and a range mapped keep what they are made from. -/
theorem State.Keeps.rewriteAndMap (h : s.Keeps t) {gs : List Page} {m : Mapping} {ks : List Nat} {c : Nat} {r : State × Nat}
    (hr : ((t.rewrite gs).bind fun r => (r.1.mapRange m ks).map fun q => (q.1, max c (max r.2 q.2))) = some r) : s.Keeps r.1 := by
  obtain ⟨b, hb, hr⟩ := Option.bind_eq_some_iff.mp hr
  obtain ⟨q, hq, rfl⟩ := Option.map_eq_some_iff.mp hr
  exact State.Keeps.mapRange (r := q) (h.rewrite hb) hq

theorem State.Keeps.makeMapping (h : s.Keeps t) {part slot : Nat} {v : Version} {r : Made} (hr : t.makeMapping part slot v = r) :
    Made.Keeps s r := by
  subst hr
  unfold State.makeMapping
  extract_lets m
  split
  · exact h
  · split
    next hr => exact (h.makeRoom (P := fun r => s.Keeps r.1) fun _ _ ht hr => (ht.set.unmapPages rfl).rewriteAndMap hr).2 _ hr
    next hr => exact (h.makeRoom (P := fun r => s.Keeps r.1) fun _ _ ht hr => (ht.set.unmapPages rfl).rewriteAndMap hr).1 _ hr

theorem State.Keeps.hideWeights (h : s.Keeps t) {w : WeightSet} {r : State × Nat} (hr : t.hideWeights w = r) : s.Keeps r.1 := by
  subst hr
  refine State.Keeps.foldl_fst (r := (t, t.now)) h fun {r} hr _ => ?_
  dsimp only
  exact hr.clearLeaf rfl

/-- So do weights that the set of the same record is hidden for first. -/
theorem State.Keeps.hideBackAndShow (h : s.Keeps t) {w : WeightSet} {bs : List Byte} {r : State × Nat × List (Nat × Nat)}
    (hr : (let hidden := match t.setOf w.part w.slot with
        | some o => t.hideWeights o
        | none => (t, t.now)
      (hidden.1.backWeights w bs).bind fun r => (r.1.showWeights w r.2).map fun q => (q.1, max hidden.2 q.2, r.2)) = some r) :
    s.Keeps r.1 := by
  extract_lets hidden at hr
  have hh : s.Keeps hidden.1 := by
    dsimp only [hidden]
    split
    exacts [h.hideWeights rfl, h]
  exact hh.backAndShow hr

theorem State.Keeps.newGeneration (h : s.Keeps t) {w : WeightSet} {r : Made} (hr : t.newGeneration w = r) : Made.Keeps s r := by
  subst hr
  unfold State.newGeneration
  extract_lets u
  have hu : s.Keeps u := h.readsThrough
  clear_value u
  split
  · exact hu
  · split
    next hr => exact (hu.makeRoom (P := fun r => s.Keeps r.1) fun _ _ ht hr => ht.hideBackAndShow hr).2 _ hr
    next hr => exact State.Keeps.set ((hu.makeRoom (P := fun r => s.Keeps r.1) fun _ _ ht hr => ht.hideBackAndShow hr).1 _ hr)

theorem State.Keeps.makeWeights (h : s.Keeps t) {part slot : Nat} {v : Version} {r : Made} (hr : t.makeWeights part slot v = r) :
    Made.Keeps s r := by
  subst hr
  dsimp only [State.makeWeights]
  split
  · split
    · exact h
    · split
      · exact h.newGeneration rfl
      · split
        · split
          next hr4 => exact (h.reloadSet hr4).newGeneration rfl
          next hr4 => exact h.reloadSet hr4
          · exact h
          next hr4 => exact h.reloadSet hr4
        · exact h.newGeneration rfl
  · split
    · exact h
    · split
      · exact h.newGeneration rfl
      · split
        · split
          next hr4 => exact (h.reloadSet hr4).newGeneration rfl
          next hr4 => exact h.reloadSet hr4
          · exact h
          next hr4 => exact h.reloadSet hr4
        · exact h.newGeneration rfl

theorem State.Keeps.advanceEpoch (h : s.Keeps t) {part slot : Nat} : s.Keeps (t.advanceEpoch part slot) := by
  dsimp only [State.advanceEpoch]
  split
  exacts [h, h.set.onSet.dropGens]

theorem State.Keeps.bundleRead (h : s.Keeps t) {part : Nat} {v : Version} {dir : List DirEntry} : s.Keeps (t.bundleRead part v dir) :=
  h.readsThrough.readsThrough.foldl (fun ht _ => ht.readsThrough)

theorem State.Keeps.makeRoute (h : s.Keeps t) {r : Rec} {v : Version} {m : Made} (hr : t.makeRoute r v = m) : Made.Keeps s m := by
  subst hr
  dsimp only [State.makeRoute]
  split
  · exact h
  · split
    · exact h.bundleRead
    · split
      exacts [h.bundleRead, h.bundleRead.set]

theorem State.Keeps.probeRing (h : s.Keeps t) {part ctx : Nat} {as_ : List Nat} {r : Probed} (hr : t.probeRing part ctx as_ = r) :
    Probed.Keeps s r := by
  subst hr
  induction as_ generalizing t with
  | nil => exact h
  | cons a as_ ih =>
    rw [State.probeRing]
    split
    · exact h
    · split
      · exact h
      · split
        next hs => exact ih (h.serve hs)
        next hs => exact h.serve hs
        · exact h
        next hs => exact h.serve hs

theorem State.Keeps.makeQueue (h : s.Keeps t) {r : Rec} {v : Version} {m : Made} (hr : t.makeQueue r v = m) : Made.Keeps s m := by
  subst hr
  dsimp only [State.makeQueue]
  split
  next hr => exact h.probeRing hr
  next hr => exact h.probeRing hr
  next hr =>
    have hu := h.probeRing hr
    split
    exacts [State.Keeps.requeue hu, State.Keeps.set hu]

theorem State.Keeps.makeAccount (h : s.Keeps t) {part slot : Nat} {v : Version} {r : Made} (hr : t.makeAccount part slot v = r) :
    Made.Keeps s r := by
  subst hr
  dsimp only [State.makeAccount]
  exact h.set

theorem State.Keeps.make (h : s.Keeps t) {r : Rec} {v : Version} {m : Made} (hr : t.make r v = m) : Made.Keeps s m := by
  subst hr
  dsimp only [State.make]
  split
  · exact h
  · split
    · exact h.makePartition rfl
    · split
      exacts [h.moveContext rfl, h.newContext rfl]
    · exact h.makeMapping rfl
    · exact h.makeWeights rfl
    · exact h.makeRoute rfl
    · exact h.makeQueue rfl
    · exact h.makeAccount rfl

theorem State.Keeps.finishApplying (h : s.Keeps t) {r : Rec} {v : Version} : s.Keeps (t.finishApplying r v) := by
  dsimp only [State.finishApplying]
  split
  · split
    · split
      · exact h.freeUp.converged.deviceMilestone.stepEnd
      · exact h.advanceEpoch.converged.deviceMilestone.stepEnd
      · exact h.converged.deviceMilestone.stepEnd
    · split
      exacts [h.freeUp.converged.stepEnd, h.advanceEpoch.converged.stepEnd, h.converged.stepEnd]
  · split
    · split
      · exact h.freeUp.converged.deviceMilestone.stepEnd
      · exact h.advanceEpoch.converged.deviceMilestone.stepEnd
      · exact h.converged.deviceMilestone.stepEnd
    · split
      exacts [h.freeUp.converged.stepEnd, h.advanceEpoch.converged.stepEnd, h.converged.stepEnd]

theorem State.Keeps.setRec (h : s.Keeps t) {r : Rec} : s.Keeps (t.setRec r) := by
  dsimp only [State.setRec]
  exact h.set

theorem execApplyingEnd_runs (h : s.Keeps t) {fn slot : Nat} : s.Runs (execApplyingEnd fn slot t) := by
  dsimp only [execApplyingEnd]
  split
  · exact h.runs
  · split
    · split
      · split
        exacts [h.finishApplying.runs, h.runs]
      · split
        next hr3 => exact ((((h.make hr3).giveBack).failed).stepEnd).runs
        next hr3 =>
          split
          exacts [((h.make hr3).finishApplying).runs, ((h.make hr3).setRec).runs]
    · exact h.runs

/-! ### Conversions -/

theorem execQnt_tries {f : RForm} : s.Tries (execQnt f s) := by
  dsimp only [execQnt]
  refine issue_tries fun y t h => ?_
  split <;> exact h.retire

theorem execDqnt_tries {f : RForm} : s.Tries (execDqnt f s) := issue_tries fun _ _ h => h.retire

/-! ### The matrix engine -/

theorem State.Keeps.checkPass (h : s.Keeps t) {c : Column} {e : MxEntry} {rs : List (Nat × Nat)} : s.Keeps (t.checkPass c e rs) :=
  h.readEccs

theorem State.Keeps.onEntry (h : s.Keeps t) {id : Nat} {f : MxEntry → MxEntry} : s.Keeps (t.onEntry id f) := by
  dsimp only [State.onEntry]
  exact h.set

theorem State.Keeps.setTile (h : s.Keeps t) {quad tile : Nat} {vals : List (Nat × Word)} : s.Keeps (t.setTile quad tile vals) :=
  h.setStore fun hm => setTile_wf hm quad tile vals

theorem State.Keeps.storePoison (h : s.Keeps t) {c : Column} {e : MxEntry} {fmt base stride : Nat} :
    s.Keeps (t.storePoison c e fmt base stride) := by
  dsimp only [State.storePoison]
  exact h.set

theorem State.Keeps.storeTile (h : s.Keeps t) {c : Column} {e : MxEntry} {fmt base stride : Nat} :
    s.Keeps (t.storeTile c e fmt base stride) :=
  ((h.foldl (fun ht _ => (ht.foldl (fun ht1 _ => ht1.logSpad)).spadWrite)).storePoison).notice

theorem State.Keeps.mxStep (h : s.Keeps t) {c : Column} {e : MxEntry} : s.Keeps (t.mxStep c e) := by
  dsimp only [State.mxStep]
  split
  exacts [h, h.setTile, h.setTile, h.storeTile.onConvoy, h.setTile]

theorem State.Keeps.passPoison (h : s.Keeps t) {c : Column} {r : Route} {e : MxEntry} : s.Keeps (t.passPoison c r e) := by
  dsimp only [State.passPoison]
  split
  · exact h.consume
  · split
    exacts [h.consume, h]

theorem State.Keeps.grantPass (h : s.Keeps t) {c : Column} {r : Route} {e : MxEntry} : s.Keeps (t.grantPass c r e) := by
  dsimp only [State.grantPass]
  split
  exacts [h.checkPass.passPoison.onEntry, h.checkPass.passPoison.mxStep.onEntry]

theorem execMatrixPassGrant_runs (h : s.Keeps t) {quad : Nat} : s.Runs (execMatrixPassGrant quad t) := by
  dsimp only [execMatrixPassGrant]
  split
  · exact h.runs
  · split
    · exact h.runs
    · split
      exacts [h.runs, h.grantPass.runs]

theorem State.Keeps.countCorrection (h : s.Keeps t) {part quad tile row col : Nat} {ckonly : Bool} :
    s.Keeps (t.countCorrection part quad tile row col ckonly) := by
  dsimp only [State.countCorrection]
  exact h.setCksum.setCksum.blackBox

theorem State.Keeps.releaseSigners (h : s.Keeps t) {e : MxEntry} : s.Keeps (t.releaseSigners e) := h.foldl (fun ht _ => ht.onConvoy)

theorem State.Keeps.checksumFaults (h : s.Keeps t) {e : MxEntry} : s.Keeps (t.checksumFaults e) := h.foldl (fun ht _ => ht.onConvoy)

theorem State.Keeps.freeEntry (h : s.Keeps t) {id : Nat} : s.Keeps (t.freeEntry id) := by
  dsimp only [State.freeEntry]
  exact h.set

theorem State.Keeps.drainMma (h : s.Keeps t) {c : Column} {r : Route} {e : MxEntry} {tri : Bool} {f : XForm}
    {table : List (BitVec 16)} {rows cols : List Nat} : s.Keeps (t.drainMma c r e tri f table rows cols) := by
  dsimp only [State.drainMma]
  split
  · exact h.setTile.releaseSigners.freeEntry
  · exact h.setTile.releaseSigners.freeEntry.countCorrection
  · exact h.setTile.releaseSigners.freeEntry.countCorrection
  · exact h.setTile.releaseSigners.freeEntry.countCorrection
  · exact h.checksumFaults.freeEntry

theorem execMatrixDrain_runs (h : s.Keeps t) {quad entry : Nat} {elems sums : List (Nat × Int × Int)} :
    s.Runs (execMatrixDrain quad entry elems sums t) := by
  dsimp only [execMatrixDrain]
  split
  · exact h.runs
  · split
    · exact h.runs
    · split
      · exact h.freeEntry.runs
      · split
        · exact h.freeEntry.runs
        · split
          exacts [h.drainMma.completeRounds.runs, h.releaseSigners.freeEntry.completeRounds.runs]

/-! ### Integer instructions -/

theorem execSel_tries {f : RForm} : s.Tries (execSel f s) := issue_tries fun _ _ h => h.retire

/-! ### Copy rings -/

theorem State.Keeps.dropPacket (h : s.Keeps t) {part : Nat} {code : BitVec 16} {addr access : Nat} :
    s.Keeps (t.dropPacket part code addr access) :=
  h.faultEntry

theorem State.Keeps.ringContext (h : s.Keeps t) {part : Nat} {r : Option Nat × Nat × State} (hr : t.ringContext part = r) :
    s.Keeps r.2.2 := by
  subst hr
  exact h.set

theorem State.Keeps.takePacket (h : s.Keeps t) {part : Nat} {peer : Bool} {p : Packet} : s.Keeps (t.takePacket part peer p) := by
  dsimp only [State.takePacket]
  split
  · exact h.dropPacket
  · split
    · exact h.dropPacket
    · split
      · exact (h.ringContext rfl).dropPacket
      · split
        · exact (h.ringContext rfl).dropPacket
        next hr3 =>
          split
          · exact ((h.ringContext rfl).probeRows hr3).dropPacket
          next hr4 =>
            split
            · exact (((h.ringContext rfl).probeRows hr3).probeRows hr4).finishCopy
            · exact (((h.ringContext rfl).probeRows hr3).probeRows hr4).set

theorem execCopyRingTake_runs (h : s.Keeps t) {part : Nat} {peer : Bool} : s.Runs (execCopyRingTake part peer t) := by
  dsimp only [execCopyRingTake]
  split
  · exact h.runs
  · split
    · exact h.runs
    · split
      exacts [h.checkBytes.dropPacket.devWriteNum.runs, h.checkBytes.takePacket.devWriteNum.runs]

theorem State.Keeps.failShard (h : s.Keeps t) {j : CopyJob} {code : BitVec 16} {i : Nat} : s.Keeps (t.failShard j code i) := h.failCopy

theorem State.Keeps.landLines (h : s.Keeps t) {id : Nat} {ls : List CopyLine} : s.Keeps (t.landLines id ls) := by
  dsimp only [State.landLines]
  refine h.foldl (fun ht _ => ?_)
  split
  · split
    next hr1 => exact ht.grantLine hr1
    · exact ht
  · exact ht

theorem State.Keeps.meterShard (h : s.Keeps t) {j : CopyJob} {data : List Byte} : s.Keeps (t.meterShard j data) := by
  dsimp only [State.meterShard]
  split
  · split
    exacts [h.meterCol, h]
  · exact h

theorem execShardArrival_runs (h : s.Keeps t) {job shard : Nat} {data : List Byte} {crc : Word} :
    s.Runs (execShardArrival job shard data crc t) := by
  dsimp only [execShardArrival]
  split
  · exact h.runs
  · split
    · exact h.runs
    · split
      · exact h.acked.meterShard.failShard.runs
      · split
        exacts [h.acked.meterShard.failShard.runs, h.acked.meterShard.set.landLines.runs]

theorem execShardTimeout_runs (h : s.Keeps t) {job : Nat} : s.Runs (execShardTimeout job t) := by
  dsimp only [execShardTimeout]
  split
  · exact h.runs
  · split
    · split
      exacts [h.failShard.runs, h.runs]
    · exact h.runs

/-! ### Causeways -/

theorem State.Keeps.setLink (h : s.Keeps t) {l : Link} : s.Keeps (t.setLink l) := by
  dsimp only [State.setLink]
  exact h.set

theorem State.Keeps.linkEvent (h : s.Keeps t) {n : Nat} {up : Bool} : s.Keeps (t.linkEvent n up) := h.blackBox.sendMsix

theorem State.Keeps.sever (h : s.Keeps t) {link col : Nat} : s.Keeps (t.sever link col) := by
  dsimp only [State.sever]
  refine h.foldl (fun ht _ => ?_)
  split
  exacts [ht.dropOp.onIssuer, ht.dropOp.onIssuer, ht.onOp]

theorem State.Keeps.strand (h : s.Keeps t) {link : Nat} {x : Nat × Nat × Nat} : s.Keeps (t.strand link x) := by
  dsimp only [State.strand]
  split
  · split
    exacts [h.sever, h.report.kill.sever]
  · exact h

theorem execLinkDown_runs (h : s.Keeps t) {link : Nat} : s.Runs (execLinkDown link t) := by
  dsimp only [execLinkDown]
  split
  · exact h.runs
  · refine ((h.setLink.linkEvent.foldl (fun ht _ => ht.strand)).foldl (fun ht _ => ?_)).runs
    split
    exacts [ht.failShard, ht]

theorem execLinkRetrain_runs (h : s.Keeps t) {link : Nat} : s.Runs (execLinkRetrain link t) := by
  dsimp only [execLinkRetrain]
  split
  exacts [h.runs, h.setLink.runs]

theorem execLinkUp_runs (h : s.Keeps t) {link : Nat} : s.Runs (execLinkUp link t) := by
  dsimp only [execLinkUp]
  split
  exacts [h.runs, h.setLink.linkEvent.runs]

theorem execPeerAccessRequest_runs (h : s.Keeps t) {link : Nat} {access : PeerAccess} : s.Runs (execPeerAccessRequest link access t) := by
  dsimp only [execPeerAccessRequest]
  split
  · exact h.runs
  · split
    · exact h.checkBytes.set.runs
    · split
      exacts [h.set.runs, ((h.poke rfl).set).runs]
    · split
      exacts [h.checkBytes.set.runs, ((h.checkBytes.poke rfl).set).runs]

/-! ### Steps that start and that drain -/

theorem State.Keeps.writeBlocked (h : s.Keeps t) {fn : Nat} : s.Keeps (t.writeBlocked fn) := by
  dsimp only [State.writeBlocked]
  refine h.foldl (fun ht _ => ?_)
  split
  · split
    exacts [ht.note, ht]
  · exact ht

theorem State.Keeps.emptyEngines (h : s.Keeps t) {part ctx : Nat} : s.Keeps (t.emptyEngines part ctx) := by
  dsimp only [State.emptyEngines]
  exact h.set

theorem State.Keeps.departs (h : s.Keeps t) {part ctx : Nat} : s.Keeps (t.departs part ctx) := by
  unfold State.departs
  extract_lets u _
  have hu : s.Keeps u := h.emptyEngines
  clear_value u
  exact hu.set.setKey

theorem State.Keeps.allAbsent (h : s.Keeps t) {fn : Nat} : s.Keeps (t.allAbsent fn) := by
  dsimp only [State.allAbsent]
  refine h.set.foldl (fun ht _ => ?_)
  split
  · exact ht
  · split
    · split
      · split
        exacts [ht.supersede.stopRoute.putRec, ht.supersede.putRec]
      · exact ht.supersede.putRec
    · exact ht.supersede.putRec

theorem State.Keeps.discardQueue (h : s.Keeps t) {q : Queue} : s.Keeps (t.discardQueue q) := by
  dsimp only [State.discardQueue]
  exact h.requeue.set

theorem State.Keeps.startDraining (h : s.Keeps t) {r : Rec} {v : Version} : s.Keeps (t.startDraining r v) := by
  unfold State.startDraining
  extract_lets part r u w
  have hu : s.Keeps u := h.putRec
  have hw : s.Keeps w.1 := h.unmapPages rfl
  clear_value u w
  split
  · split
    · exact (hu.makeReport rfl).endChain.allAbsent.foldl fun ht _ => ht.kill
    · exact hu
  · split
    exacts [h.putRec.departs, h.putRec]
  · exact hw.set.putRec
  · exact h.set.putRec
  · split
    · split
      exacts [h.putRec, h.discardQueue.putRec]
    · exact h.putRec
  · exact h.putRec

theorem State.Keeps.startStep (h : s.Keeps t) {r : Rec} {v : Version} : s.Keeps (t.startStep r v) := by
  dsimp only [State.startStep]
  split
  exacts [h.putRec, h.startDraining]

theorem execReconcileStepStart_runs (h : s.Keeps t) {fn : Nat} : s.Runs (execReconcileStepStart fn t) := by
  dsimp only [execReconcileStepStart]
  split
  · exact h.runs
  · split
    · exact h.writeBlocked.runs
    · split
      exacts [h.writeBlocked.startStep.runs, h.writeBlocked.runs]

theorem State.Keeps.releaseOverlays (h : s.Keeps t) {part prog : Nat} : s.Keeps (t.releaseOverlays part prog) :=
  h.foldl (fun ht _ => ht.dropOverlay)

theorem State.Keeps.tryAgain (h : s.Keeps t) {fn : Nat} : s.Keeps (t.tryAgain fn) := by
  dsimp only [State.tryAgain]
  refine h.foldl (fun ht _ => ?_)
  split
  · split
    exacts [ht.putRec, ht]
  · exact ht

theorem State.Keeps.zeroUnits (h : s.Keeps t) {p : Partition} : s.Keeps (t.zeroUnits p) := by
  refine h.setStore fun hm => ?_
  rw [store_wf_iff] at hm ⊢
  obtain ⟨hdev, hhost, hpeer, hspad, histore, hpf, hfwmem, htiles, hcksum⟩ := hm
  exact ⟨hdev, hhost, hpeer, canonical_filter _ hspad, histore, hpf, hfwmem, canonical_filter _ htiles, canonical_filter _ hcksum⟩

theorem State.Keeps.zeroMemory (h : s.Keeps t) {p : Partition} : s.Keeps (t.zeroMemory p) := h.foldl (fun ht _ => ht.zeroDev)

theorem State.Keeps.dropPartition (h : s.Keeps t) {p : Partition} : s.Keeps (t.dropPartition p) := by
  unfold State.dropPartition
  extract_lets _ u
  exact (h.zeroUnits.zeroMemory.endChain : s.Keeps u).set

theorem State.Keeps.drainedNow (h : s.Keeps t) {r : Rec} {v : Version} {q : State × Nat} (hr : t.drainedNow r v = some q) :
    s.Keeps q.1 := by
  unfold State.drainedNow at hr
  extract_lets part cleared tags untagged ungranted _ ended released at hr
  have hcleared : s.Keeps cleared := h.departs.freeUp
  have huntagged : s.Keeps untagged := hcleared.foldl fun ht _ => ht.zeroDev
  have hungranted : s.Keeps ungranted := huntagged.foldl fun ht _ => ht.zeroDev
  have hended : s.Keeps ended := h.foldl fun ht _ => ht.endLaunch
  have hreleased : s.Keeps released := hended.releaseOverlays
  split at hr
  · cases hr
    exact h
  · split at hr
    · cases hr
      exact h
    · split_ifs at hr
      cases hr
      exact h.dropPartition
  · cases hr
    exact hungranted.set
  · split_ifs at hr
    cases hr
    exact h.freeUp
  · split at hr
    · cases hr
      exact h
    · split_ifs at hr
      extract_lets hidden at hr
      have hhidden : s.Keeps hidden := h.hideWeights rfl
      cases hr
      exact State.Keeps.freeBacking hhidden.set
  · split at hr
    · cases hr
      exact h
    · split_ifs at hr <;> cases hr
      exacts [hreleased, hreleased.set]
  · split at hr
    · cases hr
      exact h
    · split_ifs at hr
      cases hr
      exact State.Keeps.set (t := t.discardQueue _) h.discardQueue
  · cases hr
    exact h.set

theorem execDrainingEnd_runs (h : s.Keeps t) {fn slot : Nat} : s.Runs (execDrainingEnd fn slot t) := by
  dsimp only [execDrainingEnd]
  split
  · exact h.runs
  · split
    · split
      · exact h.runs
      next hr2 =>
        split
        exacts [((h.drainedNow hr2).putRec).runs, ((((h.drainedNow hr2).deleted).tryAgain).stepEnd).runs]
    · exact h.runs

/-! ### Migration -/

theorem State.Keeps.setMig (h : s.Keeps t) {m : Migration} : s.Keeps (t.setMig m) := by
  dsimp only [State.setMig]
  exact h.set

theorem execMigOffer_runs (h : s.Keeps t) {part : Nat} : s.Runs (execMigOffer part t) :=
  (h.serveBox fun _ => (h.free rfl).setMig.respond).runs

theorem execMigWrap_runs (h : s.Keeps t) {part : Nat} : s.Runs (execMigWrap part t) := by
  refine (h.serveBox fun b => ?_).runs
  dsimp only
  split
  · exact h.respond
  · split
    · exact h.respond
    · split
      exacts [h.respond, h.blackBox.departs.setMig.respond]

theorem State.Keeps.migrationLost (h : s.Keeps t) {part ctx : Nat} : s.Keeps (t.migrationLost part ctx) := by
  dsimp only [State.migrationLost]
  split
  exacts [h.note, h]

theorem execMigResult_runs (h : s.Keeps t) {part : Nat} : s.Runs (execMigResult part t) := by
  refine (h.serveBox fun b => ?_).runs
  dsimp only
  split
  · exact h.respond
  · exact h.respond
  · split
    exacts [h.setMig.respond, h.setMig.migrationLost.respond]

/-! ### Columns that start -/

theorem State.Keeps.placing (h : s.Keeps t) {r : Route} {bmode : Bool} {core : Nat} {quads : List Nat} {p : Placing}
    (hr : t.placing r bmode core quads = p) : Placing.Keeps s p := by
  subst hr
  dsimp only [State.placing]
  split
  · exact h
  · split
    · exact h
    · split
      next hr => exact h.entryLoads hr
      next hr => exact h.entryLoads hr
      · exact h.noBayEntry

theorem execBatchLaunch_runs (h : s.Keeps t) {part prog core : Nat} {quads : List Nat} :
    s.Runs (execBatchLaunch part prog core quads t) := by
  dsimp only [execBatchLaunch]
  split
  · exact h.runs
  · split
    · exact h.runs
    · split
      · exact h.runs
      next hr2 =>
        split
        next hr3 => exact ((h.decideBatch hr2).placing hr3).runs
        next hr3 => exact (((h.decideBatch hr2).placing hr3).startBatch).runs

theorem execCoalescingTimeout_runs (h : s.Keeps t) {part prog : Nat} : s.Runs (execCoalescingTimeout part prog t) := by
  dsimp only [execCoalescingTimeout]
  split
  · exact h.runs
  · split
    · exact h.runs
    · split
      exacts [h.set.runs, h.runs]

theorem execTaskLaunch_runs (h : s.Keeps t) {part task core : Nat} {quads : List Nat} :
    s.Runs (execTaskLaunch part task core quads t) := by
  dsimp only [execTaskLaunch]
  split
  · exact h.runs
  · split
    · exact h.runs
    · split
      · exact h.runs
      · split
        next hr3 => exact (h.placing hr3).runs
        next hr3 =>
          split
          · exact ((((h.placing hr3).capture).freeTask).startBounds).runs
          · exact ((((h.placing hr3).capture).freeTask).newColumn).runs

theorem execBoundsRoundLaunch_runs (h : s.Keeps t) {launch core : Nat} {quads : List Nat} :
    s.Runs (execBoundsRoundLaunch launch core quads t) := by
  dsimp only [execBoundsRoundLaunch]
  split
  · exact h.runs
  · split
    · exact h.runs
    · split
      · exact h.runs
      · split
        next hr3 => exact (h.placing hr3).runs
        next hr3 => exact (((h.placing hr3).onLaunch).newColumn).runs

theorem execElementPassLaunch_runs (h : s.Keeps t) {launch core : Nat} {quads : List Nat} :
    s.Runs (execElementPassLaunch launch core quads t) := by
  dsimp only [execElementPassLaunch]
  split
  · exact h.runs
  · split
    · exact h.runs
    · split
      · split
        · exact h.runs
        · split
          next hr4 => exact (h.placing hr4).runs
          next hr4 => exact (((h.placing hr4).onLaunch).newColumn).runs
      · split
        · exact h.runs
        · split
          next hr4 => exact (h.placing hr4).runs
          next hr4 => exact (((h.placing hr4).onLaunch).newColumn).runs

/-! ### The end of a cycle -/

theorem State.Keeps.countRecalls (h : s.Keeps t) : s.Keeps t.countRecalls := by
  dsimp only [State.countRecalls]
  exact (h.set.foldl (fun ht _ => ht.onConvoy)).foldl (fun ht _ => ht.foldl (fun ht1 _ => ht1.onConvoy))

theorem State.Keeps.endSlices (h : s.Keeps t) : s.Keeps t.endSlices := h.foldl (fun ht _ => ht.endSlice)

end

end Sys2Proof.Machine
end

section
/-!
PROOFS. One step: what every act answers, and the statements about a step itself (O55, O58, O59).
-/

namespace Sys2Proof.Machine

/-! ## Every step -/

section
variable {s t u : State}

/-- What `exec` does: a device step answers a next state that keeps this, and so does an instruction where a group issues it. -/
def State.Does (s : State) (i : Instr) : Prop :=
  match isDeviceStep i with
  | true => s.Runs (exec i s)
  | false => s.Tries (exec i s)

theorem exec_does (s : State) {i : Instr} (hi : i ≠ .coldReset) : s.Does i := by
  have h := State.Keeps.refl s
  cases i with
  | coldReset => exact absurd rfl hi
  | iadd | isub | imul | imulh | imad | iaddx | isubx | imadx | lea | imin | imax | iabs | ineg | idiv | irem | sadd | ssub | idp4
  | idp8 | idp2 | mov | movi | movh | band | bor | bxor | bnot | bandn | shl | shr | sar | rot | bfx | bfi | popc | clz | brev | fadd
  | fsub | fmul | ffma | fmin | fmax | fabs | fneg | frcp | fsqrt | frsq | fclass | hadd2 | hmul2 | hfma2 | fscale | fexpn | cvt
  | cvti | icvt | exp2 | log2 | sin | cos | tanh | smxi | smxacc | smxnrm => exact issueAlu_tries
  | sel => exact execSel_tries
  | icmp | pand | por | pxor | pnot | pset | fcmp => exact issuePred_tries
  | qnt => exact execQnt_tries
  | dqnt => exact execDqnt_tries
  | vote => exact execVote_tries
  | shfl => exact execShfl_tries
  | redadd | redmax | redmin => exact execReduce_tries
  | scan => exact execScan_tries
  | matchv => exact execMatchv_tries
  | ld => exact execLd_tries
  | st => exact execSt_tries
  | lds => exact execLds_tries
  | sts => exact execSts_tries
  | ldx => exact execLdx_tries
  | stx => exact execStx_tries
  | ldb => exact execLdb_tries
  | pf => exact execPf_tries
  | ldq => exact execLdq_tries
  | stq => exact execStq_tries
  | atadd => exact execAtadd_tries
  | ataddf => exact execAtaddf_tries
  | atmin => exact execAtmin_tries
  | atmax => exact execAtmax_tries
  | atand => exact execAtand_tries
  | ator => exact execAtor_tries
  | atxor => exact execAtxor_tries
  | atxch => exact execAtxch_tries
  | atcas => exact execAtcas_tries
  | atinc => exact execAtinc_tries
  | fence => exact execFence_tries
  | bari => exact execBari_tries
  | bara => exact execBara_tries
  | barw => exact execBarw_tries
  | baraw => exact execBaraw_tries
  | waita => exact execWaita_tries
  | waitc => exact execWaitc_tries
  | sign => exact execSign_tries
  | nap => exact execNap_tries
  | mma => exact execMma_tries
  | mmat => exact execMmat_tries
  | plst => exact execPlst_tries
  | acz => exact execAcz_tries
  | acld => exact execAcld_tries
  | acst => exact execAcst_tries
  | acrd => exact execAcrd_tries
  | acwr => exact execAcwr_tries
  | cbld => exact execCbld_tries
  | ckrd => exact execCkrd_tries
  | cpy => exact execCpy_tries
  | cpy2 => exact execCpy2_tries
  | cpyp => exact execCpyp_tries
  | cpyq => exact execCpyq_tries
  | qrd => exact execQrd_tries
  | qack => exact execQack_tries
  | qwr => exact execQwr_tries
  | emit => exact execEmit_tries
  | bra => exact execBra_tries
  | brx => exact execBrx_tries
  | call => exact execCall_tries
  | ret => exact execRet_tries
  | loop => exact execLoop_tries
  | exit => exact execExit_tries
  | yield => exact execYield_tries
  | trap => exact execTrap_tries
  | nop => exact execNop_tries
  | bkpt => exact execBkpt_tries
  | ovl => exact execOvl_tries
  | ovlq => exact execOvlq_tries
  | ovlpin => exact execOvlpin_tries
  | ovlrel => exact execOvlrel_tries
  | ovlev => exact execOvlev_tries
  | callo => exact execCallo_tries
  | reto => exact execReto_tries
  | bsum => exact execBsum_tries
  | fill => exact execFill_tries
  | defer => exact execDefer_tries
  | split => exact execSplit_tries
  | widen => exact execWiden_tries
  | bdone => exact execBdone_tries
  | movs => exact execMovs_tries
  | movc => exact execMovc_tries
  | clk => exact execClk_tries
  | perf => exact execPerf_tries
  | fwcall => exact execFwcall_tries
  | trapret => exact execTrapret_tries
  | unassignedOpcode => exact execUnassignedOpcode_tries
  | fetchParityRetry => exact execFetchParityRetry_tries
  | convoyWake => exact execConvoyWake_runs h
  | waitBoundExpiry => exact execWaitBoundExpiry_runs h
  | napExpiry => exact execNapExpiry_runs h
  | fwcallAnswer => exact execFwcallAnswer_runs h
  | loadReturn => exact execLoadReturn_runs h
  | storeArrival => exact execStoreArrival_runs h
  | storeAck => exact execStoreAck_runs h
  | hostAtomicCompletion => exact execHostAtomicCompletion_runs h
  | readAheadFetch => exact execReadAheadFetch_runs h
  | pushPerform => exact execPushPerform_runs h
  | ownershipGrant => exact execOwnershipGrant_runs h
  | copyCompletion => exact execCopyCompletion_runs h
  | copyFailure => exact execCopyFailure_runs h
  | matrixPassGrant => exact execMatrixPassGrant_runs h
  | matrixDrain => exact execMatrixDrain_runs h
  | checksumFaultDelivery => exact execChecksumFaultDelivery_runs h
  | plstMergeComplete => exact execPlstMergeComplete_runs h
  | codebookReady => exact execCodebookReady_runs h
  | overlayLoadEnd => exact execOverlayLoadEnd_runs h
  | overlayLoadFail => exact execOverlayLoadFail_runs h
  | batchLaunch => exact execBatchLaunch_runs h
  | coalescingTimeout => exact execCoalescingTimeout_runs h
  | taskLaunch => exact execTaskLaunch_runs h
  | boundsRoundLaunch => exact execBoundsRoundLaunch_runs h
  | elementPassLaunch => exact execElementPassLaunch_runs h
  | columnEnd => exact execColumnEnd_runs h
  | accountRefill => exact execAccountRefill_runs h
  | sliceEnd => exact execSliceEnd_runs h
  | preemptForRoom => exact execPreemptForRoom_runs h
  | preemptionSave => exact execPreemptionSave_runs h
  | tileBankSave => exact execTileBankSave_runs h
  | resumption => exact execResumption_runs h
  | drainDeadline => exact execDrainDeadline_runs h
  | surveyorScan => exact execSurveyorScan_runs h
  | reconcileStepStart => exact execReconcileStepStart_runs h
  | applyingEnd => exact execApplyingEnd_runs h
  | drainingEnd => exact execDrainingEnd_runs h
  | pageWalk => exact execPageWalk_runs h
  | pagingAnswer => exact execPagingAnswer_runs h
  | replay => exact execReplay_runs h
  | taskArm => exact execTaskArm_runs h
  | taskSignal => exact execTaskSignal_runs h
  | acctRead => exact execAcctRead_runs h
  | mailboxTaskArm => exact execMailboxTaskArm_runs h
  | mailboxTaskSignal => exact execMailboxTaskSignal_runs h
  | allowSet => exact execAllowSet_runs h
  | report => exact execReport_runs h
  | migOffer => exact execMigOffer_runs h
  | migWrap => exact execMigWrap_runs h
  | migResult => exact execMigResult_runs h
  | fwWrite => exact execFwWrite_runs h
  | fwStart => exact execFwStart_runs h
  | sliceSet => exact execSliceSet_runs h
  | pubkeySet => exact execPubkeySet_runs h
  | bboxRead => exact execBboxRead_runs h
  | mailboxUnknownCode => exact execMailboxUnknownCode_runs h
  | dbell => exact execDbell_runs h
  | carveOutWrite => exact execCarveOutWrite_runs h
  | registerWrite => exact execRegisterWrite_runs h
  | counterSlotRead => exact execCounterSlotRead_runs h
  | bar2Access => exact execBar2Access_runs h
  | hostAtomicopCompleter => exact execHostAtomicopCompleter_runs h
  | copyRingTake => exact execCopyRingTake_runs h
  | shardArrival => exact execShardArrival_runs h
  | shardTimeout => exact execShardTimeout_runs h
  | linkDown => exact execLinkDown_runs h
  | linkRetrain => exact execLinkRetrain_runs h
  | linkUp => exact execLinkUp_runs h
  | getVersion => exact execGetVersion_runs h
  | getCapabilities => exact execGetCapabilities_runs h
  | negotiateAlgorithms => exact execNegotiateAlgorithms_runs h
  | getCertificate => exact execGetCertificate_runs h
  | challenge => exact execChallenge_runs h
  | getMeasurements => exact execGetMeasurements_runs h
  | spdmUnsupportedRequest => exact execSpdmUnsupportedRequest_runs h
  | attestSequence => exact execAttestSequence_runs h
  | warmReset => exact execWarmReset_runs h
  | channelTraining => exact execChannelTraining_runs h
  | fullServiceSwitch => exact execFullServiceSwitch_runs h
  | peerAccessRequest => exact execPeerAccessRequest_runs h
  | completionTimeout => exact execCompletionTimeout_runs h
  | cycleCharge => exact execCycleCharge_runs h

theorem exec_runs {i : Instr} (hi : isDeviceStep i = true) (hc : i ≠ .coldReset) : s.Runs (exec i s) := by
  simpa only [State.Does, hi] using exec_does s hc

theorem exec_tries {i : Instr} (hc : i ≠ .coldReset) : s.Tries (exec i s) := by
  cases hi : isDeviceStep i with
  | true => exact .inl (exec_runs hi hc)
  | false => simpa only [State.Does, hi] using exec_does s hc

/-- R363: a cold reset gives a next state too. -/
theorem exec_coldReset_next (s : State) : ∃ t, exec .coldReset s = .next t := ⟨_, rfl⟩

/-- A device step gives a next state. -/
theorem exec_next {i : Instr} (hi : isDeviceStep i = true) : ∃ t, exec i s = .next t := by
  by_cases hc : i = .coldReset
  · exact hc ▸ exec_coldReset_next s
  · obtain ⟨t, ht, -⟩ := exec_runs (s := s) hi hc
    exact ⟨t, ht⟩

/-- A next state that is no cold reset's keeps what `State.Keeps` says. -/
theorem exec_keeps {i : Instr} (hc : i ≠ .coldReset) (ht : exec i s = .next t) : s.Keeps t := by
  obtain ⟨u, hu, hk⟩ | ⟨-, hf⟩ := exec_tries (s := s) hc
  · rw [ht] at hu
    cases hu
    exact hk
  · rw [ht] at hf
    cases hf

/-! ### The end of a cycle -/

theorem State.Keeps.forceWake (h : s.Keeps t) {col cv : Nat} : s.Keeps (t.forceWake col cv) := by
  unfold State.forceWake
  extract_lets after u
  have hafter {t i} (h : s.Keeps t) (hi : isDeviceStep i = true) (hc : i ≠ .coldReset) : s.Keeps (after t i) := by
    obtain ⟨v, hv, hk⟩ := exec_runs (s := t) hi hc
    simp only [after, hv]
    exact h.trans hk
  have hu : s.Keeps u := hafter h rfl nofun
  clear_value u
  split
  · exact hu
  · split
    · split
      exacts [hu, hu.onConvoy]
    next i hi =>
      have hwake : isDeviceStep i = true ∧ i ≠ .coldReset := by
        have hmem := List.mem_of_find?_eq_some hi
        simp only [List.mem_cons, List.not_mem_nil, or_false] at hmem
        obtain rfl | rfl | rfl | rfl := hmem <;> exact ⟨rfl, nofun⟩
      dsimp only
      split
      exacts [hafter hu hwake.1 hwake.2, hu.onConvoy]

theorem State.Keeps.forceWakes (h : s.Keeps t) : s.Keeps t.forceWakes := h.foldl fun ht _ => ht.foldl fun hu _ => hu.forceWake

/-- R2, R77: the end of a cycle moves the clock by one. -/
theorem tick_wall (s : State) : s.tick.wall = s.wall + 1 := by
  unfold State.tick
  have hold := (State.Keeps.refl s).joinGroups.deliverAll.pruneHolds.chargeRest.countRecalls.forceWakes.endSlices
  generalize s.joinGroups.deliverAll.pruneHolds.chargeRest.countRecalls.forceWakes.endSlices = v at hold ⊢
  extract_lets u
  have hwall : u.wall = s.wall + 1 := congrArg (· + 1) hold.wall
  have hnew : u.Keeps (if u.refillDue then u.refill else u) := by
    split
    exacts [(State.Keeps.refl u).refill, .refl u]
  exact hnew.flushPosts.syncAst.wall.trans hwall

/-! ### The issue of a port -/

/-- A table that builds instructions only. -/
def BuildsInstrs {φ : Type} (t : List (Nat × (φ → Instr))) : Prop := ∀ p ∈ t, ∀ f, isDeviceStep (p.2 f) = false

theorem buildsInstrs_tableR : BuildsInstrs tableR := by
  simp only [BuildsInstrs, tableR, tableR000, tableR040, tableR080, tableR0C0, tableR100, tableR1C0, tableR209, tableR304, tableR340, List.forall_mem_append,
    List.forall_mem_cons, List.not_mem_nil, IsEmpty.forall_iff, implies_true, and_true]
  and_intros <;> exact fun _ => rfl

theorem buildsInstrs_tableI : BuildsInstrs tableI := by
  simp only [BuildsInstrs, tableI, tableI015, tableI1C6, tableI344, List.forall_mem_append,
    List.forall_mem_cons, List.not_mem_nil, IsEmpty.forall_iff, implies_true, and_true]
  and_intros <;> exact fun _ => rfl

theorem buildsInstrs_tableM : BuildsInstrs tableM := by
  simp only [BuildsInstrs, tableM, tableM008, tableM140, tableM180, tableM1C1, tableM240, tableM300, List.forall_mem_append,
    List.forall_mem_cons, List.not_mem_nil, IsEmpty.forall_iff, implies_true, and_true]
  and_intros <;> exact fun _ => rfl

theorem buildsInstrs_tableX : BuildsInstrs tableX := by
  simp only [BuildsInstrs, tableX, tableX200,
    List.forall_mem_cons, List.not_mem_nil, IsEmpty.forall_iff, implies_true, and_true]
  and_intros <;> exact fun _ => rfl

theorem buildsInstrs_tableB : BuildsInstrs tableB := by
  simp only [BuildsInstrs, tableB, tableB280, tableB2C0, tableB302, tableB345, List.forall_mem_append,
    List.forall_mem_cons, List.not_mem_nil, IsEmpty.forall_iff, implies_true, and_true]
  and_intros <;> exact fun _ => rfl

theorem BuildsInstrs.build {φ : Type} {t : List (Nat × (φ → Instr))} (ht : BuildsInstrs t) {opc : Nat} {f : Option φ} {i : Instr}
    (hb : build t opc f = some (.ok i)) : isDeviceStep i = false := by
  obtain ⟨mk, hmk, hb⟩ := Option.map_eq_some_iff.mp hb
  cases f with
  | none => cases hb
  | some x =>
    dsimp only at hb
    split_ifs at hb
    cases hb
    obtain ⟨l, l', rfl, -⟩ := List.lookup_eq_some_iff.mp hmk
    exact ht (opc, mk) (by simp) x

/-- R118: no word decodes to a device step. -/
theorem isDeviceStep_of_decode {w : IWord} {i : Instr} (hd : decode w = .ok i) : isDeviceStep i = false := by
  unfold decode at hd
  extract_lets opc at hd
  cases hb : (build tableR opc (decodeR w) <|> build tableI opc (decodeI w) <|> build tableM opc (decodeM w) <|>
    build tableX opc (decodeX w) <|> build tableB opc (decodeB w)) with
  | none =>
    rw [hb] at hd
    cases hd
    rfl
  | some r =>
    rw [hb] at hd
    obtain rfl : r = .ok i := hd
    simp only [Option.orElse_eq_orElse, Option.orElse_eq_or, Option.or_eq_some_iff] at hb
    obtain hb | ⟨-, hb | ⟨-, hb | ⟨-, hb | ⟨-, hb⟩⟩⟩⟩ := hb
    exacts [buildsInstrs_tableR.build hb, buildsInstrs_tableI.build hb, buildsInstrs_tableM.build hb, buildsInstrs_tableX.build hb,
      buildsInstrs_tableB.build hb]

/-- What a port picks keeps this, and the group of a picked instruction stands. -/
def Picked.Keeps (s : State) : Picked → Prop
  | .nothing => True
  | .faulted t => s.Keeps t
  | .run i t => s.Keeps t ∧ isDeviceStep i = false ∧ t.ctx plainHdr ≠ none

theorem pick_keeps (s : State) (quad port : Nat) : (s.pick quad port).Keeps s := by
  unfold State.pick
  split
  · trivial
  next cur _ =>
    extract_lets t
    have ht : s.Keeps t := (State.Keeps.refl s).set
    split
    · trivial
    next x hx =>
      have hgroup : t.ctx plainHdr ≠ none := by simp [hx]
      split
      · trivial
      · split
        · exact ht.faultAt
        · exact ⟨ht, rfl, hgroup⟩
        · split
          · exact ht.faultAt
          · exact ht.faultAt
          next hd =>
            split
            · exact ht.keepClause.closeIssue
            · exact ⟨ht, isDeviceStep_of_decode hd, hgroup⟩

theorem issueOn_runs (s : State) (quad port : Nat) : s.Runs (s.issueOn quad port) := by
  have hp := pick_keeps s quad port
  unfold State.issueOn
  split
  · exact (State.Keeps.refl s).runs
  next t he =>
    rw [he] at hp
    exact hp.runs
  next i t he =>
    rw [he] at hp
    obtain ⟨ht, hi, hx⟩ := hp
    have hc : i ≠ .coldReset := by
      rintro rfl
      cases hi
    obtain ⟨u, hu, hk⟩ | ⟨hn, -⟩ := exec_tries (s := t) hc
    · exact ⟨u, hu, ht.trans hk⟩
    · exact absurd hn hx

/-- Every act but the end of a cycle and a cold reset keeps this. -/
theorem perform_runs {a : Act} (ht : a ≠ .tick) (hc : a ≠ .event .coldReset) : s.Runs (s.perform a) := by
  have h := State.Keeps.refl s
  cases a with
  | tick => exact absurd rfl ht
  | upset u => exact h.strike.runs
  | read fn off len => exact h.bar0Read.runs
  | event i =>
    dsimp only [State.perform]
    split
    next hi => exact exec_runs hi fun h => hc (h ▸ rfl)
    · exact h.runs
  | issue quad port => exact issueOn_runs s quad port

/-- R2, R6: every act of the agenda gives a next state. -/
theorem perform_next (s : State) (a : Act) : ∃ t, s.perform a = .next t := by
  by_cases ht : a = .tick
  · subst ht
    dsimp only [State.perform, State.endCycle]
    split
    · obtain ⟨t, ht, -⟩ := issueOn_runs { s with agenda := .tick :: s.agenda } _ _
      exact ⟨t, ht⟩
    · exact ⟨_, rfl⟩
  · by_cases hc : a = .event .coldReset
    · exact hc ▸ exec_coldReset_next s
    · obtain ⟨t, ht, -⟩ := perform_runs (s := s) ht hc
      exact ⟨t, ht⟩
end

/-! ## One step -/

/-- The head of the agenda is performed, over the rest of it. -/
theorem step_cons {s : State} {a : Act} {rest : List Act} (h : s.agenda = a :: rest) : step s = { s with agenda := rest }.perform a := by
  rw [step, h]

/-- The agenda's own head put back gives the state again. -/
theorem agenda_eta {s : State} {as : List Act} (h : s.agenda = as) : { s with agenda := as } = s := by
  subst h; rfl

/-- R19: a candidate that is not pair-enabled beside what has issued does not issue. -/
theorem pick_of_unpaired {s : State} {quad port : Nat} {cur : Cur} {x : Ctx} (hc : s.candidate quad port = some cur)
    (hx : { s with cur := some cur }.ctx plainHdr = some x) (hu : s.unpaired x = true) : s.pick quad port = .nothing := by
  simp [State.pick, hc, hx, hu]

/-- R103, R120: the issue of a port whose candidate is not kept from issuing. -/
theorem issueOn_runs_decoded {s : State} {quad port : Nat} {cur : Cur} {x : Ctx} (hc : s.candidate quad port = some cur)
    (hx : { s with cur := some cur }.ctx plainHdr = some x) (hu : s.unpaired x = false) :
    match s.fetch x.core x.c.part x.c.prog x.pc with
      | .word w => match decode w with
        | .ok i => s.conflicts x i = false → s.issueOn quad port = exec i { s with cur := some cur }
        | .error .operandReserved => s.issueOn quad port = .next (x.faultAt { s with cur := some cur } cOperand)
        | .error .branchTarget => s.issueOn quad port = .next (x.faultAt { s with cur := some cur } cBranch)
      | .parity => s.issueOn quad port = exec .fetchParityRetry { s with cur := some cur }
      | .fault c => s.issueOn quad port = .next (x.faultAt { s with cur := some cur } c) := by
  cases hf : s.fetch x.core x.c.part x.c.prog x.pc with
  | fault c => simp [State.issueOn, State.pick, hc, hx, hu, hf]
  | parity => simp [State.issueOn, State.pick, hc, hx, hu, hf]
  | word w =>
    dsimp only
    cases hd : decode w with
    | error e => cases e <;> simp [State.issueOn, State.pick, hc, hx, hu, hf, hd]
    | ok i =>
      intro hn
      have hn : s.contends x i = false := by simpa [State.conflicts, hu] using hn
      simp [State.issueOn, State.pick, hc, hx, hu, hf, hd, hn]

/-- Settles O55: `step` performs the agenda's head, whose issue, cycle's end or device step the lemmas above open once. -/
theorem stepRunsDecoded : Obligations.StepRunsDecoded := by
  unfold Obligations.StepRunsDecoded
  refine ⟨fun s quad port rest cur x hs => ?_, fun s rest hs => ?_, fun s i rest hs hi => ?_⟩
  · intro u t hc hx
    have hstep : step s = u.issueOn quad port := step_cons hs
    refine ⟨fun hu => ?_, fun hu => ?_⟩
    · rw [hstep, State.issueOn, pick_of_unpaired hc hx hu]
    · rw [hstep]
      exact issueOn_runs_decoded hc hx hu
  · intro u
    have hstep : step s = u.endCycle := step_cons hs
    rw [hstep, State.endCycle]
    cases u.nextIssue with
    | none => rfl
    | some qp =>
      have hu : { u with agenda := .tick :: u.agenda } = s := agenda_eta hs
      simp only [hu]
  · rw [step_cons hs, State.perform, hi]
    rfl

/-- Settles O58: `step` performs an act, and every act gives a next state. -/
theorem stepNeverStops : Obligations.StepNeverStops := by
  unfold Obligations.StepNeverStops
  intro s
  unfold step
  split
  exacts [perform_next _ _, perform_next _ _]

/-- Settles O59: `State.Keeps` holds of every answer of `exec` but a cold reset's, and of a cycle's end until its clock moves. -/
theorem wallClock : Obligations.WallClock := by
  unfold Obligations.WallClock
  refine ⟨fun i s t ht => ?_, fun s rest hs => ?_⟩
  · by_cases hc : i = .coldReset
    · exact .inr hc
    · exact .inl (exec_keeps hc ht).wall
  · have hstep : step s = { s with agenda := rest }.endCycle := step_cons hs
    rw [hstep, State.endCycle]
    cases { s with agenda := rest }.nextIssue with
    | none => exact ⟨_, rfl, tick_wall _⟩
    | some qp =>
      have hu : { s with agenda := .tick :: rest } = s := agenda_eta hs
      obtain ⟨t, ht, hk⟩ := issueOn_runs s qp.1 qp.2
      exact ⟨t, by simpa only [hu] using ht, hk.wall, hk.agenda⟩

end Sys2Proof.Machine
end

section
/-!
PROOFS. The host interface (O49).
-/

namespace Sys2Proof.Machine

/-! ## Numbers as bytes (R3) -/

@[simp] theorem bytesOf_length (n x : Nat) : (bytesOf n x).length = n := by simp [bytesOf]

theorem bytesOf_succ (n x : Nat) : bytesOf (n + 1) x = BitVec.ofNat 8 x :: bytesOf n (x / 256) := by
  have hdiv (k : Nat) : x / 2 ^ (8 * (k + 1)) = x / 256 / 2 ^ (8 * k) := by
    rw [Nat.div_div_eq_div_mul, Nat.mul_succ, Nat.pow_add, Nat.mul_comm]
  simp [bytesOf, List.range_succ_eq_map, hdiv]

theorem numberOf_bytesOf (n x : Nat) : numberOf (bytesOf n x) = x % 2 ^ (8 * n) := by
  induction n generalizing x with
  | zero => simp [bytesOf, numberOf, Nat.mod_one]
  | succ n ih =>
    have hcons : numberOf (bytesOf (n + 1) x) = x % 256 + 256 * numberOf (bytesOf n (x / 256)) := by
      simp [bytesOf_succ, numberOf]
    rw [hcons, ih, show 2 ^ (8 * (n + 1)) = 256 * 2 ^ (8 * n) by rw [Nat.mul_succ, Nat.pow_add, Nat.mul_comm], Nat.mod_mul]

theorem numberOf_lt (bs : List Byte) : numberOf bs < 2 ^ (8 * bs.length) := by
  induction bs with
  | nil => simp [numberOf]
  | cons b bs ih =>
    have hb : b.toNat < 256 := b.isLt
    have hcons : numberOf (b :: bs) = b.toNat + 256 * numberOf bs := rfl
    have hpow : 2 ^ (8 * (b :: bs).length) = 256 * 2 ^ (8 * bs.length) := by
      rw [List.length_cons, Nat.mul_succ, Nat.pow_add, Nat.mul_comm]
    omega

theorem num_writeNum {m : Memory} (hm : Memory.wf m = true) (a n x : Nat) : (m.writeNum a n x).num a n = x % 2 ^ (8 * n) := by
  have hb : (m.writeBytes a (bytesOf n x)).bytes a n = bytesOf n x := by
    simpa using bytes_writeBytes hm a (bytesOf n x)
  rw [Memory.num, Memory.writeNum, hb, numberOf_bytesOf]

theorem num_lt (m : Memory) (a n : Nat) : m.num a n < 2 ^ (8 * n) := by
  simpa only [Memory.num, bytes_length] using numberOf_lt (m.bytes a n)

/-! ## Registers and mailboxes (R340, R357, R358) -/

theorem exec_dbell {s : State} {fn : Nat} (hup : s.fnUp fn = true) (hstay : s.partLeaving fn = false) :
    exec (.dbell fn) s = .next ((List.range (slotsOf fn)).foldl (fun t slot => t.judge fn slot) s) := by
  change Host.Outcome.next (s.scanAll fn) = _
  simp [State.scanAll, hup, hstay]

/-- R340: a write changes the carve-out register alone. -/
theorem writeCarve_eq (s : State) (v : DWord) : s.writeCarve v = { s with fw := { s.fw with carve := (s.writeCarve v).fw.carve } } := rfl

theorem carve_writeCarve_locked {s : State} (v : DWord) (h : s.fw.carve.getLsbD 0 = true) : (s.writeCarve v).fw.carve = s.fw.carve := by
  have hl : s.carveLocked = true := h
  simp only [State.writeCarve, hl, if_true]
  generalize s.fw.carve = c at h
  apply BitVec.eq_of_getLsbD_eq
  intro i _
  cases i with
  | zero => simp [h]
  | succ i => simp

theorem carve_writeCarve_open {s : State} (v : DWord) (h : s.fw.carve.getLsbD 0 = false) :
    (s.writeCarve v).fw.carve = (v &&& 0x000FFFFFFC00000E) ||| (v &&& 1) := by
  have hl : s.carveLocked = false := h
  simp [State.writeCarve, hl]

theorem bitsOf_toNat {w : Nat} (x : BitVec w) (lo n : Nat) : bitsOf x.toNat lo n = (x.extractLsb' lo n).toNat := by
  simp [bitsOf, Nat.shiftRight_eq_div_pow]

/-- The bits of an open register that the mask passes are those written. -/
theorem bitsOf_maskCarve {v : DWord} {lo n : Nat} (hm : ∀ i < n, (0x000FFFFFFC00000E : DWord).getLsbD (lo + i) = true) :
    bitsOf ((v &&& 0x000FFFFFFC00000E) ||| (v &&& 1)).toNat lo n = bitsOf v.toNat lo n := by
  rw [bitsOf_toNat, bitsOf_toNat]
  congr 1
  apply BitVec.eq_of_getLsbD_eq
  intro i hi
  simp only [BitVec.getLsbD_extractLsb', BitVec.getLsbD_or, BitVec.getLsbD_and, hm i hi, Bool.and_true]
  cases v.getLsbD (lo + i) <;> simp

/-! An element put under its own key is the one found there. -/

theorem find?_updateWhere {α : Type} {p : α → Bool} {x : α} (hx : p x = true) (xs : List α) (h : xs.any p = true) :
    (updateWhere p (fun _ => x) xs).find? p = some x := by
  induction xs with
  | nil => simp at h
  | cons y ys ih =>
    cases hy : p y with
    | true => simp [updateWhere, hy, hx]
    | false =>
      have h' : ys.any p = true := by simpa [hy] using h
      simpa [updateWhere, hy] using ih h'

theorem find?_upsert {α : Type} {p : α → Bool} {x : α} (hx : p x = true) (xs : List α) : (upsert p x xs).find? p = some x := by
  unfold upsert
  split
  next h => exact find?_updateWhere hx xs h
  next h =>
    have hnone : xs.find? p = none := by simpa using h
    simp [List.find?_append, hnone, hx]

@[simp] theorem box_setBox (s : State) (b : Mailbox) : (s.setBox b).box b.fn = b := by
  have hfind := find?_upsert (p := (·.fn == b.fn)) (x := b) (by simp) s.fw.boxes
  simp only [State.box, State.setBox, hfind, Option.getD_some]

@[simp] theorem box_fn (s : State) (fn : Nat) : (s.box fn).fn = fn := by
  unfold State.box
  cases h : s.fw.boxes.find? (·.fn == fn) with
  | none => rfl
  | some b => simpa using List.find?_some h

theorem box_setBox_of {s : State} {b : Mailbox} {fn : Nat} (h : b.fn = fn) : (s.setBox b).box fn = b := h ▸ box_setBox s b

theorem bar0_mbctl (s : State) (fn : Nat) : s.bar0 fn 0x1000 = .mbctl := by simp [State.bar0]

theorem bar0_request (s : State) (fn : Nat) {off : Nat} (hlo : 0x1008 ≤ off) (hhi : off < 0x1800) :
    s.bar0 fn off = .request (off - 0x1000) := by
  have h1 : ¬off < 0x1004 := by omega
  have h2 : off < 0x1008 + 0x7F8 := by omega
  simp [State.bar0, hlo, h1, h2, show off ≠ 8 by omega]

/-- R358: what a write to MBCTL makes of a mailbox. -/
theorem writeCtl_spec (b : Mailbox) (x : Nat) :
    (b.writeCtl x).fn = b.fn ∧ (b.writeCtl x).area = b.area ∧ (b.writeCtl x).done = (b.done && !x.testBit 2) ∧
    (b.writeCtl x).busy = (b.busy || x.testBit 0) ∧
    (b.writeCtl x).ovr = ((b.ovr && !x.testBit 3) || (b.busy && x.testBit 0)) ∧
    (b.writeCtl x).req = if x.testBit 0 && !b.busy then Memory.bytes b.area 8 0x7F8 else b.req := by
  unfold Mailbox.writeCtl
  extract_lets c
  cases x.testBit 0 <;> cases hb : b.busy <;> simp [c, hb]

/-- R347, R358: the mailbox holds that, under the stamp of its request. -/
theorem box_writeMailbox (s : State) (fn x : Nat) : ∃ stamp, (s.writeMailbox fn x).box fn = { (s.box fn).writeCtl x with stamp } := by
  have hfn : ((s.box fn).writeCtl x).fn = fn := (writeCtl_spec _ x).1.trans (box_fn s fn)
  unfold State.writeMailbox
  extract_lets b c u
  split
  · exact ⟨c.stamp, box_setBox_of hfn⟩
  · exact ⟨s.nextId, box_setBox_of (b := { c with stamp := s.nextId }) hfn⟩

/-- R357, R358: DBELL and MBCTL lie below the request area. -/
theorem bar0_above {s : State} {fn off : Nat} (h : 0x1008 ≤ off) : s.bar0 fn off ≠ .dbell ∧ s.bar0 fn off ≠ .mbctl := by
  have h8 : off ≠ 8 := by omega
  have hctl : ¬off < 0x1000 + 4 := by omega
  simp only [State.bar0, h8, hctl, if_false, decide_false, Bool.and_false, Bool.false_eq_true]
  cases s.fnPart fn with
  | none => split_ifs <;> simp
  | some p =>
    dsimp only
    repeat' split
    all_goals simp

/-- R357, R358: there a write goes byte by byte. -/
theorem exec_registerWrite_bytes {s : State} {fn off : Nat} (data : List Byte) (hdev : off ≠ deviceControl2)
    (hbell : s.bar0 fn off ≠ .dbell) (hctl : s.bar0 fn off ≠ .mbctl) : exec (.registerWrite fn off data) s =
      .next (data.zipIdx.foldl (fun t bi => t.writeReg1 fn (off + bi.2) bi.1) s) := by
  change execRegisterWrite fn off data s = _
  unfold execRegisterWrite
  rw [if_neg hdev]
  split
  · contradiction
  · contradiction
  · rfl

/-- R358: a byte written to the request area. -/
theorem area_writeReg1 (s : State) (fn : Nat) {off : Nat} (b : Byte) (hlo : 0x1008 ≤ off) (hhi : off < 0x1800) :
    ((s.writeReg1 fn off b).box fn).area = Memory.write (s.box fn).area (off - 0x1000) b ∧ (s.writeReg1 fn off b).store = s.store := by
  have hbox := box_setBox_of (s := s) (b := { s.box fn with area := Memory.write (s.box fn).area (off - 0x1000) b }) (box_fn s fn)
  simp only [State.writeReg1, bar0_request s fn hlo hhi]
  exact ⟨congrArg Mailbox.area hbox, rfl⟩

theorem area_writeReg1s (s : State) (fn off k : Nat) (bs : List Byte) (hlo : 0x1008 ≤ off + k) (hhi : off + k + bs.length ≤ 0x1800) :
    let t := (bs.zipIdx k).foldl (fun t bi => t.writeReg1 fn (off + bi.2) bi.1) s
    (t.box fn).area = Memory.writeBytes (s.box fn).area (off + k - 0x1000) bs ∧ t.store = s.store := by
  induction bs generalizing s k with
  | nil => exact ⟨rfl, rfl⟩
  | cons b bs ih =>
    simp only [List.length_cons] at hhi
    obtain ⟨hbyte, hkept⟩ := area_writeReg1 s fn b hlo (by omega)
    obtain ⟨harea, hstore⟩ := ih (s.writeReg1 fn (off + k) b) (k + 1) (by omega) (by omega)
    refine ⟨harea.trans ?_, hstore.trans hkept⟩
    rw [hbyte, Memory.writeBytes, show off + (k + 1) - 0x1000 = off + k - 0x1000 + 1 by omega]

theorem exec_registerWrite_request {s : State} {fn off : Nat} {data : List Byte} (hlo : 0x1008 ≤ off) (hhi : off + data.length ≤ 0x1800)
    (hwf : Memory.wf (s.box fn).area = true) : ∃ t, exec (.registerWrite fn off data) s = .next t ∧
      Memory.bytes (t.box fn).area (off - 0x1000) data.length = data ∧ t.store = s.store := by
  have hdev : off ≠ deviceControl2 := by
    have : deviceControl2 = 4294967296 := rfl
    omega
  obtain ⟨hbell, hctl⟩ := bar0_above (s := s) (fn := fn) hlo
  obtain ⟨harea, hstore⟩ := area_writeReg1s s fn off 0 data hlo hhi
  exact ⟨_, exec_registerWrite_bytes data hdev hbell hctl, harea ▸ bytes_writeBytes hwf _ data, hstore⟩

/-- R340, R357: BAR0 shows the carve-out register read-only. -/
theorem bar0_carve (s : State) {k : Nat} (hk : k < 8) : s.bar0 0 (0x100 + k) = .other := by
  have h : ∀ k < 8, s.bar0 0 (0x100 + k) = .other := by
    intro k hk
    interval_cases k <;> simp [State.bar0]
  exact h k hk

theorem exec_registerWrite_carve {s : State} {data : List Byte} (h : data.length ≤ 8) : exec (.registerWrite 0 0x100 data) s = .next s := by
  have hkept (bs : List Byte) (k : Nat) (hk : k + bs.length ≤ 8) :
      (bs.zipIdx k).foldl (fun t bi => t.writeReg1 0 (0x100 + bi.2) bi.1) s = s := by
    induction bs generalizing k with
    | nil => rfl
    | cons b bs ih =>
      simp only [List.length_cons] at hk
      have hbyte : s.writeReg1 0 (0x100 + k) b = s := by simp only [State.writeReg1, bar0_carve s (k := k) (by omega)]
      simpa [hbyte] using ih (k + 1) (by omega)
  have hplace : s.bar0 0 0x100 = .other := bar0_carve s (k := 0) (by omega)
  rw [exec_registerWrite_bytes data (by decide) (by simp [hplace]) (by simp [hplace]), hkept data 0 (by omega)]

theorem exec_registerWrite_mbctl {s : State} {fn x : Nat} (hx : x < 2 ^ 32) :
    exec (.registerWrite fn 0x1000 (bytesOf 4 x)) s = .next (s.writeMailbox fn x) := by
  have hval : numberOf (bytesOf 4 x) = x := by rw [numberOf_bytesOf, Nat.mod_eq_of_lt hx]
  change execRegisterWrite fn 0x1000 (bytesOf 4 x) s = _
  unfold execRegisterWrite
  rw [if_neg (by decide), bar0_mbctl, hval]
  rfl

/-- R359: AtomicOp Requester Enable of a partition follows bit 6. -/
theorem exec_registerWrite_deviceControl2 (s : State) (part : Nat) (data : List Byte) :
    ∃ t, exec (.registerWrite (part + 1) deviceControl2 data) s = .next t ∧ (part ∈ t.fw.atomicEn ↔ (numberOf data).testBit 6 = true) ∧
      t.store = s.store := by
  refine ⟨_, (if_pos rfl : execRegisterWrite (part + 1) deviceControl2 data s = _), ?_⟩
  simp only [Nat.succ_ne_zero, if_false, Nat.add_sub_cancel, and_true]
  cases (numberOf data).testBit 6 <;> simp

/-! ## Usage counters (R345) -/

/-- R345: one slot of the window, read whole. -/
theorem counterBytes_slot (s : State) {off : Nat} (hoff : off % 16 = 0) : s.counterBytes off 16 = s.counterSlot off := by
  have hslot : 16 * (off / 16) = off := by omega
  have hone : (off + 16 + 15) / 16 - off / 16 = 1 := by omega
  have hlen : (s.counterSlot off).1.length = 16 := by
    unfold State.counterSlot
    extract_lets
    split_ifs <;> simp
  simp only [State.counterBytes, hone, hoff, State.counterSlots, hslot, List.append_nil, List.drop_zero]
  rw [List.take_of_length_le hlen.le]

theorem counterSlot_eq (s : State) {off part acct k : Nat} (hoff : off = part * 0x10000 + acct * 0x400 + k * 0x10) (hacct : acct < 64)
    (hk : k < 8) : s.counterSlot off =
      if s.allowed part acct k then (bytesOf 8 (s.usage part acct k) ++ bytesOf 8 0, s)
      else (bytesOf 8 0 ++ bytesOf 4 1 ++ bytesOf 4 0, s.denyRead part (acct * 0x400 + k * 0x10)) := by
  have hpart : off / 0x10000 = part := by omega
  have hacct' : off % 0x10000 / 0x400 = acct := by omega
  have hk' : off % 0x400 / 0x10 = k := by omega
  have hplace : off % 0x10000 / 16 * 16 = acct * 0x400 + k * 0x10 := by omega
  simp only [State.counterSlot, hpart, hacct', hk', hplace, ge_iff_le, show ¬8 ≤ k by omega, if_false]

theorem exec_counterSlotRead (s : State) {off : Nat} (hoff : off % 16 = 0) (hin : off + 16 ≤ 0x300000) :
    exec (.counterSlotRead off 16) s = .next { (s.counterSlot off).2 with reply := (s.counterSlot off).1 } := by
  change execCounterSlotRead off 16 s = _
  rw [execCounterSlotRead, if_neg (by omega), counterBytes_slot s hoff]

/-! ## Posted writes of the module (R82) -/

/-- What performing posted writes may change: memories other than the SRAM, what is known of them, and the operations on their way. -/
def State.PerformsTo (s t : State) : Prop := t = { s with store := { t.store with pf := s.store.pf }, coh := t.coh, ops := t.ops }

theorem State.PerformsTo.trans {s t u : State} (h : s.PerformsTo t) (h' : t.PerformsTo u) : s.PerformsTo u := by
  unfold State.PerformsTo at *
  rw [h', h]

theorem State.PerformsTo.foldl {α : Type} {f : State → α → State} (h : ∀ (t : State) a, t.PerformsTo (f t a)) (l : List α) (s : State) :
    s.PerformsTo (l.foldl f s) := List.foldlRecOn l f (motive := s.PerformsTo) rfl fun _ ht a _ => ht.trans (h _ a)

theorem poke_performs (s : State) (own : Option Nat) (loc : Loc) (a : Nat) (bs : List Byte) : s.PerformsTo (s.poke own loc a bs).1 := by
  cases loc <;> rfl

@[simp] theorem State.poke_ops (s : State) (own : Option Nat) (loc : Loc) (a : Nat) (bs : List Byte) :
    (s.poke own loc a bs).1.ops = s.ops := by cases loc <;> rfl

theorem performPosted_performs (s : State) (o : Op) : s.PerformsTo (s.performPosted o) :=
  have hpokes := State.PerformsTo.foldl (fun t (p : Piece) => poke_performs t none p.loc p.addr (o.bytes p)) o.pieces s
  hpokes.trans (u := s.performPosted o) rfl

theorem flushPosted_performs (s : State) : s.PerformsTo s.flushPosted := State.PerformsTo.foldl performPosted_performs _ s

theorem performPosted_ops (s : State) (o : Op) : (s.performPosted o).ops = s.ops.filter (·.id != o.id) := by
  have hpokes : (o.pieces.foldl (fun t p => (t.poke none p.loc p.addr (o.bytes p)).1) s).ops = s.ops :=
    List.foldlRecOn (motive := fun (t : State) => t.ops = s.ops) o.pieces _ rfl fun t ht _ _ => (t.poke_ops ..).trans ht
  rw [State.performPosted, State.dropOp, hpokes]

theorem mem_performPosteds {l : List Op} {s : State} {q : Op} (hq : q ∈ (l.foldl (fun t o => t.performPosted o) s).ops) :
    q ∈ s.ops ∧ ∀ o ∈ l, q.id ≠ o.id := by
  induction l generalizing s with
  | nil => exact ⟨hq, by simp⟩
  | cons o l ih =>
    rw [List.foldl_cons] at hq
    obtain ⟨hmem, hl⟩ := ih hq
    rw [performPosted_ops, List.mem_filter] at hmem
    exact ⟨hmem.1, List.forall_mem_cons.mpr ⟨by simpa using hmem.2, hl⟩⟩

/-- R82: no posted write is on its way any more. -/
theorem flushPosted_none (s : State) : ∀ o ∈ s.flushPosted.ops, o.kind ≠ .posted := by
  intro o ho hk
  obtain ⟨hmem, hne⟩ := mem_performPosteds ho
  exact hne o (List.mem_filter.mpr ⟨hmem, by simp [hk]⟩) rfl

/-! ## BAR2 (R359) -/

theorem State.PerformsTo.kept {s t : State} (h : s.PerformsTo t) : t.obj = s.obj ∧ t.fw = s.fw ∧ t.store.pf = s.store.pf := by
  rw [h]; exact ⟨rfl, rfl, rfl⟩

theorem State.ReadsTo.kept {s t : State} (h : s.ReadsTo t) :
    t.store = s.store ∧ t.obj = s.obj ∧ t.eng = s.eng ∧ t.fw.carve = s.fw.carve := by
  rw [h]; exact ⟨rfl, rfl, rfl, rfl⟩

theorem misses_one {p : Partition} {off pa : Nat} (h : p.bar2 off = some pa) : p.misses off 1 = none := by
  simp [Partition.misses, h]

theorem barByte_untagged {s : State} {pa : Nat} (h : s.granuleTag pa = none) :
    s.barByte pa = if s.inCarveOut pa then 0xFF else Memory.read s.store.dev pa := by
  simp [State.barByte, h]

theorem barStore_untagged {s : State} {pa : Nat} (h : s.granuleTag pa = none) (b : Byte) :
    s.barStore pa b = if s.inCarveOut pa || s.inAst pa then s else (s.devWrite none pa [b]).1 := by
  simp [State.barStore, h]

theorem read_barStore {s : State} {pa : Nat} (h : s.granuleTag pa = none) (hwf : s.store.wf = true) (b : Byte) (a : Nat) :
    Memory.read (s.barStore pa b).store.dev a =
      if a = pa ∧ s.inCarveOut pa = false ∧ s.inAst pa = false then b else Memory.read s.store.dev a := by
  have hdev : Memory.wf s.store.dev = true := ((store_wf_iff _).1 hwf).1
  have hdevWrite : (s.devWrite none pa [b]).1.store.dev = Memory.write s.store.dev pa b := rfl
  rw [barStore_untagged h]
  cases hc : s.inCarveOut pa
  · cases ha : s.inAst pa
    · by_cases hpa : a = pa
      · simpa [hdevWrite, hpa] using read_write_same hdev pa b
      · simpa [hdevWrite, hpa] using read_write_other s.store.dev b hpa
    · simp
  · simp

theorem exec_bar2Access_write {s : State} {p : Partition} {off pa : Nat} (hp : s.part? p.pnum = some p) (hoff : p.bar2 off = some pa)
    (b : Byte) : exec (.bar2Access p.pnum off 1 (some [b])) s = .next (s.barStore pa b) := by
  change execBar2Access p.pnum off 1 (some [b]) s = _
  simp [execBar2Access, hp, misses_one hoff, State.barWrite, hoff]

theorem exec_bar2Access_read {s : State} {p : Partition} {off pa : Nat} (hp : s.part? p.pnum = some p) (hoff : p.bar2 off = some pa) :
    let w := s.flushPosted.checkBytes p.pnum .dev pa 1
    exec (.bar2Access p.pnum off 1 none) s = .next { w with reply := [w.barByte pa] } := by
  have hpart : s.flushPosted.part? p.pnum = some p := by rw [← hp, State.part?, State.part?, (flushPosted_performs s).kept.1]
  change execBar2Access p.pnum off 1 none s = _
  simp [execBar2Access, hpart, misses_one hoff, State.barRead, hoff]

/-- R82, R359: a BAR2 read shows what the posted writes before it have stored. -/
theorem bar2Access_read {s : State} {p : Partition} {off pa : Nat} (hp : s.part? p.pnum = some p) (hoff : p.bar2 off = some pa)
    (htag : s.granuleTag pa = none) : ∃ t, exec (.bar2Access p.pnum off 1 none) s = .next t ∧
      t.reply = [if s.inCarveOut pa then 0xFF else Memory.read s.flushPosted.store.dev pa] ∧ t.store = s.flushPosted.store := by
  obtain ⟨hstore, hobj, -, hcarve⟩ := (checkBytes_reads s.flushPosted p.pnum .dev pa 1).kept
  obtain ⟨hobj', hfw, -⟩ := (flushPosted_performs s).kept
  refine ⟨_, exec_bar2Access_read hp hoff, ?_, hstore⟩
  rw [barByte_untagged (by rw [← htag, State.granuleTag, State.granuleTag, hobj, hobj']), hstore]
  simp only [State.inCarveOut, hcarve, hfw]
  rfl

/-! ## AtomicOps (R359) -/

/-- R359: the CAS on VERSION: the new value is read back there, and the old one is the answer. -/
theorem exec_hostAtomicopCompleter_version {s : State} {off : Nat} (x y : Nat) (hsvc : s.fw.svc ≠ .rom) (hoff : isPfVersion off = true)
    (hwf : s.store.wf = true) :
    let old := Memory.num s.store.pf off 8
    ∃ t, exec (.hostAtomicopCompleter 0 0 off 8 .cas x y) s = .next t ∧ t.reply = bytesOf 8 old ∧
      Memory.num t.store.pf off 8 = (if old = x % 2 ^ 64 then y % 2 ^ 64 else old) ∧
      t.store = { s.flushPosted.store with pf := t.store.pf } := by
  intro old
  have hpf : Memory.wf s.store.pf = true := ((store_wf_iff _).1 hwf).2.2.2.2.2.1
  obtain ⟨-, hfw, hpf'⟩ := (flushPosted_performs s).kept
  have hnew : atomicOp .cas 8 old x y % 2 ^ (8 * 8) = if old = x % 2 ^ 64 then y % 2 ^ 64 else old := by
    have hold : old < 2 ^ 64 := num_lt s.store.pf off 8
    dsimp only [atomicOp]
    split <;> omega
  let t := { s.flushPosted with
    reply := bytesOf 8 old
    store := { s.flushPosted.store with pf := Memory.writeNum s.store.pf off 8 (atomicOp .cas 8 old x y) } }
  have hrun : execHostAtomicopCompleter 0 0 off 8 .cas x y s = .next t := by
    simp [execHostAtomicopCompleter, hfw, hsvc, hoff, hpf', t, old]
  exact ⟨t, hrun, rfl, (num_writeNum hpf off 8 _).trans hnew, rfl⟩

/-! ## Copy rings (R174) -/

@[simp] theorem State.blackBox_eng (s : State) (e p u a d : Nat) : (s.blackBox e p u a d).eng = s.eng :=
  (blackBox_reads s e p u a d).kept.2.2.1

@[simp] theorem State.devWriteNum_eng (s : State) (pa n x : Nat) : (s.devWriteNum pa n x).eng = s.eng := rfl

@[simp] theorem State.ramWrite_eng (s : State) (pf : Bool) (a : Nat) (bs : List Byte) : (s.ramWrite pf a bs).1.eng = s.eng := by
  cases pf <;> rfl

@[simp] theorem State.ramWriteNum_eng (s : State) (pf : Bool) (a n x : Nat) : (s.ramWriteNum pf a n x).eng = s.eng := State.ramWrite_eng ..

@[simp] theorem State.flushPosts_eng (s : State) : s.flushPosts.eng = s.eng :=
  List.foldlRecOn (motive := fun (t : State) => t.eng = s.eng) _ _ rfl fun t ht _ _ => (t.ramWriteNum_eng ..).trans ht

@[simp] theorem State.ringWrite_eng (s : State) (pf : Bool) (part base n : Nat) (entry : List Byte) :
    (s.ringWrite pf part base n entry).eng = s.eng := by
  dsimp only [State.ringWrite]
  split <;> simp

/-- R174: a packet that is dropped leaves the engines as they are. -/
@[simp] theorem State.dropPacket_eng (s : State) (part : Nat) (code : BitVec 16) (addr access : Nat) :
    (s.dropPacket part code addr access).eng = s.eng := by
  unfold State.dropPacket State.faultEntry
  split <;> simp

@[simp] theorem State.ringContext_eng (s : State) (part : Nat) : (s.ringContext part).2.2.eng = s.eng := rfl

theorem takePacket_eng_bad (s : State) (part : Nat) (peer : Bool) {q : Packet} (h : q.flag 2 = true ∨ q.bad = true) :
    (s.takePacket part peer q).eng = s.eng := by
  unfold State.takePacket
  cases hf : q.flag 2
  · simp [h.resolve_left (by simp [hf])]
  · simp

/-- One side of the copy of a ring's packet: in device memory, or in the scratchpad, of which a ring has no bank. -/
def ringSide (part ctx : Nat) (scratch : Bool) : Side :=
  { via := ⟨coreOf 0xFFFF, none⟩, part, ctx, epoch := none, scratch, banks := [] }

theorem takePacket_eng_none {s : State} {part : Nat} {peer : Bool} {q : Packet} (hflag : q.flag 2 = false) (hbad : q.bad = false)
    (hring : (s.ringContext part).1 = none) : (s.takePacket part peer q).eng = s.eng := by
  simp [State.takePacket, hflag, hbad, hring]

/-- R174: a ring's packet becomes one copy, once both of its sides translate. -/
theorem takePacket_eng_rows {s : State} {part ctx : Nat} {peer : Bool} {q : Packet} (hflag : q.flag 2 = false) (hbad : q.bad = false)
    (hempty : q.empty = false) (hring : (s.ringContext part).1 = some ctx)
    (hsrc : (s.ringContext part).2.2.reachesRows (ringSide part ctx (q.flag 0)) .read q.srcRows)
    (hdst : ∀ w, (s.ringContext part).2.2.probeRows (ringSide part ctx (q.flag 0)) .read q.srcRows = .ok w →
      w.reachesRows (ringSide part ctx (q.flag 1)) .write q.dstRows) :
    ∃ j, (s.takePacket part peer q).eng = { s.eng with jobs := s.eng.jobs ++ [j] } ∧ j.packet = { q with zero := true } ∧
      j.src = .ring peer ∧ j.part = part ∧ j.ctx = ctx := by
  obtain ⟨u, hu⟩ := hsrc
  obtain ⟨w, hw⟩ := hdst u hu
  have heng : w.eng = s.eng := (probeRows_reads hw).kept.2.2.1.trans (probeRows_reads hu).kept.2.2.1
  rw [ringSide] at hu hw
  simp only [State.takePacket, hflag, hbad, hring, hempty, hu, hw, heng, Bool.false_eq_true, if_false]
  exact ⟨_, rfl, rfl, rfl, rfl, rfl⟩

theorem checkBytes_clean {s : State} (hp : s.coh.poison = []) (hf : s.coh.flips = []) (part : Nat) (loc : Loc) (a n : Nat) :
    s.checkBytes part loc a n = s := by
  have hsector (l : Nat) : s.checkSector part l = s := by simp [State.checkSector, hf]
  have hsectors (ls : List Nat) : ls.foldl (fun (t : State) l => t.checkSector part l) s = s :=
    List.foldlRecOn (motive := (· = s)) ls _ rfl fun t ht l _ => ht ▸ hsector l
  cases loc <;> simp [State.checkBytes, State.readEccs, hsectors, hp]

theorem checkBytes_devNum (s : State) (part : Nat) (loc : Loc) (a n b m : Nat) :
    (s.checkBytes part loc a n).devNum b m = s.devNum b m := by
  simp only [State.devNum, (checkBytes_reads s part loc a n).kept.1]

/-- The packets that the engine has taken from a ring, and the slot of the next. -/
def State.ringTaken (s : State) (p : Partition) (peer : Bool) : Nat := s.devNum (p.copyRing peer + 8) 8

def State.ringSlot (s : State) (p : Partition) (peer : Bool) : Nat := p.copyRing peer + 64 + 64 * (s.ringTaken p peer % 1024)

/-- R174: what the engine does with the packet of that slot, its bytes checked: dropped for a stored error, or taken. -/
def State.serveRing (s : State) (p : Partition) (peer : Bool) (q : Packet) : State :=
  let t := s.checkBytes p.pnum .dev (s.ringSlot p peer) 64
  if t.coh.poison.contains (.sector (lineOf (s.ringSlot p peer))) then t.dropPacket p.pnum cUncorrectable 0 1
  else t.takePacket p.pnum peer q

theorem exec_copyRingTake {s : State} {p : Partition} {peer : Bool} (hp : s.part? p.pnum = some p) :
    exec (.copyRingTake p.pnum peer) s =
      if s.devNum (s.ringSlot p peer + 0x3F) 1 ≠ ringMark (s.ringTaken p peer) then .next s
      else .next ((s.serveRing p peer (Packet.of (s.devNum (s.ringSlot p peer) 64) true)).devWriteNum (p.copyRing peer + 8) 8
        (s.ringTaken p peer + 1)) := by
  change execCopyRingTake p.pnum peer s = _
  simp only [execCopyRingTake, hp, State.serveRing, State.ringSlot, State.ringTaken, checkBytes_devNum]
  refine ite_congr rfl (fun _ => rfl) fun _ => ?_
  exact (apply_ite (fun t : State => Host.Outcome.next (t.devWriteNum _ 8 _)) _ _ _).symm

theorem devNum_devWriteNum {s : State} (h : s.store.wf = true) (pa n x : Nat) : (s.devWriteNum pa n x).devNum pa n = x % 2 ^ (8 * n) :=
  num_writeNum ((store_wf_iff _).1 h).1 pa n x

theorem serveRing_wf {s : State} (h : s.store.wf = true) (p : Partition) (peer : Bool) (q : Packet) :
    (s.serveRing p peer q).store.wf = true := by
  unfold State.serveRing
  extract_lets t
  have ht : s.Keeps t := (State.Keeps.refl s).checkBytes
  split
  · exact ht.dropPacket.wf h
  · exact ht.takePacket.wf h

theorem serveRing_eng_bad (s : State) (p : Partition) (peer : Bool) {q : Packet} (h : q.flag 2 = true ∨ q.bad = true) :
    (s.serveRing p peer q).eng = s.eng := by
  unfold State.serveRing
  extract_lets t
  have ht : t.eng = s.eng := (checkBytes_reads s p.pnum .dev _ 64).kept.2.2.1
  split
  · simpa using ht
  · exact (takePacket_eng_bad t _ _ h).trans ht

theorem serveRing_clean {s : State} (hp : s.coh.poison = []) (hf : s.coh.flips = []) (p : Partition) (peer : Bool) (q : Packet) :
    s.serveRing p peer q = s.takePacket p.pnum peer q := by
  simp [State.serveRing, checkBytes_clean hp hf, hp]

/-- R174: the engine serves a ring's slot once its mark stands, and counts it. -/
theorem copyRingTake_spec {s : State} {p : Partition} {peer : Bool} (hp : s.part? p.pnum = some p)
    (hmark : s.devNum (s.ringSlot p peer + 0x3F) 1 = ringMark (s.ringTaken p peer)) :
    let q := Packet.of (s.devNum (s.ringSlot p peer) 64) true
    ∃ t, exec (.copyRingTake p.pnum peer) s = .next t ∧
      (s.store.wf = true → s.ringTaken p peer + 1 < 2 ^ 64 → t.ringTaken p peer = s.ringTaken p peer + 1) ∧
      t.eng = (s.serveRing p peer q).eng := by
  intro q
  let u := s.serveRing p peer q
  let t := u.devWriteNum (p.copyRing peer + 8) 8 (s.ringTaken p peer + 1)
  have hrun : exec (.copyRingTake p.pnum peer) s = .next t := (exec_copyRingTake hp).trans (if_neg (not_not_intro hmark))
  refine ⟨t, hrun, fun hwf hlt => ?_, State.devWriteNum_eng u ..⟩
  have hcount := devNum_devWriteNum (serveRing_wf hwf p peer q) (p.copyRing peer + 8) 8 (s.ringTaken p peer + 1)
  rwa [Nat.mod_eq_of_lt hlt] at hcount

/-! ## The obligation -/

theorem carveOutWrite_spec (s : State) (v : DWord) :
    ∃ t, exec (.carveOutWrite v) s = .next t ∧ t = { s with fw := { s.fw with carve := t.fw.carve } } ∧
    (s.fw.carve.getLsbD 0 = true → t.fw.carve = s.fw.carve) ∧
    (s.fw.carve.getLsbD 0 = false → t.fw.carve.getLsbD 0 = v.getLsbD 0 ∧ bitsOf t.fw.carve.toNat 1 3 = bitsOf v.toNat 1 3 ∧
      bitsOf t.fw.carve.toNat 26 26 = bitsOf v.toNat 26 26) := by
  refine ⟨s.writeCarve v, rfl, writeCarve_eq s v, carve_writeCarve_locked v, fun hopen => ?_⟩
  rw [carve_writeCarve_open v hopen]
  exact ⟨by simp, bitsOf_maskCarve (by decide), bitsOf_maskCarve (by decide)⟩

theorem mbctlWrite_spec (s : State) (fn : Nat) {x : Nat} (hx : x < 2 ^ 32) :
    let b := s.box fn
    ∃ t, exec (.registerWrite fn 0x1000 (bytesOf 4 x)) s = .next t ∧ (t.box fn).area = b.area ∧
      (t.box fn).done = (b.done && !x.testBit 2) ∧ (t.box fn).busy = (b.busy || x.testBit 0) ∧
      (t.box fn).ovr = ((b.ovr && !x.testBit 3) || (b.busy && x.testBit 0)) ∧
      (t.box fn).req = if x.testBit 0 && !b.busy then Memory.bytes b.area 8 0x7F8 else b.req := by
  obtain ⟨stamp, hbox⟩ := box_writeMailbox s fn x
  refine ⟨_, exec_registerWrite_mbctl hx, ?_⟩
  rw [hbox]
  exact (writeCtl_spec (s.box fn) x).2

theorem counterSlotRead_spec (s : State) {part acct k : Nat} (hpart : part < 48) (hacct : acct < 64) (hk : k < 8) :
    let off := part * 0x10000 + acct * 0x400 + k * 0x10
    (s.allowed part acct k = true →
      exec (.counterSlotRead off 16) s = .next { s with reply := bytesOf 8 (s.usage part acct k) ++ bytesOf 8 0 }) ∧
    (s.allowed part acct k = false →
      ∃ t, exec (.counterSlotRead off 16) s = .next t ∧ t.reply = bytesOf 8 0 ++ bytesOf 4 1 ++ bytesOf 4 0) := by
  intro off
  have hread := exec_counterSlotRead s (off := off) (by omega) (by omega)
  rw [counterSlot_eq s (off := off) rfl hacct hk] at hread
  constructor
  · intro hallowed
    simpa [hallowed] using hread
  · intro hdenied
    exact ⟨_, hread, by simp [hdenied]⟩

theorem bar2Access_spec {s : State} {p : Partition} {off pa : Nat} (hp : s.part? p.pnum = some p) (hoff : p.bar2 off = some pa)
    (htag : s.granuleTag pa = none) :
    let u := s.flushPosted
    (∀ o ∈ u.ops, o.kind ≠ .posted) ∧
    (s.inCarveOut pa = false → ∃ t, exec (.bar2Access p.pnum off 1 none) s = .next t ∧ t.reply = [Memory.read u.store.dev pa] ∧
      t.store = u.store) ∧
    (s.inCarveOut pa = true → ∃ t, exec (.bar2Access p.pnum off 1 none) s = .next t ∧ t.reply = [0xFF] ∧ t.store = u.store) ∧
    ∀ b : Byte, s.store.wf = true → ∃ t, exec (.bar2Access p.pnum off 1 (some [b])) s = .next t ∧ ∀ a, Memory.read t.store.dev a =
      if a = pa ∧ s.inCarveOut pa = false ∧ s.inAst pa = false then b else Memory.read s.store.dev a := by
  obtain ⟨t, ht, hreply, hstore⟩ := bar2Access_read hp hoff htag
  refine ⟨flushPosted_none s, fun hc => ⟨t, ht, by simpa [hc] using hreply, hstore⟩,
    fun hc => ⟨t, ht, by simpa [hc] using hreply, hstore⟩, fun b hwf => ⟨_, exec_bar2Access_write hp hoff b, ?_⟩⟩
  exact read_barStore htag hwf b

/-- Settles O49: each access of the host by the lemma of its register, window or ring. -/
theorem hostInterface : Obligations.HostInterface := by
  unfold Obligations.HostInterface
  refine ⟨fun s fn hup hstay => exec_dbell hup hstay, carveOutWrite_spec, fun s data hlen => exec_registerWrite_carve hlen,
    fun s fn x hx => mbctlWrite_spec s fn hx, fun s fn off data hlo hhi hwf => exec_registerWrite_request hlo hhi hwf,
    exec_registerWrite_deviceControl2, fun s part acct k hpart hacct hk => counterSlotRead_spec s hpart hacct hk,
    fun s p off pa hp hoff htag => bar2Access_spec hp hoff htag,
    fun s off x y hsvc hoff halign hwf => exec_hostAtomicopCompleter_version x y hsvc hoff hwf,
    fun s p peer hp => ⟨fun hmark => (exec_copyRingTake hp).trans (if_pos hmark), fun hmark => ?_⟩⟩
  obtain ⟨t, ht, hcount, heng⟩ := copyRingTake_spec hp hmark
  refine ⟨t, ht, hcount, fun hbad => heng.trans (serveRing_eng_bad s p peer hbad), fun hflag hbad hempty hpoison hflips => ?_⟩
  rw [heng, serveRing_clean hpoison hflips]
  split
  next hring => exact takePacket_eng_none hflag hbad (congrArg Prod.fst hring)
  next ctx lease u hring =>
    intro side hsrc hdst
    have hu : (s.ringContext p.pnum).2.2 = u := congrArg (·.2.2) hring
    exact takePacket_eng_rows hflag hbad hempty (congrArg Prod.fst hring) (hu ▸ hsrc) (hu ▸ hdst)

end Sys2Proof.Machine
end

section
/-!
PROOFS. The checks, stalls and consumed poison that come before an instruction's own effect (O33).
-/

namespace Sys2Proof.Machine

/-! ## Every instruction word is issued through `issue` -/

/-- R120: the meaning of an instruction word is a body behind the shared checks. -/
theorem exec_eq_issue {i : Instr} (h : i.form.isSome = true) : ∃ body, ∀ s, exec i s = issue i (hdrOf i) body s := by
  -- a device step has no form
  cases i <;> cases h
  all_goals exact ⟨_, fun _ => rfl⟩

section
variable {i : Instr} {s : State} {x : Ctx} {body : Ctx → State → Effect}

theorem issue_of_ctx (hx : s.ctx (hdrOf i) = some x) : issue i (hdrOf i) body s = .next (x.conclude i s (x.run i s body)) := by
  simp only [issue, hx]

theorem run_refused {code : BitVec 16} (h : x.refuses i = some code) : x.run i s body = x.fail s code x.pc.toNat := by
  simp only [Ctx.run, h]

theorem run_notReady (h : x.refuses i = none) (hn : s.notReady x i = true) : x.run i s body = .stall s := by
  simp only [Ctx.run, h, hn, if_true]

theorem run_poisoned (h : x.refuses i = none) (hn : s.notReady x i = false) (hp : s.poisonedReg x i = true) : x.run i s body =
    if s.unreadReg x i then .stall (s.readEccs x.c.part (x.readsEcc i)) else x.fail s cUncorrectable 0 1 := by
  simp only [Ctx.run, h, hn, hp, Bool.false_eq_true, if_false, if_true]
end

/-! ## The rows of R120 -/

/-- The check of SREG that LDB makes with its operands. -/
def Ctx.ldbBad (x : Ctx) : Instr → Bool
  | .ldb f => x.slotOperandBad (.ldb f)
  | _ => false

theorem ldbBad_iff {x : Ctx} {i : Instr} : x.ldbBad i = true ↔ (∃ f, i = .ldb f) ∧ x.slotOperandBad i = true := by
  cases i <;> simp [Ctx.ldbBad]

/-- Row 1 of R120: reserved operands, registers beyond the route's, and LDB's SREG. -/
def Ctx.operandBad (x : Ctx) (i : Instr) : Bool := !i.operandsOk || (x.laneRegs i).any (x.r.nregs ≤ ·) || x.ldbBad i

/-- R76: an active lane meets a port that is not bound. -/
def Ctx.portBad (x : Ctx) (i : Instr) : Bool := !x.act.isEmpty && (portsOf i false ++ portsOf i true).any fun q => (x.v.port? q).isNone

theorem refuses_eq (x : Ctx) (i : Instr) : x.refuses i =
    if x.operandBad i then some cOperand
    else if !i.targetOk then some cBranch
    else if x.bounds && !boundsOk i then some cBounds
    else if x.slotBad i then some cSlot
    else if x.slotOperandBad i then some cOperand
    else if needsFull i && !x.fullMask then some cPartial
    else if x.portBad i then some cOperand
    else none := by
  cases i <;> rfl

theorem operandBad_false_iff {x : Ctx} {i : Instr} : x.operandBad i = false ↔
    i.operandsOk = true ∧ (∀ r ∈ x.laneRegs i, r < x.r.nregs) ∧ ¬((∃ f, i = .ldb f) ∧ x.slotOperandBad i = true) := by
  rw [← ldbBad_iff]
  simp [Ctx.operandBad, and_assoc]

theorem operandBad_true_iff {x : Ctx} {i : Instr} : x.operandBad i = true ↔
    i.operandsOk = false ∨ ¬(∀ r ∈ x.laneRegs i, r < x.r.nregs) ∨ ((∃ f, i = .ldb f) ∧ x.slotOperandBad i = true) := by
  rw [← ldbBad_iff]
  simp [Ctx.operandBad, or_assoc]

theorem portBad_of {x : Ctx} {i : Instr} (ha : x.act ≠ []) (hq : ∃ q ∈ portsOf i false ++ portsOf i true, x.v.port? q = none) :
    x.portBad i = true := by
  obtain ⟨q, hq, hn⟩ := hq
  simp only [Ctx.portBad, Bool.and_eq_true, Bool.not_eq_true', List.isEmpty_eq_false_iff, List.any_eq_true]
  exact ⟨ha, q, hq, by rw [hn]; rfl⟩

section
variable {i : Instr} {s : State} {x : Ctx} (hi : i.form.isSome = true) (hx : s.ctx (hdrOf i) = some x)
include hi hx

/-- What an instruction does where a shared check ends its issue, whatever its own effect would be. -/
theorem exec_of_run {e : Effect} (he : ∀ body, x.run i s body = e) : exec i s = .next (x.conclude i s e) := by
  obtain ⟨body, hb⟩ := exec_eq_issue hi
  rw [hb, issue_of_ctx hx, he]

theorem faults_of_refuses {code : BitVec 16} (h : x.refuses i = some code) :
    Faults i s x s x.group code (BitVec.ofNat 64 x.pc.toNat) 0 := exec_of_run hi hx fun _ => run_refused h

/-- A shared check that stalls, over what it has read. -/
theorem stallsAt_of_run {u : State} (hu : s.ReadsTo u) (h : ∀ body, x.run i s body = .stall u) : StallsAt i s x u := by
  obtain ⟨-, hc, hv, -⟩ := ctx_spec hx
  have hcol : u.column? x.cur.col = some x.c := by rw [hu]; exact hc
  refine ⟨x.v, ?_, _, exec_of_run hi hx h, conclude_stall x i s u hcol hv⟩
  simp only [State.convoy?, hcol, Option.bind_some, hv]

end

theorem readEccs_reads (s : State) (part : Nat) (p : EccWord → Bool) : s.ReadsTo (s.readEccs part p) :=
  ReadsTo.foldl (fun t w => readEcc_reads t part w) _ s

/-- Settles O33: the rows of R120 in the order in which `refuses` judges them, then what `run` does before the body. -/
theorem checkOrder : Obligations.CheckOrder := by
  unfold Obligations.CheckOrder
  intro i s x hi hx fails regs ldb
  have row {code : BitVec 16} (h : x.refuses i = some code) : fails code := faults_of_refuses hi hx h
  have operand (h : x.operandBad i = true) : fails cOperand := row (by rw [refuses_eq, if_pos h])
  refine ⟨fun h => operand (operandBad_true_iff.2 (.inl h)), fun _ h => operand (operandBad_true_iff.2 (.inr (.inl h))),
    fun _ _ h => operand (operandBad_true_iff.2 (.inr (.inr h))), fun hok hregs hldb => ?_, fun h hn => ?_, fun h hn hp => ⟨fun hu => ?_, fun hu => ?_⟩⟩
  · have h1 : x.operandBad i = false := operandBad_false_iff.2 ⟨hok, hregs, hldb⟩
    refine ⟨fun ht => row ?_, fun ht => ⟨fun hb hbo => row ?_, fun hb => ?_⟩⟩
    · simp [refuses_eq, h1, ht]
    · simp [refuses_eq, h1, ht, hb, hbo]
    · have h3 : (x.bounds && !boundsOk i) = false := by rcases hb with hb | hb <;> simp [hb]
      refine ⟨fun h4 => row ?_, fun h4 h5 => row ?_, fun h4 h5 hf hm => row ?_, fun h4 h5 hf ha hq => row ?_⟩
      · simp [refuses_eq, h1, ht, h3, h4]
      · simp [refuses_eq, h1, ht, h3, h4, h5]
      · simp [refuses_eq, h1, ht, h3, h4, h5, hf, hm]
      · have h6 : (needsFull i && !x.fullMask) = false := by rcases hf with hf | hf <;> simp [hf]
        simp [refuses_eq, h1, ht, h3, h4, h5, h6, portBad_of ha hq]
  · exact stallsAt_of_run hi hx (.refl s) fun _ => run_notReady h hn
  · exact stallsAt_of_run hi hx (readEccs_reads ..) fun _ => (run_poisoned h hn hp).trans (if_pos hu)
  · exact exec_of_run hi hx fun _ => (run_poisoned h hn hp).trans (if_neg (by simp [hu]))

end Sys2Proof.Machine
end

section
/-!
PROOFS. EXIT and BDONE (O25): what the end of lanes, and of a convoy with its last lane, leaves as it was.
-/

namespace Sys2Proof.Machine

/-! ## What the end of lanes leaves -/

/-- From `s` to `t` no memory but the instruction store, no pending access and no object of a record has changed. -/
structure State.Spares (s t : State) : Prop where
  store : t.store = { s.store with istore := t.store.istore }
  ops : t.ops = s.ops
  obj : t.obj = s.obj

theorem State.Spares.refl (s : State) : s.Spares s := ⟨rfl, rfl, rfl⟩

theorem State.Spares.trans {s t u : State} (h : s.Spares t) (h' : t.Spares u) : s.Spares u := by
  refine ⟨?_, h'.ops.trans h.ops, h'.obj.trans h.obj⟩
  have h1 := h.store
  have h2 := h'.store
  generalize t.store.istore = I at h1
  rw [h1] at h2
  exact h2

/-- A change of other fields. -/
theorem State.Spares.set {s t u : State} (h : s.Spares t) (hm : u.store = t.store := by rfl) (ho : u.ops = t.ops := by rfl)
    (hb : u.obj = t.obj := by rfl) : s.Spares u := h.trans ⟨by rw [hm], ho, hb⟩

theorem settle_spares (s : State) : s.Spares s.settle := by
  have h := settle_spec s
  refine ⟨?_, ?_, ?_⟩ <;> rw [h]

theorem settle_convoy (s : State) (col cv : Nat) : s.settle.convoy? col cv = s.convoy? col cv :=
  convoy_cols (by rw [settle_spec]) col cv

/-! ## Convergence rounds completed by an exit (R198) -/

theorem meterCol_eq (s : State) (col k n : Nat) : s.meterCol col k n = { s with fw := (s.meterCol col k n).fw } := by
  unfold State.meterCol
  split <;> rfl

theorem post_spares (s : State) (quad col cv : Nat) (signers : List (Nat × PC)) (tile urg : Nat) (work : MxWork) :
    s.Spares (s.post quad col cv signers tile urg work) := by
  unfold State.post
  rw [meterCol_eq]
  exact (State.Spares.refl s).set

theorem post_convoy (s : State) (quad col cv : Nat) (signers : List (Nat × PC)) (tile urg : Nat) (work : MxWork) (a b : Nat) :
    (s.post quad col cv signers tile urg work).convoy? a b = s.convoy? a b := by
  unfold State.post
  rw [meterCol_eq]
  exact convoy_cols rfl a b

theorem forbidRollback_spares (s : State) (col : Nat) : s.Spares (s.forbidRollback col) := (State.Spares.refl s).set

/-- A round completed, or not, leaves every convoy as it was. -/
theorem complete_spec (s : State) (col n : Nat) :
    s.Spares (s.complete col n) ∧ ∀ cv, (s.complete col n).convoy? col cv = s.convoy? col cv := by
  unfold State.complete
  split
  · exact ⟨.refl s, fun _ => rfl⟩
  · dsimp only
    have h : s.Spares (s.onColumn col fun c => c.clearCvreg n) := (State.Spares.refl s).set
    have hcv (cv : Nat) := convoy_onColumn s col cv (fun c => c.clearCvreg n) (fun _ => rfl) fun _ => rfl
    split
    · exact ⟨.refl s, fun _ => rfl⟩
    · split
      · split
        · exact ⟨.refl s, fun _ => rfl⟩
        · exact ⟨(h.trans (post_spares ..)).trans (forbidRollback_spares ..), fun cv => ((convoy_forbid ..).trans (post_convoy ..)).trans (hcv cv)⟩
      · exact ⟨h, hcv⟩

theorem completes_spec (ns : List Nat) (s : State) (col : Nat) :
    let t := ns.foldl (fun t n => t.complete col n) s
    s.Spares t ∧ ∀ cv, t.convoy? col cv = s.convoy? col cv := by
  induction ns generalizing s with
  | nil => exact ⟨.refl s, fun _ => rfl⟩
  | cons n ns ih =>
    obtain ⟨h, hcv⟩ := complete_spec s col n
    obtain ⟨h', hcv'⟩ := ih (s.complete col n)
    exact ⟨h.trans h', fun cv => (hcv' cv).trans (hcv cv)⟩

/-- R13: with its last lane gone a convoy has ended; of its lanes and registers nothing changes. -/
theorem checkEnd_spec {s : State} {col cv : Nat} {v : Convoy} (hv : s.convoy? col cv = some v) :
    s.Spares (s.checkEnd col cv) ∧ ∃ w, (s.checkEnd col cv).convoy? col cv = some w ∧ w.lanes = v.lanes ∧ w.sregs = v.sregs ∧
      (w.live = [] → w.ended = true) := by
  simp only [State.checkEnd, hv, Bool.not_eq_true']
  split
  · generalize hu : s.onConvoy col cv (fun v => { v with ended := true, stack := [], wait := none, boundary := [] }) = u
    have hsu : s.Spares u := hu ▸ (State.Spares.refl s).set
    have huv : u.convoy? col cv = some { v with ended := true, stack := [], wait := none, boundary := [] } := by
      rw [← hu, convoy_onConvoy, hv]; rfl
    obtain ⟨h, hcv⟩ := completes_spec (List.range 16) u.settle col
    exact ⟨(hsu.trans (settle_spares u)).trans h, _, ((hcv cv).trans (settle_convoy ..)).trans huv, rfl, rfl, fun _ => rfl⟩
  next hlive =>
    refine ⟨.refl s, v, hv, rfl, rfl, fun hn => ?_⟩
    rw [hn] at hlive
    simpa using hlive

/-! ## A group that goes on after some of its lanes have exited -/

/-- What the end of an issue leaves of the issuing convoy `v`, where lanes of it may have exited. -/
structure Exited (v w : Convoy) : Prop where
  lane : ∀ l, (w.lane l).live = (v.lane l).live ∧ (w.lane l).regs = (v.lane l).regs ∧ (w.lane l).preds = (v.lane l).preds
  sregs : w.sregs = v.sregs
  ended : w.live = [] → w.ended = true

theorem moved_exited {x : Ctx} {tgt : Nat → PC} {v w u : Convoy} (hm : Moved x tgt v w) (hl : u.lanes = w.lanes) (hs : u.sregs = w.sregs)
    (he : u.live = [] → u.ended = true) : Exited v u := by
  refine ⟨fun l => ?_, hs.trans (by rw [hm.rest]), he⟩
  have : u.lane l = w.lane l := by simp only [Convoy.lane, hl]
  rw [this, hm.lane l]
  exact ⟨rfl, rfl, rfl⟩

/-- The group of a convoy moves on, and the convoy's end is seen. -/
theorem moveGroup_exited {u : State} {x : Ctx} {v : Convoy} (hv : u.convoy? x.cur.col x.cur.cv = some v) (final branch : Bool) :
    let t := (u.stepClause x final).moveGroup x [] branch
    u.Spares t ∧ ∃ w, t.convoy? x.cur.col x.cur.cv = some w ∧ Exited v w := by
  obtain ⟨c, hc, hcv⟩ := convoy_of_column hv
  obtain ⟨v1, hv1, hs⟩ := stepClause_steps hc hcv final
  have hu1 : u.Spares (u.stepClause x final) := by rw [hs.rest]; exact (State.Spares.refl u).set
  have hcv1 := steps_convoy hs hc hcv
  generalize u.stepClause x final = t at hu1 hcv1
  have hback : t.backEdges x [] = t := by simp [State.backEdges]
  simp only [State.moveGroup, hback]
  generalize t.targetOk x.core x.c.part x.c.prog = btm
  have hmv := move_moved x v1 (fun i => (List.lookup i []).getD (nextPc x.pc)) branch btm x.apart
  obtain ⟨h, w, hw, hlanes, hsregs, hend⟩ := checkEnd_spec ((convoy_onConvoy t x.cur.col x.cur.cv
    (fun v => v.move x.group (fun i => (List.lookup i []).getD (nextPc x.pc)) branch btm x.apart)).trans (congrArg (Option.map _) hcv1))
  refine ⟨hu1.set.trans h, w, hw, ?_⟩
  obtain ⟨hl, hsr, he⟩ := moved_exited hmv hlanes hsregs hend
  rw [hv1] at hl hsr
  exact ⟨hl, hsr, he⟩

/-- The group of an instruction without a target goes on, its issue over. -/
theorem conclude_exited (x : Ctx) (i : Instr) (s : State) {u : State} {v : Convoy} (hv : u.convoy? x.cur.col x.cur.cv = some v) {e : Effect}
    (he : e = .jump u [] ∨ e = .next u) :
    u.Spares (x.conclude i s e) ∧ ∃ w, (x.conclude i s e).convoy? x.cur.col x.cur.cv = some w ∧ Exited v w := by
  rcases he with rfl | rfl
  · obtain ⟨h, w, hw, hx⟩ := moveGroup_exited hv true true
    exact ⟨h.set.trans (settle_spares _), w, (settle_convoy ..).trans hw, hx⟩
  · obtain ⟨h, w, hw, hx⟩ := moveGroup_exited hv false false
    exact ⟨h.set, w, hw, hx⟩

/-! ## EXIT and BDONE -/

/-- In element mode EXIT and BDONE end their active lanes. -/
theorem exec_exits {f : BForm} {s : State} {x y : Ctx} {i : Instr} (hm : i ∈ [Instr.exit f, .bdone f]) (hi : Issues i s x y) (hp : Plain y) :
    ∃ e, (e = .jump (y.exitLanes (s.begun y)) [] ∨ e = .next (y.exitLanes (s.begun y))) ∧ exec i s = .next (x.conclude i s e) := by
  simp only [List.mem_cons, List.not_mem_nil, or_false] at hm
  rcases hm with rfl | rfl
  · refine ⟨_, .inl rfl, (issue_gives hi _).trans ?_⟩
    simp [Ctx.settleUnd, State.tileEnds, hp.decided]
  · refine ⟨_, .inr rfl, (issue_gives hi _).trans ?_⟩
    simp [Ctx.exitLanes, hp.element]

/-- A convoy whose lanes `ls` have exited. -/
def Convoy.exit (v : Convoy) (ls : List Nat) : Convoy := v.onLanes ls fun _ l => { l with live := false, split := false }

theorem exit_lane_gone (v : Convoy) {ls : List Nat} {l : Nat} (h : l ∈ ls) : ((v.exit ls).lane l).live = false := by
  rw [Convoy.exit, lane_onLanes]
  split
  · rfl
  next hn =>
    have : ¬l < v.lanes.length := fun hl => hn ⟨h, hl⟩
    simp [Convoy.lane, this, Lane.zero]

theorem exit_lane_other (v : Convoy) {ls : List Nat} {l : Nat} (h : l ∉ ls) : (v.exit ls).lane l = v.lane l := by
  rw [Convoy.exit, lane_onLanes, if_neg fun hl => h hl.1]

theorem exitLanes_convoy {i : Instr} {s : State} {x y : Ctx} (hi : Issues i s x y) (hp : Plain y) :
    (y.exitLanes (s.begun y)).convoy? x.cur.col x.cur.cv = some (y.v.exit y.act) := by
  rw [Ctx.exitLanes, hp.element, if_neg Bool.false_ne_true, issues_cur hi, convoy_onConvoy, begun_convoy hi]
  rfl

theorem exitLanes_spares {y : Ctx} (hp : Plain y) (s : State) : s.Spares (y.exitLanes (s.begun y)) := by
  rw [Ctx.exitLanes, hp.element, if_neg Bool.false_ne_true]
  exact (State.Spares.refl s).set

/-- Settles O25: the active lanes exit, and the shared end of the issue ends the convoy with its last lane. -/
theorem exits : Obligations.Exits := by
  unfold Obligations.Exits
  intro f s x y i hm hi hp
  obtain ⟨e, he, hex⟩ := exec_exits hm hi hp
  obtain ⟨h, w, hw, hlane, hsregs, hend⟩ := conclude_exited x i s (exitLanes_convoy hi hp) he
  obtain ⟨hstore, hops, hobj⟩ := (exitLanes_spares hp s).trans h
  refine ⟨_, w, hex, by rw [issues_cur hi]; exact hw, fun l hl => ?_, fun l hl => ?_, hend, hsregs, hstore, hops, hobj⟩
  · exact (hlane l).1.trans (exit_lane_gone y.v hl)
  · rw [← exit_lane_other y.v hl]
    exact hlane l

end Sys2Proof.Machine
end

section
/-!
PROOFS. The ends of waits (O35).
-/

namespace Sys2Proof.Machine

/-! ## The context of a waiting convoy -/

/-- What `State.wakeCtx` finds: the waiting convoy `v`, its wait over in the context. -/
structure Woken (s : State) (col cv : Nat) (x : Ctx) (w : WaitRec) (v : Convoy) : Prop where
  atCol : x.cur.col = col
  atCv : x.cur.cv = cv
  column : s.column? col = some x.c
  convoy : x.c.cvs[cv]? = some v
  wait : x.v = { v with wait := none }
  record : x.group = w.group ∧ x.act = w.active ∧ x.pc = w.pc

theorem wakeCtx_spec {s : State} {col cv : Nat} {x : Ctx} {w : WaitRec} (h : s.wakeCtx col cv = some (x, w)) : ∃ v, Woken s col cv x w v := by
  simp only [State.wakeCtx, Option.bind_eq_bind, Option.bind_eq_some_iff] at h
  obtain ⟨c, hc, v, hv, w', hw, r, hr, h⟩ := h
  split at h
  · cases h
  · cases h
    exact ⟨v, rfl, rfl, hc, hv, rfl, rfl, rfl, rfl⟩

/-! ## Lanes under a predicate written -/

@[simp] theorem discard_lane (v : Convoy) (l : Nat) : v.discard.lane l = v.lane l := rfl

theorem setPreds_live (v : Convoy) (ls : List Nat) (dst : Option (BitVec 3)) (b : Bool) (l : Nat) :
    ((v.setPreds ls dst b).lane l).live = (v.lane l).live := by
  cases dst with
  | none => rfl
  | some p => exact onLanes_live (fun _ a => setPred_live a _ _) l

/-! ## The group of a waiting convoy goes on -/

/-- `T` is `u` with the waiting convoy as `a` in it; nothing but columns differs. -/
structure Stands (u T : State) (x : Ctx) (a : Convoy) : Prop where
  rest : T = { u with cols := T.cols }
  own : Own u T x a

theorem stands_self {u : State} {x : Ctx} {c : Column} {a : Convoy} (hc : u.column? x.cur.col = some c) (ha : c.cvs[x.cur.cv]? = some a) :
    Stands u u x a := ⟨rfl, fun _ _ => rfl, c, c, hc, hc, rfl, fun _ _ => rfl, ha⟩

theorem Stands.onConvoy {u T : State} {x : Ctx} {a : Convoy} (h : Stands u T x a) (f : Convoy → Convoy) :
    Stands u (T.onConvoy x.cur.col x.cur.cv f) x (f a) := by
  obtain ⟨hrest, ho, c, d, hc, hd, hcd, hk, hv⟩ := h
  refine ⟨?_, fun id hid => (column_onConvoy_other T _ f hid).trans (ho id hid), c, { d with cvs := updateAt x.cur.cv f d.cvs }, hc, ?_, ?_, fun k hk' => ?_, ?_⟩
  · conv_lhs => rw [State.onConvoy, State.onColumn, hrest]
    rfl
  · rw [column_onConvoy_same, hd]; rfl
  · rw [hcd]
  · exact (updateAt_other f d.cvs hk').trans (hk k hk')
  · exact (updateAt_same ..).trans (by rw [hv]; rfl)

theorem Stands.convoy {u T : State} {x : Ctx} {a : Convoy} (h : Stands u T x a) : T.convoy? x.cur.col x.cur.cv = some a := by
  obtain ⟨-, -, c, d, -, hd, -, -, hv⟩ := h
  simp only [State.convoy?, hd, Option.bind_some, hv]

/-- A convoy with a live lane, left as `v`, goes on at the slot after its instruction. -/
theorem Stands.goOn {i : Instr} {s u T : State} {x : Ctx} {a v : Convoy} (h : Stands u T x a) {f : Convoy → Convoy} (btm : PC → Bool)
    (apart : List Nat) (hf : f a = v.move x.group (fun _ => nextPc x.pc) false btm apart) (hl : ∃ l, (v.lane l).live = true)
    (he : exec i s = .next ((T.onConvoy x.cur.col x.cur.cv f).checkEnd x.cur.col x.cur.cv)) : Resumes i s x u v := by
  have hm := move_moved x v (fun _ => nextPc x.pc) false btm apart
  have hs := h.onConvoy f
  rw [hf] at hs
  obtain ⟨l, hl⟩ := hl
  rw [checkEnd_live hs.convoy (moved_live hm hl)] at he
  exact ⟨_, _, he, hs.rest, hm, hs.own⟩

/-- The rest of a waiting instruction moves its group on. -/
theorem Stands.resumeWith {i : Instr} {s u T : State} {x : Ctx} {v : Convoy} (h : Stands u T x v) (hl : ∃ l, (v.lane l).live = true)
    (he : exec i s = .next (x.resumeWith (.next T))) : Resumes i s x u v := by
  have hback : T.backEdges x [] = T := by simp [State.backEdges]
  refine h.goOn (T.targetOk x.core x.c.part x.c.prog) x.apart (f := fun v => v.move x.group (fun _ => nextPc x.pc) false _ x.apart) rfl hl ?_
  simpa only [Ctx.resumeWith, State.moveGroup, hback, List.lookup_nil, Option.getD_none] using he

/-- A barrier or address wait that returns moves its group on, its predicate written and its read-ahead gone. -/
theorem Stands.waitReturns {i : Instr} {s u T : State} {x : Ctx} {a : Convoy} (h : Stands u T x a) (ha : x.v = { a with wait := none })
    (hl : ∃ l, (x.v.lane l).live = true) (dst : Option (BitVec 3)) (b : Bool) (he : exec i s = .next (x.waitReturns T dst b)) :
    Resumes i s x u (x.v.setPreds x.act dst b).discard := by
  refine h.goOn (T.targetOk x.core x.c.part x.c.prog) [] ?_ ?_ he
  · rw [ha]; rfl
  · obtain ⟨l, hl⟩ := hl
    exact ⟨l, (setPreds_live ..).trans hl⟩

/-! ## A barrier object written (R187) -/

/-- A column found among columns that were all changed. -/
theorem find?_map_id {f : Column → Column} (hf : ∀ c, (f c).id = c.id) (cs : List Column) (id : Nat) :
    (cs.map f).find? (·.id == id) = (cs.find? (·.id == id)).map f := by
  rw [List.find?_map]
  congr 2
  funext c
  simp only [Function.comp_apply, hf]

theorem met_wait (b : Bool) (v : Convoy) (w : WaitRec) :
    { (if b then { v with wait := some { w with met := true } } else v) with wait := none } = { v with wait := none } := by
  cases b <;> rfl

/-- What changes of a column when a write to scratchpad is noticed is the wait records of its convoys alone. -/
theorem notice_cols (s : State) : ∃ g : Column → Column, s.notice.cols = s.cols.map g ∧
    ∀ c, ∃ f : Convoy → Convoy, (∀ v, { f v with wait := none } = { v with wait := none }) ∧ g c = { c with cvs := c.cvs.map f } := by
  refine ⟨_, rfl, fun c => ?_⟩
  dsimp only
  split
  · exact ⟨id, fun _ => rfl, by simp⟩
  · refine ⟨_, fun v => ?_, rfl⟩
    split
    · exact met_wait ..
    · rfl

theorem column_notice {s : State} {id : Nat} {c : Column} (h : s.column? id = some c) :
    ∃ f : Convoy → Convoy, (∀ v, { f v with wait := none } = { v with wait := none }) ∧
      s.notice.column? id = some { c with cvs := c.cvs.map f } := by
  obtain ⟨g, hg, hf⟩ := notice_cols s
  have hid (c : Column) : (g c).id = c.id := by
    obtain ⟨f, -, hf⟩ := hf c
    rw [hf]
  obtain ⟨f, hwait, hgc⟩ := hf c
  refine ⟨f, hwait, ?_⟩
  rw [State.column?, hg, find?_map_id hid, show s.cols.find? (·.id == id) = some c from h, Option.map_some, hgc]

theorem logSpad_wrote {u t : State} {x : Ctx} {v : Convoy} (hw : Wrote u t x v) (quad pa n : Nat) :
    Wrote u (t.logSpad x.cur.col quad pa n) x v :=
  List.foldlRecOn (motive := fun t => Wrote u t x v) _ _ hw fun _ ht _ _ => logUndo_wrote ht ..

/-- An object written leaves the writing convoy but for its wait record. -/
theorem setBarrier_convoy {s : State} {x : Ctx} {c : Column} {v : Convoy} (hc : s.column? x.cur.col = some c)
    (hv : c.cvs[x.cur.cv]? = some v) (off : Nat) (b : Barrier) : ∃ d a, (s.setBarrier x off b).column? x.cur.col = some d ∧
      d.cvs[x.cur.cv]? = some a ∧ { a with wait := none } = { v with wait := none } := by
  unfold State.setBarrier
  extract_lets t
  have ht : Wrote s t x v := by
    unfold t
    split
    · exact logSpad_wrote (wrote_self hc hv) ..
    · exact wrote_self hc hv
  obtain ⟨-, -, d, -, hd, -, -, ha⟩ := ht.own
  obtain ⟨f, hf, hn⟩ := column_notice (s := t.spadWriteNum x.c.banks off 16 b.bits) (id := x.cur.col) (c := d) hd
  exact ⟨_, f v, hn, by rw [List.getElem?_map, ha]; rfl, hf v⟩

/-! ## Each wait -/

section
variable {s : State} {col cv : Nat} {x : Ctx} {w : WaitRec} {v : Convoy}

theorem Woken.stands (h : Woken s col cv x w v) : Stands s s x v :=
  stands_self (by rw [h.atCol]; exact h.column) (by rw [h.atCv]; exact h.convoy)

/-- The waiting convoy put back, its wait over. -/
theorem Woken.put (h : Woken s col cv x w v) : Stands s (s.put x x.v) x x.v := h.stands.onConvoy fun _ => x.v

/-- The convoy as it stands after its object was written. -/
theorem Woken.setBarrier (h : Woken s col cv x w v) (off : Nat) (b : Barrier) : ∃ a, x.v = { a with wait := none } ∧
    Stands (s.setBarrier x off b) (s.setBarrier x off b) x a := by
  obtain ⟨d, a, hd, ha, hwait⟩ := setBarrier_convoy (s := s) (x := x) (by rw [h.atCol]; exact h.column) (by rw [h.atCv]; exact h.convoy) off b
  exact ⟨a, by rw [h.wait, hwait], stands_self hd ha⟩

theorem exec_convoyWake_returns (h : s.wakeCtx col cv = some (x, w)) {dst : Option (BitVec 3)}
    (hk : (∃ off ph, w.kind = .barrier off ph dst) ∨ ∃ off cmp val, w.kind = .waita off cmp val dst) :
    exec (.convoyWake col cv) s = .next (if w.met then x.waitReturns s dst true else s) := by
  obtain ⟨off, ph, hk⟩ | ⟨off, cmp, val, hk⟩ := hk
  all_goals
    change execConvoyWake col cv s = _
    simp only [execConvoyWake, h, hk]
    split <;> rfl

theorem exec_convoyWake_waitc (h : s.wakeCtx col cv = some (x, w)) {l a c n : Nat} (hk : w.kind = .waitc l a c n) :
    exec (.convoyWake col cv) s = .next (if x.v.loads ≤ l ∧ x.v.stores ≤ a ∧ x.v.copies ≤ c ∧ x.v.tileOps ≤ n then
      x.resumeWith (.next (s.put x x.v)) else s) := by
  change execConvoyWake col cv s = _
  simp only [execConvoyWake, h, hk]
  split <;> rfl

theorem exec_waitBoundExpiry_early (h : s.wakeCtx col cv = some (x, w)) (hd : w.met = true ∨ (w.deadline.any fun d => d ≤ s.now) = false) :
    exec (.waitBoundExpiry col cv) s = .next s := by
  have : (w.met || !(w.deadline.any fun d => d ≤ s.now)) = true := by rcases hd with hd | hd <;> simp [hd]
  change execWaitBoundExpiry col cv s = _
  simp only [execWaitBoundExpiry, h, this, if_true]

theorem exec_waitBoundExpiry_barrier (h : s.wakeCtx col cv = some (x, w)) (hm : w.met = false)
    (hd : (w.deadline.any fun d => d ≤ s.now) = true) {off ph : Nat} {dst : Option (BitVec 3)} (hk : w.kind = .barrier off ph dst) :
    exec (.waitBoundExpiry col cv) s =
      .next (x.waitReturns (s.setBarrier x off { s.barrier x off with waiters := (s.barrier x off).waiters - 1 }) dst false) := by
  change execWaitBoundExpiry col cv s = _
  simp [execWaitBoundExpiry, h, hm, hd, hk]

theorem exec_waitBoundExpiry_waita (h : s.wakeCtx col cv = some (x, w)) (hm : w.met = false)
    (hd : (w.deadline.any fun d => d ≤ s.now) = true) {off cmp : Nat} {val : Word} {dst : Option (BitVec 3)} (hk : w.kind = .waita off cmp val dst) :
    exec (.waitBoundExpiry col cv) s = .next (x.waitReturns s dst false) := by
  change execWaitBoundExpiry col cv s = _
  simp [execWaitBoundExpiry, h, hm, hd, hk]

theorem exec_napExpiry_nap (h : s.wakeCtx col cv = some (x, w)) (hk : w.kind = .nap) :
    exec (.napExpiry col cv) s = .next (if (w.deadline.any fun d => d ≤ s.now) then x.resumeWith (.next (s.put x x.v)) else s) := by
  change execNapExpiry col cv s = _
  simp only [execNapExpiry, h, hk, beq_self_eq_true, Bool.true_and]
  split <;> rfl

theorem exec_fwcallAnswer_none (h : s.wakeCtx col cv = some (x, w)) {svc : Nat} {block : Option DWord} {a : Operand}
    (hk : w.kind = .fwcall svc block a none) (hn : s.plainStatus x.c.part col cv svc = none) : exec (.fwcallAnswer col cv) s = .next s := by
  change execFwcallAnswer col cv s = _
  simp only [execFwcallAnswer, h, hk, hn]
  rfl

theorem exec_fwcallAnswer_some (h : s.wakeCtx col cv = some (x, w)) {svc : Nat} {block : Option DWord} {n : BitVec 6} {answer : Option Word}
    (hk : w.kind = .fwcall svc block (.s n) answer) {status : Word} (hn : (answer <|> s.plainStatus x.c.part col cv svc) = some status) :
    exec (.fwcallAnswer col cv) s = .next (x.resumeWith (.next ((s.dropCall x.c.part col cv).put x (x.v.setSreg n.toNat status)))) := by
  change execFwcallAnswer col cv s = _
  simp only [execFwcallAnswer, h, hk, hn]

/-- A status written to the uniform register of the call. -/
theorem Woken.answered (h : Woken s col cv x w v) (hl : ∃ l, (x.v.lane l).live = true) {svc : Nat} {block : Option DWord} {n : BitVec 6}
    {answer : Option Word} (hwake : s.wakeCtx col cv = some (x, w)) (hk : w.kind = .fwcall svc block (.s n) answer) {status : Word}
    (hn : (answer <|> s.plainStatus x.c.part col cv svc) = some status) :
    Resumes (.fwcallAnswer col cv) s x { s with calls := s.calls.erase (x.c.part, col, cv) } (x.v.setSreg n.toNat status) := by
  have hs : Stands (s.dropCall x.c.part col cv) (s.dropCall x.c.part col cv) x v :=
    stands_self (by rw [h.atCol]; exact h.column) (by rw [h.atCv]; exact h.convoy)
  exact (hs.onConvoy fun _ => x.v.setSreg n.toNat status).resumeWith hl (exec_fwcallAnswer_some hwake hk hn)

theorem plainStatus_first {part svc : Nat} (hf : s.calls.find? (·.1 == part) = some (part, col, cv)) :
    s.plainStatus part col cv svc = if svc = 0 then some 0 else if svc > 3 then some 0xFFFFFFFF else none := by
  simp [State.plainStatus, State.firstCall, hf]

theorem plainStatus_waits {part svc : Nat} (hf : s.calls.find? (·.1 == part) ≠ some (part, col, cv)) :
    s.plainStatus part col cv svc = none := by
  simp [State.plainStatus, State.firstCall, hf]

theorem exec_replay_replay (h : s.wakeCtx col cv = some (x, w)) {ctx page : Nat} (hk : w.kind = .replay ctx page) :
    exec (.replay col cv) s = .next (if (∃ q ∈ s.paging, q.part = x.c.part ∧ q.ctx = ctx ∧ q.page = page) then s else s.put x x.v) := by
  change execReplay col cv s = _
  simp only [execReplay, h, hk, List.any_eq_true, Bool.and_eq_true, beq_iff_eq, and_assoc]
  split <;> rfl

end

/-- Settles O35: each wait by what its device step does, and the group goes on by `Stands.resumeWith` and `Stands.waitReturns`. -/
theorem wakes : Obligations.Wakes := by
  unfold Obligations.Wakes
  intro s col cv x w hwake hlive due back
  obtain ⟨v, h⟩ := wakeCtx_spec hwake
  obtain ⟨-, hact, -⟩ := h.record
  have hl : ∃ l, (x.v.lane l).live = true := hlive.imp fun _ h => h.2
  have hdue : (w.deadline.any fun d => d ≤ s.now) = true ↔ due := by simp [due, Option.any_eq_true]
  have hback (dst : Option (BitVec 3)) (b : Bool) : (x.v.setPreds x.act dst b).discard = back dst b := by rw [hact]
  have returns {dst : Option (BitVec 3)} (hk : (∃ off ph, w.kind = .barrier off ph dst) ∨ ∃ off cmp val, w.kind = .waita off cmp val dst)
      (hm : w.met = true) : Resumes (.convoyWake col cv) s x s (back dst true) :=
    hback dst true ▸ h.stands.waitReturns h.wait hl dst true ((exec_convoyWake_returns hwake hk).trans (by rw [if_pos hm]))
  have waits {dst : Option (BitVec 3)} (hk : (∃ off ph, w.kind = .barrier off ph dst) ∨ ∃ off cmp val, w.kind = .waita off cmp val dst)
      (hm : w.met = false) : exec (.convoyWake col cv) s = .next s := (exec_convoyWake_returns hwake hk).trans (by simp [hm])
  refine ⟨fun off ph dst hk => ⟨returns (.inl ⟨off, ph, hk⟩), waits (.inl ⟨off, ph, hk⟩), fun hm hd => ?_⟩,
    fun off cmp val dst hk => ⟨returns (.inr ⟨off, cmp, val, hk⟩), waits (.inr ⟨off, cmp, val, hk⟩), fun hm hd => ?_⟩, fun _ hd => ?_,
    fun hk => ⟨fun hd => ?_, fun hd => ?_⟩,
    fun l a c n hk => ⟨fun hm => ?_, fun hm => ?_⟩, fun svc block n answer hk => ?_, fun ctx page hk => ⟨fun ho => ?_, fun ho => ?_⟩⟩
  · obtain ⟨a, ha, hs⟩ := h.setBarrier off { s.barrier x off with waiters := (s.barrier x off).waiters - 1 }
    exact hback dst false ▸ hs.waitReturns ha hl dst false (exec_waitBoundExpiry_barrier hwake hm (hdue.2 hd) hk)
  · exact hback dst false ▸ h.stands.waitReturns h.wait hl dst false (exec_waitBoundExpiry_waita hwake hm (hdue.2 hd) hk)
  · exact exec_waitBoundExpiry_early hwake (.inr (by simpa only [Bool.not_eq_true] using mt hdue.1 hd))
  · exact h.put.resumeWith hl ((exec_napExpiry_nap hwake hk).trans (by rw [if_pos (hdue.2 hd)]))
  · exact (exec_napExpiry_nap hwake hk).trans (by rw [if_neg (mt hdue.1 hd)])
  · exact h.put.resumeWith hl ((exec_convoyWake_waitc hwake hk).trans (by rw [if_pos hm]))
  · exact (exec_convoyWake_waitc hwake hk).trans (by rw [if_neg hm])
  · refine ⟨fun k ha => ?_, fun ha hf h0 => ?_, fun ha hf h3 => ?_, fun ha hf => ?_⟩ <;> subst ha
    · exact h.answered hl hwake hk rfl
    · exact h.answered hl hwake hk (by simp [plainStatus_first hf, h0])
    · exact h.answered hl hwake hk (by simp [plainStatus_first hf, h3, Nat.ne_of_gt (Nat.zero_lt_of_lt h3)])
    · exact exec_fwcallAnswer_none hwake hk (plainStatus_waits hf)
  · exact (exec_replay_replay hwake hk).trans (by rw [if_pos ho])
  · rw [exec_replay_replay hwake hk, if_neg ho, State.put, h.atCol, h.atCv]

end Sys2Proof.Machine
end

section
/-!
PROOFS. Groups without an active lane (O34).
-/

namespace Sys2Proof.Machine

/-! ## Bodies without an active lane -/

section
variable {y : Ctx} {t : State} (ha : y.act = [])
include ha

theorem startLoad_idle (space : Space) (hint : Hint) (conv : LoadConv) (a : Operand) (want : Nat → List Want) :
    y.startLoad t space hint conv a (y.loadLanes a) ((y.loadLanes a).flatMap want) = .next t := by
  have : y.loadLanes a = [] := by cases a <;> simp [Ctx.loadLanes, ha]
  simp [Ctx.startLoad, this, State.resolve]

theorem startStore_idle (f : MForm) (val : Nat → Nat) : y.startStore t f val = .next t := by
  simp [Ctx.startStore, ha, State.resolve]

theorem onObject_idle (f : MForm) (n access : Nat) (go : Nat → Effect) : y.onObject t f n access go = .next t := by
  simp [Ctx.onObject, ha]

theorem bind_idle (f : MForm) : y.bind t f = .next t := by
  unfold Ctx.bind
  split
  · simp [ha]
  · rfl

theorem startTile_idle (f : XForm) (work : MxWork) : y.startTile t f work = .next t := by simp [Ctx.startTile, ha]

theorem startTransfer_idle (f : XForm) (e access : Nat) (work : Nat → Nat → MxWork) : y.startTransfer t f e access work = .next t := by
  simp [Ctx.startTransfer, ha]

theorem startAppend_idle (f : MForm) (emit : Bool) : y.startAppend t f emit = .next t := by simp [Ctx.startAppend, ha]

theorem fillElements_idle (f : MForm) : y.fillElements t f = .next t := by simp [Ctx.fillElements, ha, State.resolve]

end

/-- An accepted instruction names well-formed slots. -/
theorem slotBad_of_accepted {x : Ctx} {i : Instr} (h : x.refuses i = none) : x.slotBad i = false := by
  rw [refuses_eq] at h
  split_ifs at h with _ _ _ hs
  all_goals simpa using hs

/-- A body without effect leaves the convoy with the popped elements gone, which are none. -/
theorem leaves_idle {i : Instr} {s : State} {x y : Ctx} (hi : Issues i s x y) {body : Ctx → State → Effect}
    (he : exec i s = issue i (hdrOf i) body s) (hb : body y (s.begun y) = .next (s.begun y) ∨ body y (s.begun y) = .last (s.begun y)) :
    Leaves i s x y.v := leaves_next hi he hb (begun_wrote hi) fun _ => rfl

/-- Settles O34: each instruction's body, in the order in which the statement lists them, does nothing without an active lane. -/
theorem inactiveGroups : Obligations.InactiveGroups := by
  unfold Obligations.InactiveGroups
  intro f g h k m s x y i hm hi hp _ ha
  have hund := hp.decided
  have htrue : y.asTrue = y := asTrue_plain hi hund
  have hfslot (n : Nat) (accepted : List Fmt) : y.fslot n accepted = x.fslot n accepted := by
    obtain ⟨-, -, -, -, -, hr, -⟩ := issues_group hi
    rw [Ctx.fslot, hr]
    rfl
  have hslot := slotBad_of_accepted hi.accepted
  have hsettle (t : State) : y.settleUnd t = t := by simp [Ctx.settleUnd, State.tileEnds, hund]
  have next {body : Ctx → State → Effect} (he : exec i s = issue i (hdrOf i) body s) (hb : body y (s.begun y) = .next (s.begun y)) :
      Leaves i s x y.v := leaves_idle hi he (.inl hb)
  have last {body : Ctx → State → Effect} (he : exec i s = issue i (hdrOf i) body s) (hb : body y (s.begun y) = .last (s.begun y)) :
      Leaves i s x y.v := leaves_idle hi he (.inr hb)
  simp only [List.mem_cons, List.not_mem_nil, or_false] at hm
  rcases hm with rfl | rfl | rfl | rfl | rfl | rfl | rfl | rfl | rfl | rfl | rfl | rfl | rfl | rfl | rfl | rfl | rfl | rfl | rfl | rfl |
    rfl | rfl | rfl | rfl | rfl | rfl | rfl | rfl | rfl | rfl | rfl | rfl | rfl | rfl | rfl | rfl
  -- LD to STX
  · exact next rfl ((if_neg (by simp [hp.element])).trans (startLoad_idle ha ..))
  · exact next rfl (startStore_idle ha ..)
  · exact next rfl ((if_neg (by simp [hp.element])).trans (startLoad_idle ha ..))
  · exact next rfl (startStore_idle ha ..)
  · exact next rfl ((if_neg (by simp [hp.element])).trans (startLoad_idle ha ..))
  · exact next rfl (startStore_idle ha ..)
  -- LDQ and STQ
  · exact next rfl (bind_idle ha f)
  · exact next rfl ((if_neg (by simp [ha])).trans (bind_idle ha f))
  -- FENCE, the barriers and waits, SIGN and NAP
  · exact next rfl (by simp [htrue, ha])
  · exact next rfl (onObject_idle ha ..)
  · exact next rfl (onObject_idle ha ..)
  · exact next rfl (onObject_idle ha ..)
  · exact next rfl (onObject_idle ha ..)
  · exact next rfl (onObject_idle ha ..)
  · exact last rfl (by simp [htrue, ha])
  · exact next rfl (by simp [ha])
  · exact last rfl (by simp [htrue, ha])
  -- PLST to CBLD
  · obtain ⟨q, hq⟩ : ∃ q, y.fslot k.slotA.toNat Fmt.plane = some q := by
      rw [hfslot]
      exact Option.isSome_iff_exists.1 (by simpa [Ctx.slotBad] using hslot)
    exact next rfl (by simp [hq, ha])
  · exact next rfl (startTile_idle ha ..)
  · exact next rfl (startTransfer_idle ha ..)
  · exact next rfl (startTransfer_idle ha ..)
  · exact next rfl (startTile_idle ha ..)
  · obtain ⟨q, hq⟩ : ∃ q, y.fslot k.slotA.toNat [.cb4] = some q := by
      rw [hfslot]
      exact Option.isSome_iff_exists.1 (by simpa [Ctx.slotBad] using hslot)
    exact next rfl (by simp [hq, ha])
  -- QRD to EMIT
  · exact next rfl (by simp [ha])
  · exact next rfl (by simp [ha])
  · exact next rfl (startAppend_idle ha ..)
  · exact next rfl (startAppend_idle ha ..)
  -- YIELD, TRAP and BKPT
  · refine leaves_next hi rfl (.inr ?_) (wrote_put (begun_wrote hi) (issues_cur hi) y.v) fun _ => rfl
    simp [ha, hsettle]
  · exact next rfl (by simp [ha, hsettle])
  · exact next rfl (by simp [ha, hsettle])
  -- OVL to OVLEV
  · exact next rfl (by simp [ha])
  · exact next rfl (by simp [ha])
  · exact next rfl (by simp [ha])
  · exact next rfl (by simp [ha])
  -- FILL and FWCALL
  · exact next rfl ((if_neg (by simp [hp.element])).trans (fillElements_idle ha f))
  · exact next rfl (by simp [ha])

end Sys2Proof.Machine
end

section
/-!
PROOFS. Column ends, accounts and slice ends (O42).
-/

namespace Sys2Proof.Machine

/-! ## Operations done one after another -/

/-- What every operation of a list leaves as it was, the list leaves. -/
theorem foldl_leaves {α β : Type} {f : State → α → State} (g : State → β) (h : ∀ t a, g (f t a) = g t) (l : List α) (s : State) :
    g (l.foldl f s) = g s := List.foldlRecOn (motive := fun t => g t = g s) l f rfl fun t ht a _ => (h t a).trans ht

/-- One element found among elements of which those found were changed. -/
theorem find?_updateWhere_same {α : Type} {p : α → Bool} {f : α → α} (hf : ∀ a, p (f a) = p a) (xs : List α) :
    (updateWhere p f xs).find? p = (xs.find? p).map f := by
  induction xs with
  | nil => rfl
  | cons a xs ih =>
    rw [updateWhere, List.map_cons, ← updateWhere]
    cases h : p a with
    | true => simp [h, hf]
    | false => simp [h, ih]

/-! ## The end of a column (R13) -/

theorem columnOver_iff {s : State} {c : Column} : s.columnOver c = true ↔
    ∀ v ∈ c.cvs, v.ended = true ∧ v.loads = 0 ∧ v.stores = 0 ∧ v.copies = 0 ∧ v.tileOps = 0 ∧ v.ctdev ≤ s.now := by
  simp [State.columnOver, and_assoc]

/-- Columns and queues: what the end of a column changes of neither, but for its own column and the queue of its batch. -/
def State.colsQueues (s : State) : List Column × List Queue := (s.cols, s.obj.queues)

theorem freeBacking_colsQueues (s : State) (pas : List Nat) : (s.freeBacking pas).colsQueues = s.colsQueues := by
  unfold State.freeBacking
  refine Eq.trans (b := State.colsQueues (List.foldl _ s _)) rfl (foldl_leaves State.colsQueues ?_ _ s)
  exact fun _ _ => rfl

theorem dropGens_colsQueues (s : State) : s.dropGens.colsQueues = s.colsQueues := by
  unfold State.dropGens
  refine foldl_leaves State.colsQueues ?_ _ s
  exact fun _ _ => freeBacking_colsQueues _ _

theorem settle_colsQueues (s : State) : s.settle.colsQueues = s.colsQueues := by rw [settle_spec]; rfl

/-- What follows the end of a column changes neither. -/
theorem settle_dropGens_colsQueues (s : State) : s.settle.dropGens.colsQueues = s.colsQueues :=
  (dropGens_colsQueues _).trans (settle_colsQueues s)

theorem requeue_cols (s : State) (id : Nat) (f : Queue → Queue) : (s.requeue id f).cols = s.cols := by
  unfold State.requeue
  dsimp only
  split <;> rfl

theorem requeue_queues (s : State) (id : Nat) (f : Queue → Queue) :
    (s.requeue id f).obj.queues = updateWhere (·.id == id) (fun q => (f q).takeIn s.now) s.obj.queues := by
  unfold State.requeue
  dsimp only
  split <;> rfl

theorem endLaunch_cols (s : State) (id : Nat) : (s.endLaunch id).cols = s.cols := by
  unfold State.endLaunch
  split
  · rfl
  · split
    · rfl
    · dsimp only
      generalize (!(!s.launchRuns id && _)) = running
      cases running
      · simp only [Bool.false_eq_true, if_false]
        split
        · exact requeue_cols ..
        · rfl
      · rfl

/-- What a column that is over gives up besides its place: its launch, or its batch. -/
def State.columnGone (t : State) (c : Column) : State :=
  match c.launch, c.batch with
  | some l, _ => t.endLaunch l
  | none, some b => t.releaseBatch b
  | none, none => t

/-- A stored error that is not one of a column's lane registers. -/
def PoisonAt.outside (col : Nat) : PoisonAt → Bool
  | .reg k .. | .weak (.reg k ..) | .broken (.reg k ..) => k != col
  | _ => true

/-- A column's place given up. -/
def State.dropColumn (s : State) (col : Nat) : State :=
  { s with cols := s.cols.filter (·.id != col), coh := { s.coh with poison := s.coh.poison.filter (·.outside col) } }

theorem exec_columnEnd_over {s : State} {c : Column} (hc : s.column? c.id = some c) (ho : s.columnOver c = true) :
    exec (.columnEnd c.id) s = .next ((s.dropColumn c.id).columnGone c).settle.dropGens := by
  change execColumnEnd c.id s = _
  simp only [execColumnEnd, hc, ho, Bool.not_true, Bool.false_eq_true, if_false, State.columnGone]
  rcases hl : c.launch with _ | l <;> rcases hb : c.batch with _ | b <;> rfl

theorem columnGone_cols (t : State) (c : Column) : (t.columnGone c).cols = t.cols := by
  unfold State.columnGone
  split
  · exact endLaunch_cols ..
  · exact requeue_cols ..
  · rfl

/-- The queue of a batch whose records are released. -/
theorem columnGone_queue (t : State) {c : Column} {b : Batch} {q : Queue} (hl : c.launch = none) (hb : c.batch = some b)
    (hq : t.queueId? b.qid = some q) : (t.columnGone c).queueId? b.qid =
      some (({ q with msgs := q.msgs.filter fun m => !(decide (b.k0 ≤ m.k) && decide (m.k < b.k0 + b.n)) } : Queue).takeIn t.now) := by
  have hgone : t.columnGone c = t.releaseBatch b := by simp only [State.columnGone, hl, hb]
  rw [hgone, State.queueId?, State.releaseBatch, requeue_queues, find?_updateWhere_same]
  · exact congrArg (Option.map _) hq
  · exact fun _ => rfl

theorem columnEnd_spec (s : State) (c : Column) (hc : s.column? c.id = some c) (ho : s.columnOver c = true) :
    ∃ t, exec (.columnEnd c.id) s = .next t ∧ t.cols = s.cols.filter (·.id != c.id) ∧
      ∀ b q, c.launch = none → c.batch = some b → s.queueId? b.qid = some q → t.queueId? b.qid =
        some (({ q with msgs := q.msgs.filter fun m => !(decide (b.k0 ≤ m.k) && decide (m.k < b.k0 + b.n)) } : Queue).takeIn s.now) := by
  have hk := settle_dropGens_colsQueues ((s.dropColumn c.id).columnGone c)
  refine ⟨_, exec_columnEnd_over hc ho, (congrArg Prod.fst hk).trans (columnGone_cols ..), fun b q hl hb hq => ?_⟩
  exact (congrArg (List.find? _) (congrArg Prod.snd hk)).trans (columnGone_queue (s.dropColumn c.id) hl hb hq)

/-! ## Accounts (R308) -/

theorem refillDue_iff {s : State} : s.refillDue = true ↔ s.now % 1000000 = 0 ∧ s.fw.refilled ≠ s.now := by simp [State.refillDue]

theorem exec_cycleCharge (s : State) (quad : Nat) : exec (.cycleCharge quad) s =
    .next (if quad ∈ s.fw.charged ∨ s.mayIssue quad = true then s else s.charge quad) := by
  change execCycleCharge quad s = _
  simp only [execCycleCharge, Bool.or_eq_true, List.contains_iff_mem]
  split <;> rfl

theorem charge_spec (s : State) (quad : Nat) : quad ∈ (s.charge quad).fw.charged ∧ (s.charge quad).cols = s.cols ∧
    (s.payer quad = none → (s.charge quad).obj.accts = s.obj.accts) ∧
    ∀ k, s.payer quad = some k → (s.charge quad).obj.accts = s.obj.accts.map fun a =>
      if a.part = k.1 ∧ a.acct = s.acctOf k.1 k.2 then { a with level := toLevel (a.level - 1) } else a := by
  unfold State.charge
  cases s.payer quad with
  | none => exact ⟨by simp, rfl, fun _ => rfl, nofun⟩
  | some k =>
    refine ⟨by simp [State.meter], rfl, nofun, fun j hj => ?_⟩
    cases hj
    simp [State.meter, updateWhere]

/-- R308: the convoy that issued on port 0 pays. -/
theorem payer_issued {s : State} {quad : Nat} {i : Issued} (h : s.issued.find? (·.quad == quad) = some i) (hs : i.stalled = false) :
    s.payer quad = some (i.part, i.prog) := by simp [State.payer, h, hs, Option.filter]

/-- R308: where nothing issued, the holder of the accumulator store pays. -/
theorem payer_idle {s : State} {quad : Nat} (h : ∀ i ∈ s.issued, i.quad ≠ quad) :
    s.payer quad = (s.storeHolder quad).map fun k => (k.part, k.prog) := by
  have : s.issued.find? (·.quad == quad) = none := by simpa [List.find?_eq_none] using h
  simp only [State.payer, this, Option.filter_none]

/-! ## Columns that stop (R309, R310) -/

/-- A column whose pre-emption has been asked for (R312). -/
def Column.stopped (k : Column) : Column := { k with phase := .stopping }

/-- The column runs, and has not been killed. -/
def Column.runs (k : Column) : Bool := k.phase == .running && !k.killed

theorem runs_iff {k : Column} : k.runs = true ↔ k.phase = .running ∧ k.killed = false := by simp [Column.runs]

@[simp] theorem stopped_runs (k : Column) : k.stopped.runs = false := by simp [Column.runs, Column.stopped]

/-- The column after a request for its pre-emption, where there was one. -/
def Column.stopIf (k : Column) (asked : Bool) : Column := if asked && k.runs then k.stopped else k

theorem stopIf_stopIf (k : Column) (a b : Bool) : (k.stopIf a).stopIf b = k.stopIf (a || b) := by
  cases a <;> cases b <;> cases h : k.runs <;> simp [Column.stopIf, h]

/-- `t` is `s` with the pre-emption of some running columns asked for and the rooms changed. -/
structure State.Stops (s t : State) : Prop where
  rest : t = { s with cols := t.cols, fw := { s.fw with rooms := t.fw.rooms } }
  cols : ∃ p : Column → Bool, t.cols = s.cols.map fun k => k.stopIf (p k)

namespace State.Stops
variable {s t u : State}

theorem rooms (s : State) (r : List Room) : s.Stops { s with fw := { s.fw with rooms := r } } := ⟨rfl, fun _ => false, by simp [Column.stopIf]⟩

theorem refl (s : State) : s.Stops s := rooms s s.fw.rooms

theorem trans (h : s.Stops t) (h' : t.Stops u) : s.Stops u := by
  obtain ⟨hr, p, hp⟩ := h
  obtain ⟨hr', q, hq⟩ := h'
  refine ⟨?_, fun k => p k || q (k.stopIf (p k)), ?_⟩
  · generalize t.cols = C at hr
    generalize t.fw.rooms = R at hr
    subst hr
    exact hr'
  · rw [hq, hp, List.map_map]
    exact List.map_congr_left fun k _ => stopIf_stopIf k _ _

theorem obj (h : s.Stops t) : t.obj = s.obj := by rw [h.rest]

theorem dry (h : s.Stops t) (part prog : Nat) : t.dry part (t.acctOf part prog) = s.dry part (s.acctOf part prog) := by
  simp only [State.dry, State.account?, State.acctOf, State.route?, h.obj]

theorem usesCore (h : s.Stops t) (k : Column) (core : Nat) : t.usesCore k core = s.usesCore k core := by
  simp only [State.usesCore, State.route?, h.obj]

/-- Every column stands as it stood, or stops. -/
theorem mem (h : s.Stops t) {k : Column} (hk : k ∈ s.cols) : k ∈ t.cols ∨ (k.runs = true ∧ k.stopped ∈ t.cols) := by
  obtain ⟨p, hp⟩ := h.cols
  have hm : k.stopIf (p k) ∈ t.cols := by
    rw [hp]
    exact List.mem_map_of_mem hk
  unfold Column.stopIf at hm
  split at hm
  next hs => exact .inr ⟨((Bool.and_eq_true _ _).mp hs).2, hm⟩
  · exact .inl hm

/-- A column that stops goes on stopping. -/
theorem stopped (h : s.Stops t) {k : Column} (hk : k.stopped ∈ s.cols) : k.stopped ∈ t.cols := by
  rcases h.mem hk with hk | ⟨hr, -⟩
  · exact hk
  · simp at hr

/-- The columns of a route are as many as before. -/
theorem count (h : s.Stops t) (part prog : Nat) : (t.cols.filter fun c => c.part == part && c.prog == prog).length =
    (s.cols.filter fun c => c.part == part && c.prog == prog).length := by
  obtain ⟨p, hp⟩ := h.cols
  rw [hp, List.filter_map, List.length_map]
  congr 2
  funext c
  rw [Function.comp_apply, Column.stopIf]
  split <;> rfl

end State.Stops

theorem stopColumns_stops (s : State) (ids : List Nat) : s.Stops (s.stopColumns ids) :=
  ⟨rfl, fun k => ids.contains k.id, by simp only [State.stopColumns, updateWhere, Column.stopIf, Column.runs, Bool.and_assoc]; rfl⟩

/-- The columns named that run stop. -/
theorem mem_stopColumns {s : State} {ids : List Nat} {k : Column} (hk : k ∈ s.cols) (hi : k.id ∈ ids) (hr : k.runs = true) :
    k.stopped ∈ (s.stopColumns ids).cols := by
  rw [runs_iff] at hr
  refine List.mem_map.2 ⟨k, hk, ?_⟩
  simp [hi, hr, Column.stopped]

theorem reserveRoom_stops (s : State) (part core : Nat) (who : Who) (slice : Bool) : s.Stops (s.reserveRoom part core who slice) := by
  unfold State.reserveRoom
  split
  · exact .refl s
  · exact .rooms s _

theorem serveWaiters_stops (part core : Nat) (ws : List Waiter) (h : State) (ks : List Column) (s : State) :
    s.Stops (h.serveWaiters part core ws ks s) := by
  induction ws generalizing h ks s with
  | nil => exact .refl s
  | cons w ws ih =>
    unfold State.serveWaiters
    dsimp only
    split
    · exact .refl s
    · split
      · exact .refl s
      · split
        · exact .refl s
        · exact ((stopColumns_stops s _).trans (reserveRoom_stops ..)).trans (ih ..)

/-! ## Columns of dry accounts (R309) -/

/-- A dry running column of `stopDry`'s list, taken where it comes in it. -/
def State.stopIfDry (t : State) (part : Nat) (k : Column) : State :=
  if t.dry part (t.acctOf part k.prog) && t.frameLeft part k.prog then t.stopColumns [k.id] else t

theorem stopIfDry_stops (t : State) (part : Nat) (k : Column) : t.Stops (t.stopIfDry part k) := by
  unfold State.stopIfDry
  split
  · exact stopColumns_stops t _
  · exact .refl t

theorem stopIfDrys_stops (part : Nat) (ks : List Column) (t : State) : t.Stops (ks.foldl (fun t k => t.stopIfDry part k) t) :=
  List.foldlRecOn (motive := fun u => t.Stops u) ks _ (.refl t) fun _ hu k _ => hu.trans (stopIfDry_stops _ part k)

/-- A running column of a route with at most 64 columns finds a frame (R313). -/
theorem frameLeft_of_runs {s : State} {k : Column} (hk : k ∈ s.cols) (hr : k.runs = true)
    (hn : (s.cols.filter fun c => c.part == k.part && c.prog == k.prog).length ≤ 64) : s.frameLeft k.part k.prog = true := by
  have hlt : ((s.cols.filter fun c => c.part == k.part && c.prog == k.prog).filter fun c => c.phase != .running).length <
      (s.cols.filter fun c => c.part == k.part && c.prog == k.prog).length :=
    List.length_filter_lt_length_iff_exists.2 ⟨k, by simp [hk], by simp [(runs_iff.1 hr).1]⟩
  rw [List.filter_filter] at hlt
  simp only [State.frameLeft, decide_eq_true_eq, Bool.and_comm (_ && _)]
  omega

/-- A dry running column stops, whatever has stopped before it in the list. -/
theorem stopIfDrys_mem {s : State} {k : Column} (hr : k.runs = true) (hdry : s.dry k.part (s.acctOf k.part k.prog) = true)
    (hn : (s.cols.filter fun c => c.part == k.part && c.prog == k.prog).length ≤ 64) {ks : List Column} (hm : k ∈ ks) {t : State}
    (ht : s.Stops t) (hk : k ∈ t.cols ∨ k.stopped ∈ t.cols) : k.stopped ∈ (ks.foldl (fun t c => t.stopIfDry k.part c) t).cols := by
  induction ks generalizing t with
  | nil => cases hm
  | cons c ks ih =>
    rw [List.foldl_cons]
    rcases hk with hk | hk
    · rcases List.mem_cons.1 hm with rfl | hm
      · have hgo : (t.dry k.part (t.acctOf k.part k.prog) && t.frameLeft k.part k.prog) = true := by
          rw [ht.dry, hdry, frameLeft_of_runs hk hr (by rwa [ht.count])]
          rfl
        refine (stopIfDrys_stops k.part ks _).stopped ?_
        rw [State.stopIfDry, if_pos hgo]
        exact mem_stopColumns hk (by simp) hr
      · have hs := stopIfDry_stops t k.part c
        exact ih hm (ht.trans hs) ((hs.mem hk).imp_right And.right)
    · exact (stopIfDrys_stops k.part ks _).stopped ((stopIfDry_stops t k.part c).stopped hk)

theorem stopDry_eq (s : State) (part core : Nat) : s.stopDry part core = (s.runners part [core]).foldl (fun t k => t.stopIfDry part k) s := rfl

theorem mem_runners {s : State} {part core : Nat} {k : Column} : k ∈ s.runners part [core] ↔
    k ∈ s.cols ∧ k.part = part ∧ k.runs = true ∧ s.usesCore k core = true := by
  simp [State.runners, State.usesAny, Column.runs, and_assoc]

/-! ## Slice ends (R310) -/

theorem slicePart_stops (s : State) (core part : Nat) : (s.stopDry part core).Stops (s.slicePart core part) :=
  (State.Stops.rooms _ _).trans (serveWaiters_stops ..)

theorem slicePart_all (s : State) (core part : Nat) : s.Stops (s.slicePart core part) := by
  have hd : s.Stops (s.stopDry part core) := by
    rw [stopDry_eq]
    exact stopIfDrys_stops ..
  exact hd.trans (slicePart_stops s core part)

theorem sliceParts_stops (core : Nat) (ps : List Partition) (s : State) : s.Stops (ps.foldl (fun t p => t.slicePart core p.pnum) s) :=
  List.foldlRecOn (motive := fun u => s.Stops u) ps _ (.refl s) fun _ hu p _ => hu.trans (slicePart_all _ core p.pnum)

/-- R309: what a slice end asks of a running column of a dry account. -/
structure State.MustStop (s : State) (core : Nat) (k : Column) : Prop where
  runs : k.runs = true
  uses : s.usesCore k core = true
  dry : s.dry k.part (s.acctOf k.part k.prog) = true
  frames : (s.cols.filter fun c => c.part == k.part && c.prog == k.prog).length ≤ 64

theorem State.MustStop.later {s t : State} {core : Nat} {k : Column} (h : s.MustStop core k) (ht : s.Stops t) : t.MustStop core k :=
  ⟨h.runs, by rw [ht.usesCore, h.uses], by rw [ht.dry, h.dry], by rw [ht.count]; exact h.frames⟩

theorem slicePart_mem {s : State} {core : Nat} {k : Column} (h : s.MustStop core k) (hk : k ∈ s.cols) :
    k.stopped ∈ (s.slicePart core k.part).cols := by
  refine (slicePart_stops s core k.part).stopped ?_
  rw [stopDry_eq]
  exact stopIfDrys_mem h.runs h.dry h.frames (mem_runners.2 ⟨hk, rfl, h.runs, h.uses⟩) (.refl s) (.inl hk)

theorem sliceParts_mem {core : Nat} {k : Column} {ps : List Partition} {p : Partition} (hp : p ∈ ps) (hpart : p.pnum = k.part) {s : State}
    (h : s.MustStop core k) (hk : k ∈ s.cols ∨ k.stopped ∈ s.cols) :
    k.stopped ∈ (ps.foldl (fun t p => t.slicePart core p.pnum) s).cols := by
  induction ps generalizing s with
  | nil => cases hp
  | cons q ps ih =>
    rw [List.foldl_cons]
    have hs := slicePart_all s core q.pnum
    rcases hk with hk | hk
    · rcases List.mem_cons.1 hp with rfl | hp
      · rw [hpart]
        exact (sliceParts_stops core ps _).stopped (slicePart_mem h hk)
      · exact ih hp (h.later hs) ((hs.mem hk).imp_right And.right)
    · exact (sliceParts_stops core ps _).stopped (hs.stopped hk)

theorem sliceEnd_spec (s : State) (core : Nat) : ∃ t, exec (.sliceEnd core) s = .next t ∧
    t = { s with cols := t.cols, fw := { s.fw with lastSlice := insertD 0 s.fw.lastSlice core s.now, rooms := t.fw.rooms } } ∧
    (∀ k ∈ s.cols, k ∈ t.cols ∨ (k.phase = .running ∧ k.killed = false ∧ { k with phase := .stopping } ∈ t.cols)) ∧
    ∀ k ∈ s.cols, ∀ p ∈ s.obj.parts, p.pnum = k.part → p.quadsOf core ≠ [] → s.MustStop core k → { k with phase := .stopping } ∈ t.cols := by
  have hs := sliceParts_stops core (s.obj.parts.filter fun p => !(p.quadsOf core).isEmpty)
    { s with fw := { s.fw with lastSlice := insertD 0 s.fw.lastSlice core s.now } }
  refine ⟨_, rfl, hs.rest, fun k hk => ?_, fun k hk p hp hpart hq hm => ?_⟩
  · exact (hs.mem hk).imp_right fun ⟨hr, hm⟩ => ⟨(runs_iff.1 hr).1, (runs_iff.1 hr).2, hm⟩
  · exact sliceParts_mem (List.mem_filter.2 ⟨hp, by simpa using hq⟩) hpart ⟨hm.runs, hm.uses, hm.dry, hm.frames⟩ (.inl hk)

/-- Settles O42: the end of a column, accounts, and the end of a slice, each by its lemma. -/
theorem endsAndAccounts : Obligations.EndsAndAccounts := by
  unfold Obligations.EndsAndAccounts
  refine ⟨fun s c hc => ⟨fun ho => ?_, fun ho => ?_⟩, fun s => ⟨fun hd => ?_, fun hd => ?_⟩, fun s quad => ⟨fun h => ?_, fun hq hi => ?_⟩,
    fun s quad => ⟨fun i hi hs => payer_issued hi hs, payer_idle⟩, fun s core _ => ?_⟩
  · have ho : s.columnOver c = false := by simpa only [Bool.not_eq_true] using mt columnOver_iff.1 ho
    change execColumnEnd c.id s = _
    simp [execColumnEnd, hc, ho]
  · obtain ⟨t, ht, hcols, hq⟩ := columnEnd_spec s c hc (columnOver_iff.2 ho)
    exact ⟨t, ht, hcols, fun b q hl hb hbq => by rw [hq b q hl hb hbq]; rfl⟩
  · exact ⟨s.refill, if_pos (refillDue_iff.2 hd), rfl, rfl⟩
  · exact if_neg (mt refillDue_iff.1 hd)
  · rw [exec_cycleCharge, if_pos h]
  · have hn : ¬(quad ∈ s.fw.charged ∨ s.mayIssue quad = true) := by simp [hq, hi]
    obtain ⟨hcharged, hcols, hnone, hsome⟩ := charge_spec s quad
    refine ⟨s.charge quad, by rw [exec_cycleCharge, if_neg hn], hcharged, hcols, ?_⟩
    cases hp : s.payer quad with
    | none => exact hnone hp
    | some k => exact hsome k hp
  · obtain ⟨t, ht, hrest, hall, hdry⟩ := sliceEnd_spec s core
    exact ⟨t, ht, hrest, hall, fun k hk p hp hpart hquads hr hkill hu hd hn =>
      hdry k hk p hp hpart hquads ⟨runs_iff.2 ⟨hr, hkill⟩, hu, hd, hn⟩⟩

end Sys2Proof.Machine
end

section
/-!
PROOFS. Launches (O41).
-/

namespace Sys2Proof.Machine

/-! ## Lanes at column start (R11, R242, R253) -/

/-- A lane at column start: at ENTRY, its registers and predicates zero. -/
structure Route.Fresh (r : Route) (live : Bool) (l : Lane) : Prop where
  pc : l.pc = r.entry
  isLive : l.live = live
  regs : l.regs = []
  preds : l.preds = []
  trap : l.trap = false

theorem startLane_fresh (r : Route) (live : Bool) : r.Fresh live { r.startLane with live } := ⟨rfl, rfl, rfl, rfl, rfl⟩

/-- The lane that has a tile, if there is one for it. -/
def Route.tileLane (r : Route) (t : Option Tile) : Lane := (t.map (r.startLane.withTile r)).getD r.startLane

/-- The lane that has an element, if there is one for it. -/
def Route.elementLane (r : Route) (e : Option (Tile × Nat × Nat)) : Lane := (e.map fun e => r.startLane.withElement e.1 e.2).getD r.startLane

theorem isSome_get {α : Type} (xs : List α) (i : Nat) : xs[i]?.isSome = decide (i < xs.length) := by
  rw [Bool.eq_iff_iff]
  simp [Option.isSome_iff_exists, List.getElem?_eq_some_iff]

theorem tileLane_fresh (r : Route) (tiles : List Tile) (i : Nat) : r.Fresh (decide (i < tiles.length)) (r.tileLane tiles[i]?) := by
  rw [← isSome_get]
  cases tiles[i]? <;> exact ⟨rfl, rfl, rfl, rfl, rfl⟩

theorem elementLane_fresh (r : Route) (es : List (Tile × Nat × Nat)) (i : Nat) :
    r.Fresh (decide (i < es.length)) (r.elementLane es[i]?) := by
  rw [← isSome_get]
  cases es[i]? <;> exact ⟨rfl, rfl, rfl, rfl, rfl⟩

/-- The lanes of a column's convoys, from a lane for each number in the column. -/
def Route.columnLanes (r : Route) (lane : Nat → Lane) : List (List Lane) :=
  (List.range r.nconv).map fun c => (List.range r.width).map fun l => lane (c * r.width + l)

theorem tileLanes_eq (r : Route) (tiles : List Tile) :
    (List.range r.nconv).map (r.tileLanes tiles) = r.columnLanes fun i => r.tileLane tiles[i]? := by
  refine List.map_congr_left fun c _ => List.map_congr_left fun l _ => ?_
  cases h : tiles[c * r.width + l]? <;> simp [Route.tileLane, h]

theorem elementLanes_eq (r : Route) (es : List (Tile × Nat × Nat)) :
    (List.range r.nconv).map (r.elementLanes es) = r.columnLanes fun i => r.elementLane es[i]? := by
  refine List.map_congr_left fun c _ => List.map_congr_left fun l _ => ?_
  cases h : es[c * r.width + l]? <;> simp [Route.elementLane, h]

/-! ## The column placed (R9, R11) -/

/-- In `w` the newest column is one of a route started with what a launch gives it, on banks that `u` has free. -/
def State.Started (u w : State) (r : Route) (core : Nat) (quads : List Nat) (num : Word) (bm : Bool) (b : Option Batch)
    (sregs : List (Nat × Word)) (live : Nat → Bool) : Prop :=
  ∃ c, w.cols.getLast? = some c ∧ c.part = r.part ∧ c.prog = r.slot ∧ c.colid = BitVec.ofNat 32 r.nextCol ∧ c.task = num ∧ c.bmode = bm ∧
    c.batch = b ∧ c.core = core ∧ some c.banks = u.banksFor r.part r core ∧ c.phase = .running ∧ c.killed = false ∧ c.cvs.map (·.quad) = quads ∧
    ∀ k v, c.cvs[k]? = some v → v.lanes.length = r.width ∧ v.sregs = sregs ∧ v.wait = none ∧ v.loads = 0 ∧ v.stores = 0 ∧ v.copies = 0 ∧
      v.tileOps = 0 ∧ v.stack = [] ∧
      v.boundary = (if w.targetOk (coreOf v.quad) r.part r.slot r.entry || v.ended then [] else [(cBranch, BitVec.setWidth 64 r.entry)]) ∧
      ∀ l < r.width, (v.lane l).pc = r.entry ∧ (v.lane l).live = live (k * r.width + l) ∧
        (v.lane l).regs = [] ∧ (v.lane l).preds = [] ∧ (v.lane l).trap = false

theorem targetOk_congr {s t : State} (hr : t.eng = s.eng) (hi : t.store.istore = s.store.istore) (core part prog : Nat) (pc : PC) :
    t.targetOk core part prog pc = s.targetOk core part prog pc := by
  have hl : t.lineFor core part prog pc = s.lineFor core part prog pc := by
    unfold State.lineFor State.res State.res?
    rw [hr]
  unfold State.targetOk State.lineWord
  rw [hl, hi]

/-- What a new column leaves of the state as it was: the engines, the instruction store and the bounds launches. -/
theorem newColumn_rest (s : State) (r : Route) (p : Spot) (a : Start) : (s.newColumn r p a).eng = s.eng ∧
    (s.newColumn r p a).store.istore = s.store.istore ∧ (s.newColumn r p a).launches = s.launches ∧
    (s.newColumn r p a).obj = s.obj.onRoute r.part r.slot fun r => { r with nextCol := r.nextCol + 1, noBay := false } := by
  have hq (t : State) : ((p.quads.foldl (fun t q => (t.setCksum q 0 0).setCksum q 1 0) t).eng,
      (p.quads.foldl (fun t q => (t.setCksum q 0 0).setCksum q 1 0) t).store.istore,
      (p.quads.foldl (fun t q => (t.setCksum q 0 0).setCksum q 1 0) t).launches) = (t.eng, t.store.istore, t.launches) :=
    foldl_leaves (fun t : State => (t.eng, t.store.istore, t.launches)) (fun _ _ => by rfl) p.quads t
  have hu := hq (s.takeQuads p.quads)
  simp only [Prod.mk.injEq] at hu
  unfold State.newColumn
  cases r.holdsAcc with
  | true => exact ⟨hu.1, hu.2.1, hu.2.2, rfl⟩
  | false => exact ⟨rfl, rfl, rfl, rfl⟩

/-- A convoy that starts where ENTRY is no legal target has that fault before it (R104). -/
theorem enterAt_start (s : State) (r : Route) (lanes : List Lane) (regs : List (Nat × Word)) (quad : Nat) :
    s.enterAt r (Convoy.start lanes regs quad) = { Convoy.start lanes regs quad with
      boundary := if s.targetOk (coreOf quad) r.part r.slot r.entry || (Convoy.start lanes regs quad).ended then []
        else [(cBranch, BitVec.setWidth 64 r.entry)] } := by
  unfold State.enterAt
  change (if s.targetOk (coreOf quad) r.part r.slot r.entry || _ then _ else _) = _
  split <;> rfl

/-- The lanes of convoy `k` of a column. -/
theorem columnLanes_get {r : Route} {lane : Nat → Lane} {k : Nat} {lanes : List Lane} (h : (r.columnLanes lane)[k]? = some lanes) :
    lanes = (List.range r.width).map fun l => lane (k * r.width + l) := by
  simp only [Route.columnLanes, List.getElem?_map, Option.map_eq_some_iff] at h
  obtain ⟨c, hc, rfl⟩ := h
  obtain ⟨-, rfl⟩ := List.getElem?_eq_some_iff.1 hc
  simp

theorem newColumn_started {s u : State} {r : Route} {p : Spot} {a : Start} {lane : Nat → Lane} {live : Nat → Bool} (hq : p.quads.length = r.nconv)
    (hb : u.banksFor r.part r p.core = some p.banks) (hl : a.lanes = r.columnLanes lane) (hf : ∀ i, r.Fresh (live i) (lane i)) :
    u.Started (s.newColumn r p a) r p.core p.quads a.task a.bmode a.batch a.regs live := by
  obtain ⟨heng, histore, -, -⟩ := newColumn_rest s r p a
  have htarget := targetOk_congr heng histore
  refine ⟨_, List.getLast?_concat .., rfl, rfl, rfl, rfl, rfl, rfl, rfl, hb.symm, rfl, rfl, ?_, fun k v hv => ?_⟩
  · have hlen : p.quads.length ≤ a.lanes.length := by simp [hl, Route.columnLanes, hq]
    refine Eq.trans ?_ (List.map_snd_zip hlen)
    rw [List.map_map]
    refine List.map_congr_left fun lq _ => ?_
    rw [Function.comp_apply, enterAt_start]
    rfl
  · simp only [List.getElem?_map, Option.map_eq_some_iff] at hv
    obtain ⟨⟨lanes, quad⟩, hz, rfl⟩ := hv
    rw [hl] at hz
    have hlanes : lanes = _ := columnLanes_get (List.getElem?_zip_eq_some.1 hz).1
    rw [enterAt_start, htarget]
    refine ⟨by simp [Convoy.start, hlanes], rfl, rfl, rfl, rfl, rfl, rfl, rfl, rfl, fun l hlt => ?_⟩
    obtain ⟨hpc, hlive, hregs, hpreds, htrap⟩ := hf (k * r.width + l)
    have hlane (w : Convoy) (hw : w.lanes = lanes) : w.lane l = lane (k * r.width + l) := by simp [Convoy.lane, hw, hlanes, hlt]
    rw [hlane _ rfl]
    exact ⟨hpc, hlive, hregs, hpreds, htrap⟩

/-! ## Placing (R8, R217) -/

/-- R216: the overlay of ENTRY is in the route's directory, and resident on the cores of a column. -/
def State.entryResident (s : State) (r : Route) (core : Nat) : Prop := (r.dirEntry (pcHandle r.entry)).isSome = true ∧
  ∀ k ∈ r.coresAt core, (s.res k r.part r.slot (pcHandle r.entry)).st = .resident

theorem load_resident {s : State} {core part prog handle : Nat} (d : DirEntry) (h : (s.res core part prog handle).st = .resident) :
    s.load core part prog handle d = (s, .resident) := by simp only [State.load, h]

theorem entryLoads_resident {s : State} {r : Route} {d : DirEntry} (hd : r.dirEntry (pcHandle r.entry) = some d) (cores : List Nat)
    (h : ∀ k ∈ cores, (s.res k r.part r.slot (pcHandle r.entry)).st = .resident) : s.entryLoads r cores = (s, .resident) := by
  induction cores with
  | nil => rfl
  | cons core rest ih =>
    obtain ⟨hcore, hrest⟩ := List.forall_mem_cons.1 h
    have hne : (LoadAnswer.resident == LoadAnswer.loading) = false := rfl
    simp only [State.entryLoads, hd, load_resident d hcore, hne, Bool.false_eq_true, if_false, ih hrest]

/-- A column that may be placed, and whose overlay is resident, is. -/
theorem placing_go {s : State} {r : Route} {bm : Bool} {core : Nat} {quads : List Nat} (hm : s.mayPlace r bm core quads = true)
    (he : s.entryResident r core) : quads.length = r.nconv ∧ ∃ banks, s.banksFor r.part r core = some banks ∧
      s.placing r bm core quads = .go s { core, quads, banks } := by
  have hroom := hm
  simp only [State.mayPlace, State.quadsOk, Bool.and_eq_true, beq_iff_eq] at hroom
  obtain ⟨⟨⟨-, ⟨hq, -⟩, -⟩, hb⟩, -⟩ := hroom
  obtain ⟨banks, hb⟩ := Option.isSome_iff_exists.1 hb
  obtain ⟨hdir, hres⟩ := he
  obtain ⟨d, hd⟩ := Option.isSome_iff_exists.1 hdir
  refine ⟨hq, banks, hb, ?_⟩
  simp only [State.placing, hm, Bool.not_true, Bool.false_eq_true, if_false, hb, entryLoads_resident hd _ hres]

/-- Banks depend on the partitions and the columns alone. -/
theorem banksFor_congr {s t : State} (hp : t.obj.parts = s.obj.parts) (hc : t.cols = s.cols) (part : Nat) (r : Route) (core : Nat) :
    t.banksFor part r core = s.banksFor part r core := by
  have hfree (bank : Nat) : t.bankFree part bank = s.bankFree part bank := by simp only [State.bankFree, State.part?, hp, hc]
  simp only [State.banksFor, State.banksAt, funext hfree]

/-! ## Batches (R304) -/

/-- Deciding a batch captures weight sets, reserves the batch's records and notes it in its route. -/
theorem decideBatch_rest {s t : State} {r : Route} {b : Batch} (h : s.decideBatch r = some (t, b)) :
    t.eng = s.eng ∧ t.cols = s.cols ∧ t.obj.parts = s.obj.parts := by
  simp only [State.decideBatch] at h
  split at h
  · cases h; exact ⟨rfl, rfl, rfl⟩
  · split at h
    · cases h
    · split at h
      · cases h
      · cases h; exact ⟨rfl, rfl, rfl⟩

/-- The first column of a bounds launch. -/
theorem startBounds_started {s u : State} {r : Route} {p : Spot} (hq : p.quads.length = r.nconv)
    (hb : u.banksFor r.part r p.core = some p.banks) (task : Word) (arg : DWord) (batch : Option Batch) (msize epoch : Nat)
    (regs : List (Nat × Word)) : u.Started (s.startBounds r p task arg batch msize epoch regs) r p.core p.quads task true batch regs
      fun i => decide (i < r.roundZero.length) := by
  exact newColumn_started hq hb (tileLanes_eq r r.roundZero) fun i => tileLane_fresh r _ i

theorem startBatch_started {s u : State} {r : Route} {p : Spot} (hq : p.quads.length = r.nconv)
    (hb : u.banksFor r.part r p.core = some p.banks) (b : Batch) :
    u.Started (s.startBatch r p b) r p.core p.quads 0xFFFFFFFF r.bounds (some b) (startRegs (BitVec.ofNat 64 b.addr) b.n b.msize)
      fun i => if r.bounds then decide (i < r.roundZero.length) else decide (i < b.n) := by
  unfold State.startBatch
  cases hbounds : r.bounds with
  | true => exact startBounds_started hq hb ..
  | false => exact newColumn_started hq hb rfl fun i => startLane_fresh r _

theorem exec_batchLaunch_idle {s : State} {part prog core : Nat} {quads : List Nat} {r : Route} (hr : s.route? part prog = some r)
    (h : r.taskMode = true ∨ s.mayPlace r r.bounds core quads = false) : exec (.batchLaunch part prog core quads) s = .next s := by
  have : (r.taskMode || !s.mayPlace r r.bounds core quads) = true := by rcases h with h | h <;> simp [h]
  change execBatchLaunch part prog core quads s = _
  simp only [execBatchLaunch, hr, this, if_true]

theorem exec_batchLaunch_none {s : State} {part prog core : Nat} {quads : List Nat} {r : Route} (hr : s.route? part prog = some r)
    (htask : r.taskMode = false) (hm : s.mayPlace r r.bounds core quads = true) (hd : s.decideBatch r = none) :
    exec (.batchLaunch part prog core quads) s = .next s := by
  change execBatchLaunch part prog core quads s = _
  simp [execBatchLaunch, hr, htask, hm, hd]

/-- A batch decided, with room and its overlay there, starts a column or the first of a bounds launch. -/
theorem exec_batchLaunch_some {s t : State} {part prog core : Nat} {quads : List Nat} {r : Route} {b : Batch}
    (hr : s.route? part prog = some r) (htask : r.taskMode = false) (hm : s.mayPlace r r.bounds core quads = true)
    (hd : s.decideBatch r = some (t, b)) (hmt : t.mayPlace r r.bounds core quads = true) (he : s.entryResident r core) :
    ∃ w, exec (.batchLaunch part prog core quads) s = .next w ∧
      s.Started w r core quads 0xFFFFFFFF r.bounds (some b) (startRegs (BitVec.ofNat 64 b.addr) b.n b.msize) fun i =>
        if r.bounds then decide (i < r.roundZero.length) else decide (i < b.n) := by
  obtain ⟨heng, hcols, hparts⟩ := decideBatch_rest hd
  have het : t.entryResident r core := ⟨he.1, fun k hk => by simpa only [State.res, State.res?, heng] using he.2 k hk⟩
  obtain ⟨hq, banks, hb, hgo⟩ := placing_go hmt het
  rw [banksFor_congr hparts hcols] at hb
  refine ⟨t.startBatch r ⟨core, quads, banks⟩ b, ?_, startBatch_started (p := ⟨core, quads, banks⟩) hq hb b⟩
  change execBatchLaunch part prog core quads s = _
  simp [execBatchLaunch, hr, htask, hm, hd, hgo]

/-- R304: no batch is formed below THRESH before a timeout has passed. -/
theorem decideBatch_none {s : State} {r : Route} {q : Queue} (hw : r.waiting = none) (hq : s.queue? r.part r.qnum = some q)
    (hn : (q.unreserved s.now).length < r.thresh) (ho : r.overdue q s.now = false) (hd : r.due = false) : s.decideBatch r = none := by
  have : r.launchable q s.now = false := by simp [Route.launchable, hn, ho, hd]
  simp [State.decideBatch, hw, hq, this]

/-- R304: a batch is formed at the launch condition. -/
theorem decideBatch_formed {s : State} {r : Route} {q : Queue} (hw : r.waiting = none) (hq : s.queue? r.part r.qnum = some q)
    (hl : r.launchable q s.now = true) : ∃ t, s.decideBatch r = some (t, r.nextBatch q s.now (s.weightEpoch r.part r.ctx)) := by
  simp only [State.decideBatch, hw, hq, hl, Bool.not_true, Bool.false_eq_true, if_false]
  exact ⟨_, rfl⟩

/-- R304: a batch begins with the oldest unreserved record, has at most a column's lanes, and does not wrap in its ring. -/
theorem nextBatch_spec {r : Route} {q : Queue} {now : Nat} (epoch : Nat) {m : Msg} (hm : (q.unreserved now).head? = some m) (hcap : 0 < q.cap) :
    let b := r.nextBatch q now epoch
    b.k0 = m.k ∧ b.addr = q.slotVa m.k ∧ b.msize = q.msize ∧ b.n ≤ r.laneCount ∧ b.n ≤ (q.unreserved now).length ∧
      b.k0 % q.cap + b.n ≤ q.cap := by
  have hmod := Nat.mod_lt m.k hcap
  simp only [Route.nextBatch, hm, Option.map_some, Option.getD_some, true_and]
  omega

theorem decideBatch_some {s : State} {r : Route} {q : Queue} (hw : r.waiting = none) (hq : s.queue? r.part r.qnum = some q)
    (hl : r.thresh ≤ (q.unreserved s.now).length ∨ r.overdue q s.now = true) (hcap : 0 < q.cap) (hu : q.unreserved s.now ≠ []) :
    ∃ t b m, s.decideBatch r = some (t, b) ∧ (q.unreserved s.now).head? = some m ∧ b.k0 = m.k ∧ b.addr = q.slotVa m.k ∧ b.msize = q.msize ∧
      b.n ≤ r.laneCount ∧ b.n ≤ (q.unreserved s.now).length ∧ b.k0 % q.cap + b.n ≤ q.cap := by
  obtain ⟨m, ms, hms⟩ := List.exists_cons_of_ne_nil hu
  have hhead : (q.unreserved s.now).head? = some m := by rw [hms]; rfl
  obtain ⟨t, ht⟩ := decideBatch_formed hw hq (by rcases hl with hl | hl <;> simp [Route.launchable, hl])
  exact ⟨t, _, m, ht, hhead, nextBatch_spec _ hhead hcap⟩

theorem route?_spec {s : State} {part prog : Nat} {r : Route} (h : s.route? part prog = some r) : r.part = part ∧ r.slot = prog := by
  simpa using List.find?_some h

/-- A route found after it was changed. -/
theorem route?_onRoute {s t : State} {part prog : Nat} {r : Route} {f : Route → Route} (hr : s.route? part prog = some r)
    (hf : ∀ r, (f r).part = r.part ∧ (f r).slot = r.slot) (ht : t.obj.routes = (s.obj.onRoute part prog f).routes) :
    t.route? part prog = some (f r) := by
  rw [State.route?, ht, Objects.onRoute, find?_updateWhere_same]
  · exact congrArg (Option.map f) hr
  · exact fun r => by simp [hf]

theorem coalescingTimeout_spec {s : State} {part prog : Nat} {r : Route} {q : Queue} (hr : s.route? part prog = some r)
    (hq : s.queue? part r.qnum = some q) (htask : r.taskMode = false) (ho : r.overdue q s.now = true) :
    ∃ t, exec (.coalescingTimeout part prog) s = .next t ∧ t.route? part prog = some { r with due := true } := by
  refine ⟨{ s with obj := s.obj.onRoute part prog fun r => { r with due := true } }, ?_,
    route?_onRoute (f := fun r => { r with due := true }) hr (fun _ => ⟨rfl, rfl⟩) rfl⟩
  change execCoalescingTimeout part prog s = _
  simp only [execCoalescingTimeout, hr, hq, htask, ho]
  rfl

/-! ## Named tasks (R306) -/

theorem task?_newColumn (s : State) (r : Route) (p : Spot) (a : Start) (part n : Nat) :
    (s.newColumn r p a).task? part n = s.task? part n := by
  obtain ⟨-, -, -, hobj⟩ := newColumn_rest s r p a
  rw [State.task?, hobj]
  rfl

theorem task?_freeTask (s : State) (part n : Nat) : (s.freeTask part n).task? part n = none := by
  simp only [State.task?, State.freeTask, List.find?_eq_none, List.mem_filter]
  rintro k ⟨-, hk⟩ hn
  simp [hn] at hk

/-- The state a task's column is placed in: its weight sets captured, its entry free. -/
def State.taskTaken (s : State) (r : Route) (part n : Nat) : State := (s.capture part r.ctx).freeTask part n

/-- A task's column, or the first of its bounds launch. -/
def State.startTask (s : State) (r : Route) (p : Spot) (part n : Nat) (k : Task) : State :=
  if r.bounds then (s.taskTaken r part n).startBounds r p (BitVec.ofNat 32 n) k.arg none 0 (s.weightEpoch part r.ctx) (startRegs k.arg 0 0)
  else (s.taskTaken r part n).newColumn r p
    { task := BitVec.ofNat 32 n, bmode := false, launch := none, batch := none, epoch := s.weightEpoch part r.ctx, regs := startRegs k.arg 0 0,
      lanes := (List.range r.nconv).map (r.startLanes fun _ => true) }

theorem startTask_started {s u : State} {r : Route} {p : Spot} (hq : p.quads.length = r.nconv)
    (hb : u.banksFor r.part r p.core = some p.banks) (part n : Nat) (k : Task) :
    u.Started (s.startTask r p part n k) r p.core p.quads (BitVec.ofNat 32 n) r.bounds none (startRegs k.arg 0 0)
      fun i => if r.bounds then decide (i < r.roundZero.length) else true := by
  unfold State.startTask
  cases r.bounds with
  | true => exact startBounds_started hq hb ..
  | false => exact newColumn_started hq hb rfl fun i => startLane_fresh r _

theorem task?_startTask (s : State) (r : Route) (p : Spot) (part n : Nat) (k : Task) : (s.startTask r p part n k).task? part n = none := by
  unfold State.startTask
  cases r.bounds with
  | true =>
    simp only [if_true, State.startBounds, task?_newColumn]
    exact task?_freeTask (s.capture part r.ctx) part n
  | false =>
    simp only [Bool.false_eq_true, if_false, task?_newColumn]
    exact task?_freeTask (s.capture part r.ctx) part n

theorem taskLaunch_spec {s : State} {part prog n core : Nat} {quads : List Nat} {r : Route} {k : Task} (hr : s.route? part prog = some r)
    (hk : s.task? part n = some k) (hprog : k.prog = prog) (hcounter : k.counter = 0) (htask : r.taskMode = true)
    (hm : s.mayPlace r r.bounds core quads = true) (he : s.entryResident r core) :
    ∃ w, exec (.taskLaunch part n core quads) s = .next w ∧ w.task? part n = none ∧
      s.Started w r core quads (BitVec.ofNat 32 n) r.bounds none (startRegs k.arg 0 0) fun i =>
        if r.bounds then decide (i < r.roundZero.length) else true := by
  obtain ⟨hq, banks, hb, hgo⟩ := placing_go hm he
  subst hprog
  refine ⟨s.startTask r ⟨core, quads, banks⟩ part n k, ?_, task?_startTask .., startTask_started (p := ⟨core, quads, banks⟩) hq hb part n k⟩
  change execTaskLaunch part n core quads s = _
  simp only [execTaskLaunch, hk, hr, hcounter, htask, ne_eq, not_true_eq_false, decide_false, Bool.not_true, Bool.or_self,
    Bool.false_eq_true, if_false, hgo, State.startTask]
  cases r.bounds <;> rfl

/-! ## Bounds rounds and element passes (R240, R242, R253) -/

/-- The first entry that is changed is found as it was changed. -/
theorem find?_updateWhere_of_find? {α : Type} {p : α → Bool} {f : α → α} {a : α} (hf : p (f a) = true) {xs : List α} (h : xs.find? p = some a) :
    (updateWhere p f xs).find? p = some (f a) := by
  induction xs with
  | nil => cases h
  | cons x xs ih =>
    rw [updateWhere, List.map_cons, ← updateWhere]
    cases hx : p x with
    | true =>
      rw [List.find?_cons_of_pos hx] at h
      cases h
      simp [hf]
    | false =>
      rw [List.find?_cons_of_neg (by simp [hx])] at h
      simp [hx, ih h]

theorem launch?_onLaunch {s : State} {id : Nat} {l : Launch} (h : s.launch? id = some l) {f : Launch → Launch} (hf : (f l).id = id) :
    (s.onLaunch id f).launch? id = some (f l) :=
  find?_updateWhere_of_find? (p := fun x : Launch => x.id == id) (by simp [hf]) h

theorem launch?_newColumn (s : State) (r : Route) (p : Spot) (a : Start) (id : Nat) : (s.newColumn r p a).launch? id = s.launch? id := by
  obtain ⟨-, -, hlaunches, -⟩ := newColumn_rest s r p a
  rw [State.launch?, hlaunches]
  rfl

/-- R240: a launch at its next round. -/
def Launch.roundAfter (l : Launch) : Launch := { l with tiles := l.nextTiles, launched := 0, quarters := [], round := l.round + 1 }

theorem nextRound_of_over {s : State} {r : Route} {l : Launch} (h : l.tiles.length ≤ l.launched * r.laneCount ∧ s.launchRuns l.id = false) :
    s.nextRound r l = l.roundAfter := by
  simp [State.nextRound, h, Launch.roundAfter]

theorem nextRound_of_not_over {s : State} {r : Route} {l : Launch} (h : ¬(l.tiles.length ≤ l.launched * r.laneCount ∧ s.launchRuns l.id = false)) :
    s.nextRound r l = l := by
  have : (l.launched * r.laneCount < l.tiles.length || s.launchRuns l.id) = true := by
    rwa [not_and_or, Nat.not_le, Bool.not_eq_false, ← decide_eq_true_iff (p := _ < _), ← Bool.or_eq_true] at h
  simp only [State.nextRound, this, if_true]

/-- The lanes from number `n` on that have a tile. -/
theorem drop_isLive {α : Type} (xs : List α) (n : Nat) : (fun i => decide (i < (xs.drop n).length)) = fun i => decide (n + i < xs.length) := by
  funext i
  rw [List.length_drop]
  exact decide_eq_decide.2 (by omega)

theorem tiles_started {s u : State} {r : Route} {p : Spot} {a : Start} {tiles : List Tile} {n : Nat} (hq : p.quads.length = r.nconv)
    (hb : u.banksFor r.part r p.core = some p.banks) (hl : a.lanes = (List.range r.nconv).map (r.tileLanes (tiles.drop n))) :
    u.Started (s.newColumn r p a) r p.core p.quads a.task a.bmode a.batch a.regs fun i => decide (n + i < tiles.length) := by
  rw [← drop_isLive]
  exact newColumn_started hq hb (hl.trans (tileLanes_eq r _)) fun i => tileLane_fresh r _ i

theorem elements_started {s u : State} {r : Route} {p : Spot} {a : Start} {es : List (Tile × Nat × Nat)} (hq : p.quads.length = r.nconv)
    (hb : u.banksFor r.part r p.core = some p.banks) (hl : a.lanes = (List.range r.nconv).map (r.elementLanes es)) :
    u.Started (s.newColumn r p a) r p.core p.quads a.task a.bmode a.batch a.regs fun i => decide (i < es.length) :=
  newColumn_started hq hb (hl.trans (elementLanes_eq r es)) fun i => elementLane_fresh r es i

/-- The next column of a round of a launch. -/
def State.startRound (s : State) (r : Route) (p : Spot) (l : Launch) : State :=
  (s.onLaunch l.id fun _ => { l with launched := l.launched + 1 }).newColumn r p
    { task := l.task, bmode := true, launch := some l.id, batch := l.batch, epoch := l.epoch, regs := l.regs
      lanes := (List.range r.nconv).map (r.tileLanes (l.tiles.drop (l.launched * r.laneCount))) }

theorem exec_boundsRoundLaunch {s : State} {r : Route} {l : Launch} (hl : s.launch? l.id = some l) (hr : s.route? l.part l.prog = some r)
    (core : Nat) (quads : List Nat) : exec (.boundsRoundLaunch l.id core quads) s =
      if (s.nextRound r l).killed || (s.nextRound r l).element ||
        (s.nextRound r l).tiles.length ≤ (s.nextRound r l).launched * r.laneCount then .next s
      else match s.placing r true core quads with
        | .hold u => .next u
        | .go u p => .next (u.startRound r p (s.nextRound r l)) := by
  change execBoundsRoundLaunch l.id core quads s = _
  simp only [execBoundsRoundLaunch, hl, hr]
  rfl

/-- The next column of the round, the launch being `m` in the round that it belongs to. -/
theorem boundsRoundLaunch_spec {s : State} {r : Route} {l m : Launch} {core : Nat} {quads : List Nat} (hl : s.launch? l.id = some l)
    (hr : s.route? l.part l.prog = some r) (hm : s.nextRound r l = m) (hid : m.id = l.id) (hkilled : m.killed = false) (hel : m.element = false)
    (hlt : m.launched * r.laneCount < m.tiles.length) (hmay : s.mayPlace r true core quads = true) (he : s.entryResident r core) :
    ∃ w, exec (.boundsRoundLaunch l.id core quads) s = .next w ∧ w.launch? l.id = some { m with launched := m.launched + 1 } ∧
      s.Started w r core quads m.task true m.batch m.regs fun i => decide (m.launched * r.laneCount + i < m.tiles.length) := by
  obtain ⟨hq, banks, hb, hgo⟩ := placing_go hmay he
  refine ⟨s.startRound r ⟨core, quads, banks⟩ m, ?_, ?_, tiles_started (p := ⟨core, quads, banks⟩) hq hb rfl⟩
  · simp only [exec_boundsRoundLaunch hl hr, hm, hkilled, hel, Bool.or_self, Nat.not_le.2 hlt, decide_false,
      Bool.false_eq_true, if_false, hgo]
  · rw [← hid] at hl ⊢
    rw [State.startRound, launch?_newColumn]
    exact launch?_onLaunch hl rfl

theorem boundsRoundLaunch_idle {s : State} {r : Route} {l m : Launch} {core : Nat} {quads : List Nat} (hl : s.launch? l.id = some l)
    (hr : s.route? l.part l.prog = some r) (hm : s.nextRound r l = m) (h : m.element = true ∨ m.tiles.length ≤ m.launched * r.laneCount) :
    exec (.boundsRoundLaunch l.id core quads) s = .next s := by
  rw [exec_boundsRoundLaunch hl hr, hm, if_pos]
  rcases h with h | h <;> simp [h]

/-- The next element column of a launch, the first being number 0. -/
def State.startElements (s : State) (r : Route) (p : Spot) (l : Launch) (n : Nat) (es : List (Tile × Nat × Nat)) : State :=
  (s.onLaunch l.id fun l => { l with element := true, launched := n + 1 }).newColumn r p
    { task := l.task, bmode := false, launch := some l.id, batch := l.batch, epoch := l.epoch, regs := l.regs
      lanes := (List.range r.nconv).map (r.elementLanes es) }

/-- The number of a launch's next element column. -/
def Launch.elementColumn (l : Launch) : Nat := if l.element then l.launched else 0

/-- The elements that are left for a launch's next element column and the later ones. -/
def Launch.elementsLeft (l : Launch) (r : Route) : List (Tile × Nat × Nat) := (l.elements r).drop (l.elementColumn * r.laneCount)

theorem exec_elementPassLaunch {s : State} {r : Route} {l : Launch} (hl : s.launch? l.id = some l) (hr : s.route? l.part l.prog = some r)
    (core : Nat) (quads : List Nat) : exec (.elementPassLaunch l.id core quads) s =
      if l.killed || !s.passOver r l || (l.elementsLeft r).isEmpty then .next s
      else match s.placing r false core quads with
        | .hold u => .next u
        | .go u p => .next (u.startElements r p l l.elementColumn (l.elementsLeft r)) := by
  change execElementPassLaunch l.id core quads s = _
  simp only [execElementPassLaunch, hl, hr]
  rfl

theorem elementPassLaunch_spec {s : State} {r : Route} {l : Launch} {core : Nat} {quads : List Nat} (hl : s.launch? l.id = some l)
    (hr : s.route? l.part l.prog = some r) (hkilled : l.killed = false) (hpass : s.passOver r l = true) (hes : l.elementsLeft r ≠ [])
    (hmay : s.mayPlace r false core quads = true) (he : s.entryResident r core) :
    ∃ w, exec (.elementPassLaunch l.id core quads) s = .next w ∧
      w.launch? l.id = some { l with element := true, launched := l.elementColumn + 1 } ∧
      s.Started w r core quads l.task false l.batch l.regs fun i => decide (i < (l.elementsLeft r).length) := by
  obtain ⟨hq, banks, hb, hgo⟩ := placing_go hmay he
  refine ⟨s.startElements r ⟨core, quads, banks⟩ l l.elementColumn (l.elementsLeft r), ?_, ?_,
    elements_started (p := ⟨core, quads, banks⟩) hq hb rfl⟩
  · simp [exec_elementPassLaunch hl hr, hkilled, hpass, hes, hgo]
  · rw [State.startElements, launch?_newColumn]
    exact launch?_onLaunch hl rfl

theorem elementPassLaunch_idle {s : State} {r : Route} {l : Launch} {core : Nat} {quads : List Nat} (hl : s.launch? l.id = some l)
    (hr : s.route? l.part l.prog = some r) (h : s.passOver r l = false ∨ l.elementsLeft r = []) :
    exec (.elementPassLaunch l.id core quads) s = .next s := by
  rw [exec_elementPassLaunch hl hr, if_pos]
  rcases h with h | h <;> simp [h]

theorem passOver_iff {s : State} {r : Route} {l : Launch} : s.passOver r l = true ↔
    l.element = true ∨ (l.quarters = [] ∧ l.tiles.length ≤ l.launched * r.laneCount ∧ s.launchRuns l.id = false) := by
  simp only [State.passOver, Bool.or_eq_true, Bool.and_eq_true, Bool.not_eq_true', decide_eq_true_eq, List.isEmpty_iff]
  tauto

/-- Settles O41: each launch places its column through `newColumn`, whose convoys and lanes stand as `newColumn_started` says. -/
theorem launches : Obligations.Launches := by
  unfold Obligations.Launches
  intro started s part prog core quads r hr resident
  have hpart := route?_spec hr
  refine ⟨fun htask hm => ?_, exec_batchLaunch_idle hr, fun q hw hq => ?_, fun q hq => coalescingTimeout_spec hr hq,
    fun n k hk hprog hcounter htask hm he => taskLaunch_spec hr hk hprog hcounter htask hm he, fun l hl hlpart hlprog hkilled => ?_⟩
  · cases hd : s.decideBatch r with
    | none => exact exec_batchLaunch_none hr htask hm hd
    | some tb => exact fun hmt he => exec_batchLaunch_some hr htask hm hd hmt he
  · rw [← hpart.1] at hq
    exact ⟨decideBatch_none hw hq, decideBatch_some hw hq⟩
  · rw [← hlpart, ← hlprog] at hr
    refine ⟨?_, fun hpass hes hmay he => elementPassLaunch_spec hl hr hkilled (passOver_iff.2 hpass) hes hmay he, fun h => ?_⟩
    · by_cases hover : l.tiles.length ≤ l.launched * r.laneCount ∧ s.launchRuns l.id = false
      · simp only [hover, and_self, if_true]
        exact ⟨fun hel hlt hmay he => boundsRoundLaunch_spec hl hr (nextRound_of_over hover) rfl hkilled hel hlt hmay he,
          boundsRoundLaunch_idle hl hr (nextRound_of_over hover)⟩
      · simp only [hover, if_false]
        exact ⟨fun hel hlt hmay he => boundsRoundLaunch_spec hl hr (nextRound_of_not_over hover) rfl hkilled hel hlt hmay he,
          boundsRoundLaunch_idle hl hr (nextRound_of_not_over hover)⟩
    · refine elementPassLaunch_idle hl hr (h.imp_left fun h => ?_)
      rwa [← passOver_iff, Bool.not_eq_true] at h

end Sys2Proof.Machine
end

section
/-!
PROOFS. Pre-emption (O43): what the paging service, faults and frames leave of the columns.
-/

namespace Sys2Proof.Machine

/-! ## Reads and checks -/

theorem State.ReadsTo.cols {s t : State} (h : s.ReadsTo t) : t.cols = s.cols := by rw [h]

theorem translate_cols {s t : State} {b : Via} {part ctx va : Nat} {epoch : Option Nat} {perm : Perm} {z : Trans}
    (h : s.translate b part ctx epoch va perm = .ok (z, t)) : t.cols = s.cols := (translate_reads h).cols

theorem checkBytes_cols (s : State) (part : Nat) (loc : Loc) (a n : Nat) : (s.checkBytes part loc a n).cols = s.cols :=
  (checkBytes_reads s part loc a n).cols

theorem tryGrant_cols (s : State) (line : Nat) (h : Holder) (ends : Nat) : ((s.grant line h ends).getD s).cols = s.cols := by
  cases hg : s.grant line h ends with
  | none => rfl
  | some t => exact (grant_reads hg).cols

theorem touched_cols (s : State) (b : Via) (part ctx : Nat) (epoch : Option Nat) (va : Nat) : (s.touched b part ctx epoch va).cols = s.cols := by
  unfold State.touched
  split
  · rfl
  · split
    next h => exact (leafFor_reads h).cols
    · split
      · exact ((leaseWalk_reads _ _ _ _).cols).trans (checkWalk_reads _ _ _ _).cols
      · rfl

theorem rangeRead_cols (s : State) (b : Via) (part ctx : Nat) (own : Option (Holder × Nat)) (va n : Nat) :
    (s.rangeRead b part ctx own va n).cols = s.cols := by
  induction n generalizing s own va with
  | zero => rfl
  | succ n ih =>
    have hcheck (z : Trans) : ((s.touched b part ctx none va).checkBytes part z.loc z.pa 1).cols = s.cols :=
      (checkBytes_cols ..).trans (touched_cols ..)
    dsimp only [State.rangeRead]
    split
    · exact touched_cols ..
    · split <;> split
      exacts [(tryGrant_cols ..).trans (hcheck _), hcheck _, (ih ..).trans ((tryGrant_cols ..).trans (hcheck _)), (ih ..).trans (hcheck _)]

/-! ## Writes, rings and fault queues -/

@[simp] theorem ramWrite_cols (s : State) (pf : Bool) (a : Nat) (bs : List Byte) : (s.ramWrite pf a bs).1.cols = s.cols := by
  cases pf <;> rfl

theorem flushPosts_cols (s : State) : s.flushPosts.cols = s.cols :=
  foldl_leaves State.cols (fun _ _ => ramWrite_cols ..) _ s

theorem ringWrite_cols (s : State) (pf : Bool) (part base n : Nat) (entry : List Byte) : (s.ringWrite pf part base n entry).cols = s.cols := by
  unfold State.ringWrite
  dsimp only
  split
  · rw [State.blackBox, State.ramWriteNum, ramWrite_cols]
  · rw [flushPosts_cols, ramWrite_cols]

theorem report_cols (s : State) (c : Column) (quad : Nat) (code : BitVec 16) (addr : DWord) (access service : Nat) :
    (s.report c quad code addr access service).cols = s.cols := by
  unfold State.report State.faultEntry
  split
  · exact ringWrite_cols ..
  · rfl

theorem poke_cols (s : State) (own : Option Nat) (loc : Loc) (a : Nat) (bs : List Byte) : (s.poke own loc a bs).1.cols = s.cols := by
  cases loc <;> rfl

@[simp] theorem ringBytes_cols (s : State) (core part ctx va : Nat) (bs : List Byte) : (s.ringBytes core part ctx va bs).1.cols = s.cols := by
  induction bs generalizing s va with
  | nil => rfl
  | cons b bs ih =>
    dsimp only [State.ringBytes]
    rw [ih]
    split
    next h => exact (poke_cols ..).trans (translate_cols h)
    · rfl

@[simp] theorem meterCol_cols (s : State) (col k n : Nat) : (s.meterCol col k n).cols = s.cols := by
  unfold State.meterCol
  split <;> rfl

@[simp] theorem settle_cols (s : State) : s.settle.cols = s.cols := by rw [settle_spec]

theorem note_cols (s : State) (r : Rec) (outcome : Nat) (v : Version) : (s.note r outcome v).cols = s.cols := by
  rw [State.note, State.milestone, ringWrite_cols, State.putRec, ramWrite_cols]

/-! ## Pages (R324, R350 to R352) -/

theorem rekeyed_cols (s old : State) (lines : List Nat) : (s.rekeyed old lines).cols = s.cols :=
  foldl_leaves State.cols (fun t _ => by rw [State.putRaw, State.devWriteNum, State.devWrite_cols]) _ s

theorem addPage_cols (s : State) (g : Page) : (s.addPage g).cols = s.cols := by
  unfold State.addPage
  dsimp only
  split
  · rfl
  · split
    · rfl
    · exact rekeyed_cols ..

theorem takePage_cols {s t : State} {part size pa : Nat} {data : Option Nat} (h : s.takePage part data size = some (pa, t)) : t.cols = s.cols := by
  simp only [State.takePage, Option.bind_eq_some_iff, Option.map_eq_some_iff, Prod.mk.injEq] at h
  obtain ⟨p, -, a, -, -, rfl⟩ := h
  rfl

theorem makeTable_cols {s : State} {part ctx va table level n : Nat} {r : Nat × State × Nat}
    (h : s.makeTable part ctx va table level n = some r) : r.2.1.cols = s.cols := by
  induction n generalizing s table level r with
  | zero => cases h; rfl
  | succ n ih =>
    dsimp only [State.makeTable] at h
    split at h
    · exact ih h
    · split at h
      · cases h
      next hp =>
        obtain ⟨q, hq, rfl⟩ := Option.map_eq_some_iff.mp h
        exact (ih hq).trans ((addPage_cols ..).trans (takePage_cols hp))

theorem writeSlots_cols (s : State) (entry : Nat) (slots : List Nat) : (s.writeSlots entry slots).1.cols = s.cols :=
  List.foldlRecOn (motive := fun r : State × Nat => r.1.cols = s.cols) slots _ rfl fun _ h _ _ => h

theorem writeLeaf_cols {s : State} {part ctx va : Nat} {l : Leaf} {r : State × Nat} (h : s.writeLeaf part ctx va l = some r) :
    r.1.cols = s.cols := by
  simp only [State.writeLeaf, Option.bind_eq_some_iff, Option.map_eq_some_iff] at h
  obtain ⟨c, -, q, hq, rfl⟩ := h
  exact (writeSlots_cols ..).trans (makeTable_cols hq)

theorem clearLeaf_cols (s : State) (part ctx va size : Nat) : (s.clearLeaf part ctx va size).1.cols = s.cols := by
  unfold State.clearLeaf
  split
  · exact writeSlots_cols ..
  · rfl

theorem mapPage_cols {s : State} {g : Page} {l : Leaf} {r : State × Nat} (h : s.mapPage g l = some r) : r.1.cols = s.cols := by
  obtain ⟨w, hw, rfl⟩ := Option.map_eq_some_iff.mp h
  exact (addPage_cols ..).trans (writeLeaf_cols hw)

theorem mapBacked_cols {s : State} {m : Mapping} {va : Nat} {r : State × Nat} (h : s.mapBacked m va = some r) : r.1.cols = s.cols := by
  dsimp only [State.mapBacked] at h
  split at h
  · obtain ⟨q, hq, h⟩ := Option.bind_eq_some_iff.mp h
    exact (mapPage_cols h).trans (takePage_cols hq)
  · exact mapPage_cols h

theorem backPages_cols {s : State} {w : WeightSet} {ps : List (Nat × List Byte)} {r : State × List (Nat × Nat)}
    (h : s.backPages w ps = some r) : r.1.cols = s.cols := by
  induction ps generalizing s r with
  | nil => cases h; rfl
  | cons p ps ih =>
    rw [State.backPages] at h
    split at h
    · cases h
    next hp =>
      obtain ⟨q, hq, rfl⟩ := Option.map_eq_some_iff.mp h
      exact (ih hq).trans ((addPage_cols ..).trans (takePage_cols hp))

theorem backWeights_cols {s : State} {w : WeightSet} {bs : List Byte} {r : State × List (Nat × Nat)} (h : s.backWeights w bs = some r) :
    r.1.cols = s.cols := by
  dsimp only [State.backWeights] at h
  split at h
  · split at h
    · cases h; rfl
    · exact backPages_cols h
  · simp only [Option.bind_eq_some_iff, Option.map_eq_some_iff] at h
    obtain ⟨g, -, q, hq, rfl⟩ := h
    exact backPages_cols (r := q) hq
  · exact backPages_cols h

theorem showWeights_cols {s : State} {w : WeightSet} {ps : List (Nat × Nat)} {r : State × Nat} (h : s.showWeights w ps = some r) :
    r.1.cols = s.cols := by
  induction ps generalizing s r with
  | nil => cases h; rfl
  | cons p ps ih =>
    rw [State.showWeights] at h
    split at h
    · cases h
    next hl =>
      obtain ⟨q, hq, rfl⟩ := Option.map_eq_some_iff.mp h
      exact (ih hq).trans (writeLeaf_cols hl)

theorem freeBacking_cols (s : State) (pas : List Nat) : (s.freeBacking pas).cols = s.cols := congrArg Prod.fst (freeBacking_colsQueues s pas)

theorem evictSet_cols (s : State) (w : WeightSet) : (s.evictSet w).cols = s.cols := by
  have hclear (ps : List (Nat × Nat)) : (ps.foldl (fun (t : State) p => (t.clearLeaf w.part w.ctx (w.va + 4096 * p.1) 0).1) s).cols = s.cols :=
    foldl_leaves State.cols (fun _ _ => clearLeaf_cols ..) ps s
  unfold State.evictSet
  split
  · rfl
  · dsimp only
    split
    · exact (note_cols ..).trans ((freeBacking_cols ..).trans (hclear _))
    · exact (freeBacking_cols ..).trans (hclear _)

/-- The state that work leaves, done or not. -/
def leftBy {α : Type} (out : α → State) : Except State α → State
  | .ok r => out r
  | .error t => t

/-- Work that leaves the columns as they are does so too where sets are evicted for it. -/
theorem withRoom_cols {α : Type} {out : α → State} {part : Nat} {work : State → Option α} (hw : ∀ t r, work t = some r → (out r).cols = t.cols)
    (n : Nat) (s : State) : (leftBy out (s.withRoom part work n)).cols = s.cols := by
  induction n generalizing s with
  | zero =>
    rw [State.withRoom]
    cases h : work s with
    | none => rfl
    | some r => exact hw s r h
  | succ n ih =>
    rw [State.withRoom]
    cases h : work s with
    | some r => exact hw s r h
    | none =>
      cases s.evictVictim part with
      | none => rfl
      | some w => exact (ih _).trans (evictSet_cols s w)

theorem makeRoom_cols {α : Type} {out : α → State} {part : Nat} {work : State → Option α} (hw : ∀ t r, work t = some r → (out r).cols = t.cols)
    {s : State} {a : Except State α} (h : s.makeRoom part work = a) : (leftBy out a).cols = s.cols := h ▸ withRoom_cols hw _ s

/-- The state that the function core leaves, where it finds something at a page. -/
def PageFound.after? : PageFound → Option State
  | .written t _ | .exhausted t | .badImage t _ => some t
  | .unmapped => none

/-- A set's image backed and shown. -/
theorem backAndShow_cols {s : State} {w : WeightSet} {bs : List Byte} {r : State × Nat × List (Nat × Nat)}
    (h : ((s.backWeights w bs).bind fun r => (r.1.showWeights w r.2).map fun q => (q.1, q.2, r.2)) = some r) : r.1.cols = s.cols := by
  obtain ⟨b, hb, h⟩ := Option.bind_eq_some_iff.mp h
  obtain ⟨q, hq, rfl⟩ := Option.map_eq_some_iff.mp h
  exact (showWeights_cols hq).trans (backWeights_cols hb)

theorem reloadSet_cols {s t : State} {w : WeightSet} (h : (s.reloadSet w).after? = some t) : t.cols = s.cols := by
  have hread : (s.readsThrough w.part w.ctx w.src w.wsize).cols = s.cols := rangeRead_cols ..
  unfold State.reloadSet at h
  dsimp only at h
  split at h
  · cases h; exact hread
  · split at h
    next hr =>
      cases h
      exact (makeRoom_cols (out := fun r => r.1) (fun _ _ => backAndShow_cols) hr).trans hread
    next hr =>
      cases h
      refine Eq.trans ?_ ((makeRoom_cols (out := fun r => r.1) (fun _ _ => backAndShow_cols) hr).trans hread)
      split
      · exact note_cols ..
      · rfl

theorem serve_cols {s t : State} {part ctx va : Nat} (h : (s.serve part ctx va).after? = some t) : t.cols = s.cols := by
  unfold State.serve at h
  split at h
  · split at h
    · exact reloadSet_cols h
    · cases h
  · split at h
    · cases h
    · split at h
      · cases h; rfl
      · split at h <;> cases h
        all_goals
          rename_i hr
          exact makeRoom_cols (out := fun r => r.1) (fun _ _ => mapBacked_cols) hr

/-- The state in which the pages of a range have been supplied, or sought in vain. -/
def suppliedBy : Except (Nat × State) State → State
  | .ok t => t
  | .error e => e.2

theorem supply_cols (s : State) (core part ctx : Nat) (perm : Perm) (pages : List Nat) :
    (suppliedBy (s.supply core part ctx perm pages)).cols = s.cols := by
  induction pages generalizing s with
  | nil => rfl
  | cons a pages ih =>
    rw [State.supply]
    split
    next ht => exact (ih _).trans (translate_cols ht)
    · split
      · rfl
      · split
        next hs =>
          have hserve := serve_cols (congrArg PageFound.after? hs)
          split
          next ht => exact (ih _).trans ((translate_cols ht).trans hserve)
          · exact hserve
        · rfl
        next hs => exact serve_cols (congrArg PageFound.after? hs)
        next hs => exact serve_cols (congrArg PageFound.after? hs)

theorem supply_ok {s t : State} {core part ctx : Nat} {perm : Perm} {pages : List Nat} (h : s.supply core part ctx perm pages = .ok t) :
    t.cols = s.cols ∧ t.now = s.now := by
  have hcols := supply_cols s core part ctx perm pages
  rw [h] at hcols
  refine ⟨hcols, ?_⟩
  rw [State.now, ((State.Keeps.refl s).supply.1 t h).wall]
  rfl

theorem supply_error {s : State} {core part ctx : Nat} {perm : Perm} {pages : List Nat} {e : Nat × State}
    (h : s.supply core part ctx perm pages = .error e) : e.2.cols = s.cols := by
  have hcols := supply_cols s core part ctx perm pages
  rwa [h] at hcols

/-- Parts of a frame written. -/
theorem writeParts_ok {s : State} {core va : Nat} {r : Route} {ps : List Part} {u : State × Nat} (h : s.writeParts core r va ps = .ok u) :
    u.1.cols = s.cols := by
  unfold State.writeParts at h
  split at h
  · cases h
  next ht =>
    cases h
    exact List.foldlRecOn (motive := fun u : State × Nat => u.1.cols = s.cols) ps _ (supply_ok ht).1
      fun u hu p _ => (ringBytes_cols ..).trans hu

theorem writeParts_error {s : State} {core va : Nat} {r : Route} {ps : List Part} {e : Nat × State} (h : s.writeParts core r va ps = .error e) :
    e.2.cols = s.cols := by
  unfold State.writeParts at h
  split at h
  next ht =>
    cases h
    exact supply_error ht
  · cases h

end Sys2Proof.Machine
end

section
/-!
PROOFS. Pre-emption (O43): stopping, saving, coming back and the kill at a drain deadline.
-/

namespace Sys2Proof.Machine

/-! ## Room (R28, R310) -/

theorem mem_of_worst {s : State} {ks : List Column} {k : Column} (h : s.worst ks = some k) : k ∈ ks := by
  have (l : List Column) (hl : ∀ x ∈ l, x ∈ ks) (o : Option Column) (ho : ∀ x ∈ o, x ∈ ks) :
      ∀ x ∈ l.foldl (fun (o : Option Column) k => match o with
        | none => some k
        | some d =>
          let dryK := s.dry k.part (s.acctOf k.part k.prog)
          let dryD := s.dry d.part (s.acctOf d.part d.prog)
          some (if (dryK && !dryD) || (dryK == dryD && (s.colRank d).above (s.colRank k)) then k else d)) o, x ∈ ks := by
    refine List.foldlRecOn (motive := fun o : Option Column => ∀ x ∈ o, x ∈ ks) l _ ho fun o ho k hk x hx => ?_
    cases o with
    | none => cases hx; exact hl _ hk
    | some d =>
      cases hx
      split
      · exact hl _ hk
      · exact ho _ rfl
  exact this ks (fun _ h => h) none (by simp) k h

/-- The columns to pre-empt are some of those that may be. -/
theorem victims_mem {w : Waiter} {core : Nat} (n : Nat) {s : State} {ks : List Column} {ids : List Nat} (h : s.victims w core ks n = some ids) :
    ∀ id ∈ ids, ∃ k ∈ ks, k.id = id := by
  induction n generalizing s ks ids with
  | zero => cases h
  | succ n ih =>
    rw [State.victims] at h
    split at h
    · cases h; simp
    · split at h
      · cases h
      next k hk =>
        obtain ⟨rest, hrest, rfl⟩ := Option.map_eq_some_iff.1 h
        refine List.forall_mem_cons.2 ⟨⟨k, List.mem_of_mem_filter (mem_of_worst hk), rfl⟩, fun id hid => ?_⟩
        obtain ⟨c, hc, hcid⟩ := ih hrest id hid
        exact ⟨c, List.mem_of_mem_filter hc, hcid⟩

theorem runs_of_mem_runners {s : State} {part : Nat} {cores : List Nat} {k : Column} (h : k ∈ s.runners part cores) :
    k ∈ s.cols ∧ k.part = part ∧ k.phase = .running ∧ k.killed = false := by
  simp only [State.runners, List.mem_filter, Bool.and_eq_true, beq_iff_eq, Bool.not_eq_true'] at h
  obtain ⟨hk, ⟨⟨hpart, hphase⟩, hkilled⟩, -⟩ := h
  exact ⟨hk, hpart, hphase, hkilled⟩

theorem mem_reserveRoom (s : State) (part core : Nat) (who : Who) (slice : Bool) :
    ⟨part, core, who, slice⟩ ∈ (s.reserveRoom part core who slice).fw.rooms := by
  unfold State.reserveRoom
  split
  next h =>
    obtain ⟨m, hm, he⟩ := List.any_eq_true.1 h
    simp only [Bool.and_eq_true, beq_iff_eq] at he
    obtain ⟨⟨⟨rfl, rfl⟩, rfl⟩, rfl⟩ := he
    exact hm
  · exact List.mem_append_right _ (List.mem_singleton_self _)

theorem reserveRoom_cols (s : State) (part core : Nat) (who : Who) (slice : Bool) : (s.reserveRoom part core who slice).cols = s.cols := by
  unfold State.reserveRoom
  split <;> rfl

/-- The column that a route would launch next, as it waits. -/
def State.launchWaiter (s : State) (r : Route) (b : Bool × Nat) : Waiter := { route := r, bmode := b.1, saved := none, rank := s.rankOf r b.2 }

/-- The columns that may give it room. -/
def State.mayGive (s : State) (w : Waiter) (part core : Nat) : List Column := (s.runners part (w.cores core)).filter Column.descheduled

theorem preemptForRoom_none {s : State} {part prog core : Nat} {r : Route} (hr : s.route? part prog = some r) (h : s.readyLaunches r = []) :
    exec (.preemptForRoom part prog core) s = .next s := by
  change execPreemptForRoom part prog core s = _
  simp only [execPreemptForRoom, hr, h]

theorem exec_preemptForRoom {s : State} {part prog core : Nat} {r : Route} {b : Bool × Nat} {bs : List (Bool × Nat)}
    (hr : s.route? part prog = some r) (h : s.readyLaunches r = b :: bs) :
    let w := s.launchWaiter r b
    exec (.preemptForRoom part prog core) s =
      if !s.allWait (w.cores core) || s.waiterFits w core then .next s
      else match s.victims w core (s.mayGive w part core) ((s.mayGive w part core).length + 1) with
        | some ids => .next ((s.stopColumns ids).reserveRoom part core (.launch prog) false)
        | none => .next s := by
  obtain ⟨-, rfl⟩ := route?_spec hr
  change execPreemptForRoom part r.slot core s = _
  simp only [execPreemptForRoom, hr, h]
  rfl

theorem preempted_spec (s : State) (part core : Nat) (who : Who) (ids : List Nat) :
    let t := (s.stopColumns ids).reserveRoom part core who false
    t = { s with cols := t.cols, fw := { s.fw with rooms := t.fw.rooms } } ∧ ⟨part, core, who, false⟩ ∈ t.fw.rooms ∧
      t.cols = s.cols.map fun k => if k.id ∈ ids ∧ k.phase = .running ∧ k.killed = false then { k with phase := .stopping } else k := by
  refine ⟨((stopColumns_stops s ids).trans (reserveRoom_stops ..)).rest, mem_reserveRoom .., ?_⟩
  rw [reserveRoom_cols]
  refine List.map_congr_left fun k _ => ?_
  simp [and_assoc]

/-! ## One column -/

theorem column?_congr {s t : State} (h : t.cols = s.cols) (id : Nat) : t.column? id = s.column? id := by rw [State.column?, h]; rfl

theorem column?_onColumn {s : State} {id : Nat} {k : Column} (h : s.column? id = some k) {f : Column → Column} (hf : (f k).id = id) :
    (s.onColumn id f).column? id = some (f k) :=
  find?_updateWhere_of_find? (p := fun c : Column => c.id == id) (by simp [hf]) h

theorem column?_id {s : State} {id : Nat} {k : Column} (h : s.column? id = some k) : k.id = id := by
  simpa using List.find?_some h

/-- A killed column (R234). -/
def Column.ended (c : Column) : Column := { c with killed := true, doomed := false, cvs := c.cvs.map Convoy.kill, cvregs := [] }

theorem releaseFrame_cols (s : State) (c : Column) : (s.releaseFrame c).cols = s.cols := by
  unfold State.releaseFrame
  split <;> simp

theorem killNow_cols (s : State) (c : Column) : (s.killNow c).cols = updateWhere (·.id == c.id) Column.ended s.cols := by
  unfold State.killNow
  rw [settle_cols]
  change updateWhere _ _ (State.meterCol _ c.id 7 1).cols = _
  rw [meterCol_cols, releaseFrame_cols]
  rfl

theorem column?_killNow {s : State} {k : Column} (h : s.column? k.id = some k) : (s.killNow k).column? k.id = some k.ended := by
  rw [State.column?, killNow_cols]
  exact find?_updateWhere_of_find? (p := fun c : Column => c.id == k.id) (by simp [Column.ended]) h

/-- A column is there, and killed. -/
def State.lost (s : State) (id : Nat) : Prop := (s.column? id).map (·.killed) = some true

theorem killSaved_lost {s : State} {k : Column} (h : s.column? k.id = some k) : (s.killSaved k.id).lost k.id := by
  simp only [State.killSaved, h, State.lost]
  rw [column?_onColumn (column?_killNow h) rfl]
  rfl

theorem saveFails_lost {s : State} {k : Column} (h : s.column? k.id = some k) (addr : Nat) : (s.saveFails k addr).lost k.id :=
  killSaved_lost ((column?_congr (report_cols ..) k.id).trans h)

/-! ## The save (R312, R313) -/

/-- The column is there with its lanes as they were. -/
def State.stands (t : State) (k : Column) (f : Column → Prop) : Prop :=
  ∃ d, t.column? k.id = some d ∧ d.cvs.map (·.lanes) = k.cvs.map (·.lanes) ∧ f d

/-- A column of the route holds the frame. -/
def State.frameHeld (s : State) (part prog f : Nat) : Prop := ∃ c ∈ s.cols, c.part = part ∧ c.prog = prog ∧ c.killed = false ∧
  (c.phase = .saved f ∨ (∃ n, c.phase = .saving f n) ∨ ∃ q, c.phase = .resuming f q)

/-- The column's phase names the frame. -/
def Column.holdsFrame (c : Column) (f : Nat) : Bool :=
  match c.phase with
  | .saving g _ | .saved g | .resuming g _ => g == f
  | _ => false

theorem holdsFrame_iff {c : Column} {f : Nat} : c.holdsFrame f = true ↔
    c.phase = .saved f ∨ (∃ n, c.phase = .saving f n) ∨ ∃ q, c.phase = .resuming f q := by
  unfold Column.holdsFrame
  cases c.phase <;> simp

theorem freeFrame_eq (s : State) (part prog : Nat) : s.freeFrame part prog = (List.range 64).find? fun f =>
    !(s.cols.any fun c => c.part == part && c.prog == prog && !c.killed && c.holdsFrame f) := rfl

theorem freeFrame_spec {s : State} {part prog f : Nat} (h : s.freeFrame part prog = some f) :
    f < 64 ∧ ¬s.frameHeld part prog f ∧ ∀ g < f, s.frameHeld part prog g := by
  have hheld (g : Nat) : (s.cols.any fun c => c.part == part && c.prog == prog && !c.killed && c.holdsFrame g) = true ↔
      s.frameHeld part prog g := by
    simp [State.frameHeld, holdsFrame_iff, and_assoc]
  rw [freeFrame_eq, List.find?_range_eq_some] at h
  obtain ⟨hfree, hmem, hlow⟩ := h
  refine ⟨List.mem_range.1 hmem, fun hf => ?_, fun g hg => ?_⟩
  · simp [(hheld f).2 hf] at hfree
  · have := hlow g hg
    rwa [Bool.not_not, hheld] at this

/-- R312: nothing of the column is under way. -/
def State.still (s : State) (k : Column) : Prop :=
  (∀ h ∈ s.holds, h.col ≠ k.id) ∧ (∀ q ∈ s.raised, q.col ≠ k.id) ∧ ∀ v ∈ k.cvs, v.loads = 0 ∧ v.stores = 0

theorem stopped_of_still {s : State} {k : Column} (h : s.still k) : s.stopped k = true := by
  obtain ⟨hholds, hraised, hcounts⟩ := h
  simp only [State.stopped, Bool.and_eq_true, Bool.or_eq_true, List.all_eq_true, bne_iff_ne, beq_iff_eq, Bool.not_eq_true',
    List.any_eq_false]
  exact ⟨⟨fun p hp => .inl (hholds p hp), hraised⟩, hcounts⟩

/-- What holds no port has none to give up. -/
theorem releasePorts_none {s : State} {col : Nat} (h : ∀ p ∈ s.holds, p.col ≠ col) (cv : Nat) : s.releasePorts col cv = s := by
  have hown (p : PortHold) (hp : p ∈ s.holds) : (p.col == col && p.cv == cv) = false := by simp [h p hp]
  have hany : (s.holds.any fun p => p.col == col && p.cv == cv) = false := by simpa using hown
  simp only [State.releasePorts, hany, Bool.false_eq_true, if_false]
  rw [List.filter_eq_self.2 fun p hp => by simp [h p hp]]

theorem exec_preemptionSave_stopping {s : State} {k : Column} {r : Route} (hc : s.column? k.id = some k) (hr : s.route? k.part k.prog = some r)
    (hk : k.killed = false) (hp : k.phase = .stopping) :
    exec (.preemptionSave k.id) s = if s.stopped k then .next (s.beginSave r k) else .next s := by
  change execPreemptionSave k.id s = _
  simp only [execPreemptionSave, hc, hr, hp, hk, Bool.false_or]
  cases s.stopped k <;> rfl

theorem exec_preemptionSave_saving {s : State} {k : Column} {r : Route} (hc : s.column? k.id = some k) (hr : s.route? k.part k.prog = some r)
    {f done : Nat} (hp : k.phase = .saving f done) :
    exec (.preemptionSave k.id) s = if done ≤ s.now then .next (s.saveEnds r k f) else .next s := by
  change execPreemptionSave k.id s = _
  simp only [execPreemptionSave, hc, hr, hp]

/-- What gives up none of its ports stands as it stood. -/
theorem releasePorts_all {s : State} {col : Nat} (h : ∀ p ∈ s.holds, p.col ≠ col) (cvs : List Nat) :
    cvs.foldl (fun t cv => t.releasePorts col cv) s = s :=
  List.foldlRecOn (motive := fun t => t = s) _ _ rfl fun _ ht cv _ => ht.symm ▸ releasePorts_none h cv

/-- A column changed otherwise than in its lanes. -/
theorem onColumn_stands {s t : State} {k : Column} (hc : s.column? k.id = some k) (ht : t.cols = s.cols) {f : Column → Column}
    (hid : (f k).id = k.id) (hl : (f k).cvs.map (·.lanes) = k.cvs.map (·.lanes)) {P : Column → Prop} (hP : P (f k)) :
    (t.onColumn k.id f).stands k P :=
  ⟨f k, column?_onColumn ((column?_congr ht k.id).trans hc) hid, hl, hP⟩

theorem exec_preemptionSave_still {s : State} {k : Column} {r : Route} (hc : s.column? k.id = some k) (hr : s.route? k.part k.prog = some r)
    (hk : k.killed = false) (hp : k.phase = .stopping) (h : s.still k) : exec (.preemptionSave k.id) s = .next (s.beginSave r k) := by
  rw [exec_preemptionSave_stopping hc hr hk hp, stopped_of_still h, if_pos rfl]

/-- Without a frame a column runs on, or is killed if it was to be. -/
theorem beginSave_none {s : State} {k : Column} (r : Route) (hc : s.column? k.id = some k) (h : s.still k)
    (hf : s.freeFrame k.part k.prog = none) :
    if k.doomed then (s.beginSave r k).lost k.id else (s.beginSave r k).stands k fun d => d.phase = .running := by
  simp only [State.beginSave, releasePorts_all h.1, hc, hf]
  cases k.doomed with
  | true => exact killSaved_lost hc
  | false => exact onColumn_stands hc rfl rfl rfl rfl

/-- R312: the frame of a still column is written. -/
theorem beginSave_ok {s u : State} {k : Column} {r : Route} {f done : Nat} (hc : s.column? k.id = some k) (h : s.still k)
    (hf : s.freeFrame k.part k.prog = some f) (hw : s.writeParts k.core r (r.frameVa f) (s.saveParts r k) = .ok (u, done)) :
    (s.beginSave r k).store = u.store ∧ (s.beginSave r k).stands k fun d => d.phase = .saving f done := by
  have hcols : u.cols = s.cols := writeParts_ok hw
  have hsave : s.beginSave r k = u.onColumn k.id fun k => { k with phase := .saving f done } := by
    unfold State.beginSave
    -- a name in place of the function, for else the kernel evaluates the pages of the frame
    obtain ⟨write, hwrite⟩ : ∃ write, write = State.writeParts := ⟨_, rfl⟩
    rw [← hwrite] at hw ⊢
    simp only [releasePorts_all h.1, hc, hf, hw]
  rw [hsave]
  exact ⟨rfl, onColumn_stands hc hcols rfl rfl rfl⟩

/-- Log 14: a column whose frame cannot be written is killed. -/
theorem beginSave_error {s : State} {k : Column} {r : Route} {f : Nat} {e : Nat × State} (hc : s.column? k.id = some k) (h : s.still k)
    (hf : s.freeFrame k.part k.prog = some f) (hw : s.writeParts k.core r (r.frameVa f) (s.saveParts r k) = .error e) :
    (s.beginSave r k).lost k.id := by
  have hcols := writeParts_error hw
  have hsave : s.beginSave r k = e.2.saveFails k e.1 := by
    unfold State.beginSave
    obtain ⟨write, hwrite⟩ : ∃ write, write = State.writeParts := ⟨_, rfl⟩
    rw [← hwrite] at hw ⊢
    simp only [releasePorts_all h.1, hc, hf, hw]
  rw [hsave]
  exact saveFails_lost ((column?_congr hcols k.id).trans hc) e.1

theorem preemptionSave_waits {s : State} {k : Column} {r : Route} (hc : s.column? k.id = some k) (hr : s.route? k.part k.prog = some r)
    (hk : k.killed = false) (hp : k.phase = .stopping) (h : ∃ v ∈ k.cvs, v.loads ≠ 0 ∨ v.stores ≠ 0) :
    exec (.preemptionSave k.id) s = .next s := by
  have hstop : s.stopped k = false := by
    obtain ⟨v, hv, hcount⟩ := h
    rw [Bool.eq_false_iff]
    intro hstop
    simp only [State.stopped, Bool.and_eq_true, List.all_eq_true, beq_iff_eq] at hstop
    have := hstop.2 v hv
    omega
  rw [exec_preemptionSave_stopping hc hr hk hp, hstop]
  rfl

theorem asSaved_lanes (v : Convoy) : v.asSaved.lanes = v.lanes := by
  unfold Convoy.asSaved
  dsimp only
  split <;> rfl

/-- R312, R316: the writes of a save have completed. -/
theorem preemptionSave_ends {s : State} {k : Column} {r : Route} (hc : s.column? k.id = some k) (hr : s.route? k.part k.prog = some r)
    {f done : Nat} (hp : k.phase = .saving f done) (hd : done ≤ s.now) : ∃ w, exec (.preemptionSave k.id) s = .next w ∧
      if k.doomed = true ∨ s.partLeaves k.part = true then w.lost k.id else w.stands k fun d => d.phase = .saved f ∧ d.since = s.now := by
  refine ⟨s.saveEnds r k f, by rw [exec_preemptionSave_saving hc hr hp, if_pos hd], ?_⟩
  unfold State.saveEnds
  simp only [Bool.or_eq_true]
  split
  · exact killSaved_lost hc
  · have hlanes : (k.cvs.map Convoy.asSaved).map (·.lanes) = k.cvs.map (·.lanes) := by
      rw [List.map_map]
      exact List.map_congr_left fun v _ => asSaved_lanes v
    obtain ⟨d, hd, hl, hf⟩ := onColumn_stands (t := ((s.ringBytes k.core r.part r.ctx (r.frameVa f) (bytesOf 4 2)).1.ringBytes k.core r.part
      r.ctx (r.frameVa f + 0x10) (bytesOf 8 s.now)).1) hc (by rw [ringBytes_cols, ringBytes_cols])
      (f := fun k => { k with phase := .saved f, since := s.now, cvs := k.cvs.map Convoy.asSaved }) rfl hlanes
      (P := fun d => d.phase = .saved f ∧ d.since = s.now) ⟨rfl, rfl⟩
    exact ⟨d, (column?_congr (meterCol_cols ..) k.id).trans hd, hl, hf⟩

theorem preemptionSave_writes {s : State} {k : Column} {r : Route} (hc : s.column? k.id = some k) (hr : s.route? k.part k.prog = some r)
    {f done : Nat} (hp : k.phase = .saving f done) (hd : s.now < done) : exec (.preemptionSave k.id) s = .next s := by
  rw [exec_preemptionSave_saving hc hr hp, if_neg (by omega)]

/-! ## What the frame holds of a convoy (R314) -/

theorem mem_saveParts {s : State} {r : Route} {k : Column} {c : Nat} {v : Convoy} (hv : k.cvs[c]? = some v) {p : Part}
    (h : p ∈ (v.block k.bmode).map (fun p => (0x400 + 0x1000 * c + p.1, p.2)) ∨ p ∈ r.lanes k c v) : p ∈ s.saveParts r k :=
  List.mem_append_right _ (List.mem_flatMap.2 ⟨(v, c), List.mem_zipIdx_iff_getElem?.2 hv, List.mem_append.2 h⟩)

theorem saveParts_holds (s : State) (r : Route) {k : Column} {c : Nat} {v : Convoy} (hv : k.cvs[c]? = some v) :
    (0x800 + 0x1000 * c, (List.range 64).flatMap fun n => bytesOf 4 (v.sreg n).toNat) ∈ s.saveParts r k ∧
    (0x900 + 0x1000 * c, bytesOf 4 v.stack.length ++ (List.range 8).flatMap fun i => bytesOf 4 ((v.stack[i]?).getD 0).toNat) ∈ s.saveParts r k ∧
    ∀ n < min v.liveCount r.nregs, (r.laneAt c + 4 * r.width * n, v.lanes.flatMap fun l => bytesOf 4 (l.reg n).toNat) ∈ s.saveParts r k := by
  have hblock {off : Nat} {bs : List Byte} (h : (off, bs) ∈ v.block k.bmode) : (0x400 + 0x1000 * c + off, bs) ∈ s.saveParts r k :=
    mem_saveParts hv (.inl (List.mem_map.2 ⟨_, h, rfl⟩))
  refine ⟨?_, ?_, fun n hn => mem_saveParts hv (.inr ?_)⟩
  · rw [show 0x800 + 0x1000 * c = 0x400 + 0x1000 * c + 0x400 by omega]
    exact hblock (by simp [Convoy.block])
  · rw [show 0x900 + 0x1000 * c = 0x400 + 0x1000 * c + 0x500 by omega]
    exact hblock (by simp [Convoy.block])
  · exact List.mem_append_left _ (List.mem_map.2 ⟨n, List.mem_range.2 hn, rfl⟩)

/-! ## Banks and tiles given away (R71) -/

/-- What goes into the frame of a saved column of which its banks, or its tiles, are wanted. -/
def State.givenParts (s : State) (r : Route) (k : Column) (want : Bool × Bool) : List Part :=
  (if want.1 then s.bankParts r k else []) ++ (if want.2 then s.tileParts r k else []) ++
    [(0x20, bytesOf 4 (s.cflags { k with banksOut := k.banksOut || want.1, tilesOut := k.tilesOut || want.2 }))]

theorem tileBankSave_ok {s u : State} {k : Column} {r : Route} (hc : s.column? k.id = some k) (hr : s.route? k.part k.prog = some r)
    (hk : k.killed = false) {f done : Nat} (hp : k.phase = .saved f) {want : Bool × Bool} (hwant : s.roomWanted k (r.coresAt k.core) = want)
    (h : (want.1 || want.2) = true) (hd : s.enginesDone k = true)
    (hw : s.writeParts k.core r (r.frameVa f) (s.givenParts r k want) = .ok (u, done)) :
    ∃ w, exec (.tileBankSave k.id) s = .next w ∧ w.store = u.store ∧
      w.stands k fun d => d.banksOut = (k.banksOut || want.1) ∧ d.tilesOut = (k.tilesOut || want.2) ∧ d.phase = .saved f := by
  have hcols : u.cols = s.cols := writeParts_ok hw
  refine ⟨(u.carryOut r k.core (r.frameVa f) (s.poisonParts r k want.1 want.2)).onColumn k.id fun d =>
    { d with banksOut := k.banksOut || want.1, tilesOut := k.tilesOut || want.2 }, ?_, rfl, onColumn_stands hc hcols rfl rfl ⟨rfl, rfl, hp⟩⟩
  change execTileBankSave k.id s = _
  unfold execTileBankSave
  unfold State.givenParts at hw
  obtain ⟨write, hwrite⟩ : ∃ write, write = State.writeParts := ⟨_, rfl⟩
  rw [← hwrite] at hw ⊢
  rw [hp, hk] at hw
  simp only [hc, hr, hp, hwant, hk, h, hd, hw, Bool.not_true, Bool.or_self, Bool.false_eq_true, if_false]

theorem tileBankSave_error {s : State} {k : Column} {r : Route} (hc : s.column? k.id = some k) (hr : s.route? k.part k.prog = some r)
    (hk : k.killed = false) {f : Nat} (hp : k.phase = .saved f) {want : Bool × Bool} (hwant : s.roomWanted k (r.coresAt k.core) = want)
    (h : (want.1 || want.2) = true) (hd : s.enginesDone k = true) {e : Nat × State}
    (hw : s.writeParts k.core r (r.frameVa f) (s.givenParts r k want) = .error e) :
    ∃ w, exec (.tileBankSave k.id) s = .next w ∧ w.lost k.id := by
  refine ⟨e.2.saveFails k e.1, ?_, saveFails_lost ((column?_congr (writeParts_error hw) k.id).trans hc) e.1⟩
  change execTileBankSave k.id s = _
  unfold execTileBankSave
  unfold State.givenParts at hw
  obtain ⟨write, hwrite⟩ : ∃ write, write = State.writeParts := ⟨_, rfl⟩
  rw [← hwrite] at hw ⊢
  rw [hp, hk] at hw
  simp only [hc, hr, hp, hwant, hk, h, hd, hw, Bool.not_true, Bool.or_self, Bool.false_eq_true, if_false]

theorem tileBankSave_idle {s : State} {k : Column} {r : Route} (hc : s.column? k.id = some k) (hr : s.route? k.part k.prog = some r)
    {f : Nat} (hp : k.phase = .saved f) {want : Bool × Bool} (hwant : s.roomWanted k (r.coresAt k.core) = want)
    (h : (want.1 || want.2) = false ∨ s.enginesDone k = false) : exec (.tileBankSave k.id) s = .next s := by
  have hidle : (k.killed || !(want.1 || want.2) || !s.enginesDone k) = true := by rcases h with h | h <;> simp [h]
  change execTileBankSave k.id s = _
  simp only [execTileBankSave, hc, hr, hp, hwant, hidle, if_true]

end Sys2Proof.Machine
end

section
/-!
PROOFS. Pre-emption (O43): a column that comes back (R315), and the kill at a drain deadline (R298, R316).
-/

namespace Sys2Proof.Machine

/-! ## A saved column placed again -/

theorem moveTiles_cols (s : State) (ps : List (Nat × Nat)) : (s.moveTiles ps).cols = s.cols := by
  unfold State.moveTiles
  exact foldl_leaves State.cols (fun _ _ => by rfl) ps _

/-- A column that comes back leaves the registers of its own convoys. -/
theorem column?_takeQuads (s : State) (quads : List Nat) (id : Nat) : (s.takeQuads quads (some id)).column? id = s.column? id := by
  have hself (k : Column) (hk : k.id = id) : (k.isSaved && some k.id != some id) = false := by simp [hk]
  unfold State.takeQuads State.column?
  rw [find?_map_id fun k => by split <;> rfl]
  cases h : s.cols.find? (·.id == id) with
  | none => rfl
  | some k => simp only [Option.map_some, hself k (column?_id h), Bool.false_eq_true, if_false]

/-- A saved column with its convoys on other quadrants, and other banks. -/
def Column.placedBack (k : Column) (f : Nat) (quads banks : List Nat) : Column :=
  { k with phase := .resuming f (k.cvs.map (·.quad)), banks, cvs := (k.cvs.zip quads).map fun vq => { vq.1 with quad := vq.2 } }

theorem column?_placeBack {s : State} {k : Column} (hc : s.column? k.id = some k) (r : Route) (f : Nat) (quads banks : List Nat) :
    (s.placeBack r k f quads banks).column? k.id = some (k.placedBack f quads banks) := by
  unfold State.placeBack
  dsimp only
  have hmoved : (if s.holdsTiles k && !k.tilesOut then
      s.moveTiles (((k.cvs.map (·.quad)).zip quads).filter fun p => p.1 != p.2).dedup else s).cols = s.cols := by
    split
    · exact moveTiles_cols ..
    · rfl
  refine Eq.trans (column?_congr (ringBytes_cols ..) k.id) ?_
  refine column?_onColumn (f := fun k => k.placedBack f quads banks) ?_ rfl
  rw [column?_takeQuads, column?_congr hmoved, hc]

theorem placedBack_lanes {k : Column} {f : Nat} {quads banks : List Nat} (h : quads.length = k.cvs.length) :
    (k.placedBack f quads banks).cvs.map (·.lanes) = k.cvs.map (·.lanes) := by
  rw [Column.placedBack, List.map_map]
  conv_rhs => rw [← List.map_fst_zip h.ge, List.map_map]
  rfl

theorem placedBack_quads {k : Column} {f : Nat} {quads banks : List Nat} (h : quads.length = k.cvs.length) :
    (k.placedBack f quads banks).cvs.map (·.quad) = quads := by
  rw [Column.placedBack, List.map_map]
  exact List.map_snd_zip h.le

theorem quadsOk_length {s : State} {part core : Nat} {r : Route} {bm : Bool} {quads : List Nat} {self : Option Nat}
    (h : s.quadsOk part r bm core quads self = true) : quads.length = r.nconv := by
  simp only [State.quadsOk, Bool.and_eq_true, beq_iff_eq] at h
  exact h.1.1

/-- R315: a saved column may come back on these quadrants. -/
structure State.MayReturn (s : State) (k : Column) (r : Route) (quads : List Nat) : Prop where
  dry : s.dry k.part r.acct = false
  room : s.quadsOk k.part r k.bmode k.core quads (some k.id) = true
  kept : s.quadsKept k quads = true
  idle : quads = k.cvs.map (·.quad) ∨ ∀ e ∈ s.eng.mx, e.col ≠ k.id

/-- The banks that it comes back with. -/
def State.returnBanks (s : State) (k : Column) (r : Route) : Option (List Nat) := if k.banksOut then s.banksFor k.part r k.core else some k.banks

theorem mayReturn_guard {s : State} {k : Column} {r : Route} {quads : List Nat} (h : s.MayReturn k r quads) (hk : k.killed = false) :
    (k.killed || k.core != k.core || s.dry k.part r.acct || !s.quadsOk k.part r k.bmode k.core quads (some k.id) || !s.quadsKept k quads ||
      (quads != k.cvs.map (·.quad) && s.eng.mx.any (·.col == k.id))) = false := by
  obtain ⟨hdry, hroom, hkept, hidle⟩ := h
  have hmoved : (quads != k.cvs.map (·.quad) && s.eng.mx.any (·.col == k.id)) = false := by
    rcases hidle with h | h
    · simp [h]
    · simp only [Bool.and_eq_false_iff]
      exact .inr (by simpa using h)
  simp only [hk, hdry, hroom, hkept, hmoved, bne_self_eq_false, Bool.not_true, Bool.or_self]

theorem resumption_none {s : State} {k : Column} {r : Route} (hc : s.column? k.id = some k) (hr : s.route? k.part k.prog = some r)
    (hk : k.killed = false) {f : Nat} (hp : k.phase = .saved f) {quads : List Nat} (h : s.MayReturn k r quads) (hb : s.returnBanks k r = none) :
    exec (.resumption k.id k.core quads) s = .next s := by
  have hguard := mayReturn_guard h hk
  unfold State.returnBanks at hb
  change execResumption k.id k.core quads s = _
  simp only [execResumption, hc, hr, hp, hguard, hb, Bool.false_eq_true, if_false]

theorem resumption_placed {s : State} {k : Column} {r : Route} (hc : s.column? k.id = some k) (hr : s.route? k.part k.prog = some r)
    (hk : k.killed = false) {f : Nat} (hp : k.phase = .saved f) {quads banks : List Nat} (h : s.MayReturn k r quads)
    (hlen : k.cvs.length = r.nconv) (hb : s.returnBanks k r = some banks)
    (hrooms : s.keepsRooms (s.placeBack r k f quads banks) k.part (.column k.id) = true) :
    ∃ w, exec (.resumption k.id k.core quads) s = .next w ∧ w.stands k fun d => d.phase = .resuming f (k.cvs.map (·.quad)) ∧
      d.cvs.map (·.quad) = quads ∧ d.banks = banks := by
  have hguard := mayReturn_guard h hk
  have hquads : quads.length = k.cvs.length := (quadsOk_length h.room).trans hlen.symm
  refine ⟨s.placeBack r k f quads banks, ?_, _, column?_placeBack hc r f quads banks, placedBack_lanes hquads, rfl, placedBack_quads hquads, rfl⟩
  unfold State.returnBanks at hb
  change execResumption k.id k.core quads s = _
  simp only [execResumption, hc, hr, hp, hguard, hb, hrooms, Bool.false_eq_true, if_false, if_true]

/-! ## Convoys read back from the frame -/

/-- A word of a frame. -/
def State.frameWord (s : State) (core : Nat) (r : Route) (f off : Nat) : Nat := numberOf (s.frameBytes core r (r.frameVa f + off) 4)

/-- A field of bytes that are read is what is read at its place. -/
theorem fieldAt_frameBytes (s : State) (core : Nat) (r : Route) (va : Nat) {off n m : Nat} (h : off + n ≤ m) :
    fieldAt (s.frameBytes core r va m) off n = numberOf (s.frameBytes core r (va + off) n) := by
  unfold fieldAt
  congr 1
  refine List.ext_getElem (by simp [State.frameBytes]; omega) fun i _ _ => ?_
  simp [State.frameBytes, Nat.add_assoc]

theorem mem_insertD {α : Type} [DecidableEq α] {d : α} {m : List (Nat × α)} {a : Nat} {x : α} {p : Nat × α} (h : p ∈ insertD d m a x) :
    p = (a, x) ∨ p ∈ m := by
  induction m with
  | nil =>
    rw [insertD] at h
    split_ifs at h
    · exact .inr h
    · exact .inl (List.mem_singleton.1 h)
  | cons q m ih =>
    obtain ⟨k, v⟩ := q
    rw [insertD] at h
    split_ifs at h
    · exact .inr h
    · exact (List.mem_cons.1 h).imp_right id
    · exact .inr (List.mem_cons_of_mem _ h)
    · exact (List.mem_cons.1 h).imp_right (List.mem_cons_of_mem _)
    · rcases List.mem_cons.1 h with rfl | h
      · exact .inr List.mem_cons_self
      · exact (ih h).imp_right (List.mem_cons_of_mem _)

/-- A key that is set to the value of all its entries reads as that value, however the entries lie. -/
theorem lookupD_insertD_of_forall {α : Type} [DecidableEq α] {d : α} {m : List (Nat × α)} {a : Nat} {x : α} (h : ∀ p ∈ m, p.1 = a → p.2 = x) :
    lookupD d (insertD d m a x) a = x := by
  have hlook {m : List (Nat × α)} (h : ∀ p ∈ m, p.1 = a → p.2 = x) (hx : x = d) : lookupD d m a = x := by
    induction m with
    | nil => exact hx.symm
    | cons q m ih =>
      obtain ⟨hq, hm⟩ := List.forall_mem_cons.1 h
      rw [lookupD]
      split
      next hk => exact hq hk.symm
      · exact ih hm
  induction m with
  | nil => by_cases hx : x = d <;> simp [insertD, lookupD, hx]
  | cons q m ih =>
    obtain ⟨k, v⟩ := q
    obtain ⟨hq, hm⟩ := List.forall_mem_cons.1 h
    rw [insertD]
    split_ifs with h1 h2 h3 h4
    · exact hlook h h2
    · simp [lookupD]
    · exact hlook hm h4
    · simp [lookupD]
    · rw [lookupD, if_neg h3, ih hm]

/-- Keys set one after another: one that is always set to the same value reads as that value. -/
theorem lookupD_foldl_insertD {α : Type} [DecidableEq α] {d : α} {a : Nat} {x : α} (ps : List (Nat × α)) (m : List (Nat × α))
    (hm : ∀ p ∈ m, p.1 = a → p.2 = x) (hps : ∀ p ∈ ps, p.1 = a → p.2 = x) (h : (a, x) ∈ ps ∨ lookupD d m a = x) :
    lookupD d (ps.foldl (fun m p => insertD d m p.1 p.2) m) a = x := by
  induction ps generalizing m with
  | nil => exact h.resolve_left (by simp)
  | cons q ps ih =>
    obtain ⟨b, y⟩ := q
    obtain ⟨hq, hps⟩ := List.forall_mem_cons.1 hps
    refine ih _ (fun p hp => ?_) hps ?_
    · rcases mem_insertD hp with rfl | hp
      · exact hq
      · exact hm p hp
    · by_cases hb : b = a
      · subst hb
        cases hq rfl
        exact .inr (lookupD_insertD_of_forall hm)
      · rw [lookupD_insertD_other d m y (Ne.symm hb)]
        exact h.imp_left fun h => (List.mem_cons.1 h).resolve_left fun h => hb (by cases h; rfl)

/-- A table filled from its keys. -/
theorem lookupD_fill {α : Type} [DecidableEq α] {d : α} (g : Nat → α) {n a : Nat} (h : a < n) :
    lookupD d ((List.range n).foldl (fun m i => insertD d m i (g i)) []) a = g a := by
  have := lookupD_foldl_insertD (d := d) (a := a) (x := g a) ((List.range n).map fun i => (i, g i)) [] (by simp)
    (fun p hp hpa => by
      obtain ⟨i, -, rfl⟩ := List.mem_map.1 hp
      exact congrArg g hpa)
    (.inl (List.mem_map.2 ⟨a, List.mem_range.2 h, rfl⟩))
  rwa [List.foldl_map] at this

/-- A live register reads as the frame says, where the frame says one thing of it. -/
theorem readBack_reg (l : Lane) (keep : Bool) {live : List (Nat × Nat)} {n x : Nat} (h : (n, x) ∈ live) (hu : ∀ p ∈ live, p.1 = n → p.2 = x) :
    (l.readBack keep live).reg n = BitVec.ofNat 32 x := by
  have hn : (live.map (·.1)).contains n = true := List.contains_iff_mem.2 (List.mem_map.2 ⟨_, h, rfl⟩)
  have := lookupD_foldl_insertD (d := (0 : Word)) (a := n) (x := BitVec.ofNat 32 x) (live.map fun p => (p.1, BitVec.ofNat 32 p.2))
    (l.regs.filter fun p => keep && !(live.map (·.1)).contains p.1)
    (fun p hp hpn => by
      subst hpn
      rw [List.mem_filter, hn] at hp
      simp at hp)
    (fun p hp hpn => by
      obtain ⟨q, hq, rfl⟩ := List.mem_map.1 hp
      exact congrArg (BitVec.ofNat 32) (hu q hq hpn))
    (.inl (List.mem_map.2 ⟨_, h, rfl⟩))
  rwa [List.foldl_map] at this

/-- Registers and control state of a convoy that has been read back from its frame. -/
structure State.ReadFrom (s : State) (r : Route) (k : Column) (f c n : Nat) (v : Convoy) : Prop where
  sregs : ∀ i < 64, v.sreg i = BitVec.ofNat 32 (s.frameWord k.core r f (0x800 + 0x1000 * c + 4 * i))
  liveCount : v.liveCount = s.frameWord k.core r f (0x944 + 0x1000 * c)
  lanes : v.lanes.length = n
  pcs : ∀ i < n, i < 64 → (v.lane i).pc = BitVec.ofNat 25 (s.frameWord k.core r f (0x400 + 0x1000 * c + 4 * i))
  regs : ∀ i < n, ∀ j < min v.liveCount r.nregs, k.bmode = false ∨ j < 64 →
    (v.lane i).reg j = BitVec.ofNat 32 (s.frameWord k.core r f (r.laneAt c + 4 * (r.width * j + i)))

/-- A field of a convoy's block. -/
theorem block_field (s : State) (r : Route) (k : Column) (f c : Nat) {off : Nat} (h : off + 4 ≤ 4096) :
    fieldAt (s.frameBytes k.core r (r.frameVa f + 0x400 + 0x1000 * c) 4096) off 4 = s.frameWord k.core r f (0x400 + 0x1000 * c + off) := by
  rw [fieldAt_frameBytes s k.core r _ h, State.frameWord]
  simp only [Nat.add_assoc]

/-- The live registers that the frame holds of a lane. -/
def State.liveOf (s : State) (r : Route) (k : Column) (f c : Nat) (u : Convoy) (i : Nat) : List (Nat × Nat) :=
  (List.range (u.liveRegs r)).flatMap fun n =>
    (n, s.frameWord k.core r f (r.laneAt c + 4 * (r.width * n + i))) ::
      if k.bmode then [(n + 64, s.frameWord k.core r f (r.laneAt c + 4 * (r.width * (n + r.nregs) + i)))] else []

theorem mem_liveOf {s : State} {r : Route} {k : Column} {f c i j : Nat} {u : Convoy} (h : j < u.liveRegs r) :
    (j, s.frameWord k.core r f (r.laneAt c + 4 * (r.width * j + i))) ∈ s.liveOf r k f c u i :=
  List.mem_flatMap.2 ⟨j, List.mem_range.2 h, List.mem_cons_self⟩

theorem liveOf_unique {s : State} {r : Route} {k : Column} {f c i j : Nat} {u : Convoy} (h : k.bmode = false ∨ j < 64) {p : Nat × Nat}
    (hp : p ∈ s.liveOf r k f c u i) (hj : p.1 = j) : p.2 = s.frameWord k.core r f (r.laneAt c + 4 * (r.width * j + i)) := by
  obtain ⟨n, -, hp⟩ := List.mem_flatMap.1 hp
  rcases List.mem_cons.1 hp with rfl | hp
  · cases hj; rfl
  · split at hp
    next hb =>
      cases List.mem_singleton.1 hp
      dsimp only at hj
      rcases h with h | h
      · exact absurd hb (by simp [h])
      · omega
    · cases hp

/-- The lane that a convoy's block, and in a bounds pass its own block, gives. -/
def State.laneFrom (s : State) (r : Route) (k : Column) (f c i : Nat) (l : Lane) : Lane :=
  if k.bmode then l.boundsFrom (s.frameBytes k.core r (r.frameVa f + r.laneAt c + 8 * r.width * r.nregs + 512 * i) 512) else l

theorem laneFrom_pc (s : State) (r : Route) (k : Column) (f c i : Nat) (l : Lane) : (s.laneFrom r k f c i l).pc = l.pc := by
  unfold State.laneFrom
  split <;> rfl

/-- The convoy that its block gives. -/
def State.convoyFrom (s : State) (r : Route) (k : Column) (f c : Nat) (v : Convoy) : Convoy :=
  v.blockFrom k.bmode (s.frameBytes k.core r (r.frameVa f + 0x400 + 0x1000 * c) 4096)

theorem readBack_eq (s : State) (r : Route) (k : Column) (f c was : Nat) (v : Convoy) : s.readBack r k f c was v =
    { s.convoyFrom r k f c v with
      lanes := (s.convoyFrom r k f c v).lanes.mapIdx fun i l =>
        (s.laneFrom r k f c i l).readBack (was == v.quad) (s.liveOf r k f c (s.convoyFrom r k f c v) i)
      firstIssue := if was = v.quad then v.firstIssue else none } := by
  unfold State.readBack State.liveOf State.frameWord State.laneFrom State.convoyFrom
  simp only [Nat.add_assoc]

/-! What a block says of a convoy, whatever its bytes are. -/

theorem blockFrom_liveCount (v : Convoy) (bm : Bool) (bs : List Byte) : (v.blockFrom bm bs).liveCount = fieldAt bs 0x544 4 := rfl

theorem blockFrom_quad (v : Convoy) (bm : Bool) (bs : List Byte) : (v.blockFrom bm bs).quad = v.quad := rfl

theorem blockFrom_lanes (v : Convoy) (bm : Bool) (bs : List Byte) : (v.blockFrom bm bs).lanes = v.lanes.mapIdx fun i l => l.blockFrom bm bs i := rfl

theorem blockFrom_sreg (v : Convoy) (bm : Bool) (bs : List Byte) {n : Nat} (h : n < 64) :
    (v.blockFrom bm bs).sreg n = BitVec.ofNat 32 (fieldAt bs (0x400 + 4 * n) 4) := by
  have hsregs : (v.blockFrom bm bs).sregs =
      (List.range 64).foldl (fun m n => insertD 0 m n (BitVec.ofNat 32 (fieldAt bs (0x400 + 4 * n) 4))) [] := by
    simp only [Convoy.blockFrom]
  rw [Convoy.sreg, hsregs, lookupD_fill _ h]

theorem blockFrom_pc (l : Lane) (bm : Bool) (bs : List Byte) (i : Nat) : (l.blockFrom bm bs i).pc = BitVec.ofNat 25 (fieldAt bs (4 * i) 4) := rfl

theorem readBack_pc (l : Lane) (keep : Bool) (live : List (Nat × Nat)) : (l.readBack keep live).pc = l.pc := rfl

/-! What the frame says of a convoy. -/

theorem convoyFrom_quad (s : State) (r : Route) (k : Column) (f c : Nat) (v : Convoy) : (s.convoyFrom r k f c v).quad = v.quad := blockFrom_quad ..

theorem convoyFrom_liveCount (s : State) (r : Route) (k : Column) (f c : Nat) (v : Convoy) :
    (s.convoyFrom r k f c v).liveCount = s.frameWord k.core r f (0x944 + 0x1000 * c) := by
  rw [State.convoyFrom, blockFrom_liveCount, block_field s r k f c (by omega)]
  congr 1
  omega

theorem convoyFrom_sreg (s : State) (r : Route) (k : Column) (f c : Nat) (v : Convoy) {i : Nat} (h : i < 64) :
    (s.convoyFrom r k f c v).sreg i = BitVec.ofNat 32 (s.frameWord k.core r f (0x800 + 0x1000 * c + 4 * i)) := by
  rw [State.convoyFrom, blockFrom_sreg _ _ _ h, block_field s r k f c (by omega)]
  congr 2
  omega

theorem convoyFrom_length (s : State) (r : Route) (k : Column) (f c : Nat) (v : Convoy) : (s.convoyFrom r k f c v).lanes.length = v.lanes.length := by
  rw [State.convoyFrom, blockFrom_lanes, List.length_mapIdx]

theorem convoyFrom_pc {s : State} {r : Route} {k : Column} {f c : Nat} {v : Convoy} {i : Nat} {l : Lane} (h : i < 64)
    (hl : (s.convoyFrom r k f c v).lanes[i]? = some l) : l.pc = BitVec.ofNat 25 (s.frameWord k.core r f (0x400 + 0x1000 * c + 4 * i)) := by
  rw [State.convoyFrom, blockFrom_lanes, List.getElem?_mapIdx, Option.map_eq_some_iff] at hl
  obtain ⟨l, -, rfl⟩ := hl
  rw [blockFrom_pc, block_field s r k f c (by omega)]

theorem readBack_quad (s : State) (r : Route) (k : Column) (f c was : Nat) (v : Convoy) : (s.readBack r k f c was v).quad = v.quad := by
  rw [readBack_eq, ← convoyFrom_quad s r k f c v]

theorem readBack_readFrom (s : State) (r : Route) (k : Column) (f c was : Nat) (v : Convoy) :
    s.ReadFrom r k f c v.lanes.length (s.readBack r k f c was v) := by
  have hcount := convoyFrom_liveCount s r k f c v
  have hsreg := fun i => convoyFrom_sreg s r k f c v (i := i)
  have hlength := convoyFrom_length s r k f c v
  have hpc := fun i l => convoyFrom_pc (s := s) (r := r) (k := k) (f := f) (c := c) (v := v) (i := i) (l := l)
  rw [readBack_eq]
  generalize s.convoyFrom r k f c v = u at *
  have hlane {i : Nat} (hi : i < v.lanes.length) : ∃ l, u.lanes[i]? = some l ∧
      ((u.lanes.mapIdx fun i l => (s.laneFrom r k f c i l).readBack (was == v.quad) (s.liveOf r k f c u i))[i]?).getD Lane.zero =
        (s.laneFrom r k f c i l).readBack (was == v.quad) (s.liveOf r k f c u i) := by
    rw [← hlength] at hi
    exact ⟨u.lanes[i], List.getElem?_eq_getElem hi, by simp [hi]⟩
  refine ⟨hsreg, hcount, by rw [List.length_mapIdx, hlength], fun i hi hi64 => ?_, fun i hi j hj hb => ?_⟩
  · obtain ⟨l, hl, hi⟩ := hlane hi
    rw [Convoy.lane, hi, readBack_pc, laneFrom_pc, hpc i l hi64 hl]
  · obtain ⟨l, -, hi⟩ := hlane hi
    rw [Convoy.lane, hi]
    exact readBack_reg _ _ (mem_liveOf hj) fun p hp hpj => liveOf_unique hb hp hpj

end Sys2Proof.Machine
end

section
/-!
PROOFS. Pre-emption (O43): resumption (R315, R216), the kill at a drain deadline, and the obligation.
-/

namespace Sys2Proof.Machine

/-! ## What resumption leaves of the columns -/

theorem carryBack_cols (s : State) (r : Route) (core va : Nat) (ps : List (PoisonAt × Nat)) : (s.carryBack r core va ps).cols = s.cols := by
  unfold State.carryBack
  split <;> rfl

theorem readBanks_cols (s : State) (r : Route) (k : Column) (f : Nat) (banks : List Nat) : (s.readBanks r k f banks).cols = s.cols := by
  unfold State.readBanks
  split
  · rfl
  · exact carryBack_cols ..

theorem readTiles_cols (s : State) (r : Route) (k : Column) (f : Nat) (was : List Nat) : (s.readTiles r k f was).cols = s.cols := by
  unfold State.readTiles
  split
  · rfl
  · refine foldl_leaves State.cols (fun t p => ?_) _ s
    rw [carryBack_cols, State.setCksum_cols, State.setCksum_cols]

theorem handOver_cols (s : State) (r : Residency) : (s.handOver r).cols = s.cols := by
  unfold State.handOver
  split
  · split <;> rfl
  · rfl

theorem seekRoom_cols {s t : State} {core part b : Nat} {share : Bool} (h : s.seekRoom core part b share = some t) : t.cols = s.cols := by
  dsimp only [State.seekRoom] at h
  split at h
  · cases h; rfl
  · split at h <;> cases h
    refine foldl_leaves State.cols (fun t r => ?_) _ s
    split
    · rfl
    · exact handOver_cols ..

theorem load_cols (s : State) (core part prog handle : Nat) (d : DirEntry) : (s.load core part prog handle d).1.cols = s.cols := by
  dsimp only [State.load]
  split
  · rfl
  · rfl
  · rfl
  · split
    · split
      next ht => exact (State.setRes_cols ..).trans (seekRoom_cols ht)
      · rfl
    · split
      · rfl
      next ht => exact (State.setRes_cols ..).trans (seekRoom_cols ht)

theorem load_fst_cols {s t : State} {core part prog handle : Nat} {d : DirEntry} {a : LoadAnswer} (h : s.load core part prog handle d = (t, a)) :
    t.cols = s.cols := by
  have := load_cols s core part prog handle d
  rwa [h] at this

theorem bringOverlays_cols {s t : State} {r : Route} {core : Nat} {hs : List Nat} (h : s.bringOverlays r core hs = .ok t) : t.cols = s.cols := by
  induction hs generalizing s with
  | nil => cases h; rfl
  | cons a hs ih =>
    rw [State.bringOverlays] at h
    split at h
    · split at h
      · cases h
      · split at h
        · cases h
        next hl => exact (ih h).trans (load_fst_cols hl)
    · split at h
      · cases h
      · split at h
        · cases h
        next hl => exact (ih h).trans (load_fst_cols hl)
    · exact ih h

/-! ## A column that runs again -/

/-- A column stands as another one does but for its lanes, registers, rounds and kills. -/
structure Column.Keeps (c d : Column) : Prop where
  phase : d.phase = c.phase
  quads : d.cvs.map (·.quad) = c.cvs.map (·.quad)
  banks : d.banks = c.banks
  banksOut : d.banksOut = c.banksOut
  tilesOut : d.tilesOut = c.tilesOut
  since : d.since = c.since

theorem Column.Keeps.trans {c d e : Column} (h : c.Keeps d) (h' : d.Keeps e) : c.Keeps e :=
  ⟨h'.phase.trans h.phase, h'.quads.trans h.quads, h'.banks.trans h.banks, h'.banksOut.trans h.banksOut, h'.tilesOut.trans h.tilesOut,
    h'.since.trans h.since⟩

theorem Column.Keeps.cvs {c : Column} {cvs : List Convoy} (h : cvs.map (·.quad) = c.cvs.map (·.quad)) : c.Keeps { c with cvs } :=
  ⟨rfl, h, rfl, rfl, rfl, rfl⟩

/-- A column of which a kill has been asked (R316): killed, or to be killed once its save has ended. -/
def Column.doom (c : Column) : Column := if c.killed then c else if c.beingSaved then { c with doomed := true } else c.ended

theorem doom_keeps (c : Column) : c.Keeps c.doom := by
  unfold Column.doom
  split
  · exact .cvs rfl
  · split
    · exact ⟨rfl, rfl, rfl, rfl, rfl, rfl⟩
    · refine ⟨rfl, ?_, rfl, rfl, rfl, rfl⟩
      rw [Column.ended, List.map_map]
      rfl

theorem doom_id (c : Column) : c.doom.id = c.id := by
  unfold Column.doom
  split
  · rfl
  · split <;> rfl

theorem doom_dying (c : Column) : c.doom.dying = true := by
  unfold Column.doom Column.dying
  split
  next h => simp [h]
  · split <;> simp [Column.ended]

theorem doom_killed {c : Column} (h : c.beingSaved = false) : c.doom.killed = true := by
  unfold Column.doom
  split
  next hk => exact hk
  · simp [h, Column.ended]

theorem doom_doom (c : Column) : c.doom.doom = c.doom := by
  cases hk : c.killed with
  | true =>
    have hdoom : c.doom = c := if_pos hk
    rw [hdoom, hdoom]
  | false =>
    have hk : ¬c.killed = true := by simp [hk]
    cases hs : c.beingSaved with
    | true =>
      have hdoom : c.doom = { c with doomed := true } := (if_neg hk).trans (if_pos hs)
      rw [hdoom]
      exact (if_neg hk).trans (if_pos hs)
    | false =>
      have hdoom : c.doom = c.ended := (if_neg hk).trans (if_neg (by simp [hs]))
      rw [hdoom]
      exact if_pos rfl

theorem column?_kill {s : State} {id : Nat} {c : Column} (h : s.column? id = some c) : (s.kill id).column? id = some c.doom := by
  obtain rfl := column?_id h
  simp only [State.kill, h, Column.doom]
  split
  · exact h
  · split
    · exact column?_onColumn (f := fun c => { c with doomed := true }) h rfl
    · exact column?_killNow h

/-- A column found among columns of which others have changed. -/
theorem find?_updateWhere_other {f : Column → Column} {id other : Nat} (h : id ≠ other) (hf : ∀ c, (f c).id = c.id) (cs : List Column) :
    (updateWhere (·.id == other) f cs).find? (·.id == id) = cs.find? (·.id == id) := by
  rw [updateWhere, find?_map_id fun c => by split; exacts [hf c, rfl]]
  cases hc : cs.find? (·.id == id) with
  | none => rfl
  | some c =>
    have hid : c.id = id := by simpa using List.find?_some hc
    simp [hid, h]

/-- A kill leaves every other column. -/
theorem column?_kill_other {s : State} {id other : Nat} (h : id ≠ other) : (s.kill other).column? id = s.column? id := by
  unfold State.kill
  split
  · rfl
  next c hc =>
    split
    · rfl
    · split
      · exact find?_updateWhere_other h (f := fun c => { c with doomed := true }) (fun _ => rfl) s.cols
      · rw [State.column?, killNow_cols, column?_id hc]
        exact find?_updateWhere_other h (f := Column.ended) (fun _ => rfl) s.cols

/-- Kills asked for one after another. -/
theorem column?_kills {id : Nat} (ks : List Column) {s : State} {c : Column} (h : s.column? id = some c) :
    (ks.foldl (fun (t : State) k => t.kill k.id) s).column? id = some (if id ∈ ks.map (·.id) then c.doom else c) := by
  induction ks generalizing s c with
  | nil => exact h
  | cons k ks ih =>
    rw [List.foldl_cons, List.map_cons]
    by_cases hk : id = k.id
    · subst hk
      rw [ih (column?_kill h), doom_doom]
      simp
    · rw [ih ((column?_kill_other hk).trans h)]
      simp [hk]

theorem updateAt_quads {cv : Nat} {f : Convoy → Convoy} (hf : ∀ v, (f v).quad = v.quad) (vs : List Convoy) :
    (updateAt cv f vs).map (·.quad) = vs.map (·.quad) := by
  refine List.ext_getElem (by simp [updateAt]) fun i _ _ => ?_
  simp only [updateAt, List.getElem_map, List.getElem_mapIdx]
  split
  · exact hf _
  · rfl

/-- R216: a convoy that comes back leaves its column running, though perhaps killed. -/
theorem column?_comeBack {s : State} {k c : Column} (h : s.column? k.id = some c) (r : Route) (cv old : Nat) :
    ∃ d, (s.comeBack r k cv old).column? k.id = some d ∧ c.Keeps d := by
  unfold State.comeBack
  split
  · exact ⟨c, h, .cvs rfl⟩
  · dsimp only
    split
    · exact ⟨c, h, .cvs rfl⟩
    · split
      · exact ⟨c.doom, column?_kill ((column?_congr (report_cols ..) k.id).trans h), doom_keeps c⟩
      next ht =>
        have ht := (column?_congr (bringOverlays_cols ht) k.id).trans h
        split
        · exact ⟨c, ht, .cvs rfl⟩
        · exact ⟨_, column?_onColumn ht (show c.id = k.id from column?_id h), .cvs (updateAt_quads (fun _ => by rfl) _)⟩

theorem column?_comeBacks {k c : Column} (r : Route) (qs : List (Nat × Nat)) {s : State} (h : s.column? k.id = some c) :
    ∃ d, (qs.foldl (fun (t : State) q => t.comeBack r k q.2 (coreOf q.1)) s).column? k.id = some d ∧ c.Keeps d :=
  List.foldlRecOn (motive := fun t : State => ∃ d, t.column? k.id = some d ∧ c.Keeps d) qs _ ⟨c, h, .cvs rfl⟩ fun t ht q _ => by
    obtain ⟨d, hd, hk⟩ := ht
    obtain ⟨e, he, hk'⟩ := column?_comeBack hd r q.2 (coreOf q.1)
    exact ⟨e, he, hk.trans hk'⟩

/-- A convoy that comes back on its core needs nothing. -/
theorem comeBack_same {s : State} {k : Column} {cv old : Nat} (h : ∀ v, s.convoy? k.id cv = some v → coreOf v.quad = old) (r : Route) :
    s.comeBack r k cv old = s := by
  unfold State.comeBack
  split
  · rfl
  next v hv => exact if_pos (.inl (h v hv))

theorem comeBacks_same {k : Column} {r : Route} {qs : List (Nat × Nat)} {s : State}
    (h : ∀ q ∈ qs, ∀ v, s.convoy? k.id q.2 = some v → coreOf v.quad = coreOf q.1) :
    qs.foldl (fun (t : State) q => t.comeBack r k q.2 (coreOf q.1)) s = s :=
  List.foldlRecOn (motive := fun t => t = s) qs _ rfl fun _ ht q hq => ht.symm ▸ comeBack_same (h q hq) r

/-- The convoys of a column read back from its frame. -/
def State.convoysBack (s : State) (r : Route) (k : Column) (f : Nat) (was : List Nat) : List Convoy :=
  (k.cvs.zip was).mapIdx fun c vq => s.readBack r k f c vq.2 vq.1

/-- The column with them, running. -/
def State.columnBack (s : State) (r : Route) (k : Column) (f : Nat) (was : List Nat) (now : Nat) : Column :=
  { k with
    cvs := s.convoysBack r k f was
    cvregs := k.cvregs.map fun m => (m.1, m.2.readBack (s.frameBytes k.core r (r.frameVa f + 0x40 + 48 * m.1) 48))
    phase := .running, banksOut := false, tilesOut := false, since := now }

theorem convoysBack_get {s : State} {r : Route} {k : Column} {f c : Nat} {was : List Nat} {v : Convoy} (h : (s.convoysBack r k f was)[c]? = some v) :
    ∃ u q, k.cvs[c]? = some u ∧ was[c]? = some q ∧ v = s.readBack r k f c q u := by
  simp only [State.convoysBack, List.getElem?_mapIdx, Option.map_eq_some_iff] at h
  obtain ⟨⟨u, q⟩, hz, rfl⟩ := h
  obtain ⟨hu, hq⟩ := List.getElem?_zip_eq_some.1 hz
  exact ⟨u, q, hu, hq, rfl⟩

theorem convoysBack_quads (s : State) (r : Route) {k : Column} (f : Nat) {was : List Nat} (h : was.length = k.cvs.length) :
    (s.convoysBack r k f was).map (·.quad) = k.cvs.map (·.quad) := by
  refine List.ext_getElem (by simp [State.convoysBack, h]) fun i hi _ => ?_
  simp only [State.convoysBack, List.getElem_map, List.getElem_mapIdx, readBack_quad, List.getElem_zip]

/-- Memory as resumption finds it once banks and tiles have been read back. -/
def State.banksBack (s : State) (r : Route) (k : Column) (f : Nat) (was : List Nat) : State := (s.readBanks r k f k.banks).readTiles r k f was

/-- What a noticed write changes of a convoy is its wait record alone. -/
theorem State.ReadFrom.noticed {s : State} {r : Route} {k : Column} {f c n : Nat} {v w : Convoy} (h : s.ReadFrom r k f c n v)
    (hw : { w with wait := none } = { v with wait := none }) : s.ReadFrom r k f c n w := by
  have hsregs := congrArg Convoy.sregs hw
  have hcount := congrArg Convoy.liveCount hw
  have hlanes := congrArg Convoy.lanes hw
  obtain ⟨hsreg, hlive, hlen, hpc, hreg⟩ := h
  dsimp only at hsregs hcount hlanes
  unfold Convoy.sreg at hsreg
  unfold Convoy.lane at hpc hreg
  rw [← hsregs] at hsreg
  rw [← hcount] at hlive hreg
  rw [← hlanes] at hlen hpc hreg
  exact ⟨hsreg, hlive, hlen, hpc, hreg⟩

/-- The column before its convoys come back on their cores. -/
theorem column?_back {s : State} {k : Column} (hc : s.column? k.id = some k) (r : Route) (f : Nat) (was : List Nat) :
    let t := s.banksBack r k f was
    let u := t.onColumn k.id fun d =>
      { d with cvs := t.convoysBack r k f was,
               cvregs := k.cvregs.map fun m => (m.1, m.2.readBack (t.frameBytes k.core r (r.frameVa f + 0x40 + 48 * m.1) 48)),
               phase := .running, banksOut := false, tilesOut := false, since := s.now }
    (u.ringBytes k.core r.part r.ctx (r.frameVa f) (bytesOf 4 0)).1.column? k.id = some (t.columnBack r k f was s.now) := by
  intro t u
  have hcols : t.cols = s.cols := (readTiles_cols ..).trans (readBanks_cols ..)
  refine (column?_congr (ringBytes_cols ..) k.id).trans ?_
  exact column?_onColumn (k := k) ((column?_congr hcols k.id).trans hc) rfl

/-- R315: a column whose data have been read back runs; where every convoy is on its core again, they stand as the frame says. -/
theorem resume_spec {s : State} {k : Column} (hc : s.column? k.id = some k) (r : Route) (f : Nat) (was : List Nat) :
    ∃ d, (s.resume r k f was).column? k.id = some d ∧ ((s.banksBack r k f was).columnBack r k f was s.now).Keeps d ∧
      ((∀ p ∈ was.zip (k.cvs.map (·.quad)), coreOf p.1 = coreOf p.2) → ∀ c v, d.cvs[c]? = some v →
        (s.banksBack r k f was).ReadFrom r k f c v.lanes.length v) := by
  have hback := column?_back hc r f was
  dsimp only at hback
  generalize hw : ((s.banksBack r k f was).onColumn k.id _).ringBytes k.core r.part r.ctx (r.frameVa f) (bytesOf 4 0) = w at hback
  have hresume : s.resume r k f was = ((was.zipIdx.foldl (fun (t : State) q => t.comeBack r k q.2 (coreOf q.1)) w.1).settle).notice := by
    rw [← hw]
    rfl
  rw [hresume]
  obtain ⟨d, hd, hkeeps⟩ := column?_comeBacks (k := k) r was.zipIdx hback
  obtain ⟨g, hg, hn⟩ := column_notice ((column?_congr (settle_cols _) k.id).trans hd)
  have hquad (v : Convoy) : (g v).quad = v.quad := by
    have := congrArg Convoy.quad (hg v)
    exact this
  refine ⟨_, hn, hkeeps.trans (.cvs ?_), fun hcore c v hv => ?_⟩
  · rw [List.map_map]
    exact List.map_congr_left fun v _ => hquad v
  · have hsame : d = (s.banksBack r k f was).columnBack r k f was s.now := by
      rw [comeBacks_same] at hd
      · exact Option.some.inj (hd.symm.trans hback)
      · intro q hq v hv
        obtain ⟨u, old, hu, hold, rfl⟩ := convoysBack_get (by simpa [State.convoy?, hback, State.columnBack] using hv)
        rw [List.mem_zipIdx_iff_getElem?] at hq
        cases hold.symm.trans hq
        rw [readBack_quad]
        exact (hcore (q.1, u.quad) (List.mem_of_getElem? (List.getElem?_zip_eq_some.2 ⟨hq, by rw [List.getElem?_map, hu]; rfl⟩))).symm
    subst hsame
    simp only [List.getElem?_map, Option.map_eq_some_iff] at hv
    obtain ⟨u, hu, rfl⟩ := hv
    obtain ⟨x, q, hx, hq, rfl⟩ := convoysBack_get hu
    have hread := (readBack_readFrom (s.banksBack r k f was) r k f c q x).noticed (hg _)
    rwa [← hread.lanes] at hread

theorem resumption_ok {s t : State} {k : Column} {r : Route} (hc : s.column? k.id = some k) (hr : s.route? k.part k.prog = some r)
    (hk : k.killed = false) {f : Nat} {was : List Nat} (hp : k.phase = .resuming f was)
    (hs : s.supply k.core r.part r.ctx .read (rangePages (r.frameVa f) (s.resumeRanges r k)) = .ok t) (core : Nat) (quads : List Nat) :
    exec (.resumption k.id core quads) s = .next (t.resume r k f was) := by
  change execResumption k.id core quads s = _
  unfold execResumption
  -- a name in place of the function, for else the kernel evaluates the pages of the frame
  obtain ⟨supply, hsupply⟩ : ∃ supply, supply = State.supply := ⟨_, rfl⟩
  rw [← hsupply] at hs ⊢
  simp only [hc, hr, hp, hk, hs, Bool.false_eq_true, if_false]

theorem resumption_error {s : State} {k : Column} {r : Route} (hc : s.column? k.id = some k) (hr : s.route? k.part k.prog = some r)
    (hk : k.killed = false) {f : Nat} {was : List Nat} (hp : k.phase = .resuming f was) {e : Nat × State}
    (hs : s.supply k.core r.part r.ctx .read (rangePages (r.frameVa f) (s.resumeRanges r k)) = .error e) (core : Nat) (quads : List Nat) :
    ∃ w, exec (.resumption k.id core quads) s = .next w ∧ w.lost k.id := by
  refine ⟨e.2.saveFails k e.1, ?_, saveFails_lost ((column?_congr (supply_error hs) k.id).trans hc) e.1⟩
  change execResumption k.id core quads s = _
  unfold execResumption
  obtain ⟨supply, hsupply⟩ : ∃ supply, supply = State.supply := ⟨_, rfl⟩
  rw [← hsupply] at hs ⊢
  simp only [hc, hr, hp, hk, hs, Bool.false_eq_true, if_false]

/-! ## The drain deadline (R298, R316) -/

theorem lateColumns_eq {s : State} {part prog d : Nat} {r : Route} (hr : s.route? part prog = some r) (hd : r.deadline = some d) :
    s.lateColumns part prog = if d ≤ s.now then s.cols.filter fun k => k.part == part && k.prog == prog && !k.dying else [] := by
  simp [State.lateColumns, hr, hd]

theorem drainDeadline_early {s : State} {part prog d : Nat} {r : Route} (hr : s.route? part prog = some r) (hd : r.deadline = some d)
    (h : s.now < d) : exec (.drainDeadline part prog) s = .next s := by
  change execDrainDeadline part prog s = _
  rw [execDrainDeadline, lateColumns_eq hr hd, if_neg (by omega)]
  rfl

/-- A column found by its number, where no two have one number. -/
theorem column?_of_mem {s : State} (hn : (s.cols.map (·.id)).Nodup) {k : Column} (hk : k ∈ s.cols) : s.column? k.id = some k := by
  unfold State.column?
  generalize s.cols = cs at hn hk
  induction cs with
  | nil => cases hk
  | cons c cs ih =>
    rw [List.map_cons, List.nodup_cons] at hn
    rcases List.mem_cons.1 hk with rfl | hk
    · simp
    · have hne : c.id ≠ k.id := fun h => hn.1 (h ▸ List.mem_map_of_mem hk)
      rw [List.find?_cons_of_neg (by simpa using hne)]
      exact ih hn.2 hk

theorem drainDeadline_late {s : State} {part prog d : Nat} {r : Route} (hr : s.route? part prog = some r) (hd : r.deadline = some d)
    (hn : (s.cols.map (·.id)).Nodup) (h : d ≤ s.now) : ∃ t, exec (.drainDeadline part prog) s = .next t ∧
      ∀ k ∈ s.cols, k.part = part → k.prog = prog → (t.column? k.id).map (·.dying) = some true ∧
        (k.beingSaved = false → k.doomed = false → (t.column? k.id).map (·.killed) = some true) := by
  refine ⟨_, rfl, fun k hk hpart hprog => ?_⟩
  have hlate : k.id ∉ (s.lateColumns part prog).map (·.id) → k.dying = true := by
    contrapose!
    intro hdying
    refine List.mem_map_of_mem ?_
    rw [lateColumns_eq hr hd, if_pos h]
    simp only [Bool.not_eq_true] at hdying
    simp [hk, hpart, hprog, hdying]
  rw [column?_kills _ (column?_of_mem hn hk)]
  split
  · exact ⟨congrArg some (doom_dying k), fun hsaved _ => congrArg some (doom_killed hsaved)⟩
  next hnot =>
    refine ⟨congrArg some (hlate hnot), fun _ hdoomed => congrArg some ?_⟩
    simpa [Column.dying, hdoomed] using hlate hnot

/-! ## The obligation -/

/-- R28: a launch makes room on a core all of whose convoys wait. -/
theorem preemptForRoom_gives {s : State} {part prog core : Nat} {r : Route} {b : Bool × Nat} {bs : List (Bool × Nat)}
    (hr : s.route? part prog = some r) (hl : s.readyLaunches r = b :: bs) (hall : s.allWait ((s.launchWaiter r b).cores core) = true)
    (hfits : s.waiterFits (s.launchWaiter r b) core = false) {ids : List Nat} (hv : s.victims (s.launchWaiter r b) core
      (s.mayGive (s.launchWaiter r b) part core) ((s.mayGive (s.launchWaiter r b) part core).length + 1) = some ids) :
    (∀ id ∈ ids, ∃ k ∈ s.cols, k.id = id ∧ k.part = part ∧ k.phase = .running ∧ k.killed = false) ∧
    exec (.preemptForRoom part prog core) s = .next ((s.stopColumns ids).reserveRoom part core (.launch prog) false) := by
  refine ⟨fun id hid => ?_, by simp only [exec_preemptForRoom hr hl, hall, hfits, hv, Bool.not_true, Bool.or_self, Bool.false_eq_true, if_false]⟩
  obtain ⟨k, hk, hkid⟩ := victims_mem _ hv id hid
  obtain ⟨hmem, hpart, hphase, hkilled⟩ := runs_of_mem_runners (List.mem_of_mem_filter hk)
  exact ⟨k, hmem, hkid, hpart, hphase, hkilled⟩

/-- Where no pre-emption would make room, none happens. -/
theorem preemptForRoom_noVictims {s : State} {part prog core : Nat} {r : Route} {b : Bool × Nat} {bs : List (Bool × Nat)}
    (hr : s.route? part prog = some r) (hl : s.readyLaunches r = b :: bs) (hv : s.victims (s.launchWaiter r b) core
      (s.mayGive (s.launchWaiter r b) part core) ((s.mayGive (s.launchWaiter r b) part core).length + 1) = none) :
    exec (.preemptForRoom part prog core) s = .next s := by
  rw [exec_preemptForRoom hr hl, hv]
  exact ite_self _

/-- Settles O43: each clause is the lemma about its step; what a column keeps comes from the paging service, rings and frames leaving the
columns as they are. -/
theorem preemption : Obligations.Preemption := by
  unfold Obligations.Preemption
  refine ⟨fun s part prog core r hr => ?_, fun s k r hc hr hk => ?_, fun s part prog d r hr hd hn =>
    ⟨drainDeadline_early hr hd, drainDeadline_late hr hd hn⟩⟩
  · split
    next hl => exact preemptForRoom_none hr hl
    next b bs hl =>
      intro w ks
      refine ⟨fun h => ?_, fun hall hfits => ?_⟩
      · have hidle : (!s.allWait (w.cores core) || s.waiterFits w core) = true := by rcases h with h | h <;> simp [h]
        exact (exec_preemptForRoom hr hl).trans (if_pos hidle)
      · split
        next hv => exact preemptForRoom_noVictims hr hl hv
        next ids hv =>
          obtain ⟨hids, hexec⟩ := preemptForRoom_gives hr hl hall hfits hv
          exact ⟨hids, _, hexec, preempted_spec s part core (.launch prog) ids⟩
  · intro now lost held still
    refine ⟨fun hp h => ?_, fun c v hv => saveParts_holds s r hv, fun hp => preemptionSave_waits hc hr hk hp,
      fun f done hp => ⟨preemptionSave_writes hc hr hp, preemptionSave_ends hc hr hp⟩, fun f hp => ?_, fun f was core quads hp hlen => ?_⟩
    · have hexec := exec_preemptionSave_still hc hr hk hp h
      split
      next hf => exact ⟨_, hexec, beginSave_none r hc h hf⟩
      next f hf =>
        obtain ⟨hlt, hfree, hlow⟩ := freeFrame_spec hf
        refine ⟨hlt, hfree, hlow, ?_⟩
        split
        next hw => exact ⟨_, hexec, beginSave_ok hc h hf hw⟩
        next hw => exact ⟨_, hexec, beginSave_error hc h hf hw⟩
    · intro want banksOut tilesOut
      refine ⟨fun h hd => ?_, tileBankSave_idle hc hr hp rfl, fun quads hdry hroom hkept hlen hidle => ?_⟩
      · split
        next hw => exact tileBankSave_ok hc hr hk hp rfl h hd hw
        next hw => exact tileBankSave_error hc hr hk hp rfl h hd hw
      · have hreturn : s.MayReturn k r quads := ⟨hdry, hroom, hkept, hidle⟩
        split
        next hb => exact resumption_none hc hr hk hp hreturn hb
        next banks hb => exact fun hrooms => resumption_placed hc hr hk hp hreturn hlen hb hrooms
    · split
      next t hs =>
        obtain ⟨hcols, hnow⟩ := supply_ok hs
        obtain ⟨d, hd, ⟨hphase, hquads, hbanks, hbanksOut, htilesOut, hsince⟩, hread⟩ := resume_spec ((column?_congr hcols k.id).trans hc) r f was
        refine ⟨_, d, resumption_ok hc hr hk hp hs core quads, hd, hphase, hquads.trans (convoysBack_quads _ r f hlen), hbanks, hbanksOut, htilesOut,
          hsince.trans hnow, fun hcore c v hv => ?_⟩
        obtain ⟨hsreg, hlive, -, hpc, hreg⟩ := hread hcore c v hv
        exact ⟨hsreg, hlive, fun i hi => ⟨hpc i hi, hreg i hi⟩⟩
      next hs => exact resumption_error hc hr hk hp hs core quads

end Sys2Proof.Machine
end

section
/-!
PROOFS. Memory and the one step: every step keeps the form of the memories (O57).
-/

namespace Sys2Proof.Machine

/-- R363: a cold reset leaves the memories of others, and its own are empty. -/
theorem execColdReset_wf {s t : State} (h : s.store.wf = true) (ht : exec .coldReset s = .next t) : t.store.wf = true := by
  obtain rfl : _ = t := Host.Outcome.next.inj ht
  obtain ⟨-, hhost, hpeer, -⟩ := (store_wf_iff _).mp h
  obtain ⟨hdev, -, -, hrest⟩ := (store_wf_iff _).mp reset_wf
  exact (store_wf_iff _).mpr ⟨hdev, hhost, hpeer, hrest⟩

/-- R2: the end of a cycle keeps the form of the memories, though it moves the clock. -/
theorem tick_wf {s : State} (h : s.store.wf = true) : s.tick.store.wf = true := by
  unfold State.tick
  have hold := (State.Keeps.refl s).joinGroups.deliverAll.pruneHolds.chargeRest.countRecalls.forceWakes.endSlices
  generalize s.joinGroups.deliverAll.pruneHolds.chargeRest.countRecalls.forceWakes.endSlices = v at hold ⊢
  extract_lets u
  have hnew : u.Keeps (if u.refillDue then u.refill else u) := by
    split
    exacts [(State.Keeps.refl u).refill, .refl u]
  exact hnew.flushPosts.syncAst.wf (hold.wf h)

/-- Every act of the agenda keeps the form of the memories. -/
theorem perform_wf {s t : State} {a : Act} (h : s.store.wf = true) (ht : s.perform a = .next t) : t.store.wf = true := by
  by_cases hk : a = .tick
  · subst hk
    dsimp only [State.perform, State.endCycle] at ht
    split at ht
    · obtain ⟨u, hu, hkeep⟩ := issueOn_runs { s with agenda := .tick :: s.agenda } _ _
      obtain rfl : u = t := Host.Outcome.next.inj (hu.symm.trans ht)
      exact hkeep.wf h
    · obtain rfl : s.tick = t := Host.Outcome.next.inj ht
      exact tick_wf h
  · by_cases hc : a = .event .coldReset
    · subst hc
      exact execColdReset_wf h ht
    · obtain ⟨u, hu, hkeep⟩ := perform_runs (s := s) hk hc
      obtain rfl : u = t := Host.Outcome.next.inj (hu.symm.trans ht)
      exact hkeep.wf h

/-- Settles O57: a step performs one act, and `State.Keeps` carries the form of the memories through every act but the end of a cycle and a
cold reset, which have lemmas of their own. -/
theorem stepKeepsMemory : Obligations.StepKeepsMemory := by
  unfold Obligations.StepKeepsMemory
  intro s t h ht
  unfold step at ht
  split at ht
  · exact perform_wf h ht
  next as _ => exact perform_wf (s := { s with agenda := as }) h ht

end Sys2Proof.Machine
end

section
/-!
PROOFS. Home slices (O14).
-/

namespace Sys2Proof.Machine

/-- Bits of a field, as bits of the whole. -/
theorem bitsOf_bitsOf {x a m b n : Nat} (h : b + n ≤ m) : bitsOf (bitsOf x a m) b n = bitsOf x (a + b) n := by
  unfold bitsOf
  rw [pow_add, ← Nat.div_div_eq_div_mul, ← Nat.add_sub_of_le (le_trans (Nat.le_add_right b n) h), pow_add, Nat.mod_mul_right_div_self,
    Nat.mod_mod_of_dvd _ (Nat.pow_dvd_pow 2 (by omega))]

theorem bitsOf_lt (x a n : Nat) : bitsOf x a n < 2 ^ n := Nat.mod_lt _ (by positivity)

/-- R59: the XOR of the bytes of a line's number above its lowest. -/
def homeXor (p : Nat) : Nat := bitsOf p 0 8 ^^^ bitsOf p 8 8 ^^^ bitsOf p 16 8 ^^^ bitsOf p 24 8 ^^^ bitsOf p 32 4

/-- R59: the third that bits 51:16 of an address name, and the lowest byte of the line's number against the XOR of the others. -/
theorem homeOf_eq (pa : Nat) : homeOf pa = 256 * (bitsOf (pa / 2 ^ 16) 0 36 % 3) + (bitsOf pa 8 8 ^^^ homeXor (pa / 2 ^ 16)) := by
  have hup (b n : Nat) : bitsOf (pa / 2 ^ 16) b n = bitsOf pa (16 + b) n := by
    unfold bitsOf; rw [Nat.div_div_eq_div_mul, ← pow_add]
  simp only [homeOf, homeXor, hup, Nat.xor_assoc]
  simp [bitsOf_bitsOf]

theorem homeXor_lt (p : Nat) : homeXor p < 2 ^ 8 := by
  have h4 : bitsOf p 32 4 < 2 ^ 8 := (bitsOf_lt p 32 4).trans (by decide)
  exact Nat.xor_lt_two_pow (Nat.xor_lt_two_pow (Nat.xor_lt_two_pow (Nat.xor_lt_two_pow (bitsOf_lt ..) (bitsOf_lt ..)) (bitsOf_lt ..))
    (bitsOf_lt ..)) h4

/-- Settles O14: a home slice is a third and, within it, the lowest byte of the line's number against what its upper bits fix. -/
theorem homeSlices : Obligations.HomeSlices := by
  unfold Obligations.HomeSlices
  have hlow (pa : Nat) : (bitsOf pa 8 8 ^^^ homeXor (pa / 2 ^ 16)) < 2 ^ 8 := Nat.xor_lt_two_pow (bitsOf_lt ..) (homeXor_lt _)
  refine ⟨fun pa => ?_, fun pa qa h => ?_, fun pa qa h hne heq => ?_, by decide, by decide⟩
  · have := hlow pa
    rw [homeOf_eq]
    omega
  · simp only [homeOf, bitsOf, h]
  · rw [homeOf_eq, homeOf_eq, h] at heq
    have hbyte : bitsOf pa 8 8 = bitsOf qa 8 8 := Nat.xor_left_injective (Nat.add_left_cancel heq)
    unfold bitsOf at hbyte
    omega

end Sys2Proof.Machine
end

section
/-!
PROOFS. Addresses (O2).
-/

namespace Sys2Proof.Machine

theorem wrapTo_congr {n : Nat} {a b : Int} (h : a ≡ b [ZMOD 2 ^ n]) : wrapTo n a = wrapTo n b := congrArg Int.toNat h

theorem coe_wrapTo (n : Nat) (a : Int) : (wrapTo n a : Int) = a % 2 ^ n := Int.toNat_of_nonneg (Int.emod_nonneg _ (by positivity))

/-- A source read as an unsigned number of n bits is congruent to it. -/
theorem readInt_unsigned_modEq (n x : Nat) : readInt n false x ≡ (x : Int) [ZMOD 2 ^ n] := by
  have h : readInt n false x = (x : Int) % 2 ^ n := by simp [readInt]
  exact h ▸ Int.mod_modEq _ _

/-- R127: in global memory LEA gives the address modulo 2^64. -/
theorem leaAlu_global {f : MForm} (h : f.space = .global) (b c : Nat) :
    (leaAlu f).point [b, c] = wrapTo 64 ((b : Int) + signedOf 32 c * 2 ^ f.scale.val + f.off.toInt) := by
  simp only [leaAlu, h]
  exact wrapTo_congr (((readInt_unsigned_modEq 64 b).add_right _).add_right _)

/-- R127: in scratchpad LEA gives the offset modulo 2^32. -/
theorem leaAlu_scratch {f : MForm} (h : f.space = .scratch) (b c : Nat) :
    (leaAlu f).point [b, c] = wrapTo 32 ((b : Int) + (c : Int) * 2 ^ f.scale.val + f.off.toInt) := by
  simp only [leaAlu, h]
  exact wrapTo_congr (((readInt_unsigned_modEq 32 b).add ((readInt_unsigned_modEq 32 c).mul_right _)).add_right _)

/-- LEA writes what its operation computes from the base and the index. -/
theorem lea_computes {f : MForm} {val : Ctx → Nat → Nat}
    (hv : ∀ y l, (leaAlu f).point [y.src l f.b f.baseRegs, y.src l f.c] = val y l) : Computes (.lea f) f.a f.baseRegs val := by
  intro ha s x y hi hp
  have h := issueAlu_leaves hi hp ha f.baseRegs [(f.b, f.baseRegs), (f.c, 1)] (leaAlu f)
  simp only [List.map_cons, List.map_nil, hv] at h
  exact h

/-- Settles O2: LEA by what its operation computes modulo the width of an address, and the address of an access by its definition. -/
theorem addresses : Obligations.Addresses := by
  unfold Obligations.Addresses
  refine ⟨fun f => ⟨fun h => ?_, fun h => ?_⟩, fun f y l => ⟨fun h => ?_, fun h => ?_⟩⟩
  · have hk : f.baseRegs = 2 := by simp [MForm.baseRegs, h]
    rw [← hk]
    exact lea_computes fun y l => leaAlu_global h _ _
  · have hk : f.baseRegs = 1 := by simp [MForm.baseRegs, h]
    rw [← hk]
    exact lea_computes fun y l => hk ▸ leaAlu_scratch h _ _
  · simp only [Ctx.ea, h]
    rfl
  · simp only [Ctx.ea, h]
    exact coe_wrapTo 32 _

end Sys2Proof.Machine
end

section
/-!
PROOFS. Accesses left pending at issue: stores and fills (O17).
-/

namespace Sys2Proof.Machine

/-- The convoy of the group where only its memory, or nothing of it, has been read. -/
theorem begun_resolve_convoy {i : Instr} {s u : State} {x y : Ctx} (hi : Issues i s x y) {space : Space} {perm : Perm}
    {deny : Loc → Option (BitVec 16)} {ws : List Want} {ps : List Piece}
    (hr : (s.begun y).resolve y space perm deny ws = .ok (ps, u)) : u.convoy? y.cur.col y.cur.cv = some y.v := by
  rw [resolve_convoy hr, issues_cur hi]
  exact begun_convoy hi

/-- An effect that puts the convoy back with its lanes as they were is followed by the group's going on. -/
theorem goes_put {i : Instr} {s u : State} {x y : Ctx} {v w : Convoy} (hi : Issues i s x y) {body : Ctx → State → Effect}
    (he : exec i s = issue i (hdrOf i) body s) (hb : body y (s.begun y) = .next (u.put y w))
    (hu : u.convoy? y.cur.col y.cur.cv = some v) (hl : w.lanes = y.v.lanes) : Goes i s x (u.put y w) :=
  goes_next hi he (.inl hb) (issues_cur hi ▸ convoy_put hu w) fun l => by simp [Convoy.lane, hl]

/-- The two ends of a store at issue (R67, R165): left pending, or a fault of the group. -/
theorem store_posts {i : Instr} {s : State} {x y : Ctx} (hi : Issues i s x y) {body : Ctx → State → Effect}
    (he : exec i s = issue i (hdrOf i) body s) {space : Space} {ws : List Want} {hint : Hint} {vals : List (Nat × Nat)}
    (hok : ∀ ps u, (s.begun y).resolve y space .write anyLoc ws = .ok (ps, u) →
      body y (s.begun y) = .next ((u.addOp y .store hint y.act (dropOverwritten (groupPieces true ps)) vals []).put y (y.v.stored 1 ps)))
    (hbad : ∀ b, (s.begun y).resolve y space .write anyLoc ws = .error b → body y (s.begun y) = .fault (s.begun y) y.group b) :
    ((s.begun y).reaches y space .write anyLoc ws → ∃ ps u, (s.begun y).resolve y space .write anyLoc ws = .ok (ps, u) ∧
      Goes i s x ((u.addOp y .store hint y.act (dropOverwritten (groupPieces true ps)) vals []).put y (y.v.stored 1 ps))) ∧
    ∀ b, (s.begun y).resolve y space .write anyLoc ws = .error b → Faults i s x (s.begun y) y.group b.code b.addr b.access := by
  refine ⟨fun ⟨⟨ps, u⟩, hr⟩ => ⟨ps, u, hr, ?_⟩, fun b hr => faults_of hi he (hbad b hr)⟩
  exact goes_put hi he (hok ps u hr) ((convoy_addOp ..).trans (begun_resolve_convoy hi hr)) rfl

/-- What a store with an active lane does once its addresses are looked up. -/
theorem startStore_ok {x : Ctx} {t u : State} {f : MForm} {val : Nat → Nat} {ps : List Piece} (ha : x.act ≠ [])
    (hr : t.resolve x f.space .write anyLoc (x.act.flatMap fun l => wants l (x.ea f l) f.size.bytes) = .ok (ps, u)) :
    x.startStore t f val = .next ((u.addOp x .store f.h.hint x.act (dropOverwritten (groupPieces true ps))
      (x.act.map fun l => (l, val l % 2 ^ (8 * f.size.bytes))) []).put x (x.v.stored 1 ps)) := by
  simp [Ctx.startStore, hr, ha]

theorem startStore_bad {x : Ctx} {t : State} {f : MForm} {val : Nat → Nat} {b : Bad}
    (hr : t.resolve x f.space .write anyLoc (x.act.flatMap fun l => wants l (x.ea f l) f.size.bytes) = .error b) :
    x.startStore t f val = .fault t x.group b := by simp [Ctx.startStore, hr]

/-- R255: the address of FILL, with its base as a number. -/
theorem fillAddr_ofNat (b c n ex ey : Nat) (off : BitVec 16) :
    fillAddr (BitVec.ofNat 64 b) off c n ex ey = (b % 2 ^ 64 : Nat) + (((ey * c + ex) * n : Nat) : Int) + off.toInt := by
  simp [fillAddr]

section
variable {x : Ctx} {t u : State} {f : MForm} {ea : Nat → Int}
  (hea : ∀ l, fillAddr (BitVec.ofNat 64 (x.uni f.b 2)) f.off (x.uni f.c) f.size.bytes (x.special l .ex).lo (x.special l .ey).lo = ea l)
include hea

/-- What FILL does in an element column once its addresses are looked up (R255). -/
theorem fillElements_ok {ps : List Piece} (ha : x.act ≠ [])
    (hr : t.resolve x .global .write anyLoc (x.act.flatMap fun l => wants l (ea l) f.size.bytes) = .ok (ps, u)) :
    x.fillElements t f = .next ((u.addOp x .store f.h.hint x.act (dropOverwritten (groupPieces true ps))
      (x.act.map fun l => (l, x.src l f.a f.size.regs % 2 ^ (8 * f.size.bytes))) []).put x (x.v.stored 1 ps)) := by
  simp [Ctx.fillElements, hea, hr, ha, Ctx.src]

theorem fillElements_bad {b : Bad}
    (hr : t.resolve x .global .write anyLoc (x.act.flatMap fun l => wants l (ea l) f.size.bytes) = .error b) :
    x.fillElements t f = .fault t x.group b := by simp [Ctx.fillElements, hea, hr]
end

/-- Settles O17: ST, STS and STX post through `Ctx.startStore`, FILL through `Ctx.fillElements`. -/
theorem stores : Obligations.Stores := by
  unfold Obligations.Stores
  intro f s x y
  refine ⟨fun hi _ ha => ?_, fun hi _ ha => ?_, fun hi _ ha => ?_, fun hi hp ha => ?_⟩
  · exact store_posts hi rfl (fun _ _ => startStore_ok ha) fun _ => startStore_bad
  · exact store_posts hi rfl (fun _ _ => startStore_ok ha) fun _ => startStore_bad
  · exact store_posts hi rfl (fun _ _ => startStore_ok ha) fun _ => startStore_bad
  · have hea (l : Nat) := fillAddr_ofNat (y.uni f.b 2) (y.uni f.c) f.size.bytes (y.special l .ex).lo (y.special l .ey).lo f.off
    refine store_posts hi rfl (fun ps u hr => ?_) fun b hr => ?_ <;> simp only [hp.element, Bool.false_eq_true, if_false]
    exacts [fillElements_ok hea ha hr, fillElements_bad hea hr]

end Sys2Proof.Machine
end

section
/-!
PROOFS. Atomics at issue, and their new values (O18).
-/

namespace Sys2Proof.Machine

/-! ## The lowest lane -/

/-- The lanes of a group stand in ascending order. -/
theorem lanesWhere_sorted (v : Convoy) (p : Lane → Bool) : (v.lanesWhere p).Pairwise (· < ·) := List.pairwise_lt_range.filter _

theorem ctx_sorted {s : State} {h : Hdr} {x : Ctx} (hx : s.ctx h = some x) : x.group.Pairwise (· < ·) := by
  simp only [State.ctx, Option.bind_eq_bind, Option.bind_eq_some_iff] at hx
  obtain ⟨cur, -, c, -, v, -, r, -, l, -, hx⟩ := hx
  simp only [Option.pure_def, Option.some.injEq] at hx
  subst hx
  dsimp only
  split
  · exact (lanesWhere_sorted _ _).filter _
  · rw [Convoy.group]
    split
    exacts [lanesWhere_sorted _ _, .nil]

theorem issues_sorted {i : Instr} {s : State} {x y : Ctx} (hi : Issues i s x y) : y.act.Pairwise (· < ·) := by
  obtain ⟨-, hact, -⟩ := issues_group hi
  obtain ⟨-, -, -, -, -, -, hfilter, -⟩ := ctx_spec hi.ctx
  rw [hact, hfilter]
  exact (ctx_sorted hi.ctx).filter _

/-- The first element found in an ascending list is the lowest. -/
theorem find?_lowest {p : Nat → Bool} {ls : List Nat} (hs : ls.Pairwise (· < ·)) {l : Nat} (hl : l ∈ ls) (hp : p l = true)
    (hlow : ∀ m ∈ ls, m < l → p m = false) : ls.find? p = some l := by
  obtain ⟨as, bs, rfl⟩ := List.append_of_mem hl
  refine List.find?_eq_some_iff_append.mpr ⟨hp, as, bs, rfl, fun m hm => ?_⟩
  have hlt : m < l := (List.pairwise_append.mp hs).2.2 m hm l (List.mem_cons_self ..)
  simp [hlow m (List.mem_append_left _ hm) hlt]

/-! ## Places that an entry refuses -/

/-- A piece that was translated lies where the entry allows, or in scratchpad (R171, R173). -/
theorem resolve1_allowed {s t : State} {x : Ctx} {space : Space} {perm : Perm} {deny : Loc → Option (BitVec 16)} {w : Want} {p : Piece}
    (h : s.resolve1 x space perm deny w = .ok (p, t)) : deny p.loc = none ∨ p.loc = .spad := by
  simp only [State.resolve1] at h
  split at h
  · split at h
    · cases h
    · split at h
      · cases h
      · split at h
        · cases h
        next hd => cases h; exact .inl hd
  · split at h
    · cases h
    · split at h <;> cases h
      exact .inr rfl

theorem resolve_allowed {s t : State} {x : Ctx} {space : Space} {perm : Perm} {deny : Loc → Option (BitVec 16)} {ws : List Want}
    {ps : List Piece} (h : s.resolve x space perm deny ws = .ok (ps, t)) : ∀ p ∈ ps, deny p.loc = none ∨ p.loc = .spad := by
  induction ws generalizing s ps t with
  | nil => cases h; simp
  | cons w ws ih =>
    simp only [State.resolve] at h
    split at h
    · cases h
    next hp =>
      split at h <;> cases h
      next hr => exact List.forall_mem_cons.mpr ⟨resolve1_allowed hp, ih hr⟩

theorem isHost_iff (l : Loc) : l.isHost = true ↔ ∃ r, l = .host r := by
  cases l <;> simp [Loc.isHost]

/-- R171: an atomic that is not of system scope reaches no host memory. -/
theorem resolve_notHost {s t : State} {x : Ctx} {space : Space} {perm : Perm} {k : Nat} {en : Bool} {ws : List Want} {ps : List Piece}
    (h : s.resolve x space perm (atomicDeny k false en) ws = .ok (ps, t)) : ∀ p ∈ ps, ∀ r, p.loc ≠ .host r := by
  intro p hp r hr
  have := resolve_allowed h p hp
  simp [atomicDeny, hr] at this

/-! ## At issue -/

/-- What an atomic leaves pending whose addresses are looked up: its operation counted, with the operands of its lanes (R170, R172). -/
def Ctx.postAtomic (x : Ctx) (u : State) (f : MForm) (k : Nat) (ps : List Piece) : State :=
  let n := f.size.bytes
  let arg (l : Nat) : Nat × Nat :=
    let a := x.src l f.a (if k = 8 then 2 * f.size.regs else f.size.regs)
    if k = 8 then (a % 2 ^ (8 * n), a / 2 ^ (8 * n)) else (a, 0)
  (u.addOp x (.atomic k f.ty n (if f.ent.getLsbD 0 then none else some f.a)) f.h.hint x.act (ps.mapIdx fun i p => { p with grp := i })
    (x.act.map fun l => (l, 0)) (x.act.map fun l => (l, arg l))).put x { x.v with stores := x.v.stores + 1 }

theorem convoy_postAtomic {x : Ctx} {u : State} {f : MForm} {k : Nat} {ps : List Piece} {v : Convoy}
    (h : u.convoy? x.cur.col x.cur.cv = some v) :
    (x.postAtomic u f k ps).convoy? x.cur.col x.cur.cv = some { x.v with stores := x.v.stores + 1 } :=
  convoy_put ((convoy_addOp ..).trans h) _

/-- What one atomic asks to have translated. -/
def Ctx.atomicWants (x : Ctx) (f : MForm) : List Want := x.act.map fun l => ⟨l, x.ea f l, f.size.bytes, 0⟩

/-- R170: what an atomic's entry checks on the backing. -/
def Ctx.atomicDenies (x : Ctx) (t : State) (f : MForm) (k : Nat) : Loc → Option (BitVec 16) :=
  atomicDeny k (f.scope == .sys) (t.fw.atomicEn.contains x.c.part)

section
variable {x : Ctx} {t u : State} {f : MForm} {k : Nat} (hnew : t.hostAtomic? x = none)
include hnew

theorem startAtomic_misaligned {l : Nat} (hl : (x.act.find? fun l => x.ea f l % f.size.bytes ≠ 0) = some l) :
    x.startAtomic t f k = .fault t x.group ⟨cMisaligned, BitVec.ofInt 64 (x.ea f l), 4⟩ := by
  simp only [Ctx.startAtomic, hnew, hl]

variable (ha : x.act ≠ []) (hal : ∀ l ∈ x.act, x.ea f l % f.size.bytes = 0) {ps : List Piece}
  (hr : t.resolve x f.space .atomic (x.atomicDenies t f k) (x.atomicWants f) = .ok (ps, u))
include ha hal hr

theorem startAtomic_posted (hh : ∀ p ∈ ps, ∀ r, p.loc ≠ .host r) : x.startAtomic t f k = .next (x.postAtomic u f k ps) := by
  have hfind : (x.act.find? fun l => x.ea f l % f.size.bytes ≠ 0) = none := by simpa using hal
  have hhost : ps.any (·.loc.isHost) ≠ true := by
    rw [Ne, List.any_eq_true]
    rintro ⟨p, hp, h⟩
    obtain ⟨r, hl⟩ := (isHost_iff _).mp h
    exact hh p hp r hl
  unfold Ctx.atomicDenies Ctx.atomicWants at hr
  simp only [Ctx.startAtomic, hnew, hfind, hr, List.isEmpty_eq_false_iff.mpr ha]
  rw [if_neg (by decide)]
  exact if_neg hhost

theorem startAtomic_waits (hh : ∃ p ∈ ps, ∃ r, p.loc = .host r) : x.startAtomic t f k = .stall { x.postAtomic u f k ps with
    ops := (x.postAtomic u f k ps).ops.map fun o => if o.id = u.nextId then { o with lease := 0 } else o } := by
  have hfind : (x.act.find? fun l => x.ea f l % f.size.bytes ≠ 0) = none := by simpa using hal
  have hhost : ps.any (·.loc.isHost) = true := by
    obtain ⟨p, hp, hr⟩ := hh
    exact List.any_eq_true.mpr ⟨p, hp, (isHost_iff _).mpr hr⟩
  unfold Ctx.atomicDenies Ctx.atomicWants at hr
  simp only [Ctx.startAtomic, hnew, hfind, hr, List.isEmpty_eq_false_iff.mpr ha]
  rw [if_neg (by decide)]
  exact if_pos hhost
end

/-- Each atomic is `Ctx.startAtomic` with the number of its kind. -/
theorem exec_atomic {f : MForm} {i : Instr} {k : Nat} (h : (i, k) ∈ [(Instr.atadd f, 0), (.ataddf f, 1), (.atmin f, 2), (.atmax f, 3),
    (.atand f, 4), (.ator f, 5), (.atxor f, 6), (.atxch f, 7), (.atcas f, 8), (.atinc f, 9)]) (s : State) :
    exec i s = issue i (hdrOf i) (fun x t => x.startAtomic t f k) s := by
  simp only [List.mem_cons, Prod.mk.injEq, List.not_mem_nil, or_false] at h
  obtain ⟨rfl, rfl⟩ | ⟨rfl, rfl⟩ | ⟨rfl, rfl⟩ | ⟨rfl, rfl⟩ | ⟨rfl, rfl⟩ | ⟨rfl, rfl⟩ | ⟨rfl, rfl⟩ | ⟨rfl, rfl⟩ | ⟨rfl, rfl⟩ |
    ⟨rfl, rfl⟩ := h <;> rfl

/-! ## New values -/

/-- R170: MIN and MAX compare as TYPE. -/
theorem atomicNew_min (t : Fmt) (n old a b : Nat) : readInt n t.isSigned (atomicNew 2 t n old a b) =
    min (readInt n t.isSigned old) (readInt n t.isSigned a) := by
  simp only [atomicNew, decide_eq_true_eq]
  split <;> omega

theorem atomicNew_max (t : Fmt) (n old a b : Nat) : readInt n t.isSigned (atomicNew 3 t n old a b) =
    max (readInt n t.isSigned old) (readInt n t.isSigned a) := by
  simp only [atomicNew, decide_eq_true_eq]
  split <;> omega

/-- Settles O18: an atomic faults at its lowest misaligned lane, is left pending, or waits for the host, by the lemmas of
`Ctx.startAtomic`; its new values by the definition. -/
theorem atomics : Obligations.Atomics := by
  unfold Obligations.Atomics
  refine ⟨fun f s x y i k hik hi _ ha hnew => ⟨fun l hl hne hlow => ?_, fun hal hreach => ?_⟩, fun t n old a b _ _ _ _ => ?_⟩
  · refine faults_of hi (exec_atomic hik s) (startAtomic_misaligned hnew (find?_lowest (issues_sorted hi) hl ?_ fun m hm hlt => ?_))
    · simpa using hne
    · simpa using hlow m hm hlt
  · obtain ⟨⟨ps, u⟩, hr⟩ := hreach
    have hv := convoy_postAtomic (f := f) (k := k) (ps := ps) (begun_resolve_convoy hi hr)
    rw [issues_cur hi] at hv
    refine ⟨ps, u, hr, fun hor => ?_, fun hh => ?_⟩
    · have hh : ∀ p ∈ ps, ∀ r, p.loc ≠ .host r := by
        obtain hsys | hh := hor
        · rw [beq_false_of_ne hsys] at hr
          exact resolve_notHost hr
        · exact hh
      exact goes_next hi (exec_atomic hik s) (.inl (startAtomic_posted hnew ha hal hr hh)) hv fun _ => rfl
    · exact stalls_at hi (exec_atomic hik s) (startAtomic_waits hnew ha hal hr hh) hv
  · exact ⟨rfl, atomicNew_min .., atomicNew_max .., rfl, rfl, rfl, rfl, rfl, rfl, rfl⟩

end Sys2Proof.Machine
end

section
/-!
PROOFS. Loads and PF at issue (O15). The statement fails for PF alone: under `.home` a line is fetched and leased at its home slice, but
`State.fetchLine` puts no copy of it into L1, while the statement (as R168 does) leaves out the hint `.stream` only.
-/

namespace Sys2Proof.Machine

/-- PF of virtual address 0x10000 under the hint `.home`, guarded by p1. -/
def homePf : MForm :=
  { h := { plainHdr with hint := .home, g1 := ⟨false, 1⟩ }, a := .none, b := .s 4, c := .none, off := 0, size := .b1, space := .global,
    scope := .none, scale := 0, ty := .none, ent := 0 }

/-- A state in which that PF issues, with p1 true in lane 2 alone: the address lies in device memory, and nothing is in L1. -/
def homePfState : State := Tests.ready fun v => v.onLanes [2] fun _ l => l.setPred 1 .yes

/-- The address translates to device memory, its line is not in L1, and a lease is free. -/
def homePfBrings (y : Ctx) : Bool :=
  !y.bounds && y.und.isEmpty && y.act == [2] && decide (0 ≤ y.ea homePf 2) &&
  match (homePfState.begun y).translate y.via y.c.part y.r.ctx (some y.c.epoch) (y.ea homePf 2).toNat .read with
  | .ok (⟨.dev, pa⟩, t) => (t.l1Hit y.cur.col y.v.quad (lineOf pa) (y.v.firstIssue.getD homePfState.now)).isNone &&
      ((t.checkBytes y.c.part .dev (64 * lineOf pa) 64).grant (lineOf pa) (.l1 y.v.quad) (homePfState.now + y.lease homePf.h.hint)).isSome
  | _ => false

theorem homePf_issues : Tests.meets (.pf homePf) homePfState homePfBrings = true := by decide +kernel

/-- PF under `.home` leaves L1 empty. -/
theorem homePf_l1_nil : Tests.does (.pf homePf) homePfState (fun t => t.coh.l1.isEmpty) = true := by decide +kernel

/-- What an instruction that has issued left in L1 is what its execution left there. -/
theorem Goes.l1 {i : Instr} {s u t : State} {x : Ctx} (h : Goes i s x u) (ht : exec i s = .next t) : u.coh.l1 = t.coh.l1 := by
  obtain ⟨v, -, t', ht', hr, -⟩ := h
  obtain rfl : t' = t := Host.Outcome.next.inj (ht'.symm.trans ht)
  rw [hr]

/-- Refutes O15: a PF under the hint `.home` (`homePf`, in `homePfState`) whose line lies in device memory, is not in L1 and is granted its
lease brings nothing into L1. -/
theorem not_loads : ¬ Obligations.Loads := by
  unfold Obligations.Loads
  rintro ⟨-, hpf⟩
  obtain ⟨x, y, hi, hb⟩ := Tests.meets_sound homePf_issues
  obtain ⟨u, n, hgoes, -, -, hline⟩ := hpf homePf homePfState x y hi
  have hempty : u.coh.l1 = [] := by
    have hd := homePf_l1_nil
    unfold Tests.does at hd
    split at hd
    next t ht => rw [hgoes.l1 ht]; exact List.isEmpty_iff.mp hd
    · cases hd
  simp only [homePfBrings, Bool.and_eq_true, Bool.not_eq_true', List.isEmpty_iff, beq_iff_eq, decide_eq_true_eq] at hb
  obtain ⟨⟨⟨⟨hbounds, hund⟩, hact⟩, hea⟩, htr⟩ := hb
  split at htr
  next pa t ht =>
    obtain ⟨hmiss, hlease⟩ := Bool.and_eq_true_iff.mp htr
    obtain ⟨c, hc, -⟩ := hline 2 pa t ⟨hbounds, hund⟩ hact hea (by decide) ht (Option.isNone_iff_eq_none.mp hmiss) hlease
    rw [hempty] at hc
    cases hc
  · cases htr

end Sys2Proof.Machine
end

section
/-!
PROOFS. Queue ports: bindings, and results pushed to a write port (O12).
-/

namespace Sys2Proof.Machine

/-! ## Operands that no decoded word names -/

theorem build_operandsOk {φ : Type} {t : List (Nat × (φ → Instr))} {opc : Nat} {f : Option φ} {i : Instr}
    (hb : build t opc f = some (.ok i)) : i.operandsOk = true := by
  obtain ⟨mk, -, hb⟩ := Option.map_eq_some_iff.mp hb
  cases f with
  | none => cases hb
  | some x =>
    dsimp only at hb
    split_ifs at hb with h
    cases hb
    simpa using h

/-- R120: the fields of a decoded instruction are legal. -/
theorem decode_operandsOk {w : IWord} {i : Instr} (hd : decode w = .ok i) : i.operandsOk = true := by
  unfold decode at hd
  extract_lets opc at hd
  cases hb : (build tableR opc (decodeR w) <|> build tableI opc (decodeI w) <|> build tableM opc (decodeM w) <|>
    build tableX opc (decodeX w) <|> build tableB opc (decodeB w)) with
  | none =>
    rw [hb] at hd
    cases hd
    rfl
  | some r =>
    rw [hb] at hd
    obtain rfl : r = .ok i := hd
    simp only [Option.orElse_eq_orElse, Option.orElse_eq_or, Option.or_eq_some_iff] at hb
    obtain hb | ⟨-, hb | ⟨-, hb | ⟨-, hb | ⟨-, hb⟩⟩⟩⟩ := hb <;> exact build_operandsOk hb

/-- R111: a write port is the destination of one 32-bit result only. -/
theorem notPort_of_ok {t : Slot} (h : t.ok = true) (hr : t.role = .predDst ∨ t.role = .dstLane ∨ t.role = .dst ∧ t.n ≠ 1) :
    notPort t.o = true := by
  obtain ⟨o, role, n⟩ := t
  cases o with
  | q k =>
    simp only at hr
    obtain rfl | rfl | ⟨rfl, hn⟩ := hr <;> simp [Slot.ok] at h
    exact absurd h.2 hn
  | _ => rfl

/-- The first operand field of an instruction that decodes is no queue port, where its role says so. -/
theorem notPort_of_decode {w : IWord} {i : Instr} (hd : decode w = .ok i) {t : Slot} (ht : t ∈ i.slots)
    (hr : t.role = .predDst ∨ t.role = .dstLane ∨ t.role = .dst ∧ t.n ≠ 1) : notPort t.o = true := by
  have hok := decode_operandsOk hd
  simp only [Instr.operandsOk, Bool.and_eq_true, List.all_eq_true] at hok
  exact notPort_of_ok (hok.1.2 t ht) hr

/-- R138: a vote goes to a predicate or to lane registers. -/
theorem vote_only : Only .vote fun f => notPort f.a = true := fun w f hd => by
  refine notPort_of_decode hd (List.mem_cons_self ..) ?_
  dsimp only
  split_ifs
  exacts [.inl rfl, .inr (.inl rfl), .inr (.inl rfl)]

/-- R138: the other collectives write lane registers. -/
theorem only_lanes {mk : RForm → Instr} {n : RForm → Nat} (h : ∀ f, ⟨f.a, .dstLane, n f⟩ ∈ (mk f).slots) :
    Only mk fun f => notPort f.a = true := fun _ f hd => notPort_of_decode hd (h f) (.inr (.inl rfl))

/-- R235: the clock is a pair. -/
theorem clk_only : Only .clk fun f => notPort f.a = true := fun _ _ hd =>
  notPort_of_decode hd (List.mem_cons_self ..) (.inr (.inr ⟨rfl, Nat.succ_ne_self 1⟩))

/-! ## Results -/

theorem exec_aluForm {i : Instr} {g : AluForm} (h : aluForm i = some g) (s : State) :
    exec i s = issueAlu i (hdrOf i) g.a g.k g.srcs g.op s := by
  cases i <;> cases h <;> rfl

/-- R122: what a result of several kinds is written by: the shared `Ctx.retire`. -/
theorem exec_resultOf {y : Ctx} {i : Instr} {a : Operand} {k : Nat} {kind : ResKind} {val : Nat → IVal}
    (h : resultOf y i = some (a, k, kind, val)) :
    ∃ body : Ctx → State → Effect, (∀ s, exec i s = issue i (hdrOf i) body s) ∧ ∀ t, body y t = y.retire t a k kind val := by
  cases hg : aluForm i with
  | some g =>
    simp only [resultOf, hg, Option.some.injEq, Prod.mk.injEq] at h
    obtain ⟨rfl, rfl, rfl, rfl⟩ := h
    exact ⟨_, exec_aluForm hg, fun _ => rfl⟩
  | none =>
    simp only [resultOf, hg] at h
    cases i with
    | sel f =>
      cases h
      refine ⟨_, fun _ => rfl, fun t => ?_⟩
      dsimp only
      congr 1
      funext l
      cases y.readPred l f.d <;> rfl
    | qnt f =>
      cases h
      refine ⟨_, fun _ => rfl, fun t => ?_⟩
      by_cases hs : f.subop = 0 <;> simp only [hs, if_true, if_false]
    | dqnt f =>
      cases h
      exact ⟨_, fun _ => rfl, fun t => rfl⟩
    | _ => cases h

/-! ## Pushes -/

theorem convoy_foldl {α : Type} {f : State → α → State} {col cv : Nat} (hf : ∀ t a, (f t a).convoy? col cv = t.convoy? col cv)
    (l : List α) (s : State) : (l.foldl f s).convoy? col cv = s.convoy? col cv :=
  List.foldlRecOn (motive := fun t => t.convoy? col cv = s.convoy? col cv) l f rfl fun t ht a _ => (hf t a).trans ht

/-- A push changes no convoy in the state. -/
theorem push_convoy {s u : State} {x : Ctx} {q : Nat} {vals : Option (Nat → Nat)} {feed : Option Nat} {v : Convoy}
    (h : s.push x q vals feed = .ok (u, v)) (col cv : Nat) : u.convoy? col cv = s.convoy? col cv := by
  simp only [State.push] at h
  split at h
  · cases h; rfl
  · split at h <;> cases h
    next hr => exact (convoy_foldl (fun _ _ => convoy_addOp ..) _ _).trans (resolve_convoy hr col cv)

/-- A push moves its port on, and leaves every lane. -/
theorem push_lanes {s u : State} {x : Ctx} {q : Nat} {vals : Option (Nat → Nat)} {feed : Option Nat} {v : Convoy}
    (h : s.push x q vals feed = .ok (u, v)) : v.lanes = x.v.lanes := by
  simp only [State.push] at h
  split at h
  · cases h; rfl
  · split at h <;> cases h
    rfl

/-- R75: the elements within the count, each a store of its own. -/
theorem push_bound {s u : State} {x : Ctx} {q : Nat} {p : Port} {val : Nat → Nat} {ps : List Piece} (hp : x.v.port? q = some p)
    (hr : s.resolve x .global .write anyLoc ((p.pushes x.act).flatMap p.pushWants) = .ok (ps, u)) :
    s.push x q (some val) none = .ok ((p.pushes x.act).foldl (fun w le => w.addOp x (.push q p.ty none) p.hint [le.1]
        ((ps.filter (·.lane == le.1)).mapIdx fun i y => { y with grp := i }) [(le.1, pushCode p.ty (val le.1))] []) u,
      (x.v.setPort q { p with pos := p.pos + x.act.length }).stored (p.pushes x.act).length ps) := by
  simp only [State.push, hp, hr]

/-! ## Bindings -/

/-- R169: what LDQ and STQ bind. -/
def Ctx.binding (x : Ctx) (f : MForm) : Port :=
  { base := BitVec.ofNat 64 (x.uni f.b 2), count := BitVec.ofNat 32 (x.uni f.c), stride := f.off, ty := f.ty, hint := f.h.hint, pos := 0,
    buf := [] }

theorem bind_eq {x : Ctx} {t : State} {f : MForm} {n : BitVec 2} (ha : f.a = .q n) (hact : x.act ≠ []) :
    x.bind t f = .next (t.put x (x.v.setPort n.toNat (x.binding f))) := by
  simp only [Ctx.bind, ha, List.isEmpty_eq_false_iff.mpr hact]
  rfl

/-- An effect that puts the convoy back, with its lanes as they were, leaves nothing else changed. -/
theorem leaves_put {i : Instr} {s : State} {x y : Ctx} {w : Convoy} (hi : Issues i s x y) {body : Ctx → State → Effect}
    (he : exec i s = issue i (hdrOf i) body s) (hb : body y (s.begun y) = .next ((s.begun y).put y w)) (hl : w.lanes = y.v.lanes) :
    Leaves i s x w :=
  leaves_next hi he (.inl hb) (wrote_put (begun_wrote hi) (issues_cur hi) w) fun l => by simp [Convoy.lane, hl]

/-- Settles O12: bindings by `Ctx.bind`, results by the shared `Ctx.retire`, whose pushes are those of `State.push`. -/
theorem ports : Obligations.Ports := by
  unfold Obligations.Ports
  refine ⟨fun f s x y n ha hact => ⟨fun hi => ?_, fun hi hp => ?_, fun hi hp => ?_⟩, ⟨?_, ?_, ?_, ?_⟩⟩
  · exact leaves_put hi rfl (bind_eq ha hact) rfl
  · refine leaves_put hi rfl ?_ rfl
    simp only [hp, Bool.and_false, Bool.false_eq_true, if_false]
    exact bind_eq ha hact
  · refine stalls_begun hi rfl ?_
    simp [hp, hact]
  · simp only [List.forall_mem_cons, List.not_mem_nil, false_imp_iff, implies_true, and_true]
    exact ⟨vote_only, only_lanes fun _ => List.mem_cons_self .., only_lanes fun _ => List.mem_cons_self ..,
      only_lanes fun _ => List.mem_cons_self .., only_lanes fun _ => List.mem_cons_self .., only_lanes fun _ => List.mem_cons_self ..,
      only_lanes fun _ => List.mem_cons_self .., clk_only⟩
  · exact fun w f hd => notPort_of_decode hd (List.mem_cons_self ..) (.inr (.inl rfl))
  · intro i s x y n k kind val hi hres
    obtain ⟨body, he, hbody⟩ := exec_resultOf hres
    cases hpush : (s.begun y).push y n.toNat (some fun l => (val l).lo) none with
    | error b => exact faults_of hi (he s) (by rw [hbody, Ctx.retire, hpush])
    | ok r =>
      obtain ⟨u, v⟩ := r
      have hu : u.convoy? y.cur.col y.cur.cv = some y.v := by
        rw [push_convoy hpush, issues_cur hi]
        exact begun_convoy hi
      exact goes_put hi (he s) (by rw [hbody, Ctx.retire, hpush]) hu (push_lanes hpush)
  · intro s y n p val ps u hp lanes v hr
    exact push_bound hp hr

end Sys2Proof.Machine
end

section
/-!
PROOFS. Convoys up to their waits: what a write to scratchpad, the undo log and the counters of use leave of every convoy.
-/

namespace Sys2Proof.Machine

/-- A convoy without its wait record. -/
def Convoy.unwaited (v : Convoy) : Convoy := { v with wait := none }

/-- Every convoy is in `t` as in `s`, but for wait records. -/
def State.ConvoysKept (s t : State) : Prop := ∀ col cv, (t.convoy? col cv).map Convoy.unwaited = (s.convoy? col cv).map Convoy.unwaited

namespace State.ConvoysKept
variable {s t u : State}

theorem refl (s : State) : s.ConvoysKept s := fun _ _ => rfl

theorem trans (h : s.ConvoysKept t) (h' : t.ConvoysKept u) : s.ConvoysKept u := fun col cv => (h' col cv).trans (h col cv)

/-- A change of anything but the columns. -/
theorem of_cols (h : t.cols = s.cols) : s.ConvoysKept t := fun col cv => by rw [convoy_cols h]

/-- A change of a column's own fields. -/
theorem onColumn (s : State) (id : Nat) (f : Column → Column) (hid : ∀ c, (f c).id = c.id) (hcvs : ∀ c, (f c).cvs = c.cvs) :
    s.ConvoysKept (s.onColumn id f) := by
  intro col cv
  by_cases h : col = id
  · subst h
    rw [convoy_onColumn s col cv f hid hcvs]
  · rw [State.convoy?, column_onColumn_other s f hid h]
    rfl

theorem foldl {α : Type} {f : State → α → State} (hf : ∀ t a, State.ConvoysKept t (f t a)) (l : List α) (s : State) :
    s.ConvoysKept (l.foldl f s) :=
  List.foldlRecOn (motive := fun t => s.ConvoysKept t) l f (refl s) fun t ht a _ => ht.trans (hf t a)

/-- R187, R188: a noticed write changes wait records alone. -/
theorem notice (s : State) : s.ConvoysKept s.notice := by
  intro col cv
  cases hc : s.column? col with
  | none =>
    obtain ⟨g, hg, hf⟩ := notice_cols s
    have hid (c : Column) : (g c).id = c.id := by
      obtain ⟨f, -, hf⟩ := hf c
      rw [hf]
    have hn : s.notice.column? col = none := by
      rw [State.column?, hg, find?_map_id hid, show s.cols.find? (·.id == col) = none from hc, Option.map_none]
    rw [State.convoy?, State.convoy?, hn, hc]
  | some c =>
    obtain ⟨f, hf, hn⟩ := column_notice hc
    rw [State.convoy?, State.convoy?, hn, hc]
    simp only [Option.bind_some, List.getElem?_map, Option.map_map]
    congr 1
    exact funext hf

theorem logUndo (s : State) (col quad key n : Nat) : s.ConvoysKept (s.logUndo col quad key n) :=
  onColumn s col _ (fun c => by split <;> rfl) fun c => by split <;> rfl

theorem logSpad (s : State) (col quad pa n : Nat) : s.ConvoysKept (s.logSpad col quad pa n) := foldl (fun t _ => logUndo t _ _ _ _) _ s

theorem forbidRollback (s : State) (col : Nat) : s.ConvoysKept (s.forbidRollback col) := onColumn s col _ (fun _ => rfl) fun _ => rfl

theorem meterCol (s : State) (col k n : Nat) : s.ConvoysKept (s.meterCol col k n) := by
  unfold State.meterCol
  split
  exacts [of_cols rfl, refl s]

theorem poke (s : State) (own : Option Nat) (loc : Loc) (a : Nat) (bs : List Byte) : s.ConvoysKept (s.poke own loc a bs).1 :=
  of_cols (poke_cols s own loc a bs)

/-- The convoy itself. -/
theorem convoy (h : s.ConvoysKept t) {col cv : Nat} {v : Convoy} (hv : s.convoy? col cv = some v) :
    ∃ w, t.convoy? col cv = some w ∧ w.unwaited = v.unwaited := by
  have hw := h col cv
  rw [hv] at hw
  exact Option.map_eq_some_iff.mp hw

end State.ConvoysKept

/-- Equal but for the wait record. -/
theorem Convoy.eq_of_unwaited {v w : Convoy} (h : w.unwaited = v.unwaited) : w = { v with wait := w.wait } :=
  congrArg (fun u : Convoy => { u with wait := w.wait }) h

theorem poisoned_clean {t : State} (h : t.coh.poison = []) (p : Piece) : t.poisoned p = false := by simp [State.poisoned, h]

end Sys2Proof.Machine
end

section
/-!
PROOFS. Copies at issue (O19).
-/

namespace Sys2Proof.Machine

/-! ## What a translation looks at

No column: a translation of one byte gives the same place whatever the columns are. -/

section
variable (s : State) (C : List Column)

theorem readEcc_withCols (part : Nat) (w : EccWord) :
    ({ s with cols := C } : State).readEcc part w = { s.readEcc part w with cols := C } := by
  unfold State.readEcc
  dsimp only
  split
  · rfl
  · split <;> rfl

theorem checkSector_withCols (part line : Nat) :
    ({ s with cols := C } : State).checkSector part line = { s.checkSector part line with cols := C } := by
  unfold State.checkSector
  dsimp only
  generalize (if s.coh.flips.isEmpty || s.fw.svc == .reduced then none else gddrPlace line) = place
  cases place with
  | none => rfl
  | some p =>
    dsimp only
    generalize checkGroup _ p.2 = answer
    cases answer <;> rfl

theorem foldl_withCols {α : Type} {f : State → α → State} (hf : ∀ (t : State) a, f { t with cols := C } a = { f t a with cols := C })
    (l : List α) : l.foldl f { s with cols := C } = { l.foldl f s with cols := C } := by
  induction l generalizing s with
  | nil => rfl
  | cons a l ih => rw [List.foldl_cons, hf, ih]; rfl

theorem checkBytes_withCols (part a n : Nat) :
    ({ s with cols := C } : State).checkBytes part .dev a n = { s.checkBytes part .dev a n with cols := C } := by
  unfold State.checkBytes State.readEccs
  dsimp only
  rw [foldl_withCols s C (fun t l => checkSector_withCols t C part l)]
  exact foldl_withCols _ C (fun t w => readEcc_withCols t C part w) _

theorem walkPath_withCols (va table n : Nat) : ({ s with cols := C } : State).walkPath va table n = s.walkPath va table n := by
  induction n generalizing table with
  | zero => rfl
  | succ n ih =>
    simp only [State.walkPath, ih]
    rfl

theorem checkWalk_withCols (part va root : Nat) :
    ({ s with cols := C } : State).checkWalk part va root = { s.checkWalk part va root with cols := C } := by
  unfold State.checkWalk
  rw [walkPath_withCols]
  exact foldl_withCols s C (fun t a => checkBytes_withCols t C part a 8) _

theorem walk_withCols (va table n : Nat) : ({ s with cols := C } : State).walk va table n = s.walk va table n := by
  induction n generalizing table with
  | zero => rfl
  | succ n ih =>
    simp only [State.walk, ih]
    rfl

theorem leafFor_withCols (b : Via) (part ctx : Nat) (epoch : Option Nat) (va : Nat) :
    (({ s with cols := C } : State).leafFor b part ctx epoch va).map Prod.fst = (s.leafFor b part ctx epoch va).map Prod.fst := by
  unfold State.leafFor
  have hold : ({ s with cols := C } : State).oldWeights part ctx epoch va = s.oldWeights part ctx epoch va := rfl
  have hhit : ({ s with cols := C } : State).tlbHit b part ctx va = s.tlbHit b part ctx va := rfl
  have hctx : ({ s with cols := C } : State).ctx? part ctx = s.ctx? part ctx := rfl
  simp only [hold, hhit, hctx, checkWalk_withCols, walk_withCols]
  split
  · rfl
  · rfl
  · split
    · rfl
    · split
      · rfl
      · split <;> rfl

theorem translate_withCols (b : Via) (part ctx : Nat) (epoch : Option Nat) (va : Nat) (perm : Perm) :
    (({ s with cols := C } : State).translate b part ctx epoch va perm).map Prod.fst =
      (s.translate b part ctx epoch va perm).map Prod.fst := by
  have hl := leafFor_withCols s C b part ctx epoch va
  have hdev (pa : Nat) : ({ s with cols := C } : State).refusesDev pa = s.refusesDev pa := rfl
  have hlink (n : Nat) : ({ s with cols := C } : State).linkUp n = s.linkUp n := rfl
  unfold State.translate
  split
  · rfl
  · cases h1 : ({ s with cols := C } : State).leafFor b part ctx epoch va with
    | error c =>
      cases h2 : s.leafFor b part ctx epoch va with
      | error c' =>
        rw [h1, h2] at hl
        obtain rfl : c = c' := Except.error.inj hl
        rfl
      | ok q =>
        rw [h1, h2] at hl
        cases hl
    | ok p =>
      cases h2 : s.leafFor b part ctx epoch va with
      | error c' =>
        rw [h1, h2] at hl
        cases hl
      | ok q =>
        rw [h1, h2] at hl
        obtain ⟨l, t⟩ := p
        obtain ⟨l', t'⟩ := q
        obtain rfl : l = l' := Except.ok.inj hl
        simp only [hdev, hlink]
        split_ifs <;> rfl

theorem sideByte_withCols (d : Side) (perm : Perm) (a : Nat) : ({ s with cols := C } : State).sideByte d perm a = s.sideByte d perm a := by
  unfold State.sideByte
  split
  · rfl
  · exact translate_withCols ..

theorem sideLines_withCols (d : Side) (perm : Perm) (rows : List (Int × Nat)) :
    ({ s with cols := C } : State).sideLines d perm rows = s.sideLines d perm rows := by
  unfold State.sideLines
  simp only [sideByte_withCols]

end

theorem sideLines_forbidRollback (s : State) (col : Nat) (d : Side) (perm : Perm) (rows : List (Int × Nat)) :
    (s.forbidRollback col).sideLines d perm rows = s.sideLines d perm rows :=
  sideLines_withCols s _ d perm rows

/-! ## The end of a copy -/

theorem completionWord_convoysKept (s : State) (j : CopyJob) (value : Word) : s.ConvoysKept (s.completionWord j value) := by
  unfold State.completionWord
  split
  · exact (State.ConvoysKept.of_cols rfl).trans (State.ConvoysKept.notice _)
  · exact .refl s

/-- R93, R176: of the issuing convoy a copy that is over changes the copies counter, and at most the wait record. -/
theorem finishCopy_convoy {s : State} {j : CopyJob} {core col cv : Nat} {v : Convoy} (hj : j.src = .cv core col cv)
    (hv : s.convoy? col cv = some v) : ∃ w, (s.finishCopy j).convoy? col cv = some w ∧ w.lanes = v.lanes := by
  have hkept : s.ConvoysKept ((s.completionWord j j.cwval).meterCol col 2 j.packet.total) :=
    (completionWord_convoysKept s j _).trans (.meterCol _ col 2 _)
  obtain ⟨w, hw, hwv⟩ := hkept.convoy hv
  refine ⟨{ w with copies := w.copies - 1 }, ?_, show w.unwaited.lanes = v.unwaited.lanes from congrArg _ hwv⟩
  unfold State.finishCopy State.copyDone
  simp only [hj]
  rw [convoy_onConvoy]
  refine Option.map_eq_some_iff.mpr ⟨w, ?_, rfl⟩
  split <;> exact hw

/-! ## Issue -/

/-- R175: a packet that may be copied, as the job of the group's convoy, in the state that its probing leaves. -/
def Ctx.copyJob (y : Ctx) (w : State) (p : Packet) : CopyJob :=
  let src := w.sideLines (y.side (p.flag 0)) .read p.srcRows
  let dst := w.sideLines (y.side (p.flag 1)) .write p.dstRows
  p.job w.nextId (.cv y.core y.cur.col y.cur.cv) y.c.part y.c.prog y.r.ctx (some y.c.epoch) y.v.quad y.c.colid y.r.num
    (if p.hint = 3 then 2 * y.r.lease else y.r.lease) w.now y.c.banks dst src (p.shards src dst) (src.any (·.isPeer))

/-- R93: the copy counted. -/
def Ctx.copyCounted (y : Ctx) (w : State) : State := (w.forbidRollback y.cur.col).put y { y.v with copies := y.v.copies + 1 }

theorem copyWord_ok {p : Packet} {banks : List Nat} (h : p.flag 2 = true → p.cwoff % 4 = 0 ∧ p.cwoff + 4 ≤ spadSize banks) :
    (if !p.flag 2 then none else if p.cwoff % 4 ≠ 0 then some p.cwoff else probeSpad banks p.cwoff 4) = none := by
  cases hf : p.flag 2 with
  | false => rfl
  | true =>
    obtain ⟨ha, hb⟩ := h hf
    simp only [Bool.not_true, Bool.false_eq_true, if_false, ha, ne_eq, not_true_eq_false, probeSpad]
    rw [if_neg (by decide), if_neg (by omega), if_neg (by omega)]

/-- R175: what a convoy does with a packet once both its sides have been probed. -/
theorem startCopy_probed {y : Ctx} {t u w : State} {p : Packet} (hp : p.bad = false)
    (hu : t.probeRows (y.side (p.flag 0)) .read p.srcRows = .ok u) (hw : u.probeRows (y.side (p.flag 1)) .write p.dstRows = .ok w)
    (hcw : p.flag 2 = true → p.cwoff % 4 = 0 ∧ p.cwoff + 4 ≤ spadSize y.c.banks) :
    y.startCopy t p =
      if p.empty then .next ((y.copyCounted w).finishCopy (y.copyJob w p))
      else if (y.copyCounted w).copyPlaces y.core ≥ 64 then .stall t
      else .next { y.copyCounted w with nextId := w.nextId + 1, eng := { w.eng with jobs := w.eng.jobs ++ [y.copyJob w p] } } := by
  unfold Ctx.startCopy
  simp only [hp, Bool.false_eq_true, if_false, hu, hw, copyWord_ok hcw, sideLines_forbidRollback]
  rfl

/-- R175: a packet handed to the copy engine, by any of the four instructions. -/
theorem startCopy_hands {i : Instr} {s : State} {x y : Ctx} (hi : Issues i s x y) {body : Ctx → State → Effect}
    (he : exec i s = issue i (hdrOf i) body s) {p : Packet} (hb : body y (s.begun y) = y.startCopy (s.begun y) p) :
    (p.bad = true → Faults i s x (s.begun y) y.group cOperand (BitVec.ofNat 64 y.pc.toNat) 0) ∧
    (p.bad = false → (s.begun y).reachesRows (y.side (p.flag 0)) .read p.srcRows →
      (∀ u, (s.begun y).probeRows (y.side (p.flag 0)) .read p.srcRows = .ok u → u.reachesRows (y.side (p.flag 1)) .write p.dstRows) →
      (p.flag 2 = true → p.cwoff % 4 = 0 ∧ p.cwoff + 4 ≤ spadSize y.c.banks) →
      ∃ u w, (s.begun y).probeRows (y.side (p.flag 0)) .read p.srcRows = .ok u ∧
        u.probeRows (y.side (p.flag 1)) .write p.dstRows = .ok w ∧ w.now = s.now ∧ w.nextId = s.nextId ∧ w.eng = s.eng ∧
        (p.empty = true → Goes i s x ((y.copyCounted w).finishCopy (y.copyJob w p))) ∧
        (p.empty = false → s.copyPlaces y.core ≥ 64 → StallsAt i s x (s.begun y)) ∧
        (p.empty = false → s.copyPlaces y.core < 64 → Goes i s x
          { y.copyCounted w with nextId := w.nextId + 1, eng := { w.eng with jobs := w.eng.jobs ++ [y.copyJob w p] } })) := by
  refine ⟨fun hbad => faults_of hi he (hb.trans (if_pos hbad)), fun hp ⟨u, hu⟩ hdst hcw => ?_⟩
  obtain ⟨w, hw⟩ := hdst u hu
  have hreads : (s.begun y).ReadsTo w := (probeRows_reads hu).trans (probeRows_reads hw)
  have heng : w.eng = s.eng := by rw [hreads]; rfl
  have hcv : (y.copyCounted w).convoy? x.cur.col x.cur.cv = some { y.v with copies := y.v.copies + 1 } := by
    rw [← issues_cur hi]
    refine convoy_put (v := y.v) ?_ _
    rw [convoy_forbid, hreads.convoy, issues_cur hi]
    exact begun_convoy hi
  have hplaces : (y.copyCounted w).copyPlaces y.core = s.copyPlaces y.core := by
    rw [State.copyPlaces, show (y.copyCounted w).eng = s.eng from heng, State.copyPlaces]
  rw [startCopy_probed hp hu hw hcw, hplaces] at hb
  refine ⟨u, w, hu, hw, by rw [hreads]; rfl, by rw [hreads]; rfl, heng, fun hem => ?_, fun hem hfull => ?_, fun hem hroom => ?_⟩
  · rw [if_pos hem] at hb
    obtain ⟨v, hv, hl⟩ := finishCopy_convoy (j := y.copyJob w p) rfl (issues_cur hi ▸ hcv)
    exact goes_next hi he (.inl hb) (issues_cur hi ▸ hv) fun l => by simp [Convoy.lane, hl]
  · rw [if_neg (by simp [hem]), if_pos hfull] at hb
    exact stalls_begun hi he hb
  · rw [if_neg (by simp [hem]), if_neg (by omega)] at hb
    exact goes_next hi he (.inl hb) hcv fun l => rfl

/-- R90: after the wait for its earlier accesses a copy goes on as its packet says. -/
theorem issueCopy_drained {y : Ctx} {t : State} (p : Packet) (h : t.drained y.cur.col y.cur.cv = true) : y.issueCopy t p = y.startCopy t p := by
  simp [Ctx.issueCopy, h]

theorem issueCopy_undrained {y : Ctx} {t : State} (p : Packet) (h : t.drained y.cur.col y.cur.cv = false) : y.issueCopy t p = .stall t := by
  simp [Ctx.issueCopy, h]

/-- Settles O19: each of the four instructions goes on as `Ctx.startCopy` with its packet. -/
theorem copies : Obligations.Copies := by
  unfold Obligations.Copies
  intro f s x y r built t d go
  have hgo {i : Instr} {body : Ctx → State → Effect} (he : exec i s = issue i (hdrOf i) body s) {p : Packet}
      (hb : t.drained y.cur.col y.cur.cv = true → body y t = y.startCopy t p) : go i p := fun hi hd => by
    obtain ⟨hbad, hgood⟩ := startCopy_hands hi he (hb hd)
    refine ⟨hbad, fun hp hsrc hdst hcw => ?_⟩
    obtain ⟨u, w, hu, hw, hnow, hid, heng, hend⟩ := hgood hp hsrc hdst hcw
    refine ⟨u, w, hu, hw, ?_⟩
    rw [← hnow, ← hid, ← heng]
    exact hend
  have hbuilt (op rows fmt ss ds : Nat) : y.packet f op rows fmt (BitVec.ofNat 32 ss) (BitVec.ofNat 32 ds) = built op rows fmt ss ds := by
    simp only [Ctx.packet, built]
    cases f.h.hint <;> rfl
  refine ⟨hgo rfl fun hd => ?_, hgo rfl fun hd => ?_, hgo rfl fun hd => ?_, fun ha hin hclean => hgo rfl fun hd => ?_, fun hi hd ha => ?_,
    fun i hmem hi hd => ?_⟩
  · rw [← hbuilt]
    exact issueCopy_drained _ hd
  · rw [← hbuilt]
    exact issueCopy_drained _ hd
  · rw [← hbuilt]
    exact issueCopy_drained _ hd
  · have hprobe : probeSpad y.c.banks (y.uni f.b) 64 = none := by
      rw [probeSpad, if_neg (by decide), if_neg (by omega), if_neg (by omega)]
    simp [hd, ha, hprobe, poisoned_clean (t := t) hclean]
    rfl
  · refine faults_of hi rfl ?_
    simp [t, hd, ha, Ctx.fail]
  · simp only [List.mem_cons, List.not_mem_nil, or_false] at hmem
    obtain rfl | rfl | rfl | rfl := hmem
    · exact stalls_begun hi rfl (issueCopy_undrained _ hd)
    · exact stalls_begun hi rfl (issueCopy_undrained _ hd)
    · exact stalls_begun hi rfl (issueCopy_undrained _ hd)
    · refine stalls_begun hi rfl ?_
      simp [t, hd]

end Sys2Proof.Machine
end

section
/-!
PROOFS. Barriers, address waits and signing at issue (O22).
-/

namespace Sys2Proof.Machine

/-! ## The issuing convoy, its live lanes as they were -/

/-- In `t` the issuing convoy stands, live in the lanes in which `y` found it live. -/
def State.LivesAt (t : State) (y : Ctx) : Prop :=
  ∃ w, t.convoy? y.cur.col y.cur.cv = some w ∧ ∀ l, (w.lane l).live = (y.v.lane l).live

namespace State.LivesAt
variable {t u : State} {y : Ctx}

theorem begun {i : Instr} {s : State} {x : Ctx} (hi : Issues i s x y) : (s.begun y).LivesAt y :=
  ⟨y.v, by rw [issues_cur hi]; exact begun_convoy hi, fun _ => rfl⟩

theorem kept (h : t.LivesAt y) (hk : t.ConvoysKept u) : u.LivesAt y := by
  obtain ⟨v, hv, hl⟩ := h
  obtain ⟨w, hw, hwv⟩ := hk.convoy hv
  have hlanes : w.lanes = v.lanes := show w.unwaited.lanes = v.unwaited.lanes from congrArg _ hwv
  exact ⟨w, hw, fun l => by rw [← hl, Convoy.lane, Convoy.lane, hlanes]⟩

theorem onConvoy (h : t.LivesAt y) {f : Convoy → Convoy} (hf : ∀ v l, ((f v).lane l).live = (v.lane l).live) :
    (t.onConvoy y.cur.col y.cur.cv f).LivesAt y := by
  obtain ⟨v, hv, hl⟩ := h
  exact ⟨f v, by rw [convoy_onConvoy, hv, Option.map_some], fun l => (hf v l).trans (hl l)⟩

variable {i : Instr} {s : State} {x : Ctx} {body : Ctx → State → Effect}

theorem goes (h : u.LivesAt y) (hi : Issues i s x y) (he : exec i s = issue i (hdrOf i) body s)
    (hb : body y (s.begun y) = .next u ∨ body y (s.begun y) = .last u) : Goes i s x u := by
  obtain ⟨w, hw, hl⟩ := h
  exact goes_next hi he hb (issues_cur hi ▸ hw) hl

theorem waits (h : u.LivesAt y) (hi : Issues i s x y) (he : exec i s = issue i (hdrOf i) body s) {kind : WaitKind} {dl : Option Nat}
    (hb : body y (s.begun y) = .wait u kind dl) : WaitsAt i s x u kind dl := by
  obtain ⟨w, hw, -⟩ := h
  exact waits_at hi he hb (issues_cur hi ▸ hw)

end State.LivesAt

/-! ## Objects -/

theorem State.ConvoysKept.setBarrier (s : State) (x : Ctx) (off : Nat) (b : Barrier) : s.ConvoysKept (s.setBarrier x off b) := by
  unfold State.setBarrier
  extract_lets t
  have ht : s.ConvoysKept t := by
    unfold t
    split
    exacts [.logSpad s _ _ _ _, .refl s]
  exact (ht.trans (.of_cols rfl)).trans (.notice _)

theorem State.LivesAt.arriveAt {t : State} {y : Ctx} (h : t.LivesAt y) (off : Nat) (b : Barrier) : (t.arriveAt y off b).LivesAt y :=
  (h.kept (.setBarrier t y off b)).onConvoy fun _ _ => rfl

theorem State.ConvoysKept.checkpointAt (s : State) (x : Ctx) (off : Nat) (dst : Option (BitVec 3)) :
    s.ConvoysKept (s.checkpointAt x off dst) := by
  unfold State.checkpointAt
  split
  · exact .refl s
  · dsimp only
    split
    · exact .refl s
    · exact .onColumn s _ _ (fun _ => rfl) fun _ => rfl

theorem State.ConvoysKept.complete (s : State) (col n : Nat) : s.ConvoysKept (s.complete col n) := by
  have hclear : s.ConvoysKept (s.onColumn col fun c => c.clearCvreg n) := .onColumn s col _ (fun _ => rfl) fun _ => rfl
  unfold State.complete
  split
  · exact .refl s
  · dsimp only
    split_ifs
    · exact .refl s
    · split
      · split_ifs
        · exact .refl s
        · exact (hclear.trans (t := s.onColumn col _) ((State.ConvoysKept.meterCol _ col 1 _).trans (.of_cols rfl))).trans (.forbidRollback _ col)
      · exact hclear

/-- The piece of scratchpad that an object or a word of `n` bytes is. -/
def objectPiece (off at_ n : Nat) : Piece := { grp := 0, lane := 0, loc := .spad, addr := at_, n, off := 0, va := off }

/-- R67, R85, R90, R186: an object or a word that lies aligned in the scratchpad, that nothing of the convoy still has to read or
write, that no copy owns and that is not poisoned, is acted on. -/
theorem onObject_free {y : Ctx} {t : State} {f : MForm} {n access at_ off : Nat} {go : Nat → Effect} (hoff : (y.ea f 0).toNat = off)
    (hact : y.act ≠ []) (ha : off % n = 0) (hin : off + n ≤ spadSize y.c.banks) (hb : spadByte y.c.banks off = some at_)
    (he : t.earlierPending y.cur.col y.cur.cv t.nextId (objectPiece off at_ n) = false)
    (ht : t.tileTransfers y.cur.col y.cur.cv t.nextId (objectPiece off at_ n) true = false)
    (ho : t.owned (objectPiece off at_ n) = false) (hp : t.poisoned (objectPiece off at_ n) = false) :
    y.onObject t f n access go = go off := by
  have hr : t.resolve1 y .scratch .read anyLoc ⟨0, off, n, 0⟩ = .ok (objectPiece off at_ n, t) := by
    simp [State.resolve1, Nat.not_lt.mpr hin, hb, objectPiece]
  simp [Ctx.onObject, Ctx.uniEa, hoff, hact, ha, hr, he, ht, ho, hp]

/-- An object on which `c` lanes of a convoy have arrived. -/
def Barrier.counted (o : Barrier) (cv c : Nat) : Barrier := { o with pend := o.pend - c, lastcv := cv, lastn := c }

theorem logSpad_now (s : State) (col quad pa n : Nat) : (s.logSpad col quad pa n).now = s.now :=
  List.foldlRecOn (motive := fun t : State => t.now = s.now) _ _ rfl fun _ ht _ _ => ht

theorem setBarrier_now (s : State) (x : Ctx) (off : Nat) (b : Barrier) : (s.setBarrier x off b).now = s.now := by
  unfold State.setBarrier
  split
  · exact logSpad_now ..
  · rfl

theorem arriveAt_now (s : State) (x : Ctx) (off : Nat) (b : Barrier) : (s.arriveAt x off b).now = s.now := setBarrier_now s x off b

/-- Arrive(c) that is refused, and leaves the object as it was (R187). -/
theorem arrive_refused {y : Ctx} {t : State} {off c : Nat}
    (h : c = 0 ∨ 1024 < c ∨ (t.barrier y off).armed = false ∨ (t.barrier y off).res ≠ 0) : y.arrive t off c = .overrun t := by
  unfold Ctx.arrive
  exact if_pos (by simpa using h)

section
variable {y : Ctx} {t : State} {off c : Nat} (hc : 0 < c) (hc' : c ≤ 1024) (ha : (t.barrier y off).armed = true)
  (hr : (t.barrier y off).res = 0)
include hc hc' ha hr

theorem arrive_accepted : ¬(c = 0 ∨ c > 1024 ∨ (!(t.barrier y off).armed) = true ∨ (t.barrier y off).res ≠ 0) := by
  simp [ha, hr]
  omega

/-- Arrive(c) beyond the arrivals that are pending marks the overrun (R187). -/
theorem arrive_overrun (h : (t.barrier y off).pend < c) :
    y.arrive t off c = .overrun (t.arriveAt y off { t.barrier y off with ovr := true }) := by
  unfold Ctx.arrive
  exact (if_neg (arrive_accepted hc hc' ha hr)).trans (if_pos h)

/-- Arrive(c) that is counted: it completes the phase where no arrival is pending after it (R187). -/
theorem arrive_counted (h : c ≤ (t.barrier y off).pend) :
    y.arrive t off c = .counted (t.arriveAt y off (if (t.barrier y off).pend = c
      then { (t.barrier y off).counted y.cur.cv c with
        phase := ((t.barrier y off).phase + 1) % 16, pend := (t.barrier y off).exp, tchg := t.now % 2 ^ 32, waiters := 0 }
      else (t.barrier y off).counted y.cur.cv c)) ((t.barrier y off).pend == c) := by
  unfold Ctx.arrive
  refine (if_neg (arrive_accepted hc hc' ha hr)).trans ((if_neg (by omega)).trans ?_)
  by_cases hp : (t.barrier y off).pend = c
  · rw [if_pos hp, beq_iff_eq.mpr hp]
    exact if_pos (Nat.sub_eq_zero_of_le hp.le)
  · rw [if_neg hp, beq_eq_false_iff_ne.mpr hp]
    refine if_neg ?_
    show ¬(t.barrier y off).pend - c = 0
    omega
end

/-- R188: the comparison of WAITA. -/
theorem waitaHolds_iff (cmp w v : Nat) : waitaHolds cmp w v = true ↔ match cmp with
    | 0 => w = v
    | 1 => w ≠ v
    | 2 => v ≤ w
    | _ => w < v := by
  unfold waitaHolds
  split <;> simp

/-- A wait that is over at once (R27, R89). -/
theorem returns_now {i : Instr} {s u : State} {x y : Ctx} (hi : Issues i s x y) {body : Ctx → State → Effect}
    (he : exec i s = issue i (hdrOf i) body s) {dst : Option (BitVec 3)} (hb : body y (s.begun y) = y.returnNow u dst) (hu : u.LivesAt y) :
    Goes i s x (u.onConvoy y.cur.col y.cur.cv fun v => (v.setPreds y.act dst true).discard) :=
  (hu.onConvoy (f := fun v => (v.setPreds y.act dst true).discard) fun v l => setPreds_live v y.act dst true l).goes hi he (.inr hb)

/-- A wait on the phase that stands (R187). -/
theorem waits_phase {i : Instr} {s u : State} {x y : Ctx} (hi : Issues i s x y) {body : Ctx → State → Effect}
    (he : exec i s = issue i (hdrOf i) body s) {off ph w : Nat} {dst : Option (BitVec 3)}
    (hb : body y (s.begun y) = y.waitPhase u off ph dst w) (hu : u.LivesAt y) :
    WaitsAt i s x (u.setBarrier y off { u.barrier y off with waiters := min ((u.barrier y off).waiters + 1) 0xFFFF }) (.barrier off ph dst)
      (y.bound u w) :=
  (hu.kept (.setBarrier u y off _)).waits hi he hb

/-! ## Arrivals at issue (R187) -/

section
variable {f : MForm} {s u : State} {x y : Ctx} {off : Nat} (hgo : ∀ go, y.onObject (s.begun y) f 16 4 go = go off)
include hgo

/-- R85: an arrival waits for the convoy's earlier operations. -/
theorem bara_stalls (hi : Issues (.bara f) s x y) (hf : (s.begun y).fenceDev y = false) : StallsAt (.bara f) s x (s.begun y) :=
  stalls_begun hi rfl ((hgo _).trans (if_pos (by simp [hf])))

theorem baraw_stalls (hi : Issues (.baraw f) s x y) (hf : (s.begun y).fenceDev y = false) : StallsAt (.baraw f) s x (s.begun y) :=
  stalls_begun hi rfl ((hgo _).trans (if_pos (by simp [hf])))

variable (hf : (s.begun y).fenceDev y = true)
include hf

theorem bara_overrun (hi : Issues (.bara f) s x y)
    (ha : y.arrive (s.begun y) off (if f.a = .none then y.act.length else y.uni f.a) = .overrun u) :
    Faults (.bara f) s x u y.group cBarrier (BitVec.ofNat 64 off) 0 :=
  faults_of hi rfl ((hgo _).trans (by simp [hf, ha]))

theorem bara_counted (hi : Issues (.bara f) s x y) {b : Bool}
    (ha : y.arrive (s.begun y) off (if f.a = .none then y.act.length else y.uni f.a) = .counted u b) (hu : u.LivesAt y) :
    Goes (.bara f) s x u :=
  hu.goes hi rfl (.inl ((hgo _).trans (by simp [hf, ha])))

theorem baraw_overrun (hi : Issues (.baraw f) s x y) (ha : y.arrive (s.begun y) off y.act.length = .overrun u) :
    Faults (.baraw f) s x u y.group cBarrier (BitVec.ofNat 64 off) 0 :=
  faults_of hi rfl ((hgo _).trans (by simp [hf, ha]))

theorem baraw_turned (hi : Issues (.baraw f) s x y) (ha : y.arrive (s.begun y) off y.act.length = .counted u true) (hu : u.LivesAt y) :
    Goes (.baraw f) s x ((u.checkpointAt y off (predDst f.a)).onConvoy y.cur.col y.cur.cv fun v =>
      (v.setPreds y.act (predDst f.a) true).discard) :=
  returns_now hi rfl ((hgo _).trans (by simp [hf, ha])) (hu.kept (.checkpointAt u y off _))

theorem baraw_waits (hi : Issues (.baraw f) s x y) (ha : y.arrive (s.begun y) off y.act.length = .counted u false) (hu : u.LivesAt y)
    (hnow : u.now = s.now) : WaitsAt (.baraw f) s x
      (u.setBarrier y off { u.barrier y off with waiters := min ((u.barrier y off).waiters + 1) 0xFFFF })
      (.barrier off ((s.begun y).barrier y off).phase (predDst f.a)) (y.bound (s.begun y) f.wreg) := by
  have hbound : y.bound (s.begun y) f.wreg = y.bound u f.wreg := by 
    rw [Ctx.bound, Ctx.bound, hnow, State.now, State.begun_wall, State.now]
  rw [hbound]
  exact waits_phase hi rfl ((hgo _).trans (by simp [hf, ha])) hu
end

/-! ## Signing -/

/-- R198: a convoy that has signed the round already. -/
theorem sign_again {y : Ctx} {t : State} {n : Nat} {c : Column} (hc : t.column? y.cur.col = some c) (h : y.cur.cv ∈ (c.cvreg n).signers) :
    t.sign y n none = .again := by
  simp [State.sign, hc, h]

/-- R198: a convoy that joins the signers with no work of its own. -/
theorem sign_joins {y : Ctx} {t : State} {n : Nat} {c : Column} (hc : t.column? y.cur.col = some c) (h : y.cur.cv ∉ (c.cvreg n).signers) :
    t.sign y n none = .signed ((t.onColumn y.cur.col fun d => d.setCvreg n
      { c.cvreg n with signers := (c.cvreg n).signers ++ [y.cur.cv] }).complete y.cur.col n) := by
  simp [State.sign, hc, h]

/-- The column in which an effect begins has the convergence registers of the issue. -/
theorem begun_column {i : Instr} {s : State} {x y : Ctx} (hi : Issues i s x y) :
    ∃ c, (s.begun y).column? y.cur.col = some c ∧ ∀ n, c.cvreg n = y.c.cvreg n := by
  obtain ⟨-, hx, -⟩ := ctx_spec hi.ctx
  obtain ⟨-, -, -, -, hc, -⟩ := issues_group hi
  obtain ⟨-, c, d, hcol, hd, hdc, -⟩ := (begun_wrote hi).own
  rw [hx] at hcol
  cases hcol
  refine ⟨d, issues_cur hi ▸ hd, fun n => ?_⟩
  rw [hdc, hc]
  rfl

theorem roundFull_signer {y : Ctx} {t : State} {n : Nat} {c : Column} (hc : t.column? y.cur.col = some c)
    (h : y.cur.cv ∈ (c.cvreg n).signers) (work : Bool) : t.roundFull y n work = false := by
  simp [State.roundFull, hc, h]

section
variable {y : Ctx} {t : State} {n : Nat} {e : Effect} (ha : y.act ≠ [])
include ha

/-- SIGN waits for the convoy's earlier accesses and for a place in the reservation table (R184, R196). -/
theorem sign_stalls (h : t.fenceSign y = false ∨ t.roundFull y n false = true) :
    (if y.act.isEmpty then .next t else if !t.fenceSign y || t.roundFull y n false then .stall t else e) = Effect.stall t := by
  rw [if_neg (by simp [ha]), if_pos (by simpa using h)]

theorem sign_goes (hf : t.fenceSign y = true) (hr : t.roundFull y n false = false) :
    (if y.act.isEmpty then .next t else if !t.fenceSign y || t.roundFull y n false then .stall t else e) = e := by
  rw [if_neg (by simp [ha]), if_neg (by simp [hf, hr])]
end

/-- Settles O22: an object that is free is acted on (`onObject_free`), and each arrival is one of three (`arrive_refused`,
`arrive_overrun`, `arrive_counted`). -/
theorem barriersAndSigning : Obligations.BarriersAndSigning := by
  unfold Obligations.BarriersAndSigning
  refine ⟨fun f s x y at_ => ?_, fun f s x y hi ha => ?_⟩
  · intro t off n o now dst bound ready passes fails arrives counted turned arrived waits
    have hgo {i : Instr} {size : Nat} (h : ready i size) (access : Nat) (go : Nat → Effect) : y.onObject t f size access go = go off := by
      obtain ⟨-, hact, ha, hin, hb, he, ht, ho, hp⟩ := h
      exact onObject_free rfl hact ha hin hb he ht ho hp
    have hlive {i : Instr} {size : Nat} (h : ready i size) : t.LivesAt y := .begun h.1
    refine ⟨fun h h1 h2 h3 => ?_, fun h hn => ?_, fun h hf harr => ?_, fun h hf h0 hk ha hr hp => ?_, fun h hf href => ?_, fun h hf => ⟨?_, ?_⟩,
      ?_, fun h hph => ?_, fun h hph => ?_, fun h hf harr => ⟨?_, ?_⟩, fun h => ⟨?_, ?_⟩⟩
    · refine ((hlive h).kept (.setBarrier t y off _)).goes h.1 rfl (.inl ((hgo h 4 _).trans (if_neg ?_)))
      rintro (hz | hz | hz)
      exacts [by omega, by omega, h3 hz]
    · exact faults_of h.1 rfl ((hgo h 4 _).trans (if_pos hn))
    · obtain ⟨h0, hk, ha, hr, hp⟩ := harr
      exact bara_counted (hgo h 4) hf h.1 (arrive_counted h0 hk ha hr hp) ((hlive h).arriveAt off _)
    · exact bara_overrun (hgo h 4) hf h.1 (arrive_overrun h0 hk ha hr hp)
    · exact bara_overrun (hgo h 4) hf h.1 (arrive_refused href)
    · exact fun href => baraw_overrun (hgo h 4) hf h.1 (arrive_refused (.inr href))
    · exact fun hk ha hr hp => baraw_overrun (hgo h 4) hf h.1 (arrive_overrun (List.length_pos_iff.mpr h.2.1) hk ha hr hp)
    · intro i hmem h hf
      simp only [List.mem_cons, List.not_mem_nil, or_false] at hmem
      obtain rfl | rfl := hmem
      exacts [bara_stalls (hgo h 4) h.1 hf, baraw_stalls (hgo h 4) h.1 hf]
    · exact returns_now h.1 rfl ((hgo h 4 _).trans (if_pos hph)) (hlive h)
    · rw [hph]
      exact waits_phase h.1 rfl ((hgo h 4 _).trans (if_neg (not_not.mpr hph))) (hlive h)
    · obtain ⟨h0, hk, ha, hr, hp⟩ := harr
      exact fun hturn => baraw_turned (hgo h 4) hf h.1 (beq_iff_eq.mpr hturn ▸ arrive_counted h0 hk ha hr hp) ((hlive h).arriveAt off _)
    · obtain ⟨h0, hk, ha, hr, hp⟩ := harr
      exact fun hleft => baraw_waits (hgo h 4) hf h.1 (beq_eq_false_iff_ne.mpr hleft ▸ arrive_counted h0 hk ha hr hp) ((hlive h).arriveAt off _)
        (arriveAt_now ..)
    · intro hh
      exact returns_now h.1 rfl ((hgo h 1 _).trans (if_pos ((waitaHolds_iff _ _ _).mpr hh))) (hlive h)
    · intro hh
      exact (hlive h).waits h.1 rfl ((hgo h 1 _).trans (if_neg (mt (waitaHolds_iff _ _ _).mp hh)))
  · intro t n r
    obtain ⟨c, hc, hreg⟩ := begun_column hi
    have hr : c.cvreg n = r := hreg n
    have hlive : t.LivesAt y := .begun hi
    refine ⟨fun h => ?_, fun hf hs => ?_, fun hf hfull hs => ?_⟩
    · exact stalls_begun hi rfl (sign_stalls ha h)
    · refine hlive.waits hi rfl ((sign_goes ha hf (roundFull_signer hc (hr.symm ▸ hs) false)).trans ?_)
      rw [sign_again hc (hr.symm ▸ hs)]
    · refine (((hlive.kept (.onColumn t y.cur.col (fun c => c.setCvreg n { r with signers := r.signers ++ [y.cur.cv] })
        (fun _ => rfl) fun _ => rfl)).kept (.complete _ y.cur.col n)).onConvoy (f := Convoy.discard) fun _ _ => rfl).goes hi rfl
        (.inr ((sign_goes ha hf hfull).trans ?_))
      rw [sign_joins hc (hr.symm ▸ hs), hr]

end Sys2Proof.Machine
end

section
/-!
PROOFS. Pending operations performed: the operation's own record, the checks made before it, and bytes put at their place; for O36.
-/

namespace Sys2Proof.Machine

/-! ## An operation's record -/

theorem op?_id {s : State} {id : Nat} {o : Op} (h : s.op? id = some o) : o.id = id := by simpa using List.find?_some h

theorem op?_onOp (s : State) (id : Nat) {f : Op → Op} (hf : ∀ q, (f q).id = q.id) : (s.onOp id f).op? id = (s.op? id).map f := by
  have hid (q : Op) : (if q.id == id then f q else q).id = q.id := by split <;> [exact hf q; rfl]
  have hcomp : (fun q : Op => q.id == id) ∘ (fun q => if q.id == id then f q else q) = fun q => q.id == id :=
    funext fun q => by simp only [Function.comp_apply, hid]
  rw [State.op?, State.onOp, updateWhere, List.find?_map, hcomp]
  cases hq : s.ops.find? (·.id == id) with
  | none => simp [State.op?, hq]
  | some q => simp [State.op?, hq, op?_id hq]

@[simp] theorem op?_dropOp (s : State) (id : Nat) : (s.dropOp id).op? id = none := by
  simp [State.op?, State.dropOp]

theorem op?_of_ops {s t : State} (h : t.ops = s.ops) (id : Nat) : t.op? id = s.op? id := by rw [State.op?, State.op?, h]

@[simp] theorem op?_onIssuer (s : State) (o : Op) (f : Convoy → Convoy) (id : Nat) : (s.onIssuer o f).op? id = s.op? id := rfl

theorem convoy_onIssuer (s : State) (o : Op) (f : Convoy → Convoy) :
    (s.onIssuer o f).convoy? o.col o.cv = (s.convoy? o.col o.cv).map f := convoy_onConvoy ..

theorem convoy_of_columns {s : State} {col cv : Nat} {c : Column} {v : Convoy} (hc : s.column? col = some c) (hv : c.cvs[cv]? = some v) :
    s.convoy? col cv = some v := by simp [State.convoy?, hc, hv]

/-- A piece that its event finds alone is one of the operation's. -/
theorem mem_of_part {ps : List Piece} {g : Nat} {p : Piece} (h : ps.filter (·.grp == g) = [p]) : p ∈ ps ∧ p.grp = g := by
  have hp : p ∈ ps.filter (·.grp == g) := by rw [h]; exact List.mem_singleton_self p
  simpa using hp

/-- The pieces left by an event of one piece. -/
theorem filter_not_contains_singleton (ps : List Piece) (p : Piece) : ps.filter (fun q => !([p] : List Piece).contains q) = ps.filter (· != p) := by
  refine List.filter_congr fun q _ => ?_
  simp [bne]
  rfl

/-! ## Before the access -/

theorem checkPieces_clean {s : State} (hp : s.coh.poison = []) (hf : s.coh.flips = []) (o : Op) (ps : List Piece) (evicted : Bool) :
    s.checkPieces o ps evicted = s :=
  List.foldl_fixed' (fun _ => checkBytes_clean hp hf ..) _

theorem meterLoc_fw (s : State) (col : Nat) (loc : Loc) (n : Nat) : ∃ fw, s.meterLoc col loc n = { s with fw := fw } := by
  unfold State.meterLoc State.meterCol
  split
  · split <;> exact ⟨_, rfl⟩
  · split <;> exact ⟨_, rfl⟩
  · exact ⟨_, rfl⟩

theorem meterPieces_fw (s : State) (o : Op) (ps : List Piece) : ∃ fw, s.meterPieces o ps = { s with fw := fw } := by
  refine List.foldlRecOn (motive := fun t : State => ∃ fw, t = { s with fw := fw }) ps _ ⟨s.fw, rfl⟩ fun t ⟨fw, ht⟩ p _ => ?_
  obtain ⟨fw', h⟩ := meterLoc_fw t o.col p.loc p.n
  rw [h, ht]
  exact ⟨fw', rfl⟩

/-- R344, R360: bytes over the links are counted, and a peer's answer noted, in the firmware's records alone. -/
theorem readied_fw {s : State} (hp : s.coh.poison = []) (hf : s.coh.flips = []) (o : Op) (ps : List Piece) (evicted : Bool) (links : List Nat) :
    ∃ fw, ((s.checkPieces o ps evicted).meterPieces o ps).acked links = { s with fw := fw } := by
  rw [checkPieces_clean hp hf]
  obtain ⟨fw, h⟩ := meterPieces_fw s o ps
  rw [h, State.acked]
  split <;> exact ⟨_, rfl⟩

/-! ## Bytes at a place -/

theorem peek_of_store {s t : State} (h : t.store = s.store) (l : Loc) (a : Nat) : t.peek l a = s.peek l a := by
  unfold State.peek
  rw [h]

theorem peekBytes_of_store {s t : State} (h : t.store = s.store) (l : Loc) (a n : Nat) : t.peekBytes l a n = s.peekBytes l a n := by
  unfold State.peekBytes
  exact List.map_congr_left fun i _ => peek_of_store h l _

/-- A written range reads as written, in any memory. -/
theorem map_read_writeBytes {m : Memory} (hm : Memory.wf m = true) (a : Nat) (bs : List Byte) :
    (List.range bs.length).map (fun i => (m.writeBytes a bs).read (a + i)) = bs := by
  refine List.ext_getElem (by simp) fun i hi hb => ?_
  simp [read_writeBytes_inside hm a bs hb]

theorem Store.wf_memories {m : Store} (h : m.wf = true) :
    Memory.wf m.dev = true ∧ Memory.wf m.host = true ∧ Memory.wf m.peer = true ∧ Memory.wf m.spad = true := by
  simp only [Store.wf, Bool.and_eq_true] at h
  obtain ⟨⟨⟨⟨⟨⟨⟨⟨hdev, hhost⟩, hpeer⟩, hspad⟩, -⟩, -⟩, -⟩, -⟩, -⟩ := h
  exact ⟨hdev, hhost, hpeer, hspad⟩

/-- Away from the written range a memory reads as before. -/
theorem read_writeBytes_away (m : Memory) {a b : Nat} {bs : List Byte} (h : ¬(a ≤ b ∧ b < a + bs.length)) :
    (m.writeBytes a bs).read b = m.read b :=
  read_writeBytes_outside m bs (by omega)

theorem Puts.of_stores {s s' t u : State} {loc : Loc} {a : Nat} {bs : List Byte} (h : Puts s t loc a bs) (hs : s'.store = s.store)
    (hu : u.store = t.store) : Puts s' u loc a bs :=
  ⟨(peekBytes_of_store hu ..).trans h.there,
    fun l b hb hne => (peek_of_store hu l b).trans ((h.else_ l b hb hne).trans (peek_of_store hs l b).symm), by rw [hu, hs]; exact h.rest⟩

/-- Bytes that are no actual-state table's are written to device memory as they are (R286). -/
theorem poke_dev {s : State} {own : Option Nat} {a : Nat} {bs : List Byte} (h : ∀ k < bs.length, s.inAst (a + k) = false) :
    s.poke own .dev a bs = s.devWrite own a bs := by
  have hbs : (bs.mapIdx fun i b => if s.inAst (a + i) then Memory.read s.store.dev (a + i) else b) = bs := by
    refine List.ext_getElem (by simp) fun i hi hb => ?_
    simp [h i hb]
  rw [State.poke, hbs]

/-- A write of bytes at a translated address puts them there alone. -/
theorem poke_puts {s : State} (hs : s.store.wf = true) (own : Option Nat) (loc : Loc) {a : Nat} {bs : List Byte} (hfit : a + bs.length ≤ 2 ^ 52)
    (hast : ∀ k < bs.length, s.inAst (a + k) = false) : Puts s (s.poke own loc a bs).1 loc a bs := by
  obtain ⟨hdev, hhost, hpeer, hspad⟩ := Store.wf_memories hs
  cases loc with
  | dev =>
    rw [poke_dev hast]
    refine ⟨map_read_writeBytes hdev a bs, fun l b _ hb => ?_, rfl⟩
    cases l with
    | dev => exact read_writeBytes_away _ fun h => hb ⟨rfl, h⟩
    | _ => rfl
  | spad =>
    refine ⟨map_read_writeBytes hspad a bs, fun l b _ hb => ?_, rfl⟩
    cases l with
    | spad => exact read_writeBytes_away _ fun h => hb ⟨rfl, h⟩
    | _ => rfl
  | host r =>
    refine ⟨map_read_writeBytes hhost a bs, fun l b _ hb => ?_, rfl⟩
    cases l with
    | host r' => exact read_writeBytes_away _ fun h => hb ⟨by simp [Loc.same, Loc.isHost], h⟩
    | _ => rfl
  | peer n =>
    refine ⟨?_, fun l b hlt hb => ?_, rfl⟩
    · refine Eq.trans (List.map_congr_left fun i _ => ?_) (map_read_writeBytes hpeer (n * 2 ^ 52 + a) bs)
      exact congrArg (Memory.read _) (Nat.add_assoc ..).symm
    · cases l with
      | peer n' =>
        refine read_writeBytes_away _ fun h => hb ?_
        have hn : n' = n := by omega
        subst hn
        exact ⟨by simp [Loc.same], by omega⟩
      | _ => rfl

end Sys2Proof.Machine
end

section
/-!
PROOFS. Stores and pushed elements arrive (R77, R80, R82); for O36.
-/

namespace Sys2Proof.Machine

/-! ## Bytes of a store, where they belong -/

theorem logSpad_cols (s : State) (col quad pa n : Nat) : ∃ C, s.logSpad col quad pa n = { s with cols := C } := by
  refine List.foldlRecOn (motive := fun t : State => ∃ C, t = { s with cols := C }) _ _ ⟨s.cols, rfl⟩ fun t ⟨C, ht⟩ k _ => ?_
  rw [ht]
  exact ⟨_, rfl⟩

/-- An operation of which a piece has been written, with the completion time of its bytes (R80). -/
def Op.landed (q : Op) (p : Piece) (t : Nat) : Op := { q with comp := if p.loc.isSys then q.comp else max q.comp t, aux := q.aux ++ p.awaits }

section
variable (s : State) (o : Op) (p : Piece) (bs : List Byte)

/-- Beside the bytes themselves a store's piece changes its operation and the columns. -/
theorem storeBytes_spec : ∃ C, s.storeBytes o p bs =
    { (s.poke (some o.quad) p.loc p.addr bs).1 with
      cols := C, ops := (s.onOp o.id (·.landed p (s.poke (some o.quad) p.loc p.addr bs).2)).ops } := by
  unfold State.storeBytes
  cases hl : p.loc with
  | spad =>
    obtain ⟨C, hC⟩ := logSpad_cols s o.col o.quad p.addr p.n
    simp only [Op.landed, hl, hC]
    exact ⟨_, rfl⟩
  | _ =>
    simp only [Op.landed, hl]
    exact ⟨_, rfl⟩

theorem storeBytes_store : (s.storeBytes o p bs).store = (s.poke (some o.quad) p.loc p.addr bs).1.store := by
  obtain ⟨C, h⟩ := storeBytes_spec s o p bs
  rw [h]

theorem storeBytes_op? : (s.storeBytes o p bs).op? o.id = (s.op? o.id).map (·.landed p (s.poke (some o.quad) p.loc p.addr bs).2) := by
  obtain ⟨C, h⟩ := storeBytes_spec s o p bs
  refine (op?_of_ops (s := s.onOp o.id _) (by rw [h]) o.id).trans (op?_onOp s o.id fun _ => rfl)

theorem storeBytes_kept : s.ConvoysKept (s.storeBytes o p bs) := by
  have hlog : s.ConvoysKept (if p.loc == .spad then s.logSpad o.col o.quad p.addr p.n else s) := by
    split
    exacts [.logSpad s _ _ _ _, .refl s]
  have harr (t : State) : t.ConvoysKept (t.arrived o p.loc) := by
    unfold State.arrived
    split
    exacts [.refl t, .forbidRollback t _]
  unfold State.storeBytes
  extract_lets u r t
  have ht : s.ConvoysKept t := (hlog.trans (.poke u _ _ _ _)).trans ((State.ConvoysKept.of_cols rfl).trans (harr _))
  split
  exacts [ht.trans (.notice t), ht]

end

/-- R80: the completion time of bytes written to device memory. -/
theorem poke_dev_time {s : State} {own : Option Nat} {a : Nat} {bs : List Byte} : (s.poke own .dev a bs).2 = s.completion own a bs.length := by
  simp [State.poke, State.devWrite]

/-- An event of one piece that lies in no host memory is its bytes written. -/
theorem storePieces_one {s : State} (hp : s.coh.poison = []) (hf : s.coh.flips = []) (o : Op) {p : Piece} (hl : ∀ r, p.loc ≠ .host r) :
    ∃ fw, s.storePieces o [p] = ({ s with fw := fw } : State).storeBytes o p (o.bytes p) := by
  have hhost : p.loc.isHost = false := Bool.eq_false_iff.mpr fun h => by
    obtain ⟨r, hr⟩ := (isHost_iff _).mp h
    exact hl r hr
  obtain ⟨fw, h⟩ := meterPieces_fw s o [p]
  refine ⟨fw, ?_⟩
  simp [State.storePieces, checkPieces_clean hp hf, h, hhost, State.mergeWrites]

section
variable {s : State} {o : Op} {v : Convoy} {p : Piece} (ho : s.op? o.id = some o) (hv : s.convoy? o.col o.cv = some v)
  (hp : s.coh.poison = []) (hf : s.coh.flips = []) (hs : s.store.wf = true)

/-- The convoy of the operation is as before, but for its wait. -/
def State.SameBut (t : State) (o : Op) (v : Convoy) : Prop := ∃ w, t.convoy? o.col o.cv = some w ∧ w = { v with wait := w.wait }

theorem State.ConvoysKept.same {t : State} (h : s.ConvoysKept t) (hv : s.convoy? o.col o.cv = some v) : t.SameBut o v := by
  obtain ⟨w, hw, hwv⟩ := h.convoy hv
  exact ⟨w, hw, Convoy.eq_of_unwaited hwv⟩

include ho hv hp hf hs

/-- R77, R80: one piece of a store or of an element pushed appears at its place alone. -/
theorem piece_arrives (hl : ∀ r, p.loc ≠ .host r) (hfit : p.addr + p.n ≤ 2 ^ 52) (hast : ∀ k < p.n, s.inAst (p.addr + k) = false) :
    ∃ q, ((s.storePieces o [p]).donePieces o.id [p]).SameBut o v ∧
      Puts s ((s.storePieces o [p]).donePieces o.id [p]) p.loc p.addr (bytesOf p.n (o.val p.lane / 2 ^ (8 * p.off))) ∧
      ((s.storePieces o [p]).donePieces o.id [p]).op? o.id = some q ∧ q.pieces = o.pieces.filter (· != p) ∧
      (p.loc = .dev → s.completion (some o.quad) p.addr p.n ≤ q.comp) := by
  obtain ⟨fw, hw⟩ := storePieces_one hp hf o hl
  rw [hw]
  have hlen : (o.bytes p).length = p.n := bytesOf_length ..
  have hop : (({ s with fw := fw } : State).storeBytes o p (o.bytes p)).op? o.id = _ := (storeBytes_op? _ o p _).trans (congrArg _ ho)
  have hq := (op?_onOp (({ s with fw := fw } : State).storeBytes o p (o.bytes p)) o.id
    (f := fun o => { o with pieces := o.pieces.filter fun q => !([p] : List Piece).contains q }) fun _ => rfl).trans (congrArg _ hop)
  refine ⟨_, ?_, ?_, hq, filter_not_contains_singleton o.pieces p, fun hdev => ?_⟩
  · exact ((State.ConvoysKept.of_cols rfl).trans ((storeBytes_kept _ o p _).trans (.of_cols rfl))).same hv
  · have hputs := poke_puts (s := { s with fw := fw }) hs (some o.quad) p.loc (bs := o.bytes p) (by rw [hlen]; exact hfit) (by rw [hlen]; exact hast)
    exact hputs.of_stores rfl (storeBytes_store ..)
  · simp only [Op.landed, hdev, Loc.isSys, poke_dev_time, hlen]
    exact le_max_right ..

end

end Sys2Proof.Machine
end

section
/-!
PROOFS. Host stores posted and performed, acknowledgements, and host atomics that fail (R82, R173, R359); for O36.
-/

namespace Sys2Proof.Machine

section
variable {s : State} {o : Op} (ho : s.op? o.id = some o)
include ho

/-! ## What each event does -/

theorem storeArrival_store {g : Nat} (hk : o.kind = .store) (hne : o.pieces.filter (·.grp == g) ≠ [])
    (hmay : ∀ p ∈ o.pieces.filter (·.grp == g), s.mayPerform o p true = true) :
    exec (.storeArrival o.id g) s = .next ((s.storePieces o (o.pieces.filter (·.grp == g))).donePieces o.id (o.pieces.filter (·.grp == g))) := by
  have hall : (o.pieces.filter (·.grp == g)).all (fun p => s.mayPerform o p true) = true := List.all_eq_true.mpr hmay
  have hemp : (o.pieces.filter (·.grp == g)).isEmpty = false := by simpa using hne
  show execStoreArrival o.id g s = _
  simp [execStoreArrival, ho, hk, hall, hemp]

theorem pushPerform_next {g q : Nat} {t : Fmt} {f : Option Nat} (hk : o.kind = .push q t f)
    (hmay : ∀ p ∈ o.pieces.filter (·.grp == g), (o.vals.lookup p.lane).isSome = true ∧ s.mayPerform o p true = true) :
    exec (.pushPerform o.id g) s = .next ((s.storePieces o (o.pieces.filter (·.grp == g))).donePieces o.id (o.pieces.filter (·.grp == g))) := by
  have hall : (o.pieces.filter (·.grp == g)).all (fun p => (o.vals.lookup p.lane).isSome && s.mayPerform o p true) = true :=
    List.all_eq_true.mpr fun p hp => by simp [hmay p hp]
  show execPushPerform o.id g s = _
  simp only [execPushPerform, ho, hk, hall, if_true]

theorem storeArrival_posted {g : Nat} (hk : o.kind = .posted) (hturn : s.postedTurn o = true) :
    exec (.storeArrival o.id g) s = .next (s.performPosted o) := by
  show execStoreArrival o.id g s = _
  simp [execStoreArrival, ho, hk, hturn]

end

/-! ## Host stores -/

theorem coveredRuns_nil {ps : List Piece} {l : Loc} (h : ∀ p ∈ ps, (p.loc == l) = false) : coveredRuns ps l = [] := by
  have hnil : ps.filter (·.loc == l) = [] := List.filter_eq_nil_iff.mpr fun p hp => by simp [h p hp]
  simp [coveredRuns, hnil, runs]

theorem mergeWrites_host (s : State) (o : Op) {ps : List Piece} (h : ∀ p ∈ ps, ∃ r, p.loc = .host r) : s.mergeWrites o ps = s := by
  have hdev : coveredRuns ps .dev = [] := coveredRuns_nil fun p hp => by
    obtain ⟨r, hr⟩ := h p hp
    rw [hr]
    rfl
  have hspad : coveredRuns ps .spad = [] := coveredRuns_nil fun p hp => by
    obtain ⟨r, hr⟩ := h p hp
    rw [hr]
    rfl
  simp [State.mergeWrites, hdev, hspad]

/-- R82: an event that lies in host memory is posted whole. -/
theorem storePieces_host {s : State} (hp : s.coh.poison = []) (hf : s.coh.flips = []) (o : Op) {ps : List Piece} (hne : ps ≠ [])
    (h : ∀ p ∈ ps, ∃ r, p.loc = .host r) : ∃ fw, s.storePieces o ps = ({ s with fw := fw } : State).postHost o ps := by
  have hhost (p : Piece) (hp : p ∈ ps) : p.loc.isHost = true := (isHost_iff _).mpr (h p hp)
  have hall : ps.filter (·.loc.isHost) = ps := List.filter_eq_self.mpr hhost
  have hnone : ps.filter (!·.loc.isHost) = [] := List.filter_eq_nil_iff.mpr fun p hp => by simp [hhost p hp]
  obtain ⟨fw, hfw⟩ := meterPieces_fw s o ps
  refine ⟨fw, ?_⟩
  simp [State.storePieces, checkPieces_clean hp hf, hfw, hall, hnone, mergeWrites_host _ o h, hne]

/-- R63, R82: the posted write that a store's event becomes. -/
def Op.postedAs (o : Op) (id : Nat) (ps : List Piece) : Op := { o with id, kind := .posted, pieces := ps, aux := [], comp := 0 }

section
variable {s : State} {o : Op} (ps : List Piece)

theorem postHost_op? (ho : s.op? o.id = some o) : (s.postHost o ps).op? o.id = some { o with csys := max o.csys s.now } := by
  have happ : ({ s with nextId := s.nextId + 1, ops := s.ops ++ [o.postedAs s.nextId ps] } : State).op? o.id = some o := by
    rw [State.op?, List.find?_append, show s.ops.find? (·.id == o.id) = some o from ho]
    rfl
  exact (op?_onOp _ o.id (f := fun o => { o with csys := max o.csys s.now }) fun _ => rfl).trans (congrArg _ happ)

theorem postHost_kept : s.ConvoysKept (s.postHost o ps) :=
  (State.ConvoysKept.of_cols rfl).trans (State.ConvoysKept.forbidRollback _ o.col)

/-- The write posted stands last among the pending operations. -/
theorem postHost_last (hid : o.id < s.nextId) (f : Op → Op) : ((s.postHost o ps).onOp o.id f).ops.getLast? = some (o.postedAs s.nextId ps) := by
  have hne : (o.postedAs s.nextId ps).id ≠ o.id := Nat.ne_of_gt hid
  show (updateWhere _ _ (updateWhere _ _ (s.ops ++ [o.postedAs s.nextId ps]))).getLast? = _
  simp [updateWhere, List.getLast?_map, hne]

end

/-- R82: a posted write performed at the host puts its bytes there alone, and is gone. -/
theorem performPosted_one {s : State} (hs : s.store.wf = true) {o : Op} {p : Piece} {r : Bool} (hps : o.pieces = [p]) (hl : p.loc = .host r) :
    (s.performPosted o).peekBytes p.loc p.addr p.n = o.bytes p ∧
      (∀ b, ¬(p.addr ≤ b ∧ b < p.addr + p.n) → Memory.read (s.performPosted o).store.host b = Memory.read s.store.host b) ∧
      s.performPosted o =
        { s with store := { s.store with host := (s.performPosted o).store.host }, ops := s.ops.filter (·.id != o.id) } := by
  have hlen : (o.bytes p).length = p.n := bytesOf_length ..
  have heq : s.performPosted o = { s with
      store := { s.store with host := Memory.writeBytes s.store.host p.addr (o.bytes p) }, ops := s.ops.filter (·.id != o.id) } := by
    rw [State.performPosted, hps, List.foldl_cons, List.foldl_nil, hl]
    rfl
  rw [heq]
  refine ⟨?_, fun b hb => read_writeBytes_away _ (by rwa [hlen]), rfl⟩
  obtain ⟨-, hhost, -⟩ := Store.wf_memories hs
  rw [hl, ← hlen]
  exact map_read_writeBytes hhost p.addr (o.bytes p)

/-! ## Ends -/

section
variable {s : State} {o : Op} {v : Convoy} (hv : s.convoy? o.col o.cv = some v)
include hv

/-- R173, R359: an atomic that fails at the host leaves its convoy as its acknowledgement would, and signals the fault. -/
theorem failAtomic_signals (p : Piece) (code : BitVec 16) : ∃ t : State,
    s.failAtomic o p code = t.signal o.col o.cv o.pc (v.lanesAt o.pc) code (BitVec.ofNat 64 p.va) 4 ∧ t.op? o.id = none ∧
      t.store = s.store ∧ t.convoy? o.col o.cv = some (v.closed o s.now) := by
  refine ⟨(({ s with holds := s.holds.filter fun h => !(h.col == o.col && h.cv == o.cv && h.pc == o.pc) } : State).dropOp o.id).onIssuer o
    (·.closed o s.now), ?_, op?_dropOp .., rfl, ?_⟩
  · simp only [State.failAtomic, hv]
  · exact (convoy_onIssuer _ o _).trans (congrArg _ hv)

/-- An operation that is over: its record is gone, and its convoy told. -/
theorem closes {t u : State} (ht : t.cols = s.cols) (hst : t.store = s.store) {f : Convoy → Convoy}
    (hu : u = (t.dropOp o.id).onIssuer o f) : u.op? o.id = none ∧ u.store = s.store ∧ u.convoy? o.col o.cv = some (f v) := by
  subst hu
  refine ⟨by rw [op?_onIssuer, op?_dropOp], hst, ?_⟩
  rw [convoy_onIssuer, convoy_cols (t := t.dropOp o.id) (s := s) ht, hv]
  rfl

end

end Sys2Proof.Machine
end

section
/-!
PROOFS. Atomics performed (R84, R170, R173); for O36.
-/

namespace Sys2Proof.Machine

/-! ## Registers written in lanes -/

theorem convoy_logRegs (s : State) (col cv : Nat) (rs : List Nat) : (s.logRegs col cv rs).convoy? col cv = s.convoy? col cv := by
  unfold State.logRegs
  split
  · rfl
  · refine List.foldlRecOn (motive := fun t : State => t.convoy? col cv = s.convoy? col cv) rs _ rfl fun t ht n _ => ?_
    rw [State.logUndo, convoy_onColumn t col cv _ (fun c => by split <;> rfl) fun c => by split <;> rfl]
    exact ht

theorem logRegs_cols (s : State) (col cv : Nat) (rs : List Nat) : ∃ C, s.logRegs col cv rs = { s with cols := C } := by
  unfold State.logRegs
  split
  · exact ⟨s.cols, rfl⟩
  · refine List.foldlRecOn (motive := fun t : State => ∃ C, t = { s with cols := C }) rs _ ⟨s.cols, rfl⟩ fun t ⟨C, ht⟩ n _ => ?_
    rw [ht]
    exact ⟨_, rfl⟩

section
variable (s : State) (o : Op) (dst : Operand) (k : Nat) (bounds : Bool) (f : Nat → Lane → Lane)

theorem convoy_writeLanes :
    (s.writeLanes o dst k bounds f).convoy? o.col o.cv = (s.convoy? o.col o.cv).map fun v => v.onLanes o.lanes f := by
  rw [← convoy_logRegs s o.col o.cv (operandRegs bounds dst k), ← convoy_onIssuer]
  rfl

theorem writeLanes_rest : ∃ C coh, s.writeLanes o dst k bounds f = { s with cols := C, coh := coh } := by
  obtain ⟨C, h⟩ := logRegs_cols s o.col o.cv (operandRegs bounds dst k)
  unfold State.writeLanes
  extract_lets rs t
  have ht : t = ({ s with cols := C } : State).onIssuer o fun v => v.onLanes o.lanes f := congrArg (fun u : State => u.onIssuer o _) h
  rw [ht]
  exact ⟨_, _, rfl⟩

end

/-! ## The old value returned -/

/-- R170: the old value of a lane's atomic in the destination, where there is one. -/
def Convoy.withOld (v : Convoy) (dst : Option Operand) (p : Piece) (old : Nat) : Convoy :=
  match dst with
  | some (.v n) => v.onLanes [p.lane] fun _ a => a.setWideReg n.toNat ((p.n + 3) / 4) old
  | some (.s n) => v.setWideSreg n.toNat ((p.n + 3) / 4) old
  | _ => v

theorem setWideSreg_sregs {v w : Convoy} (h : v.sregs = w.sregs) (n k x : Nat) : (v.setWideSreg n k x).sregs = (w.setWideSreg n k x).sregs := by
  induction k generalizing v w n x with
  | zero => exact h
  | succ k ih => exact ih (by rw [Convoy.setSreg, Convoy.setSreg, h]) (n + 1) (x / 2 ^ 32)

theorem setWideSreg_rest (v : Convoy) (n k x : Nat) : v.setWideSreg n k x = { v with sregs := (v.setWideSreg n k x).sregs } := by
  induction k generalizing v n x with
  | zero => rfl
  | succ k ih => exact ih (v.setSreg n _) (n + 1) (x / 2 ^ 32)

theorem withOld_sregs_congr {v w : Convoy} (h : w.sregs = v.sregs) (dst : Option Operand) (p : Piece) (old : Nat) :
    (w.withOld dst p old).sregs = (v.withOld dst p old).sregs := by
  obtain _ | d := dst
  · exact h
  · cases d with
    | s n => exact setWideSreg_sregs h ..
    | _ => exact h

section
variable (v : Convoy) (dst : Option Operand) (p : Piece) (old : Nat)

theorem withOld_rest : v.withOld dst p old = { v with lanes := (v.withOld dst p old).lanes, sregs := (v.withOld dst p old).sregs } := by
  unfold Convoy.withOld
  split
  · rfl
  · rw [setWideSreg_rest]
  · rfl

theorem withOld_sregs : (v.withOld dst p old).sregs = match dst with
    | some (.s r) => (v.setWideSreg r.toNat ((p.n + 3) / 4) old).sregs
    | _ => v.sregs := by
  obtain _ | d := dst
  · rfl
  · cases d <;> rfl

theorem withOld_lane (l : Nat) : (v.withOld dst p old).lane l = match dst with
    | some (.v r) => if l = p.lane ∧ l < v.lanes.length then (v.lane l).setWideReg r.toNat ((p.n + 3) / 4) old else v.lane l
    | _ => v.lane l := by
  obtain _ | d := dst
  · rfl
  · cases d with
    | v n =>
      refine (lane_onLanes ..).trans ?_
      simp only [List.mem_singleton]
    | s n => exact setWideSreg_lane ..
    | _ => rfl

end

/-- R170: the old value of a lane's atomic returned to its convoy. -/
def State.returnOld (t : State) (o : Op) (dst : Option Operand) (p : Piece) (old : Nat) : State :=
  match dst with
  | some (.v n) => t.writeLanes { o with lanes := [p.lane] } (.v n) ((p.n + 3) / 4) false fun _ a => a.setWideReg n.toNat ((p.n + 3) / 4) old
  | some (.s n) => t.onIssuer o fun v => v.setWideSreg n.toNat ((p.n + 3) / 4) old
  | _ => t

section
variable (t : State) (o : Op) (dst : Option Operand) (p : Piece) (old : Nat)

theorem returnOld_convoy : (t.returnOld o dst p old).convoy? o.col o.cv = (t.convoy? o.col o.cv).map fun v => v.withOld dst p old := by
  unfold State.returnOld Convoy.withOld
  split
  · exact convoy_writeLanes t { o with lanes := [p.lane] } ..
  · exact convoy_onIssuer ..
  · exact Option.map_id'.symm

theorem returnOld_rest : ∃ C coh, t.returnOld o dst p old = { t with cols := C, coh := coh } := by
  unfold State.returnOld
  split
  · exact writeLanes_rest ..
  · exact ⟨_, _, rfl⟩
  · exact ⟨_, _, rfl⟩

end

/-! ## One lane performed -/

/-- The bytes that a lane's atomic writes (R170). -/
def State.atomicBytes (s : State) (o : Op) (k : Nat) (ty : Fmt) (p : Piece) : List Byte :=
  bytesOf p.n (atomicNew k ty (8 * p.n) (numberOf (s.peekBytes p.loc p.addr p.n)) ((o.aux.lookup p.lane).getD (0, 0)).1
    ((o.aux.lookup p.lane).getD (0, 0)).2)

/-- The completion time that an atomic's lane takes up from its line (R81). -/
def Op.tookTime (q : Op) (s : State) (p : Piece) : Op := { q with comp := max q.comp (if p.loc == .dev then s.keptTime (lineOf p.addr) else 0) }

/-- What a lane of an atomic leaves, before its pieces are taken off. -/
structure Atomic (s t : State) (o : Op) (v : Convoy) (k : Nat) (ty : Fmt) (dst : Option Operand) (p : Piece) : Prop where
  puts : Puts s t p.loc p.addr (s.atomicBytes o k ty p)
  op : ∃ q, t.op? o.id = some q ∧ q = { o with comp := q.comp, aux := q.aux, issued := q.issued, csys := q.csys } ∧
    (p.loc = .dev → s.completion (some o.quad) p.addr p.n ≤ q.comp ∧ s.keptTime (lineOf p.addr) ≤ q.comp)
  convoy : ∃ w : Convoy, t.convoy? o.col o.cv = some (w.withOld dst p (numberOf (s.peekBytes p.loc p.addr p.n))) ∧ w = { v with wait := w.wait }

section
variable {s : State} {o : Op} {v : Convoy} {p : Piece} (ho : s.op? o.id = some o) (hv : s.convoy? o.col o.cv = some v)
  (hp : s.coh.poison = []) (hf : s.coh.flips = []) (hs : s.store.wf = true)
include ho hv hp hf hs

theorem atomicPiece_atomic (k : Nat) (ty : Fmt) (dst : Option Operand) (hfit : p.addr + p.n ≤ 2 ^ 52)
    (hast : ∀ k < p.n, s.inAst (p.addr + k) = false) : Atomic s (s.atomicPiece o k ty dst p) o v k ty dst p := by
  obtain ⟨fw, hfw⟩ := meterPieces_fw s o [p]
  have heq : s.atomicPiece o k ty dst p = ((({ s with fw := fw } : State).storeBytes o p (s.atomicBytes o k ty p)).onOp o.id
      (·.tookTime s p)).returnOld o dst p (numberOf (s.peekBytes p.loc p.addr p.n)) := by
    simp only [State.atomicPiece, checkPieces_clean hp hf, hfw]
    rfl
  have hlen : (s.atomicBytes o k ty p).length = p.n := bytesOf_length ..
  obtain ⟨C, coh, hrest⟩ := returnOld_rest ((({ s with fw := fw } : State).storeBytes o p (s.atomicBytes o k ty p)).onOp o.id
      (·.tookTime s p)) o dst p (numberOf (s.peekBytes p.loc p.addr p.n))
  refine ⟨?_, ?_, ?_⟩
  · have hputs := poke_puts (s := { s with fw := fw }) hs (some o.quad) p.loc (bs := s.atomicBytes o k ty p)
      (by rw [hlen]; exact hfit) (by rw [hlen]; exact hast)
    refine hputs.of_stores rfl ?_
    rw [heq, hrest]
    exact storeBytes_store ..
  · have hop := (storeBytes_op? ({ s with fw := fw } : State) o p (s.atomicBytes o k ty p)).trans (congrArg _ ho)
    have hq := (op?_onOp _ o.id (f := (·.tookTime s p)) fun _ => rfl).trans (congrArg _ hop)
    refine ⟨_, (op?_of_ops (by rw [heq, hrest]) o.id).trans hq, rfl, fun hdev => ?_⟩
    simp only [Op.tookTime, Op.landed, hdev, Loc.isSys, Bool.false_eq_true, if_false, poke_dev_time, hlen, beq_self_eq_true, if_true]
    exact ⟨(le_max_right ..).trans (le_max_left ..), le_max_right ..⟩
  · rw [heq, returnOld_convoy]
    obtain ⟨w, hw, hwv⟩ := (((State.ConvoysKept.of_cols rfl).trans (storeBytes_kept ({ s with fw := fw } : State) o p
      (s.atomicBytes o k ty p))).trans (.of_cols rfl)).same hv
    exact ⟨w, congrArg _ hw, hwv⟩

end

/-! ## The lane taken off, and the end of a waited atomic -/

theorem closeWaited_store (t : State) (id : Nat) : (t.closeWaited id).store = t.store := by
  unfold State.closeWaited
  split
  · split <;> rfl
  · rfl

theorem closeWaited_ops (t : State) (id : Nat) : (t.closeWaited id).ops = t.ops := by
  unfold State.closeWaited
  split
  · split <;> rfl
  · rfl

/-- R93: of the convoy the end of an atomic that its clause waits for changes the stores counter, CTdev and CTsys. -/
theorem closeWaited_convoy {t : State} {o q : Op} {w : Convoy} (hq : t.op? o.id = some q) (hqo : q.col = o.col ∧ q.cv = o.cv)
    (hw : t.convoy? o.col o.cv = some w) : ∃ u : Convoy, (t.closeWaited o.id).convoy? o.col o.cv = some u ∧
      u = { w with stores := u.stores, ctdev := u.ctdev, ctsys := u.ctsys } := by
  obtain ⟨hcol, hcv⟩ := hqo
  simp only [State.closeWaited, hq]
  split
  · refine ⟨w.closed q t.now, ?_, rfl⟩
    rw [← hcol, ← hcv, convoy_onIssuer, hcol, hcv, hw, Option.map_some]
  · exact ⟨w, hw, rfl⟩

section
variable {s t : State} {o : Op} {v : Convoy} {k : Nat} {ty : Fmt} {dst : Option Operand} {p : Piece}

/-- The reply that a host atomic's next lane waits for is counted from now (R359). -/
theorem Atomic.reissued (h : Atomic s t o v k ty dst p) (now : Nat) :
    Atomic s (t.onOp o.id fun q => { q with issued := now, csys := now }) o v k ty dst p := by
  obtain ⟨q, hq, hqo, htime⟩ := h.op
  have hop := (op?_onOp t o.id (f := fun q => { q with issued := now, csys := now }) fun _ => rfl).trans (congrArg _ hq)
  refine ⟨h.puts.of_stores rfl rfl, ⟨_, hop, ?_, htime⟩, h.convoy⟩
  rw [hqo]

/-- What an atomic's lane leaves when its event is over. -/
theorem Atomic.done (h : Atomic s t o v k ty dst p) : ∃ (w : Convoy) (q : Op),
    Puts s ((t.donePieces o.id [p]).closeWaited o.id) p.loc p.addr (s.atomicBytes o k ty p) ∧
      ((t.donePieces o.id [p]).closeWaited o.id).op? o.id = some q ∧ q.pieces = o.pieces.filter (· != p) ∧
      (p.loc = .dev → s.completion (some o.quad) p.addr p.n ≤ q.comp ∧ s.keptTime (lineOf p.addr) ≤ q.comp) ∧
      ((t.donePieces o.id [p]).closeWaited o.id).convoy? o.col o.cv = some w ∧
      w = { v with lanes := w.lanes, sregs := w.sregs, stores := w.stores, ctdev := w.ctdev, ctsys := w.ctsys, wait := w.wait } ∧
      w.sregs = (v.withOld dst p (numberOf (s.peekBytes p.loc p.addr p.n))).sregs ∧
      ∀ l, w.lane l = (v.withOld dst p (numberOf (s.peekBytes p.loc p.addr p.n))).lane l := by
  obtain ⟨q, hq, hqo, htime⟩ := h.op
  obtain ⟨w, hw, hwv⟩ := h.convoy
  have hdone := (op?_onOp t o.id (f := fun o => { o with pieces := o.pieces.filter fun q => !([p] : List Piece).contains q })
    fun _ => rfl).trans (congrArg _ hq)
  obtain ⟨u, hu, huw⟩ := closeWaited_convoy (t := t.donePieces o.id [p]) hdone ⟨by rw [hqo], by rw [hqo]⟩ hw
  refine ⟨u, _, h.puts.of_stores rfl (closeWaited_store ..), (op?_of_ops (closeWaited_ops ..) o.id).trans hdone, ?_, htime, hu, ?_, ?_,
    fun l => ?_⟩
  · rw [hqo]
    exact filter_not_contains_singleton o.pieces p
  · rw [huw, withOld_rest, hwv]
  · rw [huw]
    exact withOld_sregs_congr (by rw [hwv]) ..
  · rw [huw]
    refine (withOld_lane w ..).trans ?_
    rw [withOld_lane, hwv]
    rfl

end

/-! ## The events -/

section
variable {s : State} {o : Op} {k : Nat} {ty : Fmt} {n : Nat} {dst : Option Operand} {p : Piece} (ho : s.op? o.id = some o)
  (hk : o.kind = .atomic k ty n dst) (hmay : s.mayPerform o p true = true)
include ho hk hmay

theorem storeArrival_atomic {g : Nat} (hp : s.coh.poison = []) (hf : s.coh.flips = []) (hpart : o.pieces.filter (·.grp == g) = [p])
    (hturn : o.lease ≠ 0 ∨ o.pieces.head? = some p) (hl : ∀ r, p.loc ≠ .host r) :
    exec (.storeArrival o.id g) s = .next (((s.atomicPiece o k ty dst p).donePieces o.id [p]).closeWaited o.id) := by
  have hwait : (o.lease == 0 && o.pieces.head? != some p) = false := by
    obtain h | h := hturn <;> simp [h]
  show execStoreArrival o.id g s = _
  unfold execStoreArrival
  simp only [ho, hk, hpart, hwait, checkPieces_clean hp hf, poisoned_clean hp]
  cases hloc : p.loc with
  | host r => exact absurd hloc (hl r)
  | _ => simp [hmay]

variable (hhead : o.hostHead = some p) (hw : s.hostWrites o false = false)
include hhead hw

theorem hostAtomic_success : exec (.hostAtomicCompletion o.id .success) s =
    .next ((((s.atomicPiece o k ty dst p).onOp o.id fun q => { q with issued := s.now, csys := s.now }).donePieces o.id [p]).closeWaited o.id) := by
  show execHostAtomicCompletion o.id .success s = _
  simp [execHostAtomicCompletion, ho, hk, hhead, hmay, hw]

theorem hostAtomic_unsupported : exec (.hostAtomicCompletion o.id .unsupported) s = .next (s.failAtomic o p cHostAtomic) := by
  show execHostAtomicCompletion o.id .unsupported s = _
  simp [execHostAtomicCompletion, ho, hk, hhead, hmay, hw]

theorem hostAtomic_error : exec (.hostAtomicCompletion o.id .error) s = .next (s.failAtomic o p cProtection) := by
  show execHostAtomicCompletion o.id .error s = _
  simp [execHostAtomicCompletion, ho, hk, hhead, hmay, hw]

end

theorem completionTimeout_next {s : State} {o : Op} {p : Piece} (ho : s.op? o.id = some o) (hhead : o.hostHead = some p)
    (hlate : o.issued + 50000000 ≤ s.now) : exec (.completionTimeout o.id) s = .next (s.failAtomic o p cProtection) := by
  show execCompletionTimeout o.id s = _
  simp [execCompletionTimeout, ho, hhead, hlate]

end Sys2Proof.Machine
end

section
/-!
PROOFS. Loads return (R61, R64, R81, R165), and codebooks (R206); for O36.
-/

namespace Sys2Proof.Machine

/-! ## An operation's values -/

theorem lookup_filter_ne {α : Type} (xs : List (Nat × α)) {a b : Nat} (h : b ≠ a) : (xs.filter (·.1 != a)).lookup b = xs.lookup b := by
  induction xs with
  | nil => rfl
  | cons x xs ih =>
    obtain ⟨k, y⟩ := x
    by_cases hk : k = a
    · simp [hk, List.lookup_cons, ih, beq_false_of_ne h]
    · simp [hk, List.lookup_cons, ih]

theorem lookup_filter_self {α : Type} (xs : List (Nat × α)) (a : Nat) : (xs.filter (·.1 != a)).lookup a = none := by
  simp only [List.lookup_eq_none_iff, List.mem_filter, bne_iff_ne]
  exact fun y hy => hy.2.symm

theorem take_val (o : Op) (p : Piece) (bs : List Byte) (t l : Nat) :
    (o.take p bs t).val l = if l = p.lane then o.val p.lane + numberOf bs * 2 ^ (8 * p.off) else o.val l := by
  simp only [Op.take, Op.setVal, Op.val, List.lookup_append]
  split
  · next h => simp [h, lookup_filter_self]
  · next h => simp [lookup_filter_ne _ h, List.lookup_cons, beq_false_of_ne h]

/-! ## One piece read -/

theorem fetchLine_coh (s : State) (col quad line lease : Nat) (hint : Hint) :
    ∃ c, s.fetchLine col quad line lease hint = { s with coh := c } := by
  unfold State.fetchLine
  split
  · exact ⟨s.coh, rfl⟩
  · next t h =>
    have ht : ∃ c, t = { s with coh := c } := by
      unfold State.grant at h
      dsimp only at h
      split at h
      · cases h
      · exact ⟨_, (Option.some.inj h).symm⟩
    obtain ⟨c, rfl⟩ := ht
    split <;> exact ⟨_, rfl⟩

theorem seesArrival_arrived (v : Convoy) (p : Piece) :
    v.seesArrival p = { v with perf := (v.seesArrival p).perf, arrived := (v.seesArrival p).arrived } ∧
      ((v.seesArrival p).arrived = v.arrived ∨ (v.seesArrival p).arrived = []) := by
  unfold Convoy.seesArrival
  split
  · exact ⟨rfl, .inr rfl⟩
  · exact ⟨rfl, .inl rfl⟩

theorem beforeArrival_none {s : State} {o : Op} {p : Piece} {v : Convoy} (hv : s.convoy? o.col o.cv = some v) (ha : v.arrived = []) :
    s.beforeArrival o p = s.peekBytes .spad p.addr p.n := by
  simp [State.beforeArrival, hv, ha, State.peekBytes, State.peek]

/-- What reading one piece leaves: nothing of the memories or the pending operations changes, and of the convoy the event counts and
what its latest arrival left. -/
structure ReadBy (s t : State) (o : Op) (v : Convoy) : Prop where
  rest : ∃ C coh, t = { s with cols := C, coh := coh }
  convoy : ∃ w : Convoy, t.convoy? o.col o.cv = some w ∧ w = { v with perf := w.perf, arrived := w.arrived } ∧
    (w.arrived = v.arrived ∨ w.arrived = [])

/-- R61, R64, R97: a piece that hits no copy reads the place it lies in. -/
theorem readPiece_bare {s : State} {o : Op} {p : Piece} {v : Convoy} {evicted : Bool} (hv : s.convoy? o.col o.cv = some v)
    (hc : s.copyFor o p evicted = none) (ha : evicted = true → v.arrived = []) :
    ∃ k t, s.readPiece o p evicted false = (s.peekBytes p.loc p.addr p.n, k, t) ∧ (p.loc = .dev → k = s.keptTime (lineOf p.addr)) ∧
      ReadBy s t o v := by
  have hself : ReadBy s s o v := ⟨⟨_, _, rfl⟩, v, hv, rfl, .inl rfl⟩
  unfold State.readPiece
  cases hl : p.loc with
  | dev =>
    simp only [hc, Bool.false_eq_true, if_false]
    refine ⟨_, _, rfl, fun _ => rfl, ?_⟩
    obtain ⟨coh, h⟩ := fetchLine_coh s o.col o.quad (lineOf p.addr) o.lease o.hint
    rw [h]
    exact ⟨⟨_, coh, rfl⟩, _, (convoy_onIssuer _ o _).trans (congrArg _ hv), rfl, .inl rfl⟩
  | spad =>
    cases evicted with
    | true => exact ⟨0, s, by simp only [if_true, beforeArrival_none hv (ha rfl)], nofun, hself⟩
    | false =>
      obtain ⟨hrest, harr⟩ := seesArrival_arrived v p
      exact ⟨0, _, rfl, nofun, ⟨_, _, rfl⟩, _, (convoy_onIssuer _ o _).trans (congrArg _ hv), hrest, harr⟩
  | _ => exact ⟨0, s, rfl, nofun, hself⟩

/-- What a load's or codebook's event of one piece leaves, before its record is taken off. -/
structure Loaded (s t : State) (o : Op) (v : Convoy) (p : Piece) : Prop where
  rest : ∃ C coh ops, t = { s with cols := C, coh := coh, ops := ops }
  op : ∃ q, t.op? o.id = some q ∧ q = { o with vals := q.vals, comp := q.comp } ∧
    ∀ l, q.val l = if l = p.lane then o.val p.lane + numberOf (s.peekBytes p.loc p.addr p.n) * 2 ^ (8 * p.off) else o.val l
  convoy : ∃ w : Convoy, t.convoy? o.col o.cv = some w ∧
    w = { v with ctdev := w.ctdev, ctsys := w.ctsys, perf := w.perf, arrived := w.arrived } ∧ (w.arrived = v.arrived ∨ w.arrived = []) ∧
    (p.loc = .dev → s.keptTime (lineOf p.addr) ≤ w.ctdev) ∧ (p.loc.isSys = true → s.now ≤ w.ctsys)

/-- R80, R82, R83: the acknowledgement point taken up. -/
theorem ackNow_convoy (s : State) (o : Op) (l : Loc) : (s.ackNow o l).convoy? o.col o.cv =
    (s.convoy? o.col o.cv).map fun v => { v with ctsys := if l.isSys then max v.ctsys s.now else v.ctsys } := by
  unfold State.ackNow
  split
  · exact convoy_onIssuer ..
  · exact Option.map_id'.symm

theorem readPieces_loaded {s : State} {o : Op} {p : Piece} {v : Convoy} {evicted : Bool} (ho : s.op? o.id = some o)
    (hv : s.convoy? o.col o.cv = some v) (hc : s.copyFor o p evicted = none) (ha : evicted = true → v.arrived = []) :
    Loaded s (s.readPieces o.id evicted [p]) o v p := by
  obtain ⟨k, t, hr, hk, ⟨C, coh, hrest⟩, w, hw, hwv, harr⟩ := readPiece_bare hv hc ha
  have heq : s.readPieces o.id evicted [p] =
      (((t.onOp o.id fun o => o.take p (s.peekBytes p.loc p.addr p.n) k)).takeTime o k).ackNow o p.loc := by
    simp [State.readPieces, List.zipIdx_cons, ho, hr]
  rw [heq]
  refine ⟨?_, ?_, ?_⟩
  · rw [hrest]
    unfold State.ackNow
    split <;> exact ⟨_, _, _, rfl⟩
  · have hop : t.op? o.id = some o := (op?_of_ops (by rw [hrest]) o.id).trans ho
    refine ⟨_, ?_, rfl, take_val o p _ k⟩
    refine Eq.trans (op?_of_ops (s := t.onOp o.id _) ?_ o.id) ((op?_onOp t o.id (f := fun o => o.take p (s.peekBytes p.loc p.addr p.n) k)
      fun _ => rfl).trans (congrArg _ hop))
    unfold State.ackNow
    split <;> rfl
  · refine ⟨_, (ackNow_convoy ..).trans (congrArg _ ((convoy_onIssuer ..).trans (congrArg _ hw))), ?_, ?_, ?_, ?_⟩
    · rw [hwv]
    · exact harr
    · exact fun hdev => hk hdev ▸ le_max_right ..
    · intro hsys
      have hnow : t.now = s.now := by rw [hrest]; rfl
      simp only [hsys, if_true]
      exact hnow ▸ le_max_right ..

/-! ## The end of a load -/

theorem finishLoad_lanes {conv : LoadConv} (hc : ∀ t b, conv ≠ .summary t b) (s : State) (o : Op) (r : BitVec 7) :
    s.finishLoad o conv (.v r) = s.writeLanes o (.v r) (conv.value 0).1 false fun l a =>
      a.setWideReg r.toNat (conv.value 0).1 (conv.value (o.val l)).2 := by
  cases conv with
  | summary t b => exact absurd rfl (hc t b)
  | _ => rfl

/-- R93, R165: the destination written, the counter lowered, and the operation gone. -/
def State.loadOver (t : State) (o : Op) (conv : LoadConv) (r : BitVec 7) : State :=
  (((t.dropOp o.id).finishLoad o conv (.v r)).onIssuer o fun v => { v with loads := v.loads - 1 }).settle

section
variable (t : State) (o : Op) {conv : LoadConv} (hc : ∀ t b, conv ≠ .summary t b) (r : BitVec 7)
include hc

theorem loadOver_convoy : (t.loadOver o conv r).convoy? o.col o.cv = (t.convoy? o.col o.cv).map fun v =>
    { v.onLanes o.lanes (fun l a => a.setWideReg r.toNat (conv.value 0).1 (conv.value (o.val l)).2) with loads := v.loads - 1 } := by
  rw [State.loadOver, settle_convoy, convoy_onIssuer, finishLoad_lanes hc, convoy_writeLanes, Option.map_map]
  rfl

theorem loadOver_rest : (t.loadOver o conv r).store = { t.store with istore := (t.loadOver o conv r).store.istore } ∧
    (t.loadOver o conv r).obj = t.obj ∧ (t.loadOver o conv r).op? o.id = none := by
  rw [State.loadOver, settle_spec, finishLoad_lanes hc]
  obtain ⟨C, coh, h⟩ := writeLanes_rest (t.dropOp o.id) o (.v r) (conv.value 0).1 false fun l a =>
    a.setWideReg r.toNat (conv.value 0).1 (conv.value (o.val l)).2
  rw [h]
  exact ⟨rfl, rfl, op?_dropOp ..⟩

end

/-- The pieces of an event taken off a load. -/
def Op.without (o : Op) (g : Nat) : Op := { o with pieces := o.pieces.filter (·.grp != g) }

section
variable {s : State} {o : Op} {p : Piece} {v : Convoy} {evicted : Bool} {g : Nat} (ho : s.op? o.id = some o)
  (hp : s.coh.poison = []) (hf : s.coh.flips = []) (hc : s.copyFor o p evicted = none) (hmay : s.mayPerform o p false = true)
include ho hp hf hc hmay

/-- R93: an event of one piece that hits no copy and reads no stored error is read, and with the last one the load is over. -/
theorem loadReturn_next {conv : LoadConv} {r : BitVec 7} (hk : o.kind = .load conv (.v r)) (hpart : o.pieces.filter (·.grp == g) = [p])
    (hown : evicted = true → s.owned p = false) : ∃ fw, ∀ q, (({ s with fw := fw } : State).readPieces o.id evicted [p]).op? o.id = some q →
      q = { o with vals := q.vals, comp := q.comp } →
      exec (.loadReturn o.id g evicted) s = .next (
        if (q.without g).pieces.isEmpty
        then ((({ s with fw := fw } : State).readPieces o.id evicted [p]).onOp o.id (·.without g)).loadOver (q.without g) conv r
        else (({ s with fw := fw } : State).readPieces o.id evicted [p]).onOp o.id (·.without g)) := by
  obtain ⟨fw, hfw⟩ := readied_fw hp hf o [p] evicted (peersOf [p])
  refine ⟨fw, fun q hq hqo => ?_⟩
  obtain ⟨vals, comp, rfl⟩ : ∃ vals comp, q = { o with vals := vals, comp := comp } := ⟨_, _, hqo⟩
  have hclean : ({ s with fw := fw } : State).readsPoison o evicted p = false := by
    rw [State.readsPoison, show ({ s with fw := fw } : State).copyFor o p evicted = none from hc]
    exact poisoned_clean hp p
  have hown' : (evicted && s.owned p) = false := by
    cases evicted with
    | false => rfl
    | true => exact hown rfl
  have hq' := (op?_onOp (({ s with fw := fw } : State).readPieces o.id evicted [p]) o.id
    (f := fun o => { o with pieces := o.pieces.filter (·.grp != g) }) fun _ => rfl).trans (congrArg _ hq)
  show execLoadReturn o.id g evicted s = _
  unfold execLoadReturn
  simp only [ho, hk, hpart, hfw, List.isEmpty_cons, List.all_cons, List.all_nil, List.any_cons, List.any_nil, hmay, hown', Bool.and_true,
    Bool.not_true, Bool.or_false, Bool.false_eq_true, if_false, List.find?_cons, hclean, List.find?_nil, hq',
    Option.map_some, Op.without]
  split <;> rfl

end

/-! ## A codebook read (R206) -/

theorem numberOf_drop (k : Nat) (bs : List Byte) : numberOf (bs.drop k) = numberOf bs / 256 ^ k := by
  induction k generalizing bs with
  | zero => simp
  | succ k ih =>
    cases bs with
    | nil => simp [numberOf]
    | cons b bs =>
      have hb : b.toNat < 256 := b.isLt
      have hcons : numberOf (b :: bs) = b.toNat + 256 * numberOf bs := rfl
      rw [List.drop_succ_cons, ih, hcons, Nat.pow_succ', ← Nat.div_div_eq_div_mul]
      congr 1
      omega

theorem numberOf_take (k : Nat) (bs : List Byte) : numberOf (bs.take k) = numberOf bs % 256 ^ k := by
  induction k generalizing bs with
  | zero => simp [numberOf, Nat.mod_one]
  | succ k ih =>
    cases bs with
    | nil => simp [numberOf]
    | cons b bs =>
      have hb : b.toNat < 256 := b.isLt
      have htake : numberOf ((b :: bs).take (k + 1)) = b.toNat + 256 * numberOf (bs.take k) := rfl
      have hcons : numberOf (b :: bs) = b.toNat + 256 * numberOf bs := rfl
      rw [htake, ih, hcons, Nat.pow_succ', Nat.mod_mul]
      have hlow : (b.toNat + 256 * numberOf bs) % 256 = b.toNat := by omega
      have hhigh : (b.toNat + 256 * numberOf bs) / 256 = numberOf bs := by omega
      rw [hlow, hhigh]

/-- Two bytes of a number, as 16 bits of it. -/
theorem bitsOf_numberOf (bs : List Byte) (k : Nat) : bitsOf (numberOf bs) (16 * k) 16 = numberOf ((bs.drop (2 * k)).take 2) := by
  have hpow : (256 : Nat) ^ (2 * k) = 2 ^ (16 * k) := by
    rw [show (256 : Nat) = 2 ^ 8 from rfl, ← Nat.pow_mul]
    congr 1
    omega
  rw [numberOf_take, numberOf_drop, bitsOf, hpow]
  rfl

section
variable {s : State} {o : Op} {p : Piece} {v : Convoy} (ho : s.op? o.id = some o) (hv : s.convoy? o.col o.cv = some v)
  (hp : s.coh.poison = []) (hf : s.coh.flips = [])
include ho hv hp hf

/-- R64, R81, R93, R165: an event of one piece of a load, as it is read. -/
theorem load_returns {conv : LoadConv} {r : BitVec 7} {g : Nat} {evicted : Bool} (hk : o.kind = .load conv (.v r))
    (hconv : ∀ t b, conv ≠ .summary t b) (hpart : o.pieces.filter (·.grp == g) = [p]) (hmay : s.mayPerform o p false = true)
    (hc : s.copyFor o p evicted = none) (ha : evicted = true → s.owned p = false ∧ v.arrived = []) :
    let got := o.val p.lane + numberOf (s.peekBytes p.loc p.addr p.n) * 2 ^ (8 * p.off)
    let val (l : Nat) : Nat := if l = p.lane then got else o.val l
    ∃ t w, exec (.loadReturn o.id g evicted) s = .next t ∧ t.convoy? o.col o.cv = some w ∧
      t.store = { s.store with istore := t.store.istore } ∧ t.obj = s.obj ∧
      w = { v with lanes := w.lanes, loads := w.loads, ctdev := w.ctdev, ctsys := w.ctsys, perf := w.perf, arrived := w.arrived } ∧
      (w.arrived = v.arrived ∨ w.arrived = []) ∧
      (p.loc = .dev → s.keptTime (lineOf p.addr) ≤ w.ctdev) ∧ (p.loc.isSys = true → s.now ≤ w.ctsys) ∧
      (o.pieces = [p] → t.op? o.id = none ∧ w.loads = v.loads - 1 ∧
        ∀ l, w.lane l = if l ∈ o.lanes ∧ l < v.lanes.length then
          (v.lane l).setWideReg r.toNat (conv.value 0).1 (conv.value (val l)).2 else v.lane l) ∧
      (o.pieces ≠ [p] → w.loads = v.loads ∧ w.lanes = v.lanes ∧
        ∃ q, t.op? o.id = some q ∧ q.pieces = o.pieces.filter (·.grp != g) ∧ ∀ l, q.val l = val l) := by
  intro got val
  obtain ⟨fw, hnext⟩ := loadReturn_next (g := g) ho hp hf hc hmay hk hpart fun he => (ha he).1
  obtain ⟨⟨C, coh, ops, hrest⟩, ⟨q, hq, hqo, hval⟩, w, hw, hwv, harr, hdev, hsys⟩ :=
    readPieces_loaded (s := { s with fw := fw }) (evicted := evicted) ho hv hc fun he => (ha he).2
  have hexec := hnext q hq hqo
  generalize ({ s with fw := fw } : State).readPieces o.id evicted [p] = u at *
  obtain ⟨hmem, hgrp⟩ := mem_of_part hpart
  by_cases hone : o.pieces = [p]
  · have hlast : (q.without g).pieces.isEmpty = true := by
      rw [Op.without, hqo, hone]
      simp [hgrp]
    rw [if_pos hlast] at hexec
    obtain ⟨vals, comp, rfl⟩ : ∃ vals comp, q = { o with vals := vals, comp := comp } := ⟨_, _, hqo⟩
    obtain ⟨hstore, hobj, hgone⟩ := loadOver_rest (u.onOp o.id (·.without g)) (Op.without { o with vals := vals, comp := comp } g) hconv r
    have hover := loadOver_convoy (u.onOp o.id (·.without g)) (Op.without { o with vals := vals, comp := comp } g) hconv r
    have hu : (u.onOp o.id (·.without g)).store = s.store ∧ (u.onOp o.id (·.without g)).obj = s.obj := by
      rw [hrest]
      exact ⟨rfl, rfl⟩
    rw [hu.1] at hstore
    refine ⟨_, _, hexec, hover.trans (congrArg _ hw), hstore, hobj.trans hu.2, ?_, harr, hdev, hsys,
      fun _ => ⟨hgone, ?_, fun l => ?_⟩, fun h => absurd hone h⟩
    · rw [hwv]
      rfl
    · rw [hwv]
    · refine (lane_onLanes w o.lanes _ l).trans ?_
      have hlanes : w.lanes = v.lanes := by rw [hwv]
      have hlane : w.lane l = v.lane l := by rw [Convoy.lane, Convoy.lane, hlanes]
      rw [hlanes, hlane, show Op.val (Op.without { o with vals := vals, comp := comp } g) l = val l from hval l]
  · have hmore : (q.without g).pieces.isEmpty = false := by
      by_contra hnone
      refine hone ?_
      have hall : ∀ q ∈ o.pieces, (q.grp == g) = true := by
        rw [Op.without, hqo] at hnone
        simpa using hnone
      rw [← hpart, List.filter_eq_self.mpr hall]
    rw [if_neg (by simp [hmore])] at hexec
    have hop := (op?_onOp u o.id (f := (·.without g)) fun _ => rfl).trans (congrArg _ hq)
    refine ⟨_, w, hexec, hw, ?_, ?_, ?_, harr, hdev, hsys, fun h => absurd h hone, fun _ => ⟨?_, ?_, _, hop, ?_, hval⟩⟩
    · rw [hrest]; rfl
    · rw [hrest]; rfl
    · rw [hwv]
    · rw [hwv]
    · rw [hwv]
    · rw [hqo]; rfl

/-- R206: the only load of a slot's codebook read at one instant: its 32 bytes are the table's 16 values. -/
theorem codebook_reads {slot : Nat} (hk : o.kind = .codebook slot) (hps : o.pieces = [p]) (hlane : p.lane = 0) (hoff : p.off = 0)
    (hn : p.n = 32) (hzero : o.val 0 = 0) (hmay : s.mayPerform o p false = true) (hc : s.copyFor o p false = none)
    (honly : ∀ q ∈ s.ops, q.col = o.col → q.cv = o.cv → q.kind = .codebook slot → q = o) :
    ∃ t w b, exec (.codebookReady o.id) s = .next t ∧ t.op? o.id = none ∧ t.store = s.store ∧ t.convoy? o.col o.cv = some w ∧
      w.loads = v.loads - 1 ∧ w.lanes = v.lanes ∧ w.books.lookup slot = some b ∧ b.ready = true ∧
      b.table = (List.range 16).map fun k => BitVec.ofNat 16 (numberOf ((s.peekBytes p.loc p.addr 32).drop (2 * k) |>.take 2)) := by
  obtain ⟨fw, hfw⟩ := readied_fw hp hf o [p] false (peersOf [p])
  have hclean : ({ s with fw := fw } : State).readsPoison o false p = false := by
    rw [State.readsPoison, show ({ s with fw := fw } : State).copyFor o p false = none from hc]
    exact poisoned_clean hp p
  have hfirst : s.bookBefore o = false := by
    refine List.any_eq_false.mpr fun q hq h => ?_
    simp only [Bool.and_eq_true, beq_iff_eq, decide_eq_true_eq] at h
    obtain ⟨⟨⟨hcol, hcv⟩, hkind⟩, hseq⟩ := h
    rw [honly q hq hcol hcv (hkind.trans hk)] at hseq
    exact lt_irrefl _ hseq
  have hlast : (s.ops.any fun q => q.id != o.id && q.col == o.col && q.cv == o.cv && q.kind == .codebook slot) = false := by
    refine List.any_eq_false.mpr fun q hq h => ?_
    simp only [Bool.and_eq_true, beq_iff_eq, bne_iff_ne] at h
    obtain ⟨⟨⟨hid, hcol⟩, hcv⟩, hkind⟩ := h
    exact hid (congrArg Op.id (honly q hq hcol hcv hkind))
  obtain ⟨⟨C, coh, ops, hrest⟩, ⟨q, hq, -, hval⟩, w, hw, hwv, -⟩ :=
    readPieces_loaded (s := { s with fw := fw }) (evicted := false) ho hv hc nofun
  have hgot : q.val 0 = numberOf (s.peekBytes p.loc p.addr 32) := by
    rw [hval, if_pos hlane.symm, hlane, hzero, hoff, hn]
    simp
    rfl
  have hexec : exec (.codebookReady o.id) s = .next (((({ s with fw := fw } : State).readPieces o.id false [p]).dropOp o.id).onIssuer o fun v =>
      { v with loads := v.loads - 1
               books := (v.books.filter (·.1 != slot)) ++
                 [(slot, { table := (List.range 16).map fun k => BitVec.ofNat 16 (bitsOf (q.val 0) (16 * k) 16), ready := true })] }) := by
    show execCodebookReady o.id s = _
    unfold execCodebookReady
    simp only [ho, hk, hps, hfw, hfirst, List.all_cons, List.all_nil, hmay, Bool.and_true, Bool.not_true, Bool.or_false, Bool.false_eq_true,
      if_false, List.find?_cons, hclean, List.find?_nil, hq, hlast, Bool.not_false, Option.map_some, Option.getD_some]
  refine ⟨_, _, _, hexec, op?_dropOp .., ?_, (convoy_onIssuer ..).trans (congrArg _ hw), ?_, ?_,
    by rw [List.lookup_append, lookup_filter_self, Option.none_or, List.lookup_cons_self], rfl, ?_⟩
  · rw [hrest]; rfl
  · rw [hwv]
  · rw [hwv]
  · simp only [hgot, bitsOf_numberOf]

end

end Sys2Proof.Machine
end

section
/-!
PROOFS. Pending accesses performed (O36).
-/

namespace Sys2Proof.Machine

section
variable {s : State} {o : Op} {v : Convoy} (ho : s.op? o.id = some o) (hv : s.convoy? o.col o.cv = some v)
  (hp : s.coh.poison = []) (hf : s.coh.flips = [])
include ho

/-- R77: an event of one piece of a store, or of an element whose value is there, is performed. -/
theorem arrival_next {i : Instr} {g : Nat} {p : Piece} (hi : (i = .storeArrival o.id g ∧ o.kind = .store) ∨
      (i = .pushPerform o.id g ∧ (∃ q t f, o.kind = .push q t f) ∧ (o.vals.lookup p.lane).isSome = true))
    (hmay : s.mayPerform o p true = true) (hpart : o.pieces.filter (·.grp == g) = [p]) :
    exec i s = .next ((s.storePieces o [p]).donePieces o.id [p]) := by
  obtain ⟨rfl, hk⟩ | ⟨rfl, ⟨q, t, f, hk⟩, hval⟩ := hi
  · rw [storeArrival_store ho hk (by rw [hpart]; exact List.cons_ne_nil _ _) (by rw [hpart]; simpa using hmay), hpart]
  · rw [pushPerform_next ho hk (by rw [hpart]; exact fun q hq => List.mem_singleton.mp hq ▸ ⟨hval, hmay⟩), hpart]

/-- R80, R93: an access without pieces left, that its acknowledgement ends. -/
theorem storeAck_next (hps : o.pieces = []) (hi : o.kind = .store ∨ (∃ q t f, o.kind = .push q t f) ∨
      (o.lease ≠ 0 ∧ ∃ k ty n dst, o.kind = .atomic k ty n dst) ∨ (o.kind = .append ∧ o.comp ≤ s.now)) :
    exec (.storeAck o.id) s = .next (((s.acked o.peers).dropOp o.id).onIssuer o (·.closed o s.now)) := by
  show execStoreAck o.id s = _
  obtain hk | ⟨q, t, f, hk⟩ | ⟨hlease, k, ty, n, dst, hk⟩ | ⟨hk, hdue⟩ := hi
  · simp [execStoreAck, ho, hk, hps]
  · simp [execStoreAck, ho, hk, hps]
  · simp [execStoreAck, ho, hk, hps, hlease]
  · simp [execStoreAck, ho, hk, hps, hdue]

theorem plstMergeComplete_next (hps : o.pieces = []) (hk : o.kind = .plst) : exec (.plstMergeComplete o.id) s =
    .next ((s.dropOp o.id).onIssuer o fun v => { v with tileOps := v.tileOps - 1, ctdev := max v.ctdev o.comp }) := by
  show execPlstMergeComplete o.id s = _
  simp [execPlstMergeComplete, ho, hk, hps]

/-- R84, R173: one lane's atomic performed, at its home slice, bank or peer, or by the host. -/
theorem atomic_next {i : Instr} {g k n : Nat} {ty : Fmt} {dst : Option Operand} {p : Piece} (hv : s.convoy? o.col o.cv = some v)
    (hp : s.coh.poison = []) (hf : s.coh.flips = []) (hs : s.store.wf = true) (hk : o.kind = .atomic k ty n dst)
    (hfit : p.addr + p.n ≤ 2 ^ 52) (hast : ∀ j < p.n, s.inAst (p.addr + j) = false) (hmay : s.mayPerform o p true = true)
    (hi : (i = .storeArrival o.id g ∧ o.pieces.filter (·.grp == g) = [p] ∧ (o.lease ≠ 0 ∨ o.pieces.head? = some p) ∧
        (∀ r, p.loc ≠ .host r)) ∨
      (i = .hostAtomicCompletion o.id .success ∧ o.hostHead = some p ∧ s.hostWrites o false = false)) :
    ∃ t, exec i s = .next ((t.donePieces o.id [p]).closeWaited o.id) ∧ Atomic s t o v k ty dst p := by
  have hatomic := atomicPiece_atomic ho hv hp hf hs k ty dst hfit hast
  obtain ⟨rfl, hpart, hturn, hl⟩ | ⟨rfl, hhead, hw⟩ := hi
  · exact ⟨_, storeArrival_atomic ho hk hmay hp hf hpart hturn hl, hatomic⟩
  · exact ⟨_, hostAtomic_success ho hk hmay hhead hw, hatomic.reissued s.now⟩

include hv hp hf

/-- R63, R82: an event of a store that lies in host memory. -/
theorem host_posts {g : Nat} (hk : o.kind = .store) (hne : o.pieces.filter (·.grp == g) ≠ [])
    (hall : ∀ p ∈ o.pieces.filter (·.grp == g), s.mayPerform o p true = true ∧ ∃ r, p.loc = .host r) (hid : o.id < s.nextId) :
    ∃ t q u, exec (.storeArrival o.id g) s = .next t ∧ t.SameBut o v ∧ t.store = s.store ∧ t.op? o.id = some u ∧
      u.pieces = o.pieces.filter (!(o.pieces.filter (·.grp == g)).contains ·) ∧ s.now ≤ u.csys ∧ t.ops.getLast? = some q ∧
      q.kind = .posted ∧ q.seq = o.seq ∧ q.pieces = o.pieces.filter (·.grp == g) ∧
      ∀ p ∈ o.pieces.filter (·.grp == g), q.bytes p = bytesOf p.n (o.val p.lane / 2 ^ (8 * p.off)) := by
  have hexec := storeArrival_store ho hk hne fun p hm => (hall p hm).1
  generalize o.pieces.filter (·.grp == g) = ps at *
  obtain ⟨fw, hw⟩ := storePieces_host hp hf o hne fun p hm => (hall p hm).2
  rw [hw] at hexec
  have hop := (op?_onOp (({ s with fw := fw } : State).postHost o ps) o.id
    (f := fun o => { o with pieces := o.pieces.filter fun q => !ps.contains q }) fun _ => rfl).trans (congrArg _ (postHost_op? ps ho))
  exact ⟨_, _, _, hexec, (((State.ConvoysKept.of_cols rfl).trans (postHost_kept ps)).trans (.of_cols rfl)).same hv, rfl, hop, rfl,
    le_max_right .., postHost_last ps hid _, rfl, rfl, rfl, fun _ _ => rfl⟩

end

/-- Settles O36: each event by its own law. -/
theorem accessesPerformed : Obligations.AccessesPerformed := by
  unfold Obligations.AccessesPerformed
  intro s o c v ho hc hcv hp hf hs part same
  have hv : s.convoy? o.col o.cv = some v := convoy_of_columns hc hcv
  refine ⟨fun conv r g p evicted hk hconv hpart hmay hcopy ha => load_returns ho hv hp hf hk hconv hpart hmay hcopy ha,
    fun i g p hi hmay hpart hl hfit hast => ?_, fun g hk hne hall hid => host_posts ho hv hp hf hk hne hall hid,
    fun p r hk hps hl hturn => ⟨_, storeArrival_posted ho hk hturn, performPosted_one hs hps hl⟩,
    fun i g p k ty n dst hk hfit hast hmay hi => ?_, fun p hhead => ?_, fun hps hi => ?_, fun hps hk => ?_,
    fun p slot hk hps hlane hoff hn hzero hmay hcopy honly => codebook_reads ho hv hp hf hk hps hlane hoff hn hzero hmay hcopy honly⟩
  · obtain ⟨q, h⟩ := piece_arrives ho hv hp hf hs hl hfit hast
    exact ⟨_, q, arrival_next ho hi hmay hpart, h⟩
  · obtain ⟨t, hexec, hatomic⟩ := atomic_next ho hv hp hf hs hk hfit hast hmay hi
    obtain ⟨w, q, hputs, hop, hpieces, htime, hw, hrest, hsregs, hlane⟩ := hatomic.done
    exact ⟨_, w, q, hexec, hputs, hop, hpieces, htime, hw, hrest, hsregs.trans (withOld_sregs ..), fun l => (hlane l).trans (withOld_lane ..)⟩
  · have hfails {i : Instr} {code : BitVec 16} (hexec : exec i s = .next (s.failAtomic o p code)) : ∃ t : State, exec i s =
        .next (t.signal o.col o.cv o.pc (v.lanesAt o.pc) code (BitVec.ofNat 64 p.va) 4) ∧ t.op? o.id = none ∧ t.store = s.store ∧
        t.convoy? o.col o.cv = some (v.closed o s.now) := by
      obtain ⟨t, ht, h⟩ := failAtomic_signals hv p code
      exact ⟨t, hexec.trans (congrArg _ ht), h⟩
    refine ⟨fun hlate => hfails (completionTimeout_next ho hhead hlate), fun ⟨k, ty, n, dst, hk⟩ hmay hw => ⟨?_, ?_⟩⟩
    exacts [hfails (hostAtomic_unsupported ho hk hmay hhead hw), hfails (hostAtomic_error ho hk hmay hhead hw)]
  · have hacked : (s.acked o.peers).cols = s.cols ∧ (s.acked o.peers).store = s.store := by
      unfold State.acked
      split <;> exact ⟨rfl, rfl⟩
    obtain ⟨hgone, hstore, hw⟩ := closes hv hacked.1 hacked.2 (f := (·.closed o s.now)) rfl
    refine ⟨_, _, storeAck_next ho hps hi, hgone, hstore, hw, ?_⟩
    simp only [Convoy.closed, List.isEmpty_iff]
  · obtain ⟨hgone, hstore, hw⟩ := closes hv (t := s) rfl rfl (f := fun v => { v with tileOps := v.tileOps - 1, ctdev := max v.ctdev o.comp }) rfl
    exact ⟨_, _, plstMergeComplete_next ho hps hk, hgone, hstore, hw, rfl⟩

end Sys2Proof.Machine
end

section
/-!
PROOFS. Elements read ahead (O37).
-/

namespace Sys2Proof.Machine

/-! ## Translations where no error is stored -/

/-- Where `s` stores no error, `t` stores none, and each line has the completion time that it had. -/
structure State.SpotlessTo (s t : State) : Prop where
  same : s.coh.poison = [] → s.coh.flips = [] → t.coh.poison = [] ∧ t.coh.flips = [] ∧ t.coh.kept = s.coh.kept

namespace State.SpotlessTo
variable {s t u : State}

theorem refl (s : State) : s.SpotlessTo s := ⟨fun hp hf => ⟨hp, hf, rfl⟩⟩

theorem trans (h : s.SpotlessTo t) (h' : t.SpotlessTo u) : s.SpotlessTo u := ⟨fun hp hf => by
  obtain ⟨hp', hf', hk⟩ := h.same hp hf
  obtain ⟨hp'', hf'', hk'⟩ := h'.same hp' hf'
  exact ⟨hp'', hf'', hk'.trans hk⟩⟩

theorem grant {line : Nat} {h : Holder} {ends : Nat} (hg : s.grant line h ends = some t) : s.SpotlessTo t := by
  unfold State.grant at hg
  dsimp only at hg
  split at hg
  · cases hg
  · cases hg
    exact ⟨fun hp hf => ⟨hp, hf, rfl⟩⟩

theorem leaseWalk (s : State) (core ends : Nat) (entries : List Nat) : s.SpotlessTo (s.leaseWalk core ends entries).1 := by
  induction entries generalizing s with
  | nil => exact .refl s
  | cons a es ih =>
    unfold State.leaseWalk
    split
    · next t ht => exact (grant ht).trans (ih t)
    · exact ih s

theorem keepNear (s : State) (b : Via) (e : TlbEntry) : s.SpotlessTo (s.keepNear b e) := by
  unfold State.keepNear
  split
  · exact .refl s
  · exact ⟨fun hp hf => ⟨hp, hf, rfl⟩⟩

theorem keepWalk (s : State) (b : Via) (part ctx va leaf : Nat) (entries : List Nat) : s.SpotlessTo (s.keepWalk b part ctx va leaf entries) := by
  have h := leaseWalk s b.core s.walkEnds entries
  unfold State.keepWalk
  split
  · next t ht =>
    rw [ht] at h
    exact h
  · next t ht =>
    rw [ht] at h
    exact h.trans (State.SpotlessTo.trans (t := State.keepEntry t _) ⟨fun hp hf => ⟨hp, hf, rfl⟩⟩ (keepNear ..))

theorem checkWalk (s : State) (part va ptroot : Nat) : s.SpotlessTo (s.checkWalk part va ptroot) := ⟨fun hp hf => by
  have hsame : s.checkWalk part va ptroot = s :=
    List.foldlRecOn (motive := (· = s)) _ _ rfl fun t ht a _ => by rw [ht, checkBytes_clean hp hf]
  rw [hsame]
  exact ⟨hp, hf, rfl⟩⟩

theorem leafFor {b : Via} {part ctx va : Nat} {epoch : Option Nat} {l : Leaf} (h : s.leafFor b part ctx epoch va = .ok (l, t)) :
    s.SpotlessTo t := by
  unfold State.leafFor at h
  split at h
  · cases h
    exact .refl s
  · cases h
  · split at h
    · cases h
      exact .keepNear ..
    · split at h
      · cases h
      · dsimp only at h
        split at h
        · cases h
        · cases h
          exact (checkWalk ..).trans (keepWalk ..)

end State.SpotlessTo

/-- A translation leaves what the look-up of its leaf leaves. -/
theorem translate_leafFor {s t : State} {b : Via} {part ctx va : Nat} {epoch : Option Nat} {perm : Perm} {z : Trans}
    (h : s.translate b part ctx epoch va perm = .ok (z, t)) : ∃ l, s.leafFor b part ctx epoch va = .ok (l, t) := by
  unfold State.translate at h
  split at h
  · cases h
  · split at h
    · cases h
    · next l u hl =>
      refine ⟨l, hl.trans ?_⟩
      dsimp only at h
      split_ifs at h <;> cases h <;> rfl

theorem State.SpotlessTo.resolve1 {s t : State} {x : Ctx} {perm : Perm} {deny : Loc → Option (BitVec 16)} {w : Want} {p : Piece}
    (h : s.resolve1 x .global perm deny w = .ok (p, t)) : s.SpotlessTo t := by
  unfold State.resolve1 at h
  dsimp only at h
  split at h
  · cases h
  · split at h
    · cases h
    · next z u hz =>
      split at h
      · cases h
      · cases h
        obtain ⟨l, hl⟩ := translate_leafFor hz
        exact .leafFor hl

theorem State.SpotlessTo.resolve {s t : State} {x : Ctx} {perm : Perm} {deny : Loc → Option (BitVec 16)} {ws : List Want} {ps : List Piece}
    (h : s.resolve x .global perm deny ws = .ok (ps, t)) : s.SpotlessTo t := by
  induction ws generalizing s ps t with
  | nil =>
    cases h
    exact .refl s
  | cons w ws ih =>
    unfold State.resolve at h
    split at h
    · cases h
    · next p u hp =>
      split at h
      · cases h
      · next qs r hr =>
        cases h
        exact (State.SpotlessTo.resolve1 hp).trans (ih hr)

/-! ## One element fetched -/

/-- The memories and the columns are as before. -/
structure State.Aside (s t : State) : Prop where
  store : t.store = s.store
  cols : t.cols = s.cols

namespace State.Aside
variable {s t u : State}

theorem refl (s : State) : s.Aside s := ⟨rfl, rfl⟩

theorem trans (h : s.Aside t) (h' : t.Aside u) : s.Aside u := ⟨h'.store.trans h.store, h'.cols.trans h.cols⟩

theorem reads (h : s.ReadsTo t) : s.Aside t := by
  rw [h]
  exact ⟨rfl, rfl⟩

theorem foldl {α : Type} {f : State → α → State} (hf : ∀ t a, State.Aside t (f t a)) (l : List α) (s : State) : s.Aside (l.foldl f s) :=
  List.foldlRecOn (motive := fun t => s.Aside t) l f (refl s) fun t ht a _ => ht.trans (hf t a)

theorem meterLoc (s : State) (col : Nat) (loc : Loc) (n : Nat) : s.Aside (s.meterLoc col loc n) := by
  obtain ⟨fw, h⟩ := meterLoc_fw s col loc n
  rw [h]
  exact ⟨rfl, rfl⟩

theorem acked (s : State) (links : List Nat) : s.Aside (s.acked links) := by
  unfold State.acked
  split <;> exact ⟨rfl, rfl⟩

end State.Aside

/-- The pieces of an element read at one instant (R74): checked, counted, and answered. -/
def State.readElement (u : State) (x : Ctx) (ps : List Piece) : State :=
  (ps.foldl (fun t q => (t.checkBytes x.c.part q.loc q.addr q.n).meterLoc x.cur.col q.loc q.n) u).acked (peersOf ps)

/-- The leases under which the load engine holds the lines of an element (R94). -/
def State.leaseElement (t : State) (x : Ctx) (p : Port) (ps : List Piece) : State :=
  ps.foldl (fun (u : State) q =>
    if q.loc == .dev then (u.grant (lineOf q.addr) (.loads x.core) (u.now + x.lease p.hint)).getD u else u) t

theorem readElement_aside (u : State) (x : Ctx) (ps : List Piece) : u.Aside (u.readElement x ps) :=
  (State.Aside.foldl (fun t _ => (State.Aside.reads (checkBytes_reads t ..)).trans (.meterLoc ..)) ps u).trans (.acked ..)

theorem leaseElement_aside (t : State) (x : Ctx) (p : Port) (ps : List Piece) : t.Aside (t.leaseElement x p ps) := by
  refine .foldl (fun u q => ?_) ps t
  split
  · cases h : u.grant (lineOf q.addr) (.loads x.core) (u.now + x.lease p.hint) with
    | none => exact .refl u
    | some w => exact .reads (grant_reads h)
  · exact .refl u

section
variable {s : State} {x : Ctx} {p : Port} {e : Nat}

theorem fetchElement_bad {b : Bad} (hg : s.resolve x .global .read anyLoc (wants 0 (p.addr e) p.bytes) = .error b) :
    s.fetchElement x p e = some ⟨.bad b.code b.addr, 0, 0, s⟩ := by
  simp only [State.fetchElement, hg]

variable {u : State} {ps : List Piece} (hg : s.resolve x .global .read anyLoc (wants 0 (p.addr e) p.bytes) = .ok (ps, u))
include hg

/-- R82: an element in host memory is not read past a host write of the convoy. -/
theorem fetchElement_held (hw : s.passesPosted x.cur.col x.cur.cv ps [] = true) : s.fetchElement x p e = none := by
  simp only [State.fetchElement, hg, hw, if_true]

variable (hw : s.passesPosted x.cur.col x.cur.cv ps [] = false)
include hw

theorem fetchElement_poisoned {q : Piece} (hq : ps.find? (u.readElement x ps).poisoned = some q) :
    s.fetchElement x p e = some ⟨.bad cUncorrectable (BitVec.ofNat 64 q.va), 0, 0, u.readElement x ps⟩ := by
  unfold State.readElement at hq
  simp only [State.fetchElement, hg, hw, Bool.false_eq_true, if_false, hq]
  rfl

theorem fetchElement_value (hq : ps.find? (u.readElement x ps).poisoned = none) :
    s.fetchElement x p e = some
      ⟨.value (popValue p.ty (ps.foldl (fun n q => n + numberOf ((u.readElement x ps).peekBytes q.loc q.addr q.n) * 2 ^ (8 * q.off)) 0)),
        ps.foldl (fun m q => if q.loc == .dev then max m ((u.readElement x ps).keptTime (lineOf q.addr)) else m) 0,
        if ps.any (·.loc.isSys) then s.now else 0, (u.readElement x ps).leaseElement x p ps⟩ := by
  unfold State.readElement at hq
  simp only [State.fetchElement, hg, hw, Bool.false_eq_true, if_false, hq]
  rfl

/-- Whatever an element is found to be, the memories and the columns are as before. -/
theorem fetchElement_some : ∃ r, s.fetchElement x p e = some r ∧ s.Aside r.state := by
  have hread : s.Aside (u.readElement x ps) := (State.Aside.reads (resolve_reads hg)).trans (readElement_aside u x ps)
  cases hq : ps.find? (u.readElement x ps).poisoned with
  | some q => exact ⟨_, fetchElement_poisoned hg hw hq, hread⟩
  | none => exact ⟨_, fetchElement_value hg hw hq, hread.trans (leaseElement_aside ..)⟩

end

/-- R74, R94: an element of one piece, read where no error is stored: its value, its line's completion time, and the time of a host or
peer access. -/
theorem fetchElement_one {s u : State} {x : Ctx} {p : Port} {e : Nat} {q : Piece}
    (hg : s.resolve x .global .read anyLoc (wants 0 (p.addr e) p.bytes) = .ok ([q], u))
    (hw : s.passesPosted x.cur.col x.cur.cv [q] [] = false) (hoff : q.off = 0) (hp : s.coh.poison = []) (hf : s.coh.flips = []) :
    ∃ r, s.fetchElement x p e = some r ∧ r.elem = .value (popValue p.ty (numberOf (s.peekBytes q.loc q.addr q.n))) ∧
      (q.loc.isSys = true → r.sys = s.now) ∧ (q.loc = .dev → r.dev = s.keptTime (lineOf q.addr)) := by
  obtain ⟨hp', hf', hkept⟩ := (State.SpotlessTo.resolve hg).same hp hf
  obtain ⟨fw, hfw⟩ := meterLoc_fw u x.cur.col q.loc q.n
  obtain ⟨fw', hread⟩ : ∃ fw', u.readElement x [q] = { u with fw := fw' } := by
    rw [State.readElement, List.foldl_cons, List.foldl_nil, checkBytes_clean hp' hf', hfw, State.acked]
    split <;> exact ⟨_, rfl⟩
  have hnone : [q].find? (u.readElement x [q]).poisoned = none := by
    rw [hread]
    simp [poisoned_clean (t := { u with fw := fw' }) hp']
  have hstore : (u.readElement x [q]).store = s.store :=
    ((State.Aside.reads (resolve_reads hg)).trans (readElement_aside u x [q])).store
  refine ⟨_, fetchElement_value hg hw hnone, ?_, fun hsys => ?_, fun hdev => ?_⟩
  · simp [peekBytes_of_store hstore, hoff]
  · simp [hsys]
  · have hk : (u.readElement x [q]).keptTime (lineOf q.addr) = s.keptTime (lineOf q.addr) := by
      rw [hread]
      exact congrArg (lookupD 0 · (lineOf q.addr)) hkept
    simp [hdev, hk]

/-! ## The event -/

/-- An element that has come in, as the port of its convoy holds it. -/
def Convoy.buffered (v : Convoy) (n : Nat) (p : Port) (e : Nat) (r : Fetching) : Convoy :=
  { v.setPort n { p with buf := p.buf ++ [(e, r.elem)] } with ctdev := max v.ctdev r.dev, ctsys := max v.ctsys r.sys }

theorem setPort_port? (v : Convoy) (n : Nat) (p : Port) : (v.setPort n p).port? n = some p := by
  rw [Convoy.port?, Convoy.setPort, List.lookup_append, lookup_filter_self, Option.none_or, List.lookup_cons_self]

/-- The context that a load engine's fetch for a convoy works in. -/
def fetchCtx (s : State) (col cv : Nat) (c : Column) (v : Convoy) (r : Route) : Ctx :=
  { cur := ⟨col, cv, false, none, none⟩, c, v, r, h := State.wakeCtx.hdr, group := [], act := [], und := [], pc := 0, now := s.wall, pops := [] }

section
variable {s : State} {col cv n e : Nat} {c : Column} {v : Convoy} {r : Route} {p : Port} (hc : s.column? col = some c)
  (hv : c.cvs[cv]? = some v) (hr : s.route? c.part c.prog = some r) (hrun : c.phase = .running) (hn : n < 2)
  (hp : v.port? n = some p) (he : p.nextFetch = some e)
include hc hv hr hrun hn hp he

theorem readAheadFetch_waits (hf : s.fetchElement (fetchCtx s col cv c v r) p e = none) : exec (.readAheadFetch col cv n) s = .next s := by
  show execReadAheadFetch col cv n s = _
  simp only [fetchCtx, BitVec.ofNat_eq_ofNat] at hf
  simp [execReadAheadFetch, State.opCtx, hc, hv, hr, hrun, hn, hp, he, hf]

theorem readAheadFetch_keeps {f : Fetching} (hf : s.fetchElement (fetchCtx s col cv c v r) p e = some f) :
    exec (.readAheadFetch col cv n) s = .next (f.state.onConvoy col cv fun v => v.buffered n p e f) := by
  show execReadAheadFetch col cv n s = _
  simp only [fetchCtx, BitVec.ofNat_eq_ofNat] at hf
  simp [execReadAheadFetch, State.opCtx, hc, hv, hr, hrun, hn, hp, he, hf]
  rfl

end

/-- R82: what `State.passesPosted` finds of a read. -/
theorem passesPosted_iff {s : State} {col cv : Nat} {ps : List Piece} : s.passesPosted col cv ps [] = true ↔
    (∃ p ∈ ps, ∃ r, p.loc = .host r) ∧ ∃ o ∈ s.ops, o.kind = .posted ∧ o.col = col ∧ o.cv = cv := by
  have hhost : ps.any (·.loc.isHost) = true ↔ ∃ p ∈ ps, ∃ r, p.loc = .host r := by
    simp only [List.any_eq_true, isHost_iff]
  simp only [State.passesPosted, List.any_nil, Bool.false_and, Bool.or_false, List.any_eq_true, Bool.and_eq_true, beq_iff_eq]
  rw [← hhost, List.any_eq_true]
  tauto

/-- Settles O37: the fetch as `State.fetchElement` answers it. -/
theorem readAhead : Obligations.ReadAhead := by
  unfold Obligations.ReadAhead
  intro s col cv n e c v r p hc hv hr hrun hn hp he x got held
  have hcv : s.convoy? col cv = some v := convoy_of_columns hc hv
  refine ⟨fun ⟨q, u, hg, hhost, hposted⟩ => ?_, fun hheld => ?_⟩
  · exact readAheadFetch_waits hc hv hr hrun hn hp he (fetchElement_held hg (passesPosted_iff.mpr ⟨hhost, hposted⟩))
  · have hfree {q : List Piece} {u : State} (hg : got = .ok (q, u)) : s.passesPosted col cv q [] = false := by
      refine Bool.eq_false_iff.mpr fun h => hheld ?_
      obtain ⟨hhost, hposted⟩ := passesPosted_iff.mp h
      exact ⟨q, u, hg, hhost, hposted⟩
    obtain ⟨f, hf, haside⟩ : ∃ f, s.fetchElement x p e = some f ∧ s.Aside f.state := by
      cases hg : got with
      | error b => exact ⟨_, fetchElement_bad hg, .refl s⟩
      | ok z => exact fetchElement_some hg (hfree hg)
    refine ⟨_, v.buffered n p e f, f.elem, readAheadFetch_keeps hc hv hr hrun hn hp he hf, haside.store, ?_, rfl, setPort_port? .., le_max_left ..,
      le_max_left .., fun b hg => ?_, fun q u hg hoff hpoison hflips => ?_⟩
    · rw [convoy_onConvoy, convoy_cols haside.cols, hcv, Option.map_some]
    · rw [fetchElement_bad hg] at hf
      cases hf
      rfl
    · obtain ⟨f', hf', helem, hsys, hdev⟩ := fetchElement_one hg (hfree hg) hoff hpoison hflips
      obtain rfl : f = f' := Option.some.inj (hf.symm.trans hf')
      exact ⟨helem, fun h => hsys h ▸ le_max_right .., fun h => hdev h ▸ le_max_right ..⟩

end Sys2Proof.Machine
end

section
/-!
PROOFS. Fences and waits at issue (O23).
-/

namespace Sys2Proof.Machine

/-! ## What a fence waits for (R87) -/

theorem opsDrained_iff {s : State} {col cv : Nat} : s.opsDrained col cv = true ↔
    ∀ o ∈ s.ops, o.col = col ∧ o.cv = cv → o.kind = .posted ∨ o.pieces = [] := by
  simp only [State.opsDrained, List.all_eq_true, Bool.or_eq_true, Bool.not_eq_true', Bool.and_eq_false_iff, beq_eq_false_iff_ne, ne_eq,
    beq_iff_eq, List.isEmpty_iff]
  grind

theorem drained_iff {s : State} {col cv : Nat} : s.drained col cv = true ↔
    (∀ o ∈ s.ops, o.col = col ∧ o.cv = cv → o.kind = .posted ∨ o.pieces = []) ∧
      ∀ e ∈ s.eng.mx, e.col = col → e.cv = cv → 0 < e.left → e.work.rows = none := by
  rw [State.drained, Bool.and_eq_true, opsDrained_iff]
  simp

theorem opsComplete_iff {s : State} {x : Ctx} : s.opsComplete x = true ↔
    (∀ o ∈ s.ops, o.col = x.cur.col ∧ o.cv = x.cur.cv → o.kind = .posted ∨ o.comp ≤ s.now) ∧ x.v.ctdev ≤ s.now := by
  simp only [State.opsComplete, List.all_eq_true, Bool.or_eq_true, Bool.not_eq_true', Bool.and_eq_false_iff, beq_eq_false_iff_ne, ne_eq,
    beq_iff_eq, Bool.and_eq_true, decide_eq_true_eq]
  grind

theorem opsAcked_iff {s : State} {col cv : Nat} : s.opsAcked col cv = true ↔
    ∀ o ∈ s.ops, o.col = col ∧ o.cv = cv → o.kind ≠ .zeroRead ∧ o.peers = [] := by
  simp only [State.opsAcked, List.all_eq_true, Bool.or_eq_true, Bool.not_eq_true', Bool.and_eq_false_iff, beq_eq_false_iff_ne, ne_eq,
    bne_iff_ne, Bool.and_eq_true, List.isEmpty_iff]
  grind

/-- Arrival for every scope, completion too but for FENCE.col, and acknowledgement for FENCE.sys. -/
theorem fenceDone_iff {s : State} {x : Ctx} {scope : Nat} : s.fenceDone x scope = true ↔ s.drained x.cur.col x.cur.cv = true ∧
    (scope ≠ 1 → s.opsComplete x = true) ∧ (scope = 4 → s.opsAcked x.cur.col x.cur.cv = true) := by
  unfold State.fenceDone State.fenceDev
  by_cases h1 : scope = 1
  · simp [h1]
  · by_cases h4 : scope = 4 <;> simp [h1, h4, and_assoc]

/-! ## FENCE -/

/-- The state that a fence which waits leaves to its clause: the convoy's other groups wait for it (R88). -/
def Ctx.fencing (x : Ctx) (t : State) : State :=
  if x.v.wait.isSome then t else t.onConvoy x.cur.col x.cur.cv fun v => { v with fencing := some x.pc }

theorem fencing_livesAt {t : State} {y : Ctx} (h : t.LivesAt y) : (y.fencing t).LivesAt y := by
  unfold Ctx.fencing
  split
  exacts [h, h.onConvoy fun _ _ => rfl]

theorem State.LivesAt.stalls {i : Instr} {s u : State} {x y : Ctx} {body : Ctx → State → Effect} (h : u.LivesAt y) (hi : Issues i s x y)
    (he : exec i s = issue i (hdrOf i) body s) (hb : body y (s.begun y) = .stall u) : StallsAt i s x u := by
  obtain ⟨w, hw, -⟩ := h
  exact stalls_at hi he hb (issues_cur hi ▸ hw)

/-- An effect that leaves the state as it began, its clause ended or not. -/
theorem leaves_begun {i : Instr} {s : State} {x y : Ctx} (hi : Issues i s x y) {body : Ctx → State → Effect}
    (he : exec i s = issue i (hdrOf i) body s) (hb : body y (s.begun y) = .next (s.begun y) ∨ body y (s.begun y) = .last (s.begun y)) :
    Leaves i s x y.v :=
  leaves_next hi he hb (begun_wrote hi) fun _ => rfl

section
variable {f : RForm} {s : State} {x y : Ctx} (hi : Issues (.fence f) s x y) (hu : y.und = []) (ha : y.act ≠ [])
include hi hu ha

theorem fence_passes (hd : (s.begun y).fenceDone y f.subop.toNat = true) (hz : ¬(f.subop = 4 ∧ y.v.relaxedSent = true)) :
    Leaves (.fence f) s x { y.v.discard with fencing := none } := by
  refine leaves_put hi rfl ?_ rfl
  dsimp only
  rw [asTrue_plain hi hu, if_neg (by simp [ha]), if_neg (by simp [hd]), if_neg hz]

theorem fence_waits (hd : (s.begun y).fenceDone y f.subop.toNat = false) : StallsAt (.fence f) s x (y.fencing (s.begun y)) := by
  refine (fencing_livesAt (.begun hi)).stalls hi rfl ?_
  dsimp only
  rw [asTrue_plain hi hu, if_neg (by simp [ha]), if_pos (by simp [hd])]
  rfl

/-- R87: FENCE.sys after a relaxed write sends a zero-length host read, and waits for it. -/
theorem fence_sends (hd : (s.begun y).fenceDone y f.subop.toNat = true) (hz : f.subop = 4 ∧ y.v.relaxedSent = true) :
    StallsAt (.fence f) s x (y.fencing ((s.begun y).addOp y .zeroRead .default [] [] [] [])) := by
  have hl : ((s.begun y).addOp y .zeroRead .default [] [] [] []).LivesAt y := .kept (.begun hi) (.of_cols rfl)
  refine (fencing_livesAt hl).stalls hi rfl ?_
  dsimp only
  rw [asTrue_plain hi hu, if_neg (by simp [ha]), if_neg (by simp [hd]), if_pos hz]
  rfl
end

/-! ## WAITC, NAP and YIELD -/

theorem countersOk_iff {v : Convoy} {imm : Nat} : v.countersOk imm = true ↔
    v.loads ≤ bitsOf imm 0 6 ∧ v.stores ≤ bitsOf imm 8 6 ∧ v.copies ≤ bitsOf imm 16 6 ∧ v.tileOps ≤ bitsOf imm 24 6 := by
  simp [Convoy.countersOk, and_assoc]

theorem settleUnd_decided {x : Ctx} (hu : x.und = []) (t : State) : x.settleUnd t = t := by
  simp [Ctx.settleUnd, hu, State.tileEnds]

/-- Settles O23: what FENCE awaits by `fenceDone_iff`, what it leaves by `fence_passes`, `fence_waits` and `fence_sends`; the other
instructions by the one branch of their bodies that is taken. -/
theorem fencesAndWaits : Obligations.FencesAndWaits := by
  unfold Obligations.FencesAndWaits
  refine ⟨fun f s x y hi hp ha => ?_, fun f s x y hi hp ha => ?_, fun f s x y hi hp ha => ?_, fun f s x y hp => ⟨fun hi ha => ?_, fun hi => ?_⟩⟩
  · intro own arrived complete acked gone waits
    have hgone : (s.begun y).fenceDone y f.subop.toNat = true ↔ gone := by
      have hsub (n : Nat) (h : n < 64) : f.subop.toNat = n ↔ f.subop = BitVec.ofNat 6 n := by
        rw [← BitVec.toNat_inj, BitVec.toNat_ofNat, Nat.mod_eq_of_lt h]
      rw [fenceDone_iff, drained_iff, opsComplete_iff, opsAcked_iff, Ne, hsub 1 (by decide), hsub 4 (by decide)]
      rfl
    refine ⟨fun hg hz => ?_, fun hg => ?_, fun hg hsys hz => ?_⟩
    · exact fence_passes hi hp.decided ha (hgone.mpr hg) hz
    · exact fence_waits hi hp.decided ha (Bool.eq_false_iff.mpr (mt hgone.mp hg))
    · exact fence_sends hi hp.decided ha (hgone.mpr hg) ⟨hsys, hz⟩
  · intro n gone
    have hb := @countersOk_iff y.v f.imm.toNat
    refine ⟨fun hg => leaves_begun hi rfl (.inr ?_), fun hg => waits_in hi rfl ?_⟩
    · simp [asTrue_plain hi hp.decided, hb.mpr hg]
    · dsimp only
      rw [asTrue_plain hi hp.decided, if_neg (by simp [ha, Bool.eq_false_iff.mpr (mt hb.mp hg)])]
  · refine ⟨fun h0 => leaves_begun hi rfl (.inr ?_), fun h0 => waits_in hi rfl ?_⟩
    · simp [h0]
    · dsimp only
      rw [asTrue_plain hi hp.decided, if_neg (by simpa [ha] using h0)]
      rfl
  · refine leaves_next hi rfl (.inr ?_) (wrote_put (begun_wrote hi) (issues_cur hi) _) fun _ => rfl
    simp [ha, settleUnd_decided hp.decided]
    rfl
  · exact leaves_begun hi rfl (.inl (congrArg Effect.next (settleUnd_decided hp.decided _)))

end Sys2Proof.Machine
end

section
/-!
PROOFS. Instructions that read state (O13).
-/

namespace Sys2Proof.Machine

/-! ## Results of the shared `Ctx.retire` -/

section
variable {i : Instr} {s : State} {x y : Ctx} (hi : Issues i s x y) {body : Ctx → State → Effect}
  (he : exec i s = issue i (hdrOf i) body s) {a : Operand} {k : Nat} {kind : ResKind} {val : Nat → IVal}
include hi he

/-- In element mode a result that is no push is written, and nothing else changes (R111). -/
theorem retire_leaves (hb : body y (s.begun y) = y.retire (s.begun y) a k kind val) (hp : Plain y) (ha : notPort a = true) :
    Leaves i s x (y.gets a k fun l => (val l).lo) := by
  obtain ⟨t, ht, hw⟩ := retire_wrote hi ha hp.decided k kind val
  rw [← writeReg_plain hp]
  exact leaves_next hi he (.inl (hb.trans ht)) hw fun l => writeReg_live y a k kind val l

/-- A result whose destination is a write port is pushed (R75). -/
theorem retire_pushes {n : BitVec 2} (hb : body y (s.begun y) = y.retire (s.begun y) (.q n) k kind val) :
    match (s.begun y).push y n.toNat (some fun l => (val l).lo) none with
    | .ok r => Goes i s x (r.1.put y r.2)
    | .error b => Faults i s x (s.begun y) y.group b.code b.addr b.access := by
  rw [Ctx.retire] at hb
  cases hpush : (s.begun y).push y n.toNat (some fun l => (val l).lo) none with
  | error b => exact faults_of hi he (by rw [hb, hpush])
  | ok r =>
    obtain ⟨u, v⟩ := r
    have hu : u.convoy? y.cur.col y.cur.cv = some y.v := by
      rw [push_convoy hpush, issues_cur hi]
      exact begun_convoy hi
    exact goes_put hi he (by rw [hb, hpush]) hu (push_lanes hpush)
end

/-- R235, R236, R225: an instruction whose result, in element mode, goes through `Ctx.retire`. -/
theorem computes_of_retire {i : Instr} {body : Ctx → State → Effect} (he : ∀ s, exec i s = issue i (hdrOf i) body s) {a : Operand} {k : Nat}
    {kind : ResKind} {val : Ctx → Nat → Nat}
    (hb : ∀ s x y, Issues i s x y → Plain y → body y (s.begun y) = y.retire (s.begun y) a k kind fun l => .pt (val y l)) :
    Computes i a k val :=
  fun ha s x y hi hp => retire_leaves hi (he s) (hb s x y hi hp) hp ha

theorem pushes_of_retire {i : Instr} {body : Ctx → State → Effect} (he : ∀ s, exec i s = issue i (hdrOf i) body s) {a : Operand} {k : Nat}
    {kind : ResKind} {val : State → Ctx → Nat → Nat}
    (hb : ∀ s x y, Issues i s x y → Plain y → body y (s.begun y) = y.retire (s.begun y) a k kind fun l => .pt (val (s.begun y) y l)) :
    Pushes i a val := by
  intro n s x y ha hi hp
  subst ha
  exact retire_pushes hi (he s) (hb s x y hi hp)

/-- In element mode `Ctx.retireU` is `Ctx.retire`: no lane is undecided. -/
theorem retireU_plain {x : Ctx} (hu : x.und = []) (s : State) (o : Operand) (k : Nat) (val : Nat → IVal) :
    x.retireU s o k val = x.retire s o k (.bits (k == 2) false) val := by
  have hx : { x with und := [] } = x := by rw [← hu]
  unfold Ctx.retireU
  rw [hx]
  split
  · next t ht => rw [settleUnd_decided hu, ht]
  · rfl

/-- The clock of the context is the state's. -/
theorem issues_now {i : Instr} {s : State} {x y : Ctx} (hi : Issues i s x y) : y.now = s.wall := by
  obtain ⟨-, -, -, -, -, -, -, hnow⟩ := issues_group hi
  rw [hnow]
  have hx := hi.ctx
  simp only [State.ctx, Option.bind_eq_bind, Option.bind_eq_some_iff] at hx
  obtain ⟨cur, -, c, -, v, -, r, -, l, -, hx⟩ := hx
  simp only [Option.pure_def, Option.some.injEq] at hx
  rw [← hx]

/-! ## MOVC -/

/-- R235: MOVC writes in each active lane LNK, or in trap mode TRPC. -/
theorem movc_leaves {f : RForm} {s : State} {x y : Ctx} (hi : Issues (.movc f) s x y) (hp : Plain y) :
    Leaves (.movc f) s x (y.v.onLanes y.act fun l a =>
      let p : PC := BitVec.ofNat 25 (y.src l f.b)
      if f.subop = 0 then { a with lnk := p } else if a.trap then { a with trpc := p } else a) := by
  refine leaves_next hi rfl (.inl ?_) (wrote_put (begun_wrote hi) (issues_cur hi) _) fun l => onLanes_live (fun l a => ?_) l
  · simp [hp.element, hp.decided, State.tileEnds, Ctx.src]
  · dsimp only
    split_ifs <;> rfl

/-! ## CKRD -/

/-- R207: the checksum words of a quadrant as CKRD.clear leaves them, where the last correction stood as `last`. -/
def State.cksumCleared (s : State) (quad : Nat) (last : Word) : State := (s.setCksum quad 0 0).setCksum quad 1 (last &&& 0x7FFFFFFF)

theorem Wrote.cksumCleared {s u : State} {x : Ctx} {v : Convoy} (hw : Wrote s u x v) (quad : Nat) (last : Word) :
    Wrote (s.cksumCleared quad last) (u.cksumCleared quad last) x v := by
  refine ⟨?_, hw.own.others, hw.own.own⟩
  conv_lhs => rw [hw.rest]
  rfl

/-- What CKRD, issued in `s`, leaves of the state in which its result has gone: the words of its quadrant cleared, where it clears and a
lane is active. -/
def Ctx.afterCkrd (y : Ctx) (f : RForm) (s u : State) : State :=
  if f.subop = 2 ∧ y.act ≠ [] then u.cksumCleared y.v.quad (s.cksum y.v.quad 1) else u

/-- R207: the word that CKRD reads. -/
def Ctx.ckrdWord (y : Ctx) (f : RForm) (s : State) : Nat := (s.cksum y.v.quad (if f.subop = 1 then 1 else 0)).toNat

section
variable {f : RForm} {s u : State} {y : Ctx} (hops : y.v.tileOps = 0)
include hops

theorem ckrd_next (ht : y.retire (s.begun y) f.a 1 (.bits false false) (fun _ => .pt (y.ckrdWord f s)) = .next u)
    (hu : u.store = s.store) :
    ∃ body, exec (.ckrd f) s = issue (.ckrd f) (hdrOf (.ckrd f)) body s ∧ body y (s.begun y) = .next (y.afterCkrd f s u) := by
  refine ⟨_, rfl, ?_⟩
  unfold Ctx.ckrdWord at ht
  simp only [hops, ne_eq, not_true_eq_false, if_false, State.cksum, State.begun_store]
  simp only [State.cksum] at ht
  simp only [ht, hu, Ctx.afterCkrd, Bool.not_eq_true', List.isEmpty_eq_false_iff]
  split_ifs <;> rfl

theorem ckrd_fault {b : Bad} (ht : y.retire (s.begun y) f.a 1 (.bits false false) (fun _ => .pt (y.ckrdWord f s)) = .fault (s.begun y) y.group b) :
    ∃ body, exec (.ckrd f) s = issue (.ckrd f) (hdrOf (.ckrd f)) body s ∧ body y (s.begun y) = .fault (s.begun y) y.group b := by
  refine ⟨_, rfl, ?_⟩
  unfold Ctx.ckrdWord at ht
  simp only [State.cksum] at ht
  simp only [hops, ne_eq, not_true_eq_false, if_false, State.cksum, State.begun_store, ht]

end

/-- A push changes no memory. -/
theorem push_store {s u : State} {x : Ctx} {q : Nat} {vals : Option (Nat → Nat)} {feed : Option Nat} {v : Convoy}
    (h : s.push x q vals feed = .ok (u, v)) : u.store = s.store := by
  simp only [State.push] at h
  split at h
  · cases h; rfl
  · split at h
    · cases h
    next hr =>
      cases h
      refine List.foldlRecOn (motive := fun t : State => t.store = s.store) _ _ ?_ fun t ht _ _ => ht
      rw [resolve_reads hr]

/-- R207: CKRD to a register. -/
theorem ckrd_leaves {f : RForm} {s : State} {x y : Ctx} (hi : Issues (.ckrd f) s x y) (hp : Plain y) (ha : notPort f.a = true)
    (hops : y.v.tileOps = 0) : LeavesIn (.ckrd f) s x (y.afterCkrd f s s) (y.gets f.a 1 fun _ => y.ckrdWord f s) := by
  obtain ⟨u, ht, hw⟩ := retire_wrote hi ha hp.decided 1 (.bits false false) fun _ => .pt (y.ckrdWord f s)
  obtain ⟨body, he, hb⟩ := ckrd_next hops ht (by rw [hw.rest])
  have hlive (l : Nat) := writeReg_live y f.a 1 (.bits false false) (fun _ => .pt (y.ckrdWord f s)) l
  rw [writeReg_plain hp] at hw hlive
  refine leaves_next hi he (.inl hb) ?_ hlive
  unfold Ctx.afterCkrd
  split
  exacts [hw.cksumCleared .., hw]

/-- R75, R207: CKRD to a write port. -/
theorem ckrd_pushes {f : RForm} {s : State} {x y : Ctx} {n : BitVec 2} (hi : Issues (.ckrd f) s x y) (ha : f.a = .q n)
    (hops : y.v.tileOps = 0) :
    match (s.begun y).push y n.toNat (some fun _ => y.ckrdWord f s) none with
    | .ok r => Goes (.ckrd f) s x (y.afterCkrd f s (r.1.put y r.2))
    | .error b => Faults (.ckrd f) s x (s.begun y) y.group b.code b.addr b.access := by
  cases hpush : (s.begun y).push y n.toNat (some fun _ => y.ckrdWord f s) none with
  | error b =>
    obtain ⟨body, he, hb⟩ := ckrd_fault (f := f) (s := s) (b := b) hops (by rw [ha]; simp only [Ctx.retire, IVal.pt, hpush])
    exact faults_of hi he hb
  | ok r =>
    obtain ⟨body, he, hb⟩ := ckrd_next (f := f) (s := s) (u := r.1.put y r.2) hops (by rw [ha]; simp only [Ctx.retire, IVal.pt, hpush])
      (push_store (s := s.begun y) (u := r.1) (v := r.2) hpush)
    have hr : r.1.convoy? y.cur.col y.cur.cv = some y.v := by
      rw [push_convoy hpush, issues_cur hi]
      exact begun_convoy hi
    refine goes_next hi he (.inl hb) (v := r.2) ?_ fun l => by rw [Convoy.lane, push_lanes hpush]; rfl
    rw [← issues_cur hi]
    unfold Ctx.afterCkrd
    split
    exacts [convoy_put hr r.2, convoy_put hr r.2]

/-! ## ACRD -/

/-- R70, R205: the number of the accumulator word. -/
theorem accWord_eq (y : Ctx) (f : XForm) (l : Nat) :
    y.accWord f l = tileIndex y.v.quad f.tile.toNat (bitsOf (y.uni f.b) 0 6) ((bitsOf (y.uni f.b) 8 6 + l) % 64) := by
  simp only [Ctx.accWord, tileIndex, rowElem]
  omega

/-- A state goes on to the next slot with the caches that the effect left. -/
theorem conclude_next_coh {i : Instr} {s u : State} {x y : Ctx} {v : Convoy} (hi : Issues i s x y) (hv : u.convoy? x.cur.col x.cur.cv = some v)
    (hl : ∀ l, (v.lane l).live = (y.v.lane l).live) : (x.conclude i s (.next u)).coh = u.coh := by
  obtain ⟨c, hc, hcv⟩ := convoy_of_column hv
  obtain ⟨l, hl⟩ := live_of_lanes hi hl
  obtain ⟨w, -, hs⟩ := moveGroup_steps hc hcv [] false false (.inl rfl) hl
  show ((u.stepClause x false).moveGroup x [] false).coh = _
  rw [hs.rest]

/-- Registers written leave the poison of accumulator words. -/
theorem acc_mem_putRegs {s : State} {x : Ctx} {o : Operand} {k n : Nat} {v : Convoy} (h : .acc n ∈ s.coh.poison) :
    .acc n ∈ (s.putRegs x o k v).coh.poison := by
  obtain ⟨C, hC⟩ := logRegs_cols s x.cur.col x.cur.cv (if (x.act ++ x.und).isEmpty then [] else operandRegs x.bounds o k)
  refine List.mem_filter.mpr ⟨?_, rfl⟩
  rw [hC]
  exact h

theorem acrd_next {f : XForm} {s u : State} {y : Ctx} (hfree : (s.eng.mx.any fun e => e.quad == y.v.quad && e.tile == f.tile.toNat) = false)
    (hu : s.unreadAcc (y.act.map (y.accWord f)) = false) (ht : y.retire (s.begun y) (.v f.reg) 1 (.bits false false)
      (fun l => .pt (lookupD 0 s.store.tiles (y.accWord f l)).toNat) = .next u) :
    ∃ body, exec (.acrd f) s = issue (.acrd f) (hdrOf (.acrd f)) body s ∧ body y (s.begun y) = .next (u.passAcc y f) := by
  refine ⟨_, rfl, ?_⟩
  have hu' : (s.begun y).unreadAcc (y.act.map (y.accWord f)) = false := hu
  dsimp only
  rw [State.begun_eng, hfree, if_neg (by decide), hu', if_neg (by decide), State.begun_store, ht]

section
variable {f : XForm} {s : State} {x y : Ctx} (hi : Issues (.acrd f) s x y)
  (hfree : (s.eng.mx.any fun e => e.quad == y.v.quad && e.tile == f.tile.toNat) = false)
include hi hfree

theorem acrd_corrects (hu : s.unreadAcc (y.act.map (y.accWord f)) = true) :
    StallsAt (.acrd f) s x ((s.begun y).readEccs y.c.part (EccWord.inAcc (y.act.map (y.accWord f)))) := by
  have hr : (s.begun y).ReadsTo ((s.begun y).readEccs y.c.part (EccWord.inAcc (y.act.map (y.accWord f)))) :=
    ReadsTo.foldl (fun t w => readEcc_reads t y.c.part w) _ _
  refine (State.LivesAt.kept (.begun hi) (.of_cols hr.cols)).stalls hi rfl ?_
  dsimp only
  rw [State.begun_eng, hfree, if_neg (by decide)]
  exact if_pos hu

variable (hu : s.unreadAcc (y.act.map (y.accWord f)) = false)
include hu

/-- R205: ACRD reads the accumulator words into the lanes' register, and their poison with them. -/
theorem acrd_leaves (hp : Plain y) :
    Leaves (.acrd f) s x (y.gets (.v f.reg) 1 fun l => (lookupD 0 s.store.tiles (y.accWord f l)).toNat) ∧
    ∀ l ∈ y.act, .acc (y.accWord f l) ∈ s.coh.poison → ∃ t, exec (.acrd f) s = .next t ∧
      .reg y.cur.col y.cur.cv l f.reg.toNat ∈ t.coh.poison := by
  obtain ⟨u, ht, hw⟩ := retire_wrote hi (a := .v f.reg) rfl hp.decided 1 (.bits false false)
    fun l => .pt (lookupD 0 s.store.tiles (y.accWord f l)).toNat
  obtain ⟨body, he, hb⟩ := acrd_next hfree hu ht
  have hlive (l : Nat) := writeReg_live y (.v f.reg) 1 (.bits false false) (fun l => .pt (lookupD 0 s.store.tiles (y.accWord f l)).toNat) l
  have hpass : Wrote s (u.passAcc y f) x _ := wrote_poison hw _
  refine ⟨?_, fun l hl hacc => ⟨_, he.trans (issue_gives hi body), ?_⟩⟩
  · rw [writeReg_plain hp] at hpass hlive
    exact leaves_next hi he (.inl hb) hpass hlive
  · obtain ⟨-, c, d, -, hd, -, -, hv⟩ := hpass.own
    rw [hb, conclude_next_coh hi (convoy_of_columns hd hv) hlive]
    have hkept : .acc (y.accWord f l) ∈ u.coh.poison := by
      cases ht
      exact acc_mem_putRegs hacc
    refine List.mem_append_right _ (List.mem_map_of_mem (List.mem_filter.mpr ⟨hl, ?_⟩))
    simpa using hkept

end

/-- Settles O13: each of the instructions gives one value to the shared `Ctx.retire`, but for MOVC, which writes counters. -/
theorem stateReads : Obligations.StateReads := by
  unfold Obligations.StateReads
  refine ⟨fun f => ⟨?_, ?_, ?_⟩, fun f s x y hi hp => movc_leaves hi hp, fun f s x y hp ha => ⟨fun hi => ?_, fun hi => ?_, fun hi hops => ?_⟩,
    fun f s x y n ha hi _ hops => ckrd_pushes hi ha hops, fun f => ?_, fun f s x y hi hp ha => ?_, fun f s x y hi hp hfree => ?_⟩
  · refine computes_of_retire (kind := .bits ((if f.subop.toNat ∈ [3, 6, 7] then 2 else 1) == 2) false) (fun _ => rfl) fun s x y hi hp => ?_
    dsimp only
    rw [asTrue_plain hi hp.decided]
    rfl
  · refine pushes_of_retire (k := if f.subop.toNat ∈ [3, 6, 7] then 2 else 1)
      (kind := .bits ((if f.subop.toNat ∈ [3, 6, 7] then 2 else 1) == 2) false) (fun _ => rfl) fun s x y hi hp => ?_
    dsimp only
    rw [asTrue_plain hi hp.decided]
    rfl
  · refine pushes_of_retire (k := 1) (kind := .bits false false) (fun _ => rfl) fun s x y hi hp => ?_
    dsimp only
    rw [asTrue_plain hi hp.decided]
  · rw [← issues_now hi]
    refine retire_leaves (kind := .bits true false) (val := fun _ => .pt y.now.toNat) hi rfl ?_ hp ha
    dsimp only
    rw [asTrue_plain hi hp.decided]
  · refine retire_leaves (kind := .bits false false) (val := fun _ => .pt (lookupD 0 y.v.perf f.subop.toNat).toNat) hi rfl ?_ hp ha
    dsimp only
    rw [asTrue_plain hi hp.decided]
  · have h := ckrd_leaves hi hp ha hops
    refine ⟨fun hn => ?_, fun h2 hact => ?_⟩
    · rwa [Ctx.afterCkrd, if_neg (by tauto)] at h
    · rwa [Ctx.afterCkrd, if_pos ⟨h2, hact⟩] at h
  · exact pushes_of_retire (fun _ => rfl) fun s x y hi hp => retireU_plain hp.decided ..
  · exact retire_leaves (val := fun _ => .pt (if y.uni f.b < 0xFFF then (s.begun y).ovlWord y.core y.c.part y.c.prog (y.uni f.b) else 0)) hi rfl
      (retireU_plain hp.decided ..) hp ha
  · intro word covers unread
    have hword : word = y.accWord f := funext fun l => (accWord_eq y f l).symm
    have hunread : unread = s.unreadAcc (y.act.map (y.accWord f)) := by rw [← hword]; rfl
    rw [hunread]
    refine ⟨fun hu => ?_, fun hu => ?_⟩
    · have h := acrd_corrects hi hfree hu
      rw [← hword] at h
      exact h
    · rw [hword]
      exact acrd_leaves hi hfree hu hp

end Sys2Proof.Machine
end

section
/-!
PROOFS. The matrix group at issue (O29).
-/

namespace Sys2Proof.Machine

/-! ## Entries posted -/

/-- R344: a counter of use raised changes the counters of use alone. -/
theorem meterCol_usage (s : State) (col k n : Nat) : ∃ us, s.meterCol col k n = { s with fw := { s.fw with usage := us } } := by
  unfold State.meterCol
  split <;> exact ⟨_, rfl⟩

/-- The entry that a group posts of its own (R196). -/
def Ctx.entry (y : Ctx) (s : State) (tile urg : Nat) (work : MxWork) : MxEntry :=
  { id := s.nextId, quad := y.v.quad, col := y.cur.col, cv := y.cur.cv, signers := [(y.cur.cv, y.pc)], tile, urg, work, left := work.passes,
    chunks := [], busy := s.now, recalled := false }

/-- Of everything but its columns, a posting changes the reservation table, the numbering and a counter of use. -/
theorem postOwn_rest (y : Ctx) (s : State) (tile urg : Nat) (work : MxWork) :
    y.postOwn (s.begun y) tile urg work =
      { s with cols := (y.postOwn (s.begun y) tile urg work).cols, nextId := s.nextId + 1
               fw := { s.fw with usage := (y.postOwn (s.begun y) tile urg work).fw.usage }
               eng := { s.eng with mx := s.eng.mx ++ [y.entry s tile urg work] } } := by
  obtain ⟨us, hm⟩ := meterCol_usage (s.begun y) y.cur.col 1 work.passes
  unfold Ctx.postOwn State.post
  rw [hm]
  rfl

theorem postOwn_convoy {y : Ctx} {t : State} {v : Convoy} (h : t.convoy? y.cur.col y.cur.cv = some v) (tile urg : Nat) (work : MxWork) :
    (y.postOwn t tile urg work).convoy? y.cur.col y.cur.cv = some { v with tileOps := v.tileOps + 1 } := by
  rw [Ctx.postOwn, convoy_forbid, convoy_onConvoy, post_convoy, h]
  rfl

/-- R332: after a posting the column may not roll back. -/
theorem forbidRollback_column {s : State} {col cv : Nat} {v : Convoy} (h : (s.forbidRollback col).convoy? col cv = some v) :
    ∃ c, (s.forbidRollback col).column? col = some c ∧ c.noRollback = true := by
  have hc := column_onColumn_same s col (fun c => { c with noRollback := true }) fun _ => rfl
  cases hs : s.column? col with
  | none =>
    rw [hs] at hc
    rw [State.convoy?, State.forbidRollback, hc] at h
    cases h
  | some c =>
    rw [hs] at hc
    exact ⟨_, hc, rfl⟩

/-- R196: a group posts one entry, or stalls while the reservation table is full. -/
theorem posts_entry {i : Instr} {s : State} {x y : Ctx} (hi : Issues i s x y) {body : Ctx → State → Effect}
    (he : exec i s = issue i (hdrOf i) body s) {tile urg : Nat} {work : MxWork}
    (hb : body y (s.begun y) = if (s.begun y).tableFull y.v.quad then .stall (s.begun y)
      else .next (y.postOwn (s.begun y) tile urg work)) :
    (16 ≤ (s.eng.mx.filter (·.quad == y.v.quad)).length → StallsAt i s x (s.begun y)) ∧
    (¬16 ≤ (s.eng.mx.filter (·.quad == y.v.quad)).length → ∃ u c, LeavesIn i s x u { y.v with tileOps := y.v.tileOps + 1 } ∧
      u = { s with cols := u.cols, nextId := s.nextId + 1, fw := { s.fw with usage := u.fw.usage }
                   eng := { s.eng with mx := s.eng.mx ++ [y.entry s tile urg work] } } ∧
      u.column? y.cur.col = some c ∧ c.noRollback = true) := by
  have hfull : (s.begun y).tableFull y.v.quad = true ↔ 16 ≤ (s.eng.mx.filter (·.quad == y.v.quad)).length := decide_eq_true_iff
  refine ⟨fun h => stalls_begun hi he (hb.trans (if_pos (hfull.mpr h))), fun h => ?_⟩
  have hv : (y.postOwn (s.begun y) tile urg work).convoy? y.cur.col y.cur.cv = some { y.v with tileOps := y.v.tileOps + 1 } :=
    postOwn_convoy (issues_cur hi ▸ begun_convoy hi) tile urg work
  obtain ⟨c, hc, hno⟩ := forbidRollback_column hv
  have hvx := issues_cur hi ▸ hv
  exact ⟨_, c, leavesIn_of_goes (goes_next hi he (.inl (hb.trans (if_neg (mt hfull.mp h)))) hvx fun _ => rfl) hvx, postOwn_rest .., hc, hno⟩

/-! ## MMA and MMAT -/

/-- No access of the convoy is still on its way (R85). -/
theorem begun_opsDrained {s : State} {y : Ctx}
    (h : ¬∃ o ∈ s.ops, o.col = y.cur.col ∧ o.cv = y.cur.cv ∧ o.kind ≠ .posted ∧ o.pieces ≠ []) :
    (s.begun y).opsDrained y.cur.col y.cur.cv = true := by
  refine opsDrained_iff.mpr fun o ho hown => ?_
  by_contra hn
  obtain ⟨hk, hp⟩ := not_or.mp hn
  exact h ⟨o, ho, hown.1, hown.2, hk, hp⟩

/-- R198: a convoy that joins the signers of a round with the work of the round, or with the first. -/
theorem sign_work {y : Ctx} {t : State} {n : Nat} {work : MxWork} {c : Column} (hc : t.column? y.cur.col = some c)
    (h : y.cur.cv ∉ (c.cvreg n).signers) (hs : ∀ w, (c.cvreg n).work = some w → sameWork work w = true) :
    ∃ r, t.sign y n (some work) = .signed (((t.onColumn y.cur.col fun d => d.setCvreg n r).onConvoy y.cur.col y.cur.cv
      fun v => { v with tileOps := v.tileOps + 1 }).complete y.cur.col n) := by
  unfold State.sign
  simp only [hc, List.contains_eq_mem, h, decide_false, Bool.false_eq_true, if_false, Option.isSome_some, if_true]
  cases hw : (c.cvreg n).work with
  | none => exact ⟨_, rfl⟩
  | some w => exact ⟨_, by simp only [hs w hw, Bool.not_true, Bool.false_eq_true, if_false]; rfl⟩

theorem sign_work_again {y : Ctx} {t : State} {n : Nat} {work : Option MxWork} {c : Column} (hc : t.column? y.cur.col = some c)
    (h : y.cur.cv ∈ (c.cvreg n).signers) : t.sign y n work = .again := by
  simp [State.sign, hc, h]

section
variable {y : Ctx} {t : State} {tri : Bool} {f : XForm} (hp : probeRanges y.c.banks 1 (y.mmaRanges f) = none)
include hp

/-- R201: an MMA that signs no round. -/
theorem startMma_own (hb : y.bookPending f = false) (hc : f.cven = false) (hd : t.drained y.cur.col y.cur.cv = true) :
    y.startMma t tri f = if t.tableFull y.v.quad then .stall t
      else .next (y.postOwn t f.tile.toNat f.urg.toNat (y.mmaWork tri f)) := by
  simp [Ctx.startMma, hp, hb, hc, hd]

variable (hc : f.cven = true)
include hc

/-- R198: an MMA that signs a round waits for the convoy's accesses and for a free entry. -/
theorem startMma_stalls (h : t.fenceDev y = false ∨ t.roundFull y f.cvn.toNat true = true) : y.startMma t tri f = .stall t := by
  unfold Ctx.startMma
  simp only [hp, hc, if_true]
  refine if_pos ?_
  obtain h | h := h <;> simp [h]

variable (hb : y.bookPending f = false) (hf : t.fenceDev y = true) (hr : t.roundFull y f.cvn.toNat true = false)
include hb hf hr

theorem startMma_signed {u : State} (hs : t.sign y f.cvn.toNat (some (y.mmaWork tri f)) = .signed u) : y.startMma t tri f = .last u := by
  simp [Ctx.startMma, hp, hc, hf, hb, hr, hs]

theorem startMma_again (hs : t.sign y f.cvn.toNat (some (y.mmaWork tri f)) = .again) :
    y.startMma t tri f = .wait t (.sign f.cvn.toNat (some (y.mmaWork tri f))) none := by
  simp [Ctx.startMma, hp, hc, hf, hb, hr, hs]
end

/-! ## The other instructions -/

/-- R204: a tile transfer whose rows lie in the scratchpad, after the convoy's earlier accesses. -/
theorem startTransfer_posts {y : Ctx} {t : State} {f : XForm} {e access : Nat} {work : Nat → Nat → MxWork} (ha : y.act ≠ [])
    (hd : t.opsDrained y.cur.col y.cur.cv = true) (hp : probeRanges y.c.banks access
      ((List.range 64).map fun r => (y.uni f.b + r * y.tileStride f e, 64 * e, 1)) = none) :
    y.startTransfer t f e access work = y.startTile t f (work (y.uni f.b) (y.tileStride f e)) := by
  simp [Ctx.startTransfer, ha, hp, hd]

theorem startTile_active {y : Ctx} {t : State} {f : XForm} {work : MxWork} (ha : y.act ≠ []) :
    y.startTile t f work = if t.tableFull y.v.quad then .stall t else .next (y.postOwn t f.tile.toNat f.urg.toNat work) :=
  if_neg (by simp [ha])

/-- R203: the bits that a lane's elements change, each with its lane. -/
theorem plstBits_lane (base k0 i w r l : Nat) : (plstBits base k0 i w r).map (fun b => (l, b)) =
    if i > 63 then [] else (List.range (32 / w)).flatMap fun p =>
      if k0 + p > 2047 then [] else (List.range w).map fun j =>
        (l, base + 512 * ((k0 + p) / 64 * w + j) + 8 * ((k0 + p) % 64), i, bitsOf r (w * p + (w - 1 - j)) 1) := by
  unfold plstBits
  split
  · rfl
  · rw [List.map_flatMap]
    refine List.flatMap_congr fun p _ => ?_
    dsimp only
    split
    · rfl
    · rw [List.map_map]
      refine List.map_congr_left fun j hj => ?_
      rw [List.mem_range] at hj
      rw [Function.comp_apply, bitsOf_bitsOf (by omega)]

/-- R203: PLST with an active lane, its planes at a multiple of 512, leaves its merges pending. -/
theorem plst_goes {f : XForm} {s u : State} {x y : Ctx} {q : FSlot} {ps : List Piece} {bits : List (Nat × Nat × Nat × Nat)}
    (hi : Issues (.plst f) s x y) (ha : y.act ≠ []) (hq : y.fslot f.slotA.toNat Fmt.plane = some q) (hb : y.uni f.b % 512 = 0)
    (hbits : (y.act.flatMap fun l => (plstBits (y.uni f.b) (bitsOf (y.uni f.c) 0 11) (bitsOf (y.uni f.c) 16 6 + l) q.efmt.width
      ((y.v.lane l).reg f.reg.toNat).toNat).map fun b => (l, b)) = bits)
    (hr : (s.begun y).resolve y .scratch .write anyLoc (bits.map fun z => ⟨z.1, z.2.1, 8, 0⟩) = .ok (ps, u)) :
    Goes (.plst f) s x ((u.addOp y .plst .default y.act (ps.mapIdx fun n p => { p with grp := n }) []
      (bits.mapIdx fun n z => (n, z.2.2))).put y { y.v with tileOps := y.v.tileOps + 1 }) := by
  refine goes_put hi rfl ?_ ((convoy_addOp ..).trans (begun_resolve_convoy hi hr)) rfl
  simp only [hq, hbits, hb, ne_eq, not_true_eq_false, if_false, hr]
  exact if_neg (by simp [ha])

/-- R206: CBLD with an active lane leaves the read of its codebook pending. -/
theorem cbld_goes {f : XForm} {s u : State} {x y : Ctx} {q : FSlot} {ps : List Piece} (hi : Issues (.cbld f) s x y) (ha : y.act ≠ [])
    (hq : y.fslot f.slotA.toNat [.cb4] = some q)
    (hr : (s.begun y).resolve y .global .read anyLoc [⟨0, (q.cbaddr : Int), 32, 0⟩] = .ok (ps, u)) {books : List (Nat × Codebook)}
    (hbooks : books = (y.v.books.filter (·.1 != f.slotA.toNat)) ++
      [(f.slotA.toNat, { table := ((y.v.books.lookup f.slotA.toNat).map (·.table)).getD [], ready := false })]) :
    Goes (.cbld f) s x (((u.put y { y.v with loads := y.v.loads + 1, books }).addOp y (.codebook f.slotA.toNat) f.h.hint [0] ps [(0, 0)]
      []).forbidRollback y.cur.col) := by
  have hv := convoy_put (begun_resolve_convoy hi hr) { y.v with loads := y.v.loads + 1, books }
  rw [issues_cur hi] at hv
  refine goes_next hi rfl (.inl ?_) (v := { y.v with loads := y.v.loads + 1, books }) ?_ fun _ => rfl
  · simp only [hq, hr, hbooks]
    exact if_neg (by simp [ha])
  · rw [issues_cur hi, convoy_forbid, convoy_addOp]
    exact hv

/-- Settles O29: a plain post by `posts_entry`, a round by `sign_work`, PLST and CBLD by what they leave pending. -/
theorem matrixPosts : Obligations.MatrixPosts := by
  unfold Obligations.MatrixPosts
  intro f s x y t full earlier b w32 posts mma transfer
  have hown {i : Instr} (hi : Issues i s x y) {body : Ctx → State → Effect} (he : exec i s = issue i (hdrOf i) body s) {work : MxWork}
      (hb : body y t = if t.tableFull y.v.quad then .stall t else .next (y.postOwn t f.tile.toNat f.urg.toNat work)) :
      posts i work work.passes := posts_entry hi he hb
  have hmma {i : Instr} {tri : Bool} (he : exec i s = issue i (hdrOf i) (fun x t => x.startMma t tri f) s) : mma i tri := by
    intro hi hp hb
    obtain ⟨c, hc, hreg⟩ := begun_column hi
    have hr : c.cvreg f.cvn.toNat = y.c.cvreg f.cvn.toNat := hreg _
    refine ⟨fun hcv hearly hmx => ?_, fun hcv h => ?_, fun hcv hf hfull hs hsame => ?_, fun hcv hf hs => ?_⟩
    · exact hown hi he (startMma_own hp hb hcv (drained_iff.mpr ⟨opsDrained_iff.mp (begun_opsDrained hearly), hmx⟩))
    · exact stalls_begun hi he (startMma_stalls hp hcv h)
    · obtain ⟨r, hsign⟩ := sign_work (t := t) (work := y.mmaWork tri f) hc (hr ▸ hs) (hr ▸ hsame)
      refine ⟨_, hsign, ?_⟩
      have hset : t.ConvoysKept (t.onColumn y.cur.col fun d => d.setCvreg f.cvn.toNat r) := .onColumn t _ _ (fun _ => rfl) fun _ => rfl
      exact (((State.LivesAt.begun hi).kept hset).onConvoy (f := fun v => { v with tileOps := v.tileOps + 1 }) (fun _ _ => rfl)).kept
        (.complete _ _ _) |>.goes hi he (.inr (startMma_signed hp hcv hb hf hfull hsign))
    · exact (State.LivesAt.begun hi).waits hi he
        (startMma_again hp hcv hb hf (roundFull_signer hc (hr ▸ hs) true) (sign_work_again hc (hr ▸ hs)))
  have htransfer {i : Instr} {e access : Nat} {work : Nat → Nat → MxWork} (h1 : ∀ a b, (work a b).passes = 1)
      (he : exec i s = issue i (hdrOf i) (fun x t => x.startTransfer t f e access work) s) : transfer i e access work := by
    intro hi ha hearly hp
    have hstride : (if f.c = .none then 64 * e else y.uni f.c) = y.tileStride f e := by simp only [Ctx.tileStride, beq_iff_eq]
    rw [hstride] at hp ⊢
    rw [← h1 b (y.tileStride f e)]
    exact hown hi he ((startTransfer_posts ha (begun_opsDrained hearly) hp).trans (startTile_active ha))
  refine ⟨hmma rfl, hmma rfl, fun hi ha => hown hi rfl (startTile_active ha), htransfer (fun _ _ => rfl) rfl, htransfer (fun _ _ => rfl) rfl,
    fun hi ha => hown hi rfl (startTile_active ha), fun q hi ha hq hb => ?_, fun q hi ha hq hreach => ?_⟩
  · intro w c bits hreach
    obtain ⟨⟨ps, u⟩, hr⟩ := hreach
    exact ⟨ps, u, hr, plst_goes hi ha hq hb (List.flatMap_congr fun l _ => plstBits_lane ..) hr⟩
  · obtain ⟨⟨ps, u⟩, hr⟩ := hreach
    exact ⟨ps, u, hr, cbld_goes hi ha hq hr rfl⟩

end Sys2Proof.Machine
end

section
/-!
PROOFS. The copy engine: destination lines written, copies completed and failed (O38).
-/

namespace Sys2Proof.Machine

/-! ## Lookups of a side -/

theorem touched_reads (s : State) (b : Via) (part ctx : Nat) (epoch : Option Nat) (va : Nat) : s.ReadsTo (s.touched b part ctx epoch va) := by
  unfold State.touched
  split
  · exact .refl s
  · split
    next h => exact leafFor_reads h
    · split
      · exact (checkWalk_reads ..).trans (leaseWalk_reads ..)
      · exact .refl s

theorem sideTouch_reads (s : State) (d : Side) (a : Nat) : s.ReadsTo (s.sideTouch d a) := by
  unfold State.sideTouch
  split
  exacts [.refl s, touched_reads ..]

/-! ## Bytes written in runs -/

/-- Runs hold the numbers that they were made of. -/
theorem mem_iff_runs (k : Nat) (xs : List Nat) : k ∈ xs ↔ ∃ r ∈ runs xs, r.1 ≤ k ∧ k < r.1 + r.2 := by
  induction xs with
  | nil => simp [runs]
  | cons a xs ih =>
    rw [List.mem_cons, ih, runs]
    cases runs xs with
    | nil => simp; omega
    | cons r rs =>
      obtain ⟨b, n⟩ := r
      dsimp only
      split
      next h => simp only [List.exists_mem_cons_iff]; grind
      · simp only [List.exists_mem_cons_iff]; grind

/-- A write at a translated address, seen at a place of its kind. -/
theorem poke_peek {s : State} (hs : s.store.wf = true) (own : Option Nat) (loc : Loc) (a : Nat) (bs : List Byte)
    (hast : loc = .dev → ∀ k < bs.length, s.inAst (a + k) = false) (c : Nat) :
    (s.poke own loc a bs).1.peek loc c = if a ≤ c ∧ c < a + bs.length then bs.getD (c - a) 0 else s.peek loc c := by
  obtain ⟨hdev, hhost, hpeer, hspad⟩ := Store.wf_memories hs
  have written (m : Memory) (hm : Memory.wf m = true) (a c : Nat) :
      (m.writeBytes a bs).read c = if a ≤ c ∧ c < a + bs.length then bs.getD (c - a) 0 else m.read c := by
    split
    next h =>
      have hlen : c - a < bs.length := by omega
      have hc := read_writeBytes_inside hm a bs hlen
      rw [Nat.add_sub_cancel' h.1] at hc
      rw [hc, List.getD_eq_getElem _ _ hlen]
    next h => exact read_writeBytes_away m h
  cases loc with
  | dev =>
    rw [poke_dev (hast rfl)]
    exact written _ hdev a c
  | spad => exact written _ hspad a c
  | host r => exact written _ hhost a c
  | peer n =>
    refine (written _ hpeer (n * 2 ^ 52 + a) (n * 2 ^ 52 + c)).trans ?_
    simp only [Nat.add_sub_add_left, Nat.add_assoc, Nat.add_le_add_iff_left, Nat.add_lt_add_iff_left]
    rfl

theorem poke_inAst (s : State) (own : Option Nat) (loc : Loc) (a : Nat) (bs : List Byte) (pa : Nat) :
    (s.poke own loc a bs).1.inAst pa = s.inAst pa := by cases loc <;> rfl

/-- Runs of bytes that are values of one function, written in turn. -/
theorem pokes_peek {loc : Loc} {pa : Nat} {f : Nat → Byte} {vals : Nat × Nat → List Byte} {rs : List (Nat × Nat)}
    (hv : ∀ r ∈ rs, vals r = (List.range r.2).map fun i => f (r.1 + i)) {s : State} (hs : s.store.wf = true)
    (hast : loc = .dev → ∀ r ∈ rs, ∀ k < r.2, s.inAst (pa + r.1 + k) = false) (c : Nat) :
    (rs.foldl (fun u r => (u.poke none loc (pa + r.1) (vals r)).1) s).peek loc c =
      if ∃ r ∈ rs, pa + r.1 ≤ c ∧ c < pa + r.1 + r.2 then f (c - pa) else s.peek loc c := by
  induction rs generalizing s with
  | nil => simp
  | cons r rs ih =>
    have hr := hv r List.mem_cons_self
    have hlen : (vals r).length = r.2 := by simp [hr]
    rw [List.foldl_cons, ih (fun q hq => hv q (List.mem_cons_of_mem r hq)) (poke_wf hs ..)
      (fun hd q hq k hk => (poke_inAst ..).trans (hast hd q (List.mem_cons_of_mem r hq) k hk)),
      poke_peek hs none loc _ _ (fun hd k hk => hast hd r List.mem_cons_self k (hlen ▸ hk)), hlen]
    simp only [List.exists_mem_cons_iff (fun q : Nat × Nat => pa + q.1 ≤ c ∧ c < pa + q.1 + q.2)]
    by_cases hrs : ∃ q ∈ rs, pa + q.1 ≤ c ∧ c < pa + q.1 + q.2
    · rw [if_pos hrs, if_pos (.inr hrs)]
    · rw [if_neg hrs]
      by_cases hin : pa + r.1 ≤ c ∧ c < pa + r.1 + r.2
      · rw [if_pos hin, if_pos (.inl hin), hr]
        have hi : c - (pa + r.1) < r.2 := by omega
        simp only [List.getD_eq_getElem?_getD, List.getElem?_map, List.getElem?_range hi, Option.map_some, Option.getD_some]
        congr 1
        omega
      · rw [if_neg hin, if_neg (not_or.mpr ⟨hin, hrs⟩)]

/-! ## A destination line written (R90) -/

theorem lineBytes_offsets (j : CopyJob) (l : CopyLine) (u : Nat) :
    (j.lineBytes l u).map (·.1) = (List.range u).filter fun k => (j.packet.value j.got (l.va + k)).isSome := by
  unfold CopyJob.lineBytes
  rw [List.map_filterMap, ← List.filterMap_eq_filter]
  refine List.filterMap_congr fun k _ => ?_
  cases h : j.packet.value j.got (l.va + k) <;> simp [Option.guard, h]

/-- The bytes of a run of offsets, all of which the copy writes. -/
theorem lineBytes_run {j : CopyJob} {l : CopyLine} {u : Nat} {r : Nat × Nat} (hu : r.1 + r.2 ≤ u)
    (hr : ∀ i < r.2, (j.packet.value j.got (l.va + (r.1 + i))).isSome = true) :
    ((j.lineBytes l u).filter fun b => r.1 ≤ b.1 && b.1 < r.1 + r.2).map (·.2) =
      (List.range r.2).map fun i => (j.packet.value j.got (l.va + (r.1 + i))).getD 0 := by
  have hsplit : (List.range u).filter (fun k => decide (r.1 ≤ k) && decide (k < r.1 + r.2)) = (List.range r.2).map (r.1 + ·) := by
    rw [show u = r.1 + (r.2 + (u - (r.1 + r.2))) by omega, List.range_add, List.range_add, List.map_append, List.filter_append,
      List.filter_append, List.filter_eq_nil_iff.mpr, List.filter_eq_self.mpr, List.filter_eq_nil_iff.mpr]
    all_goals simp
    omega
  have hcopied : ((j.lineBytes l u).filter fun b => r.1 ≤ b.1 && b.1 < r.1 + r.2).map (·.2) =
      ((List.range u).filter fun k => decide (r.1 ≤ k) && decide (k < r.1 + r.2)).filterMap fun k => j.packet.value j.got (l.va + k) := by
    unfold CopyJob.lineBytes
    rw [List.filterMap_filter, List.filter_filterMap, List.map_filterMap]
    refine List.filterMap_congr fun k _ => ?_
    cases j.packet.value j.got (l.va + k) <;> simp [Option.filter, apply_ite]
  rw [hcopied, hsplit, List.filterMap_map]
  refine List.filterMap_eq_map_iff_forall_eq_some.mpr fun i hi => ?_
  obtain ⟨b, hb⟩ := Option.isSome_iff_exists.mp (hr i (List.mem_range.mp hi))
  simp [hb]

/-- What writes at translated addresses may change: the memories that they reach, and what is known of them. -/
def State.PokesTo (s t : State) : Prop :=
  t = { s with store := { s.store with dev := t.store.dev, spad := t.store.spad, host := t.store.host, peer := t.store.peer }, coh := t.coh }

theorem pokes_to {α : Type} (s : State) (loc : Loc) (place : α → Nat) (vals : α → List Byte) (rs : List α) :
    s.PokesTo (rs.foldl (fun u r => (u.poke none loc (place r) (vals r)).1) s) := by
  refine List.foldlRecOn (motive := s.PokesTo) rs _ rfl fun t ht r _ => ?_
  unfold State.PokesTo at *
  rw [ht]
  cases loc <;> rfl

/-- The state in which the engine writes a line: its destination looked up, and the bytes counted. -/
def State.lineReady (s : State) (j : CopyJob) (l : CopyLine) (loc : Loc) : State :=
  let t := s.sideTouch (s.dstSide j) l.va
  match j.src with
  | .cv _ col _ => t.meterLoc col loc (j.lineBytes l (s.dstSide j).unit).length
  | .ring _ => t

theorem lineReady_spec (s : State) (j : CopyJob) (l : CopyLine) (loc : Loc) :
    ∃ coh fresh fw, s.lineReady j l loc = { s with coh, fresh, fw } := by
  have ht : s.ReadsTo (s.sideTouch (s.dstSide j) l.va) := sideTouch_reads ..
  unfold State.ReadsTo at ht
  unfold State.lineReady
  dsimp only
  split
  · obtain ⟨fw, h⟩ := meterLoc_fw (s.sideTouch (s.dstSide j) l.va) _ loc (j.lineBytes l (s.dstSide j).unit).length
    rw [h, ht]
    exact ⟨_, _, _, rfl⟩
  · rw [ht]
    exact ⟨_, _, _, rfl⟩

/-- A job of which a destination line has been written. -/
def CopyJob.wrote (l : CopyLine) (k : CopyJob) : CopyJob := { k with begun := true, pend := k.pend.filter (· != l) }

/-- A side in scratchpad translates to scratchpad. -/
theorem sideByte_unit {s : State} {d : Side} {perm : Perm} {a : Nat} {z : Trans} (h : s.sideByte d perm a = .ok z) (hz : z.loc = .dev) :
    d.unit = 64 := by
  unfold Side.unit
  cases hd : d.scratch with
  | false => rfl
  | true =>
    simp only [State.sideByte, hd, if_true] at h
    split at h
    · cases h
      cases hz
    · cases h

/-- R90, R176: a destination line written: the bytes that the copy writes appear there. -/
theorem writeLine_spec {s : State} {j : CopyJob} {l : CopyLine} {z : Trans} (hs : s.store.wf = true)
    (hz : s.sideByte (s.dstSide j) .write l.va = .ok z) (hast : ∀ b < 64, z.loc = .dev → s.inAst (z.pa + b) = false) :
    ∃ t, s.writeLine j l = .ok t ∧ t.eng.jobs = updateWhere (·.id == j.id) (CopyJob.wrote l) s.eng.jobs ∧
      t.store = { s.store with dev := t.store.dev, spad := t.store.spad, host := t.store.host, peer := t.store.peer } ∧
      ∀ a, t.peek z.loc a = if z.pa ≤ a ∧ a < z.pa + (s.dstSide j).unit then
        (j.packet.value j.got (l.va + (a - z.pa))).getD (s.peek z.loc a) else s.peek z.loc a := by
  let u := (s.dstSide j).unit
  let rs := runs ((j.lineBytes l u).map (·.1))
  let vals (r : Nat × Nat) : List Byte := ((j.lineBytes l u).filter fun b => r.1 ≤ b.1 && b.1 < r.1 + r.2).map (·.2)
  let f (k : Nat) : Byte := (j.packet.value j.got (l.va + k)).getD 0
  have hwritten (k : Nat) : (∃ r ∈ rs, r.1 ≤ k ∧ k < r.1 + r.2) ↔ k < u ∧ (j.packet.value j.got (l.va + k)).isSome = true := by
    rw [← mem_iff_runs, lineBytes_offsets, List.mem_filter, List.mem_range]
  have hin (r : Nat × Nat) (hr : r ∈ rs) (i : Nat) (hi : i < r.2) :
      r.1 + i < u ∧ (j.packet.value j.got (l.va + (r.1 + i))).isSome = true :=
    (hwritten _).mp ⟨r, hr, by omega, by omega⟩
  have hvals (r : Nat × Nat) (hr : r ∈ rs) : vals r = (List.range r.2).map fun i => f (r.1 + i) := by
    cases hn : r.2 with
    | zero =>
      simp only [vals, hn, List.range_zero, List.map_nil, List.map_eq_nil_iff, List.filter_eq_nil_iff]
      simp
    | succ n =>
      have hlast := (hin r hr n (by omega)).1
      exact (hn ▸ lineBytes_run (by omega) fun i hi => (hin r hr i hi).2)
  obtain ⟨coh, fresh, fw, hready⟩ := lineReady_spec s j l z.loc
  let w := rs.foldl (fun (t : State) r => (t.poke none z.loc (z.pa + r.1) (vals r)).1) (s.lineReady j l z.loc)
  have hto : (s.lineReady j l z.loc).PokesTo w := pokes_to _ z.loc (fun r : Nat × Nat => z.pa + r.1) vals rs
  refine ⟨({ w with eng := { w.eng with jobs := updateWhere (·.id == j.id) (CopyJob.wrote l) w.eng.jobs } } : State).notice, ?_, ?_, ?_, ?_⟩
  · simp only [State.writeLine, hz]
    rfl
  · change updateWhere _ _ w.eng.jobs = _
    rw [hto, hready]
  · change w.store = { s.store with dev := w.store.dev, spad := w.store.spad, host := w.store.host, peer := w.store.peer }
    conv_lhs => rw [hto, hready]
  · intro a
    refine (peek_of_store (s := w) rfl z.loc a).trans ?_
    have hpeek := pokes_peek (loc := z.loc) (pa := z.pa) (f := f) (vals := vals) (rs := rs) hvals (s := s.lineReady j l z.loc)
      (by rw [hready]; exact hs) (fun hd r hr k hk => by
        rw [hready, Nat.add_assoc]
        exact hast _ ((hin r hr k hk).1.trans_eq (sideByte_unit hz hd)) hd) a
    refine hpeek.trans ?_
    rw [peek_of_store (s := s) (t := s.lineReady j l z.loc) (by rw [hready])]
    have hiff : (∃ r ∈ rs, z.pa + r.1 ≤ a ∧ a < z.pa + r.1 + r.2) ↔
        z.pa ≤ a ∧ a - z.pa < u ∧ (j.packet.value j.got (l.va + (a - z.pa))).isSome = true := by
      rw [← hwritten]
      grind
    simp only [hiff]
    cases hval : j.packet.value j.got (l.va + (a - z.pa)) with
    | none => simp
    | some b =>
      simp only [f, hval, Option.isSome_some, and_true, Option.getD_some]
      refine if_congr ?_ rfl rfl
      omega

/-! ## The grant of a line (R90, R91) -/

/-- A line whose sources have been read, and which neither a causeway nor an earlier host write keeps from going on. -/
structure State.GrantReady (s : State) (j : CopyJob) (l : CopyLine) : Prop where
  read : j.toRead = []
  shards : j.shards = 0
  up : ∀ n, l.loc = .peer n → s.linkUp n = true
  free : s.hostHeld j l [] = false

theorem linesFor_read {s : State} {j : CopyJob} (h : j.toRead = []) (l : CopyLine) : s.linesFor j l = [] := by
  simp [State.linesFor, h]

/-- Where another's claim or lease stands, or the copy waits, a line whose sources have been read is left as it is. -/
theorem grantLine_waits {s : State} {j : CopyJob} {l : CopyLine} (hj : s.job? j.id = some j) (hr : j.toRead = [])
    (h : s.leasesOver l = false ∨ s.lineClaimed j l = true) : s.grantLine j l = .ok s := by
  have hheld : (s.lineClaimed j l || !s.leasesOver l) = true := by
    obtain h | h := h <;> simp [h]
  simp [State.grantLine, linesFor_read hr, State.readLines, hj, hheld]

theorem grantLine_ready {s : State} {j : CopyJob} {l : CopyLine} (hj : s.job? j.id = some j) (h : s.GrantReady j l)
    (hclaim : s.lineClaimed j l = false) (hlease : s.leasesOver l = true) : s.grantLine j l = s.writeLine j l := by
  obtain ⟨hread, hshards, hup, hfree⟩ := h
  have hsource : s.sourceClaimed j [] = false := by simp [State.sourceClaimed]
  have hdown : (match l.loc with
    | .peer k => !s.linkUp k
    | _ => false) = false := by
    split
    next k hk => simp [hup k hk]
    · rfl
  unfold State.grantLine
  simp only [linesFor_read hread, ite_self, CopyJob.shardsIn, hshards, beq_self_eq_true, Bool.true_or, Bool.not_true, hfree, hsource,
    Bool.or_false, Bool.false_or]
  refine (if_neg fun h => Bool.false_ne_true (hdown.symm.trans h)).trans ?_
  simp [State.readLines, hj, hclaim, hlease]

theorem exec_ownershipGrant {s : State} {j : CopyJob} {l : CopyLine} {k : Nat} (hj : s.job? j.id = some j) (hl : j.pend[k]? = some l) :
    exec (.ownershipGrant j.id k) s = if s.mayBegin j then (match s.grantLine j l with
      | .ok t => .next t
      | .error _ => .next s) else .next s := by
  change execOwnershipGrant j.id k s = _
  simp only [execOwnershipGrant, hj, hl]
  cases s.mayBegin j <;> rfl

/-! ## The end of a copy (R176) -/

/-- The bytes of an aligned word lie in one bank. -/
theorem spadByte_word {banks : List Nat} {off : Nat} (ha : off % 4 = 0) (hin : off + 4 ≤ spadSize banks) :
    ∃ a, ∀ i < 4, spadByte banks (off + i) = some (a + i) := by
  have hbank : off / 32768 < banks.length := by
    unfold spadSize at hin
    omega
  have hplace (i : Nat) (hi : i < 4) : spadByte banks (off + i) = some (banks[off / 32768] * 32768 + off % 32768 + i) := by
    have hsame : (off + i) / 32768 = off / 32768 := by omega
    have hmod : (off + i) % 32768 = off % 32768 + i := by omega
    rw [spadByte, hsame, hmod, List.getElem?_eq_getElem hbank, Option.map_some, Nat.add_assoc]
  exact ⟨_, hplace⟩

theorem spadStore_contiguous {banks : List Nat} {off a : Nat} {bs : List Byte} (h : ∀ i < bs.length, spadByte banks (off + i) = some (a + i))
    (m : Memory) : spadStore banks m off bs = m.writeBytes a bs := by
  induction bs generalizing m off a with
  | nil => rfl
  | cons b bs ih =>
    have h0 : spadByte banks off = some a := h 0 (Nat.succ_pos _)
    simp only [spadStore, h0, Memory.writeBytes]
    refine ih (fun i hi => ?_) _
    rw [Nat.add_right_comm, Nat.add_assoc, h (i + 1) (Nat.succ_lt_succ hi), Nat.add_right_comm, Nat.add_assoc]

/-- An aligned word written to scratchpad is read back. -/
theorem spadNum_spadWriteNum {s : State} (hs : s.store.wf = true) {banks : List Nat} {off : Nat} (ha : off % 4 = 0)
    (hin : off + 4 ≤ spadSize banks) (x : Word) : (s.spadWriteNum banks off 4 x.toNat).spadNum banks off 4 = x.toNat := by
  obtain ⟨a, hplace⟩ := spadByte_word ha hin
  obtain ⟨-, -, -, hspad⟩ := Store.wf_memories hs
  have hstore : (s.spadWriteNum banks off 4 x.toNat).store.spad = Memory.writeBytes s.store.spad a (bytesOf 4 x.toNat) :=
    spadStore_contiguous (fun i hi => hplace i (bytesOf_length 4 x.toNat ▸ hi)) _
  have hbytes : (s.spadWriteNum banks off 4 x.toNat).spadBytes banks off 4 = bytesOf 4 x.toNat := by
    unfold State.spadBytes
    rw [hstore]
    refine Eq.trans (List.map_congr_left fun i hi => ?_) ((bytesOf_length 4 x.toNat) ▸ map_read_writeBytes hspad a (bytesOf 4 x.toNat))
    rw [hplace i (List.mem_range.mp hi)]
  rw [State.spadNum, hbytes, numberOf_bytesOf]
  exact Nat.mod_eq_of_lt x.isLt

theorem spadNum_of_spad {s t : State} (h : t.store.spad = s.store.spad) (banks : List Nat) (off n : Nat) :
    t.spadNum banks off n = s.spadNum banks off n := by
  unfold State.spadNum State.spadBytes
  rw [h]

theorem completionWord_spec (s : State) (j : CopyJob) (value : Word) : ∃ spad coh,
    s.completionWord j value = { s with store := { s.store with spad }, coh, cols := (s.completionWord j value).cols } := by
  unfold State.completionWord
  split
  exacts [⟨_, _, rfl⟩, ⟨_, _, rfl⟩]

/-- R176: the completion word reads as it was written. -/
theorem completionWord_num {s : State} (hs : s.store.wf = true) {j : CopyJob} (hf : j.packet.flag 2 = true) (ha : j.cwoff % 4 = 0)
    (hin : j.cwoff + 4 ≤ spadSize (s.jobBanks j)) (value : Word) :
    (s.completionWord j value).spadNum (s.jobBanks j) j.cwoff 4 = value.toNat := by
  rw [State.completionWord, if_pos hf]
  exact (spadNum_of_spad rfl ..).trans (spadNum_spadWriteNum hs ha hin value)

/-- The job leaves the engine, and its convoy counts one copy less. -/
def State.copyOver (s : State) (j : CopyJob) : State :=
  ({ s with eng := { s.eng with jobs := s.eng.jobs.filter (·.id != j.id) } }).copyDone j

theorem copyOver_job (s : State) (j : CopyJob) : (s.copyOver j).job? j.id = none := by
  have hjobs : (s.copyOver j).eng.jobs = s.eng.jobs.filter (·.id != j.id) := by
    unfold State.copyOver State.copyDone
    split <;> rfl
  rw [State.job?, hjobs, List.find?_eq_none]
  simp

theorem copyOver_rest (s : State) (j : CopyJob) : (s.copyOver j).store = s.store ∧ (s.copyOver j).obj = s.obj := by
  unfold State.copyOver State.copyDone
  split <;> exact ⟨rfl, rfl⟩

theorem copyOver_convoy {s : State} {j : CopyJob} {core col cv : Nat} (hj : j.src = .cv core col cv) :
    (s.copyOver j).convoy? col cv = (s.convoy? col cv).map fun v => { v with copies := v.copies - 1 } := by
  unfold State.copyOver State.copyDone
  rw [hj]
  exact convoy_onConvoy ..

/-- How a copy ends: its word written, its job gone, its convoy's counter lowered. -/
structure CopyEnds (s t : State) (j : CopyJob) (word : Word) : Prop where
  job : t.job? j.id = none
  word : j.packet.flag 2 = true → j.cwoff % 4 = 0 → j.cwoff + 4 ≤ spadSize (s.jobBanks j) →
    t.spadNum (s.jobBanks j) j.cwoff 4 = word.toNat
  convoy : ∀ core col cv v, j.src = .cv core col cv → s.convoy? col cv = some v → ∃ w, t.convoy? col cv = some w ∧ w.copies = v.copies - 1 ∧
    w.lanes = v.lanes ∧ w.sregs = v.sregs

/-- R93, R176: a copy whose word has been written is over. -/
theorem copyOver_ends {s u t : State} {j : CopyJob} {word : Word} (hs : s.store.wf = true) (hu : u.store = s.store) (hcols : u.cols = s.cols)
    (ht : t.store.spad = (u.completionWord j word).store.spad) (hk : (u.completionWord j word).ConvoysKept t) :
    CopyEnds s (t.copyOver j) j word := by
  have hbanks : u.jobBanks j = s.jobBanks j := by
    unfold State.jobBanks
    split
    exacts [by rw [column?_congr hcols], rfl]
  refine ⟨copyOver_job t j, fun hf ha hin => ?_, fun core col cv v hsrc hv => ?_⟩
  · rw [← hbanks] at hin ⊢
    rw [spadNum_of_spad ((congrArg Store.spad (copyOver_rest t j).1).trans ht)]
    exact completionWord_num (hu ▸ hs) hf ha hin word
  · have hkept : s.ConvoysKept t := (State.ConvoysKept.of_cols hcols).trans ((completionWord_convoysKept u j word).trans hk)
    obtain ⟨w, hw, hwv⟩ := hkept.convoy hv
    obtain ⟨wait, hwait⟩ : ∃ wait, w = { v with wait } := ⟨_, Convoy.eq_of_unwaited hwv⟩
    refine ⟨{ w with copies := w.copies - 1 }, by rw [copyOver_convoy hsrc, hw]; rfl, ?_⟩
    rw [hwait]
    exact ⟨rfl, rfl, rfl⟩

/-! ## Completion -/

/-- R92, R176: beside its word, a copy that completes is counted as use of its account, and its task's counter decremented. -/
theorem finishCopy_over (s : State) (j : CopyJob) : ∃ t : State, s.finishCopy j = t.copyOver j ∧
    t.store = (s.completionWord j j.cwval).store ∧ t.cols = (s.completionWord j j.cwval).cols ∧
    t.obj = if j.packet.flag 3 then (s.taskDecrement j.part j.task).obj else s.obj := by
  obtain ⟨spad, coh, hword⟩ := completionWord_spec s j j.cwval
  let metered : State := match j.src with
    | .cv _ col _ => (s.completionWord j j.cwval).meterCol col 2 j.packet.total
    | .ring _ => s.completionWord j j.cwval
  have hmetered : ∃ fw, metered = { s.completionWord j j.cwval with fw := fw } := by
    dsimp only [metered]
    split
    exacts [⟨_, meterCol_eq ..⟩, ⟨_, rfl⟩]
  obtain ⟨fw, hfw⟩ := hmetered
  refine ⟨if j.packet.flag 3 then metered.taskDecrement j.part j.task else metered, rfl, ?_⟩
  split
  · rw [hfw]
    refine ⟨rfl, rfl, ?_⟩
    rw [hword]
    rfl
  · rw [hfw]
    refine ⟨rfl, rfl, ?_⟩
    rw [hword]

theorem finishCopy_spec {s : State} {j : CopyJob} (hs : s.store.wf = true) : CopyEnds s (s.finishCopy j) j j.cwval ∧
    (s.finishCopy j).store = { s.store with spad := (s.finishCopy j).store.spad } ∧
    (s.finishCopy j).obj.tasks = if j.packet.flag 3 then (s.taskDecrement j.part j.task).obj.tasks else s.obj.tasks := by
  obtain ⟨t, hfinish, hstore, hcols, hobj⟩ := finishCopy_over s j
  obtain ⟨spad, coh, hword⟩ := completionWord_spec s j j.cwval
  obtain ⟨hrest, hrestObj⟩ := copyOver_rest t j
  rw [hfinish]
  refine ⟨copyOver_ends hs rfl rfl (by rw [hstore]) (.of_cols hcols), ?_, ?_⟩
  · rw [hrest, hstore, hword]
  · rw [hrestObj, hobj]
    split <;> rfl

theorem exec_copyCompletion {s : State} {j : CopyJob} (hj : s.job? j.id = some j) :
    exec (.copyCompletion j.id) s = if j.pend = [] ∧ j.accepted.length = j.shards then .next (s.finishCopy j) else .next s := by
  change execCopyCompletion j.id s = _
  simp only [execCopyCompletion, hj]
  refine if_congr ?_ rfl rfl
  simp

/-! ## Failure -/

/-- An entry of a fault queue leaves the scratchpad, the objects and the columns as they are (R323). -/
theorem ramWrite_leaves (s : State) (pf : Bool) (a : Nat) (bs : List Byte) :
    (s.ramWrite pf a bs).1.store.spad = s.store.spad ∧ (s.ramWrite pf a bs).1.obj = s.obj := by cases pf <;> exact ⟨rfl, rfl⟩

theorem flushPosts_leaves (s : State) : s.flushPosts.store.spad = s.store.spad ∧ s.flushPosts.obj = s.obj :=
  List.foldlRecOn (motive := fun t : State => t.store.spad = s.store.spad ∧ t.obj = s.obj) _ _ ⟨rfl, rfl⟩ fun t ht _ _ =>
    have h := ramWrite_leaves t _ _ _
    ⟨h.1.trans ht.1, h.2.trans ht.2⟩

theorem ringWrite_leaves (s : State) (pf : Bool) (part base n : Nat) (entry : List Byte) :
    (s.ringWrite pf part base n entry).store.spad = s.store.spad ∧ (s.ringWrite pf part base n entry).obj = s.obj := by
  unfold State.ringWrite
  dsimp only
  split
  · obtain ⟨hstore, hobj, -⟩ :=
      (blackBox_reads (s.ramWriteNum pf (base + 16) 8 (s.ramNum pf (base + 16) 8 + 1)) 7 part 7 0 (s.ringProd pf base)).kept
    rw [hstore, hobj]
    exact ramWrite_leaves ..
  · have h := flushPosts_leaves
    exact ⟨(h _).1.trans (ramWrite_leaves ..).1, (h _).2.trans (ramWrite_leaves ..).2⟩

theorem faultEntry_leaves (s : State) (part : Nat) (e : FaultEntry) : (s.faultEntry part e).store.spad = s.store.spad ∧
    (s.faultEntry part e).obj = s.obj ∧ (s.faultEntry part e).cols = s.cols := by
  unfold State.faultEntry
  split
  · obtain ⟨hspad, hobj⟩ := ringWrite_leaves s false part _ 4096 (e.bytes s.now)
    exact ⟨hspad, hobj, ringWrite_cols ..⟩
  · exact ⟨rfl, rfl, rfl⟩

theorem failCopy_obj {s u : State} (hu : s.ReadsTo u) (j : CopyJob) (code : BitVec 16) (addr access : Nat) :
    (u.failCopy j code addr access).obj = s.obj := by
  obtain ⟨spad, coh, hword⟩ := completionWord_spec u j (j.cwval ||| 0x80000000)
  refine ((copyOver_rest _ j).2.trans (faultEntry_leaves ..).2.1).trans ?_
  rw [hword, hu]

theorem failCopy_ends {s u : State} (hs : s.store.wf = true) (hu : s.ReadsTo u) (j : CopyJob) (code : BitVec 16) (addr access : Nat) :
    CopyEnds s (u.failCopy j code addr access) j (j.cwval ||| 0x80000000) := by
  obtain ⟨hspad, -, hcols⟩ := faultEntry_leaves (u.completionWord j (j.cwval ||| 0x80000000)) j.part
    { code, access := 16 + access, service := 0, addr := BitVec.ofNat 64 addr, route := j.route, quad := j.quad, colid := j.colid.toNat }
  exact copyOver_ends hs (by rw [hu]) hu.cols hspad (.of_cols hcols)

/-- What a copy that fails has read and looked up (R327, R329). -/
def State.failing (s : State) (j : CopyJob) (e : CopyBad) : State :=
  (j.toRead.foldl (fun t l => t.checkBytes j.part l.loc (l.line * (s.srcSide j).unit) (s.srcSide j).unit) s).sideTouch
    (if e.2.2 = 1 then s.srcSide j else s.dstSide j) e.2.1

theorem failing_reads (s : State) (j : CopyJob) (e : CopyBad) : s.ReadsTo (s.failing j e) :=
  (ReadsTo.foldl (fun t _ => checkBytes_reads t _ _ _ _) _ s).trans (sideTouch_reads ..)

theorem exec_copyFailure {s : State} {j : CopyJob} (hj : s.job? j.id = some j) :
    exec (.copyFailure j.id) s = if s.mayBegin j then (match s.copyTrouble j with
      | some e => .next ((s.failing j e).failCopy j e.1 e.2.1 e.2.2)
      | none => .next s) else .next s := by
  change execCopyFailure j.id s = _
  simp only [execCopyFailure, hj]
  cases s.mayBegin j
  · rfl
  · cases s.copyTrouble j <;> rfl

/-- A destination line that cannot be written is the copy's trouble. -/
theorem copyTrouble_of_grantLine {s : State} {j : CopyJob} {l : CopyLine} {e : CopyBad} (hl : l ∈ j.pend) (h : s.grantLine j l = .error e) :
    (s.copyTrouble j).isSome = true := by
  rw [State.copyTrouble, List.findSome?_isSome_iff]
  exact ⟨l, hl, by rw [h]; rfl⟩

/-- Settles O38: a line granted or left waiting, a copy completed and a copy failed, each from its equation of `exec`. -/
theorem copyEngine : Obligations.CopyEngine := by
  unfold Obligations.CopyEngine
  intro s j hj hs
  refine ⟨fun k l hl hb hr hn hup hheld hc hlease => ?_, fun k l hl hr _ h => ?_, fun hp ha => ?_, fun hp => ?_, fun hb ht => ?_, fun ht => ?_⟩
  · have hgrant := grantLine_ready hj ⟨hr, hn, hup, hheld⟩ hc hlease
    have hexec := exec_ownershipGrant hj hl
    rw [if_pos hb, hgrant] at hexec
    cases hz : s.sideByte (s.dstSide j) .write l.va with
    | error c =>
      have hw : s.writeLine j l = .error (c, l.va, 2) := by simp only [State.writeLine, hz]
      rw [hw] at hexec
      exact ⟨hexec, copyTrouble_of_grantLine (List.mem_of_getElem? hl) (hgrant.trans hw)⟩
    | ok z =>
      intro hast
      obtain ⟨t, hw, hjobs, hstore, hpeek⟩ := writeLine_spec hs hz hast
      rw [hw] at hexec
      refine ⟨t, hexec, ?_, hstore, fun a _ => hpeek a⟩
      rw [State.job?, hjobs]
      exact find?_updateWhere_of_find? (p := fun k : CopyJob => k.id == j.id) (f := CopyJob.wrote l) (by simp [CopyJob.wrote]) hj
  · rw [exec_ownershipGrant hj hl, grantLine_waits hj hr h, ite_self]
  · obtain ⟨⟨hjob, hword, hcv⟩, hstore, htasks⟩ := finishCopy_spec (j := j) hs
    exact ⟨_, (exec_copyCompletion hj).trans (if_pos ⟨hp, ha⟩), ⟨hjob, hword, hcv⟩, hstore, htasks⟩
  · exact (exec_copyCompletion hj).trans (if_neg fun h => hp h.1)
  · obtain ⟨e, he⟩ := Option.isSome_iff_exists.mp ht
    obtain ⟨hjob, hword, hcv⟩ := failCopy_ends hs (failing_reads s j e) j e.1 e.2.1 e.2.2
    refine ⟨_, ?_, ⟨hjob, hword, hcv⟩, failCopy_obj (failing_reads s j e) ..⟩
    rw [exec_copyFailure hj, if_pos hb, he]
  · rw [exec_copyFailure hj, Option.isSome_eq_false_iff.mp ht |> Option.isNone_iff_eq_none.mp, ite_self]

end Sys2Proof.Machine
end

section
/-!
PROOFS. Causeways: link changes, shards and requests of peers (O50).
-/

namespace Sys2Proof.Machine

/-! ## The record of a causeway -/

theorem link_n (s : State) (n : Nat) : (s.link n).n = n := by
  unfold State.link
  cases h : s.fw.links.find? (·.n == n) with
  | none => rfl
  | some l => simpa using List.find?_some h

theorem link_of_links {s t : State} (h : t.fw.links = s.fw.links) (n : Nat) : t.link n = s.link n := by
  unfold State.link
  rw [h]

theorem link_setLink (s : State) {l : Link} {n : Nat} (h : l.n = n) : (s.setLink l).link n = l := by
  subst h
  unfold State.link State.setLink
  rw [find?_upsert (by simp)]
  rfl

/-- R327: a check, a lookup or an event of the black box leaves causeways, messages, memories, operations and columns. -/
theorem State.ReadsTo.linked {s t : State} (h : s.ReadsTo t) : t.fw.links = s.fw.links ∧ t.store = s.store ∧ t.fw.msix = s.fw.msix ∧
    t.ops = s.ops ∧ t.cols = s.cols := by
  rw [h]
  exact ⟨rfl, rfl, rfl, rfl, rfl⟩

theorem sendMsix_spec (s : State) (fn vector : Nat) : (s.sendMsix fn vector).fw.links = s.fw.links ∧ (s.sendMsix fn vector).store = s.store ∧
    (s.sendMsix fn vector).fw.msix = s.fw.msix ++ [(fn, vector)] ∧ (s.sendMsix fn vector).ops = s.ops ∧
    (s.sendMsix fn vector).cols = s.cols := ⟨rfl, rfl, rfl, rfl, rfl⟩

/-- R361: a change is recorded, and told to the host. -/
theorem linkEvent_spec (s : State) (n : Nat) (up : Bool) : (s.linkEvent n up).fw.links = s.fw.links ∧ (s.linkEvent n up).store = s.store ∧
    (s.linkEvent n up).fw.msix = s.fw.msix ++ [(0, 1)] ∧ (s.linkEvent n up).ops = s.ops ∧ (s.linkEvent n up).cols = s.cols := by
  obtain ⟨hlinks, hstore, hmsix, hops, hcols⟩ := (blackBox_reads s 0x0B 0xFF 6 0 (n + if up then 256 else 0)).linked
  obtain ⟨hlinks', hstore', hmsix', hops', hcols'⟩ := sendMsix_spec (s.blackBox 0x0B 0xFF 6 0 (n + if up then 256 else 0)) 0 1
  exact ⟨hlinks'.trans hlinks, hstore'.trans hstore, hmsix'.trans (congrArg (· ++ [(0, 1)]) hmsix), hops'.trans hops, hcols'.trans hcols⟩

/-! ## What stays while columns are killed and copies fail -/

/-- The operations on their way and the records of the causeways stay. -/
structure State.Steady (s t : State) : Prop where
  ops : t.ops = s.ops
  links : t.fw.links = s.fw.links

namespace State.Steady
variable {s t u : State}

theorem trans (h : s.Steady t) (h' : t.Steady u) : s.Steady u := ⟨h'.ops.trans h.ops, h'.links.trans h.links⟩

theorem reads (h : s.ReadsTo t) : s.Steady t := by
  rw [h]
  exact ⟨rfl, rfl⟩

theorem ramWrite (s : State) (pf : Bool) (a : Nat) (bs : List Byte) : s.Steady (s.ramWrite pf a bs).1 := by cases pf <;> exact ⟨rfl, rfl⟩

theorem poke (s : State) (own : Option Nat) (loc : Loc) (a : Nat) (bs : List Byte) : s.Steady (s.poke own loc a bs).1 := by
  cases loc <;> exact ⟨rfl, rfl⟩

theorem flushPosts (s : State) : s.Steady s.flushPosts := by
  unfold State.flushPosts
  extract_lets due t
  have ht : s.Steady t := List.foldlRecOn (motive := s.Steady) _ _ ⟨rfl, rfl⟩ fun u hu _ _ => hu.trans (ramWrite u _ _ _)
  exact ⟨ht.ops, ht.links⟩

theorem ringWrite (s : State) (pf : Bool) (part base n : Nat) (entry : List Byte) : s.Steady (s.ringWrite pf part base n entry) := by
  unfold State.ringWrite
  dsimp only
  split
  · exact (ramWrite ..).trans (reads (blackBox_reads ..))
  · have hwrite := ramWrite s pf (base + 64 + 32 * (s.ringProd pf base % n)) entry
    have hflush := flushPosts
    exact ⟨(hflush _).ops.trans hwrite.ops, (hflush _).links.trans hwrite.links⟩

theorem faultEntry (s : State) (part : Nat) (e : FaultEntry) : s.Steady (s.faultEntry part e) := by
  unfold State.faultEntry
  split
  exacts [ringWrite .., ⟨rfl, rfl⟩]

theorem ringBytes (s : State) (core part ctx va : Nat) (bs : List Byte) : s.Steady (s.ringBytes core part ctx va bs).1 := by
  induction bs generalizing s va with
  | nil => exact ⟨rfl, rfl⟩
  | cons b bs ih =>
    dsimp only [State.ringBytes]
    refine State.Steady.trans ?_ (ih ..)
    split
    next h => exact (reads (translate_reads h)).trans (poke ..)
    · exact ⟨rfl, rfl⟩

theorem meterCol (s : State) (col k n : Nat) : s.Steady (s.meterCol col k n) := by
  obtain ⟨us, h⟩ := meterCol_usage s col k n
  rw [h]
  exact ⟨rfl, rfl⟩

theorem settle (s : State) : s.Steady s.settle := by
  rw [settle_spec]
  exact ⟨rfl, rfl⟩

theorem killNow (s : State) (c : Column) : s.Steady (s.killNow c) := by
  have hframe : s.Steady (s.releaseFrame c) := by
    unfold State.releaseFrame
    split
    exacts [ringBytes .., ringBytes .., ringBytes .., ⟨rfl, rfl⟩]
  unfold State.killNow
  extract_lets u t
  have hmeter : s.Steady t := (hframe.trans (meterCol ..)).trans ⟨rfl, rfl⟩
  have hsettle := settle
  exact ⟨(hsettle _).ops.trans hmeter.ops, (hsettle _).links.trans hmeter.links⟩

theorem kill (s : State) (col : Nat) : s.Steady (s.kill col) := by
  unfold State.kill
  split
  · exact ⟨rfl, rfl⟩
  · split
    · exact ⟨rfl, rfl⟩
    · split
      exacts [⟨rfl, rfl⟩, killNow ..]

theorem failCopy (s : State) (j : CopyJob) (code : BitVec 16) (addr access : Nat) : s.Steady (s.failCopy j code addr access) := by
  have hword : s.Steady (s.completionWord j (j.cwval ||| 0x80000000)) := by
    obtain ⟨spad, coh, h⟩ := completionWord_spec s j (j.cwval ||| 0x80000000)
    rw [h]
    exact ⟨rfl, rfl⟩
  have hover (t : State) : t.Steady (t.copyOver j) := by
    unfold State.copyOver State.copyDone
    split <;> exact ⟨rfl, rfl⟩
  exact (hword.trans (faultEntry ..)).trans (hover _)

end State.Steady

/-! ## Columns and their kills -/

/-- What decides whether a column is killed, or will be once its save has ended (R316). -/
def Column.fate (c : Column) : Bool × Bool × ColPhase := (c.killed, c.doomed, c.phase)

theorem Column.dying_of_fate {c d : Column} (h : d.fate = c.fate) : d.dying = c.dying := by
  simp only [Column.fate, Prod.mk.injEq] at h
  simp only [Column.dying, h]

theorem Column.beingSaved_of_fate {c d : Column} (h : d.fate = c.fate) : d.beingSaved = c.beingSaved := by
  simp only [Column.fate, Prod.mk.injEq] at h
  simp only [Column.beingSaved, h]

/-- Every column has the fate that it had. -/
def State.FatesKept (s t : State) : Prop := ∀ id, (t.column? id).map Column.fate = (s.column? id).map Column.fate

namespace State.FatesKept
variable {s t u : State}

theorem trans (h : s.FatesKept t) (h' : t.FatesKept u) : s.FatesKept u := fun id => (h' id).trans (h id)

theorem of_cols (h : t.cols = s.cols) : s.FatesKept t := fun id => by rw [column?_congr h]

theorem column (h : s.FatesKept t) {id : Nat} {c : Column} (hc : s.column? id = some c) : ∃ d, t.column? id = some d ∧ d.fate = c.fate := by
  have hd := h id
  rw [hc] at hd
  exact Option.map_eq_some_iff.mp hd

theorem onConvoy (s : State) (col cv : Nat) (f : Convoy → Convoy) : s.FatesKept (s.onConvoy col cv f) := by
  intro id
  by_cases h : id = col
  · subst h
    rw [column_onConvoy_same, Option.map_map]
    rfl
  · rw [column_onConvoy_other s cv f h]

theorem notice (s : State) : s.FatesKept s.notice := by
  intro id
  obtain ⟨g, hg, hf⟩ := notice_cols s
  have hid (c : Column) : (g c).id = c.id := by
    obtain ⟨f, -, hf⟩ := hf c
    rw [hf]
  have hfate : Column.fate ∘ g = Column.fate := by
    funext c
    obtain ⟨f, -, hf⟩ := hf c
    simp only [Function.comp_apply, hf]
    rfl
  rw [State.column?, hg, find?_map_id hid, Option.map_map, hfate]
  rfl

theorem failCopy (s : State) (j : CopyJob) (code : BitVec 16) (addr access : Nat) : s.FatesKept (s.failCopy j code addr access) := by
  have hword : s.FatesKept (s.completionWord j (j.cwval ||| 0x80000000)) := by
    unfold State.completionWord
    split
    exacts [(of_cols rfl).trans (notice _), of_cols rfl]
  have hover (t : State) : t.FatesKept (t.copyOver j) := by
    unfold State.copyOver State.copyDone
    split
    exacts [(of_cols rfl).trans (onConvoy _ _ _ _), of_cols rfl]
  exact (hword.trans (of_cols (faultEntry_leaves ..).2.2)).trans (hover _)

end State.FatesKept

/-! ## Accesses given up (R361) -/

/-- No access of an operation goes over a causeway. -/
def Op.clear (o : Op) (link : Nat) : Prop := ∀ p ∈ o.pieces, p.loc ≠ .peer link

theorem severed_clear (o : Op) (link : Nat) : (o.severed link).clear link := by
  intro p hp
  simpa [Op.severed] using (List.mem_filter.mp hp).2

theorem peerAt_of_not_clear {o : Op} {link : Nat} (h : ¬o.clear link) : (o.peerAt link).isSome = true := by
  simp only [Op.clear, not_forall, not_not] at h
  obtain ⟨p, hp, hl⟩ := h
  have hfound : (o.pieces.find? (·.loc == .peer link)).isSome = true := List.find?_isSome.mpr ⟨p, hp, by simp [hl]⟩
  obtain ⟨q, hq⟩ := Option.isSome_iff_exists.mp hfound
  rw [Op.peerAt, hq]
  rfl

/-- One operation's accesses on a causeway given up. -/
def State.severOp (link : Nat) (t : State) (o : Op) : State :=
  let q := o.severed link
  match q.pieces, o.kind with
  | [], .load .. | [], .codebook _ => (t.dropOp o.id).onIssuer o fun v => { v with loads := v.loads - 1 }
  | _, _ => t.onOp o.id fun _ => q

theorem sever_eq (s : State) (link col : Nat) :
    s.sever link col = (s.ops.filter fun o => o.col == col && (o.peerAt link).isSome).foldl (State.severOp link) s := rfl

/-- What is left of the operations: none with its number but with its accesses given up, and the others. -/
theorem severOp_ops {link : Nat} {t : State} {o q : Op} (h : q ∈ (t.severOp link o).ops) : q.clear link ∨ (q ∈ t.ops ∧ q.id ≠ o.id) := by
  have hdrop (f : Convoy → Convoy) (h : q ∈ ((t.dropOp o.id).onIssuer o f).ops) : q ∈ t.ops ∧ q.id ≠ o.id := by
    have h : q ∈ t.ops.filter (·.id != o.id) := h
    simpa using h
  have hon (h : q ∈ (t.onOp o.id fun _ => o.severed link).ops) : q.clear link ∨ (q ∈ t.ops ∧ q.id ≠ o.id) := by
    obtain ⟨p, hp, rfl⟩ := List.mem_map.mp h
    split
    · exact .inl (severed_clear o link)
    next hne => exact .inr ⟨hp, by simpa using hne⟩
  unfold State.severOp at h
  dsimp only at h
  split at h
  exacts [.inr (hdrop _ h), .inr (hdrop _ h), hon h]

theorem severOp_rest (link : Nat) (t : State) (o : Op) : (t.severOp link o).fw = t.fw ∧ t.FatesKept (t.severOp link o) := by
  have hdrop (f : Convoy → Convoy) : t.FatesKept ((t.dropOp o.id).onIssuer o f) :=
    State.FatesKept.trans (t := t.dropOp o.id) (.of_cols rfl) (.onConvoy _ _ _ _)
  unfold State.severOp
  dsimp only
  split
  exacts [⟨rfl, hdrop _⟩, ⟨rfl, hdrop _⟩, ⟨rfl, .of_cols rfl⟩]

theorem severOps_ops {link : Nat} {os : List Op} {t : State} {q : Op} (h : q ∈ (os.foldl (State.severOp link) t).ops) :
    q.clear link ∨ (q ∈ t.ops ∧ q ∉ os) := by
  induction os generalizing t with
  | nil => exact .inr ⟨h, List.not_mem_nil⟩
  | cons o os ih =>
    obtain hclear | ⟨hq, hnot⟩ := ih h
    · exact .inl hclear
    · obtain hclear | ⟨hq, hid⟩ := severOp_ops hq
      · exact .inl hclear
      · refine .inr ⟨hq, List.not_mem_cons_of_ne_of_not_mem (fun he => hid (by rw [he])) hnot⟩

/-- R361: of a column that is severed no access goes over the causeway, and no operation gains one. -/
theorem sever_ops {s : State} {link col : Nat} {q : Op} (h : q ∈ (s.sever link col).ops) :
    q.clear link ∨ (q ∈ s.ops ∧ q.col ≠ col) := by
  rw [sever_eq] at h
  obtain hclear | ⟨hq, hnot⟩ := severOps_ops h
  · exact .inl hclear
  · by_cases hclear : q.clear link
    · exact .inl hclear
    · refine .inr ⟨hq, fun hcol => hnot (List.mem_filter.mpr ⟨hq, ?_⟩)⟩
      simp [hcol, peerAt_of_not_clear hclear]

theorem sever_rest (s : State) (link col : Nat) : (s.sever link col).fw = s.fw ∧ s.FatesKept (s.sever link col) := by
  rw [sever_eq]
  refine List.foldlRecOn (motive := fun t : State => t.fw = s.fw ∧ s.FatesKept t) _ _ ⟨rfl, .of_cols rfl⟩ fun t ht o _ => ?_
  obtain ⟨hfw, hkept⟩ := severOp_rest link t o
  exact ⟨hfw.trans ht.1, ht.2.trans hkept⟩

/-! ## Columns stranded (R360, R361) -/

/-- What is said of a column of which a kill was asked since it stood as `c`. -/
structure Column.KilledFrom (c d : Column) : Prop where
  dying : d.dying = true
  killed : c.dying = false → c.beingSaved = false → d.killed = true

theorem Column.KilledFrom.of_fate {c d e : Column} (h : c.KilledFrom d) (he : e.fate = d.fate) : c.KilledFrom e :=
  ⟨(Column.dying_of_fate he).trans h.dying, fun h1 h2 => (congrArg Prod.fst he).trans (h.killed h1 h2)⟩

/-- A column killed now, from what it was. -/
theorem doom_killedFrom {c d : Column} (h : d.fate = c.fate) : c.KilledFrom d.doom :=
  ⟨doom_dying d, fun _ hs => doom_killed ((Column.beingSaved_of_fate h).trans hs)⟩

/-- Column `id` stands as `c` did, or a kill of it has been asked. -/
def State.Stands (s : State) (id : Nat) (c : Column) : Prop := ∃ d, s.column? id = some d ∧ (d.fate = c.fate ∨ c.KilledFrom d)

/-- Column `id` is to die, and has no access on a causeway. -/
structure State.Stranded (s : State) (link id : Nat) (c : Column) : Prop where
  column : ∃ d, s.column? id = some d ∧ c.KilledFrom d
  clear : ∀ q ∈ s.ops, q.col = id → q.clear link

section
variable {s t : State} {link id : Nat} {c : Column}

theorem State.Stands.kept (h : s.Stands id c) (hk : s.FatesKept t) : t.Stands id c := by
  obtain ⟨d, hd, hfate⟩ := h
  obtain ⟨e, he, hed⟩ := hk.column hd
  exact ⟨e, he, hfate.imp (hed.trans ·) (·.of_fate hed)⟩

theorem State.Stranded.kept (h : s.Stranded link id c) (hk : s.FatesKept t) (ho : ∀ q ∈ t.ops, q.clear link ∨ q ∈ s.ops) :
    t.Stranded link id c := by
  obtain ⟨⟨d, hd, hfrom⟩, hclear⟩ := h
  obtain ⟨e, he, hed⟩ := hk.column hd
  exact ⟨⟨e, he, hfrom.of_fate hed⟩, fun q hq hcol => (ho q hq).elim (fun h => h) fun hs => hclear q hs hcol⟩

/-- The column of a stranded access before what it had under way is given up: killed, unless that was asked before. -/
def State.strandKill (s : State) (c : Column) (x : Nat × Nat × Nat) : State :=
  if c.dying then s else (s.report c x.2.1 cUncorrectable (BitVec.ofNat 64 x.2.2) 1 0).kill x.1

theorem strandKill_steady (s : State) (c : Column) (x : Nat × Nat × Nat) : s.Steady (s.strandKill c x) := by
  unfold State.strandKill
  split
  exacts [⟨rfl, rfl⟩, (State.Steady.faultEntry ..).trans (.kill ..)]

theorem strandKill_other (s : State) (d : Column) {x : Nat × Nat × Nat} (h : id ≠ x.1) : (s.strandKill d x).column? id = s.column? id := by
  unfold State.strandKill
  split
  exacts [rfl, (column?_kill_other h).trans (column?_congr (report_cols ..) _)]

theorem strandKill_same {d : Column} {x : Nat × Nat × Nat} (hd : s.column? x.1 = some d) (hc : d.fate = c.fate ∨ c.KilledFrom d) :
    ∃ e, (s.strandKill d x).column? x.1 = some e ∧ c.KilledFrom e := by
  unfold State.strandKill
  cases hdying : d.dying with
  | true =>
    refine ⟨d, hd, hc.elim (fun hfate => ⟨hdying, fun hno => ?_⟩) fun h => h⟩
    rw [← Column.dying_of_fate hfate, hdying] at hno
    cases hno
  | false =>
    have hfate : d.fate = c.fate := hc.resolve_right fun h => by
      rw [h.dying] at hdying
      cases hdying
    exact ⟨d.doom, column?_kill ((column?_congr (report_cols ..) _).trans hd), doom_killedFrom hfate⟩

theorem strand_none {x : Nat × Nat × Nat} (h : s.column? x.1 = none) : s.strand link x = s := by simp only [State.strand, h]

theorem strand_some {x : Nat × Nat × Nat} {d : Column} (h : s.column? x.1 = some d) : s.strand link x = (s.strandKill d x).sever link x.1 := by
  simp only [State.strand, h]
  rfl

theorem strand_links (s : State) (link : Nat) (x : Nat × Nat × Nat) : (s.strand link x).fw.links = s.fw.links := by
  cases h : s.column? x.1 with
  | none => rw [strand_none h]
  | some d =>
    rw [strand_some h, (sever_rest ..).1]
    exact (strandKill_steady ..).links

/-- No operation gains an access. -/
theorem strand_ops {x : Nat × Nat × Nat} {q : Op} (hq : q ∈ (s.strand link x).ops) : q.clear link ∨ q ∈ s.ops := by
  cases h : s.column? x.1 with
  | none => rw [strand_none h] at hq; exact .inr hq
  | some d =>
    rw [strand_some h] at hq
    exact (sever_ops hq).imp_right fun ho => (strandKill_steady s d x).ops ▸ ho.1

/-- A stranded access has its column killed, and every access of the column given up. -/
theorem strand_same {x : Nat × Nat × Nat} (h : s.Stands x.1 c) : (s.strand link x).Stranded link x.1 c := by
  obtain ⟨d, hd, hc⟩ := h
  obtain ⟨e, he, hfrom⟩ := strandKill_same hd hc
  rw [strand_some hd]
  obtain ⟨e', he', hfate⟩ := (sever_rest (s.strandKill d x) link x.1).2.column he
  exact ⟨⟨e', he', hfrom.of_fate hfate⟩, fun q hq hcol => (sever_ops hq).resolve_right fun ho => ho.2 hcol⟩

theorem strand_other {x : Nat × Nat × Nat} (hx : id ≠ x.1) {d : Column} (hd : s.column? id = some d) :
    ∃ e, (s.strand link x).column? id = some e ∧ e.fate = d.fate := by
  cases h : s.column? x.1 with
  | none => exact ⟨d, by rw [strand_none h, hd], rfl⟩
  | some k =>
    rw [strand_some h]
    exact (sever_rest ..).2.column ((strandKill_other s k hx).trans hd)

theorem State.Stranded.stands (h : s.Stranded link id c) : s.Stands id c := by
  obtain ⟨d, hd, hfrom⟩ := h.column
  exact ⟨d, hd, .inr hfrom⟩

theorem State.Stands.strand (h : s.Stands id c) (x : Nat × Nat × Nat) : (s.strand link x).Stands id c := by
  by_cases hx : id = x.1
  · subst hx
    exact (strand_same h).stands
  · obtain ⟨d, hd, hc⟩ := h
    obtain ⟨e, he, hfate⟩ := strand_other hx hd
    exact ⟨e, he, hc.imp (hfate.trans ·) (·.of_fate hfate)⟩

theorem State.Stranded.strand (h : s.Stranded link id c) (x : Nat × Nat × Nat) : (s.strand link x).Stranded link id c := by
  by_cases hx : id = x.1
  · subst hx
    exact strand_same h.stands
  · obtain ⟨⟨d, hd, hfrom⟩, hclear⟩ := h
    obtain ⟨e, he, hfate⟩ := strand_other hx hd
    exact ⟨⟨e, he, hfrom.of_fate hfate⟩, fun q hq hcol => (strand_ops hq).elim (fun h => h) fun hs => hclear q hs hcol⟩

/-- The columns stranded in turn: the one of every access among them. -/
theorem strands_stranded {xs : List (Nat × Nat × Nat)} {x : Nat × Nat × Nat} (hx : x ∈ xs) (h : s.Stands x.1 c) :
    (xs.foldl (State.strand · link) s).Stranded link x.1 c := by
  obtain ⟨before, after, rfl⟩ := List.append_of_mem hx
  rw [List.foldl_append, List.foldl_cons]
  have hstands : (before.foldl (State.strand · link) s).Stands x.1 c :=
    List.foldlRecOn (motive := fun u : State => u.Stands x.1 c) before _ h fun u hu y _ => hu.strand y
  exact List.foldlRecOn (motive := fun u : State => u.Stranded link x.1 c) after _ (strand_same hstands) fun u hu y _ => hu.strand y

end

/-- R362: a copy of which the causeway carried a shard that it misses. -/
def State.dropShard (link : Nat) (u : State) (j : CopyJob) : State :=
  match u.losesShard link j with
  | some i => u.failShard j cShardMissing i
  | none => u

theorem dropShard_rest (link : Nat) (u : State) (j : CopyJob) : u.Steady (u.dropShard link j) ∧ u.FatesKept (u.dropShard link j) := by
  unfold State.dropShard
  split
  exacts [⟨.failCopy .., .failCopy _ _ _ _ _⟩, ⟨⟨rfl, rfl⟩, .of_cols rfl⟩]

theorem dropShards_rest (link : Nat) (js : List CopyJob) (s : State) :
    s.Steady (js.foldl (State.dropShard link) s) ∧ s.FatesKept (js.foldl (State.dropShard link) s) := by
  refine List.foldlRecOn (motive := fun t : State => s.Steady t ∧ s.FatesKept t) js _ ⟨⟨rfl, rfl⟩, .of_cols rfl⟩ fun t ht j _ => ?_
  obtain ⟨hsteady, hkept⟩ := dropShard_rest link t j
  exact ⟨ht.1.trans hsteady, ht.2.trans hkept⟩

/-! ## Causeways that go down and come up (R360, R361) -/

/-- The record of a causeway that goes down now. -/
def State.linkLost (s : State) (n : Nat) : Link := { s.link n with up := false, retryAt := s.now + 10000000 }

/-- The causeway down, before anything is made of its accesses. -/
def State.linkDowned (s : State) (n : Nat) : State := (s.setLink (s.linkLost n)).linkEvent n false

/-- R360 to R362: what a causeway that goes down leaves. -/
def State.severed (s : State) (n : Nat) : State :=
  let t := ((s.linkDowned n).strandedColumns n).foldl (State.strand · n) (s.linkDowned n)
  t.eng.jobs.foldl (State.dropShard n) t

theorem exec_linkDown (s : State) (n : Nat) : exec (.linkDown n) s =
    if (s.link n).up = false ∨ s.now < (s.link n).lastAck + 1000000 then .next s else .next (s.severed n) := by
  change execLinkDown n s = _
  unfold execLinkDown
  refine if_congr ?_ rfl rfl
  simp

theorem linkDowned_rest (s : State) (n : Nat) : (s.linkDowned n).link n = s.linkLost n ∧ (s.linkDowned n).ops = s.ops ∧
    (s.linkDowned n).cols = s.cols := by
  obtain ⟨hlinks, -, -, hops, hcols⟩ := linkEvent_spec (s.setLink (s.linkLost n)) n false
  exact ⟨(link_of_links hlinks n).trans (link_setLink s (link_n s n)), hops, hcols⟩

theorem severed_link (s : State) (n : Nat) : (s.severed n).link n = s.linkLost n := by
  have hstrands := foldl_leaves (fun t : State => t.fw.links) (fun t x => strand_links t n x) ((s.linkDowned n).strandedColumns n) (s.linkDowned n)
  exact (link_of_links ((dropShards_rest ..).1.links.trans hstrands) n).trans (linkDowned_rest s n).1

/-- R360, R361: the column of an access on the causeway. -/
theorem severed_stranded {s : State} {n : Nat} {o : Op} {c : Column} (ho : o ∈ s.ops) (hp : ¬o.clear n) (hc : s.column? o.col = some c) :
    (s.severed n).Stranded n o.col c := by
  obtain ⟨-, hops, hcols⟩ := linkDowned_rest s n
  obtain ⟨a, ha⟩ := Option.isSome_iff_exists.mp (peerAt_of_not_clear hp)
  have hx : (o.col, o.quad, a) ∈ (s.linkDowned n).strandedColumns n := by
    refine List.mem_filterMap.mpr ⟨o, hops ▸ ho, ?_⟩
    rw [ha]
    rfl
  have hstands : (s.linkDowned n).Stands o.col c := ⟨c, (column?_congr hcols _).trans hc, .inl rfl⟩
  obtain ⟨hsteady, hkept⟩ := dropShards_rest n (((s.linkDowned n).strandedColumns n).foldl (State.strand · n) (s.linkDowned n)).eng.jobs
    (((s.linkDowned n).strandedColumns n).foldl (State.strand · n) (s.linkDowned n))
  exact (strands_stranded hx hstands).kept hkept fun q hq => .inr (hsteady.ops ▸ hq)

theorem exec_linkRetrain (s : State) (n : Nat) : exec (.linkRetrain n) s =
    if (s.link n).up = true ∨ s.now < (s.link n).retryAt ∨ 18 ≤ n then .next s
    else .next (s.setLink { s.link n with retryAt := s.now + 10000000 }) := by
  change execLinkRetrain n s = _
  unfold execLinkRetrain
  refine if_congr ?_ rfl rfl
  simp [or_assoc]

/-- The causeway up again. -/
def State.linkRaised (s : State) (n : Nat) : State := (s.setLink { s.link n with up := true, lastAck := s.now }).linkEvent n true

theorem exec_linkUp (s : State) (n : Nat) : exec (.linkUp n) s =
    if (s.link n).up = true ∨ 18 ≤ n then .next s else .next (s.linkRaised n) := by
  change execLinkUp n s = _
  unfold execLinkUp
  refine if_congr ?_ rfl rfl
  simp

/-- R360, R361: causeways that go down, are tried, and come up. -/
theorem links_change (s : State) (n : Nat) :
    ((s.link n).up = false ∨ s.now < (s.link n).lastAck + 1000000 → exec (.linkDown n) s = .next s) ∧
    ((s.link n).up = true → (s.link n).lastAck + 1000000 ≤ s.now → ∃ t, exec (.linkDown n) s = .next t ∧ (t.link n).up = false ∧
      (t.link n).retryAt = s.now + 10000000 ∧
      ((s.cols.map (·.id)).Nodup → ∀ o ∈ s.ops, ∀ p ∈ o.pieces, p.loc = .peer n → ∀ c, s.column? o.col = some c →
        (t.column? o.col).map (·.dying) = some true ∧ (∀ q ∈ t.ops, q.col = o.col → ∀ r ∈ q.pieces, r.loc ≠ .peer n) ∧
          (c.dying = false → c.beingSaved = false → (t.column? o.col).map (·.killed) = some true))) ∧
    ((s.link n).up = true ∨ s.now < (s.link n).retryAt ∨ 18 ≤ n → exec (.linkRetrain n) s = .next s) ∧
    ((s.link n).up = false → (s.link n).retryAt ≤ s.now → n < 18 → ∃ t, exec (.linkRetrain n) s = .next t ∧ (t.link n).up = false ∧
      (t.link n).retryAt = s.now + 10000000 ∧ t.store = s.store) ∧
    ((s.link n).up = false → n < 18 → ∃ t, exec (.linkUp n) s = .next t ∧ (t.link n).up = true ∧ (t.link n).lastAck = s.now ∧
      t.store = s.store ∧ t.fw.msix = s.fw.msix ++ [(0, 1)]) ∧
    ((s.link n).up = true ∨ 18 ≤ n → exec (.linkUp n) s = .next s) := by
  refine ⟨fun h => (exec_linkDown s n).trans (if_pos h), fun hup hack => ?_, fun h => (exec_linkRetrain s n).trans (if_pos h),
    fun hup hretry hn => ?_, fun hup hn => ?_, fun h => (exec_linkUp s n).trans (if_pos h)⟩
  · refine ⟨_, (exec_linkDown s n).trans (if_neg ?_), by rw [severed_link]; rfl, by rw [severed_link]; rfl, fun _ o ho p hp hloc c hc => ?_⟩
    · simp [hup, hack]
    · obtain ⟨⟨d, hd, hdying, hkilled⟩, hclear⟩ := severed_stranded ho (fun h => h p hp hloc) hc
      rw [hd]
      exact ⟨congrArg some hdying, hclear, fun h1 h2 => congrArg some (hkilled h1 h2)⟩
  · have hlink : (s.setLink { s.link n with retryAt := s.now + 10000000 }).link n = { s.link n with retryAt := s.now + 10000000 } :=
      link_setLink s (link_n s n)
    refine ⟨_, (exec_linkRetrain s n).trans (if_neg ?_), ?_, ?_, rfl⟩
    · simp [hup, hretry, hn]
    · rw [hlink]
      exact hup
    · rw [hlink]
  · obtain ⟨hlinks, hstore, hmsix, -, -⟩ := linkEvent_spec (s.setLink { s.link n with up := true, lastAck := s.now }) n true
    have hlink : (s.linkRaised n).link n = { s.link n with up := true, lastAck := s.now } :=
      (link_of_links hlinks n).trans (link_setLink s (link_n s n))
    refine ⟨_, (exec_linkUp s n).trans (if_neg ?_), by rw [hlink], by rw [hlink], hstore, hmsix⟩
    simp [hup, hn]

/-! ## Shards (R362) -/

/-- A shard's answer and its bytes counted. -/
def State.shardMet (s : State) (j : CopyJob) (i : Nat) (data : List Byte) : State := (s.acked (s.shardPeers j i)).meterShard j data

theorem shardMet_fw (s : State) (j : CopyJob) (i : Nat) (data : List Byte) : ∃ fw, s.shardMet j i data = { s with fw := fw } := by
  have hacked : ∃ fw, s.acked (s.shardPeers j i) = { s with fw := fw } := by
    unfold State.acked
    split <;> exact ⟨_, rfl⟩
  obtain ⟨fw, h⟩ := hacked
  unfold State.shardMet State.meterShard
  rw [h]
  split
  · split
    exacts [⟨_, meterCol_eq ..⟩, ⟨_, rfl⟩]
  · exact ⟨_, rfl⟩

/-- A copy as an accepted shard leaves it. -/
def CopyJob.took (i : Nat) (got : Memory) (k : CopyJob) : CopyJob := { k with begun := true, got, accepted := k.accepted ++ [i] }

/-- The bytes that a copy holds with those of a shard. -/
def CopyJob.gotWith (j : CopyJob) (i : Nat) (data : List Byte) : Memory :=
  if j.fromPeer then ((j.packet.shardBytes i).zip data).foldl (fun m ab => Memory.write m ab.1 ab.2) j.got else j.got

/-- The state in which a shard has been accepted. -/
def State.shardTaken (s : State) (j : CopyJob) (i : Nat) (data : List Byte) : State :=
  { s.shardMet j i data with
    eng := { s.eng with jobs := updateWhere (·.id == j.id) (CopyJob.took i (j.gotWith i data)) s.eng.jobs } }

section
variable {s : State} {j : CopyJob} (hj : s.job? j.id = some j)
include hj

theorem exec_shardArrival_judged {i : Nat} (data : List Byte) (crc : Word) (h : j.shards ≤ i ∨ i ∈ j.accepted) :
    exec (.shardArrival j.id i data crc) s = .next s := by
  change execShardArrival j.id i data crc s = _
  simp only [execShardArrival, hj]
  refine if_pos ?_
  obtain h | h := h <;> simp [h]

/-- What a shard that has not been judged before does. -/
theorem exec_shardArrival {i : Nat} (data : List Byte) (crc : Word) (hb : s.mayBegin j = true) (hi : i < j.shards) (hnew : i ∉ j.accepted) :
    exec (.shardArrival j.id i data crc) s =
      if s.shardLate j then .next ((s.shardMet j i data).failShard j cShardMissing (j.missing.getD i))
      else if crc32c data ≠ crc.toNat ∨ data.length ≠ (j.packet.shardBytes i).length then
        .next ((s.shardMet j i data).failShard j cShardCorrupt i)
      else .next ((s.shardTaken j i data).landLines j.id j.pend) := by
  obtain ⟨fw, hfw⟩ := shardMet_fw s j i data
  have hlate : (s.shardMet j i data).shardLate j = s.shardLate j := by
    rw [hfw]
    rfl
  have htaken : s.shardTaken j i data = { s.shardMet j i data with
      eng := { (s.shardMet j i data).eng with
        jobs := updateWhere (·.id == j.id) (CopyJob.took i (j.gotWith i data)) (s.shardMet j i data).eng.jobs } } := by
    unfold State.shardTaken
    rw [hfw]
  rw [htaken, ← hlate]
  change execShardArrival j.id i data crc s = _
  simp only [execShardArrival, hj]
  refine (if_neg ?_).trans rfl
  simp [hb, hi, hnew]

end

theorem failShard_job (s : State) (j : CopyJob) (code : BitVec 16) (i : Nat) : (s.failShard j code i).job? j.id = none := copyOver_job _ j

theorem failShard_obj (s : State) (j : CopyJob) (code : BitVec 16) (i : Nat) : (s.failShard j code i).obj = s.obj := failCopy_obj (.refl s) ..

theorem shardTaken_job {s : State} {j : CopyJob} (hj : s.job? j.id = some j) (i : Nat) (data : List Byte) :
    (s.shardTaken j i data).job? j.id = some (j.took i (j.gotWith i data)) :=
  find?_updateWhere_of_find? (p := fun k : CopyJob => k.id == j.id) (by simp [CopyJob.took]) hj

theorem shardTaken_store (s : State) (j : CopyJob) (i : Nat) (data : List Byte) : (s.shardTaken j i data).store = s.store := by
  obtain ⟨fw, hfw⟩ := shardMet_fw s j i data
  exact (congrArg State.store hfw :)

theorem exec_shardTimeout {s : State} {j : CopyJob} (hj : s.job? j.id = some j) {i : Nat} (hi : j.missing = some i) :
    exec (.shardTimeout j.id) s = if s.shardLate j then .next (s.failShard j cShardMissing i) else .next s := by
  change execShardTimeout j.id s = _
  simp only [execShardTimeout, hj, hi]

/-- R362: shards accepted, refused and missing. -/
theorem shards_judged {s : State} {j : CopyJob} (hj : s.job? j.id = some j) (hb : s.mayBegin j = true) :
    (∀ i data crc, i < j.shards → i ∉ j.accepted → data.length = (j.packet.shardBytes i).length →
      (s.shardLate j = true → ∃ t, exec (.shardArrival j.id i data crc) s = .next t ∧ t.job? j.id = none) ∧
      (s.shardLate j = false → crc32c data = crc.toNat → j.pend = [] → ∃ t q, exec (.shardArrival j.id i data crc) s = .next t ∧
        t.job? j.id = some q ∧ q.accepted = j.accepted ++ [i] ∧ q.begun = true ∧ t.store = s.store) ∧
      (crc32c data ≠ crc.toNat → ∃ t, exec (.shardArrival j.id i data crc) s = .next t ∧ t.job? j.id = none)) ∧
    (∀ i data crc, j.shards ≤ i ∨ i ∈ j.accepted → exec (.shardArrival j.id i data crc) s = .next s) ∧
    ∀ i, j.missing = some i →
      (j.tmo ≠ 0 → j.issued + 1000 * j.tmo ≤ s.now → ∃ t, exec (.shardTimeout j.id) s = .next t ∧ t.job? j.id = none ∧ t.obj = s.obj) ∧
      (j.tmo = 0 ∨ s.now < j.issued + 1000 * j.tmo → exec (.shardTimeout j.id) s = .next s) := by
  refine ⟨fun i data crc hi hnew hlen => ?_, fun i data crc h => exec_shardArrival_judged hj data crc h, fun i hi =>
    ⟨fun ht hw => ?_, fun h => ?_⟩⟩
  · have hexec := exec_shardArrival hj data crc hb hi hnew
    refine ⟨fun hlate => ?_, fun hlate hcrc hpend => ?_, fun hcrc => ?_⟩
    · rw [if_pos hlate] at hexec
      exact ⟨_, hexec, failShard_job ..⟩
    · rw [hlate, if_neg Bool.false_ne_true, if_neg (by simp [hcrc, hlen]), hpend] at hexec
      exact ⟨_, _, hexec, shardTaken_job hj i data, rfl, rfl, shardTaken_store ..⟩
    · cases hlate : s.shardLate j with
      | true =>
        rw [if_pos hlate] at hexec
        exact ⟨_, hexec, failShard_job ..⟩
      | false =>
        rw [hlate, if_neg Bool.false_ne_true, if_pos (.inl hcrc)] at hexec
        exact ⟨_, hexec, failShard_job ..⟩
  · exact ⟨_, (exec_shardTimeout hj hi).trans (if_pos (by simp [State.shardLate, ht, hw])), failShard_job .., failShard_obj ..⟩
  · refine (exec_shardTimeout hj hi).trans (if_neg ?_)
    obtain h | h := h <;> simp [State.shardLate, h]

/-! ## Accesses of a peer (R83) -/

theorem peerRefused_clear {s : State} {pa n : Nat} (hp : s.coh.poison = []) (h : ∀ i < n, s.inCarveOut (pa + i) = false) (read : Bool) :
    s.peerRefused pa n read = false := by
  simp only [State.peerRefused, List.any_eq_false, List.mem_range, hp]
  intro i hi
  simp [h i hi]

/-- A store at the home slice puts its bytes there. -/
theorem poke_dev_bytes {s : State} (hs : s.store.wf = true) {own : Option Nat} {pa : Nat} {bs : List Byte}
    (h : ∀ i < bs.length, s.inAst (pa + i) = false) : (s.poke own .dev pa bs).1.peekBytes .dev pa bs.length = bs := by
  obtain ⟨hdev, -⟩ := Store.wf_memories hs
  rw [poke_dev h]
  exact map_read_writeBytes hdev pa bs

section
variable {s : State} {link : Nat} (hup : s.linkUp link = true) (hf : s.coh.flips = []) (hp : s.coh.poison = []) {pa : Nat}
include hup hf hp

theorem exec_peerLoad {n : Nat} (h : ∀ i < n, s.inCarveOut (pa + i) = false) :
    exec (.peerAccessRequest link (.load pa n)) s = .next { s with reply := s.peekBytes .dev pa n } := by
  change execPeerAccessRequest link (.load pa n) s = _
  simp [execPeerAccessRequest, hup, checkBytes_clean hp hf, peerRefused_clear hp h]

omit hf in
theorem exec_peerStore {data : List Byte} (h : ∀ i < data.length, s.inCarveOut (pa + i) = false) :
    exec (.peerAccessRequest link (.store pa data)) s =
      .next { (s.poke none .dev pa data).1 with reply := bytesOf 8 (s.completion none pa data.length) } := by
  change execPeerAccessRequest link (.store pa data) s = _
  simp [execPeerAccessRequest, hup, peerRefused_clear hp h, poke_dev_time]

theorem exec_peerAtomic {n : Nat} (h : ∀ i < n, s.inCarveOut (pa + i) = false) (k : Nat) (ty : Fmt) (a b : DWord) :
    let old := numberOf (s.peekBytes .dev pa n)
    exec (.peerAccessRequest link (.atomic k ty pa n a b)) s =
      .next { (s.poke none .dev pa (bytesOf n (atomicNew k ty (8 * n) old a.toNat b.toNat))).1 with
        reply := bytesOf n old ++ bytesOf 8 (s.completion none pa n) } := by
  intro old
  change execPeerAccessRequest link (.atomic k ty pa n a b) s = _
  simp [execPeerAccessRequest, hup, checkBytes_clean hp hf, peerRefused_clear hp h, poke_dev_time, old]

end

/-- Settles O50: link changes, then shards, then the three requests of a peer, each performed once nothing refuses it. -/
theorem causeways : Obligations.Causeways := by
  unfold Obligations.Causeways
  refine ⟨links_change, fun s j hj hb => shards_judged hj hb, fun s link =>
    ⟨fun hdown a => ?_, fun hup hf hp hs pa => ⟨fun n h => ?_, fun data h => ?_, ?_⟩⟩⟩
  · change execPeerAccessRequest link a s = _
    simp [execPeerAccessRequest, hdown]
  · exact ⟨_, exec_peerLoad hup hf hp h, rfl, rfl⟩
  · exact ⟨_, exec_peerStore hup hp fun i hi => (h i hi).1, poke_dev_bytes (own := none) hs fun i hi => (h i hi).2, rfl⟩
  · intro k ty n a b h
    let old := numberOf (s.peekBytes .dev pa n)
    let new := bytesOf n (atomicNew k ty (8 * n) old a.toNat b.toNat)
    have hlen : new.length = n := bytesOf_length ..
    have hbytes : (s.poke none .dev pa new).1.peekBytes .dev pa new.length = new :=
      poke_dev_bytes hs fun i hi => (h i (hlen ▸ hi)).2
    rw [hlen] at hbytes
    exact ⟨_, exec_peerAtomic hup hf hp (fun i hi => (h i hi).1) k ty a b, hbytes, rfl⟩

end Sys2Proof.Machine
end

section
/-!
PROOFS. The codes of operands, types, guards and modifiers: reading a code and writing it are inverse.
-/

namespace Sys2Proof

/-! ## Concatenations -/

theorem append_eq_iff {v w : Nat} {x : BitVec v} {y : BitVec w} {z : BitVec (v + w)} :
    x ++ y = z ↔ z.extractLsb' w v = x ∧ z.extractLsb' 0 w = y := by
  constructor
  · rintro rfl
    exact ⟨BitVec.extractLsb'_append_eq_left, BitVec.extractLsb'_append_eq_right⟩
  · rintro ⟨rfl, rfl⟩
    exact BitVec.extractLsb'_append_extractLsb'

theorem eq_append_iff {v w : Nat} {x : BitVec v} {y : BitVec w} {z : BitVec (v + w)} :
    z = x ++ y ↔ z.extractLsb' w v = x ∧ z.extractLsb' 0 w = y := eq_comm.trans append_eq_iff

/-- A field begins with `x` where the number of its high bits is that of `x`. -/
theorem eq_append_iff_toNat {v w : Nat} {x : BitVec v} {y : BitVec w} {z : BitVec (v + w)} :
    z = x ++ y ↔ z.toNat / 2 ^ w = x.toNat ∧ z.extractLsb' 0 w = y := by
  have hz : z.toNat / 2 ^ w < 2 ^ v := Nat.div_lt_of_lt_mul (by rw [← Nat.pow_add, Nat.add_comm w]; exact z.isLt)
  rw [eq_append_iff, ← BitVec.toNat_inj, BitVec.extractLsb'_toNat, Nat.shiftRight_eq_div_pow, Nat.mod_eq_of_lt hz]

theorem extractLsb'_extractLsb' {n : Nat} (x : BitVec n) {a b m k : Nat} (h : b + m ≤ k) :
    (x.extractLsb' a k).extractLsb' b m = x.extractLsb' (a + b) m := by
  ext i hi
  simp only [BitVec.getElem_extractLsb', BitVec.getLsbD_extractLsb', show b + i < k by omega, decide_true, Bool.true_and,
    Nat.add_assoc]

theorem extractLsb'_eq_ofBool {n : Nat} {b : Bool} {z : BitVec n} {k : Nat} :
    z.extractLsb' k 1 = BitVec.ofBool b ↔ z.getLsbD k = b := by
  rw [BitVec.getLsbD_eq_extractLsb']
  generalize z.extractLsb' k 1 = y
  revert b y
  decide

/-! ## Field codes -/

/-- A list of codes that names every meaning once, in a field wide enough for it: reading and writing a code are inverse. -/
theorem codeOf_eq_some {α : Type} [DecidableEq α] {xs : List α} (hx : xs.Nodup) (hall : ∀ x, x ∈ xs) {n : Nat} (hn : xs.length ≤ 2 ^ n)
    {c : BitVec n} {x : α} : codeOf xs c = some x ↔ c = codeFor xs n x := by
  rw [codeOf, codeFor, List.getElem?_eq_some_iff]
  constructor
  · rintro ⟨hc, rfl⟩
    rw [hx.idxOf_getElem, BitVec.ofNat_toNat, BitVec.setWidth_eq]
  · rintro rfl
    have hi : xs.idxOf x < xs.length := List.idxOf_lt_length_iff.mpr (hall x)
    have hv : (BitVec.ofNat n (xs.idxOf x)).toNat = xs.idxOf x := BitVec.toNat_ofNat .. |>.trans (Nat.mod_eq_of_lt (by omega))
    simp [hv, hi]

theorem hintCode_iff {c : BitVec 3} {x : Hint} : codeOf hintCodes c = some x ↔ c = codeFor hintCodes 3 x :=
  codeOf_eq_some (by decide) (by rintro ⟨⟩ <;> decide) (by decide)

theorem rndCode_iff {c : BitVec 3} {x : Rnd} : codeOf rndCodes c = some x ↔ c = codeFor rndCodes 3 x :=
  codeOf_eq_some (by decide) (by rintro ⟨⟩ <;> decide) (by decide)

theorem sizeCode_iff {c : BitVec 3} {x : Size} : codeOf sizeCodes c = some x ↔ c = codeFor sizeCodes 3 x :=
  codeOf_eq_some (by decide) (by rintro ⟨⟩ <;> decide) (by decide)

theorem spaceCode_iff {c : BitVec 2} {x : Space} : codeOf spaceCodes c = some x ↔ c = codeFor spaceCodes 2 x :=
  codeOf_eq_some (by decide) (by rintro ⟨⟩ <;> decide) (by decide)

theorem scopeCode_iff {c : BitVec 3} {x : Scope} : codeOf scopeCodes c = some x ↔ c = codeFor scopeCodes 3 x :=
  codeOf_eq_some (by decide) (by rintro ⟨⟩ <;> decide) (by decide)

theorem scaleCode_iff {c : BitVec 3} {x : Fin 5} : codeOf scaleCodes c = some x ↔ c = codeFor scaleCodes 3 x :=
  codeOf_eq_some (by decide) (by decide) (by decide)

theorem fmtCode_iff {c : BitVec 5} {t : Fmt} : Fmt.ofCode c.toNat = some t ↔ c = t.code := by
  constructor
  · revert c; cases t <;> decide
  · rintro rfl; cases t <;> rfl

theorem guardCode_iff {c : BitVec 4} {g : Guard} : Guard.ofCode c = g ↔ c = g.code := by
  obtain ⟨neg, p⟩ := g
  simp only [Guard.code, Guard.ofCode, Guard.mk.injEq]
  rw [eq_comm (a := c), append_eq_iff, extractLsb'_eq_ofBool]

/-- R110: the code of a special lies from 0xD0 on. -/
theorem specialCode_iff {c : BitVec 8} (hlo : 0xD0 ≤ c.toNat) {x : Special} :
    specialCodes[c.toNat - 0xD0]? = some x ↔ c = BitVec.ofNat 8 (0xD0 + specialCodes.idxOf x) := by
  constructor
  · intro h
    obtain ⟨hc, rfl⟩ := List.getElem?_eq_some_iff.mp h
    rw [List.Nodup.idxOf_getElem (by decide), Nat.add_sub_cancel' hlo, BitVec.ofNat_toNat, BitVec.setWidth_eq]
  · rintro rfl
    cases x <;> rfl

theorem Operand.ofCode_code (o : Operand) : Operand.ofCode o.code = some o := by
  cases o with
  | v n =>
    have hc : (0#1 ++ n).toNat / 128 = 0 := (eq_append_iff_toNat.mp rfl).1
    rw [Operand.ofCode, Operand.code, if_pos (by omega), BitVec.extractLsb'_append_eq_right]
  | s n =>
    have hc : (0b10#2 ++ n).toNat / 64 = 2 := (eq_append_iff_toNat.mp rfl).1
    rw [Operand.ofCode, Operand.code, if_neg (by omega), if_pos (by omega), BitVec.extractLsb'_append_eq_right]
  | p n =>
    have hc : (0b11000#5 ++ n).toNat / 8 = 24 := (eq_append_iff_toNat.mp rfl).1
    rw [Operand.ofCode, Operand.code, if_neg (by omega), if_neg (by omega), if_pos (by omega), BitVec.extractLsb'_append_eq_right]
  | q n =>
    have hc : (0b110010#6 ++ n).toNat / 4 = 50 := (eq_append_iff_toNat.mp rfl).1
    rw [Operand.ofCode, Operand.code, if_neg (by omega), if_neg (by omega), if_neg (by omega), if_pos (by omega),
      BitVec.extractLsb'_append_eq_right]
  | sp x => cases x <;> decide
  | none => rfl

theorem Operand.code_of_ofCode {c : BitVec 8} {o : Operand} (h : Operand.ofCode c = some o) : c = o.code := by
  unfold Operand.ofCode at h
  split at h
  · obtain rfl := Option.some.inj h
    exact (eq_append_iff_toNat (v := 1) (w := 7)).mpr ⟨show c.toNat / 128 = 0 by omega, rfl⟩
  split at h
  · obtain rfl := Option.some.inj h
    exact (eq_append_iff_toNat (v := 2) (w := 6)).mpr ⟨show c.toNat / 64 = 2 by omega, rfl⟩
  split at h
  · obtain rfl := Option.some.inj h
    exact (eq_append_iff_toNat (v := 5) (w := 3)).mpr ⟨show c.toNat / 8 = 24 by omega, rfl⟩
  split at h
  · obtain rfl := Option.some.inj h
    exact (eq_append_iff_toNat (v := 6) (w := 2)).mpr ⟨show c.toNat / 4 = 50 by omega, rfl⟩
  split at h
  · cases h
  split at h
  · obtain ⟨x, hx, rfl⟩ := Option.map_eq_some_iff.mp h
    exact (specialCode_iff (by omega)).mp hx
  split at h
  case isTrue hn =>
    obtain rfl := Option.some.inj h
    exact hn
  case isFalse => cases h

theorem operandCode_iff {c : BitVec 8} {o : Operand} : Operand.ofCode c = some o ↔ c = o.code :=
  ⟨Operand.code_of_ofCode, by rintro rfl; exact o.ofCode_code⟩

end Sys2Proof
end

section
/-!
PROOFS. The five formats: the fields read from a word are those that the word is written from.
-/

namespace Sys2Proof

/-! ## The fields of a word -/

theorem operandAt_eq_some {w : IWord} {lo : Nat} {o : Operand} : operandAt w lo = some o ↔ w.extractLsb' lo 8 = o.code := operandCode_iff

theorem fmtAt_eq_some {w : IWord} {lo : Nat} {t : Fmt} : fmtAt w lo = some t ↔ w.extractLsb' lo 5 = t.code := fmtCode_iff

/-- R105: the places of the common fields, in bits 45:27. -/
theorem Hdr.word_eq_iff {h : Hdr} {z : BitVec 19} : h.word = z ↔
    z.extractLsb' 15 4 = h.g1.code ∧ z.extractLsb' 11 4 = h.g2.code ∧ z.extractLsb' 8 3 = codeFor hintCodes 3 h.hint ∧
      z.extractLsb' 7 1 = BitVec.ofBool h.ce ∧ z.extractLsb' 0 7 = h.live := by
  rw [Hdr.word, append_eq_iff]
  simp (disch := decide) only [eq_append_iff, extractLsb'_extractLsb', and_assoc]

theorem decodeHdr_eq_some {w : IWord} {h : Hdr} : decodeHdr w = some h ↔ w.extractLsb' 27 19 = h.word := by
  obtain ⟨g1, g2, hint, ce, live⟩ := h
  rw [eq_comm (a := BitVec.extractLsb' ..), Hdr.word_eq_iff]
  simp (disch := decide) only [decodeHdr, extractLsb'_extractLsb', extractLsb'_eq_ofBool, Nat.reduceAdd,
    Option.bind_eq_bind, Option.bind_eq_some_iff, hintCode_iff, Option.pure_def, Option.some.injEq, Hdr.mk.injEq, guardCode_iff]
  grind

/-- R112: the places of the fields. -/
theorem Form.word_r_eq_iff {opc : BitVec 10} {f : RForm} {w : IWord} : Form.word opc (.r f) = w ↔
    opcOf w = opc ∧ w.extractLsb' 78 8 = f.a.code ∧ w.extractLsb' 70 8 = f.b.code ∧ w.extractLsb' 62 8 = f.c.code ∧
      w.extractLsb' 54 8 = f.d.code ∧ w.extractLsb' 46 8 = f.e.code ∧ w.extractLsb' 27 19 = f.h.word ∧
      w.extractLsb' 22 5 = f.ty.code ∧ w.extractLsb' 16 6 = f.subop ∧ w.extractLsb' 13 3 = codeFor rndCodes 3 f.rnd ∧
      w.getLsbD 12 = f.sat ∧ w.extractLsb' 0 12 = f.ent := by
  rw [Form.word, append_eq_iff]
  simp (disch := decide) only [eq_append_iff, extractLsb'_extractLsb', extractLsb'_eq_ofBool, and_assoc, opcOf]

/-- Each bind of `decodeR` reads one field, whose code has one meaning at most. The other formats follow the same way. -/
theorem decodeR_eq_some {w : IWord} {f : RForm} : decodeR w = some f ↔ Form.word (opcOf w) (.r f) = w := by
  obtain ⟨h, a, b, c, d, e, ty, subop, rnd, sat, ent⟩ := f
  simp only [Form.word_r_eq_iff, decodeR, Option.bind_eq_bind, Option.bind_eq_some_iff, Option.pure_def, Option.some.injEq,
    RForm.mk.injEq, operandAt_eq_some, fmtAt_eq_some, decodeHdr_eq_some, rndCode_iff, true_and]
  grind

/-- R113: the places of the fields. -/
theorem Form.word_i_eq_iff {opc : BitVec 10} {f : IForm} {w : IWord} : Form.word opc (.i f) = w ↔
    opcOf w = opc ∧ w.extractLsb' 78 8 = f.a.code ∧ w.extractLsb' 70 8 = f.b.code ∧
      w.extractLsb' 46 24 = f.imm.extractLsb' 8 24 ∧ w.extractLsb' 27 19 = f.h.word ∧
      w.extractLsb' 19 8 = f.imm.extractLsb' 0 8 ∧ w.extractLsb' 14 5 = f.ty.code ∧ w.extractLsb' 8 6 = f.subop ∧
      w.extractLsb' 0 8 = f.ent := by
  rw [Form.word, append_eq_iff]
  simp (disch := decide) only [eq_append_iff, extractLsb'_extractLsb', and_assoc, opcOf]

/-- R114: the places of the fields. -/
theorem Form.word_m_eq_iff {opc : BitVec 10} {f : MForm} {w : IWord} : Form.word opc (.m f) = w ↔
    opcOf w = opc ∧ w.extractLsb' 78 8 = f.a.code ∧ w.extractLsb' 70 8 = f.b.code ∧ w.extractLsb' 62 8 = f.c.code ∧
      w.extractLsb' 46 16 = f.off ∧ w.extractLsb' 27 19 = f.h.word ∧ w.extractLsb' 24 3 = codeFor sizeCodes 3 f.size ∧
      w.extractLsb' 22 2 = codeFor spaceCodes 2 f.space ∧ w.extractLsb' 19 3 = codeFor scopeCodes 3 f.scope ∧
      w.extractLsb' 16 3 = codeFor scaleCodes 3 f.scale ∧ w.extractLsb' 11 5 = f.ty.code ∧ w.extractLsb' 0 11 = f.ent := by
  rw [Form.word, append_eq_iff]
  simp (disch := decide) only [eq_append_iff, extractLsb'_extractLsb', and_assoc, opcOf]

/-- R115, R200: the places of the fields. -/
theorem Form.word_x_eq_iff {opc : BitVec 10} {f : XForm} {w : IWord} : Form.word opc (.x f) = w ↔
    opcOf w = opc ∧ w.getLsbD 85 = f.clr ∧ w.getLsbD 84 = f.isat ∧ w.extractLsb' 82 2 = f.urg ∧ w.extractLsb' 78 4 = f.tile ∧
      w.extractLsb' 70 8 = f.b.code ∧ w.extractLsb' 62 8 = f.c.code ∧ w.extractLsb' 54 8 = f.d.code ∧
      w.extractLsb' 46 8 = f.e.code ∧ w.extractLsb' 27 19 = f.h.word ∧ w.extractLsb' 24 3 = f.slotA ∧
      w.extractLsb' 21 3 = f.slotB ∧ w.extractLsb' 16 5 = f.km1 ∧ w.getLsbD 15 = f.cven ∧ w.extractLsb' 11 4 = f.cvn ∧
      w.extractLsb' 0 11 = f.variant := by
  rw [Form.word, append_eq_iff]
  simp (disch := decide) only [eq_append_iff, extractLsb'_extractLsb', extractLsb'_eq_ofBool, and_assoc, opcOf]

/-- R116: the places of the fields. -/
theorem Form.word_b_eq_iff {opc : BitVec 10} {f : BForm} {w : IWord} : Form.word opc (.b f) = w ↔
    opcOf w = opc ∧ w.extractLsb' 78 8 = f.a.code ∧ w.extractLsb' 70 8 = f.b.code ∧ w.extractLsb' 62 8 = f.c.code ∧
      w.extractLsb' 54 8 = f.d.code ∧ w.extractLsb' 46 8 = f.e.code ∧ w.extractLsb' 27 19 = f.h.word ∧
      w.extractLsb' 17 10 = f.tline ∧ w.extractLsb' 14 3 = f.tslot ∧ w.extractLsb' 0 14 = f.ent := by
  rw [Form.word, append_eq_iff]
  simp (disch := decide) only [eq_append_iff, extractLsb'_extractLsb', and_assoc, opcOf]

theorem decodeI_eq_some {w : IWord} {f : IForm} : decodeI w = some f ↔ Form.word (opcOf w) (.i f) = w := by
  obtain ⟨h, a, b, imm, ty, subop, ent⟩ := f
  have himm : w.extractLsb' 46 24 ++ w.extractLsb' 19 8 = imm ↔
    w.extractLsb' 46 24 = imm.extractLsb' 8 24 ∧ w.extractLsb' 19 8 = imm.extractLsb' 0 8 := by
    rw [append_eq_iff, eq_comm, eq_comm (a := BitVec.extractLsb' 0 8 imm)]
  simp only [Form.word_i_eq_iff, decodeI, Option.bind_eq_bind, Option.bind_eq_some_iff, Option.pure_def, Option.some.injEq,
    IForm.mk.injEq, operandAt_eq_some, fmtAt_eq_some, decodeHdr_eq_some, himm, true_and]
  grind

theorem decodeM_eq_some {w : IWord} {f : MForm} : decodeM w = some f ↔ Form.word (opcOf w) (.m f) = w := by
  obtain ⟨h, a, b, c, off, size, space, scope, scale, ty, ent⟩ := f
  simp only [Form.word_m_eq_iff, decodeM, Option.bind_eq_bind, Option.bind_eq_some_iff, Option.pure_def, Option.some.injEq,
    MForm.mk.injEq, operandAt_eq_some, fmtAt_eq_some, decodeHdr_eq_some, sizeCode_iff, spaceCode_iff, scopeCode_iff, scaleCode_iff,
    true_and]
  grind

theorem decodeX_eq_some {w : IWord} {f : XForm} : decodeX w = some f ↔ Form.word (opcOf w) (.x f) = w := by
  obtain ⟨h, clr, isat, urg, tile, b, c, d, e, slotA, slotB, km1, cven, cvn, variant⟩ := f
  simp only [Form.word_x_eq_iff, decodeX, Option.bind_eq_bind, Option.bind_eq_some_iff, Option.pure_def, Option.some.injEq,
    XForm.mk.injEq, operandAt_eq_some, decodeHdr_eq_some, true_and]
  grind

theorem decodeB_eq_some {w : IWord} {f : BForm} : decodeB w = some f ↔ Form.word (opcOf w) (.b f) = w := by
  obtain ⟨h, a, b, c, d, e, tline, tslot, ent⟩ := f
  simp only [Form.word_b_eq_iff, decodeB, Option.bind_eq_bind, Option.bind_eq_some_iff, Option.pure_def, Option.some.injEq,
    BForm.mk.injEq, operandAt_eq_some, decodeHdr_eq_some, true_and]
  grind

theorem opcOf_word (opc : BitVec 10) (g : Form) : opcOf (g.word opc) = opc := by
  cases g with
  | r f => exact (Form.word_r_eq_iff.mp rfl).1
  | i f => exact (Form.word_i_eq_iff.mp rfl).1
  | m f => exact (Form.word_m_eq_iff.mp rfl).1
  | x f => exact (Form.word_x_eq_iff.mp rfl).1
  | b f => exact (Form.word_b_eq_iff.mp rfl).1

end Sys2Proof
end

section
/-!
PROOFS. Decoding and encoding through the opcode map (O53, O54, O52).
-/

namespace Sys2Proof

/-! ## Rows of the tables -/

theorem build_eq_none {φ : Type} {t : List (Nat × (φ → Instr))} {opc : Nat} (h : t.lookup opc = none) (f : Option φ) :
    build t opc f = none := by rw [build, h, Option.map_none]

theorem build_eq_ok {φ : Type} {t : List (Nat × (φ → Instr))} {opc : Nat} {mk : φ → Instr} (h : t.lookup opc = some mk) {x : φ}
    (hx : (mk x).wellFormed = true) : build t opc (some x) = some (.ok (mk x)) := by
  obtain ⟨hops, htgt⟩ := Bool.and_eq_true_iff.mp hx
  simp [build, h, hops, htgt]

/-- Only a row of the table answers, with the fields read, once they pass rows 2 and 3 of R120. -/
theorem of_build_eq_ok {φ : Type} {t : List (Nat × (φ → Instr))} {opc : Nat} {f : Option φ} {i : Instr}
    (h : build t opc f = some (.ok i)) : ∃ mk x, (opc, mk) ∈ t ∧ f = some x ∧ mk x = i ∧ i.wellFormed = true := by
  obtain ⟨mk, hmk, hres⟩ := Option.map_eq_some_iff.mp h
  obtain ⟨xs, ys, rfl, -⟩ := List.lookup_eq_some_iff.mp hmk
  cases f with
  | none => cases hres
  | some x =>
    simp only [Bool.not_eq_true'] at hres
    split at hres
    · cases hres
    · split at hres
      · cases hres
      · obtain rfl := Except.ok.inj hres
        exact ⟨mk, x, by simp, rfl, rfl, by simp_all [Instr.wellFormed]⟩

theorem getD_orElse_cases {α : Type} {o p : Option α} {d x : α} (h : (o <|> p).getD d = x) : o = some x ∨ p.getD d = x := by
  cases o with
  | none => exact .inr h
  | some y => exact .inl (congrArg some h)

/-- What decoding answers comes from one of the five tables, or from none. -/
theorem decode_eq_ok_cases {w : IWord} {i : Instr} (h : decode w = .ok i) :
    build tableR (opcOf w).toNat (decodeR w) = some (.ok i) ∨ build tableI (opcOf w).toNat (decodeI w) = some (.ok i) ∨
    build tableM (opcOf w).toNat (decodeM w) = some (.ok i) ∨ build tableX (opcOf w).toNat (decodeX w) = some (.ok i) ∨
    build tableB (opcOf w).toNat (decodeB w) = some (.ok i) ∨ i = .unassignedOpcode w := by
  refine (getD_orElse_cases h).imp_right fun h => (getD_orElse_cases h).imp_right fun h => (getD_orElse_cases h).imp_right
    fun h => (getD_orElse_cases h).imp_right fun h => ?_
  cases hb : build tableB (opcOf w).toNat (decodeB w) with
  | none => exact .inr (by simpa [hb, eq_comm] using h)
  | some y => exact .inl (by simpa [hb] using h)

/-- The constructors of the rows of a table have the row's opcode and the table's format. -/
def Rows {φ : Type} (t : List (Nat × (φ → Instr))) (fmt : φ → Form) : Prop := ∀ r ∈ t, ∀ f, (r.2 f).form = some (r.1, fmt f)

theorem rows_tableR : Rows tableR .r := by
  intro r hr
  fin_cases hr <;> intro f <;> rfl

theorem rows_tableI : Rows tableI .i := by
  intro r hr
  fin_cases hr <;> intro f <;> rfl

theorem rows_tableM : Rows tableM .m := by
  intro r hr
  fin_cases hr <;> intro f <;> rfl

theorem rows_tableX : Rows tableX .x := by
  intro r hr
  fin_cases hr <;> intro f <;> rfl

theorem rows_tableB : Rows tableB .b := by
  intro r hr
  fin_cases hr <;> intro f <;> rfl

/-! ## Opcodes and fields -/

/-- What decoding makes of fields read in one of the formats: the first table that lists the opcode decides. -/
def Form.instr (opc : Nat) : Form → Option Instr
  | .r f => (tableR.lookup opc).map (· f)
  | .i f => if (tableR.lookup opc).isSome then none else (tableI.lookup opc).map (· f)
  | .m f => if (tableR.lookup opc).isSome ∨ (tableI.lookup opc).isSome then none else (tableM.lookup opc).map (· f)
  | .x f =>
    if (tableR.lookup opc).isSome ∨ (tableI.lookup opc).isSome ∨ (tableM.lookup opc).isSome then none
    else (tableX.lookup opc).map (· f)
  | .b f =>
    if (tableR.lookup opc).isSome ∨ (tableI.lookup opc).isSome ∨ (tableM.lookup opc).isSome ∨ (tableX.lookup opc).isSome then none
    else (tableB.lookup opc).map (· f)

theorem Instr.instr_of_form_r {i : Instr} {opc : Nat} {f : RForm} (h : i.form = some (opc, .r f)) :
    (Form.r f).instr opc = some i := by
  cases i <;> cases h <;> rfl

theorem Instr.instr_of_form_i {i : Instr} {opc : Nat} {f : IForm} (h : i.form = some (opc, .i f)) :
    (Form.i f).instr opc = some i := by
  cases i <;> cases h <;> rfl

theorem Instr.instr_of_form_m {i : Instr} {opc : Nat} {f : MForm} (h : i.form = some (opc, .m f)) :
    (Form.m f).instr opc = some i := by
  cases i <;> cases h <;> rfl

theorem Instr.instr_of_form_x {i : Instr} {opc : Nat} {f : XForm} (h : i.form = some (opc, .x f)) :
    (Form.x f).instr opc = some i := by
  cases i <;> cases h <;> rfl

theorem Instr.instr_of_form_b {i : Instr} {opc : Nat} {f : BForm} (h : i.form = some (opc, .b f)) :
    (Form.b f).instr opc = some i := by
  cases i <;> cases h <;> rfl

theorem Instr.instr_of_form {i : Instr} {opc : Nat} {g : Form} (h : i.form = some (opc, g)) : g.instr opc = some i := by
  cases g with
  | r f => exact Instr.instr_of_form_r h
  | i f => exact Instr.instr_of_form_i h
  | m f => exact Instr.instr_of_form_m h
  | x f => exact Instr.instr_of_form_x h
  | b f => exact Instr.instr_of_form_b h

/-- R105: the opcodes fit their field. -/
theorem Instr.opc_lt {i : Instr} {opc : Nat} {g : Form} (h : i.form = some (opc, g)) : opc < 2 ^ 10 := by
  cases i <;> cases h <;> decide

theorem encode_of_form {i : Instr} {opc : Nat} {g : Form} (h : i.form = some (opc, g)) : encode i = some (g.word (BitVec.ofNat 10 opc)) := by
  unfold encode
  rw [h]

/-- The fields that a word holds in a format. -/
def Form.Reads (w : IWord) : Form → Prop
  | .r f => decodeR w = some f
  | .i f => decodeI w = some f
  | .m f => decodeM w = some f
  | .x f => decodeX w = some f
  | .b f => decodeB w = some f

theorem Form.reads_iff {w : IWord} {g : Form} : g.Reads w ↔ g.word (opcOf w) = w := by
  cases g with
  | r f => exact decodeR_eq_some
  | i f => exact decodeI_eq_some
  | m f => exact decodeM_eq_some
  | x f => exact decodeX_eq_some
  | b f => exact decodeB_eq_some

theorem Form.reads_word (opc : BitVec 10) (g : Form) : g.Reads (g.word opc) := by rw [Form.reads_iff, opcOf_word]

theorem decode_of_reads {w : IWord} {g : Form} {i : Instr} (hg : g.Reads w) (hi : g.instr (opcOf w).toNat = some i)
    (hwf : i.wellFormed = true) : decode w = .ok i := by
  cases g <;> simp only [Form.Reads, Form.instr, Option.map_eq_some_iff, Option.ite_none_left_eq_some, not_or,
    Option.not_isSome_iff_eq_none] at hg hi
  case r f =>
    obtain ⟨mk, hmk, rfl⟩ := hi
    simp [decode, hg, build_eq_ok hmk hwf]
  case i f =>
    obtain ⟨hr, mk, hmk, rfl⟩ := hi
    simp [decode, hg, build_eq_ok hmk hwf, build_eq_none hr]
  case m f =>
    obtain ⟨⟨hr, hj⟩, mk, hmk, rfl⟩ := hi
    simp [decode, hg, build_eq_ok hmk hwf, build_eq_none hr, build_eq_none hj]
  case x f =>
    obtain ⟨⟨hr, hj, hm⟩, mk, hmk, rfl⟩ := hi
    simp [decode, hg, build_eq_ok hmk hwf, build_eq_none hr, build_eq_none hj, build_eq_none hm]
  case b f =>
    obtain ⟨⟨hr, hj, hm, hx⟩, mk, hmk, rfl⟩ := hi
    simp [decode, hg, build_eq_ok hmk hwf, build_eq_none hr, build_eq_none hj, build_eq_none hm, build_eq_none hx]

/-- A row's instruction, with the fields that a word holds under the row's opcode, has that word. -/
theorem encode_of_row {φ : Type} {t : List (Nat × (φ → Instr))} {fmt : φ → Form} (ht : Rows t fmt) {w : IWord} {mk : φ → Instr}
    (hmk : ((opcOf w).toNat, mk) ∈ t) {x : φ} (hx : (fmt x).Reads w) : encode (mk x) = some w := by
  rw [encode_of_form (ht _ hmk x), BitVec.ofNat_toNat, BitVec.setWidth_eq, Form.reads_iff.mp hx]

theorem of_build_row {φ : Type} {t : List (Nat × (φ → Instr))} {fmt : φ → Form} (ht : Rows t fmt) {w : IWord} {f : Option φ} {i : Instr}
    (hf : ∀ x, f = some x → (fmt x).Reads w) (h : build t (opcOf w).toNat f = some (.ok i)) :
    i.wellFormed = true ∧ encode i = some w := by
  obtain ⟨mk, x, hmk, hx, rfl, hwf⟩ := of_build_eq_ok h
  exact ⟨hwf, encode_of_row ht hmk (hf x hx)⟩

/-! ## The obligations -/

/-- Settles O53: a well-formed instruction is the one its opcode's table makes of the fields that its word holds. -/
theorem encodeDecode : Obligations.EncodeDecode := by
  unfold Obligations.EncodeDecode
  intro i hform hwf
  obtain ⟨⟨opc, g⟩, hi⟩ := Option.isSome_iff_exists.mp hform
  refine ⟨_, encode_of_form hi, decode_of_reads (Form.reads_word _ _) ?_ hwf⟩
  rw [opcOf_word, BitVec.toNat_ofNat, Nat.mod_eq_of_lt (Instr.opc_lt hi)]
  exact Instr.instr_of_form hi

/-- Settles O54: what a word decodes to comes from a row of one table, or from none. -/
theorem decodeEncode : Obligations.DecodeEncode := by
  unfold Obligations.DecodeEncode
  intro w i h
  rcases decode_eq_ok_cases h with hr | hi | hm | hx | hb | rfl
  · exact of_build_row rows_tableR (fun _ hx => hx) hr
  · exact of_build_row rows_tableI (fun _ hx => hx) hi
  · exact of_build_row rows_tableM (fun _ hx => hx) hm
  · exact of_build_row rows_tableX (fun _ hx => hx) hx
  · exact of_build_row rows_tableB (fun _ hx => hx) hb
  · exact ⟨rfl, rfl⟩

/-- Settles O52: the decoder evaluated on each of the words. -/
theorem decodeWords : Obligations.DecodeWords := by
  unfold Obligations.DecodeWords
  exact ⟨rfl, rfl, rfl, rfl, rfl, rfl, rfl, rfl⟩

end Sys2Proof
end

section
/-!
PROOFS. BRA, CALL, RET, LOOP and BRX (O24): taken branches to legal targets, and BRX's table in scratchpad.
-/

namespace Sys2Proof.Machine

/-! ## Targets (R104) -/

theorem badTarget_legal {s : State} {x : Ctx} {ts : List PC} (h : ∀ p ∈ ts, s.targetOk x.core x.c.part x.c.prog p = true) :
    s.badTarget x ts = none := by
  unfold State.badTarget
  rw [List.filter_eq_nil_iff.mpr fun p hp => by simp [h p hp]]
  rfl

/-- Lanes that all go to one illegal target: it is the lowest. -/
theorem badTarget_one {s : State} {x : Ctx} {ts : List PC} {q : PC} (hne : ts ≠ []) (hq : ∀ p ∈ ts, p = q)
    (h : ¬s.targetOk x.core x.c.part x.c.prog q = true) : s.badTarget x ts = some q := by
  unfold State.badTarget
  rw [List.filter_eq_self.mpr fun p hp => by simp [hq p hp, h]]
  cases ts with
  | nil => exact absurd rfl hne
  | cons p ts =>
    obtain ⟨rfl, hq⟩ := List.forall_mem_cons.mp hq
    refine List.foldlRecOn (l := ts) (b := some p) (motive := fun o => o = some p) _ rfl fun o ho r hr => ?_
    rw [ho, hq r hr]
    exact congrArg some (ite_self p)

theorem branch_legal {s t : State} {x : Ctx} {taken : List (Nat × PC)}
    (h : ∀ p ∈ taken.map (·.2), s.targetOk x.core x.c.part x.c.prog p = true) : x.branch s taken t = .jump t taken := by
  rw [Ctx.branch, badTarget_legal h]

theorem begun_targetOk (s : State) (y : Ctx) : (s.begun y).targetOk = s.targetOk := by
  funext core part prog pc
  exact targetOk_congr rfl rfl core part prog pc

theorem targetOk_toTarget {s : State} {y : Ctx} {p : PC} (hp : s.targetOk y.core y.c.part y.c.prog p = true) :
    ∀ q ∈ (y.toTarget p).map (·.2), (s.begun y).targetOk y.core y.c.part y.c.prog q = true := by
  rw [begun_targetOk]
  simp only [Ctx.toTarget, List.map_map, List.mem_map]
  rintro _ ⟨-, -, rfl⟩
  exact hp

/-! ## Lanes taken -/

theorem lookup_map_pair {β : Type} (ls : List Nat) (g : Nat → β) (l : Nat) :
    (ls.map fun k => (k, g k)).lookup l = if l ∈ ls then some (g l) else none := by
  induction ls with
  | nil => rfl
  | cons k ls ih =>
    by_cases h : l = k
    · simp [h]
    · simp [List.lookup_cons, beq_eq_false_iff_ne.mpr h, h, ih]

theorem taken_target (ls : List Nat) (g : Nat → PC) (p : PC) (l : Nat) :
    ((ls.map fun k => (k, g k)).lookup l).getD p = if l ∈ ls then g l else p := by
  rw [lookup_map_pair]
  split <;> rfl

section
variable {i : Instr} {s : State} {x y : Ctx} (hi : Issues i s x y) (hp : Plain y)
include hi hp

/-- A branch whose effect is on its own convoy alone. -/
theorem jumps_taken {body : Ctx → State → Effect} {T : State} {ls : List Nat} {g : Nat → PC} {v : Convoy}
    (he : exec i s = issue i (hdrOf i) body s) (hb : body y (s.begun y) = .jump T (ls.map fun l => (l, g l))) (hw : Wrote s T x v)
    (hrest : T = { s with cols := T.cols }) (hl : ∀ l, (v.lane l).live = (y.v.lane l).live) :
    Jumps i s x v fun l => if l ∈ ls then g l else nextPc y.pc := by
  obtain ⟨-, c, d, -, hd, -, -, hv⟩ := hw.own
  refine jumps_to hi hp.element he hb (by simp [State.convoy?, hd, hv]) hl _ (fun l => taken_target ls g _ l) hw.own ?_
  rw [hrest]

/-- The branch's convoy put back. -/
theorem jumps_put {body : Ctx → State → Effect} {ls : List Nat} {g : Nat → PC} {v : Convoy}
    (he : exec i s = issue i (hdrOf i) body s) (hb : body y (s.begun y) = .jump ((s.begun y).put y v) (ls.map fun l => (l, g l)))
    (hl : ∀ l, (v.lane l).live = (y.v.lane l).live) : Jumps i s x v fun l => if l ∈ ls then g l else nextPc y.pc :=
  jumps_taken hi hp he hb (wrote_put (begun_wrote hi) (issues_cur hi) v) rfl hl

end

/-! ## BRA, CALL, RET and LOOP -/

section
variable {f : BForm} {s : State} {x y : Ctx} (hp : Plain y)
include hp

theorem bra_jumps (hi : Issues (.bra f) s x y) (hok : s.targetOk y.core y.c.part y.c.prog (BForm.target f (pcHandle y.pc)) = true) :
    Jumps (.bra f) s x y.v fun l => if l ∈ y.act then BForm.target f (pcHandle y.pc) else nextPc y.pc := by
  refine jumps_taken hi hp rfl ?_ (begun_wrote hi) rfl fun _ => rfl
  rw [settleUnd_decided hp.decided]
  exact branch_legal (targetOk_toTarget hok)

omit hp in
theorem bra_faults (hi : Issues (.bra f) s x y) (ha : y.act ≠ [])
    (hbad : ¬s.targetOk y.core y.c.part y.c.prog (BForm.target f (pcHandle y.pc)) = true) :
    Faults (.bra f) s x (s.begun y) y.group cBranch (BitVec.setWidth 64 (BForm.target f (pcHandle y.pc))) 0 := by
  have hlow : (s.begun y).badTarget y ((y.toTarget (BForm.target f (pcHandle y.pc))).map (·.2)) = some (BForm.target f (pcHandle y.pc)) := by
    refine badTarget_one (by simpa [Ctx.toTarget] using ha) ?_ (by rwa [begun_targetOk])
    simp only [Ctx.toTarget, List.map_map, List.mem_map]
    rintro _ ⟨-, -, rfl⟩
    rfl
  refine faults_of hi rfl ?_
  simp only [Ctx.branch, hlow, Ctx.fail, BitVec.ofNat_toNat]

theorem call_jumps (hi : Issues (.call f) s x y) (hok : s.targetOk y.core y.c.part y.c.prog (BForm.target f (pcHandle y.pc)) = true) :
    Jumps (.call f) s x (y.v.onLanes y.act fun _ l => { l with lnk := nextPc y.pc })
      fun l => if l ∈ y.act then BForm.target f (pcHandle y.pc) else nextPc y.pc := by
  refine jumps_put hi hp rfl ?_ fun l => ?_
  · simp only [settleUnd_decided hp.decided]
    exact branch_legal (targetOk_toTarget hok)
  · rw [lane_onLanes]
    split <;> rfl

theorem ret_jumps (hi : Issues (.ret f) s x y) (hok : ∀ l ∈ y.act, s.targetOk y.core y.c.part y.c.prog (y.v.lane l).lnk = true ∧
    pcHandle (y.v.lane l).lnk = pcHandle y.pc) : Jumps (.ret f) s x y.v fun l => if l ∈ y.act then (y.v.lane l).lnk else nextPc y.pc := by
  have hlegal : ∀ p ∈ (y.act.map fun l => (l, (y.v.lane l).lnk)).map (·.2), (s.begun y).targetOk y.core y.c.part y.c.prog p = true ∧
      pcHandle p = pcHandle y.pc := by
    rw [begun_targetOk]
    simpa using hok
  refine jumps_taken hi hp rfl ?_ (begun_wrote hi) rfl fun _ => rfl
  have hforeign : ((y.act.map fun l => (l, (y.v.lane l).lnk)).map (·.2)).filter (fun p => pcHandle p != pcHandle y.pc) = [] :=
    List.filter_eq_nil_iff.mpr fun p hp => by simp [(hlegal p hp).2]
  have hillegal : ((y.act.map fun l => (l, (y.v.lane l).lnk)).map (·.2)).filter
      (fun p => !(s.begun y).targetOk y.core y.c.part y.c.prog p) = [] :=
    List.filter_eq_nil_iff.mpr fun p hp => by simp [(hlegal p hp).1]
  simp only [hforeign, hillegal, List.nil_append, settleUnd_decided hp.decided]
  exact branch_legal fun p hp => (hlegal p hp).1

/-- R221: a LOOP that counts to `c`, which goes on while that is not 0. -/
theorem loop_jumps {n : BitVec 6} (hb : f.b = .s n) (hi : Issues (.loop f) s x y) (ha : y.act ≠ []) {ls : List Nat}
    (hls : ls = if y.v.sreg n.toNat - 1 = 0 then [] else y.act)
    (hok : ls ≠ [] → s.targetOk y.core y.c.part y.c.prog (BForm.target f (pcHandle y.pc)) = true) :
    Jumps (.loop f) s x (y.v.setSreg n.toNat (y.v.sreg n.toNat - 1))
      fun l => if l ∈ ls then BForm.target f (pcHandle y.pc) else nextPc y.pc := by
  have hc : BitVec.ofNat 32 (y.uni (.s n)) - 1 = y.v.sreg n.toNat - 1 := by simp [Ctx.uni, Convoy.wideSreg]
  have htaken : (if y.v.sreg n.toNat - 1 = 0 then [] else y.toTarget (BForm.target f (pcHandle y.pc))) =
      ls.map fun l => (l, BForm.target f (pcHandle y.pc)) := by
    rw [hls]
    split <;> rfl
  refine jumps_put hi hp rfl ?_ fun l => rfl
  simp only [hb, hc, htaken, List.isEmpty_eq_false_iff.mpr ha, Bool.false_eq_true, if_false, settleUnd_decided hp.decided]
  refine branch_legal fun p hm => ?_
  simp only [List.map_map, List.mem_map] at hm
  obtain ⟨l, hl, rfl⟩ := hm
  rw [begun_targetOk]
  exact hok (List.ne_nil_of_mem hl)

end

/-! ## BRX -/

/-- Two bytes at an even offset lie in one bank. -/
theorem spadByte_half {banks : List Nat} {off : Nat} (ha : off % 2 = 0) (hin : off + 2 ≤ spadSize banks) :
    ∃ a, ∀ i < 2, spadByte banks (off + i) = some (a + i) := by
  have hbank : off / 32768 < banks.length := by
    unfold spadSize at hin
    omega
  refine ⟨banks[off / 32768] * 32768 + off % 32768, fun i hi => ?_⟩
  have hsame : (off + i) / 32768 = off / 32768 := by omega
  have hmod : (off + i) % 32768 = off % 32768 + i := by omega
  rw [spadByte, hsame, hmod, List.getElem?_eq_getElem hbank, Option.map_some, Nat.add_assoc]

/-- The piece of scratchpad that an entry of BRX's table is. -/
def entryPiece (banks : List Nat) (l off : Nat) : Piece :=
  { grp := 0, lane := l, loc := .spad, addr := (spadByte banks off).getD 0, n := 2, off := 0, va := off }

/-- An entry in the allocation is read where its offset puts it. -/
theorem peek_entryPiece (s : State) {banks : List Nat} {off : Nat} (ha : off % 2 = 0) (hin : off + 2 ≤ spadSize banks) (l : Nat) :
    numberOf (s.peekBytes .spad (entryPiece banks l off).addr 2) = s.spadNum banks off 2 := by
  obtain ⟨a, hplace⟩ := spadByte_half ha hin
  have hoff : spadByte banks off = some a := hplace 0 (by omega)
  have h0 : (entryPiece banks l off).addr = a := by simp [entryPiece, hoff]
  rw [h0, State.spadNum]
  refine congrArg numberOf (List.map_congr_left fun i hi => ?_)
  rw [hplace i (List.mem_range.mp hi)]
  rfl

theorem resolve_entries (s : State) (y : Ctx) {ls : List Nat} {base : Nat} {i : Nat → Nat}
    (hin : ∀ l ∈ ls, base + 2 * i l + 2 ≤ spadSize y.c.banks) :
    s.resolve y .scratch .read anyLoc (ls.map fun l => brxWant base l (i l)) =
      .ok (ls.map fun l => entryPiece y.c.banks l (base + 2 * i l), s) := by
  induction ls with
  | nil => rfl
  | cons l ls ih =>
    obtain ⟨hl, hls⟩ := List.forall_mem_cons.mp hin
    have hbank : (base + 2 * i l) / 32768 < y.c.banks.length := by
      unfold spadSize at hl
      omega
    have h1 : s.resolve1 y .scratch .read anyLoc (brxWant base l (i l)) = .ok (entryPiece y.c.banks l (base + 2 * i l), s) := by
      simp only [State.resolve1, brxWant, Int.toNat_natCast, gt_iff_lt, Nat.not_lt.mpr hl, if_false]
      simp [spadByte, hbank, entryPiece]
    simp only [List.map_cons, State.resolve, h1, ih hls]

/-- Nothing of the convoy still has to read or write, no copy owns and no poison marks a piece. -/
theorem piece_free {s : State} {y : Ctx} (hops : ∀ o ∈ s.ops, o.col = y.cur.col → o.cv = y.cur.cv → o.pieces = [])
    (hmx : ∀ e ∈ s.eng.mx, e.col = y.cur.col → e.cv = y.cur.cv → e.left = 0) (hjobs : ∀ j ∈ s.eng.jobs, j.pend = []) (p : Piece)
    (write : Bool) : s.earlierPending y.cur.col y.cur.cv s.nextId p = false ∧
      s.tileTransfers y.cur.col y.cur.cv s.nextId p write = false ∧ s.owned p = false := by
  refine ⟨?_, ?_, ?_⟩
  · simp only [State.earlierPending, List.any_eq_false, Bool.and_eq_true, beq_iff_eq]
    rintro o ho ⟨⟨⟨⟨hcol, hcv⟩, -⟩, -⟩, hm⟩
    simp [hops o ho hcol hcv] at hm
  · simp only [State.tileTransfers, Bool.and_eq_false_iff, List.any_eq_false, Bool.and_eq_true, beq_iff_eq, decide_eq_true_eq]
    right
    rintro e he ⟨⟨⟨⟨hcol, hcv⟩, hleft⟩, -⟩, -⟩
    exact absurd (hmx e he hcol hcv) (Nat.pos_iff_ne_zero.mp hleft)
  · simp only [State.owned, List.any_eq_false]
    intro j hj
    simp [hjobs j hj]

/-- R222: the index of a lane. -/
def BForm.index (f : BForm) (y : Ctx) (l : Nat) : Int := signedOf 32 (y.src l f.d)

/-- R222: a lane's index lies in the table. -/
def BForm.inTable (f : BForm) (y : Ctx) (l : Nat) : Bool :=
  decide (0 ≤ BForm.index f y l ∧ BForm.index f y l < bitsOf f.ent.toNat 0 10 + 1)

/-- R222: the offset of a lane's entry. -/
def BForm.entryAt (f : BForm) (y : Ctx) (l : Nat) : Nat := y.uni f.b + 2 * (BForm.index f y l).toNat

/-- R222: the target that a table entry names. -/
def entryTarget (y : Ctx) (e : Nat) : PC := mkPc (pcHandle y.pc) (bitsOf e 3 10) (bitsOf e 0 3)

theorem filterMap_ite {α β : Type} (p : α → Prop) [DecidablePred p] (g : α → β) (xs : List α) :
    (xs.filterMap fun a => if p a then some (g a) else none) = (xs.filter fun a => p a).map g := by
  induction xs with
  | nil => rfl
  | cons a xs ih => by_cases h : p a <;> simp [h, ih]

theorem brx_jumps {f : BForm} {s : State} {x y : Ctx} (hp : Plain y) (hi : Issues (.brx f) s x y)
    (hbase : y.uni f.b % 2 = 0)
    (hops : ∀ o ∈ s.ops, o.col = y.cur.col → o.cv = y.cur.cv → o.pieces = [])
    (hmx : ∀ e ∈ s.eng.mx, e.col = y.cur.col → e.cv = y.cur.cv → e.left = 0) (hjobs : ∀ j ∈ s.eng.jobs, j.pend = [])
    (hpoison : s.coh.poison = [])
    (hin : ∀ l ∈ y.act, BForm.inTable f y l = true → BForm.entryAt f y l + 2 ≤ spadSize y.c.banks ∧
      s.targetOk y.core y.c.part y.c.prog (entryTarget y (s.spadNum y.c.banks (BForm.entryAt f y l) 2)) = true) :
    Jumps (.brx f) s x y.v fun l => if l ∈ y.act.filter (BForm.inTable f y)
      then entryTarget y (s.spadNum y.c.banks (BForm.entryAt f y l) 2) else nextPc y.pc := by
  generalize hls : y.act.filter (BForm.inTable f y) = ls
  have hmem {l : Nat} (hl : l ∈ ls) := hin l (List.mem_of_mem_filter (hls ▸ hl)) (List.mem_filter.mp (hls ▸ hl)).2
  have hused : (y.act.filterMap fun l => if 0 ≤ signedOf 32 (y.read l f.d).lo ∧
      signedOf 32 (y.read l f.d).lo < ((bitsOf f.ent.toNat 0 10 + 1 : Nat) : Int) then
      some (l, (signedOf 32 (y.read l f.d).lo).toNat) else none) = ls.map fun l => (l, (BForm.index f y l).toNat) := by
    rw [← hls, filterMap_ite]
    rfl
  have hres := resolve_entries (s.begun y) y (base := y.uni f.b) (i := fun l => (BForm.index f y l).toNat) fun l hl => (hmem hl).1
  have hfree (p : Piece) : (s.begun y).earlierPending y.cur.col y.cur.cv s.nextId p = false ∧
      (s.begun y).tileTransfers y.cur.col y.cur.cv s.nextId p false = false ∧ (s.begun y).owned p = false :=
    piece_free (s := s.begun y) hops hmx hjobs p false
  have hclean (p : Piece) : (s.begun y).poisoned p = false := by simp [State.poisoned, hpoison]
  refine jumps_taken hi hp rfl ?_ (begun_wrote hi) rfl fun _ => rfl
  simp only [hp.element, Bool.false_and, List.filter_false, List.contains_nil, Bool.not_false, List.filter_true, hused, List.map_map,
    Function.comp_def, hbase, zero_ne_one, false_and, if_false, hres]
  rw [if_neg (by simp [hfree]), List.find?_eq_none.mpr fun p _ => by simp [hclean p], List.append_nil, hp.decided]
  dsimp only
  have htaken : (ls.map fun l => ((entryPiece y.c.banks l (BForm.entryAt f y l)).lane, entryTarget y
      (numberOf ((s.begun y).peekBytes .spad (entryPiece y.c.banks l (BForm.entryAt f y l)).addr 2)))) =
      ls.map fun l => (l, entryTarget y (s.spadNum y.c.banks (BForm.entryAt f y l) 2)) := by
    refine List.map_congr_left fun l hl => ?_
    have heven : BForm.entryAt f y l % 2 = 0 := by
      unfold BForm.entryAt
      omega
    rw [peek_entryPiece _ heven (hmem hl).1, spadNum_of_spad (s := s) rfl]
    rfl
  refine (congrArg (fun taken => y.branch (s.begun y) taken (s.begun y)) htaken).trans (branch_legal fun p hm => ?_)
  simp only [List.map_map, List.mem_map] at hm
  obtain ⟨l, hl, rfl⟩ := hm
  rw [begun_targetOk]
  exact (hmem hl).2

/-- Settles O24: each branch by what its body makes of legal targets, and BRA's one illegal target by `bra_faults`. -/
theorem branches : Obligations.Branches := by
  unfold Obligations.Branches
  intro f s x y hp ok target dst
  refine ⟨fun hi hok => bra_jumps hp hi hok, fun hi ha hbad => bra_faults hi ha hbad, fun hi hok => call_jumps hp hi hok,
    fun hi hok => ret_jumps hp hi hok, fun n hb hi ha => ?_, fun hi hbase hops hmx hjobs hpoison => ?_⟩
  · intro c
    refine ⟨fun hc hok => loop_jumps hp hb hi ha (if_neg hc).symm fun _ => hok, fun hc => ?_⟩
    have h := loop_jumps hp hb hi ha (if_pos hc).symm fun h => absurd rfl h
    simp only [List.not_mem_nil, if_false] at h
    exact h
  · intro i used off e dest hin
    have h := brx_jumps hp hi hbase hops hmx hjobs hpoison fun l hl hu => hin l hl (of_decide_eq_true hu)
    have hdst : (fun l => if l ∈ y.act.filter (BForm.inTable f y)
        then entryTarget y (s.spadNum y.c.banks (BForm.entryAt f y l) 2) else nextPc y.pc) =
        dst fun l => if used l then dest l else nextPc y.pc := by
      funext l
      have hmem : l ∈ y.act.filter (BForm.inTable f y) ↔ l ∈ y.act ∧ used l := List.mem_filter.trans (and_congr_right' decide_eq_true_iff)
      rw [if_congr hmem rfl rfl, ite_and]
      rfl
    rw [← hdst]
    exact h

end Sys2Proof.Machine
end

section
/-!
PROOFS. FWCALL, words without an opcode and the reading again of a line (O32).
-/

namespace Sys2Proof.Machine

section
variable {f : IForm} {s : State} {x y : Ctx} (hi : Issues (.fwcall f) s x y) (ha : y.act ≠ [])
include hi ha

theorem fwcall_stalls (hf : (s.begun y).fenceDev y = false) : StallsAt (.fwcall f) s x (s.begun y) :=
  stalls_begun hi rfl (by simp [ha, hf])

/-- R237: the call joins its partition's queue. -/
theorem fwcall_waits (hf : (s.begun y).fenceDev y = true) :
    WaitsAt (.fwcall f) s x ({ s.begun y with calls := s.calls ++ [(y.c.part, y.cur.col, y.cur.cv)] }.forbidRollback y.cur.col)
      (.fwcall (f.imm.toNat % 2 ^ 16) (if f.b = .none then none else some (BitVec.ofNat 64 (y.uni f.b 2))) f.a none) none := by
  refine waits_at hi rfl (v := y.v) ?_ ?_
  · simp [ha, hf, bitsOf]
  · rw [issues_cur hi, convoy_forbid]
    exact (convoy_cols rfl _ _).trans (begun_convoy hi)

end

/-- R119: the opcode is judged before any guard. -/
theorem unassigned_faults (w : IWord) {s : State} {x : Ctx} (hx : s.ctx plainHdr = some x) :
    Faults (.unassignedOpcode w) s x s x.group cIllegal (BitVec.ofNat 64 x.pc.toNat) 0 := by
  change execUnassignedOpcode w s = _
  unfold plainHdr at hx
  simp only [execUnassignedOpcode, hx]
  rfl

/-! ## A line read again (R103) -/

/-- The state in which the line at `a` of an overlay has been read again from its image. -/
def State.lineReread (s : State) (x : Ctx) (r : Residency) (a : Nat) (d : DirEntry) : State :=
  let u := (s.blackBox 2 x.c.part 5 0 x.pc.toNat).rangeRead ⟨x.core, none⟩ x.c.part x.r.ctx (some (.engine x.core, s.now + x.r.lease))
    (d.image + 64 * pcLine x.pc) 64
  match s.vaBytes ⟨x.core, none⟩ x.c.part x.r.ctx (d.image + 64 * pcLine x.pc) 64 with
  | some line => { u with store := { u.store with istore := copyLine u.store.istore a line r.gen.toNat } }
  | none => u

section
variable {s : State} {x : Ctx} {r : Residency} {a : Nat} {d : DirEntry} (hx : s.ctx plainHdr = some x)
  (hl : s.lineFor x.core x.c.part x.c.prog x.pc = some (r, a)) (hd : x.r.dirEntry (pcHandle x.pc) = some d)

include hl hd in
theorem reloadLine_eq : s.reloadLine x = match (s.lineReread x r a d).fetch x.core x.c.part x.c.prog x.pc with
    | .parity => ((s.lineReread x r a d).report x.c x.v.quad cUncorrectable 0 1 0).kill x.cur.col
    | _ => s.lineReread x r a d := by
  simp only [State.reloadLine, hl, hd]
  rfl

include hx in
theorem exec_parityRetry : exec .fetchParityRetry s = .next { s.reloadLine x with cur := none } := by
  change execFetchParityRetry s = _
  unfold plainHdr at hx
  simp only [execFetchParityRetry, hx]

include hx hl hd

theorem parityRetry_reread (h : (s.lineReread x r a d).fetch x.core x.c.part x.c.prog x.pc ≠ .parity) :
    exec .fetchParityRetry s = .next { s.lineReread x r a d with cur := none } := by
  rw [exec_parityRetry hx, reloadLine_eq hl hd]
  split
  next hp => exact absurd hp h
  · rfl

theorem parityRetry_kills (h : (s.lineReread x r a d).fetch x.core x.c.part x.c.prog x.pc = .parity) :
    exec .fetchParityRetry s =
      .next { ((s.lineReread x r a d).report x.c x.v.quad cUncorrectable 0 1 0).kill x.cur.col with cur := none } := by
  rw [exec_parityRetry hx, reloadLine_eq hl hd, h]

end

/-- Settles O32: FWCALL by the branch of its body that is taken, a word without an opcode by its fault, and the reading again of a line
by what the line's second fetch gives. -/
theorem firmwareCallsAndFetch : Obligations.FirmwareCallsAndFetch := by
  unfold Obligations.FirmwareCallsAndFetch
  refine ⟨fun f s x y hi ha => ⟨fwcall_stalls hi ha, fwcall_waits hi ha⟩, fun w s x hx => unassigned_faults w hx,
    fun s x r a d hx hl hd => ⟨parityRetry_reread hx hl hd, parityRetry_kills hx hl hd⟩⟩

end Sys2Proof.Machine
end
